-- ==== Sys2Proof/Word.lean ====
section
/-! DEFINITION. Word and byte types and their plainest arithmetic: fields of a number, two's-complement readings, and little-endian byte strings (R14, R18). -/
namespace Sys2Proof

abbrev Byte := BitVec 8
abbrev Word := BitVec 64
abbrev Word32 := BitVec 32

/-- Field of `n` bits at bit `lo` of a number: bits(v, lo + n − 1, lo) of R18. -/
def fieldAt (w lo n : Nat) : Nat := w / 2 ^ lo % 2 ^ n

/-- sext(v, w) of R18: the low `w` bits of `v` read as two's complement. -/
def sextNat (v w : Nat) : Int :=
  let m := v % 2 ^ w
  if 2 * m < 2 ^ w then (m : Int) else (m : Int) - 2 ^ w

/-- The 64-bit pattern of an integer. -/
def wordOfInt (i : Int) : Word := BitVec.ofInt 64 i

/-- The signed reading of a register value. -/
def signed (a : Word) : Int := a.toInt

/-- The low `n` bytes of a number, byte 0 first (R14). -/
def bytesOf : Nat → Nat → List Byte
  | 0, _ => []
  | n + 1, v => BitVec.ofNat 8 v :: bytesOf n (v / 256)

/-- The little-endian value of a byte string (R14). -/
def natOfBytes : List Byte → Nat
  | [] => 0
  | b :: bs => b.toNat + 256 * natOfBytes bs

/-- The value held under a key of an association list. -/
def assocGet {α β : Type} [DecidableEq α] : List (α × β) → α → Option β
  | [], _ => none
  | (k, v) :: l, a => if k = a then some v else assocGet l a

/-- Writes a key of an association list, in place when it is listed. -/
def assocSet {α β : Type} [DecidableEq α] : List (α × β) → α → β → List (α × β)
  | [], a, v => [(a, v)]
  | (k, w) :: l, a, v => if k = a then (a, v) :: l else (k, w) :: assocSet l a v

end Sys2Proof
end

