-- ==== Sys2Proof/Config.lean ====
section
/-! DEFINITION. What is fixed for the machine and what the manual leaves open. An `opaque` constant below has no body, so no proof can rest on its value. -/
namespace Sys2Proof.Config

/-- Free value number `i` of the step whose counter is `tick`: the choices of the interleaving, of a cache's content,
of a FREE-mode sum, and every value the manual leaves undefined. Log entry 11. -/
opaque free : Nat → Nat → Nat

/-- A free byte string of the step whose counter is `tick` (values another device returns). Log entry 12. -/
opaque freeBytes : Nat → Nat → List Byte

/-- XMSS verification of RFC 8391 with the parameter sets of R368: public key, message, signature. Log entry 13. -/
opaque xmssVerify : List Byte → List Byte → List Byte → Bool

/-- The XMSS signature that the security block makes with a one-time leaf of a key held inside it (R368). Key 0 is
the identity key, key n > 0 the attestation key drawn at boot n. Log entry 13. -/
opaque xmssSign : (key leaf : Nat) → List Byte → List Byte

/-- The public key of key number `key` of the security block (R368). Log entry 13. -/
opaque xmssPublicKey : (key : Nat) → List Byte

/-- The digest of the firmware key fused in the boot ROM (R369). Log entry 13. -/
opaque fusedKeyDigest : List Byte

/-- AES-256-GCM opening (R401): key, IV, additional data, sealed payload with its tag; none when the tag fails.
Log entry 13. -/
opaque gcmOpen : List Byte → List Byte → List Byte → List Byte → Option (List Byte)

/-- AES-256-GCM sealing (R401). Log entry 13. -/
opaque gcmSeal : List Byte → List Byte → List Byte → List Byte → List Byte

/-- Cores of a cluster that programs see (R4). -/
def coresPerCluster : Nat := 48

/-- Bytes of a core's scratchpad (R5). -/
def spadBytes : Nat := 0x80000

/-- First physical address beyond device memory (R196). -/
def devMemEnd : Nat := 0x8000000000

/-- Base of the memory-resident TLB (R354). -/
def tlbRegionBase : Nat := 0x7FC0000000

/-- Base of the register windows (R347). -/
def regWindowBase : Nat := 0x800000000000

/-- Size of one partition's register window (R347). -/
def regWindowSize : Nat := 0x40000000

/-- Route tags that each die gives a job (R135). -/
def routeTags : Nat := 16

/-- Distaff range contexts of a die (R318). -/
def distaffPerDie : Nat := 64

/-- Spare cores of a cluster (R4). -/
def sparesPerCluster : Nat := 4

/-- Spare rows of a stack bank; the manual gives no number (R398). Log entry 11. -/
opaque spareRows : Nat

end Sys2Proof.Config
end

