-- ==== Sys2Proof/Syntax.lean ====
section
/-! DEFINITION. The syntax of the machine: operand forms and `Instr`, one constructor per row of spec/opcode_table.json. Rows that are encoded instructions carry their guard (R25) and operands; rows that are events of an agent carry what the event names. -/
namespace Sys2Proof

/-- The two streams of a context bank (R7). -/
inductive StreamKind where
  | c
  | g
  deriving DecidableEq, Repr, Inhabited

/-- A context bank: a virtual core id (R11) and bank A (0) or B (1) of it (R277). -/
structure BankId where
  core : Nat
  bank : Nat
  deriving DecidableEq, Repr

/-- A stream: its bank and which of the two it is. -/
structure StreamId where
  bank : BankId
  kind : StreamKind
  deriving DecidableEq, Repr

/-- The guard of R25: a condition register and the sense under which it holds. -/
structure Guard where
  creg : BitVec 3
  sense : Bool
  deriving DecidableEq, Repr

/-- A C-stream source slot of R26: an x register, or a queue popped or peeked. -/
inductive Src where
  | reg (n : BitVec 6)
  | queue (q : BitVec 3) (peek : Bool)
  deriving DecidableEq, Repr

/-- A C-stream destination slot of R26: an x register, or a queue pushed. -/
inductive Dst where
  | reg (n : BitVec 6)
  | queue (q : BitVec 3)
  deriving DecidableEq, Repr

/-- A G-stream source slot. -/
inductive GSrc where
  | reg (n : BitVec 4)
  | queue (q : BitVec 3) (peek : Bool)
  deriving DecidableEq, Repr

/-- A G-stream destination slot. -/
inductive GDst where
  | reg (n : BitVec 4)
  | queue (q : BitVec 3)
  deriving DecidableEq, Repr

/-- The memory operand of format M (R30): span register, index register and signed offset. -/
structure MemRef where
  sb : BitVec 4
  xi : BitVec 6
  off : BitVec 18
  deriving DecidableEq, Repr

/-- Condition codes 0x0 to 0x9 of R57 (integer use). -/
inductive Cond where
  | eq | ne | lt | ge | le | gt | lo | hs | ls | hi
  deriving DecidableEq, Repr

/-- Condition codes of R57 under FCMP use. -/
inductive FCond where
  | eq | ne | lt | ge | le | gt | un | ord
  deriving DecidableEq, Repr

/-- Rounding codes of R60. -/
inductive Rnd where
  | rne | rtz | rdn | rup | sr
  deriving DecidableEq, Repr

/-- Scopes of R32. -/
inductive Scope where
  | co | cl | di | dv | dm
  deriving DecidableEq, Repr

/-- The ORD field of format M (R30). -/
inductive Order where
  | none | acq | rel | ar
  deriving DecidableEq, Repr

/-- FCVT pairs of R62. -/
inductive FcvtPair where
  | toS32 | toN32 | toS64 | toN64 | fromS32 | fromN32 | fromS64 | fromN64 | toBf16 | fromBf16 | toF16 | fromF16
  deriving DecidableEq, Repr

/-- Atomic operations of R68. -/
inductive AmoOp where
  | add | and | or | xor | min | max | swap | fadd | fmin | fmax
  deriving DecidableEq, Repr

/-- Atomic types of R68. -/
inductive AmoTy where
  | s32 | n32 | s64 | n64 | f32 | bf16
  deriving DecidableEq, Repr

/-- The kind of grid instruction that MCHK checks (R165). -/
inductive GridKind where
  | ctr | ctrs | red | cvt
  deriving DecidableEq, Repr

/-- A letter string of R31: letter slots, leftmost first. -/
abbrev Letters := List (BitVec 3)

/-- Operands of CTR, CTRS, RED, CVT (R155). FC names O, FA the input A, FB the input B. -/
structure GridArgs where
  fa : BitVec 5
  fb : BitVec 5
  fc : BitVec 5
  mr : BitVec 3
  lsa : Letters
  lsb : Letters
  lsc : Letters
  acc : Bool
  sat : Bool
  rnd : Rnd
  shape : BitVec 5
  deriving DecidableEq, Repr

/-- Node codes of the elementwise rule (R161). -/
inductive Node where
  | stop | a | b | c | k0 | k1 | x | add | sub | mul | fma | max | min | fn | selge | selgt
  deriving DecidableEq, Repr

/-- Functions of an FN node (R160). -/
inductive NodeFn where
  | neg | abs | recip | sqrt | rsqrt | exp2 | exp | cvt
  deriving DecidableEq, Repr

/-- Operands of EWR (R160). Node 0 stands first in `nodes`. -/
structure EwrArgs where
  fd : BitVec 5
  fa : BitVec 5
  fb : BitVec 5
  fc : BitVec 5
  mr : BitVec 3
  rnd : Rnd
  sat : Bool
  fn : NodeFn
  x : GSrc
  ma : BitVec 6
  mb : BitVec 6
  mc : BitVec 6
  lsd : Letters
  k0 : BitVec 16
  k1 : BitVec 16
  n0 : Node
  n1 : Node
  n2 : Node
  n3 : Node
  n4 : Node
  n5 : Node
  n6 : Node
  n7 : Node
  deriving DecidableEq, Repr

/-- The form of a Ply stream (R246): value type and width − 1. -/
structure PlyForm where
  bf : Bool
  dm1 : BitVec 8
  deriving DecidableEq, Repr

/-- Class of the members of a rendezvous (R294). -/
inductive RdvCls where
  | both | conly | gonly
  deriving DecidableEq, Repr

/-- Extent of a rendezvous (R294). -/
inductive RdvExt where
  | job | die | clu | core
  deriving DecidableEq, Repr

/-- The system registers of R79. -/
inductive SysReg where
  | status | trapcause | trappc | trapval | trapvec | trapaux | ctxbank | partid | asid | dtc | corecoord
  | bfmt (k : BitVec 4) | spwin | roundseed | fpflags | lwait | stall | quantum | plyDense
  | cpdone (c : BitVec 3) | dirtyctl | conflicts (e : BitVec 3)
  deriving DecidableEq, Repr

/-- A bind record of R310, field by field; `rsvd` is 1 when a reserved field is not 0. -/
structure BindRec where
  vmin : Nat
  vmaj : Nat
  op : Nat
  bank : Nat
  vcore : Nat
  part : Nat
  jobid : Nat
  lrec : Nat
  jd : Nat
  jc : Nat
  jk : Nat
  rsvd : Bool
  deriving DecidableEq, Repr

/-- A partition record of R365. -/
structure PartRec where
  vmin : Nat
  vmaj : Nat
  partid : Nat
  vf : Nat
  clumask : BitVec 32
  expAsid : Nat
  expEn : Bool
  lcasid : List Nat
  astab : Nat
  ranges : List (Nat × Nat)
  raw : List Byte
  deriving DecidableEq, Repr

/-- A firmware image as the ROM reads it (R369): public key, version, floor request, body, signature. -/
structure FwImage where
  key : List Byte
  svn : Nat
  raise : Bool
  body : List Byte
  sig : List Byte
  deriving DecidableEq, Repr

/-- A link flit (R395). -/
structure Flit where
  seq : Nat
  ackseq : Nat
  ackv : Bool
  nak : Bool
  vc : Nat
  payload : List Byte
  crc : Nat
  deriving DecidableEq, Repr

/-- A migration packet (R401), header field by field, with its sealed payload and tag. -/
structure MigPacket where
  session : Nat
  counter : Nat
  kind : Nat
  round : Nat
  addr : Nat
  length : Nat
  sealed : List Byte
  deriving DecidableEq, Repr

/-- A register file beside the x registers: conditions, loop counters, y, t and m registers. -/
inductive RegFile where
  | cC | lc | y | cG | t | m
  deriving DecidableEq, Repr

/-- Where an uncorrectable error is detected (R193, R393, R394); `bankState` with STRUCT 0x03 is an x register. -/
inductive EccSite where
  | bankState (b : BankId) (struct detail : Nat)
  | register (b : BankId) (file : RegFile) (n : Nat)
  | spanReg (b : BankId) (n : Nat)
  | instrMemory (b : BankId) (k : StreamKind)
  | memory (pa : Nat)
  | scratchpad (core off : Nat)
  | cleanLine (line : Nat)
  | modifiedLine (line : Nat)
  | plyBuffer (op : Nat) (index : Nat)
  | heldAccess (b : BankId) (path : Nat) (chan : Nat) (id : Nat) (addr : Nat)
  deriving DecidableEq, Repr

/-- Targets of a TLB invalidation (R361): core TLBs, cluster TLBs with the hub copy engines, the memory-resident TLB. -/
inductive TlbHolder where
  | core (n : Nat)
  | cluster (n : Nat)
  | mem
  deriving DecidableEq, Repr

/-- An Ultra Ethernet request from another device (R243). -/
inductive UeReq where
  | write (off : Nat) (data : List Byte)
  | read (off : Nat) (len : Nat)
  deriving DecidableEq, Repr

/-- An atomic that one device asks of another (R225): path (0 C, 4 N), operation, none for CAS, type, operands, and whether its
old value goes back. -/
structure RemoteAtomic where
  path : Nat
  op : Option AmoOp
  ty : AmoTy
  vals : List (BitVec 64)
  returns : Bool
  deriving DecidableEq, Repr

/-- What another device asks of the exported window (R195, R225, R356): a read of the length that the event names, a write, an
atomic. -/
inductive WindowReq where
  | read
  | write (data : List Byte)
  | atomic (a : RemoteAtomic)
  deriving DecidableEq, Repr

/-- The instructions and events of spec/opcode_table.json, one constructor per row. -/
inductive Instr where
  /-- R175. -/
  | add (g : Guard) (rd : Dst) (ra rb : Src)
  /-- R175. -/
  | sub (g : Guard) (rd : Dst) (ra rb : Src)
  /-- R175. -/
  | mul (g : Guard) (rd : Dst) (ra rb : Src)
  /-- R175. -/
  | mulhS (g : Guard) (rd : Dst) (ra rb : Src)
  /-- R175. -/
  | mulhN (g : Guard) (rd : Dst) (ra rb : Src)
  /-- R177. -/
  | divS (g : Guard) (rd : Dst) (ra rb : Src)
  /-- R177. -/
  | divN (g : Guard) (rd : Dst) (ra rb : Src)
  /-- R177. -/
  | remS (g : Guard) (rd : Dst) (ra rb : Src)
  /-- R177. -/
  | remN (g : Guard) (rd : Dst) (ra rb : Src)
  /-- R175. -/
  | and (g : Guard) (rd : Dst) (ra rb : Src)
  /-- R175. -/
  | or (g : Guard) (rd : Dst) (ra rb : Src)
  /-- R175. -/
  | xor (g : Guard) (rd : Dst) (ra rb : Src)
  /-- R175. -/
  | andn (g : Guard) (rd : Dst) (ra rb : Src)
  /-- R176. -/
  | shl (g : Guard) (rd : Dst) (ra rb : Src)
  /-- R176. -/
  | shr (g : Guard) (rd : Dst) (ra rb : Src)
  /-- R176. -/
  | sra (g : Guard) (rd : Dst) (ra rb : Src)
  /-- R176. -/
  | rol (g : Guard) (rd : Dst) (ra rb : Src)
  /-- R175. -/
  | minS (g : Guard) (rd : Dst) (ra rb : Src)
  /-- R175. -/
  | minN (g : Guard) (rd : Dst) (ra rb : Src)
  /-- R175. -/
  | maxS (g : Guard) (rd : Dst) (ra rb : Src)
  /-- R175. -/
  | maxN (g : Guard) (rd : Dst) (ra rb : Src)
  /-- R175. -/
  | clz (g : Guard) (rd : Dst) (ra : Src)
  /-- R175. -/
  | ctz (g : Guard) (rd : Dst) (ra : Src)
  /-- R175. -/
  | popc (g : Guard) (rd : Dst) (ra : Src)
  /-- R175. -/
  | bswap (g : Guard) (rd : Dst) (ra : Src)
  /-- R178, `w` is the width − 1. -/
  | extr (g : Guard) (rd : Dst) (ra : Src) (pos w : BitVec 6)
  /-- R178. -/
  | ins (g : Guard) (rd : BitVec 6) (ra : Src) (pos w : BitVec 6)
  /-- R178. -/
  | sext (g : Guard) (rd : Dst) (ra : Src) (w : BitVec 6)
  /-- R178. -/
  | zext (g : Guard) (rd : Dst) (ra : Src) (w : BitVec 6)
  /-- R179. -/
  | addi (g : Guard) (rd : Dst) (ra : Src) (imm : BitVec 32)
  /-- R179. -/
  | andi (g : Guard) (rd : Dst) (ra : Src) (imm : BitVec 32)
  /-- R179. -/
  | ori (g : Guard) (rd : Dst) (ra : Src) (imm : BitVec 32)
  /-- R179. -/
  | xori (g : Guard) (rd : Dst) (ra : Src) (imm : BitVec 32)
  /-- R179. -/
  | shli (g : Guard) (rd : Dst) (ra : Src) (sh : BitVec 6)
  /-- R179. -/
  | shri (g : Guard) (rd : Dst) (ra : Src) (sh : BitVec 6)
  /-- R179. -/
  | srai (g : Guard) (rd : Dst) (ra : Src) (sh : BitVec 6)
  /-- R179. -/
  | movi (g : Guard) (rd : Dst) (imm : BitVec 32)
  /-- R179. -/
  | movhi (g : Guard) (rd : BitVec 6) (imm : BitVec 32)
  /-- R58, R180. -/
  | cmpi (g : Guard) (cc : Cond) (cd : BitVec 3) (ra : Src) (imm : BitVec 32)
  /-- R180. -/
  | cmp (g : Guard) (cc : Cond) (cd : BitVec 3) (ra rb : Src)
  /-- R181. -/
  | sel (g : Guard) (rd : Dst) (ra rb : Src) (cs : BitVec 3)
  /-- R181. -/
  | cand (g : Guard) (cd ca cb : BitVec 3)
  /-- R181. -/
  | cor (g : Guard) (cd ca cb : BitVec 3)
  /-- R181. -/
  | cnot (g : Guard) (cd ca : BitVec 3)
  /-- R183. -/
  | fadd (g : Guard) (rnd : Rnd) (rd : Dst) (ra rb : Src)
  /-- R183. -/
  | fsub (g : Guard) (rnd : Rnd) (rd : Dst) (ra rb : Src)
  /-- R183. -/
  | fmul (g : Guard) (rnd : Rnd) (rd : Dst) (ra rb : Src)
  /-- R183. -/
  | fma (g : Guard) (rnd : Rnd) (rd : BitVec 6) (ra rb : Src)
  /-- R184. -/
  | fmin (g : Guard) (rd : Dst) (ra rb : Src)
  /-- R184. -/
  | fmax (g : Guard) (rd : Dst) (ra rb : Src)
  /-- R184. -/
  | fcmp (g : Guard) (cc : FCond) (cd : BitVec 3) (ra rb : Src)
  /-- R185. -/
  | fcvt (g : Guard) (pair : FcvtPair) (rnd : Rnd) (rd : Dst) (ra : Src)
  /-- R186. -/
  | br (g : Guard) (off : BitVec 26)
  /-- R186. -/
  | bc (g : Guard) (cc : Cond) (ra rb : Src) (off : BitVec 26)
  /-- R186. -/
  | call (g : Guard) (rl : BitVec 6) (off : BitVec 26)
  /-- R189. -/
  | loop (g : Guard) (lc : BitVec 2) (ra rb : Src) (off : BitVec 26)
  /-- R186. -/
  | jr (g : Guard) (ra : Src)
  /-- R186. -/
  | callr (g : Guard) (ra : Src) (rl : BitVec 6)
  /-- R186. -/
  | ret (g : Guard) (ra : Src)
  /-- R221, zero-extending. -/
  | ld (g : Guard) (size : BitVec 2) (rd : Dst) (m : MemRef)
  /-- R221, sign-extending. -/
  | ldSigned (g : Guard) (size : BitVec 2) (rd : Dst) (m : MemRef)
  /-- R221. -/
  | st (g : Guard) (size : BitVec 2) (rs : Src) (m : MemRef)
  /-- R221. -/
  | lda (g : Guard) (size : BitVec 2) (sc : Scope) (rd : Dst) (m : MemRef)
  /-- R221. -/
  | stl (g : Guard) (size : BitVec 2) (sc : Scope) (rs : Src) (m : MemRef)
  /-- R222. -/
  | ldp (g : Guard) (rd : BitVec 6) (m : MemRef)
  /-- R222. -/
  | stp (g : Guard) (rs : BitVec 6) (m : MemRef)
  /-- R232. -/
  | pref (g : Guard) (m : MemRef)
  /-- R232. -/
  | flush (g : Guard) (sc : Scope) (m : MemRef)
  /-- R230. -/
  | fence (g : Guard) (ord : Order) (sc : Scope)
  /-- R231. -/
  | fenceP (g : Guard) (mask : BitVec 6)
  /-- R228; `sc` is the scope of an acquiring WAITA. -/
  | waita (g : Guard) (cc : Cond) (wide : Bool) (sc : Option Scope) (rd : Dst) (m : MemRef) (rs2 rs3 : Src)
  /-- R223. -/
  | amo (g : Guard) (op : AmoOp) (ty : AmoTy) (ord : Order) (sc : Scope) (rd : Dst) (m : MemRef) (rs2 : Src)
  /-- R223. -/
  | amoB (g : Guard) (op : AmoOp) (ty : AmoTy) (ord : Order) (sc : Scope) (rd : Dst) (m : MemRef) (rs2 : Src)
  /-- R223. -/
  | amoN (g : Guard) (op : AmoOp) (ty : AmoTy) (ord : Order) (sc : Scope) (rd : Dst) (m : MemRef) (rs2 : Src)
  /-- R223. -/
  | amon (g : Guard) (op : AmoOp) (ty : AmoTy) (rel : Bool) (sc : Scope) (m : MemRef) (rs2 : Src)
  /-- R223. -/
  | amonB (g : Guard) (op : AmoOp) (ty : AmoTy) (rel : Bool) (sc : Scope) (m : MemRef) (rs2 : Src)
  /-- R223. -/
  | amonN (g : Guard) (op : AmoOp) (ty : AmoTy) (rel : Bool) (sc : Scope) (m : MemRef) (rs2 : Src)
  /-- R223. -/
  | cas (g : Guard) (wide : Bool) (ord : Order) (sc : Scope) (rd : Dst) (m : MemRef) (rs2 rs3 : Src)
  /-- R223. -/
  | casB (g : Guard) (wide : Bool) (ord : Order) (sc : Scope) (rd : Dst) (m : MemRef) (rs2 rs3 : Src)
  /-- R221, event: outstanding weak load `id` of bank `b` is performed. -/
  | loadReturn (b : BankId) (id : Nat)
  /-- R199, event: weak store `id` is performed, or its fault is held. -/
  | weakStorePerform (id : Nat)
  /-- R227, event: accepted atomic `id` is performed. -/
  | amonPerform (b : BankId) (id : Nat)
  /-- R209, event: the bank's waiting FENCE.P completes. -/
  | fencePComplete (b : BankId)
  /-- R148. -/
  | tdef (g : Guard) (t : BitVec 5) (m : MemRef)
  /-- R148. -/
  | tld (g : Guard) (t : BitVec 5) (m : MemRef)
  /-- R148. -/
  | tst (g : Guard) (t : BitVec 5) (m : MemRef)
  /-- R148. -/
  | mld (g : Guard) (mr : BitVec 3) (m : MemRef)
  /-- R148. -/
  | mst (g : Guard) (mr : BitVec 3) (m : MemRef)
  /-- R150. -/
  | tset (g : Guard) (t : BitVec 5) (ra : Src) (k : BitVec 3)
  /-- R150. -/
  | tget (g : Guard) (rd : Dst) (t : BitVec 5) (k : BitVec 3)
  /-- R151. -/
  | thand (g : Guard) (t : BitVec 5)
  /-- R152. -/
  | bfset (g : Guard) (bank : BitVec 4) (ra : Src)
  /-- R153. -/
  | map (g : Guard) (mr : BitVec 3) (ra : Src) (slot : BitVec 3) (pos : BitVec 2)
  /-- R153. -/
  | mapTile (g : Guard) (mr : BitVec 3) (ra : Src)
  /-- R153. -/
  | mclr (g : Guard) (mr : BitVec 3)
  /-- R165. -/
  | mchk (g : Guard) (kind : GridKind) (rx : Dst) (a : GridArgs)
  /-- R156. -/
  | ctr (g : Guard) (a : GridArgs)
  /-- R157. -/
  | ctrs (g : Guard) (a : GridArgs)
  /-- R158. -/
  | red (g : Guard) (a : GridArgs)
  /-- R159. -/
  | cvt (g : Guard) (a : GridArgs)
  /-- R160. -/
  | ewr (g : Guard) (a : EwrArgs)
  /-- R141, event: the grid instruction waiting at issue issues. -/
  | gridIssue (b : BankId)
  /-- R141, event: in-flight grid instruction `seq` completes. -/
  | gridComplete (b : BankId) (seq : Nat)
  /-- R135, event: Spindle message `id`, a HASH, reaches the root. -/
  | hashMessage (id : Nat)
  /-- R135, event: the job's root takes the route tags it waits for. -/
  | routeTagGrant (job : Nat)
  /-- R135, event: a GO reaches its participant. -/
  | goMessage (id : Nat)
  /-- R135, event: a STOP reaches its participant. -/
  | stopMessage (id : Nat)
  /-- R133, event: an operand chunk arrives. -/
  | opndMessage (id : Nat)
  /-- R132, event: node values arrive at an owner. -/
  | nodeMessage (id : Nat)
  /-- R132, event: exact partials arrive at an owner. -/
  | exactMessage (id : Nat)
  /-- R166. -/
  | gmov (g : Guard) (rd : GDst) (ra : GSrc)
  /-- R166. -/
  | gadd (g : Guard) (rd : GDst) (ra rb : GSrc)
  /-- R166. -/
  | gsub (g : Guard) (rd : GDst) (ra rb : GSrc)
  /-- R166. -/
  | gcmp (g : Guard) (cc : Cond) (cd : BitVec 3) (ra rb : GSrc)
  /-- R166. -/
  | gqpop (g : Guard) (rd : BitVec 4) (q : BitVec 3) (peek : Bool)
  /-- R166. -/
  | gqpush (g : Guard) (q : BitVec 3) (ra : BitVec 4)
  /-- R167. -/
  | gloop (g : Guard) (ra : BitVec 4) (off : BitVec 26)
  /-- R167. -/
  | gbr (g : Guard) (off : BitVec 26)
  /-- R167. -/
  | gbc (g : Guard) (cc : Cond) (ra rb : GSrc) (off : BitVec 26)
  /-- R168. -/
  | gsig (g : Guard) (fl : BitVec 4)
  /-- R168. -/
  | gsigD (g : Guard) (fl : BitVec 4)
  /-- R169. -/
  | gwaitf (g : Guard) (fl : BitVec 4) (v : Bool)
  /-- R170. -/
  | gdrain (g : Guard)
  /-- R170. -/
  | gidle (g : Guard)
  /-- R170. -/
  | gend (g : Guard)
  /-- R151. -/
  | gthand (g : Guard) (t : BitVec 5)
  /-- R239; `sc` is the scope of the completion word. -/
  | copy (g : Guard) (ch : BitVec 3) (sc : Option Scope) (cvr : BitVec 6) (fa fb fc : BitVec 4) (rx : Dst) (ry rz : Src) (len : BitVec 48)
  /-- R242. -/
  | tcopy (g : Guard) (ch : BitVec 3) (sc : Option Scope) (csb : BitVec 4) (fa fc : BitVec 5) (lsa lsc : Letters) (rx : Dst)
  /-- R240. -/
  | mcast (g : Guard) (ch : BitVec 3) (sc : Option Scope) (cvr : BitVec 6) (fa fb fc : BitVec 4) (rx : Dst) (ry rz : Src) (mask : BitVec 48)
  /-- R235, event: a transfer completes. -/
  | transferComplete (b : BankId) (ch : BitVec 3) (id : Nat)
  /-- R248. -/
  | plysort (g : Guard) (fa : BitVec 4) (rx : Dst) (ry rz : Src) (form : PlyForm)
  /-- R249. -/
  | plysend (g : Guard) (ch : BitVec 3) (fa : BitVec 4) (rx : Dst) (ry rz : Src) (form : PlyForm) (core : BitVec 11) (hank : BitVec 4)
  /-- R251. -/
  | plyred (g : Guard) (ch : BitVec 3) (fa fb : BitVec 4) (rx : Dst) (ry rz : Src) (form : PlyForm)
  /-- R247, event: one slot of Ply operation `op` is committed. -/
  | plySlotCommit (op : Nat)
  /-- R244. -/
  | cpwait (g : Guard) (ch : BitVec 3) (rd : Dst) (ra : Src)
  /-- R244. -/
  | cpstatNext (g : Guard) (ch : BitVec 3) (rd : Dst)
  /-- R244. -/
  | cpstatBusy (g : Guard) (ch : BitVec 3) (rd : Dst)
  /-- R254. -/
  | plystat (g : Guard) (k : BitVec 2) (rd : Dst)
  /-- R254. -/
  | plystatClr (g : Guard) (k : BitVec 2) (rd : Dst)
  /-- R271; `hd` is HD − 1. -/
  | areg (g : Guard) (fa : BitVec 4) (rx : Dst) (ry rz : Src) (hd : BitVec 8) (lnu : BitVec 3) (rows : BitVec 20)
  /-- R271. -/
  | aregFree (g : Guard) (ry : Src)
  /-- R272. -/
  | aqpost (g : Guard) (fa : BitVec 4) (rx : Dst) (ry rz : Src) (hr : BitVec 6) (hank : BitVec 4)
  /-- R273. -/
  | aqwait (g : Guard) (rx : Dst) (cr : BitVec 6) (ry : Src)
  /-- R274. -/
  | aappend (g : Guard) (fa : BitVec 4) (rx : Dst) (ry : Src) (hr : BitVec 6)
  /-- R274. -/
  | acommit (g : Guard) (rx : Dst) (ry : Src) (hr : BitVec 6)
  /-- R269, event: the stack's reply to the bank's Attar instruction arrives. -/
  | attarStackReply (b : BankId)
  /-- R264, event: the next unit of a query commits its triple. -/
  | attarSlotCommit (b : BankId) (qid : Nat)
  /-- R294. -/
  | rdv (g : Guard) (cls : RdvCls) (ext : RdvExt) (id : BitVec 6)
  /-- R294, event: an instance of a join opens. -/
  | rdvOpen (job id n slot : Nat)
  /-- R281. -/
  | qpush (g : Guard) (q : BitVec 3) (ra : Src)
  /-- R281. -/
  | qpop (g : Guard) (rd : BitVec 6) (q : BitVec 3)
  /-- R281. -/
  | qpeek (g : Guard) (rd : BitVec 6) (q : BitVec 3)
  /-- R281. -/
  | qpeekCnt (g : Guard) (rd : BitVec 6) (q : BitVec 3)
  /-- R280, event: a waiting queue operation completes. -/
  | queueWake (i : StreamId)
  /-- R284. -/
  | flset (g : Guard) (fl : BitVec 4)
  /-- R284. -/
  | flclr (g : Guard) (fl : BitVec 4)
  /-- R284. -/
  | flwait (g : Guard) (rd ra : BitVec 6) (v : Bool) (fl : BitVec 4)
  /-- R283, event: a flag waiter observes its flag. -/
  | flagWaitWake (i : StreamId)
  /-- R170, event: GIDLE completes. -/
  | gidleWake (b : BankId)
  /-- R288. -/
  | hbind (g : Guard) (h : BitVec 4) (ra : BitVec 6)
  /-- R289. -/
  | hclaim (g : Guard) (h : BitVec 4) (rd ra : BitVec 6)
  /-- R289. -/
  | hclaimR (g : Guard) (h : BitVec 4) (rd ra : BitVec 6) (core : BitVec 6)
  /-- R290. -/
  | hcommit (g : Guard) (h : BitVec 4) (ra rb : BitVec 6)
  /-- R290. -/
  | hcommitR (g : Guard) (h : BitVec 4) (ra rb : BitVec 6) (core : BitVec 6)
  /-- R289, event: a remote claim or commit arrives at the home bank. -/
  | hankRemoteMessage (id : Nat)
  /-- R291. -/
  | hwaitf (g : Guard) (h : BitVec 4) (rd ra : BitVec 6)
  /-- R291. -/
  | hwaite (g : Guard) (h : BitVec 4) (rd ra : BitVec 6)
  /-- R291. -/
  | htake (g : Guard) (h : BitVec 4) (rd ra : BitVec 6)
  /-- R291. -/
  | hdone (g : Guard) (h : BitVec 4) (ra : BitVec 6)
  /-- R291, event: a hank wait completes. -/
  | hankWaitWake (b : BankId)
  /-- R295. -/
  | yieldC (g : Guard)
  /-- R295. -/
  | endC (g : Guard)
  /-- R228, event: a waiting WAITA reads again and its condition holds. -/
  | waitaWake (b : BankId)
  /-- R228, event: the DTC passes the deadline of a waiting WAITA, FLWAIT or EVWAIT. -/
  | waitDeadline (b : BankId)
  /-- R244, event: a CPWAIT or full-channel wait ends. -/
  | cpwaitWake (b : BankId)
  /-- R273, event: an AQWAIT or query-slot wait ends. -/
  | aqwaitWake (b : BankId)
  /-- R142, event: a TDEF, TLD or TSET waiting for ownership proceeds. -/
  | tensorOwnerWake (b : BankId)
  /-- R320. -/
  | evset (g : Guard) (ctx : BitVec 4) (bit : BitVec 8)
  /-- R320. -/
  | evclr (g : Guard) (ctx : BitVec 4) (bit : BitVec 8)
  /-- R320. -/
  | evwait (g : Guard) (rd rb : BitVec 6) (ctx : BitVec 4) (bit : BitVec 8)
  /-- R320, event: EVWAIT observes the bit set. -/
  | evwaitWake (b : BankId)
  /-- R319. -/
  | dinit (g : Guard) (die : BitVec 2) (rc : BitVec 6) (ra rb : Src)
  /-- R319. -/
  | dclaim (g : Guard) (rd : Dst) (die : BitVec 2) (rc : BitVec 6)
  /-- R321. -/
  | launch (g : Guard) (rd : BitVec 6) (m : MemRef)
  /-- R321, event: a ring slot is free for a waiting LAUNCH. -/
  | launchSlotWake (b : BankId)
  /-- R301, event: the host writes a tail doorbell. -/
  | hostDoorbell (part ctx tail : Nat)
  /-- R301, event: the scheduler copies the record at a ring's head; `torn` when a host overwrite tore the copy. -/
  | recordCopy (part ctx : Nat) (dev torn : Bool)
  /-- R309, event: firmware places a record on the named banks. -/
  | dispatch (part arrival jobid : Nat) (places : List BankId)
  /-- R316, event: a replay record becomes an instance of its graph. -/
  | graphInstanceStart (part arrival : Nat)
  /-- R310, event: bind record. -/
  | bind (r : BindRec)
  /-- R310, event: bind record. -/
  | start (r : BindRec)
  /-- R387, event: bind record. -/
  | preempt (r : BindRec)
  /-- R387, event: DRAIN_NS has passed since a PREEMPT of the bank. -/
  | preemptDrainExpiry (b : BankId)
  /-- R391, event: bind record. -/
  | resume (r : BindRec)
  /-- R310, event: bind record. -/
  | release (r : BindRec)
  /-- R308, event. -/
  | jobComplete (job : Nat)
  /-- R313, event: a team reaches its quantum boundary. -/
  | quantumBoundary (job jd jc : Nat)
  /-- R298, event. -/
  | longWaitSwap (job jd jc : Nat)
  /-- R299, event. -/
  | wakeSourceFire (job jd jc : Nat)
  /-- R299, event: `bank` is twice the cluster number (die * 8 + cluster) plus the bank. -/
  | teamRebind (job jd jc : Nat) (bank : Nat)
  /-- R322, event. -/
  | sillageRecord (job : Nat)
  /-- R325, event. -/
  | schedulerRestart
  /-- R334. -/
  | spmint (g : Guard) (b : BitVec 4) (ra : BitVec 6)
  /-- R335. -/
  | spnarrow (g : Guard) (bd ba : BitVec 4) (rb : Src) (mask : BitVec 8)
  /-- R335. -/
  | spoff (g : Guard) (bd ba : BitVec 4) (rb : Src)
  /-- R336. -/
  | spget (g : Guard) (rd : Dst) (b : BitVec 4) (sel : BitVec 3)
  /-- R336. -/
  | spmov (g : Guard) (bd ba : BitVec 4)
  /-- R336. -/
  | spmovClr (g : Guard) (bd : BitVec 4)
  /-- R337. -/
  | spld (g : Guard) (b : BitVec 4) (m : MemRef)
  /-- R337. -/
  | spst (g : Guard) (b : BitVec 4) (m : MemRef)
  /-- R344. -/
  | ovld (g : Guard) (rd : Dst) (ra rb : Src)
  /-- R344. -/
  | ovldG (g : Guard) (ra rb : Src)
  /-- R331, event. -/
  | hostMemoryWrite (pa : Nat) (data : List Byte)
  /-- R361. -/
  | tlbinvPage (g : Guard) (ra : Src) (asid : BitVec 12)
  /-- R361. -/
  | tlbinvAsid (g : Guard) (asid : BitVec 12)
  /-- R361. -/
  | tlbinvPart (g : Guard)
  /-- R362. -/
  | tlbsync (g : Guard)
  /-- R364. -/
  | dirtysync (g : Guard) (asid : BitVec 12)
  /-- R362, event: a target acknowledges the invalidations sent to it. -/
  | tlbAcknowledge (t : TlbHolder)
  /-- R352, event: a walker completes a translation for the TLBs of a core. -/
  | pageWalk (core part asid va : Nat) (write : Bool)
  /-- R356, event: an access of another device arrives. -/
  | domainWindowAccess (off : Nat) (r : WindowReq) (len : Nat)
  /-- R365, event. -/
  | partitionCreate (r : PartRec)
  /-- R367, event. -/
  | deviceIdAssign (id : Nat)
  /-- R370, event. -/
  | measExtend (part idx : Nat) (d : List Byte)
  /-- R371, event. -/
  | quoteRequest (part : Nat) (nonce : List Byte)
  /-- R369, event: the ROM checks the firmware slot; the boot firmware measures the two images. -/
  | boot (mgmt sched : List Byte)
  /-- R403, event. -/
  | firmwareRecoveryImage (img : FwImage)
  /-- R384. -/
  | trap (g : Guard) (imm : BitVec 15)
  /-- R384. -/
  | eret (g : Guard)
  /-- R384. -/
  | srd (g : Guard) (rd : Dst) (r : SysReg)
  /-- R384. -/
  | swr (g : Guard) (r : SysReg) (ra : Src)
  /-- R384. -/
  | srx (g : Guard) (rd : Dst) (r : SysReg) (ra : Src)
  /-- R386. -/
  | brk (g : Guard) (imm : BitVec 15)
  /-- R386. -/
  | halt (g : Guard) (imm : BitVec 15)
  /-- R386, event: the write of the other bank number drains this bank and switches. -/
  | ctxbankWrite (b : BankId)
  /-- R357, event: a write that changes EN completes. -/
  | dirtyctlWrite (b : BankId)
  /-- R380, event: a waiting ring trap writes its record. -/
  | ringTrap (b : BankId)
  /-- R381, event: a drained bank's core switches. -/
  | bankSwitch (core : Nat)
  /-- R382, event. -/
  | fanswerRetry (part seq : Nat)
  /-- R382, event. -/
  | fanswerDeliver (part seq : Nat)
  /-- R382, event. -/
  | fanswerAbort (part seq : Nat)
  /-- R386, event. -/
  | dbgcmdHalt (part : Nat) (b : BankId)
  /-- R386, event. -/
  | dbgcmdResume (part : Nat) (b : BankId)
  /-- R379, event. -/
  | dbgcmdAttach (part : Nat) (b : BankId)
  /-- R379, event. -/
  | dbgcmdDetach (part : Nat) (b : BankId)
  /-- R402, event. -/
  | migcmdStart (part arg : Nat)
  /-- R402, event. -/
  | migcmdRound (part arg : Nat)
  /-- R402, event. -/
  | migcmdStop (part arg : Nat)
  /-- R402, event. -/
  | migcmdCancel (part arg : Nat)
  /-- R401, event: a packet arrives at the target. -/
  | migrationPacket (part : Nat) (p : MigPacket)
  /-- R379, event: the host writes a window register without a row of its own. -/
  | registerWindowWrite (part off size : Nat) (v : Word)
  /-- R393, event. -/
  | eccError (site : EccSite)
  /-- R397, event. -/
  | coreFailure (core : Nat)
  /-- R395, event: a link receives a flit. -/
  | linkFlit (link : Nat) (f : Flit)
  /-- R405, event. -/
  | throttleEnter (level power temp : Nat)
  /-- R405, event. -/
  | throttleExit (level : Nat)
  /-- R405, event. -/
  | thermalShutdown (temp : Nat)
  /-- R243, event. -/
  | ueRmaRequest (r : UeReq)
  /-- R395, event: training with a partner that supports up to the given version. -/
  | linkTraining (link vmaj vmin : Nat)
  /-- R398, event. -/
  | rowRepair (stack bank : Nat)
  /-- R368, event. -/
  | powerLoss
  /-- R400, event. -/
  | migrationKeySupply (part : Nat) (key : List Byte)
  /-- R401, event: the source receives acknowledgements. -/
  | migrationAcknowledge (part : Nat) (counters : List Nat)
  deriving DecidableEq, Repr

end Sys2Proof
end

