-- ==== Sys2Proof/Decode.lean ====
section
/-! DEFINITION. Decoding (R22 to R33, and the encodings of R49 to R79), total on any words and rejecting by trap cause, and the encoder written from the same tables. A word is a number; fields are taken by `fieldAt`. -/
namespace Sys2Proof

/-! ### Trap causes of decoding (R33, codes of R374) -/

def cILLEGAL_LENGTH : Nat := 0x01
def cILLEGAL_OPCODE : Nat := 0x02
def cILLEGAL_FIELD : Nat := 0x03
def cILLEGAL_STREAM : Nat := 0x04
def cPRIVILEGED : Nat := 0x05
def cFETCH_BOUNDS : Nat := 0x0C

/-- A field check of step 8 of R33: whether it holds, and the lowest bit of the field. -/
abbrev Check := Bool × Nat

/-- The lowest bit of the offending field whose lowest bit is lowest; none when every check holds (R33). -/
def lowestBad : List Check → Option Nat
  | [] => none
  | (ok, n) :: l =>
    if ok then lowestBad l
    else match lowestBad l with
      | none => some n
      | some m => some (min n m)

/-! ### Operand slots -/

/-- Whether a 7-bit operand field is valid for the x file (R26). -/
def okX (w lo : Nat) : Bool := fieldAt w (lo + 6) 1 = 0 || fieldAt w (lo + 3) 3 = 0

/-- Whether a 7-bit operand field is valid for the y file (R26). -/
def okY (w lo : Nat) : Bool := if fieldAt w (lo + 6) 1 = 0 then fieldAt w lo 6 < 16 else fieldAt w (lo + 3) 3 = 0

def srcAt (w lo pk : Nat) : Src :=
  if fieldAt w (lo + 6) 1 = 1 then .queue (BitVec.ofNat 3 (fieldAt w lo 3)) (fieldAt w pk 1 = 1)
  else .reg (BitVec.ofNat 6 (fieldAt w lo 6))

/-- A source slot of a format without a peek bit for it (R53): it pops. -/
def popSrcAt (w lo : Nat) : Src :=
  if fieldAt w (lo + 6) 1 = 1 then .queue (BitVec.ofNat 3 (fieldAt w lo 3)) false
  else .reg (BitVec.ofNat 6 (fieldAt w lo 6))

def dstAt (w lo : Nat) : Dst :=
  if fieldAt w (lo + 6) 1 = 1 then .queue (BitVec.ofNat 3 (fieldAt w lo 3)) else .reg (BitVec.ofNat 6 (fieldAt w lo 6))

def gsrcAt (w lo pk : Nat) : GSrc :=
  if fieldAt w (lo + 6) 1 = 1 then .queue (BitVec.ofNat 3 (fieldAt w lo 3)) (fieldAt w pk 1 = 1)
  else .reg (BitVec.ofNat 4 (fieldAt w lo 4))

def gpopSrcAt (w lo : Nat) : GSrc :=
  if fieldAt w (lo + 6) 1 = 1 then .queue (BitVec.ofNat 3 (fieldAt w lo 3)) false
  else .reg (BitVec.ofNat 4 (fieldAt w lo 4))

def gdstAt (w lo : Nat) : GDst :=
  if fieldAt w (lo + 6) 1 = 1 then .queue (BitVec.ofNat 3 (fieldAt w lo 3)) else .reg (BitVec.ofNat 4 (fieldAt w lo 4))

/-- A reserved field of `n` bits (R16). -/
def ckZero (w lo n : Nat) (at' : Nat := lo) : Check := (fieldAt w lo n = 0, at')

/-- A source slot with its peek bit (R26, R27). -/
def ckSrc (w lo pk : Nat) (base : Nat := 0) : List Check :=
  [(okX w lo, base + lo), (fieldAt w (lo + 6) 1 = 1 || fieldAt w pk 1 = 0, base + pk)]

def ckX (w lo : Nat) : Check := (okX w lo, lo)
def ckGSrc (w lo pk : Nat) : List Check :=
  [(okY w lo, lo), (fieldAt w (lo + 6) 1 = 1 || fieldAt w pk 1 = 0, pk)]
def ckY (w lo : Nat) : Check := (okY w lo, lo)
/-- A slot that must name an x register (R53, R285). -/
def ckReg (w lo : Nat) : Check := (fieldAt w (lo + 6) 1 = 0, lo)
/-- A slot that names a file of `n` registers other than the natural one (R52). -/
def ckFile (w lo n : Nat) : Check := (fieldAt w lo 7 < n, lo)
/-- A slot that must name a queue (R73, R285). -/
def ckQueue (w lo : Nat) : Check := (fieldAt w (lo + 6) 1 = 1 && fieldAt w (lo + 3) 3 = 0, lo)

def bv (n : Nat) (w lo : Nat) : BitVec n := BitVec.ofNat n (fieldAt w lo n)
def bitAt (w lo : Nat) : Bool := fieldAt w lo 1 = 1

/-! ### Code tables -/

/-- R57, integer use; codes above 0x9 are refused by the checks. -/
def condOf : Nat → Cond
  | 0 => .eq | 1 => .ne | 2 => .lt | 3 => .ge | 4 => .le | 5 => .gt | 6 => .lo | 7 => .hs | 8 => .ls | _ => .hi

def condCode : Cond → Nat
  | .eq => 0 | .ne => 1 | .lt => 2 | .ge => 3 | .le => 4 | .gt => 5 | .lo => 6 | .hs => 7 | .ls => 8 | .hi => 9

/-- R57, FCMP use. -/
def fcondOf : Nat → FCond
  | 0 => .eq | 1 => .ne | 2 => .lt | 3 => .ge | 4 => .le | 5 => .gt | 0xA => .un | _ => .ord

def fcondCode : FCond → Nat
  | .eq => 0 | .ne => 1 | .lt => 2 | .ge => 3 | .le => 4 | .gt => 5 | .un => 0xA | .ord => 0xB

/-- R60. -/
def rndOf : Nat → Rnd
  | 0 => .rne | 1 => .rtz | 2 => .rdn | 3 => .rup | _ => .sr

def rndCode : Rnd → Nat
  | .rne => 0 | .rtz => 1 | .rdn => 2 | .rup => 3 | .sr => 4

/-- R32; code 0 (none) is not a scope. -/
def scopeOf : Nat → Scope
  | 1 => .co | 2 => .cl | 3 => .di | 4 => .dv | _ => .dm

def scopeCode : Scope → Nat
  | .co => 1 | .cl => 2 | .di => 3 | .dv => 4 | .dm => 5

def scopeOptOf (n : Nat) : Option Scope := if n = 0 then none else some (scopeOf n)
def scopeOptCode : Option Scope → Nat
  | none => 0
  | some s => scopeCode s

def orderOf : Nat → Order
  | 0 => .none | 1 => .acq | 2 => .rel | _ => .ar

def orderCode : Order → Nat
  | .none => 0 | .acq => 1 | .rel => 2 | .ar => 3

/-- R62. -/
def fcvtOf : Nat → FcvtPair
  | 0 => .toS32 | 1 => .toN32 | 2 => .toS64 | 3 => .toN64 | 4 => .fromS32 | 5 => .fromN32 | 6 => .fromS64
  | 7 => .fromN64 | 8 => .toBf16 | 9 => .fromBf16 | 0xA => .toF16 | _ => .fromF16

def fcvtCode : FcvtPair → Nat
  | .toS32 => 0 | .toN32 => 1 | .toS64 => 2 | .toN64 => 3 | .fromS32 => 4 | .fromN32 => 5 | .fromS64 => 6
  | .fromN64 => 7 | .toBf16 => 8 | .fromBf16 => 9 | .toF16 => 0xA | .fromF16 => 0xB

/-- R68. -/
def amoOpOf : Nat → AmoOp
  | 0 => .add | 1 => .and | 2 => .or | 3 => .xor | 4 => .min | 5 => .max | 6 => .swap | 7 => .fadd | 8 => .fmin
  | _ => .fmax

def amoOpCode : AmoOp → Nat
  | .add => 0 | .and => 1 | .or => 2 | .xor => 3 | .min => 4 | .max => 5 | .swap => 6 | .fadd => 7 | .fmin => 8
  | .fmax => 9

def amoTyOf : Nat → AmoTy
  | 0 => .s32 | 1 => .n32 | 2 => .s64 | 3 => .n64 | 4 => .f32 | _ => .bf16

def amoTyCode : AmoTy → Nat
  | .s32 => 0 | .n32 => 1 | .s64 => 2 | .n64 => 3 | .f32 => 4 | .bf16 => 5

/-- The SIZE code of a type (R68). -/
def amoTySize : AmoTy → Nat
  | .s32 => 2 | .n32 => 2 | .s64 => 3 | .n64 => 3 | .f32 => 2 | .bf16 => 1

/-- The combinations of R68 on paths C and B. -/
def amoOkCB : AmoOp → AmoTy → Bool
  | .add, t | .min, t | .max, t => t = .s32 || t = .n32 || t = .s64 || t = .n64
  | .and, t | .or, t | .xor, t | .swap, t => t = .n32 || t = .n64
  | .fadd, t => t = .f32 || t = .bf16
  | .fmin, t | .fmax, t => t = .f32

/-- The combinations of R68 on path N. -/
def amoOkN : AmoOp → AmoTy → Bool
  | .add, t => t = .s64
  | .min, t | .max, t => t = .s64 || t = .n64
  | .swap, t => t = .n64
  | .fadd, t => t = .f32 || t = .bf16
  | _, _ => false

/-- R161. -/
def nodeOf : Nat → Node
  | 0 => .stop | 1 => .a | 2 => .b | 3 => .c | 4 => .k0 | 5 => .k1 | 6 => .x | 7 => .add | 8 => .sub | 9 => .mul
  | 0xA => .fma | 0xB => .max | 0xC => .min | 0xD => .fn | 0xE => .selge | _ => .selgt

def nodeCode : Node → Nat
  | .stop => 0 | .a => 1 | .b => 2 | .c => 3 | .k0 => 4 | .k1 => 5 | .x => 6 | .add => 7 | .sub => 8 | .mul => 9
  | .fma => 0xA | .max => 0xB | .min => 0xC | .fn => 0xD | .selge => 0xE | .selgt => 0xF

/-- R160. -/
def nodeFnOf : Nat → NodeFn
  | 0 => .neg | 1 => .abs | 2 => .recip | 3 => .sqrt | 4 => .rsqrt | 5 => .exp2 | 6 => .exp | _ => .cvt

def nodeFnCode : NodeFn → Nat
  | .neg => 0 | .abs => 1 | .recip => 2 | .sqrt => 3 | .rsqrt => 4 | .exp2 => 5 | .exp => 6 | .cvt => 7

def gridKindOf : Nat → GridKind
  | 0 => .ctr | 1 => .ctrs | 2 => .red | _ => .cvt

def gridKindCode : GridKind → Nat
  | .ctr => 0 | .ctrs => 1 | .red => 2 | .cvt => 3

def rdvClsOf : Nat → RdvCls
  | 0 => .both | 1 => .conly | _ => .gonly

def rdvClsCode : RdvCls → Nat
  | .both => 0 | .conly => 1 | .gonly => 2

def rdvExtOf : Nat → RdvExt
  | 0 => .job | 1 => .die | 2 => .clu | _ => .core

def rdvExtCode : RdvExt → Nat
  | .job => 0 | .die => 1 | .clu => 2 | .core => 3

/-- The system register of a SYSNUM value, none outside the table of R79. -/
def sysRegOf (n : Nat) : Option SysReg :=
  if n = 0x000 then some .status else if n = 0x001 then some .trapcause else if n = 0x002 then some .trappc
  else if n = 0x003 then some .trapval else if n = 0x004 then some .trapvec else if n = 0x005 then some .trapaux
  else if n = 0x008 then some .ctxbank else if n = 0x009 then some .partid else if n = 0x00A then some .asid
  else if n = 0x010 then some .dtc else if n = 0x011 then some .corecoord
  else if 0x020 ≤ n ∧ n ≤ 0x02F then some (.bfmt (BitVec.ofNat 4 n)) else if n = 0x030 then some .spwin
  else if n = 0x031 then some .roundseed else if n = 0x032 then some .fpflags else if n = 0x040 then some .lwait
  else if n = 0x041 then some .stall else if n = 0x042 then some .quantum else if n = 0x048 then some .plyDense
  else if 0x050 ≤ n ∧ n ≤ 0x057 then some (.cpdone (BitVec.ofNat 3 n)) else if n = 0x060 then some .dirtyctl
  else if 0x070 ≤ n ∧ n ≤ 0x077 then some (.conflicts (BitVec.ofNat 3 n)) else none

def sysRegNum : SysReg → Nat
  | .status => 0x000 | .trapcause => 0x001 | .trappc => 0x002 | .trapval => 0x003 | .trapvec => 0x004
  | .trapaux => 0x005 | .ctxbank => 0x008 | .partid => 0x009 | .asid => 0x00A | .dtc => 0x010 | .corecoord => 0x011
  | .bfmt k => 0x020 + k.toNat | .spwin => 0x030 | .roundseed => 0x031 | .fpflags => 0x032 | .lwait => 0x040
  | .stall => 0x041 | .quantum => 0x042 | .plyDense => 0x048 | .cpdone c => 0x050 + c.toNat | .dirtyctl => 0x060
  | .conflicts e => 0x070 + e.toNat

/-- Whether SRD of a register is privileged (R79). -/
def srdPriv : SysReg → Bool
  | .status | .trapcause | .trappc | .trapval | .trapvec | .trapaux | .asid | .dirtyctl => true
  | _ => false

/-- Whether a register refuses SWR and SRX (R79). -/
def sysReadOnly : SysReg → Bool
  | .partid | .dtc | .corecoord | .cpdone _ => true
  | _ => false

/-- Whether SWR of a register is privileged (R79). -/
def swrPriv : SysReg → Bool
  | .spwin | .roundseed | .fpflags | .plyDense => false
  | _ => true

/-! ### Letter strings and masks (R30, R31) -/

def lettersAt (w lo : Nat) : Letters :=
  (List.range (fieldAt w (lo + 18) 3)).map (fun j => bv 3 w (lo + 3 * j))

/-- R31: at most six letters, zero fields above them, no letter repeated. -/
def okLetters (w lo : Nat) : Bool :=
  let nl := fieldAt w (lo + 18) 3
  nl ≤ 6 && fieldAt w (lo + 3 * nl) (18 - 3 * nl) = 0 && decide (lettersAt w lo).Nodup

def ckLetters (w lo base : Nat) : Check := (okLetters w lo, base + lo)

/-- Mask bits at or above the letter count are reserved one by one (R30). -/
def ckMask (w lo nl base : Nat) : List Check :=
  (List.range 6).map (fun j => (j < nl || fieldAt w (lo + j) 1 = 0, base + lo + j))

/-! ### The elementwise rule (R161, R162) -/

/-- Values popped and pushed by a node. -/
def nodeEffect : Node → Nat × Nat
  | .stop => (0, 0)
  | .a | .b | .c | .k0 | .k1 | .x => (0, 1)
  | .add | .sub | .mul | .max | .min => (2, 1)
  | .fma => (3, 1)
  | .fn => (1, 1)
  | .selge | .selgt => (4, 1)

/-- R162: checks of the nodes from node `n` on, with `depth` values on the stack. The node that pops an empty stack,
the END reached with a stack that does not hold one value, and a nonzero node after END are named; with no END among the
eight, node 7 where the stack does not hold one value after it (DESIGN CHOICE, log entry 99). -/
def ckNodes : List Node → (n depth : Nat) → (ended : Bool) → List Check
  | [], n, depth, ended => [(ended || depth = 1, 128 + 4 * (n - 1))]
  | .stop :: l, n, depth, ended => (ended || depth = 1, 128 + 4 * n) :: ckNodes l (n + 1) depth true
  | nd :: l, n, depth, ended =>
    (!ended && (nodeEffect nd).1 ≤ depth, 128 + 4 * n)
      :: ckNodes l (n + 1) (depth - (nodeEffect nd).1 + (nodeEffect nd).2) ended

/-! ### Rows -/

/-- One field check. -/
def ck (b : Bool) (n : Nat) : Check := (b, n)


/-- What a major and minor value mean: the length in words, whether the instruction is privileged (R51), the checks
of step 8 of R33, and the instruction. -/
structure Row where
  len : Nat
  priv : Bool
  bad : List Check
  ins : Instr

def guardAt (w : Nat) : Guard := ⟨bv 3 w 10, bitAt w 13⟩

/-- Checks of format A with RD, RA and RB given by their own checks; bits [63:57] are reserved. -/
def rowA (w : Nat) (cks : List Check) (ins : Instr) : Option Row := some ⟨1, false, ckZero w 57 7 :: cks, ins⟩

/-- RB with its peek bit unused. -/
def noRB (w : Nat) : List Check := [ckZero w 36 7, ckZero w 44 1]
def noRA (w : Nat) : List Check := [ckZero w 29 7, ckZero w 43 1]
def noRD (w : Nat) : List Check := [ckZero w 22 7]
def srcRA (w : Nat) : List Check := ckSrc w 29 43
def srcRB (w : Nat) : List Check := ckSrc w 36 44
/-- RA or RB naming another file, so that its peek bit is unused. -/
def fileRA (w n : Nat) : List Check := [ckFile w 29 n, ckZero w 43 1]
def fileRB (w n : Nat) : List Check := [ckFile w 36 n, ckZero w 44 1]
def regRA (w : Nat) : List Check := [ckReg w 29, ckZero w 43 1]
def regRB (w : Nat) : List Check := [ckReg w 36, ckZero w 44 1]

def row3 (w : Nat) (f : Guard → Dst → Src → Src → Instr) : Option Row :=
  rowA w (ckX w 22 :: srcRA w ++ srcRB w ++ [ckZero w 45 12])
    (f (guardAt w) (dstAt w 22) (srcAt w 29 43) (srcAt w 36 44))

def row2 (w : Nat) (f : Guard → Dst → Src → Instr) : Option Row :=
  rowA w (ckX w 22 :: srcRA w ++ noRB w ++ [ckZero w 45 12]) (f (guardAt w) (dstAt w 22) (srcAt w 29 43))

/-- Major 0x04 (R54). -/
def rowInteger (m w : Nat) : Option Row :=
  let g := guardAt w
  match m with
  | 0x00 => row3 w .add | 0x01 => row3 w .sub | 0x02 => row3 w .mul | 0x03 => row3 w .mulhS | 0x04 => row3 w .mulhN
  | 0x05 => row3 w .divS | 0x06 => row3 w .divN | 0x07 => row3 w .remS | 0x08 => row3 w .remN | 0x09 => row3 w .and
  | 0x0A => row3 w .or | 0x0B => row3 w .xor | 0x0C => row3 w .andn | 0x0D => row3 w .shl | 0x0E => row3 w .shr
  | 0x0F => row3 w .sra | 0x10 => row3 w .rol | 0x11 => row3 w .minS | 0x12 => row3 w .minN | 0x13 => row3 w .maxS
  | 0x14 => row3 w .maxN | 0x15 => row2 w .clz | 0x16 => row2 w .ctz | 0x17 => row2 w .popc | 0x18 => row2 w .bswap
  | 0x19 => rowA w (ckX w 22 :: srcRA w ++ noRB w ++ [ck (fieldAt w 51 6 + fieldAt w 45 6 + 1 ≤ 64) 45])
      (.extr g (dstAt w 22) (srcAt w 29 43) (bv 6 w 51) (bv 6 w 45))
  | 0x1A => rowA w (ckReg w 22 :: srcRA w ++ noRB w ++ [ck (fieldAt w 51 6 + fieldAt w 45 6 + 1 ≤ 64) 45])
      (.ins g (bv 6 w 22) (srcAt w 29 43) (bv 6 w 51) (bv 6 w 45))
  | 0x1B => rowA w (ckX w 22 :: srcRA w ++ noRB w ++ [ckZero w 51 6])
      (.sext g (dstAt w 22) (srcAt w 29 43) (bv 6 w 45))
  | 0x1C => rowA w (ckX w 22 :: srcRA w ++ noRB w ++ [ckZero w 51 6])
      (.zext g (dstAt w 22) (srcAt w 29 43) (bv 6 w 45))
  | _ => none

def rowI (_w : Nat) (cks : List Check) (ins : Instr) : Option Row := some ⟨1, false, cks, ins⟩

def rowImm (w : Nat) (f : Guard → Dst → Src → BitVec 32 → Instr) : Option Row :=
  rowI w (ckX w 18 :: ckSrc w 25 17) (f (guardAt w) (dstAt w 18) (srcAt w 25 17) (bv 32 w 32))

def rowShift (w : Nat) (f : Guard → Dst → Src → BitVec 6 → Instr) : Option Row :=
  rowI w (ckX w 18 :: ckSrc w 25 17 ++ [ckZero w 38 26]) (f (guardAt w) (dstAt w 18) (srcAt w 25 17) (bv 6 w 32))

/-- Major 0x05 (R56). -/
def rowImmediate (m w : Nat) : Option Row :=
  match m with
  | 0 => rowImm w .addi | 1 => rowImm w .andi | 2 => rowImm w .ori | 3 => rowImm w .xori
  | 4 => rowShift w .shli | 5 => rowShift w .shri | 6 => rowShift w .srai | _ => none

/-- Major 0x06 (R56). -/
def rowMov (m w : Nat) : Option Row :=
  match m with
  | 0 => rowI w [ckX w 18, ckZero w 25 7, ckZero w 17 1] (.movi (guardAt w) (dstAt w 18) (bv 32 w 32))
  | 1 => rowI w [ckReg w 18, ckZero w 25 7, ckZero w 17 1] (.movhi (guardAt w) (bv 6 w 18) (bv 32 w 32))
  | _ => none

/-- Majors 0x07 and 0x08 (R58). -/
def rowCmpi (code w : Nat) : Option Row :=
  rowI w (ckFile w 18 8 :: ckSrc w 25 17) (.cmpi (guardAt w) (condOf code) (bv 3 w 18) (srcAt w 25 17) (bv 32 w 32))

/-- Major 0x09 (R59). -/
def rowCondition (m w : Nat) : Option Row :=
  let g := guardAt w
  match m with
  | 0x00 => rowA w (ckFile w 22 8 :: srcRA w ++ srcRB w ++ [ck (fieldAt w 45 4 < 10) 45, ckZero w 49 8])
      (.cmp g (condOf (fieldAt w 45 4)) (bv 3 w 22) (srcAt w 29 43) (srcAt w 36 44))
  | 0x01 => rowA w (ckX w 22 :: srcRA w ++ srcRB w ++ [ckZero w 48 9])
      (.sel g (dstAt w 22) (srcAt w 29 43) (srcAt w 36 44) (bv 3 w 45))
  | 0x02 => rowA w (ckFile w 22 8 :: fileRA w 8 ++ fileRB w 8 ++ [ckZero w 45 12])
      (.cand g (bv 3 w 22) (bv 3 w 29) (bv 3 w 36))
  | 0x03 => rowA w (ckFile w 22 8 :: fileRA w 8 ++ fileRB w 8 ++ [ckZero w 45 12])
      (.cor g (bv 3 w 22) (bv 3 w 29) (bv 3 w 36))
  | 0x04 => rowA w (ckFile w 22 8 :: fileRA w 8 ++ noRB w ++ [ckZero w 45 12]) (.cnot g (bv 3 w 22) (bv 3 w 29))
  | _ => none

def rowFloat3 (w : Nat) (f : Guard → Rnd → Dst → Src → Src → Instr) : Option Row :=
  rowA w (ckX w 22 :: srcRA w ++ srcRB w ++ [ck (fieldAt w 45 3 < 4) 45, ckZero w 48 9])
    (f (guardAt w) (rndOf (fieldAt w 45 3)) (dstAt w 22) (srcAt w 29 43) (srcAt w 36 44))

/-- Major 0x0A (R61, R62). -/
def rowFloat (m w : Nat) : Option Row :=
  let g := guardAt w
  match m with
  | 0x00 => rowFloat3 w .fadd | 0x01 => rowFloat3 w .fsub | 0x02 => rowFloat3 w .fmul
  | 0x03 => rowA w (ckReg w 22 :: srcRA w ++ srcRB w ++ [ck (fieldAt w 45 3 < 4) 45, ckZero w 48 9])
      (.fma g (rndOf (fieldAt w 45 3)) (bv 6 w 22) (srcAt w 29 43) (srcAt w 36 44))
  | 0x04 => row3 w .fmin | 0x05 => row3 w .fmax
  | 0x06 => rowA w (ckFile w 22 8 :: srcRA w ++ srcRB w
        ++ [ck (fieldAt w 45 4 < 6 || fieldAt w 45 4 = 0xA || fieldAt w 45 4 = 0xB) 45, ckZero w 49 8])
      (.fcmp g (fcondOf (fieldAt w 45 4)) (bv 3 w 22) (srcAt w 29 43) (srcAt w 36 44))
  | 0x07 =>
    let p := fieldAt w 48 4
    rowA w (ckX w 22 :: srcRA w ++ noRB w
        ++ [ck (if p = 0x9 ∨ p = 0xB then fieldAt w 45 3 = 0 else fieldAt w 45 3 < 4) 45, ck (p < 0xC) 48, ckZero w 52 5])
      (.fcvt g (fcvtOf p) (rndOf (fieldAt w 45 3)) (dstAt w 22) (srcAt w 29 43))
  | _ => none

def rowB (_w : Nat) (cks : List Check) (ins : Instr) : Option Row := some ⟨1, false, cks, ins⟩

def offAt (w : Nat) : BitVec 26 := bv 26 w 38

/-- Major 0x0C (R63). -/
def rowControl (m w : Nat) : Option Row :=
  let g := guardAt w
  let ra0 := ckZero w 18 7; let rb0 := ckZero w 25 7; let lc0 := ckZero w 32 2
  let cond0 := ckZero w 34 4; let off0 := ckZero w 38 26
  match m with
  | 0x0 => rowB w [ra0, rb0, lc0, cond0] (.br g (offAt w))
  | 0x1 => rowB w [ckX w 18, ckX w 25, lc0, ck (fieldAt w 34 4 < 10) 34]
      (.bc g (condOf (fieldAt w 34 4)) (popSrcAt w 18) (popSrcAt w 25) (offAt w))
  | 0x2 => rowB w [ra0, ckReg w 25, lc0, cond0] (.call g (bv 6 w 25) (offAt w))
  | 0x3 => rowB w [ckX w 18, ckX w 25, cond0, ck (2 ≤ fieldAt w 38 26 && fieldAt w 38 26 < 2 ^ 25) 38]
      (.loop g (bv 2 w 32) (popSrcAt w 18) (popSrcAt w 25) (offAt w))
  | 0x4 => rowB w [ckX w 18, rb0, lc0, cond0, off0] (.jr g (popSrcAt w 18))
  | 0x5 => rowB w [ckX w 18, ckReg w 25, lc0, cond0, off0] (.callr g (popSrcAt w 18) (bv 6 w 25))
  | 0x6 => rowB w [ckX w 18, rb0, lc0, cond0, off0] (.ret g (popSrcAt w 18))
  | _ => none

def memAt (w : Nat) : MemRef := ⟨bv 4 w 27, bv 6 w 31, bv 18 w 46⟩

/-- Checks of SIZE, ORD and SCOPE against the columns of R65. -/
def ckSize (w : Nat) (p : Nat → Bool) : Check := ck (p (fieldAt w 37 3)) 37
def ckOrd (w : Nat) (p : Nat → Bool) : Check := ck (p (fieldAt w 43 2)) 43
def ckScope (w : Nat) (p : Nat → Bool) : Check := ck (p (fieldAt w 40 3)) 40
def ckPKD (w : Nat) : Check := ckZero w 45 1
def scopeReq (n : Nat) : Bool := 1 ≤ n && n ≤ 5
def weakM (w : Nat) : List Check := [ckOrd w (· = 0), ckScope w (· = 0)]

/-- Word 1 of the extended M form with RS3 unused, or used. -/
def ckExt (w1 : Nat) (useRS3 : Bool) : List Check :=
  ckSrc w1 0 14 64 ++ (if useRS3 then ckSrc w1 7 15 64 else [ckZero w1 7 7 71, ckZero w1 15 1 79])
    ++ [ckZero w1 24 40 88]

/-- An atomic that returns the old value. A reserved type code has no width that SIZE could differ from: the word then
names bit 80 and never 37. DESIGN CHOICE, log entry 77. -/
def rowAmo (w w1 : Nat) (n : Bool) (sc : Nat → Bool) (f : Guard → AmoOp → AmoTy → Order → Scope → Dst → MemRef → Src → Instr) :
    Option Row :=
  let op := fieldAt w1 20 4; let ty := fieldAt w1 16 4
  some ⟨2, false, [ckX w 20, ckPKD w, ckScope w (fun s => scopeReq s && sc s),
      ck (ty ≥ 6 || fieldAt w 37 3 = amoTySize (amoTyOf ty)) 37,
      ck (op < 10 && ty < 6 && (if n then amoOkN (amoOpOf op) (amoTyOf ty) else amoOkCB (amoOpOf op) (amoTyOf ty))) 80]
      ++ ckExt w1 false,
    f (guardAt w) (amoOpOf op) (amoTyOf ty) (orderOf (fieldAt w 43 2)) (scopeOf (fieldAt w 40 3)) (dstAt w 20)
      (memAt w) (srcAt w1 0 14)⟩

/-- A return-free atomic; a reserved type code as in `rowAmo` (log entry 77). -/
def rowAmon (w w1 : Nat) (n : Bool) (sc : Nat → Bool) (f : Guard → AmoOp → AmoTy → Bool → Scope → MemRef → Src → Instr) :
    Option Row :=
  let op := fieldAt w1 20 4; let ty := fieldAt w1 16 4
  some ⟨2, false, [ckZero w 20 7, ckPKD w, ckOrd w (fun o => o = 0 || o = 2), ckScope w (fun s => scopeReq s && sc s),
      ck (ty ≥ 6 || fieldAt w 37 3 = amoTySize (amoTyOf ty)) 37,
      ck (op < 10 && ty < 6 && (if n then amoOkN (amoOpOf op) (amoTyOf ty) else amoOkCB (amoOpOf op) (amoTyOf ty))) 80]
      ++ ckExt w1 false,
    f (guardAt w) (amoOpOf op) (amoTyOf ty) (fieldAt w 43 2 = 2) (scopeOf (fieldAt w 40 3)) (memAt w) (srcAt w1 0 14)⟩

/-- CAS; a reserved type code as in `rowAmo` (log entry 77). -/
def rowCas (w w1 : Nat) (sc : Nat → Bool) (f : Guard → Bool → Order → Scope → Dst → MemRef → Src → Src → Instr) :
    Option Row :=
  let op := fieldAt w1 20 4; let ty := fieldAt w1 16 4
  some ⟨2, false, [ckX w 20, ckPKD w, ckScope w (fun s => scopeReq s && sc s),
      ck (ty ≥ 6 || fieldAt w 37 3 = amoTySize (amoTyOf ty)) 37, ck (op = 0 && (ty = 1 || ty = 3)) 80] ++ ckExt w1 true,
    f (guardAt w) (ty = 3) (orderOf (fieldAt w 43 2)) (scopeOf (fieldAt w 40 3)) (dstAt w 20) (memAt w)
      (srcAt w1 0 14) (srcAt w1 7 15)⟩

def anyScope (_ : Nat) : Bool := true
def bScope (n : Nat) : Bool := n ≤ 2
def nScope (n : Nat) : Bool := 3 ≤ n

/-- Major 0x10 (R65 to R68). -/
def rowMemory (m w w1 : Nat) : Option Row :=
  let g := guardAt w
  let sz := bv 2 w 37
  match m with
  | 0x00 => some ⟨1, false, [ckX w 20, ckPKD w, ckSize w (· ≤ 3)] ++ weakM w, .ld g sz (dstAt w 20) (memAt w)⟩
  | 0x01 => some ⟨1, false, [ckX w 20, ckPKD w, ckSize w (· ≤ 3)] ++ weakM w, .ldSigned g sz (dstAt w 20) (memAt w)⟩
  | 0x02 => some ⟨1, false, ckSrc w 20 45 ++ ckSize w (· ≤ 3) :: weakM w, .st g sz (srcAt w 20 45) (memAt w)⟩
  | 0x03 => some ⟨1, false, [ckX w 20, ckPKD w, ckSize w (· ≤ 3), ckOrd w (· = 1), ckScope w scopeReq],
      .lda g sz (scopeOf (fieldAt w 40 3)) (dstAt w 20) (memAt w)⟩
  | 0x04 => some ⟨1, false, ckSrc w 20 45 ++ [ckSize w (· ≤ 3), ckOrd w (· = 2), ckScope w scopeReq],
      .stl g sz (scopeOf (fieldAt w 40 3)) (srcAt w 20 45) (memAt w)⟩
  | 0x05 => some ⟨1, false, [ck (fieldAt w 26 1 = 0 && fieldAt w 20 1 = 0) 20, ckPKD w, ckSize w (· = 4)] ++ weakM w,
      .ldp g (bv 6 w 20) (memAt w)⟩
  | 0x06 => some ⟨1, false, [ck (fieldAt w 26 1 = 0 && fieldAt w 20 1 = 0) 20, ckPKD w, ckSize w (· = 4)] ++ weakM w,
      .stp g (bv 6 w 20) (memAt w)⟩
  | 0x07 => some ⟨1, false, [ckZero w 20 7, ckPKD w, ckSize w (· = 7)] ++ weakM w, .pref g (memAt w)⟩
  | 0x08 => some ⟨1, false, [ckZero w 20 7, ckPKD w, ckSize w (· = 7), ckOrd w (· = 0), ckScope w (fun s => 2 ≤ s && s ≤ 5)],
      .flush g (scopeOf (fieldAt w 40 3)) (memAt w)⟩
  | 0x09 => some ⟨1, false, [ckZero w 20 7, ckZero w 27 4, ckZero w 31 6, ckZero w 37 3, ckOrd w (· ≠ 0),
        ckScope w scopeReq, ckPKD w, ckZero w 46 18],
      .fence g (orderOf (fieldAt w 43 2)) (scopeOf (fieldAt w 40 3))⟩
  | 0x0A => some ⟨1, false, [ckZero w 20 7, ckZero w 27 4, ckZero w 31 6, ckZero w 37 3] ++ weakM w
        ++ [ckPKD w, ck (fieldAt w 46 6 ≠ 0) 46, ckZero w 52 12], .fenceP g (bv 6 w 46)⟩
  | 0x0B => some ⟨2, false, [ckX w 20, ckPKD w, ckSize w (fun s => s = 2 || s = 3), ckOrd w (· ≤ 1),
        ckScope w (fun s => if fieldAt w 43 2 = 0 then s = 0 else scopeReq s),
        ck (fieldAt w1 20 4 = 0 && fieldAt w1 16 4 < 10) 80] ++ ckExt w1 true,
      .waita g (condOf (fieldAt w1 16 4)) (fieldAt w 37 3 = 3) (scopeOptOf (fieldAt w 40 3)) (dstAt w 20) (memAt w)
        (srcAt w1 0 14) (srcAt w1 7 15)⟩
  | 0x10 => rowAmo w w1 false anyScope .amo | 0x11 => rowAmo w w1 false bScope .amoB
  | 0x12 => rowAmo w w1 true nScope .amoN | 0x13 => rowAmon w w1 false anyScope .amon
  | 0x14 => rowAmon w w1 false bScope .amonB | 0x15 => rowAmon w w1 true nScope .amonN
  | 0x16 => rowCas w w1 anyScope .cas | 0x17 => rowCas w w1 bScope .casB
  | _ => none

def recM (w size n : Nat) : List Check := [ckFile w 20 n, ckPKD w, ckSize w (· = size)] ++ weakM w

/-- Major 0x11 (R69). -/
def rowRecord (m w : Nat) : Option Row :=
  let g := guardAt w
  match m with
  | 0 => some ⟨1, false, recM w 6 32, .tdef g (bv 5 w 20) (memAt w)⟩
  | 1 => some ⟨1, false, recM w 6 32, .tld g (bv 5 w 20) (memAt w)⟩
  | 2 => some ⟨1, false, recM w 6 32, .tst g (bv 5 w 20) (memAt w)⟩
  | 3 => some ⟨1, false, recM w 6 8, .mld g (bv 3 w 20) (memAt w)⟩
  | 4 => some ⟨1, false, recM w 6 8, .mst g (bv 3 w 20) (memAt w)⟩
  | _ => none

/-- Majors 0x12 and 0x13 (R75, R76). -/
def rowSpanMem (m w : Nat) : Option Row :=
  match m with
  | 0 => some ⟨1, false, recM w 5 16, .spld (guardAt w) (bv 4 w 20) (memAt w)⟩
  | 1 => some ⟨1, false, recM w 5 16, .spst (guardAt w) (bv 4 w 20) (memAt w)⟩
  | _ => none

def rowLaunch (m w : Nat) : Option Row :=
  match m with
  | 0 => some ⟨1, false, [ckReg w 20, ckZero w 37 3, ckZero w 40 3, ckZero w 43 2, ckPKD w],
      .launch (guardAt w) (bv 6 w 20) (memAt w)⟩
  | _ => none

/-- Major 0x14 (R333). -/
def rowSpan (m w : Nat) : Option Row :=
  let g := guardAt w
  match m with
  | 0 => some ⟨1, true, [ckZero w 57 7, ckFile w 22 16, ck (fieldAt w 35 1 = 0 && fieldAt w 29 2 = 0) 29, ckZero w 43 1]
        ++ noRB w ++ [ckZero w 45 12], .spmint g (bv 4 w 22) (bv 6 w 29)⟩
  | 1 => rowA w (ckFile w 22 16 :: fileRA w 16 ++ srcRB w ++ [ckZero w 53 4])
      (.spnarrow g (bv 4 w 22) (bv 4 w 29) (srcAt w 36 44) (bv 8 w 45))
  | 2 => rowA w (ckFile w 22 16 :: fileRA w 16 ++ srcRB w ++ [ckZero w 45 12])
      (.spoff g (bv 4 w 22) (bv 4 w 29) (srcAt w 36 44))
  | 3 => rowA w (ckX w 22 :: fileRA w 16 ++ noRB w ++ [ck (fieldAt w 45 3 ≤ 4) 45, ckZero w 48 9])
      (.spget g (dstAt w 22) (bv 4 w 29) (bv 3 w 45))
  | 4 =>
    if bitAt w 45 then rowA w (ckFile w 22 16 :: noRA w ++ noRB w ++ [ckZero w 46 11]) (.spmovClr g (bv 4 w 22))
    else rowA w (ckFile w 22 16 :: fileRA w 16 ++ noRB w ++ [ckZero w 46 11]) (.spmov g (bv 4 w 22) (bv 4 w 29))
  | 5 =>
    if bitAt w 45 then rowA w (noRD w ++ srcRA w ++ srcRB w ++ [ckZero w 46 11])
      (.ovldG g (srcAt w 29 43) (srcAt w 36 44))
    else rowA w (ckX w 22 :: srcRA w ++ srcRB w ++ [ckZero w 46 11])
      (.ovld g (dstAt w 22) (srcAt w 29 43) (srcAt w 36 44))
  | _ => none

/-- Major 0x18 (R70). In MAP.tile the bits MOD[4:0], which must be 0, count as the two fields of MAP's table, MOD[2:0] at
bit 45 and MOD[4:3] at bit 48: the lower nonzero one is named. DESIGN CHOICE, log entry 78. -/
def rowTensorReg (m w : Nat) : Option Row :=
  let g := guardAt w
  match m with
  | 0 => rowA w (ckFile w 22 32 :: srcRA w ++ noRB w ++ [ckZero w 48 9]) (.tset g (bv 5 w 22) (srcAt w 29 43) (bv 3 w 45))
  | 1 => rowA w (ckX w 22 :: fileRA w 32 ++ noRB w ++ [ckZero w 48 9]) (.tget g (dstAt w 22) (bv 5 w 29) (bv 3 w 45))
  | 2 => rowA w (noRD w ++ fileRA w 32 ++ noRB w ++ [ckZero w 45 12]) (.thand g (bv 5 w 29))
  | 3 => rowA w (noRD w ++ srcRA w ++ noRB w ++ [ckZero w 49 8]) (.bfset g (bv 4 w 45) (srcAt w 29 43))
  | 4 =>
    if bitAt w 50 then
      rowA w (ckFile w 22 8 :: srcRA w ++ noRB w ++ [ckZero w 45 3, ckZero w 48 2, ckZero w 51 6])
        (.mapTile g (bv 3 w 22) (srcAt w 29 43))
    else rowA w (ckFile w 22 8 :: srcRA w ++ noRB w ++ [ckZero w 51 6])
        (.map g (bv 3 w 22) (srcAt w 29 43) (bv 3 w 45) (bv 2 w 48))
  | 5 => rowA w (ckFile w 22 8 :: noRA w ++ noRB w ++ [ckZero w 45 12]) (.mclr g (bv 3 w 22))
  | _ => none

def gridArgsAt (w w1 : Nat) : GridArgs :=
  { fa := bv 5 w 22, fb := bv 5 w 27, fc := bv 5 w 32, mr := bv 3 w 37, lsa := lettersAt w1 0, lsb := lettersAt w1 21,
    lsc := lettersAt w1 42, acc := bitAt w 49, sat := bitAt w 48, rnd := rndOf (fieldAt w 45 3), shape := bv 5 w 40 }

/-- Checks that depend on which grid instruction uses the fields (R155, R157 to R159). -/
def ckGrid (w w1 : Nat) (k : GridKind) : List Check :=
  [ckZero w 60 4, ck (fieldAt w 45 3 < 5) 45, ckLetters w1 0 64, ckLetters w1 21 64, ckLetters w1 42 64, ckZero w1 63 1 127]
    ++ (match k with
      | .ctr => [ckZero w 40 5]
      | .ctrs => [ck (fieldAt w 40 5 < 8) 40]
      | .red => [ckZero w 40 5, ckZero w 27 5, ckZero w1 21 21 85]
      | .cvt => [ckZero w 40 5, ckZero w 27 5, ckZero w1 21 21 85, ckZero w 49 1])

/-- Major 0x19 (R165). MOD[9:0] is the MOD of the instruction checked, but the code 0b100 (SR) traps: R60 names the instructions
that accept it, and MCHK is none of them. DEDUCED, log entry 80. -/
def rowMchk (m w w1 : Nat) : Option Row :=
  match m with
  | 0 => some ⟨2, false, [ckX w 52, ckZero w 59 1, ck (fieldAt w 45 3 < 4) 45] ++ ckGrid w w1 (gridKindOf (fieldAt w 50 2)),
      .mchk (guardAt w) (gridKindOf (fieldAt w 50 2)) (dstAt w 52) (gridArgsAt w w1)⟩
  | _ => none

/-- Major 0x20 (R155). -/
def rowGrid (m w w1 : Nat) : Option Row :=
  let g := guardAt w
  let ck k := [ckZero w 52 7, ckZero w 59 1, ckZero w 50 2] ++ ckGrid w w1 k
  match m with
  | 0 => some ⟨2, false, ck .ctr, .ctr g (gridArgsAt w w1)⟩
  | 1 => some ⟨2, false, ck .ctrs, .ctrs g (gridArgsAt w w1)⟩
  | 2 => some ⟨2, false, ck .red, .red g (gridArgsAt w w1)⟩
  | 3 => some ⟨2, false, ck .cvt, .cvt g (gridArgsAt w w1)⟩
  | _ => none

def nodesAt (w2 : Nat) : List Node := (List.range 8).map (fun n => nodeOf (fieldAt w2 (4 * n) 4))

def ewrArgsAt (w w1 w2 : Nat) : EwrArgs :=
  let n := fun k => nodeOf (fieldAt w2 (4 * k) 4)
  { fd := bv 5 w 22, fa := bv 5 w 27, fb := bv 5 w 32, fc := bv 5 w 40, mr := bv 3 w 37, rnd := rndOf (fieldAt w 45 3),
    sat := bitAt w 51, fn := nodeFnOf (fieldAt w 48 3), x := gsrcAt w 52 59, ma := bv 6 w1 21, mb := bv 6 w1 27,
    mc := bv 6 w1 33, lsd := lettersAt w1 0, k0 := bv 16 w2 32, k1 := bv 16 w2 48, n0 := n 0, n1 := n 1, n2 := n 2,
    n3 := n 3, n4 := n 4, n5 := n 5, n6 := n 6, n7 := n 7 }

def EwrArgs.nodes (a : EwrArgs) : List Node := [a.n0, a.n1, a.n2, a.n3, a.n4, a.n5, a.n6, a.n7]

/-- Major 0x21 (R160, R162). A node behind an END does not count as occurring for the conditions on FA to FC, MA to MC,
RX and FN. DESIGN CHOICE, log entry 79. -/
def rowEwr (m w w1 w2 : Nat) : Option Row :=
  match m with
  | 0 =>
    let ns := nodesAt w2
    let has := fun n => (ns.takeWhile (· ≠ .stop)).contains n
    let nl := fieldAt w1 18 3
    some ⟨3, false, [ckZero w 60 4, ck (fieldAt w 45 3 < 5) 45, ckLetters w1 0 64, ckZero w1 39 25 103,
        ck (has .a || fieldAt w 27 5 = 0) 27, ck (has .b || fieldAt w 32 5 = 0) 32, ck (has .c || fieldAt w 40 5 = 0) 40,
        ck (has .a || fieldAt w1 21 6 = 0) 85, ck (has .b || fieldAt w1 27 6 = 0) 91, ck (has .c || fieldAt w1 33 6 = 0) 97,
        ck (has .fn || fieldAt w 48 3 = 0) 48, ck (has .x || fieldAt w 52 7 = 0) 52]
        ++ ckGSrc w 52 59 ++ ckMask w1 21 nl 64 ++ ckMask w1 27 nl 64 ++ ckMask w1 33 nl 64 ++ ckNodes ns 0 0 false,
      .ewr (guardAt w) (ewrArgsAt w w1 w2)⟩
  | _ => none

/-- Major 0x24 (R64). -/
def rowGBranch (m w : Nat) : Option Row :=
  let g := guardAt w
  match m with
  | 0 => rowB w [ck (fieldAt w 18 7 < 16) 18, ckZero w 25 7, ckZero w 32 2, ckZero w 34 4] (.gloop g (bv 4 w 18) (offAt w))
  | 1 => rowB w [ckZero w 18 7, ckZero w 25 7, ckZero w 32 2, ckZero w 34 4] (.gbr g (offAt w))
  | 2 => rowB w [ckY w 18, ckY w 25, ckZero w 32 2, ck (fieldAt w 34 4 < 10) 34]
      (.gbc g (condOf (fieldAt w 34 4)) (gpopSrcAt w 18) (gpopSrcAt w 25) (offAt w))
  | _ => none

/-- Major 0x25 (R73). -/
def rowGScalar (m w : Nat) : Option Row :=
  let g := guardAt w
  let no3 := noRD w ++ noRA w ++ noRB w
  let ga := ckGSrc w 29 43
  let gb := ckGSrc w 36 44
  match m with
  | 0x00 => rowA w (ckY w 22 :: ga ++ noRB w ++ [ckZero w 45 12]) (.gmov g (gdstAt w 22) (gsrcAt w 29 43))
  | 0x01 => rowA w (ckY w 22 :: ga ++ gb ++ [ckZero w 45 12]) (.gadd g (gdstAt w 22) (gsrcAt w 29 43) (gsrcAt w 36 44))
  | 0x02 => rowA w (ckY w 22 :: ga ++ gb ++ [ckZero w 45 12]) (.gsub g (gdstAt w 22) (gsrcAt w 29 43) (gsrcAt w 36 44))
  | 0x03 => rowA w (ckFile w 22 8 :: ga ++ gb ++ [ck (fieldAt w 45 4 < 10) 45, ckZero w 49 8])
      (.gcmp g (condOf (fieldAt w 45 4)) (bv 3 w 22) (gsrcAt w 29 43) (gsrcAt w 36 44))
  | 0x04 => rowA w (ck (fieldAt w 22 7 < 16) 22 :: ckQueue w 29 :: noRB w ++ [ckZero w 45 12])
      (.gqpop g (bv 4 w 22) (bv 3 w 29) (bitAt w 43))
  | 0x05 => rowA w (ckQueue w 22 :: ck (fieldAt w 29 7 < 16) 29 :: ckZero w 43 1 :: noRB w ++ [ckZero w 45 12])
      (.gqpush g (bv 3 w 22) (bv 4 w 29))
  | 0x06 => rowA w (no3 ++ [ckZero w 50 7]) (if bitAt w 49 then .gsigD g (bv 4 w 45) else .gsig g (bv 4 w 45))
  | 0x07 => rowA w (no3 ++ [ckZero w 50 7]) (.gwaitf g (bv 4 w 45) (bitAt w 49))
  | 0x08 => rowA w (no3 ++ [ckZero w 45 12]) (.gdrain g)
  | 0x09 => rowA w (no3 ++ [ckZero w 45 12]) (.gidle g)
  | 0x0A => rowA w (no3 ++ [ckZero w 45 12]) (.gend g)
  | 0x0B => rowA w (no3 ++ [ckZero w 50 7]) (.gthand g (bv 5 w 45))
  | _ => none

/-- Checks shared by the engine commands of layout K: FA names a b register, PKX and bits [63:60] are 0. -/
def ckW (w : Nat) : List Check := [ckZero w 26 1 22, ckZero w 37 3, ckZero w 59 1, ckZero w 60 4]
def ckRYZ (w1 : Nat) : List Check := ckSrc w1 0 14 64 ++ ckSrc w1 7 15 64
def noRZ (w1 : Nat) : List Check := [ckZero w1 7 7 71, ckZero w1 15 1 79]

def plyFormAt (w1 : Nat) : PlyForm := ⟨bitAt w1 24, bv 8 w1 16⟩

/-- Major 0x28 (R74, R237). A reserved part of IMM is a field of its own, and bit 4 of FA, FB and FC counts as part of its field.
DESIGN CHOICE, log entry 98. -/
def rowEngine (m w w1 : Nat) : Option Row :=
  let g := guardAt w
  let scn := fieldAt w 43 3
  let ckCopy := [ckZero w 31 1 27, ckZero w 36 1 32, ckX w 52, ck (scn ≤ 5) 43, ck (scn ≠ 0 || fieldAt w 32 5 = 0) 32,
    ck (scn ≠ 0 || fieldAt w 46 6 = 0) 46] ++ ckW w ++ ckRYZ w1
  let ckPly := [ckZero w 32 5, ckX w 52, ckZero w 43 3, ckZero w 46 2, ckZero w 48 4, ckZero w1 25 7 89] ++ ckW w ++ ckRYZ w1
  match m with
  | 0 => some ⟨2, false, ckCopy, .copy g (bv 3 w 40) (scopeOptOf scn) (bv 6 w 46) (bv 4 w 22) (bv 4 w 27) (bv 4 w 32)
      (dstAt w 52) (srcAt w1 0 14) (srcAt w1 7 15) (bv 48 w1 16)⟩
  | 1 => some ⟨2, false, [ckX w 52, ckZero w 59 1, ckZero w 60 4, ckZero w 37 3, ckZero w 27 5, ckZero w 46 2, ck (scn ≤ 5) 43,
        ck (scn ≠ 0 || fieldAt w 48 4 = 0) 48, ckLetters w1 0 64, ckLetters w1 42 64, ckZero w1 21 21 85, ckZero w1 63 1 127],
      .tcopy g (bv 3 w 40) (scopeOptOf scn) (bv 4 w 48) (bv 5 w 22) (bv 5 w 32) (lettersAt w1 0) (lettersAt w1 42)
        (dstAt w 52)⟩
  | 2 => some ⟨2, false, ckCopy, .mcast g (bv 3 w 40) (scopeOptOf scn) (bv 6 w 46) (bv 4 w 22) (bv 4 w 27) (bv 4 w 32)
      (dstAt w 52) (srcAt w1 0 14) (srcAt w1 7 15) (bv 48 w1 16)⟩
  | 4 => some ⟨2, false, ckPly ++ [ckZero w 40 3, ckZero w 27 5, ckZero w1 32 32 96],
      .plysort g (bv 4 w 22) (dstAt w 52) (srcAt w1 0 14) (srcAt w1 7 15) (plyFormAt w1)⟩
  | 5 => some ⟨2, false, ckPly ++ [ckZero w 27 5, ckZero w1 47 17 111],
      .plysend g (bv 3 w 40) (bv 4 w 22) (dstAt w 52) (srcAt w1 0 14) (srcAt w1 7 15) (plyFormAt w1) (bv 11 w1 32)
        (bv 4 w1 43)⟩
  | 6 => some ⟨2, false, ckPly ++ [ckZero w 31 1 27, ckZero w1 32 32 96],
      .plyred g (bv 3 w 40) (bv 4 w 22) (bv 4 w 27) (dstAt w 52) (srcAt w1 0 14) (srcAt w1 7 15) (plyFormAt w1)⟩
  | _ => none

/-- Major 0x29 (R244, R254). -/
def rowEngineStat (m w : Nat) : Option Row :=
  let g := guardAt w
  match m with
  | 0 => rowA w (ckX w 22 :: srcRA w ++ noRB w ++ [ckZero w 48 1, ckZero w 49 8])
      (.cpwait g (bv 3 w 45) (dstAt w 22) (srcAt w 29 43))
  | 1 => rowA w (ckX w 22 :: noRA w ++ noRB w ++ [ckZero w 49 8])
      (if bitAt w 48 then .cpstatBusy g (bv 3 w 45) (dstAt w 22) else .cpstatNext g (bv 3 w 45) (dstAt w 22))
  | 2 => rowA w (ckX w 22 :: noRA w ++ noRB w ++ [ckZero w 47 2, ckZero w 50 7])
      (if bitAt w 49 then .plystatClr g (bv 2 w 45) (dstAt w 22) else .plystat g (bv 2 w 45) (dstAt w 22))
  | _ => none

/-- Major 0x2C (R269). -/
def rowAttar (m w w1 : Nat) : Option Row :=
  let g := guardAt w
  let sh := [ckZero w 27 5, ckZero w 32 5, ckX w 52] ++ ckW w ++ ckSrc w1 0 14 64
  let imm0 := ckZero w1 16 48 80
  match m with
  | 0 =>
    if bitAt w 40 then
      some ⟨2, false, sh ++ noRZ w1 ++ [ckZero w 22 5, ckZero w 41 11, ckZero w 52 7, imm0], .aregFree g (srcAt w1 0 14)⟩
    else
      some ⟨2, false, sh ++ ckSrc w1 7 15 64 ++ [ckZero w 41 11, ck (fieldAt w1 24 3 ≠ 7) 88, ckZero w1 27 1 91,
          ck (fieldAt w1 28 20 ≠ 0) 92, ckZero w1 48 16 112],
        .areg g (bv 4 w 22) (dstAt w 52) (srcAt w1 0 14) (srcAt w1 7 15) (bv 8 w1 16) (bv 3 w1 24) (bv 20 w1 28)⟩
  | 1 => some ⟨2, false, sh ++ ckSrc w1 7 15 64 ++ [ckZero w 44 2, imm0],
      .aqpost g (bv 4 w 22) (dstAt w 52) (srcAt w1 0 14) (srcAt w1 7 15) (bv 6 w 46) (bv 4 w 40)⟩
  | 2 => some ⟨2, false, sh ++ noRZ w1 ++ [ckZero w 22 5, ckZero w 40 6, imm0],
      .aqwait g (dstAt w 52) (bv 6 w 46) (srcAt w1 0 14)⟩
  | 3 => some ⟨2, false, sh ++ noRZ w1 ++ [ckZero w 40 6, imm0],
      .aappend g (bv 4 w 22) (dstAt w 52) (srcAt w1 0 14) (bv 6 w 46)⟩
  | 4 => some ⟨2, false, sh ++ noRZ w1 ++ [ckZero w 22 5, ckZero w 40 6, imm0],
      .acommit g (dstAt w 52) (srcAt w1 0 14) (bv 6 w 46)⟩
  | _ => none

/-- Major 0x30 (R294), for the stream that decodes it. -/
def rowRdv (k : StreamKind) (m w : Nat) : Option Row :=
  match m with
  | 0 => rowA w (noRD w ++ noRA w ++ noRB w
        ++ [ck (fieldAt w 53 2 = 0 || fieldAt w 53 2 = (match k with | .c => 1 | .g => 2)) 53, ckZero w 55 2])
      (.rdv (guardAt w) (rdvClsOf (fieldAt w 53 2)) (rdvExtOf (fieldAt w 51 2)) (bv 6 w 45))
  | _ => none

/-- Major 0x31 (R285). -/
def rowProgress (m w : Nat) : Option Row :=
  let g := guardAt w
  let no3 := noRD w ++ noRA w ++ noRB w
  let h := bv 4 w 45
  let r2 := ckReg w 22 :: regRA w ++ noRB w
  match m with
  | 0x00 => rowA w (ckQueue w 22 :: srcRA w ++ noRB w ++ [ckZero w 45 12]) (.qpush g (bv 3 w 22) (srcAt w 29 43))
  | 0x01 => rowA w (ckReg w 22 :: ckQueue w 29 :: ckZero w 43 1 :: noRB w ++ [ckZero w 45 12])
      (.qpop g (bv 6 w 22) (bv 3 w 29))
  | 0x02 => rowA w (ckReg w 22 :: ckQueue w 29 :: ck (fieldAt w 43 1 = 1) 43 :: noRB w ++ [ckZero w 46 11])
      (if bitAt w 45 then .qpeekCnt g (bv 6 w 22) (bv 3 w 29) else .qpeek g (bv 6 w 22) (bv 3 w 29))
  | 0x03 => rowA w (no3 ++ [ckZero w 49 8]) (.flset g h)
  | 0x04 => rowA w (no3 ++ [ckZero w 49 8]) (.flclr g h)
  | 0x05 => rowA w (r2 ++ [ckZero w 50 7]) (.flwait g (bv 6 w 22) (bv 6 w 29) (bitAt w 49) h)
  | 0x06 => rowA w (noRD w ++ regRA w ++ noRB w ++ [ckZero w 49 8]) (.hbind g h (bv 6 w 29))
  | 0x07 =>
    if bitAt w 49 then rowA w (r2 ++ [ck (fieldAt w 50 6 ≤ 47) 50, ckZero w 56 1])
      (.hclaimR g h (bv 6 w 22) (bv 6 w 29) (bv 6 w 50))
    else rowA w (r2 ++ [ckZero w 50 6, ckZero w 56 1]) (.hclaim g h (bv 6 w 22) (bv 6 w 29))
  | 0x08 =>
    if bitAt w 49 then rowA w (noRD w ++ regRA w ++ regRB w ++ [ck (fieldAt w 50 6 ≤ 47) 50, ckZero w 56 1])
      (.hcommitR g h (bv 6 w 29) (bv 6 w 36) (bv 6 w 50))
    else rowA w (noRD w ++ regRA w ++ regRB w ++ [ckZero w 50 6, ckZero w 56 1]) (.hcommit g h (bv 6 w 29) (bv 6 w 36))
  | 0x09 => rowA w (r2 ++ [ckZero w 49 8]) (.hwaitf g h (bv 6 w 22) (bv 6 w 29))
  | 0x0A => rowA w (r2 ++ [ckZero w 49 8]) (.hwaite g h (bv 6 w 22) (bv 6 w 29))
  | 0x0B => rowA w (r2 ++ [ckZero w 49 8]) (.htake g h (bv 6 w 22) (bv 6 w 29))
  | 0x0C => rowA w (noRD w ++ regRA w ++ noRB w ++ [ckZero w 49 8]) (.hdone g h (bv 6 w 29))
  | 0x0D => rowA w (no3 ++ [ckZero w 45 12]) (.yieldC g)
  | 0x0E => rowA w (no3 ++ [ckZero w 45 12]) (.endC g)
  | _ => none

/-- Major 0x34 (R319, R320). -/
def rowEvent (m w : Nat) : Option Row :=
  let g := guardAt w
  let no3 := noRD w ++ noRA w ++ noRB w
  match m with
  | 0 => rowA w no3 (.evset g (bv 4 w 53) (bv 8 w 45))
  | 1 => rowA w no3 (.evclr g (bv 4 w 53) (bv 8 w 45))
  | 2 => rowA w (ckReg w 22 :: noRA w ++ regRB w) (.evwait g (bv 6 w 22) (bv 6 w 36) (bv 4 w 53) (bv 8 w 45))
  | 3 => rowA w (noRD w ++ srcRA w ++ srcRB w ++ [ckZero w 53 4])
      (.dinit g (bv 2 w 51) (bv 6 w 45) (srcAt w 29 43) (srcAt w 36 44))
  | 4 => rowA w (ckX w 22 :: noRA w ++ noRB w ++ [ckZero w 53 4]) (.dclaim g (dstAt w 22) (bv 2 w 51) (bv 6 w 45))
  | _ => none

/-- Major 0x38 (R361). -/
def rowTlb (m w : Nat) : Option Row :=
  let g := guardAt w
  let asid := bv 12 w 49
  let kind := fieldAt w 61 3
  let sh := [ckZero w 22 7, ckZero w 36 1, ckZero w 37 12]
  let ra0 := ckZero w 29 7
  match m with
  | 0 =>
    if kind = 0 then some ⟨1, true, ckX w 29 :: sh, .tlbinvPage g (popSrcAt w 29) asid⟩
    else if kind = 1 then some ⟨1, true, ra0 :: sh, .tlbinvAsid g asid⟩
    else if kind = 2 then some ⟨1, true, ra0 :: ckZero w 49 12 :: sh, .tlbinvPart g⟩
    else some ⟨1, true, ckX w 29 :: ck false 61 :: sh, .tlbinvPart g⟩
  | 1 => some ⟨1, true, ra0 :: ckZero w 49 12 :: ck (kind = 0) 61 :: sh, .tlbsync g⟩
  | 2 => some ⟨1, true, ra0 :: ck (kind = 0) 61 :: sh, .dirtysync g asid⟩
  | _ => none

/-- Major 0x3C (R78, R79, R383). -/
def rowSystem (m w : Nat) : Option Row :=
  let g := guardAt w
  let rd0 := ckZero w 22 7; let ra0 := [ckZero w 29 7, ckZero w 36 1]
  let sys0 := ckZero w 37 12; let imm0 := ckZero w 49 15
  let sr := sysRegOf (fieldAt w 37 12)
  let r := sr.getD .status
  let wr := ck (sr.isSome && !sysReadOnly r) 37
  match m with
  | 0 => some ⟨1, false, rd0 :: sys0 :: ra0, .trap g (bv 15 w 49)⟩
  | 1 => some ⟨1, true, rd0 :: sys0 :: imm0 :: ra0, .eret g⟩
  | 2 => some ⟨1, srdPriv r, ckX w 22 :: ck (sr.isSome) 37 :: imm0 :: ra0, .srd g (dstAt w 22) r⟩
  | 3 => some ⟨1, swrPriv r, rd0 :: wr :: imm0 :: ckSrc w 29 36, .swr g r (srcAt w 29 36)⟩
  | 4 => some ⟨1, true, ckX w 22 :: wr :: imm0 :: ckSrc w 29 36, .srx g (dstAt w 22) r (srcAt w 29 36)⟩
  | 5 => some ⟨1, false, rd0 :: sys0 :: ra0, .brk g (bv 15 w 49)⟩
  | 6 => some ⟨1, true, rd0 :: sys0 :: ra0, .halt g (bv 15 w 49)⟩
  | _ => none

/-- The streams that may run a major value, none when it is reserved (R49, R50). -/
def majorStreams (maj : Nat) : Option (List StreamKind) :=
  if maj ∈ [0x04, 0x05, 0x06, 0x07, 0x08, 0x09, 0x0A, 0x0C, 0x10, 0x11, 0x12, 0x13, 0x14, 0x18, 0x19, 0x28, 0x29, 0x2C,
      0x31, 0x34, 0x38, 0x3C] then some [.c]
  else if maj ∈ [0x20, 0x21, 0x24, 0x25] then some [.g]
  else if maj = 0x30 then some [.c, .g]
  else none

/-- The row of an assigned major and the minor value that stands in the word (R49, R51). -/
def rowOf (k : StreamKind) (w w1 w2 : Nat) : Option Row :=
  let m8 := fieldAt w 14 8; let m6 := fieldAt w 14 6; let m4 := fieldAt w 14 4; let m3 := fieldAt w 14 3
  match fieldAt w 2 8 with
  | 0x04 => rowInteger m8 w | 0x05 => rowImmediate m3 w | 0x06 => rowMov m3 w
  | 0x07 => rowCmpi m3 w
  | 0x08 => if m3 < 2 then rowCmpi (8 + m3) w else none
  | 0x09 => rowCondition m8 w | 0x0A => rowFloat m8 w | 0x0C => rowControl m4 w
  | 0x10 => rowMemory m6 w w1 | 0x11 => rowRecord m6 w | 0x12 => rowSpanMem m6 w | 0x13 => rowLaunch m6 w
  | 0x14 => rowSpan m8 w | 0x18 => rowTensorReg m8 w | 0x19 => rowMchk m8 w w1 | 0x20 => rowGrid m8 w w1
  | 0x21 => rowEwr m8 w w1 w2 | 0x24 => rowGBranch m4 w | 0x25 => rowGScalar m8 w | 0x28 => rowEngine m8 w w1
  | 0x29 => rowEngineStat m8 w | 0x2C => rowAttar m8 w w1 | 0x30 => rowRdv k m8 w | 0x31 => rowProgress m8 w
  | 0x34 => rowEvent m8 w | 0x38 => rowTlb m8 w | 0x3C => rowSystem m8 w
  | _ => none

/-- What decoding gives: an instruction with its length in words, or the trap of R33 with TRAPVAL and TRAPAUX. -/
inductive Decoded where
  | ok (i : Instr) (len : Nat)
  | trap (cause : Nat) (val aux : Nat)
  deriving DecidableEq, Repr

/-- Steps 1 to 9 of R33. `ws` are the words of the loaded extent from the address `pc` on. -/
def decode (k : StreamKind) (priv : Bool) (pc : Nat) (ws : List Nat) : Decoded :=
  match ws with
  | [] => .trap cFETCH_BOUNDS pc 0
  | w :: rest =>
    let len := fieldAt w 0 2
    if len = 3 then .trap cILLEGAL_LENGTH w 0
    else if rest.length < len then .trap cFETCH_BOUNDS (pc + 8 * (rest.length + 1)) 0
    else
      match majorStreams (fieldAt w 2 8) with
      | none => .trap cILLEGAL_OPCODE w 0
      | some ks =>
        if k ∉ ks then .trap cILLEGAL_STREAM w 0
        else
          match rowOf k w (rest.getD 0 0) (rest.getD 1 0) with
          | none => .trap cILLEGAL_FIELD w 14
          | some r =>
            if len + 1 ≠ r.len then .trap cILLEGAL_LENGTH w 0
            else
              match lowestBad r.bad with
              | some n => .trap cILLEGAL_FIELD w n
              | none => if r.priv && !priv then .trap cPRIVILEGED w 0 else .ok r.ins r.len

/-- The instruction that the decoder reads from the bits `w`, word 0 in bits [63:0] (the host's numbering); words
beyond `nbits` are zero. The C stream's reading is taken where both streams have one. -/
def decodeTableWord (_nbits w : Nat) : Option Instr :=
  let ws := [w % 2 ^ 64, w / 2 ^ 64 % 2 ^ 64, w / 2 ^ 128 % 2 ^ 64]
  match decode .c true 0 ws with
  | .ok i _ => some i
  | .trap .. => match decode .g true 0 ws with
    | .ok i _ => some i
    | .trap .. => none

/-! ### The encoder -/

def encGuard (g : Guard) : Nat := g.creg.toNat * 2 ^ 10 + g.sense.toNat * 2 ^ 13

def encSrc : Src → Nat
  | .reg n => n.toNat
  | .queue q _ => 64 + q.toNat
def encPk : Src → Nat
  | .reg _ => 0
  | .queue _ p => p.toNat
def encDst : Dst → Nat
  | .reg n => n.toNat
  | .queue q => 64 + q.toNat
def encGSrc : GSrc → Nat
  | .reg n => n.toNat
  | .queue q _ => 64 + q.toNat
def encGPk : GSrc → Nat
  | .reg _ => 0
  | .queue _ p => p.toNat
def encGDst : GDst → Nat
  | .reg n => n.toNat
  | .queue q => 64 + q.toNat

/-- Format A (R30). -/
def encA (maj min : Nat) (g : Guard) (rd ra rb pka pkb mod : Nat) : List Nat :=
  [maj * 2 ^ 2 + encGuard g + min * 2 ^ 14 + rd * 2 ^ 22 + ra * 2 ^ 29 + rb * 2 ^ 36 + pka * 2 ^ 43 + pkb * 2 ^ 44
    + mod * 2 ^ 45]

/-- Format I (R30). -/
def encI (maj min : Nat) (g : Guard) (rd ra pka imm : Nat) : List Nat :=
  [maj * 2 ^ 2 + encGuard g + min * 2 ^ 14 + pka * 2 ^ 17 + rd * 2 ^ 18 + ra * 2 ^ 25 + imm * 2 ^ 32]

/-- Format B (R30). -/
def encB (maj min : Nat) (g : Guard) (ra rb lc cond off : Nat) : List Nat :=
  [maj * 2 ^ 2 + encGuard g + min * 2 ^ 14 + ra * 2 ^ 18 + rb * 2 ^ 25 + lc * 2 ^ 32 + cond * 2 ^ 34 + off * 2 ^ 38]

/-- Word 0 of format M (R30), with LEN. -/
def encM (len maj min : Nat) (g : Guard) (rd : Nat) (m : MemRef) (size scope ord pkd : Nat) : Nat :=
  len + maj * 2 ^ 2 + encGuard g + min * 2 ^ 14 + rd * 2 ^ 20 + m.sb.toNat * 2 ^ 27 + m.xi.toNat * 2 ^ 31
    + size * 2 ^ 37 + scope * 2 ^ 40 + ord * 2 ^ 43 + pkd * 2 ^ 45 + m.off.toNat * 2 ^ 46

/-- Word 1 of the extended M form (R30). -/
def encM1 (rs2 rs3 pk2 pk3 xop : Nat) : Nat := rs2 + rs3 * 2 ^ 7 + pk2 * 2 ^ 14 + pk3 * 2 ^ 15 + xop * 2 ^ 16

/-- Format Y (R30). -/
def encY (maj min : Nat) (g : Guard) (rd ra pka sys imm : Nat) : List Nat :=
  [maj * 2 ^ 2 + encGuard g + min * 2 ^ 14 + rd * 2 ^ 22 + ra * 2 ^ 29 + pka * 2 ^ 36 + sys * 2 ^ 37 + imm * 2 ^ 49]

/-- Word 0 of format W (R30). -/
def encW (maj min : Nat) (g : Guard) (fa fb fc mr mod rx : Nat) : Nat :=
  1 + maj * 2 ^ 2 + encGuard g + min * 2 ^ 14 + fa * 2 ^ 22 + fb * 2 ^ 27 + fc * 2 ^ 32 + mr * 2 ^ 37 + mod * 2 ^ 40
    + rx * 2 ^ 52

/-- Word 1 of layout K (R30). -/
def encK (ry rz pky pkz imm : Nat) : Nat := ry + rz * 2 ^ 7 + pky * 2 ^ 14 + pkz * 2 ^ 15 + imm * 2 ^ 16

/-- A letter string (R31). -/
def encLetters (l : Letters) : Nat :=
  l.length * 2 ^ 18 + (l.getD 0 0).toNat + (l.getD 1 0).toNat * 2 ^ 3 + (l.getD 2 0).toNat * 2 ^ 6
    + (l.getD 3 0).toNat * 2 ^ 9 + (l.getD 4 0).toNat * 2 ^ 12 + (l.getD 5 0).toNat * 2 ^ 15

/-- Word 1 of layout T (R30). -/
def encT (a b c : Letters) : Nat := encLetters a + encLetters b * 2 ^ 21 + encLetters c * 2 ^ 42

def encA3 (min : Nat) (g : Guard) (rd : Dst) (ra rb : Src) : Option (List Nat) :=
  some (encA 0x04 min g (encDst rd) (encSrc ra) (encSrc rb) (encPk ra) (encPk rb) 0)
def encA2 (min : Nat) (g : Guard) (rd : Dst) (ra : Src) : Option (List Nat) :=
  some (encA 0x04 min g (encDst rd) (encSrc ra) 0 (encPk ra) 0 0)
def encF3 (min : Nat) (g : Guard) (rd : Dst) (ra rb : Src) (mod : Nat) : Option (List Nat) :=
  some (encA 0x0A min g (encDst rd) (encSrc ra) (encSrc rb) (encPk ra) (encPk rb) mod)
def encImm (min : Nat) (g : Guard) (rd : Dst) (ra : Src) (imm : Nat) : Option (List Nat) :=
  some (encI 0x05 min g (encDst rd) (encSrc ra) (encPk ra) imm)
def encAmo (min : Nat) (g : Guard) (op : AmoOp) (ty : AmoTy) (ord : Order) (sc : Scope) (rd : Dst) (m : MemRef)
    (rs2 : Src) : Option (List Nat) :=
  some [encM 1 0x10 min g (encDst rd) m (amoTySize ty) (scopeCode sc) (orderCode ord) 0,
    encM1 (encSrc rs2) 0 (encPk rs2) 0 (amoOpCode op * 16 + amoTyCode ty)]
def encAmon (min : Nat) (g : Guard) (op : AmoOp) (ty : AmoTy) (rel : Bool) (sc : Scope) (m : MemRef) (rs2 : Src) :
    Option (List Nat) :=
  some [encM 1 0x10 min g 0 m (amoTySize ty) (scopeCode sc) (2 * rel.toNat) 0,
    encM1 (encSrc rs2) 0 (encPk rs2) 0 (amoOpCode op * 16 + amoTyCode ty)]
def encCas (min : Nat) (g : Guard) (wide : Bool) (ord : Order) (sc : Scope) (rd : Dst) (m : MemRef) (rs2 rs3 : Src) :
    Option (List Nat) :=
  some [encM 1 0x10 min g (encDst rd) m (2 + wide.toNat) (scopeCode sc) (orderCode ord) 0,
    encM1 (encSrc rs2) (encSrc rs3) (encPk rs2) (encPk rs3) (1 + 2 * wide.toNat)]
def encGrid (maj min : Nat) (g : Guard) (a : GridArgs) (kind rx : Nat) : Option (List Nat) :=
  some [encW maj min g a.fa.toNat a.fb.toNat a.fc.toNat a.mr.toNat
      (a.shape.toNat + rndCode a.rnd * 2 ^ 5 + a.sat.toNat * 2 ^ 8 + a.acc.toNat * 2 ^ 9 + kind * 2 ^ 10) rx,
    encT a.lsa a.lsb a.lsc]
def encCopy (min : Nat) (g : Guard) (ch : BitVec 3) (sc : Option Scope) (cvr : BitVec 6) (fa fb fc : BitVec 4) (rx : Dst)
    (ry rz : Src) (imm : BitVec 48) : Option (List Nat) :=
  some [encW 0x28 min g fa.toNat fb.toNat fc.toNat 0 (ch.toNat + scopeOptCode sc * 2 ^ 3 + cvr.toNat * 2 ^ 6) (encDst rx),
    encK (encSrc ry) (encSrc rz) (encPk ry) (encPk rz) imm.toNat]
def encForm (f : PlyForm) : Nat := f.dm1.toNat + f.bf.toNat * 2 ^ 8

/-- The words of an instruction (R30 and the tables of R49 to R79); none for an event, which has no encoding. -/
def encode : Instr → Option (List Nat)
  | .add g d a b => encA3 0x00 g d a b | .sub g d a b => encA3 0x01 g d a b | .mul g d a b => encA3 0x02 g d a b
  | .mulhS g d a b => encA3 0x03 g d a b | .mulhN g d a b => encA3 0x04 g d a b | .divS g d a b => encA3 0x05 g d a b
  | .divN g d a b => encA3 0x06 g d a b | .remS g d a b => encA3 0x07 g d a b | .remN g d a b => encA3 0x08 g d a b
  | .and g d a b => encA3 0x09 g d a b | .or g d a b => encA3 0x0A g d a b | .xor g d a b => encA3 0x0B g d a b
  | .andn g d a b => encA3 0x0C g d a b | .shl g d a b => encA3 0x0D g d a b | .shr g d a b => encA3 0x0E g d a b
  | .sra g d a b => encA3 0x0F g d a b | .rol g d a b => encA3 0x10 g d a b | .minS g d a b => encA3 0x11 g d a b
  | .minN g d a b => encA3 0x12 g d a b | .maxS g d a b => encA3 0x13 g d a b | .maxN g d a b => encA3 0x14 g d a b
  | .clz g d a => encA2 0x15 g d a | .ctz g d a => encA2 0x16 g d a | .popc g d a => encA2 0x17 g d a
  | .bswap g d a => encA2 0x18 g d a
  | .extr g d a pos w => some (encA 0x04 0x19 g (encDst d) (encSrc a) 0 (encPk a) 0 (w.toNat + pos.toNat * 2 ^ 6))
  | .ins g d a pos w => some (encA 0x04 0x1A g d.toNat (encSrc a) 0 (encPk a) 0 (w.toNat + pos.toNat * 2 ^ 6))
  | .sext g d a w => some (encA 0x04 0x1B g (encDst d) (encSrc a) 0 (encPk a) 0 w.toNat)
  | .zext g d a w => some (encA 0x04 0x1C g (encDst d) (encSrc a) 0 (encPk a) 0 w.toNat)
  | .addi g d a i => encImm 0 g d a i.toNat | .andi g d a i => encImm 1 g d a i.toNat
  | .ori g d a i => encImm 2 g d a i.toNat | .xori g d a i => encImm 3 g d a i.toNat
  | .shli g d a s => encImm 4 g d a s.toNat | .shri g d a s => encImm 5 g d a s.toNat
  | .srai g d a s => encImm 6 g d a s.toNat
  | .movi g d i => some (encI 0x06 0 g (encDst d) 0 0 i.toNat)
  | .movhi g d i => some (encI 0x06 1 g d.toNat 0 0 i.toNat)
  | .cmpi g cc c a i =>
    some (encI (0x07 + condCode cc / 8) (condCode cc % 8) g c.toNat (encSrc a) (encPk a) i.toNat)
  | .cmp g cc c a b => some (encA 0x09 0 g c.toNat (encSrc a) (encSrc b) (encPk a) (encPk b) (condCode cc))
  | .sel g d a b c => some (encA 0x09 1 g (encDst d) (encSrc a) (encSrc b) (encPk a) (encPk b) c.toNat)
  | .cand g c a b => some (encA 0x09 2 g c.toNat a.toNat b.toNat 0 0 0)
  | .cor g c a b => some (encA 0x09 3 g c.toNat a.toNat b.toNat 0 0 0)
  | .cnot g c a => some (encA 0x09 4 g c.toNat a.toNat 0 0 0 0)
  | .fadd g r d a b => encF3 0 g d a b (rndCode r) | .fsub g r d a b => encF3 1 g d a b (rndCode r)
  | .fmul g r d a b => encF3 2 g d a b (rndCode r)
  | .fma g r d a b => encF3 3 g (.reg d) a b (rndCode r)
  | .fmin g d a b => encF3 4 g d a b 0 | .fmax g d a b => encF3 5 g d a b 0
  | .fcmp g cc c a b => some (encA 0x0A 6 g c.toNat (encSrc a) (encSrc b) (encPk a) (encPk b) (fcondCode cc))
  | .fcvt g p r d a => some (encA 0x0A 7 g (encDst d) (encSrc a) 0 (encPk a) 0 (rndCode r + fcvtCode p * 2 ^ 3))
  | .br g off => some (encB 0x0C 0 g 0 0 0 0 off.toNat)
  | .bc g cc a b off => some (encB 0x0C 1 g (encSrc a) (encSrc b) 0 (condCode cc) off.toNat)
  | .call g l off => some (encB 0x0C 2 g 0 l.toNat 0 0 off.toNat)
  | .loop g lc a b off => some (encB 0x0C 3 g (encSrc a) (encSrc b) lc.toNat 0 off.toNat)
  | .jr g a => some (encB 0x0C 4 g (encSrc a) 0 0 0 0)
  | .callr g a l => some (encB 0x0C 5 g (encSrc a) l.toNat 0 0 0)
  | .ret g a => some (encB 0x0C 6 g (encSrc a) 0 0 0 0)
  | .ld g s d m => some [encM 0 0x10 0x00 g (encDst d) m s.toNat 0 0 0]
  | .ldSigned g s d m => some [encM 0 0x10 0x01 g (encDst d) m s.toNat 0 0 0]
  | .st g s a m => some [encM 0 0x10 0x02 g (encSrc a) m s.toNat 0 0 (encPk a)]
  | .lda g s sc d m => some [encM 0 0x10 0x03 g (encDst d) m s.toNat (scopeCode sc) 1 0]
  | .stl g s sc a m => some [encM 0 0x10 0x04 g (encSrc a) m s.toNat (scopeCode sc) 2 (encPk a)]
  | .ldp g d m => some [encM 0 0x10 0x05 g d.toNat m 4 0 0 0]
  | .stp g d m => some [encM 0 0x10 0x06 g d.toNat m 4 0 0 0]
  | .pref g m => some [encM 0 0x10 0x07 g 0 m 7 0 0 0]
  | .flush g sc m => some [encM 0 0x10 0x08 g 0 m 7 (scopeCode sc) 0 0]
  | .fence g o sc => some [encM 0 0x10 0x09 g 0 ⟨0, 0, 0⟩ 0 (scopeCode sc) (orderCode o) 0]
  | .fenceP g mask => some [encM 0 0x10 0x0A g 0 ⟨0, 0, 0⟩ 0 0 0 0 + mask.toNat * 2 ^ 46]
  | .waita g cc wide sc d m a b =>
    some [encM 1 0x10 0x0B g (encDst d) m (2 + wide.toNat) (scopeOptCode sc) (if sc.isSome then 1 else 0) 0,
      encM1 (encSrc a) (encSrc b) (encPk a) (encPk b) (condCode cc)]
  | .amo g op ty o sc d m a => encAmo 0x10 g op ty o sc d m a
  | .amoB g op ty o sc d m a => encAmo 0x11 g op ty o sc d m a
  | .amoN g op ty o sc d m a => encAmo 0x12 g op ty o sc d m a
  | .amon g op ty r sc m a => encAmon 0x13 g op ty r sc m a
  | .amonB g op ty r sc m a => encAmon 0x14 g op ty r sc m a
  | .amonN g op ty r sc m a => encAmon 0x15 g op ty r sc m a
  | .cas g wide o sc d m a b => encCas 0x16 g wide o sc d m a b
  | .casB g wide o sc d m a b => encCas 0x17 g wide o sc d m a b
  | .tdef g t m => some [encM 0 0x11 0 g t.toNat m 6 0 0 0]
  | .tld g t m => some [encM 0 0x11 1 g t.toNat m 6 0 0 0]
  | .tst g t m => some [encM 0 0x11 2 g t.toNat m 6 0 0 0]
  | .mld g t m => some [encM 0 0x11 3 g t.toNat m 6 0 0 0]
  | .mst g t m => some [encM 0 0x11 4 g t.toNat m 6 0 0 0]
  | .tset g t a k => some (encA 0x18 0 g t.toNat (encSrc a) 0 (encPk a) 0 k.toNat)
  | .tget g d t k => some (encA 0x18 1 g (encDst d) t.toNat 0 0 0 k.toNat)
  | .thand g t => some (encA 0x18 2 g 0 t.toNat 0 0 0 0)
  | .bfset g b a => some (encA 0x18 3 g 0 (encSrc a) 0 (encPk a) 0 b.toNat)
  | .map g m a s p => some (encA 0x18 4 g m.toNat (encSrc a) 0 (encPk a) 0 (s.toNat + p.toNat * 2 ^ 3))
  | .mapTile g m a => some (encA 0x18 4 g m.toNat (encSrc a) 0 (encPk a) 0 (2 ^ 5))
  | .mclr g m => some (encA 0x18 5 g m.toNat 0 0 0 0 0)
  | .mchk g k rx a => encGrid 0x19 0 g a (gridKindCode k) (encDst rx)
  | .ctr g a => encGrid 0x20 0 g a 0 0 | .ctrs g a => encGrid 0x20 1 g a 0 0
  | .red g a => encGrid 0x20 2 g a 0 0 | .cvt g a => encGrid 0x20 3 g a 0 0
  | .ewr g a =>
    some [2 + 0x21 * 2 ^ 2 + encGuard g + a.fd.toNat * 2 ^ 22 + a.fa.toNat * 2 ^ 27 + a.fb.toNat * 2 ^ 32
        + a.mr.toNat * 2 ^ 37 + a.fc.toNat * 2 ^ 40 + rndCode a.rnd * 2 ^ 45 + nodeFnCode a.fn * 2 ^ 48
        + a.sat.toNat * 2 ^ 51 + encGSrc a.x * 2 ^ 52 + encGPk a.x * 2 ^ 59,
      encLetters a.lsd + a.ma.toNat * 2 ^ 21 + a.mb.toNat * 2 ^ 27 + a.mc.toNat * 2 ^ 33,
      nodeCode a.n0 + nodeCode a.n1 * 2 ^ 4 + nodeCode a.n2 * 2 ^ 8 + nodeCode a.n3 * 2 ^ 12 + nodeCode a.n4 * 2 ^ 16
        + nodeCode a.n5 * 2 ^ 20 + nodeCode a.n6 * 2 ^ 24 + nodeCode a.n7 * 2 ^ 28 + a.k0.toNat * 2 ^ 32
        + a.k1.toNat * 2 ^ 48]
  | .gmov g d a => some (encA 0x25 0 g (encGDst d) (encGSrc a) 0 (encGPk a) 0 0)
  | .gadd g d a b => some (encA 0x25 1 g (encGDst d) (encGSrc a) (encGSrc b) (encGPk a) (encGPk b) 0)
  | .gsub g d a b => some (encA 0x25 2 g (encGDst d) (encGSrc a) (encGSrc b) (encGPk a) (encGPk b) 0)
  | .gcmp g cc c a b => some (encA 0x25 3 g c.toNat (encGSrc a) (encGSrc b) (encGPk a) (encGPk b) (condCode cc))
  | .gqpop g d q p => some (encA 0x25 4 g d.toNat (64 + q.toNat) 0 p.toNat 0 0)
  | .gqpush g q a => some (encA 0x25 5 g (64 + q.toNat) a.toNat 0 0 0 0)
  | .gsig g f => some (encA 0x25 6 g 0 0 0 0 0 f.toNat)
  | .gsigD g f => some (encA 0x25 6 g 0 0 0 0 0 (16 + f.toNat))
  | .gwaitf g f v => some (encA 0x25 7 g 0 0 0 0 0 (f.toNat + v.toNat * 2 ^ 4))
  | .gdrain g => some (encA 0x25 8 g 0 0 0 0 0 0) | .gidle g => some (encA 0x25 9 g 0 0 0 0 0 0)
  | .gend g => some (encA 0x25 0xA g 0 0 0 0 0 0)
  | .gthand g t => some (encA 0x25 0xB g 0 0 0 0 0 t.toNat)
  | .gloop g a off => some (encB 0x24 0 g a.toNat 0 0 0 off.toNat)
  | .gbr g off => some (encB 0x24 1 g 0 0 0 0 off.toNat)
  | .gbc g cc a b off => some (encB 0x24 2 g (encGSrc a) (encGSrc b) 0 (condCode cc) off.toNat)
  | .copy g ch sc cvr fa fb fc rx ry rz len => encCopy 0 g ch sc cvr fa fb fc rx ry rz len
  | .mcast g ch sc cvr fa fb fc rx ry rz mask => encCopy 2 g ch sc cvr fa fb fc rx ry rz mask
  | .tcopy g ch sc csb fa fc lsa lsc rx =>
    some [encW 0x28 1 g fa.toNat 0 fc.toNat 0 (ch.toNat + scopeOptCode sc * 2 ^ 3 + csb.toNat * 2 ^ 8) (encDst rx),
      encT lsa [] lsc]
  | .plysort g fa rx ry rz f =>
    some [encW 0x28 4 g fa.toNat 0 0 0 0 (encDst rx), encK (encSrc ry) (encSrc rz) (encPk ry) (encPk rz) (encForm f)]
  | .plysend g ch fa rx ry rz f core hank =>
    some [encW 0x28 5 g fa.toNat 0 0 0 ch.toNat (encDst rx),
      encK (encSrc ry) (encSrc rz) (encPk ry) (encPk rz) (encForm f + core.toNat * 2 ^ 16 + hank.toNat * 2 ^ 27)]
  | .plyred g ch fa fb rx ry rz f =>
    some [encW 0x28 6 g fa.toNat fb.toNat 0 0 ch.toNat (encDst rx),
      encK (encSrc ry) (encSrc rz) (encPk ry) (encPk rz) (encForm f)]
  | .cpwait g ch d a => some (encA 0x29 0 g (encDst d) (encSrc a) 0 (encPk a) 0 ch.toNat)
  | .cpstatNext g ch d => some (encA 0x29 1 g (encDst d) 0 0 0 0 ch.toNat)
  | .cpstatBusy g ch d => some (encA 0x29 1 g (encDst d) 0 0 0 0 (8 + ch.toNat))
  | .plystat g k d => some (encA 0x29 2 g (encDst d) 0 0 0 0 k.toNat)
  | .plystatClr g k d => some (encA 0x29 2 g (encDst d) 0 0 0 0 (16 + k.toNat))
  | .areg g fa rx ry rz hd lnu rows =>
    some [encW 0x2C 0 g fa.toNat 0 0 0 0 (encDst rx),
      encK (encSrc ry) (encSrc rz) (encPk ry) (encPk rz) (hd.toNat + lnu.toNat * 2 ^ 8 + rows.toNat * 2 ^ 12)]
  | .aregFree g ry => some [encW 0x2C 0 g 0 0 0 0 1 0, encK (encSrc ry) 0 (encPk ry) 0 0]
  | .aqpost g fa rx ry rz hr h =>
    some [encW 0x2C 1 g fa.toNat 0 0 0 (h.toNat + hr.toNat * 2 ^ 6) (encDst rx),
      encK (encSrc ry) (encSrc rz) (encPk ry) (encPk rz) 0]
  | .aqwait g rx cr ry => some [encW 0x2C 2 g 0 0 0 0 (cr.toNat * 2 ^ 6) (encDst rx), encK (encSrc ry) 0 (encPk ry) 0 0]
  | .aappend g fa rx ry hr =>
    some [encW 0x2C 3 g fa.toNat 0 0 0 (hr.toNat * 2 ^ 6) (encDst rx), encK (encSrc ry) 0 (encPk ry) 0 0]
  | .acommit g rx ry hr => some [encW 0x2C 4 g 0 0 0 0 (hr.toNat * 2 ^ 6) (encDst rx), encK (encSrc ry) 0 (encPk ry) 0 0]
  | .rdv g cls ext id =>
    some (encA 0x30 0 g 0 0 0 0 0 (id.toNat + rdvExtCode ext * 2 ^ 6 + rdvClsCode cls * 2 ^ 8))
  | .qpush g q a => some (encA 0x31 0 g (64 + q.toNat) (encSrc a) 0 (encPk a) 0 0)
  | .qpop g d q => some (encA 0x31 1 g d.toNat (64 + q.toNat) 0 0 0 0)
  | .qpeek g d q => some (encA 0x31 2 g d.toNat (64 + q.toNat) 0 1 0 0)
  | .qpeekCnt g d q => some (encA 0x31 2 g d.toNat (64 + q.toNat) 0 1 0 1)
  | .flset g f => some (encA 0x31 3 g 0 0 0 0 0 f.toNat) | .flclr g f => some (encA 0x31 4 g 0 0 0 0 0 f.toNat)
  | .flwait g d a v f => some (encA 0x31 5 g d.toNat a.toNat 0 0 0 (f.toNat + v.toNat * 2 ^ 4))
  | .hbind g h a => some (encA 0x31 6 g 0 a.toNat 0 0 0 h.toNat)
  | .hclaim g h d a => some (encA 0x31 7 g d.toNat a.toNat 0 0 0 h.toNat)
  | .hclaimR g h d a c => some (encA 0x31 7 g d.toNat a.toNat 0 0 0 (h.toNat + 16 + c.toNat * 2 ^ 5))
  | .hcommit g h a b => some (encA 0x31 8 g 0 a.toNat b.toNat 0 0 h.toNat)
  | .hcommitR g h a b c => some (encA 0x31 8 g 0 a.toNat b.toNat 0 0 (h.toNat + 16 + c.toNat * 2 ^ 5))
  | .hwaitf g h d a => some (encA 0x31 9 g d.toNat a.toNat 0 0 0 h.toNat)
  | .hwaite g h d a => some (encA 0x31 0xA g d.toNat a.toNat 0 0 0 h.toNat)
  | .htake g h d a => some (encA 0x31 0xB g d.toNat a.toNat 0 0 0 h.toNat)
  | .hdone g h a => some (encA 0x31 0xC g 0 a.toNat 0 0 0 h.toNat)
  | .yieldC g => some (encA 0x31 0xD g 0 0 0 0 0 0) | .endC g => some (encA 0x31 0xE g 0 0 0 0 0 0)
  | .evset g c e => some (encA 0x34 0 g 0 0 0 0 0 (e.toNat + c.toNat * 2 ^ 8))
  | .evclr g c e => some (encA 0x34 1 g 0 0 0 0 0 (e.toNat + c.toNat * 2 ^ 8))
  | .evwait g d b c e => some (encA 0x34 2 g d.toNat 0 b.toNat 0 0 (e.toNat + c.toNat * 2 ^ 8))
  | .dinit g die rc a b =>
    some (encA 0x34 3 g 0 (encSrc a) (encSrc b) (encPk a) (encPk b) (rc.toNat + die.toNat * 2 ^ 6))
  | .dclaim g d die rc => some (encA 0x34 4 g (encDst d) 0 0 0 0 (rc.toNat + die.toNat * 2 ^ 6))
  | .launch g d m => some [encM 0 0x13 0 g d.toNat m 0 0 0 0]
  | .spmint g b a => some (encA 0x14 0 g b.toNat a.toNat 0 0 0 0)
  | .spnarrow g d a b mask => some (encA 0x14 1 g d.toNat a.toNat (encSrc b) 0 (encPk b) mask.toNat)
  | .spoff g d a b => some (encA 0x14 2 g d.toNat a.toNat (encSrc b) 0 (encPk b) 0)
  | .spget g d b sel => some (encA 0x14 3 g (encDst d) b.toNat 0 0 0 sel.toNat)
  | .spmov g d a => some (encA 0x14 4 g d.toNat a.toNat 0 0 0 0)
  | .spmovClr g d => some (encA 0x14 4 g d.toNat 0 0 0 0 1)
  | .spld g b m => some [encM 0 0x12 0 g b.toNat m 5 0 0 0]
  | .spst g b m => some [encM 0 0x12 1 g b.toNat m 5 0 0 0]
  | .ovld g d a b => some (encA 0x14 5 g (encDst d) (encSrc a) (encSrc b) (encPk a) (encPk b) 0)
  | .ovldG g a b => some (encA 0x14 5 g 0 (encSrc a) (encSrc b) (encPk a) (encPk b) 1)
  | .tlbinvPage g a asid => some (encY 0x38 0 g 0 (encSrc a) 0 0 asid.toNat)
  | .tlbinvAsid g asid => some (encY 0x38 0 g 0 0 0 0 (asid.toNat + 1 * 2 ^ 12))
  | .tlbinvPart g => some (encY 0x38 0 g 0 0 0 0 (2 * 2 ^ 12))
  | .tlbsync g => some (encY 0x38 1 g 0 0 0 0 0)
  | .dirtysync g asid => some (encY 0x38 2 g 0 0 0 0 asid.toNat)
  | .trap g imm => some (encY 0x3C 0 g 0 0 0 0 imm.toNat)
  | .eret g => some (encY 0x3C 1 g 0 0 0 0 0)
  | .srd g d r => some (encY 0x3C 2 g (encDst d) 0 0 (sysRegNum r) 0)
  | .swr g r a => some (encY 0x3C 3 g 0 (encSrc a) (encPk a) (sysRegNum r) 0)
  | .srx g d r a => some (encY 0x3C 4 g (encDst d) (encSrc a) (encPk a) (sysRegNum r) 0)
  | .brk g imm => some (encY 0x3C 5 g 0 0 0 0 imm.toNat)
  | .halt g imm => some (encY 0x3C 6 g 0 0 0 0 imm.toNat)
  | _ => none

/-- Words that an encoded instruction occupies (R51): 2 for the extended M and W forms, 3 for EWR. -/
def wordsOf (i : Instr) : Nat := ((encode i).getD []).length

end Sys2Proof
end

