-- ==== Sys2Proof/Machine/State.lean ====
section
/-! DEFINITION. The state of the machine as plain data: what the spec gives a context bank, a core, the memory system, a job, a partition and the device, and the state after reset. -/
namespace Sys2Proof.Machine

/-- Why the machine stops. -/
inductive Fault where
  /-- Raised by `step` once the device has shut down at 115 °C (R405): nothing runs but a boot. Safe. -/
  | poweredOff
  deriving DecidableEq, Repr

/-- Why an instruction has no meaning. -/
inductive Refusal where
  /-- Raised by an arm of `exec` whose instruction has no meaning in the model. Safe. -/
  | notModelled (mnemonic : String)
  deriving DecidableEq, Repr

/-! ### Streams -/

/-- What a waiting stream waits for (R296), and the waits of single entries that R296 does not list. -/
inductive WaitTag where
  | pop | push | flag | gidle | waita | hclaim | hwait | hbind | rdv | channel | cpwait | aqwait | querySlot
  | attarReply | fenceP | access | gridOwner | gridGo | gridPlace | tensorOwner | evwait | launchSlot | ovldG | tlb
  | dirtyctl | ctxbank | loads | gdrain | remoteHank | ended
  deriving DecidableEq, Repr

/-- A wait: its cause, the object and detail of R324, the values read and popped when it began (R229), and the DTC
value at its start. -/
structure Wait where
  tag : WaitTag
  obj : Nat
  detail : Nat
  vals : List Word
  since : Nat
  deriving DecidableEq, Repr

/-- Life of a stream: no team bound, bound and waiting for START (R310), running, or ended (END, GEND). -/
inductive Run where
  | unbound | bound | running | ended
  deriving DecidableEq, Repr, Inhabited

/-- One stream of a bank: PC, wait, life, the words of its loaded extent (R343) and its overlay number. -/
structure Stream where
  pc : Word
  wait : Option Wait
  run : Run
  code : List Nat
  ovl : Nat
  deriving DecidableEq, Repr, Inhabited

/-- A loop counter with its hidden record (R188). `order` is 0 when inactive, and grows with each activation. -/
structure LoopReg where
  lc : Word32
  active : Bool
  start : Word
  stop : Word
  rem : Nat
  step : Int
  order : Nat
  deriving DecidableEq, Repr, Inhabited

/-- A span register: 256 bits and the hidden valid bit (R326). -/
structure SpanReg where
  bits : BitVec 256
  valid : Bool
  deriving DecidableEq, Repr, Inhabited

/-- A tensor register: descriptor, owner, and the span captured by TDEF or TLD (R142, R148). -/
structure Tensor where
  desc : BitVec 512
  owner : StreamKind
  span : SpanReg
  deriving DecidableEq, Repr, Inhabited

/-- Who claims slots of a hank: the C stream of a core of the home's team, by core number, with the count, or an
engine delivery of a Ply operation or of an Attar query of the home bank. -/
inductive Claimant where
  | stream (core n : Nat)
  | ply (op : Nat)
  | attar (qid : Nat)
  deriving DecidableEq, Repr

/-- A hank (R286, R287): geometry value or unbound, the three counters modulo 2^32, the commit marks as positions,
and the claims that wait for a grant, in arrival order. -/
structure Hank where
  geo : Option Word
  head : Word32
  tail : Word32
  claimed : Word32
  marks : List Word32
  claims : List Claimant
  /-- Stores that the commits' releases cover (R292). -/
  covers : List Nat
  deriving DecidableEq, Repr, Inhabited

/-- A held fault (R215, R216). -/
structure Held where
  cause : Nat
  val : Word
  aux : Word
  /-- Path C: the number of the store, which orders the stores of a stream in program order (R215). Other paths: 0. -/
  seq : Nat
  deriving DecidableEq, Repr

/-- A translation as R352 returns it, sampled where an access keeps it. -/
structure Xlat where
  pa : Nat
  smode : Nat
  pslice : Nat
  attar : Bool
  spanstore : Bool
  deriving DecidableEq, Repr

/-- An outstanding weak load (R221): number, destination, place, size, sign extension; `pair` marks LDP; its PC, the PC after
it, and its address. -/
structure OutLoad where
  id : Nat
  dst : Dst
  place : Nat
  size : Nat
  sign : Bool
  pair : Bool
  pc : Word
  next : Word
  va : Nat
  deriving DecidableEq, Repr

/-- An accepted return-free atomic (R227): number, path letter index (0 C, 3 B, 4 N), operation, type, value, place, address,
its place among the stores of its stream (R215), and the releases that its write carries (R203, R204). -/
structure Amon where
  id : Nat
  path : Nat
  op : AmoOp
  ty : AmoTy
  val : Word
  place : Nat
  va : Nat
  seq : Nat
  rel : List (Scope × List Nat)
  deriving DecidableEq, Repr

/-- A trap that waits for its ring record or its answer (R380, R382). `answer` holds an answer that came while the bank
stood saved (R387). -/
structure PendTrap where
  cause : Nat
  pc : Word
  val : Word
  aux : Word
  time : Nat
  seq : Option Nat
  held : Bool
  grid : Option Nat
  answer : Option Nat
  deriving DecidableEq, Repr

/-- Why a bank drains or stands drained (R381). `parked`: drained for a pre-emption and ready to be saved (R387). -/
inductive Drain where
  | none | fault | ctxbank | halt | answer | preempt | parked
  deriving DecidableEq, Repr, Inhabited

/-- Halt of a bank: halt cause and IMM (R386). -/
structure Halt where
  cause : Nat
  imm : Nat
  deriving DecidableEq, Repr

/-- The team binding of a bank: job, partition, job coordinates (R130). -/
structure Binding where
  job : Nat
  part : Nat
  jd : Nat
  jc : Nat
  jk : Nat
  deriving DecidableEq, Repr

/-- An overlay-table entry (R342). -/
structure OvlEntry where
  kind : StreamKind
  num : Nat
  length : Nat
  offset : Nat
  deriving DecidableEq, Repr

/-! ### Copy channels (R234, R235) -/

/-- The command of an accepted transfer, with the operands sampled at acceptance. -/
inductive XferCmd where
  | copy (src dst : SpanReg) (srcOff dstOff len : Nat)
  | tcopy (a c : Tensor) (lsa lsc : Letters) (fmts : List Word) (seed : Word)
  | mcast (src dst : SpanReg) (srcOff dstOff len : Nat) (mask : BitVec 48)
  | ply (op : Nat)
  deriving DecidableEq, Repr

/-- An accepted transfer: identifier, ASID and partition sampled, completion word (span, scope, value), progress, and the
writes of its current unit that are still to be made (address, bytes; R207). -/
structure Xfer where
  id : Nat
  cmd : XferCmd
  asid : BitVec 12
  cword : Option (SpanReg × Scope × Word)
  done : Nat
  flags : Nat
  faulted : Bool
  finished : Bool
  todo : List (Nat × List Nat)
  deriving DecidableEq, Repr

structure Chan where
  next : Nat
  cpdone : Nat
  xfers : List Xfer
  deriving DecidableEq, Repr, Inhabited

/-! ### Attar queries of a bank (R272, R273) -/

/-- One of the 16 query slots: its number, id, region handle, hank, units and those committed, the units that met errors as a
mask, and the rows excluded. -/
structure QuerySlot where
  slot : Nat
  id : Nat
  handle : Word
  hank : Nat
  nu : Nat
  committed : Nat
  mask : Nat
  nexcl : Nat
  deriving DecidableEq, Repr

/-- What an Attar instruction asks of a stack. -/
inductive AttarWhat where
  | register | free | ask | query | append | commit
  deriving DecidableEq, Repr

/-- A request at a stack whose reply the stream waits for (R269): its numbers, the bytes and pages it carries. -/
structure AttarReq where
  what : AttarWhat
  args : List Nat
  data : List Byte
  pages : List (Nat × Bool)
  deriving DecidableEq, Repr

/-! ### Grid instructions in flight (R112, R134, R141) -/

/-- The instruction of a grid operation. -/
inductive GridWhat where
  | ctr (a : GridArgs)
  | ctrs (a : GridArgs)
  | red (a : GridArgs)
  | cvt (a : GridArgs)
  | ewr (a : EwrArgs) (x : Word32)
  deriving DecidableEq, Repr

/-- Where a grid operation stands: waiting for GO (R135), stopped by its trap, running, every output tile worked. -/
inductive GridPhase where
  | hashed | stopped | running | written
  deriving DecidableEq, Repr

/-- What one message of a running contraction carries (R133): sender's job coordinates, output tile, step, operand,
chunk number, and the payload as numbers: element and scale bytes, 32-bit node values, or 128-bit partials. `lost`
says that an uncorrectable error stood in what the sender read (R171). `counts` and `terms`, on the first chunk of FREE-mode
values only, are the model's own: how many values each element has, and the terms of each that go to the owner unrounded, with
their indexes (log entry 15). -/
structure GridPart where
  src : Nat × Nat × Nat
  tile : Nat
  step : Nat
  opnd : Nat
  chunk : Nat
  data : List Nat
  lost : Bool
  counts : List Nat
  terms : List (List (Nat × List Int))
  deriving DecidableEq, Repr

/-- A grid operation with everything sampled at issue (R112): descriptors in the order of their roles 0 O, 1 A, 2 B,
3 C, the BFMT value of each tensor's banks, m, SPWIN, ROUNDSEED, ASID; its contraction number (R133), its tile cursor
(R134), whether the cursor's operand chunks are sent, what has arrived, its flags, its route tag, the trap that it
takes when stopped, the values of output blocks that several tiles share (R119), and the writes of the current tile that are
still to be made (address, bytes; R206, R207) with the lowest failure among those made (address, cause; R168). -/
structure GridOp where
  seq : Nat
  pc : Word
  what : GridWhat
  tens : List (Nat × Tensor)
  fmts : List (Nat × Word)
  mrec : BitVec 512
  spwin : Word
  seed : Word
  asid : BitVec 12
  phase : GridPhase
  number : Nat
  tile : Nat
  sent : Bool
  opnds : List GridPart
  nodes : List GridPart
  exacts : List GridPart
  flags : Nat
  tag : Option Nat
  stop : Option Held
  vals : List (List Nat × List Int)
  todo : List (Nat × List Nat)
  low : Option (Nat × Nat)
  deriving DecidableEq, Repr

/-! ### Context banks (R277) -/

structure Bank where
  x : Vector Word 64
  cC : Vector Bool 8
  cG : Vector Bool 8
  lc : Vector LoopReg 4
  y : Vector Word32 16
  t : Vector Tensor 32
  m : Vector (BitVec 512) 8
  b : Vector SpanReg 16
  q : Vector (List Word) 8
  fl : Vector Bool 16
  /-- The S-path writes not yet globally visible that the observation of a flag hands over: those of a GSIG.D (R210). -/
  flD : Vector (List Nat) 16
  h : Vector Hank 16
  chan : Vector Chan 8
  held : List Held
  fpflags : Word
  roundseed : Word
  spwin : Word
  bfmt : Vector Word 16
  plyDense : Word
  plystat : Vector Word 4
  lwait : Word
  stall : Word
  quantum : Word
  conflicts : Vector Word 8
  status : Word
  trapcause : Word
  trappc : Word
  trapval : Word
  trapvec : Word
  trapaux : Word
  asid : BitVec 12
  queries : List QuerySlot
  nextQuery : Nat
  attarReq : Option AttarReq
  grid : List GridOp
  nextGrid : Nat
  /-- Grid instructions that the G stream has carried through their checks: the number of the next one (R133). -/
  gridNum : Nat
  /-- PLYRED instructions that the C stream has carried through their checks (R251). -/
  plyNum : Nat
  rdvC : Vector Nat 64
  rdvG : Vector Nat 64
  c : Stream
  g : Stream
  outLoads : List OutLoad
  amons : List Amon
  nextAcc : Nat
  observed : List Nat
  /-- Releases that earlier reads read from, for a later FENCE.acq (R204): core, scope, the stores covered. -/
  acqPending : List (Nat × Scope × List Nat)
  /-- Releases of FENCE.rel that every later write carries (R204), wider scopes first. -/
  relFence : List (Scope × List Nat)
  pendTrap : Option PendTrap
  drain : Drain
  halted : Option Halt
  preemptAt : Option Nat
  /-- DTC value when the bank last stopped issuing (R322). -/
  idleSince : Nat
  binding : Option Binding
  image : Nat
  codeC : SpanReg
  codeG : SpanReg
  ovls : List OvlEntry
  deriving DecidableEq, Repr, Inhabited

/-! ### Memory system -/

/-- A write that is not yet globally visible (R199): number, bank, partition, path (0 C, 1 S, 2 X, 3 B), the operation of an
engine's write (a grid operation's number, or a transfer's channel and identifier), address, place, bytes, whether it has
reached the cluster cache, whether it is performed at its home slice already (R197; no later write of the bytes precedes it), the
releases it carries (scope and the stores covered), or the fault it will hold. -/
structure PendStore where
  id : Nat
  bank : BankId
  part : Nat
  path : Nat
  op : Nat
  va : Nat
  place : Nat
  data : List Byte
  /-- No cluster cache holds the line: scratchpad, or a page with the ATTAR attribute (R203). -/
  uncached : Bool
  visible : Bool
  home : Bool
  rel : List (Scope × List Nat)
  fault : Option Held
  deriving DecidableEq, Repr

/-- A performed release write: the bytes it wrote, its core and scope, and the stores it covers (R203). -/
structure RelTag where
  place : Nat
  len : Nat
  core : Nat
  scope : Scope
  covers : List Nat
  deriving DecidableEq, Repr

/-- A home slice's directory entry of a line (R197): the cluster whose cache holds it in state M or O, if any, and the 32-bit
sharer vector of the caches that hold it. -/
structure DirLine where
  owner : Option Nat
  sharers : BitVec 32
  deriving DecidableEq, Repr

/-- A MOESI state (R197). -/
inductive Moesi where
  | m | o | e | s | i
  deriving DecidableEq, Repr

/-- A cached translation (R354): holder, tags, virtual base and size of the page or piece, the entry and its level, and its
dirty-known granules (R359). -/
structure TlbEntry where
  holder : TlbHolder
  part : Nat
  asid : Nat
  vbase : Nat
  size : Nat
  pbase : Nat
  level : Nat
  w : Bool
  dset : Bool
  smode : Nat
  pslice : Nat
  attar : Bool
  spanstore : Bool
  /-- The bitmap base when the address space records writes (R357). -/
  track : Option Nat
  known : List Nat
  /-- Virtual base and size of the page whose translation the entry holds, of which a tracked one keeps a piece (R359, R361). -/
  page : Nat × Nat
  deriving DecidableEq, Repr

/-- An invalidation sent and not yet acknowledged by a target (R361, R362). `va` none: the whole ASID; `asid` none:
the whole partition; `dirtyOnly`: DIRTYSYNC. -/
structure Inval where
  target : TlbHolder
  bank : BankId
  part : Nat
  asid : Option Nat
  va : Option Nat
  dirtyOnly : Bool
  deriving DecidableEq, Repr

/-- A message of a remote producer that the hub carries to its home bank (R289, R300): the job and coordinates of the
team, and the two core numbers. -/
structure HubMsg where
  id : Nat
  job : Nat
  jd : Nat
  jc : Nat
  src : Nat
  home : Nat
  hank : BitVec 4
  commit : Bool
  pos : Word32
  n : Word
  /-- Stores that a commit's release covers. -/
  covers : List Nat
  deriving DecidableEq, Repr

/-- Spindle message classes (R133). -/
inductive SpMsg where
  | hash (status : Nat) (digest : List Byte) (count : Nat)
  | go (tag : Option Nat)
  | stop (aux : Word)
  | opnd (p : GridPart)
  | node (p : GridPart)
  | exact (p : GridPart)
  deriving DecidableEq, Repr

/-- A message under way: job and contraction number, sender (job coordinates and virtual core id), recipient, payload and
the 64-bit header (R133). -/
structure SpindleMsg where
  id : Nat
  job : Nat
  number : Nat
  src : Nat × Nat × Nat
  core : Nat
  dst : Nat × Nat × Nat
  body : SpMsg
  head : Word
  deriving DecidableEq, Repr

/-- A route tag (R135): a contraction of a job holds it on its dies, by die number. -/
structure TagUse where
  dies : List Nat
  tag : Nat
  job : Nat
  number : Nat
  deriving DecidableEq, Repr

/-- What the root of a contraction holds (R135): the number of its participants and its dies once it has made its own
checks, and per participant coordinates, core id, status and digest. -/
structure RootRec where
  job : Nat
  number : Nat
  root : Nat × Nat × Nat
  ready : Bool
  parts : Nat
  dies : List Nat
  needTag : Bool
  own : List Byte
  got : List ((Nat × Nat × Nat) × Nat × Nat × List Byte)
  deriving DecidableEq, Repr

/-- A member of a Ply operation: job coordinates, its list, and where it stands: waiting for GO, stopped by its trap,
accepted once `xfer` is not 0, or its records read. A record is its index with FP32 values. -/
structure PlyMember where
  c : Nat × Nat × Nat
  phase : GridPhase
  stop : Option Held
  ch : Nat
  xfer : Nat
  span : SpanReg
  addr : Nat
  count : Nat
  asid : BitVec 12
  recs : List (Nat × List Nat)
  deriving DecidableEq, Repr

/-- A Ply operation (R249, R251): a PLYSEND with its one member, or a PLYRED with its number (2^32 and up, so that no
contraction shares it). `out` holds what is still to be delivered: dense or not, index, value codes. -/
structure PlyOp where
  id : Nat
  job : Nat
  number : Nat
  red : Bool
  form : PlyForm
  free : Bool
  lo : Nat
  hi : Nat
  frac : Nat
  owner : Nat × Nat × Nat
  hank : Nat
  /-- The members that its group record names. -/
  parts : List (Nat × Nat × Nat)
  members : List PlyMember
  out : Option (List (Bool × Nat × List Nat))
  /-- Records delivered so far (R323). -/
  delivered : Nat
  deriving DecidableEq, Repr

/-- An Attar region (R258, R259): its context, its virtual base, the physical pages taken at AREG, geometry, and VALID (R260). -/
structure AttarRegion where
  stack : Nat
  index : Nat
  gen : Nat
  live : Bool
  part : Nat
  asid : Nat
  job : Nat
  va : Nat
  pages : List Nat
  hd : Nat
  lnu : Nat
  rows : Nat
  valid : Nat
  deriving DecidableEq, Repr

/-- An accepted Attar query (R261 to R264): its job and core, id, region, snapshot, range, vector, hank, the next unit to
commit, and the granules that its scan has read, by row and number; an uncorrectable one is none (R266, R268). -/
structure AttarQuery where
  job : Nat
  c : Nat × Nat × Nat
  id : Nat
  stack : Nat
  index : Nat
  snap : Nat
  lo : Nat
  hi : Nat
  query : List Byte
  hank : Nat
  next : Nat
  got : List ((Nat × Nat) × Option (List Byte))
  deriving DecidableEq, Repr

/-! ### Scheduling -/

/-- A launch record (R303), field by field. Masks are 256-bit numbers. `raw` keeps its 512 bytes. -/
structure LaunchRec where
  vmin : Nat
  vmaj : Nat
  kind : Nat
  ctrl : Nat
  ctx : Nat
  recid : Nat
  waitM : Nat
  setM : Nat
  clrM : Nat
  image : Nat
  entry : Nat
  shape : Nat
  dcount : Nat
  savearea : Nat
  args : List Word
  spwin : Word
  seed : Word
  lwait : Word
  stall : Word
  quantum : Word
  doneaddr : Nat
  bfmt : List Word
  doneval : Word
  siladdr : Nat
  raw : List Byte
  deriving DecidableEq, Repr

/-- A record that the scheduler holds: arrival number, ring, record, parameter copy, whether it is at its dispatch
point, the graph instance and index it belongs to, and its place in the rotation of its priority (R313). -/
structure QRec where
  arrival : Nat
  lrec : LaunchRec
  priv : Bool
  params : List Byte
  ready : Bool
  inst : Option (Nat × Nat)
  rot : Nat
  deriving DecidableEq, Repr

/-- A running graph instance (R316, R317). -/
structure GInst where
  id : Nat
  object : Nat
  replay : QRec
  events : Nat
  left : List Nat
  failed : Option Nat
  deriving DecidableEq, Repr

structure Ring where
  base : Nat
  qlog2 : Nat
  head : Nat
  tail : Nat
  deriving DecidableEq, Repr

/-- Distaff context (R318). -/
structure Distaff where
  n : Nat
  next : Nat
  min : Nat
  d : Nat
  p : Nat
  deriving DecidableEq, Repr

/-- An arrival at a join (R294): join id, count, job coordinates, stream and core of the arriver. -/
structure Arrival where
  id : Nat
  n : Nat
  jd : Nat
  jc : Nat
  jk : Nat
  kind : StreamKind
  core : Nat
  cls : RdvCls
  ext : RdvExt
  /-- Stores that the arriver's release covers. -/
  covers : List Nat
  opened : Bool
  deriving DecidableEq, Repr

/-- A bound team (R313): coordinates, DTC value of its binding, whether it stands at a quantum boundary. -/
structure TeamRec where
  jd : Nat
  jc : Nat
  start : Nat
  boundary : Bool
  deriving DecidableEq, Repr

/-- A team of a job that stands saved (R389): coordinates, cause, the context save's number, runnable or not, and its
place in the rotation of its priority (R313). -/
structure SavedTeam where
  jd : Nat
  jc : Nat
  reason : Nat
  serial : Nat
  runnable : Bool
  rotation : Nat
  deriving DecidableEq, Repr

/-- A running job: its banks with their bindings, the physical die of each die rank, its rendezvous arrivals, Distaff
contexts by physical die and relative number, saved and bound teams, the event bits that its streams have set (R325),
and the moment of its last recorded stall (R322). -/
structure Job where
  id : Nat
  part : Nat
  qrec : QRec
  dies : List Nat
  evbits : List (Nat × Nat)
  banks : List (BankId × Binding)
  started : Bool
  aborted : Option Nat
  arrivals : List Arrival
  distaff : List ((Nat × Nat) × Distaff)
  saved : List SavedTeam
  teams : List TeamRec
  stalledAt : Option Nat
  deriving DecidableEq, Repr

/-- A log entry: which log, what happened, and the values the rule names. -/
inductive LogKind where
  | recordReject | bindReject | answerIgnored | windowWrite | longWait | stall | abort | modifiedLineLost
  | retire | thermal | resumeReject | attarExclude | retrain | refuseVersion | partitionRefused | quoteFailed
  | recoveryRejected | pageTableEcc
  deriving DecidableEq, Repr

structure LogEntry where
  kind : LogKind
  args : List Nat
  deriving DecidableEq, Repr

/-- Live migration of a partition (R400 to R402): source state, round, packets sent and not acknowledged, next counter,
session, key, job, the records and event bits that have been sent (R325); and on a target the last ROUND applied to each granule,
what arrived beside memory, and the counters acknowledged. -/
structure Migration where
  state : Nat
  round : Nat
  pending : List MigPacket
  counter : Nat
  session : Nat
  key : Option (List Byte)
  job : Nat
  sentRecs : List QRec
  sentBits : List (Nat × Nat)
  applied : List (Nat × Nat)
  received : List MigPacket
  acks : List Nat
  deriving DecidableEq, Repr

structure Part where
  record : PartRec
  events : Vector (BitVec 256) 16
  hostRings : Vector Ring 16
  devRings : Vector Ring 16
  arrival : Nat
  queue : List QRec
  graphs : List GInst
  nextInst : Nat
  frbase : Word
  frctl : Word
  frtail : Nat
  frhead : Nat
  /-- Records of lost modified lines that wait for room in the fault ring (R393): physical address and DTC. -/
  lost : List (Nat × Nat)
  drainNs : Word
  dbgLast : Option BankId
  mig : Migration
  meas : List (List Byte)
  measured : List Nat
  log : List LogEntry
  deriving DecidableEq, Repr

/-! ### Cores, links, device -/

/-- The bank that a core runs (R277) and whether a debugger is attached to it (R386). -/
structure CoreState where
  running : Nat
  attached : Bool
  deriving DecidableEq, Repr

/-- The transfer whose access a flit carries: its bank, channel, identifier and address (R396). -/
structure Carried where
  bank : BankId
  ch : BitVec 3
  id : Nat
  addr : Nat
  deriving DecidableEq, Repr

/-- A Jenone link (R395, R396): the negotiated version, the next SEQ, the flits not yet acknowledged with what they carry, the
parity entries by group, the last good SEQ received, the times of its retrains, and the payloads received. -/
structure LinkState where
  version : Option (Nat × Nat)
  sendNext : Nat
  window : List (Nat × List Byte × Option Carried)
  parity : List (Nat × List Byte)
  lastGood : Nat
  retrains : List Nat
  delivered : List (List Byte)
  deriving DecidableEq, Repr

/-- A line of a core's L1 (R198): core, line number, its bytes; the pending writes among them (number, place, length) and the
releases that wrote them, which a read of the copy observes and reads from (R203). -/
structure L1Line where
  core : Nat
  line : Nat
  data : List Byte
  writes : List (Nat × Nat × Nat)
  tags : List RelTag
  deriving DecidableEq, Repr

/-- A context save in memory (R389): number, address, address space, job, cause, the cores still to be restored (rank,
virtual core id, bank state), and its digest. -/
structure Save where
  serial : Nat
  va : Nat
  part : Nat
  asid : Nat
  job : Nat
  reason : Nat
  cores : List (Nat × Nat × Bank)
  digest : List Byte
  deriving DecidableEq, Repr

/-- Boot, identity and recovery state (R367 to R371, R403). -/
structure Trust where
  deviceId : Option Nat
  meas : List (List Byte)
  slot : Option FwImage
  floor : Nat
  identityLeaf : Nat
  bootcount : Nat
  certLeaf : Option Nat
  attLeaf : Nat
  waitingImage : Bool
  recovered : Bool
  quotes : List (Nat × List Byte)
  deriving DecidableEq, Repr

/-- Power, repair and retirement (R397, R398, R405). -/
structure Health where
  level : Nat
  /-- Package power in W and hottest junction in tenths of a degree, as the sensors last read them (R406). -/
  power : Nat
  temp : Nat
  /-- Per level, the DTC value at which a trigger of it was last met. -/
  met : List (Nat × Nat)
  off : Bool
  replace : Bool
  retired : List Nat
  failures : List (Nat × Nat)
  failedCores : List Nat
  rows : List ((Nat × Nat) × Nat)
  deriving DecidableEq, Repr

/-- What leaves the device to another one (R225, R243, R356): device, offset, data written, length, an atomic's
request, and the REASON and LEVEL of a fault that is reported back. -/
structure OutMsg where
  device : Nat
  off : Nat
  write : Option (List Byte)
  len : Nat
  atomic : Option RemoteAtomic
  fault : Option (Nat × Nat)
  deriving DecidableEq, Repr

/-- A plain read or write that leaves the device. -/
def OutMsg.plain (device off : Nat) (write : Option (List Byte)) (len : Nat) : OutMsg := ⟨device, off, write, len, none, none⟩

/-- Which agent moves next. The list of turns is the model's own: it makes the interleaving of the agents and the
inputs from outside plain data. Log entry 1. -/
inductive Turn where
  /-- The stream issues its next instruction. -/
  | issue (i : StreamId)
  /-- An event of the opcode table comes about. -/
  | event (i : Instr)
  /-- Time passes. -/
  | elapse (ns : Nat)
  /-- A weak store reaches its cluster's cache (R199). -/
  | reach (id : Nat)
  /-- A core's L1 loses a line (R198). -/
  | evictL1 (core line : Nat)
  /-- A TLB loses its entry number `k` (R354). -/
  | evictTlb (k : Nat)
  /-- Stream engine `e` of a bank counts `n` conflict cycles (R80). -/
  | conflict (b : BankId) (e : BitVec 3) (n : Nat)
  /-- System software sets a ring's base and size (R301). -/
  | ringConfig (part ctx : Nat) (dev : Bool) (base qlog2 : Nat)
  /-- A participant of a running grid operation sends what it owes, works one output tile, or makes the next `n` writes of
  its tile (R134). -/
  | gridWork (b : BankId) (seq n : Nat)
  /-- A copy engine moves the next `n` words or elements of a transfer (R235, R236). -/
  | copyWork (b : BankId) (ch : BitVec 3) (id n : Nat)
  /-- The scan of a query reads a 64-byte granule of a row (R266). -/
  | attarScan (b : BankId) (qid row gran : Nat)
  /-- A link sends a flit, which may carry a transfer's access (R395, R396). -/
  | linkSend (link : Nat) (payload : List Byte) (carried : Option Carried)
  /-- The sensors read package power and hottest junction (R405, R406). -/
  | sense (power temp : Nat)
  /-- A migration's source sends again what is not acknowledged (R401). -/
  | migResend (part : Nat)
  deriving DecidableEq, Repr

structure State where
  banks : List (BankId × Bank)
  cores : List (Nat × CoreState)
  /-- Physical bytes by place: device memory at its physical address, scratchpads above it (`spadPlace`). -/
  mem : List Host.Cell
  /-- Granules of device memory whose span tag is set (R331). -/
  tags : List Nat
  pend : List PendStore
  nextStore : Nat
  released : List RelTag
  l1 : List L1Line
  /-- The home slices' directories (R197), by line. -/
  dir : List (Nat × DirLine)
  tlb : List TlbEntry
  invals : List Inval
  bad : List Nat
  hub : List HubMsg
  spindle : List SpindleMsg
  routeTags : List TagUse
  roots : List RootRec
  nextMsg : Nat
  ply : List PlyOp
  nextPly : Nat
  regions : List AttarRegion
  scans : List AttarQuery
  jobs : List Job
  parts : List (Nat × Part)
  saves : List Save
  nextSave : Nat
  schedLog : List LogEntry
  dispatchLog : List (Nat × LogEntry)
  deviceLog : List LogEntry
  dtc : Nat
  trust : Trust
  health : Health
  links : List (Nat × LinkState)
  outbox : List OutMsg
  /-- The model's own: the stream whose instruction runs. -/
  cur : StreamId
  /-- The model's own: the turns still to come (log entry 1). -/
  turns : List Turn
  /-- The model's own: the counter the free values are applied to (log entry 11). -/
  tick : Nat
  deriving DecidableEq, Repr

/-! ### What a migrating job carries (R402) -/

/-- A job as its packets of KIND 2 carry it: number, record, dies, event bits, Distaff contexts by die rank and relative number,
Attar regions, its records at their dispatch points, the tagged span-store granules by virtual address (R346), its teams with the
place of their saves in the bytes of KIND 1, and what its banks wait on elsewhere: arrivals (R300), messages held at hubs or under
way on the Spindle with the roots' records and route tags (R172), Ply operations (R236) and accepted queries (R276). Dies stand
by their ranks. -/
structure MigJob where
  id : Nat
  qrec : QRec
  evbits : List (Nat × Nat)
  distaff : List ((Nat × Nat) × Distaff)
  regions : List AttarRegion
  queue : List QRec
  tags : List Nat
  teams : List (Nat × Nat × Nat × Nat)
  bytes : Nat
  arrivals : List Arrival
  hub : List HubMsg
  spindle : List SpindleMsg
  roots : List RootRec
  routeTags : List TagUse
  ply : List PlyOp
  scans : List AttarQuery
  deriving DecidableEq, Repr

/-! ### Reset -/

def Stream.reset : Stream := ⟨0, none, .unbound, [], 0⟩
def LoopReg.reset : LoopReg := ⟨0, false, 0, 0, 0, 0, 0⟩
def SpanReg.reset : SpanReg := ⟨0, false⟩
def Tensor.reset : Tensor := ⟨0, .c, SpanReg.reset⟩
def Hank.reset : Hank := ⟨none, 0, 0, 0, [], [], []⟩
def Chan.reset : Chan := ⟨1, 0, []⟩

/-- A bank after reset. The spec gives reset values only for BFMT (R95); the other values are the model's
(DESIGN CHOICE, log entry 4), and channel identifiers are those of dispatch (R234). -/
def Bank.reset : Bank :=
  { x := Vector.replicate 64 0, cC := Vector.replicate 8 false, cG := Vector.replicate 8 false,
    lc := Vector.replicate 4 LoopReg.reset, y := Vector.replicate 16 0, t := Vector.replicate 32 Tensor.reset,
    m := Vector.replicate 8 0, b := Vector.replicate 16 SpanReg.reset, q := Vector.replicate 8 [],
    fl := Vector.replicate 16 false, flD := Vector.replicate 16 [], h := Vector.replicate 16 Hank.reset,
    chan := Vector.replicate 8 Chan.reset, held := [], fpflags := 0, roundseed := 0, spwin := 0,
    bfmt := Vector.replicate 16 0, plyDense := 0, plystat := Vector.replicate 4 0, lwait := 0, stall := 0, quantum := 0,
    conflicts := Vector.replicate 8 0, status := 0, trapcause := 0, trappc := 0, trapval := 0, trapvec := 0,
    trapaux := 0, asid := 0, queries := [], nextQuery := 1, attarReq := none, grid := [], nextGrid := 0, gridNum := 0, plyNum := 0,
    rdvC := Vector.replicate 64 0, rdvG := Vector.replicate 64 0, c := Stream.reset, g := Stream.reset, outLoads := [],
    amons := [], nextAcc := 0, observed := [], acqPending := [], relFence := [], pendTrap := none, drain := .none,
    halted := none, preemptAt := none, idleSince := 0, binding := none, image := 0, codeC := SpanReg.reset, codeG := SpanReg.reset,
    ovls := [] }

def CoreState.reset : CoreState := ⟨0, false⟩
def LinkState.reset : LinkState := ⟨none, 0, [], [], 0, [], []⟩
def Ring.reset : Ring := ⟨0, 4, 0, 0⟩

def Trust.reset : Trust :=
  { deviceId := none, meas := List.replicate 4 (List.replicate 32 0), slot := none, floor := 0, identityLeaf := 0,
    bootcount := 0, certLeaf := none, attLeaf := 0, waitingImage := false, recovered := false, quotes := [] }

def Health.reset : Health :=
  { level := 0, power := 0, temp := 0, met := [], off := false, replace := false, retired := [], failures := [],
    failedCores := [], rows := [] }

/-- The machine right after reset: MEAS0 to MEAS3 are 0 (R370), no device id is assigned (R367), every BFMT is 0 (R95),
no partition, job or translation exists, memory lists nothing. Every other value is named in log entry 4. -/
def State.reset : State :=
  { banks := [], cores := [], mem := [], tags := [], pend := [], nextStore := 0, released := [], l1 := [], dir := [], tlb := [],
    invals := [], bad := [], hub := [], spindle := [], routeTags := [], roots := [], nextMsg := 0, ply := [], nextPly := 0,
    regions := [], scans := [], jobs := [], parts := [], saves := [], nextSave := 0, schedLog := [], dispatchLog := [],
    deviceLog := [], dtc := 0, trust := Trust.reset, health := Health.reset, links := [], outbox := [],
    cur := ⟨⟨0, 0⟩, .c⟩, turns := [], tick := 0 }

end Sys2Proof.Machine
end

