-- ==== Sys2Proof/Machine/Formats.lean ====
section
/-! DEFINITION. Number formats and conversion (R81 to R109): exact values, decoding, rounding, encoding, block scales, stochastic rounding. -/
namespace Sys2Proof.Machine

/-! ### Exact values -/

/-- An exact value: NaN, a signed infinity, or (−1)^neg × mag × 2^exp. The sign of a zero is kept. -/
inductive Val where
  | nan
  | inf (neg : Bool)
  | num (neg : Bool) (mag : Nat) (exp : Int)
  deriving DecidableEq, Repr

/-- FPFLAGS bits (R110). -/
def fINX : Nat := 1
def fUNF : Nat := 2
def fOVF : Nat := 4
def fDZ : Nat := 8
def fINV : Nat := 16
def fNANLOST : Nat := 32
def fSATINT : Nat := 64

def Val.isNan : Val → Bool
  | .nan => true
  | _ => false
def Val.isInf : Val → Bool
  | .inf _ => true
  | _ => false
def Val.isZero : Val → Bool
  | .num _ 0 _ => true
  | _ => false
def Val.sign : Val → Bool
  | .nan => false
  | .inf n => n
  | .num n _ _ => n
def Val.negate : Val → Val
  | .nan => .nan
  | .inf n => .inf (!n)
  | .num n m e => .num (!n) m e
def Val.absolute : Val → Val
  | .nan => .nan
  | .inf _ => .inf false
  | .num _ m e => .num false m e

/-- The value of an integer. -/
def valOfInt (i : Int) : Val := .num (i < 0) i.natAbs 0

/-- The signed magnitude at a common exponent `e` that is at most the value's own. -/
def scaledInt (neg : Bool) (m : Nat) (e lo : Int) : Int :=
  let v : Int := m * 2 ^ (e - lo).toNat
  if neg then -v else v

/-- floor(log2(|x|)) of a nonzero value. -/
def logMag (m : Nat) (e : Int) : Int := (Nat.log2 m : Int) + e

/-- Multiplies by a power of two. -/
def Val.scale (v : Val) (k : Int) : Val :=
  match v with
  | .num n m e => .num n m (e + k)
  | v => v

/-- The exact product; 0 × ∞ is NaN (R114). -/
def Val.mulExact (a b : Val) : Val :=
  match a, b with
  | .nan, _ | _, .nan => .nan
  | .inf n, .inf p => .inf (n != p)
  | .inf n, .num p m _ => if m = 0 then .nan else .inf (n != p)
  | .num n m _, .inf p => if m = 0 then .nan else .inf (n != p)
  | .num n m e, .num p k f => .num (n != p) (m * k) (e + f)

/-- The exact sum; ∞ − ∞ is NaN. An exact zero sum of opposite signs, which `down` makes −0, is +0 otherwise; equal
signs keep theirs (R117, R183). -/
def Val.addExact (a b : Val) (down : Bool := false) : Val :=
  match a, b with
  | .nan, _ | _, .nan => .nan
  | .inf n, .inf p => if n = p then .inf n else .nan
  | .inf n, .num .. => .inf n
  | .num .., .inf p => .inf p
  | .num n m e, .num p k f =>
    let lo := min e f
    let v := scaledInt n m e lo + scaledInt p k f lo
    if v = 0 then (if m = 0 && k = 0 && n = p then .num n 0 0 else .num down 0 0) else .num (v < 0) v.natAbs lo

/-- Whether an operation made a NaN of operands none of which is NaN (INV of R110). -/
def madeNan (r : Val) (ops : List Val) : Bool := r.isNan && !ops.any Val.isNan

/-- The order of two values that are not NaN. -/
def Val.lt (a b : Val) : Bool :=
  match a, b with
  | .nan, _ | _, .nan => false
  | .inf n, .inf p => n && !p
  | .inf n, .num .. => n
  | .num .., .inf p => !p
  | .num n m e, .num p k f => let lo := min e f; scaledInt n m e lo < scaledInt p k f lo
def Val.eqv (a b : Val) : Bool := !a.isNan && !b.isNan && !a.lt b && !b.lt a

/-! ### Format codes (R96) -/

/-- A floating format: exponent bits, mantissa bits, bias, code of the largest finite value, whether it holds an
infinity, and its canonical NaN (R83, R84). -/
structure FpFmt where
  eb : Nat
  mb : Nat
  bias : Int
  maxCode : Nat
  hasInf : Bool
  nanCode : Option Nat
  deriving DecidableEq, Repr

def fpF32 : FpFmt := ⟨8, 23, 127, 0x7F7FFFFF, true, some 0x7FC00000⟩
def fpBf16 : FpFmt := ⟨8, 7, 127, 0x7F7F, true, some 0x7FC0⟩
def fpF16 : FpFmt := ⟨5, 10, 15, 0x7BFF, true, some 0x7E00⟩
def fpE4m3 : FpFmt := ⟨4, 3, 7, 0x7E, false, some 0x7F⟩
def fpE5m2 : FpFmt := ⟨5, 2, 15, 0x7B, true, some 0x7E⟩
def fpE2m3 : FpFmt := ⟨2, 3, 1, 0x1F, false, none⟩
def fpE3m2 : FpFmt := ⟨3, 2, 3, 0x1F, false, none⟩
def fpE2m1 : FpFmt := ⟨2, 1, 1, 0x7, false, none⟩

/-- What an element code of R96 is: an integer of a width, or a floating format, and e2m1 apart. -/
inductive ElemFmt where
  | int (signed : Bool) (w : Nat)
  | fp (f : FpFmt)
  /-- The integer element of mxi8, mxi6 and mxi4, with its implicit factor (R89). -/
  | mxi (w : Nat)
  deriving DecidableEq, Repr

/-- Element formats of the codes of R96 and R87; codes 0x18 to 0x1F are reserved. -/
def elemFmt (code : Nat) : ElemFmt :=
  match code with
  | 0x00 => .int true 8
  | 0x01 => .int true 16
  | 0x02 => .int true 32
  | 0x03 => .int true 64
  | 0x04 => .int false 8
  | 0x05 => .int false 16
  | 0x06 => .int false 32
  | 0x07 => .int false 64
  | 0x08 => .fp fpF32
  | 0x09 => .fp fpBf16
  | 0x0A => .fp fpF16
  | 0x0B => .fp fpE4m3
  | 0x0C => .fp fpE5m2
  | 0x0D => .fp fpE2m3
  | 0x0E => .fp fpE3m2
  | 0x0F => .fp fpE2m1
  | 0x10 => .fp fpE4m3
  | 0x11 => .fp fpE5m2
  | 0x12 => .fp fpE2m3
  | 0x13 => .fp fpE3m2
  | 0x14 => .fp fpE2m1
  | 0x15 => .mxi 8
  | 0x16 => .mxi 6
  | _ => .mxi 4

def fmtF32 : Nat := 0x08
def fmtBf16 : Nat := 0x09
def fmtF16 : Nat := 0x0A
def fmtE2m1 : Nat := 0x0F

/-- Whether a format code is a block-scaled form (R96). -/
def isMx (code : Nat) : Bool := 0x10 ≤ code && code ≤ 0x17
def isIntFmt (code : Nat) : Bool := code ≤ 0x07
def FpFmt.bits (f : FpFmt) : Nat := 1 + f.eb + f.mb

/-- Element width in bits. -/
def fmtWidth (code : Nat) : Nat :=
  match elemFmt code with
  | .int _ w => w
  | .fp f => f.bits
  | .mxi w => w

/-- emax of a block-scaled form (R87). -/
def fmtEmax (code : Nat) : Int :=
  match code with
  | 0x10 => 8
  | 0x11 => 15
  | 0x12 => 2
  | 0x13 => 4
  | 0x14 => 2
  | _ => 0

/-- The alternate code of e2m1: ALTV and ALTMODE (R91); `nanMode` is ALTMODE = NAN. -/
structure Alt where
  altv : Nat
  nanMode : Bool
  deriving DecidableEq, Repr

def Alt.none : Alt := ⟨0, false⟩

/-! ### Decoding (R82, R83, R92) -/

/-- A code of a floating format, special codes included; e2m1's 0b1000 is read by `fromFmt`. -/
def decodeFp (f : FpFmt) (code : Nat) : Val :=
  let n := f.eb + f.mb
  let neg := code / 2 ^ n % 2 = 1
  let mag := code % 2 ^ n
  let e := mag / 2 ^ f.mb
  let m := mag % 2 ^ f.mb
  if f.maxCode < mag then (if f.hasInf && mag = f.maxCode + 1 then .inf neg else .nan)
  else if e = 0 then .num neg m (1 - f.bias - f.mb)
  else .num neg (2 ^ f.mb + m) (e - f.bias - f.mb)

/-- from_fmt of an unscaled element, or of a block's element before its scale (R82, R88, R89, R92). -/
def fromFmt (code : Nat) (alt : Alt) (c : Nat) : Val :=
  match elemFmt code with
  | .int s w => valOfInt (if s then sextNat c w else (c % 2 ^ w : Nat))
  | .mxi w => (valOfInt (sextNat c w)).scale (2 - (w : Int))
  | .fp f =>
    if f = fpE2m1 ∧ c % 16 = 8 then (if alt.nanMode then .nan else decodeFp fpBf16 alt.altv) else decodeFp f c

def fromF32 (c : Nat) : Val := decodeFp fpF32 (c % 2 ^ 32)

/-! ### Rounding (R101, R102) -/

/-- Rounds x / 2^q to an integer: the result, whether it is inexact. -/
def roundAt (mode : Rnd) (rnd : Nat) (neg : Bool) (m : Nat) (e q : Int) : Int × Bool :=
  if q ≤ e then (scaledInt neg m e q, false)
  else
    let d : Nat := 2 ^ (q - e).toNat
    let x : Int := if neg then -(m : Int) else m
    let lo := x.fdiv d
    let r := (x - lo * d).toNat
    if r = 0 then (lo, false)
    else
      let up : Bool := match mode with
        | .rne => d < 2 * r || (2 * r = d && lo % 2 ≠ 0)
        | .rtz => neg
        | .rdn => false
        | .rup => true
        | .sr => rnd < r * 2 ^ 32 / d
      (if up then lo + 1 else lo, true)

/-- The result of an overflow of a finite value (R105): none is the largest finite, some is an infinity (NaN in
e4m3). -/
def overflowsUp (mode : Rnd) (neg sat : Bool) : Bool :=
  !sat && match mode with
    | .rne | .sr => true
    | .rtz => false
    | .rup => !neg
    | .rdn => neg

/-- to_fmt into a floating format with its flags (R104 to R106); `rnd` is rnd of R102. -/
def encodeFp (f : FpFmt) (mode : Rnd) (sat : Bool) (rnd : Nat) (v : Val) : Nat × Nat :=
  let signBit := fun (neg : Bool) => if neg then 2 ^ (f.eb + f.mb) else 0
  match v with
  | .nan => match f.nanCode with
    | some c => (c, 0)
    | none => (0, fNANLOST)
  | .inf neg =>
    if f.hasInf then (signBit neg + f.maxCode + 1, 0)
    else match f.nanCode with
      | some c => if sat then (signBit neg + f.maxCode, fOVF) else (c, fOVF)
      | none => (signBit neg + f.maxCode, fOVF)
  | .num neg m e =>
    if m = 0 then (signBit neg, 0)
    else
      let emin : Int := 1 - f.bias
      let q : Int := max (logMag m e) emin - f.mb
      let (n, inx) := roundAt mode rnd neg m e q
      let mag : Int := (q + f.mb + f.bias - 1) * 2 ^ f.mb + n.natAbs
      let flags := if inx then fINX else 0
      if (f.maxCode : Int) < mag then
        let fl := fOVF + fINX
        if overflowsUp mode neg sat then
          (if f.hasInf then (signBit neg + f.maxCode + 1, fl)
           else match f.nanCode with
             | some c => (c, fl)
             | none => (signBit neg + f.maxCode, fl))
        else (signBit neg + f.maxCode, fl)
      else
        let flags := if inx && mag < 2 ^ f.mb then flags + fUNF else flags
        (signBit neg + mag.toNat, flags)

/-- Whether a value equals ALTV, the sign of zero counted, and ALTV is no ordinary value (R93). -/
def altHit (alt : Alt) (v : Val) : Bool :=
  let a := decodeFp fpBf16 alt.altv
  !alt.nanMode && v.eqv a && v.sign = a.sign
    && !([0, 1, 2, 3, 4, 5, 6, 7, 9, 10, 11, 12, 13, 14, 15] : List Nat).any (fun c =>
        let o := decodeFp fpE2m1 c
        o.eqv a && (o.sign = a.sign))

/-- to_fmt into e2m1: the alternate code before any rounding (R93), and no −0 (R85). -/
def encodeE2m1 (alt : Alt) (mode : Rnd) (sat : Bool) (rnd : Nat) (v : Val) : Nat × Nat :=
  if v.isNan && alt.nanMode then (8, 0)
  else if altHit alt v then (8, 0)
  else
    let (c, fl) := encodeFp fpE2m1 mode sat rnd v
    (if c = 8 then 0 else c, fl)

/-- Ends of an integer format. -/
def intMin (s : Bool) (w : Nat) : Int := if s then -2 ^ (w - 1) else 0
def intMax (s : Bool) (w : Nat) : Int := if s then 2 ^ (w - 1) - 1 else 2 ^ w - 1
def clampInt (s : Bool) (w : Nat) (i : Int) : Int := if i < intMin s w then intMin s w else if intMax s w < i then intMax s w else i

/-- to_fmt into an integer format (R106, R107): `fromInt` says that the source is an integer. -/
def encodeInt (s : Bool) (w : Nat) (mode : Rnd) (rnd : Nat) (fromInt : Bool) (v : Val) : Int × Nat :=
  match v with
  | .nan => (0, fINV)
  | .inf neg => (if neg then intMin s w else intMax s w, fINV)
  | .num neg m e =>
    let (n, inx) := roundAt mode rnd neg m e 0
    if clampInt s w n = n then (n, if inx then fINX else 0)
    else (clampInt s w n, if fromInt then fSATINT else fINV)

/-- to_fmt (R104) into an unscaled format: the code and the flags. -/
def toFmt (code : Nat) (alt : Alt) (mode : Rnd) (sat : Bool) (rnd : Nat) (fromInt : Bool) (v : Val) : Nat × Nat :=
  match elemFmt code with
  | .int s w => let (i, fl) := encodeInt s w mode rnd fromInt v; ((i % 2 ^ w).toNat, fl)
  | .mxi _ => (0, 0)
  | .fp f => if f = fpE2m1 then encodeE2m1 alt mode sat rnd v else encodeFp f mode sat rnd v

/-- round_f32: the FP32 code and flags. -/
def roundF32 (mode : Rnd) (v : Val) : Nat × Nat := encodeFp fpF32 mode false 0 v

/-! ### Block scales (R86, R88, R108) -/

/-- An element of a block (R88). -/
def fromBlock (code : Nat) (alt : Alt) (scale c : Nat) : Val :=
  if scale % 256 = 255 then .nan else (fromFmt code alt c).scale ((scale % 256 : Nat) - 127 : Int)

/-- The largest magnitude of a block, an infinity counting as the largest FP32 value: the exponent of R108, or none
when every element is zero. -/
def blockLog (vs : List Val) : Option Int :=
  vs.foldl (fun acc v =>
    let l : Option Int := match v with
      | .nan => none
      | .inf _ => some 127
      | .num _ m e => if m = 0 then none else some (logMag m e)
    match acc, l with
    | none, l => l
    | a, none => a
    | some a, some b => some (max a b)) none

/-- One element of a block under scale exponent `x` (R108): code and flags. −Inf into an integer form gives the end
−2^(w−1) of the clamp, in every mode. DESIGN CHOICE, log entry 82. -/
def blockElem (code : Nat) (alt : Alt) (mode : Rnd) (rnd : Nat) (x : Int) (v : Val) : Nat × Nat :=
  let u := v.scale (-x)
  match elemFmt code with
  | .int .. => (0, 0)
  | .mxi w =>
    match u with
    | .nan => (0, 0)
    | .inf neg => (((if neg then intMin true w else intMax true w) % 2 ^ w).toNat, fINX + fOVF)
    | .num neg m e =>
      let (n, inx) := roundAt mode rnd neg m (e + ((w : Int) - 2)) 0
      let c := clampInt true w n
      ((c % 2 ^ w).toNat, if inx || c ≠ n then fINX else 0)
  | .fp f =>
    match u with
    | .nan => (0, 0)
    | .inf neg => (2 ^ (f.eb + f.mb) * neg.toNat + f.maxCode, fINX + fOVF)
    | u =>
      let (c, fl) := if f = fpE2m1 then encodeE2m1 ⟨alt.altv, alt.nanMode⟩ mode true rnd u else encodeFp f mode true rnd u
      (c, fl &&& (fINX + fUNF))

/-- to_mx of R108: scale code, element codes, flags. `rnds` gives rnd of each element. -/
def toMx (code : Nat) (alt : Alt) (mode : Rnd) (rnds : List Nat) (vs : List Val) : Nat × List Nat × Nat :=
  if vs.any Val.isNan then (255, vs.map (fun _ => 0), 0)
  else
    let x : Int := match blockLog vs with
      | none => 0
      | some l => l - fmtEmax code
    let x := min (max x (-127)) 127
    let rs := vs.mapIdx (fun i v => blockElem code alt mode (rnds.getD i 0) x v)
    ((x + 127).toNat, rs.map Prod.fst, rs.foldl (fun a r => a ||| r.2) 0)

/-- An element code in its own format with NaN made canonical (R84, R109). -/
def canonCode (code : Nat) (alt : Alt) (c : Nat) : Nat :=
  match elemFmt code with
  | .fp f => if (fromFmt code alt c).isNan then (if f = fpE2m1 then 8 else f.nanCode.getD c) else c
  | _ => c

/-- A whole block into its own form with the same fields (R109): scale and codes stay, NaN codes become canonical, and
no flag is raised. -/
def sameMx (code : Nat) (alt : Alt) (scale : Nat) (codes : List Nat) : Nat × List Nat × Nat :=
  if scale = 255 then (255, codes.map (fun _ => 0), 0) else (scale, codes.map (canonCode code alt), 0)

/-! ### Stochastic rounding (R103) -/

def rotl32 (v : Word32) (n : Nat) : Word32 := v.rotateLeft n

def fix32 (v : Word32) : Word32 :=
  let v := v ^^^ (v >>> 16)
  let v := v * 0x85EBCA6B
  let v := v ^^^ (v >>> 13)
  let v := v * 0xC2B2AE35
  v ^^^ (v >>> 16)

/-- rnd_of of R103 from dimension `d` on; missing coordinates are 0. -/
def rndSteps : Nat → Nat → List Nat → Word32 → Word32
  | 0, _, _, h => h
  | n + 1, d, cs, h =>
    let k : Word32 := (BitVec.ofNat 32 (cs.headD 0) + BitVec.ofNat 32 d) * 0xCC9E2D51
    let k := rotl32 k 15 * 0x1B873593
    let h := rotl32 (h ^^^ k) 13
    rndSteps n (d + 1) cs.tail (h * 5 + 0xE6546B64)

def rndOf (seed : Word) (coord : List Nat) : Nat :=
  (fix32 (rndSteps 6 0 coord (seed.setWidth 32) ^^^ (seed >>> 32).setWidth 32)).toNat

/-! ### Roots and reciprocals with one rounding -/

/-- The integer square root, bit by bit. -/
def isqrtSteps : Nat → Nat → Nat → Nat
  | 0, r, _ => r
  | n + 1, r, x => let c := r + 2 ^ n; isqrtSteps n (if c * c ≤ x then c else r) x
def isqrt (x : Nat) : Nat := isqrtSteps (Nat.log2 x / 2 + 1) 0 x

/-- A quotient num / den × 2^e cut to a value with the same roundings: enough leading bits, and a last bit that says
whether anything was cut off. -/
def stickyDiv (neg : Bool) (num den : Nat) (e : Int) : Val :=
  let k := 80 + Nat.log2 den
  let q := num * 2 ^ k / den
  .num neg (2 * q + (if num * 2 ^ k % den = 0 then 0 else 1)) (e - k - 1)

/-- 1 / x of a nonzero finite value. -/
def recipExact (neg : Bool) (m : Nat) (e : Int) : Val := stickyDiv neg 1 m (-e)

/-- √(m × 2^e), cut in the same way. -/
def sqrtExact (m : Nat) (e : Int) : Val :=
  let k : Nat := 160 + (e % 2).toNat
  let x := m * 2 ^ k
  let r := isqrt x
  .num false (2 * r + (if r * r = x then 0 else 1)) ((e - k) / 2 - 1)

/-- 1 / √(m × 2^e): the root of the cut reciprocal keeps enough bits, and its last bit is exact because the
reciprocal is cut only when the root is inexact. -/
def rsqrtExact (m : Nat) (e : Int) : Val :=
  let k : Nat := 240 + 2 * Nat.log2 m + (e % 2).toNat
  let x := 2 ^ k / m
  let r := isqrt x
  .num false (2 * r + (if r * r * m = 2 ^ k then 0 else 1)) ((-e - k) / 2 - 1)

end Sys2Proof.Machine
end

