-- ==== Sys2Proof/Machine/Memory.lean ====
section
/-! DEFINITION. Memory: cells, places, translation (R347 to R359), performed accesses, weak stores (R199), the L1 (R198), and releases and acquires (R202 to R204). -/
namespace Sys2Proof.Machine

/-! ### Cells -/

/-- What a byte that nothing has written reads as (log entry 3). -/
def unlisted : Byte := 0

/-- One byte of a canonical memory. -/
def readByte : List Host.Cell → Nat → Byte
  | [], _ => unlisted
  | (k, v) :: l, a => if k = a then v else readByte l a

/-- Writes one byte and keeps the canonical form. -/
def putByte : List Host.Cell → Nat → Byte → List Host.Cell
  | [], a, v => if v = unlisted then [] else [(a, v)]
  | (k, w) :: l, a, v =>
    if a < k then (if v = unlisted then (k, w) :: l else (a, v) :: (k, w) :: l)
    else if a = k then (if v = unlisted then l else (k, v) :: l)
    else (k, w) :: putByte l a v

/-- Writes a byte string at consecutive places. -/
def putBytes : List Host.Cell → Nat → List Byte → List Host.Cell
  | m, _, [] => m
  | m, a, v :: vs => putBytes (putByte m a v) (a + 1) vs

/-- Reads `n` bytes at consecutive places. -/
def getBytes (m : List Host.Cell) (a : Nat) : Nat → List Byte
  | 0 => []
  | n + 1 => readByte m a :: getBytes m (a + 1) n

/-- The canonical form: places strictly rising, no entry equal to what an unlisted place reads as. -/
def memWf : List Host.Cell → Bool
  | [] => true
  | (_, v) :: [] => v ≠ unlisted
  | (k, v) :: (k', v') :: l => v ≠ unlisted && k < k' && memWf ((k', v') :: l)

/-- The place number of a scratchpad byte: scratchpads stand above every physical address (log entry 5). -/
def spadPlace (core off : Nat) : Nat := 0x1000000000000 + core * 0x80000 + off

/-- The cluster of a virtual core id, die included (R11). -/
def clusterOf (core : Nat) : Nat := core / 64
/-- The die of a virtual core id (R11). -/
def dieOf (core : Nat) : Nat := core / 512
/-- The core number within the cluster (R11). -/
def coreNum (core : Nat) : Nat := core % 64

/-- Whether a place is device memory. -/
def isDevMem (place : Nat) : Bool := place < Config.devMemEnd

/-- Whether a place is scratchpad. -/
def isSpad (place : Nat) : Bool := 0x1000000000000 ≤ place

def overlap (a n b m : Nat) : Bool := a < b + m && b < a + n

/-- A trap: cause, TRAPVAL, TRAPAUX (R374). -/
structure TrapInfo where
  cause : Nat
  val : Word
  aux : Word
  deriving DecidableEq, Repr

def cSPAN_INVALID : Nat := 0x08
def cSPAN_BOUNDS : Nat := 0x09
def cSPAN_PERM : Nat := 0x0A
def cSPAN_STORE : Nat := 0x0B
def cMISALIGNED : Nat := 0x0D
def cFAULT_READ : Nat := 0x10
def cFAULT_WRITE_STRONG : Nat := 0x11
def cFAULT_WRITE_WEAK : Nat := 0x12
def cFAULT_FETCH : Nat := 0x13
def cFAULT_ENGINE : Nat := 0x14
def cMAP_OVERFLOW : Nat := 0x18
def cMAP_CANON_SPLIT : Nat := 0x19
def cFORMAT_SPLIT : Nat := 0x1A
def cSHAPE_MISMATCH : Nat := 0x1B
def cTENSOR_BOUNDS : Nat := 0x1C
def cQUEUE_DIRECTION : Nat := 0x20
def cHANK_MISUSE : Nat := 0x21
def cLOOP_STEP_ZERO : Nat := 0x22
def cATTAR_REGION : Nat := 0x28
def cPLY_ORDER : Nat := 0x29
def cECC_UNCORRECTED : Nat := 0x38
def cBREAK : Nat := 0x3E
def cTRAP : Nat := 0x3F

/-! ### Span fields (R326) -/

def sBASE (s : BitVec 256) : Nat := fieldAt s.toNat 0 64
def sLIMIT (s : BitVec 256) : Nat := fieldAt s.toNat 64 64
def sPERM (s : BitVec 256) : Nat := fieldAt s.toNat 128 8
def sSPACE (s : BitVec 256) : Nat := fieldAt s.toNat 136 3
def sFHINT (s : BitVec 256) : Nat := fieldAt s.toNat 165 5
def sCORE (s : BitVec 256) : Nat := fieldAt s.toNat 170 6
def sPART (s : BitVec 256) : Nat := fieldAt s.toNat 176 4
def sSEAL (s : BitVec 256) : Bool := fieldAt s.toNat 191 1 = 1
def sDEVID (s : BitVec 256) : Nat := fieldAt s.toNat 192 22

/-- Permissions of R327 as masks. -/
def pR : Nat := 1
def pW : Nat := 2
def pX : Nat := 4
def pA : Nat := 8
def pT : Nat := 16
def pATTAR : Nat := 32
def pSPANSTORE : Nat := 64
def pDEV : Nat := 128

/-- Whether every permission of a mask is granted. -/
def grants (s : BitVec 256) (perm : Nat) : Bool := sPERM s &&& perm = perm

/-- span_check of R18 with the records of R374: TRAPVAL the offset, TRAPAUX the span register. -/
def spanCheck (r : SpanReg) (n : Nat) (off : Int) (size perm : Nat) : Except TrapInfo Nat :=
  let tv := wordOfInt off
  if !r.valid then .error ⟨cSPAN_INVALID, tv, BitVec.ofNat 64 n⟩
  else if off < 0 ∨ (sLIMIT r.bits : Int) - sBASE r.bits < off + size then .error ⟨cSPAN_BOUNDS, tv, BitVec.ofNat 64 n⟩
  else if !grants r.bits perm then .error ⟨cSPAN_PERM, tv, BitVec.ofNat 64 n⟩
  else .ok (sBASE r.bits + off.toNat)

/-- A span of 256 bits from its fields. -/
def mkSpan (base limit perm space fhint core part : Nat) (sealed : Bool) (devid : Nat) : BitVec 256 :=
  BitVec.ofNat 256 (base % 2 ^ 64 + limit % 2 ^ 64 * 2 ^ 64 + perm * 2 ^ 128 + space * 2 ^ 136 + fhint * 2 ^ 165
    + core * 2 ^ 170 + part * 2 ^ 176 + sealed.toNat * 2 ^ 191 + devid * 2 ^ 192)

/-! ### Performed memory -/

def State.readMem (s : State) (place n : Nat) : List Byte := getBytes s.mem place n
def State.readNum (s : State) (place n : Nat) : Nat := natOfBytes (getBytes s.mem place n)

/-- Whether an uncorrectable error stands in the bytes (R393). -/
def State.eccAt (s : State) (place n : Nat) : Bool := s.bad.any (fun a => place ≤ a && a < place + n)

/-- A byte of a string seen over a base byte at place `a`. -/
def patchByte (place : Nat) (bs : List Byte) (a : Nat) (v : Byte) : Byte :=
  if place ≤ a ∧ a < place + bs.length then bs.getD (a - place) v else v

/-- Bytes at `base` with the string at `place` laid over them. -/
def patchBytes (place : Nat) (bs : List Byte) : Nat → List Byte → List Byte
  | _, [] => []
  | a, v :: vs => patchByte place bs a v :: patchBytes place bs (a + 1) vs

/-- A core's own write updates its matching L1 lines (R198). -/
def State.l1Update (s : State) (core place : Nat) (bs : List Byte) : State :=
  { s with l1 := s.l1.map (fun l => if l.core = core then { l with data := patchBytes place bs (128 * l.line) l.data } else l) }

/-- What a core's own write puts into its copies (R203): its number while it is pending, and its releases; unless it is a
read-modify-write, what stood noted there of its bytes ends. -/
def State.l1Note (s : State) (core place n : Nat) (ids : List Nat) (tags : List RelTag) (rmw : Bool) : State :=
  { s with l1 := s.l1.map (fun l =>
      if l.core = core && overlap (128 * l.line) 128 place n then
        { l with writes := l.writes.filter (fun (_, p, m) => rmw || !(place ≤ p && p + m ≤ place + n)) ++ ids.map (fun i => (i, place, n)),
                 tags := l.tags.filter (fun t => rmw || !overlap t.place t.len place n) ++ tags }
      else l) }

/-- The lines of a core's L1 that hold any of the bytes leave it (R198). -/
def State.l1Drop (s : State) (core place n : Nat) : State :=
  { s with l1 := s.l1.filter (fun l => !(l.core = core && overlap (128 * l.line) 128 place n)) }

/-! ### Directories (R197) -/

def State.dirLine (s : State) (line : Nat) : DirLine := (assocGet s.dir line).getD ⟨none, 0⟩

/-- Whether a cluster's cache, numbered in the device, is a sharer. -/
def DirLine.has (d : DirLine) (cluster : Nat) : Bool := d.sharers.getLsbD cluster

/-- The MOESI state of a line in a cluster's cache, as its directory entry has it. -/
def DirLine.moesi (d : DirLine) (cluster : Nat) : Moesi :=
  let alone := d.sharers = BitVec.ofNat 32 (2 ^ cluster)
  if d.owner = some cluster then (if alone then .m else .o)
  else if d.has cluster then (if alone then .e else .s)
  else .i

/-- A cluster's cache takes a line of device memory to read it. -/
def State.dirRead (s : State) (cluster place : Nat) : State :=
  if isDevMem place then
    let d := s.dirLine (place / 128)
    { s with dir := assocSet s.dir (place / 128) { d with sharers := d.sharers ||| BitVec.ofNat 32 (2 ^ cluster) } }
  else s

/-- A cluster's cache takes the lines of a write in state M: every other copy is invalidated (R199). -/
def State.dirWrite (s : State) (cluster place n : Nat) : State :=
  if isDevMem place then
    let m : DirLine := ⟨some cluster, BitVec.ofNat 32 (2 ^ cluster)⟩
    { s with dir := (List.range ((place + n - 1) / 128 + 1 - place / 128)).foldl (fun d i => assocSet d (place / 128 + i) m) s.dir }
  else s

/-- A cluster's cache writes a line back and lets it go. -/
def State.dirLeave (s : State) (cluster place : Nat) : State :=
  if isDevMem place then
    let d := s.dirLine (place / 128)
    let m : DirLine := ⟨if d.owner = some cluster then none else d.owner, d.sharers &&& ~~~(BitVec.ofNat 32 (2 ^ cluster))⟩
    { s with dir := assocSet s.dir (place / 128) m }
  else s

/-- A write is performed at its point of coherence: the bytes change, release tags that it overwrites end unless it is
a read-modify-write (R203), errors in the bytes are overwritten, its lines are recalled from the caches (R197), and the writing
core's L1 lines follow. -/
def State.performWrite (s : State) (core : Option Nat) (place : Nat) (bs : List Byte) (rmw : Bool) : State :=
  let s := { s with mem := putBytes s.mem place bs,
                    bad := s.bad.filter (fun a => !(place ≤ a && a < place + bs.length)),
                    dir := s.dir.filter (fun (l, _) => !overlap (128 * l) 128 place bs.length),
                    released := if rmw then s.released
                      else s.released.filter (fun t => !overlap t.place t.len place bs.length) }
  match core with
  | some c => s.l1Update c place bs
  | none => s

/-! ### Partitions and translation -/

def State.part (s : State) (p : Nat) : Option Part := assocGet s.parts p

def inRanges (r : PartRec) (a n : Nat) : Bool := r.ranges.any (fun (b, l) => b ≤ a && a + n ≤ l)

/-- A page-table entry is malformed (R349). -/
def pteMalformed (e lv : Nat) : Bool :=
  let leaf := fieldAt e 1 1 = 1
  let page := 512 ^ lv
  let align := if fieldAt e 3 1 = 1 then 16 * page else page
  fieldAt e 56 8 ≠ 0 || fieldAt e 10 2 ≠ 0 || (leaf && 3 ≤ lv) || (!leaf && lv = 0)
    || (!leaf && (fieldAt e 2 8 ≠ 0 || fieldAt e 48 8 ≠ 0)) || (leaf && fieldAt e 12 36 % align ≠ 0)
    || (fieldAt e 48 8 ≠ 0 && fieldAt e 8 2 ≠ 2)
    || (leaf && (fieldAt e 6 1 = 1 || fieldAt e 7 1 = 1) && Config.devMemEnd ≤ fieldAt e 12 36 * 4096)
    || (fieldAt e 6 1 = 1 && fieldAt e 7 1 = 1)

/-- A translation fault: REASON, LEVEL, REMOTE of R352. -/
structure XFault where
  reason : Nat
  level : Nat
  remote : Bool
  deriving DecidableEq, Repr

/-- TRAPAUX of a precise translation fault (R352). -/
def XFault.aux (f : XFault) : Word := BitVec.ofNat 64 (f.reason + f.level * 16 + f.remote.toNat * 128)

/-- What translation answers: an address with its attributes, a domain-window target, or a fault. -/
inductive Tr where
  | ok (x : Xlat) (s : State)
  | window (dev off : Nat)
  | fault (f : XFault) (s : State)

def regWindow (p : Nat) : Nat := Config.regWindowBase + Config.regWindowSize * p

/-- Physical addresses that a partition may reach (R352, R366). -/
def paAllowed (r : PartRec) (pa : Nat) : Bool :=
  inRanges r pa 1 || (regWindow r.partid ≤ pa && pa < regWindow r.partid + Config.regWindowSize)

/-- The page of a leaf at level `lv`, its run included: virtual base, size, physical base (R348, R350). -/
def leafPage (va e lv : Nat) : Nat × Nat × Nat :=
  let page := 4096 * 512 ^ lv
  let size := if fieldAt e 3 1 = 1 then 16 * page else page
  (va / size * size, size, fieldAt e 12 36 * 4096 / size * size)

/-- The levels of the walk of R352, from `lv` down: the leaf entry with its place and level, or the fault. An
uncorrectable error in an entry faults with REASON 0x1 at its level (R373). -/
def walkLevels (s : State) (r : PartRec) (va : Nat) : Nat → Nat → Except XFault (Nat × Nat × Nat)
  | 0, t =>
    let p := t + 8 * fieldAt va 12 9
    let e := s.readNum p 8
    if s.eccAt p 8 then .error ⟨1, 0, false⟩
    else if fieldAt e 0 1 = 0 then .error ⟨0, 0, false⟩ else if pteMalformed e 0 then .error ⟨1, 0, false⟩ else .ok (p, e, 0)
  | lv + 1, t =>
    let p := t + 8 * fieldAt va (12 + 9 * (lv + 1)) 9
    let e := s.readNum p 8
    if s.eccAt p 8 then .error ⟨1, lv + 1, false⟩
    else if fieldAt e 0 1 = 0 then .error ⟨0, lv + 1, false⟩
    else if pteMalformed e (lv + 1) then .error ⟨1, lv + 1, false⟩
    else if fieldAt e 1 1 = 1 then .ok (p, e, lv + 1)
    else
      let t' := fieldAt e 12 36 * 4096
      if inRanges r t' 4096 then walkLevels s r va lv t' else .error ⟨5, lv + 1, false⟩

/-- An address-space entry of R351 and whether it is valid and well formed. -/
def asEntry (r : PartRec) (asid : Nat) : Nat := r.astab + 64 * asid
def asOk (s : State) (p : Nat) : Bool :=
  let e := s.readNum p 8
  fieldAt e 0 1 = 1 && fieldAt e 1 11 = 0 && fieldAt e 48 16 = 0 && s.readNum (p + 16) 48 = 0
    && fieldAt (s.readNum (p + 8) 8) 1 23 = 0 && fieldAt (s.readNum (p + 8) 8) 48 16 = 0

/-- The bitmap word of a granule is ORed before the write is performed (R358, R359). -/
def State.orBitmap (s : State) (bmap g : Nat) : State :=
  let p := bmap * 2 ^ 24 + 8 * (g / 64)
  s.performWrite none p (bytesOf 8 (s.readNum p 8 ||| 2 ^ (g % 64))) true

def trackOf (s : State) (r : PartRec) (asid : Nat) : Option Nat :=
  let d := s.readNum (asEntry r asid + 8) 8
  if fieldAt d 0 1 = 1 then some (fieldAt d 24 24) else none

/-- The TLB holders that serve a core, nearest first (R354). -/
def holdersOf (core : Nat) : List TlbHolder := [.core core, .cluster (clusterOf core), .mem]

def TlbEntry.covers (e : TlbEntry) (part asid va : Nat) : Bool :=
  e.part = part && e.asid = asid && e.vbase ≤ va && va < e.vbase + e.size

/-- The cached translation that a core finds first. -/
def State.tlbFind (s : State) (holders : List TlbHolder) (part asid va : Nat) : Option TlbEntry :=
  match holders with
  | [] => none
  | h :: hs =>
    match s.tlb.find? (fun e => e.holder = h && e.covers part asid va) with
    | some e => some e
    | none => s.tlbFind hs part asid va

def TlbEntry.xlat (e : TlbEntry) (va : Nat) : Xlat := ⟨e.pbase + (va - e.vbase), e.smode, e.pslice, e.attar, e.spanstore⟩

/-- The piece of a page that one entry of a tracked address space caches: at most 64 KiB (R359). -/
def trackPiece (va vb size pb : Nat) : Nat × Nat × Nat :=
  if size ≤ 65536 then (vb, size, pb)
  else
    let off := (va - vb) / 65536 * 65536
    (vb + off, 65536, pb + off)

/-- Records a write to a granule for a partition. A bitmap word outside the partition's memory is not reached (R366). -/
def State.markGranule (s : State) (part bmap g : Nat) : State :=
  if ((s.part part).map (fun p => inRanges p.record (bmap * 2 ^ 24 + 8 * (g / 64)) 8)).getD false then s.orBitmap bmap g else s

/-- The dirty rule of R359 for a write that hits: the granule's bit is ORed into the bitmap when it is not known. -/
def State.dirtyNote (s : State) (holders : List TlbHolder) (e : TlbEntry) (va : Nat) : State :=
  match e.track with
  | none => s
  | some bmap =>
    let g := (e.pbase + (va - e.vbase)) / 4096
    if e.known.contains g || !isDevMem (e.pbase + (va - e.vbase)) then s
    else
      let s := s.markGranule e.part bmap g
      { s with tlb := s.tlb.map (fun t =>
          if holders.contains t.holder && t.part = e.part && t.asid = e.asid && t.vbase = e.vbase
          then { t with known := g :: t.known } else t) }

/-- The walk of R352 for the holders' partition and ASID, with its fills, AC and D updates. -/
def State.walk (s : State) (holders : List TlbHolder) (part asid va : Nat) (write : Bool) : Tr :=
  match s.part part with
  | none => .fault ⟨6, 5, false⟩ s
  | some p =>
    let r := p.record
    let as := asEntry r asid
    if !asOk s as then .fault ⟨6, 5, false⟩ s
    else
      let root := fieldAt (s.readNum as 8) 12 36 * 4096
      if !inRanges r root 4096 then .fault ⟨5, 5, false⟩ s
      else
        match walkLevels s r va 4 root with
        | .error f => .fault f s
        | .ok (place, e, lv) =>
          let (vb, size, pb) := leafPage va e lv
          let pa := pb + (va - vb)
          if fieldAt e 8 2 = 3 then .fault ⟨4, lv, false⟩ s
          else if write && fieldAt e 2 1 = 0 then .fault ⟨2, lv, false⟩ s
          else if !paAllowed r pa then .fault ⟨5, lv, false⟩ s
          else
            let e' := e ||| 16 ||| (if write then 32 else 0)
            let s := if e' = e then s else s.performWrite none place (bytesOf 8 e') true
            let track := trackOf s r asid
            let page := (vb, size)
            let (vb, size, pb) := if track.isSome then trackPiece va vb size pb else (vb, size, pb)
            let mk := fun h => (⟨h, part, asid, vb, size, pb, lv, fieldAt e 2 1 = 1, fieldAt e' 5 1 = 1, fieldAt e 8 2,
              fieldAt e 48 8, fieldAt e 6 1 = 1, fieldAt e 7 1 = 1, track, [], page⟩ : TlbEntry)
            let s := { s with tlb := (s.tlb.filter (fun t => !(holders.contains t.holder && t.covers part asid va)))
                          ++ holders.map mk }
            let s := if write then s.dirtyNote holders (mk .mem) va else s
            .ok ⟨pa, fieldAt e 8 2, fieldAt e 48 8, fieldAt e 6 1 = 1, fieldAt e 7 1 = 1⟩ s

/-- translate of R352 for an access of a core (or of the hub of its cluster), the caches included. A hit meets the range check
that its own walk would have made: caching changes no outcome (R354). -/
def State.translateFor (s : State) (holders : List TlbHolder) (part asid va : Nat) (write : Bool) : Tr :=
  let region := fieldAt va 55 2
  if region = 1 ∨ region = 3 ∨ 2 ^ 57 ≤ va then .fault ⟨3, 5, false⟩ s
  else if region = 2 then .window (fieldAt va 45 10) (fieldAt va 0 45)
  else
    match s.tlbFind holders part asid va with
    | none => s.walk holders part asid va write
    | some e =>
      if write && !e.w then .fault ⟨2, e.level, false⟩ s
      else if !((s.part part).map (fun p => paAllowed p.record (e.xlat va).pa)).getD false then .fault ⟨5, e.level, false⟩ s
      else if write && !e.dset then s.walk holders part asid va write
      else .ok (e.xlat va) (if write then s.dirtyNote holders e va else s)

def State.translate (s : State) (core part asid va : Nat) (write : Bool) : Tr :=
  s.translateFor (holdersOf core) part asid va write

/-! ### Domain window (R195, R356) -/

/-- The fault that meets every window access before a device id is assigned (R367). -/
def windowDown (s : State) : Option XFault := if s.trust.deviceId.isNone then some ⟨7, 5, false⟩ else none

/-- The partition that exports (R365). -/
def State.exporter (s : State) : Option Part := (s.parts.map Prod.snd).find? (fun p => p.record.expEn)

/-- A window access that names this device (R195) or arrives from another: translated under the export ASID of the
exporting partition. Faults are those of the target. -/
def State.exportXlat (s : State) (off : Nat) (write : Bool) : Tr :=
  match s.exporter with
  | none => .fault ⟨7, 5, false⟩ s
  | some p =>
    match s.translateFor [.mem] p.record.partid p.record.expAsid off write with
    | .fault f s => .fault { f with remote := true } s
    | t => t

/-- Device-in-domain number of this device (R11). -/
def State.ownDid (s : State) : Option Nat := s.trust.deviceId.map (· % 1024)

/-! ### Home slices (R197, R200) -/

/-- XOR of the `n`-bit pieces of a number. -/
def foldBits (n : Nat) : Nat → Nat → Nat
  | 0, _ => 0
  | k + 1, a => a % 2 ^ n ^^^ foldBits n k (a / 2 ^ n)

/-- The home slice of the line at a physical address, by slice mode and pinned slice; the reserved code 3 has none: an access
through it faults. -/
def homeSlice (smode pslice pa : Nat) : Option Nat :=
  let a := fieldAt pa 7 41
  if smode = 0 then some (foldBits 8 6 a)
  else if smode = 1 then some (64 * fieldAt pa 37 2 + (foldBits 6 6 (a % 2 ^ 36) ^^^ fieldAt a 36 5))
  else if smode = 2 then some pslice
  else none

/-! ### Writes that are not yet globally visible (R199) -/

def PendStore.meets (p : PendStore) (place n : Nat) : Bool := overlap p.place p.data.length place n

/-- The writes in the cache of a cluster, in coherence order. -/
def State.inCluster (s : State) (cluster : Nat) : List PendStore :=
  s.pend.filter (fun p => p.visible && clusterOf p.bank.core = cluster)

/-- The pending stores of a bank's own C path that have not reached its cluster's cache. -/
def State.ownStores (s : State) (b : BankId) : List PendStore :=
  s.pend.filter (fun p => !p.visible && p.path = 0 && p.bank = b)

/-- The pending writes that a bank's C path sees, in coherence order: those in its cluster's cache, then its own. -/
def State.seenBy (s : State) (b : BankId) : List PendStore := s.inCluster (clusterOf b.core) ++ s.ownStores b

/-- The writes of a bank on path B that are not performed (PLYSORT, R248). -/
def State.bankAlu (s : State) (b : BankId) : List PendStore := s.pend.filter (fun p => p.path = 3 && p.bank = b)

/-- A byte with the writes of a list laid over it. -/
def viewByte (l : List PendStore) (base : Byte) (a : Nat) : Byte :=
  l.foldl (fun v p => patchByte p.place p.data a v) base

/-- `n` performed bytes with the writes of a list laid over them. -/
def State.viewOver (s : State) (l : List PendStore) (place : Nat) : Nat → List Byte
  | 0 => []
  | n + 1 => viewByte l (readByte s.mem place) place :: s.viewOver l (place + 1) n

/-- What a bank's C path reads beyond its L1. -/
def State.viewC (s : State) (b : BankId) (place n : Nat) : List Byte := s.viewOver (s.seenBy b) place n

/-- What the engines of a cluster read: the cluster's cache over performed memory. -/
def State.viewCluster (s : State) (cluster place n : Nat) : List Byte := s.viewOver (s.inCluster cluster) place n

/-- The directory entry of a line as a home slice holds it (R197): a cluster whose cache holds a write of the line that is not yet
globally visible stands in it as well. -/
def State.dirEntry (s : State) (line : Nat) : DirLine :=
  let d := s.dirLine line
  let w := ((List.range 32).filter (fun c => (s.inCluster c).any (fun p => p.meets (128 * line) 128))).foldl (fun m c => m ||| 2 ^ c) 0
  { d with sharers := d.sharers ||| BitVec.ofNat 32 w }

/-- The entries of a reversed list that must be performed before the chosen ones, because they overlap one of them. -/
def needed : List PendStore → List PendStore → List PendStore
  | [], acc => acc
  | p :: l, acc => if acc.any (fun q => p.meets q.place q.data.length) then needed l (p :: acc) else needed l acc

/-- A held fault of path C in its place: before the faults of later stores of its stream, which may have become known
first (R215). -/
def holdInOrder (f : Held) (l : List Held) : List Held :=
  l.takeWhile (fun h => h.seq ≤ f.seq) ++ f :: l.dropWhile (fun h => h.seq ≤ f.seq)

/-- The releases of a write as it stands performed. -/
def PendStore.relTags (p : PendStore) : List RelTag := p.rel.map (fun (sc, ids) => ⟨p.place, p.data.length, p.bank.core, sc, ids⟩)

/-- Makes one pending write globally visible, or holds its fault, or the uncorrectable error it meets (R214, R233); one that is performed
at its home slice has none. Its line stands
in state M in its cluster's cache (R199), and the L1 of its core follows (R198): a store of the C stream updated it when it reached
the cluster's cache, or does so now; an engine's write invalidates its lines. -/
def State.landStore (s : State) (p : PendStore) : State :=
  let s := { s with pend := s.pend.filter (fun q => q.id ≠ p.id) }
  let ecc : Option Held := if p.path = 0 && s.eccAt p.place p.data.length then some ⟨cECC_UNCORRECTED, BitVec.ofNat 64 p.va, 0, 0⟩ else none
  match if p.home then none else p.fault.or ecc with
  | some f => { s with banks := s.banks.map (fun (k, v) => if k = p.bank then (k, { v with held := holdInOrder { f with seq := p.id } v.held }) else (k, v)) }
  | none =>
    let own := p.path = 0 && !p.visible
    let s := s.performWrite (if own then some p.bank.core else none) p.place p.data false
    let s := if p.path = 0 then (if own then s.l1Note p.bank.core p.place p.data.length [] p.relTags false else s)
      else s.l1Drop p.bank.core p.place p.data.length
    let s := if p.uncached then s else s.dirWrite (clusterOf p.bank.core) p.place p.data.length
    { s with released := s.released ++ p.relTags }

/-- Writes that are performed at their home slices come before every later write of their bytes (R205): they are made globally
visible first. -/
def State.landHome (s : State) (place n : Nat) : State := (s.pend.filter (fun p => p.home && p.meets place n)).foldl State.landStore s

/-- Performs one pending write. -/
def State.applyStore (s : State) (p : PendStore) : State :=
  (if p.home then s else s.landHome p.place p.data.length).landStore p

/-- The order in which a pending write stands: path B of its bank, or the C path as its bank sees it. -/
def State.orderOf (s : State) (p : PendStore) : List PendStore := if p.path = 3 then s.bankAlu p.bank else s.seenBy p.bank

/-- Performs pending write `id`, after every earlier overlapping one in its coherence order (R205). -/
def State.performStore (s : State) (id : Nat) : State :=
  match s.pend.find? (fun p => p.id = id) with
  | none => s
  | some p => (needed ((s.orderOf p).takeWhile (fun q => q.id ≠ id)).reverse [p]).foldl State.applyStore s

/-- A pending write is performed at its home slice, and not yet globally visible (R197, R199): earlier writes of its bytes have their
effect, and its core's L1 lines go (R198). -/
def State.homeStore (s : State) (id : Nat) : State :=
  match s.pend.find? (fun p => p.id = id) with
  | none => s
  | some p =>
    if p.home || p.fault.isSome then s
    else
      let s := (needed ((s.orderOf p).takeWhile (fun q => q.id ≠ id)).reverse [p]).dropLast.foldl State.applyStore s
      let s := (s.landHome p.place p.data.length).l1Drop p.bank.core p.place p.data.length
      { s with pend := s.pend.map (fun q => if q.id = id then { q with home := true } else q) }

/-- The writes reach their home slices. -/
def State.homeAll (s : State) (ids : List Nat) : State := ids.foldl State.homeStore s

def State.performAll (s : State) (l : List PendStore) : State := l.foldl (fun s p => s.performStore p.id) s

/-- A pending store reaches its cluster's cache: it stands after every write already there (R199), and its core's L1 follows.
Its own earlier overlapping stores reach it first. -/
def State.reachStore (s : State) (id : Nat) : State :=
  match s.pend.find? (fun p => p.id = id) with
  | none => s
  | some p =>
    if p.visible || p.uncached || p.path ≠ 0 then s
    else
      let mv := needed ((s.ownStores p.bank).takeWhile (fun q => q.id ≠ id)).reverse [p]
      let s := { s with pend := s.pend.filter (fun q => !mv.any (fun r => r.id = q.id)) ++ mv.map (fun q => { q with visible := true }) }
      mv.foldl (fun s q => (s.l1Update q.bank.core q.place q.data).l1Note q.bank.core q.place q.data.length [q.id] q.relTags false) s

/-- Performs the pending writes that a C-path access of bank `b` at the point of coherence meets at its bytes. -/
def State.settle (s : State) (b : BankId) (place n : Nat) : State :=
  (s.performAll ((s.seenBy b).filter (fun p => p.meets place n))).landHome place n

/-- The same for an access of the bank on path B. -/
def State.settleB (s : State) (b : BankId) (place n : Nat) : State := s.performAll ((s.bankAlu b).filter (fun p => p.meets place n))

/-! ### Banks -/

def State.bank (s : State) (b : BankId) : Bank := (assocGet s.banks b).getD Bank.reset
def State.setBank (s : State) (b : BankId) (k : Bank) : State := { s with banks := assocSet s.banks b k }
def Bank.part (k : Bank) : Nat := (k.binding.map (·.part)).getD 0
def State.modBank (s : State) (b : BankId) (f : Bank → Bank) : State := s.setBank b (f (s.bank b))

/-! ### Orders (R202 to R204) -/

/-- Whether a core lies in the scope instance of another (R201). -/
def inScope (sc : Scope) (a b : Nat) : Bool :=
  match sc with
  | .co => a = b
  | .cl => clusterOf a = clusterOf b
  | .di => dieOf a = dieOf b
  | .dv | .dm => true

def mutualScope (s1 s2 : Scope) (a b : Nat) : Bool := inScope s1 a b && inScope s2 a b

def union (a b : List Nat) : List Nat := a ++ b.filter (fun x => !a.contains x)

/-- The writes of a list, as bank `b` sees them, that its read observes at its bytes, its own stores apart (R203, second case). -/
def observedIn (l : List PendStore) (b : BankId) (place n : Nat) : List Nat :=
  (l.filter (fun p => (p.bank ≠ b || p.path ≠ 0) && p.meets place n)).map (fun p => p.id)
def State.observedAt (s : State) (b : BankId) (place n : Nat) : List Nat := observedIn (s.seenBy b) b place n

/-- The releases whose writes stand at some bytes under the pending writes of a list; a later write ends the tags of what it
overwrites. -/
def State.tagsOver (s : State) (l : List PendStore) (place n : Nat) : List RelTag :=
  (l.filter (fun p => p.meets place n)).foldl (fun l p => l.filter (fun t => !p.meets t.place t.len) ++ p.relTags)
    (s.released.filter (fun t => overlap t.place t.len place n))
def State.tagsAt (s : State) (b : BankId) (place n : Nat) : List RelTag := s.tagsOver (s.seenBy b) place n

/-- What the releases cover that a read at scope `sc` of a bank's stream synchronises with: those mutually in scope. -/
def coversOf (core : Nat) (sc : Scope) (l : List (Nat × Scope × List Nat)) : List Nat :=
  (l.filter (fun (c, rs, _) => mutualScope sc rs core c)).foldl (fun a (_, _, ids) => union a ids) []

/-- A release as a read keeps it: its core, its scope and what it covers. -/
def RelTag.seen (t : RelTag) : Nat × Scope × List Nat := (t.core, t.scope, t.covers)

def State.releasesAt (s : State) (b : BankId) (sc : Scope) (place n : Nat) : List Nat :=
  coversOf b.core sc ((s.tagsAt b place n).map RelTag.seen)

/-- Notes what a read observes; the releases it read from count for a later FENCE.acq (R204). -/
def State.noteSeen (s : State) (b : BankId) (ids : List Nat) (tags : List RelTag) : State :=
  s.modBank b (fun k => { k with observed := union k.observed ids, acqPending := k.acqPending ++ tags.map RelTag.seen })

def State.noteRead (s : State) (b : BankId) (place n : Nat) : State := s.noteSeen b (s.observedAt b place n) (s.tagsAt b place n)

/-- A read of the C path that does not come from the L1: an older copy of its bytes leaves the L1, so that no later read of
the path returns it (R205). -/
def State.readPast (s : State) (b : BankId) (place n : Nat) : State := (s.noteRead b place n).l1Drop b.core place n

/-- The L1 of a core is invalidated by an acquire at `.cl` or wider (R198). -/
def State.dropL1 (s : State) (core : Nat) (sc : Scope) : State :=
  if sc = .co then s else { s with l1 := s.l1.filter (fun l => l.core ≠ core) }

/-- The C stream of a bank counts writes among those it has observed; no copy in its L1 hides them (R203). -/
def State.observe (s : State) (b : BankId) (ids : List Nat) : State :=
  (s.pend.filter (fun p => ids.contains p.id)).foldl (fun s p => s.l1Drop b.core p.place p.data.length)
    (s.modBank b (fun k => { k with observed := union k.observed ids }))

/-- An acquire at scope `sc` that read from releases: what those it synchronises with cover is covered by later releases of this
stream (R203). -/
def State.acquireTags (s : State) (b : BankId) (sc : Scope) (tags : List RelTag) : State :=
  (s.observe b (coversOf b.core sc (tags.map RelTag.seen))).dropL1 b.core sc

/-- An acquire at scope `sc` that read the bytes. -/
def State.acquire (s : State) (b : BankId) (sc : Scope) (place n : Nat) : State := s.acquireTags b sc (s.tagsAt b place n)

/-- The pending writes that a release of bank `b`'s C stream covers: its own stores, and what it has observed. -/
def State.coveredBy (s : State) (b : BankId) : List Nat :=
  (s.pend.filter (fun p => (p.bank = b && p.path = 0) || (s.bank b).observed.contains p.id)).map (fun p => p.id)

/-- Makes writes visible within the instance of a scope around a core: in the cluster's cache for `.co` and `.cl`
(scratchpad writes and faults: performed), at the point of coherence for a wider scope (R203). -/
def State.showWrites (s : State) (core : Nat) (sc : Scope) (ids : List Nat) : State :=
  ids.foldl (fun s id =>
    match s.pend.find? (fun p => p.id = id) with
    | none => s
    | some p =>
      if (sc = .co || sc = .cl) && p.fault.isNone && !p.uncached && clusterOf p.bank.core = clusterOf core
      then s.reachStore id else s.performStore id) s

/-- A release at scope `sc` makes every covered write visible within its instance. -/
def State.releaseStores (s : State) (b : BankId) (sc : Scope) : State := s.showWrites b.core sc (s.coveredBy b)

/-- The releases that a write of bank `b`'s C stream carries: its own, and those of earlier FENCE.rel (R204). -/
def State.carried (s : State) (b : BankId) (rel : Option (Scope × List Nat)) : List (Scope × List Nat) :=
  rel.toList ++ (s.bank b).relFence

/-- A write joins those not yet globally visible (R199). -/
def State.queueWrite (s : State) (p : PendStore) : State :=
  { s with pend := s.pend ++ [{ p with id := s.nextStore }], nextStore := s.nextStore + 1 }

/-- Queues a store of bank `b`. -/
def State.queueStore (s : State) (b : BankId) (va place : Nat) (bs : List Byte) (uncached : Bool)
    (rel : Option (Scope × List Nat)) (fault : Option Held) : State :=
  s.queueWrite ⟨0, b, (s.bank b).part, 0, 0, va, place, bs, uncached, false, false, s.carried b rel, fault⟩

/-- The copy of a line in a core's L1. -/
def State.l1Copy (s : State) (core place : Nat) : Option L1Line := s.l1.find? (fun l => l.core = core && l.line = place / 128)

/-- A device-memory load through the L1: the line's bytes when the line is held (R198). -/
def State.l1Hit (s : State) (core place n : Nat) : Option (List Byte) :=
  match s.l1Copy core place with
  | some l => if place % 128 + n ≤ 128 then some ((l.data.drop (place % 128)).take n) else none
  | none => none

/-- The pending writes and the releases that stand in a core's copy of some bytes (R203). -/
def State.copyWrites (s : State) (core place n : Nat) : List Nat :=
  (((s.l1Copy core place).map (·.writes)).getD []).filterMap (fun (i, p, m) => if overlap p m place n then some i else none)
def State.copyTags (s : State) (core place n : Nat) : List RelTag :=
  (((s.l1Copy core place).map (·.tags)).getD []).filter (fun t => overlap t.place t.len place n)

/-- Lines that an L1 holds: 32 KiB. -/
def l1Lines : Nat := 256

/-- The copy of a line that a load takes from its cluster's cache. -/
def State.l1Take (s : State) (core line : Nat) : L1Line :=
  let l := s.inCluster (clusterOf core)
  ⟨core, line, s.viewCluster (clusterOf core) (128 * line) 128,
    (l.filter (fun p => p.meets (128 * line) 128)).map (fun p => (p.id, p.place, p.data.length)), s.tagsOver l (128 * line) 128⟩

/-- A load brings its line into the cluster's cache and the L1; a full L1 loses a line of its choice. -/
def State.l1Fill (s : State) (b : BankId) (place : Nat) : State :=
  let line := place / 128
  let own := s.l1.filter (fun l => l.core = b.core && l.line ≠ line)
  let own := if own.length < l1Lines then own else own.eraseIdx (Config.free s.tick 41 % own.length)
  { s.dirRead (clusterOf b.core) place with l1 := s.l1.filter (fun l => l.core ≠ b.core) ++ own ++ [s.l1Take b.core line] }

/-- Writes of the bank's own transfers that are performed and that its C stream need not see yet: no FENCE.P, acquire or read of
its own has ordered them before its loads, so that a weak load may have been performed before them (R208, R245). -/
def State.early (s : State) (b : BankId) (place n : Nat) : List PendStore :=
  s.pend.filter (fun p => p.home && p.path = 2 && p.bank = b && !(s.bank b).observed.contains p.id && p.meets place n)

/-- What a weak load reads that is performed before those writes. -/
def State.readEarly (s : State) (b : BankId) (place n : Nat) : List Byte × State :=
  let e := s.early b place n
  let l := (s.seenBy b).filter (fun p => !e.any (fun q => q.id = p.id))
  (s.viewOver l place n, s.noteSeen b (observedIn l b place n) (s.tagsOver l place n))

end Sys2Proof.Machine
end

