-- ==== Sys2Proof/Machine/Operands.lean ====
section
/-! DEFINITION. Operand forms: register files with their hard-wired registers (R29), queues (R279, R280), source and destination slots of both streams (R26 to R28), conditions (R57) and guards (R25). -/
namespace Sys2Proof.Machine

/-- Why an instruction does not complete: a precise trap, or a wait with its object and detail (R296). -/
inductive Stop where
  | trap (t : TrapInfo)
  | wait (tag : WaitTag) (obj detail : Nat)
  deriving DecidableEq, Repr

/-- An evaluation that may stop. -/
abbrev Ev (α : Type) := Except Stop α

def raise {α : Type} (cause : Nat) (val aux : Word) : Ev α := .error (.trap ⟨cause, val, aux⟩)

/-! ### Registers -/

/-- x0 reads 0 (R29). -/
def Bank.getX (k : Bank) (n : BitVec 6) : Word := if n = 0 then 0 else k.x[n.toNat]'(n.isLt)
/-- A write to x0 is discarded (R29). -/
def Bank.setX (k : Bank) (n : BitVec 6) (v : Word) : Bank :=
  if n = 0 then k else { k with x := k.x.set n.toNat v n.isLt }

def Bank.getY (k : Bank) (n : BitVec 4) : Word32 := k.y[n.toNat]'(n.isLt)
def Bank.setY (k : Bank) (n : BitVec 4) (v : Word32) : Bank := { k with y := k.y.set n.toNat v n.isLt }

/-- c0 reads 1 (R29). -/
def condReg (v : Vector Bool 8) (n : BitVec 3) : Bool := if n = 0 then true else v[n.toNat]'(n.isLt)
/-- A write to c0 is discarded (R29). -/
def setCondReg (c : Vector Bool 8) (n : BitVec 3) (v : Bool) : Vector Bool 8 := if n = 0 then c else c.set n.toNat v n.isLt

def Bank.setC (k : Bank) (n : BitVec 3) (v : Bool) : Bank := { k with cC := setCondReg k.cC n v }
def Bank.setCG (k : Bank) (n : BitVec 3) (v : Bool) : Bank := { k with cG := setCondReg k.cG n v }

def Bank.getB (k : Bank) (n : BitVec 4) : SpanReg := k.b[n.toNat]'(n.isLt)
def Bank.setB (k : Bank) (n : BitVec 4) (v : SpanReg) : Bank := { k with b := k.b.set n.toNat v n.isLt }
def Bank.getT (k : Bank) (n : BitVec 5) : Tensor := k.t[n.toNat]'(n.isLt)
def Bank.setT (k : Bank) (n : BitVec 5) (v : Tensor) : Bank := { k with t := k.t.set n.toNat v n.isLt }
def Bank.getM (k : Bank) (n : BitVec 3) : BitVec 512 := k.m[n.toNat]'(n.isLt)
def Bank.setM (k : Bank) (n : BitVec 3) (v : BitVec 512) : Bank := { k with m := k.m.set n.toNat v n.isLt }
def Bank.getH (k : Bank) (n : BitVec 4) : Hank := k.h[n.toNat]'(n.isLt)
def Bank.setH (k : Bank) (n : BitVec 4) (v : Hank) : Bank := { k with h := k.h.set n.toNat v n.isLt }
def Bank.getFl (k : Bank) (n : BitVec 4) : Bool := k.fl[n.toNat]'(n.isLt)
/-- Writes a flag; `d` holds the S-path writes that the flag of a GSIG.D hands over (R210). -/
def Bank.setFl (k : Bank) (n : BitVec 4) (v : Bool) (d : List Nat) : Bank :=
  { k with fl := k.fl.set n.toNat v n.isLt, flD := k.flD.set n.toNat d n.isLt }
def Bank.getChan (k : Bank) (n : BitVec 3) : Chan := k.chan[n.toNat]'(n.isLt)
def Bank.setChan (k : Bank) (n : BitVec 3) (v : Chan) : Bank := { k with chan := k.chan.set n.toNat v n.isLt }

/-! ### Queues -/

/-- R279. -/
def queueDepth (q : BitVec 3) : Nat := if q = 2 ∨ q = 3 then 64 else 16

/-- q0 to q3 are pushed by the C stream and popped by the G stream, q4 to q7 the other way round (R279). -/
def pushedBy (q : BitVec 3) : StreamKind := if q.toNat < 4 then .c else .g
def poppedBy (q : BitVec 3) : StreamKind := if q.toNat < 4 then .g else .c

def Bank.getQ (k : Bank) (q : BitVec 3) : List Word := k.q[q.toNat]'(q.isLt)
def Bank.setQ (k : Bank) (q : BitVec 3) (l : List Word) : Bank := { k with q := k.q.set q.toNat l q.isLt }

/-- A pop or peek by a stream must be of its own direction (R27). -/
def popDir (kind : StreamKind) (q : BitVec 3) : Ev Unit :=
  if poppedBy q = kind then .ok () else raise cQUEUE_DIRECTION 0 (BitVec.ofNat 64 q.toNat)
def pushDir (kind : StreamKind) (q : BitVec 3) : Ev Unit :=
  if pushedBy q = kind then .ok () else raise cQUEUE_DIRECTION 0 (BitVec.ofNat 64 q.toNat)

/-- Pops, or peeks, the head of a queue; an empty queue waits (R280). `need` is what the wait's record shows. -/
def Bank.take (k : Bank) (q : BitVec 3) (peek : Bool) (need : Nat := 1) : Ev (Word × Bank) :=
  match k.getQ q with
  | [] => .error (.wait .pop q.toNat need)
  | v :: l => .ok (v, if peek then k else k.setQ q l)

/-- Pushes an entry; a full queue waits (R280). -/
def Bank.push (k : Bank) (q : BitVec 3) (v : Word) : Ev Bank :=
  if (k.getQ q).length < queueDepth q then .ok (k.setQ q (k.getQ q ++ [v])) else .error (.wait .push q.toNat 0)

/-! ### Slots of the C stream -/

def srcDir (kind : StreamKind) : Src → Ev Unit
  | .reg _ => .ok ()
  | .queue q _ => popDir kind q

def dstDir (kind : StreamKind) : Dst → Ev Unit
  | .reg _ => .ok ()
  | .queue q => pushDir kind q

/-- Reads a C source slot; slots are read in slot order, each seeing the pops before it (R28). -/
def Bank.readSrc (k : Bank) : Src → Ev (Word × Bank)
  | .reg n => .ok (k.getX n, k)
  | .queue q peek => k.take q peek

/-- Writes a C destination slot (R27). -/
def Bank.writeDst (k : Bank) : Dst → Word → Ev Bank
  | .reg n, v => .ok (k.setX n v)
  | .queue q, v => k.push q v

/-- Direction checks of all slots come before any wait (R27). -/
def dirs (srcs : List Src) (dsts : List Dst) : Ev Unit := do
  srcs.forM (srcDir .c)
  dsts.forM (dstDir .c)

/-- One source and a destination. -/
def Bank.op1 (k : Bank) (rd : Dst) (ra : Src) (f : Word → Word) : Ev Bank := do
  dirs [ra] [rd]
  let (a, k) ← k.readSrc ra
  k.writeDst rd (f a)

/-- Two sources in slot order and a destination. -/
def Bank.op2 (k : Bank) (rd : Dst) (ra rb : Src) (f : Word → Word → Word) : Ev Bank := do
  dirs [ra, rb] [rd]
  let (a, k) ← k.readSrc ra
  let (b, k) ← k.readSrc rb
  k.writeDst rd (f a b)

/-- Two sources and a condition register. -/
def Bank.opC (k : Bank) (cd : BitVec 3) (ra rb : Src) (f : Word → Word → Bool) : Ev Bank := do
  dirs [ra, rb] []
  let (a, k) ← k.readSrc ra
  let (b, k) ← k.readSrc rb
  .ok (k.setC cd (f a b))

/-! ### Slots of the G stream -/

/-- Reads a G source slot: a queue entry gives its bits [31:0] (R29). -/
def Bank.readGSrc (k : Bank) : GSrc → Ev (Word32 × Bank)
  | .reg n => .ok (k.getY n, k)
  | .queue q peek => do
    let (v, k) ← k.take q peek
    .ok (v.setWidth 32, k)

/-- Writes a G destination slot: a pushed entry has bits [63:32] zero (R29). -/
def Bank.writeGDst (k : Bank) : GDst → Word32 → Ev Bank
  | .reg n, v => .ok (k.setY n v)
  | .queue q, v => k.push q (v.setWidth 64)

def gsrcDir : GSrc → Ev Unit
  | .reg _ => .ok ()
  | .queue q _ => popDir .g q

def gdstDir : GDst → Ev Unit
  | .reg _ => .ok ()
  | .queue q => pushDir .g q

/-! ### Conditions -/

/-- R57 under integer use, at width 64. -/
def condHolds (cc : Cond) (a b : Word) : Bool :=
  match cc with
  | .eq => a = b
  | .ne => a ≠ b
  | .lt => a.toInt < b.toInt
  | .ge => b.toInt ≤ a.toInt
  | .le => a.toInt ≤ b.toInt
  | .gt => b.toInt < a.toInt
  | .lo => a.toNat < b.toNat
  | .hs => b.toNat ≤ a.toNat
  | .ls => a.toNat ≤ b.toNat
  | .hi => b.toNat < a.toNat

/-- R57 under integer use, at width 32 (y registers, and 32-bit WAITA). -/
def condHolds32 (cc : Cond) (a b : Word32) : Bool := 
  match cc with
  | .lo | .hs | .ls | .hi => condHolds cc (a.setWidth 64) (b.setWidth 64)
  | _ => condHolds cc (a.signExtend 64) (b.signExtend 64)

/-- R25: c[GUARD] XOR GSENSE. -/
def guardHolds (c : Vector Bool 8) (g : Guard) : Bool := condReg c g.creg ^^ g.sense

/-! ### System register fields -/

def Bank.priv (k : Bank) : Bool := fieldAt k.status.toNat 0 1 = 1

end Sys2Proof.Machine
end

