-- ==== Sys2Proof/Machine/Ops.lean ====
section
/-! DEFINITION. The named operations that meanings share: accesses through a span (R217 to R220), completion and loop-back (R22, R190, R191), waits (R296), held faults (R214 to R216), taking a trap and returning from it (R374 to R384), aborting a job (R378). -/
namespace Sys2Proof.Machine

/-! ### Jobs, partitions, logs -/

def State.job (s : State) (id : Nat) : Option Job := s.jobs.find? (fun j => j.id = id)
def State.modJob (s : State) (id : Nat) (f : Job → Job) : State :=
  { s with jobs := s.jobs.map (fun j => if j.id = id then f j else j) }
def State.jobOf (s : State) (b : BankId) : Option Job := (s.bank b).binding.bind (fun c => s.job c.job)
def State.modPart (s : State) (p : Nat) (f : Part → Part) : State :=
  { s with parts := s.parts.map (fun (k, v) => if k = p then (k, f v) else (k, v)) }
def State.modCore (s : State) (c : Nat) (f : CoreState → CoreState) : State :=
  { s with cores := assocSet s.cores c (f ((assocGet s.cores c).getD CoreState.reset)) }
def State.core (s : State) (c : Nat) : CoreState := (assocGet s.cores c).getD CoreState.reset
def State.logDevice (s : State) (k : LogKind) (args : List Nat) : State := { s with deviceLog := s.deviceLog ++ [⟨k, args⟩] }
def State.logSched (s : State) (k : LogKind) (args : List Nat) : State := { s with schedLog := s.schedLog ++ [⟨k, args⟩] }
def State.logPart (s : State) (p : Nat) (k : LogKind) (args : List Nat) : State :=
  s.modPart p (fun r => { r with log := r.log ++ [⟨k, args⟩] })

/-- Free value number `i` of this step. -/
def State.free (s : State) (i : Nat) : Nat := Config.free s.tick i

/-! ### Walks that meet errors (R373) -/

/-- Where the entry stands that a walk reads at a level, from the table of level `lv`. -/
def entryPlace (s : State) (va level : Nat) : Nat → Nat → Nat
  | 0, t => t + 8 * fieldAt va 12 9
  | lv + 1, t =>
    let p := t + 8 * fieldAt va (12 + 9 * (lv + 1)) 9
    if lv + 1 = level then p else entryPlace s va level lv (fieldAt (s.readNum p 8) 12 36 * 4096)

/-- Logs the fault of a walk that met an uncorrectable error in an entry (R373). -/
def State.logWalk (s : State) (part asid va : Nat) (f : XFault) : State :=
  match s.part part with
  | none => s
  | some p =>
    let root := fieldAt (s.readNum (asEntry p.record asid) 8) 12 36 * 4096
    if f.reason = 1 ∧ !f.remote ∧ s.eccAt (entryPlace s va f.level 4 root) 8 then s.logDevice .pageTableEcc [part, asid, va, f.level] else s

/-- The same for a walk of the exporting partition's tables (R356). -/
def State.logExport (s : State) (off : Nat) (f : XFault) : State :=
  match s.exporter with
  | none => s
  | some p => s.logWalk p.record.partid p.record.expAsid off { f with remote := false }

/-- Logs the fault of an access: of its own walk, or of the export walk that it came to through its device's own window. -/
def State.logAccess (s : State) (part asid va : Nat) (f : XFault) : State :=
  if fieldAt va 55 2 = 2 then (if f.remote ∧ s.ownDid = some (fieldAt va 45 10) then s.logExport (fieldAt va 0 45) f else s)
  else s.logWalk part asid va f

/-- The fault of an address, walked again, is logged when an error in an entry caused it. -/
def State.logFault (s : State) (part asid va : Nat) : State :=
  if 2 ^ 57 ≤ va then s
  else if fieldAt va 55 2 = 2 then
    match s.exportXlat (fieldAt va 0 45) false with
    | .fault f _ => s.logAccess part asid va f
    | _ => s
  else if 2 ^ 55 ≤ va then s
  else
    match s.walk [] part asid va false with
    | .fault f _ => s.logWalk part asid va f
    | _ => s

/-! ### Span accesses of the C path -/

/-- ea of R217 with the acceptance of R218 and R220: `mem` and `spad` say which spaces the instruction accepts,
`dev` whether a DEV span may be used. The answer is the address and the span. TRAPVAL of SPAN_PERM is the offset
(R374) but for a space that is not accepted, where R218 gives the address. A span with SPANSTORE traps SPAN_STORE whatever
it grants (R218). -/
def Bank.ea (k : Bank) (m : MemRef) (perm size align : Nat) (mem spad dev : Bool) : Ev (Nat × SpanReg) :=
  let r := k.getB m.sb
  let o : Word := k.getX m.xi + (m.off.signExtend 64)
  let n := BitVec.ofNat 64 m.sb.toNat
  match spanCheck r m.sb.toNat o.toInt size perm with
  | .error t =>
    if t.cause = cSPAN_PERM ∧ sPERM r.bits &&& pSPANSTORE ≠ 0 then raise cSPAN_STORE (BitVec.ofNat 64 (sBASE r.bits) + o) 0
    else .error (.trap t)
  | .ok addr =>
    let a := BitVec.ofNat 64 addr
    let sp := sSPACE r.bits
    if sPERM r.bits &&& pSPANSTORE ≠ 0 then raise cSPAN_STORE a 0
    else if sPERM r.bits &&& pT ≠ 0 then raise cSPAN_PERM o n
    else if sPERM r.bits &&& pDEV ≠ 0 ∧ !(dev && (size = 4 || size = 8)) then raise cSPAN_PERM o n
    else if !((sp = 0 && mem) || ((sp = 1 || sp = 2) && spad)) then raise cSPAN_PERM a n
    else if addr % align ≠ 0 then raise cMISALIGNED a 0
    else .ok (addr, r)

/-- Where an access goes: a place of this device, a device register of the partition's window, or another device. -/
inductive Where where
  | place (p : Nat) (x : Option Xlat)
  | reg (off : Nat)
  | remote (dev off : Nat)
  deriving DecidableEq, Repr

/-- What the target of a window access answers in its place: a fault of its own translation with REMOTE = 1, or that it exports
nothing or cannot be reached (R356). Which, if any, is a free value: log entry 12. -/
def State.remoteFault (s : State) (dev off : Nat) (write : Bool) : Option XFault :=
  let v := s.free (15 + 16 * (off + 2 ^ 45 * dev))
  let level := v / 16 % 5
  match v % 16 with
  | 0 => some ⟨0, level, true⟩
  | 1 => some ⟨1, level, true⟩
  | 2 => if write then some ⟨2, level, true⟩ else none
  | 4 => some ⟨4, level, true⟩
  | 5 => some ⟨5, v / 16 % 6, true⟩
  | 6 => some ⟨6, 5, true⟩
  | 7 => some ⟨7, 5, false⟩
  | _ => none

/-- A place of this device that an access reaches through the domain window: the access is performed at the line's home slice,
and no cache of the requester's cluster holds it (R195, R203). -/
def Tr.looped : Tr → Tr
  | .ok x s => .ok { x with attar := true } s
  | t => t

/-- Finds where an address of a span lies: translation with the page checks of R331 and R332, the scratchpad places,
and the domain window. A translation fault traps `cause`. -/
def locate (s : State) (b : BankId) (asid : Nat) (r : SpanReg) (n addr : Nat) (write : Bool) (cause : Nat) :
    Except TrapInfo (Where × State) :=
  let k := s.bank b
  let a := BitVec.ofNat 64 addr
  let dev : Bool := decide (sPERM r.bits &&& pDEV ≠ 0)
  let perm : TrapInfo := ⟨cSPAN_PERM, BitVec.ofNat 64 (addr - sBASE r.bits), BitVec.ofNat 64 n⟩
  match sSPACE r.bits with
  | 1 => .ok (.place (spadPlace b.core addr) none, s)
  | 2 => .ok (.place (spadPlace (b.core / 64 * 64 + sCORE r.bits) addr) none, s)
  | _ =>
    if dev && !k.priv then .error perm
    else
      let fin := fun (t : Tr) => match t with
        | .fault f _ => Except.error ⟨cause, a, f.aux⟩
        | .window d o =>
          match (windowDown s).or (s.remoteFault d o write) with
          | some f => .error ⟨cause, a, f.aux⟩
          | none => .ok (.remote d o, s)
        | .ok x s =>
          if x.spanstore then .error ⟨cSPAN_STORE, a, 0⟩
          else if dev ≠ !isDevMem x.pa then .error perm
          else if dev then .ok (.reg (x.pa - regWindow k.part), s)
          else .ok (.place x.pa (some x), s)
      match s.translate b.core k.part asid addr write with
      | .window d o => if s.ownDid = some d then fin (s.exportXlat o write).looped else fin (.window d o)
      | t => fin t

/-! ### Accesses of the device by virtual address -/

/-- Where an address of an address space lies: a place of this device, through its own export where a window address names it
(R195), or another device, whose fault of the access a window address may meet (R356). -/
def State.reachVA (s : State) (hs : List TlbHolder) (part asid va : Nat) (write : Bool) : Except XFault (Where × State) :=
  let place := fun (t : Tr) => match t with
    | .ok x s => Except.ok (Where.place x.pa (some x), s)
    | .fault f _ => .error f
    | .window .. => .error ⟨7, 5, false⟩
  match s.translateFor hs part asid va write with
  | .window d o =>
    match windowDown s with
    | some f => .error f
    | none =>
      if s.ownDid = some d then place (s.exportXlat o write).looped
      else
        match s.remoteFault d o write with
        | some f => .error f
        | none => .ok (.remote d o, s)
  | t => place t

/-- Reads `n` performed bytes at a virtual address, 8 at a time, each word translated on its own; another device answers free
values. The first translation fault names its address. -/
def readVA (hs : List TlbHolder) (part asid : Nat) : Nat → State → Nat → Nat →
    Except (Nat × XFault) (List Byte × State)
  | 0, s, _, _ => .ok ([], s)
  | fuel + 1, s, va, n =>
    if n = 0 then .ok ([], s)
    else
      let len := min n (8 - va % 8)
      match s.reachVA hs part asid va false with
      | .error f => .error (va, f)
      | .ok (w, s) =>
        let (here, s) := match w with
          | .place p _ => (s.readMem p len, s)
          | .remote d o => (bytesOf len (natOfBytes (Config.freeBytes s.tick va)), { s with outbox := s.outbox ++ [.plain d o none len] })
          | .reg _ => ([], s)
        match readVA hs part asid fuel s (va + len) (n - len) with
        | .error e => .error e
        | .ok (bs, s) => .ok (here ++ bs, s)

/-- Reads performed memory at a virtual address. -/
def State.readVirt (s : State) (hs : List TlbHolder) (part asid va n : Nat) : Except (Nat × XFault) (List Byte × State) :=
  readVA hs part asid (n / 8 + 2) s va n

/-- Writes bytes at a virtual address at the point of coherence, 8 at a time; stops at the first translation fault. A page with
SPANSTORE takes no data (R331): it faults as one outside the partition, log entry 89; `spans` lets a migration write it. -/
def writeVA (spans : Bool) (hs : List TlbHolder) (part asid : Nat) : Nat → State → Nat → List Byte → Except (Nat × XFault) State
  | 0, s, _, _ => .ok s
  | fuel + 1, s, va, bs =>
    if bs = [] then .ok s
    else
      let len := min bs.length (8 - va % 8)
      match s.reachVA hs part asid va true with
      | .error f => .error (va, f)
      | .ok (.place p x, s) =>
        if (x.map (·.spanstore)).getD false && !spans then .error (va, ⟨5, 0, false⟩)
        else writeVA spans hs part asid fuel ((s.landHome p len).performWrite none p (bs.take len) false) (va + len) (bs.drop len)
      | .ok (.remote d o, s) =>
        writeVA spans hs part asid fuel { s with outbox := s.outbox ++ [.plain d o (some (bs.take len)) len] } (va + len) (bs.drop len)
      | .ok (.reg _, s) => .ok s

def State.writeVirt (s : State) (hs : List TlbHolder) (part asid va : Nat) (bs : List Byte) : Except (Nat × XFault) State :=
  writeVA false hs part asid (bs.length / 8 + 2) s va bs

/-- Writes what can be written; a walk that met an error is logged (R373). -/
def State.writeOrLog (s : State) (hs : List TlbHolder) (part asid va : Nat) (bs : List Byte) : State :=
  match s.writeVirt hs part asid va bs with
  | .ok s => s
  | .error (a, f) => s.logAccess part asid a f

/-- A read by the device that an error in a page-table entry stops is logged (R373). -/
def State.logReads (s : State) (part asid : Nat) (l : List (Nat × Nat)) : State :=
  l.foldl (fun s (va, n) =>
    match s.readVirt [.mem] part asid va n with
    | .error (a, f) => s.logAccess part asid a f
    | .ok _ => s) s

/-- An uncorrectable error in a place (R394). -/
def eccTrap (place : Nat) (addr : Nat) : TrapInfo :=
  ⟨cECC_UNCORRECTED, BitVec.ofNat 64 addr, if isSpad place then 1 else 2⟩

/-! ### Device time -/

def State.time (s : State) : Nat := s.dtc

/-! ### Held faults (R214 to R216) -/

/-- Reports the oldest held fault precisely, or goes on (R215). -/
def Bank.reportHeld (k : Bank) : Option (TrapInfo × Bank) :=
  match k.held with
  | [] => none
  | h :: l => some (⟨h.cause, h.val, h.aux⟩, { k with held := l })

def State.hold (s : State) (b : BankId) (h : Held) : State := s.modBank b (fun k => { k with held := k.held ++ [h] })

/-- TRAPAUX of a held fault (R216). -/
def heldAux (path chan id : Nat) : Word := BitVec.ofNat 64 (path + chan * 32 + id % 2 ^ 56 * 256)

/-! ### Aborting a job (R378) -/

/-- Whether every accepted transfer and return-free atomic of a bank is over. -/
def Bank.quiet (k : Bank) : Bool := k.chan.toList.all (fun c => c.xfers.all (fun x => x.finished)) && k.amons.isEmpty

def Stream.stopped (t : Stream) : Stream := { t with wait := none, run := .unbound }

/-- Writes a job's completion word as a release at `.dv`, when its address can be written (R305, R308, R378): device memory that
holds no spans (R331), here or on another device (R356). -/
def State.writeDone (s : State) (part ctx : Nat) (addr : Nat) (v : Nat) : State :=
  if addr = 0 ∨ addr % 8 ≠ 0 then s
  else
    match s.part part with
    | none => s
    | some p =>
      let asid := p.record.lcasid.getD ctx 0
      match s.reachVA [.mem] part asid addr true with
      | .ok (.place pa x, s) =>
        if !isDevMem pa || (x.map (·.spanstore)).getD false then s
        else
          let s := (s.landHome pa 8).performWrite none pa (bytesOf 8 v) false
          { s with released := s.released ++ [⟨pa, 8, 0, .dv, []⟩] }
      | .ok (.remote d o, s) => { s with outbox := s.outbox ++ [.plain d o (some (bytesOf 8 v)) 8] }
      | .ok (.reg _, s) => s
      | .error f => s.logAccess part asid addr f

/-- Whether every stream of a bound team has ended. -/
def State.teamOver (s : State) (c : Binding) : Bool :=
  s.banks.all (fun (_, k) =>
    match k.binding with
    | some q => !(q.job = c.job && q.jd = c.jd && q.jc = c.jc) || (k.c.run = .ended && k.g.run = .ended)
    | none => true)

/-- Whether a bank holds a started team that may issue: its team is not over (R386), and it neither drains nor stands halted,
trapped or failed. -/
def State.live (s : State) (b : BankId) : Bool :=
  let k := s.bank b
  match k.binding with
  | none => false
  | some c => k.drain = .none && k.halted.isNone && k.pendTrap.isNone && (k.c.run = .running || k.c.run = .ended)
      && !s.health.failedCores.contains b.core && !s.teamOver c

/-- A core whose running bank cannot issue runs its other bank when that one can (R277, R381). -/
def State.pickBank (s : State) (core : Nat) : State :=
  if s.live ⟨core, (s.core core).running⟩ then s
  else
    match [0, 1].find? (fun n => s.live ⟨core, n⟩) with
    | some n => s.modCore core (fun c => { c with running := n })
    | none => s

/-- Once the last stream of the bank's team has ended, its cores run their other banks (R386). -/
def State.endTeam (s : State) (b : BankId) : State :=
  match (s.bank b).binding with
  | none => s
  | some c =>
    if s.teamOver c then
      (s.banks.filter (fun (_, k) => k.binding.any (fun q => q.job = c.job && q.jd = c.jd && q.jc = c.jc))).foldl (fun s (q, _) => s.pickBank q.core) s
    else s

/-- Frees a bank (R310). -/
def State.freeBank (s : State) (b : BankId) : State :=
  (s.modBank b (fun k =>
    { k with binding := none, c := k.c.stopped, g := k.g.stopped, drain := .none, halted := none, preemptAt := none, pendTrap := none })).pickBank b.core

/-- Releases the banks of a job (R310, R378). -/
def State.releaseBanks (s : State) (j : Job) : State := j.banks.foldl (fun s (b, _) => s.freeBank b) s

/-- Once an aborted job's accepted transfers are over, its banks are released and the abort value is written (R378). -/
def State.finishAbort (s : State) (id : Nat) : State :=
  match s.job id with
  | none => s
  | some j =>
    match j.aborted with
    | none => s
    | some v =>
      if j.banks.all (fun (b, _) => (s.bank b).quiet) then
        let s := (s.releaseBanks j).writeDone j.part j.qrec.lrec.ctx j.qrec.lrec.doneaddr v
        { s with jobs := s.jobs.filter (fun q => q.id ≠ id) }
      else s

/-- abort_job of R378, from a stream of bank `b` with the given cause. -/
def State.abortJob (s : State) (b : BankId) (cause : Nat) : State :=
  match s.jobOf b with
  | none => s.modBank b (fun k => { k with c := k.c.stopped, g := k.g.stopped, pendTrap := none, drain := .none, grid := [] })
  | some j =>
    let k := s.bank b
    let s := { s with
      ply := s.ply.filter (fun o => o.job ≠ j.id), scans := s.scans.filter (fun q => q.job ≠ j.id),
      regions := s.regions.map (fun (r : AttarRegion) => if r.live && r.job = j.id then { r with live := false, gen := (r.gen + 1) % 65536 } else r),
      hub := s.hub.filter (fun m => m.job ≠ j.id), spindle := s.spindle.filter (fun m => m.job ≠ j.id),
      roots := s.roots.filter (fun r => r.job ≠ j.id), saves := s.saves.filter (fun v => v.job ≠ j.id), routeTags := s.routeTags.filter (fun r => r.job ≠ j.id) }
    let s := j.banks.foldl (fun s (q, _) => s.modBank q (fun k =>
      { k with c := k.c.stopped, g := k.g.stopped, pendTrap := none, drain := .none, halted := none, preemptAt := none,
               grid := [], queries := [], attarReq := none, h := k.h.map (fun (h : Hank) => { h with claims := [] }),
               chan := k.chan.map (fun (c : Chan) => { c with xfers := c.xfers.map (fun (x : Xfer) =>
                 match x.cmd with
                 | .ply _ => { x with finished := true }
                 | _ => x) }) })) s
    let v := 0xC000000000000000 + b.core * 2 ^ 48 + cause
    let s := s.modJob j.id (fun j => { j with aborted := some v, distaff := [], saved := [] })
    let s := s.logPart j.part .abort [j.qrec.lrec.recid, cause, k.trapcause.toNat, k.trappc.toNat, k.trapval.toNat, k.trapaux.toNat]
    s.finishAbort j.id

/-! ### Overlays (R343, R344) -/

def Bank.overlay (k : Bank) (kind : StreamKind) (n : Nat) : Option OvlEntry :=
  k.ovls.find? (fun o => o.kind = kind && o.num = n)

def Bank.stream (k : Bank) : StreamKind → Stream
  | .c => k.c
  | .g => k.g

def Bank.setStream (k : Bank) : StreamKind → Stream → Bank
  | .c, t => { k with c := t }
  | .g, t => { k with g := t }

/-- Where the `n` 8-byte words from a virtual address lie that the overlay loader reads, with their addresses. A translation
fault is FAULT_FETCH with its address (R344); a page with SPANSTORE traps as a load of it does (R331). The loader reads
nothing outside device memory (R332): such a word faults as one outside the partition, log entry 89. -/
def overlayPlaces (hs : List TlbHolder) (part asid : Nat) : Nat → State → Nat → Except TrapInfo (List (Nat × Where) × State)
  | 0, s, _ => .ok ([], s)
  | n + 1, s, va =>
    let fault := fun (f : XFault) => Except.error (⟨cFAULT_FETCH, BitVec.ofNat 64 va, f.aux⟩ : TrapInfo)
    match s.reachVA hs part asid va false with
    | .error f => fault f
    | .ok (w, s) =>
      let bad : Option TrapInfo := match w with
        | .place p x =>
          if (x.map (·.spanstore)).getD false then some ⟨cSPAN_STORE, BitVec.ofNat 64 va, 0⟩
          else if !isDevMem p then some ⟨cFAULT_FETCH, BitVec.ofNat 64 va, XFault.aux ⟨5, 0, false⟩⟩
          else none
        | _ => none
      match bad with
      | some t => .error t
      | none =>
        match overlayPlaces hs part asid n s (va + 8) with
        | .error t => .error t
        | .ok (l, s) => .ok ((va, w) :: l, s)

/-- The words of an overlay and the trap of the first uncorrectable error that its copy meets; `get` reads a place. -/
def State.overlayWords (s : State) (l : List (Nat × Where)) (get : Nat → List Byte) : List Nat × Option TrapInfo :=
  (l.map (fun (va, w) => match w with
      | .place p _ => natOfBytes (get p)
      | _ => natOfBytes (bytesOf 8 (natOfBytes (Config.freeBytes s.tick va)))),
   l.findSome? (fun (va, w) => match w with
      | .place p _ => if s.eccAt p 8 then some (eccTrap p va) else none
      | _ => none))

/-- Reads an overlay on path C as weak 8-byte words (R343, R344): its words, and the trap of an uncorrectable error that the
copy meets. -/
def State.fetchOverlay (s : State) (b : BankId) (o : OvlEntry) : Except TrapInfo (List Nat × Option TrapInfo × State) :=
  let k := s.bank b
  match overlayPlaces (holdersOf b.core) k.part k.asid.toNat (o.length / 8) s (k.image + o.offset) with
  | .error t => .error t
  | .ok (l, s) =>
    let (ws, ecc) := s.overlayWords l (fun p => s.viewC b p 8)
    .ok (ws, ecc, l.foldl (fun s (_, w) => match w with
      | .place p _ => s.readPast b p 8
      | .remote d o => { s with outbox := s.outbox ++ [.plain d o none 8] }
      | .reg _ => s) s)

/-- Loads an overlay into a stream's instruction memory (R343). -/
def Stream.load (t : Stream) (o : OvlEntry) (ws : List Nat) : Stream := { t with ovl := o.num, code := ws }

/-- A stream whose overlay met an uncorrectable error during its copy has an empty extent (R344). -/
def Stream.unload (t : Stream) : Stream := { t with code := [] }

/-- What the loader reads of an overlay when a bank is dispatched or restored (R341, R346): the words with the first uncorrectable
error, as OVLD would meet it; none when the bytes cannot be read. -/
def State.loaderWords (s : State) (part asid va n : Nat) : Option (List Nat × Option TrapInfo) :=
  match overlayPlaces [.mem] part asid (n / 8) s va with
  | .ok (l, s) => some (s.overlayWords l (fun p => s.readMem p 8))
  | .error _ => none

/-- A stream of a bank with what the loader has read of its overlay: an overlay that cannot be read, or that met an uncorrectable
error, leaves an empty extent, and the error is held on path C (R344, R393). -/
def Bank.loadFrom (k : Bank) (kind : StreamKind) (o : OvlEntry) : Option (List Nat × Option TrapInfo) → Bank
  | some (ws, none) => k.setStream kind ((k.stream kind).load o ws)
  | some (_, some e) =>
    { k.setStream kind (k.stream kind).unload with held := k.held ++ [⟨e.cause, e.val, e.aux, 0⟩] }
  | none => k.setStream kind (k.stream kind).unload

/-- A bank whose streams have their current overlays read again from its image (R338). -/
def Bank.reloaded (k : Bank) (s : State) (asid : Nat) : Bank :=
  ([.c, .g] : List StreamKind).foldl (fun k kind =>
    match k.overlay kind (k.stream kind).ovl with
    | some o => k.loadFrom kind o (s.loaderWords k.part asid (k.image + o.offset) o.length)
    | none => k.setStream kind (k.stream kind).unload) k

/-! ### Trap delivery (R376) -/

def stPRIV (v : Word) : Nat := fieldAt v.toNat 0 1
def stPPRIV (v : Word) : Nat := fieldAt v.toNat 1 1
def stINTRAP (v : Word) : Nat := fieldAt v.toNat 2 1
def stPOVL (v : Word) : Nat := fieldAt v.toNat 8 8
def mkStatus (priv ppriv intrap povl : Nat) : Word := BitVec.ofNat 64 (priv + 2 * ppriv + 4 * intrap + 256 * povl)

def tvEN (v : Word) : Bool := fieldAt v.toNat 63 1 = 1
def tvPH (v : Word) : Bool := fieldAt v.toNat 62 1 = 1
def tvOVL (v : Word) : Nat := fieldAt v.toNat 48 8
def tvPC (v : Word) : Nat := fieldAt v.toNat 0 16

/-- The trap registers of a delivery (R377, R384). -/
def Bank.setTrapRegs (k : Bank) (t : TrapInfo) (pc : Word) : Bank :=
  { k with trapcause := BitVec.ofNat 64 t.cause, trappc := pc, trapval := t.val, trapaux := t.aux }

/-- STATUS and, for an unprivileged handler, x60 to x63 (R376). -/
def Bank.enterHandler (k : Bank) (t : TrapInfo) (pc : Word) : Bank :=
  let ovl := k.c.ovl
  let priv := stPRIV k.status
  let ph := tvPH k.trapvec
  let status := mkStatus (if ph then 1 else priv) priv (if ph then 1 else stINTRAP k.status) ovl
  let k := { k with status := status }
  if stPRIV status = 0 then
    (((k.setX 60 (BitVec.ofNat 64 (t.cause + 256 * ovl))).setX 61 pc).setX 62 t.val).setX 63 t.aux
  else k

/-- deliver(cause, pc, val, aux) of R376: taking an exception. An error under the copy of the handler's overlay leaves the stream at
the handler's PC with an empty extent, and is the next trap (R344): inside a privileged handler it aborts the job, and an
unprivileged one gets its record (log entry 90). -/
def State.deliver (s : State) (b : BankId) (t : TrapInfo) (pc : Word) : State :=
  let s := s.modBank b (fun k => { k.setTrapRegs t pc with c := { k.c with wait := none } })
  let k := s.bank b
  if !tvEN k.trapvec ∨ stINTRAP k.status = 1 then s.abortJob b t.cause
  else
    let old := k.c.ovl
    let k := k.enterHandler t pc
    let target := BitVec.ofNat 64 (tvPC k.trapvec)
    if tvOVL k.trapvec = old then s.setBank b { k with c := { k.c with pc := target } }
    else
      match k.overlay .c (tvOVL k.trapvec) with
      | none => s.abortJob b cFETCH_BOUNDS
      | some o =>
        match (s.setBank b k).fetchOverlay b o with
        | .error t => s.abortJob b t.cause
        | .ok (_, some e, s) =>
          let s := s.modBank b (fun k => { k.setTrapRegs e target with c := { k.c.unload with pc := target } })
          if stINTRAP k.status = 1 then s.abortJob b e.cause else s.modBank b (fun k => k.enterHandler e target)
        | .ok (ws, none, s) => s.modBank b (fun k => { k with c := { k.c.load o ws with pc := target } })

/-- The route of a cause in R374: the partition's ring, or the handler. -/
def ringRoute (cause : Nat) : Bool :=
  cause = cFAULT_READ || cause = cFAULT_WRITE_STRONG || cause = cFAULT_FETCH || cause = cFAULT_WRITE_WEAK
    || cause = cFAULT_ENGINE

/-- A precise translation fault that an error in a page-table entry caused is logged (R373). -/
def State.logTrap (s : State) (b : BankId) (t : TrapInfo) : State :=
  if ringRoute t.cause ∧ fieldAt t.aux.toNat 0 4 = 1 then s.logFault (s.bank b).part (s.bank b).asid.toNat t.val.toNat else s

/-- A trap of the C stream of bank `b`: a ring trap waits for its record (R380), or counts as answered DELIVER at once
when FRCTL.EN = 0; every other trap is delivered. `held` marks a held fault. -/
def State.trapC (s : State) (b : BankId) (t : TrapInfo) (pc : Word) (held : Bool) : State :=
  let s := if held then s else s.logTrap b t
  if ringRoute t.cause then
    match s.part (s.bank b).part with
    | some p =>
      if fieldAt p.frctl.toNat 63 1 = 1 then
        s.modBank b (fun k => { k with
          c := { k.c with wait := none },
          pendTrap := some ⟨t.cause, pc, t.val, t.aux, s.dtc, none, held, none, none⟩, drain := .fault })
      else s.deliver b t pc
    | none => s.deliver b t pc
  else s.deliver b t pc

/-! ### Completion (R22, R190, R191) -/

/-- The active loops of a bank ending at `npc`: the index of the latest (R190). -/
def latestLoop (lc : Vector LoopReg 4) (npc : Word) : Option (Fin 4) :=
  ([0, 1, 2, 3] : List (Fin 4)).foldl (fun (best : Option (Fin 4)) (i : Fin 4) =>
    let l := lc[i]
    if l.active && l.stop = npc then
      match best with
      | none => some i
      | some j => if lc[j].order < l.order then some i else some j
    else best) none

def deactivate (l : LoopReg) : LoopReg := { l with active := false, order := 0 }

/-- The while loop of R190; each round deactivates a loop, so four rounds and one more are all there can be. -/
def loopBack (fuel : Nat) (lc : Vector LoopReg 4) (npc : Word) : Vector LoopReg 4 × Word :=
  match fuel with
  | 0 => (lc, npc)
  | fuel + 1 =>
    match latestLoop lc npc with
    | none => (lc, npc)
    | some i =>
      let l := lc[i]
      let lc := lc.map (fun q => if q.active && l.order < q.order then deactivate q else q)
      if 1 < l.rem then
        (lc.set i { l with rem := l.rem - 1, lc := l.lc + BitVec.ofInt 32 l.step }, l.start)
      else loopBack fuel (lc.set i (deactivate l)) npc

/-- Fall-through of the C stream to `npc` (R190). -/
def Bank.fallC (k : Bank) (npc : Word) : Bank :=
  let (lc, pc) := loopBack 5 k.lc npc
  { k with lc := lc, c := { k.c with pc := pc, wait := none } }

/-- R191: a transfer deactivates the loops that do not contain the target, and every loop later than one of them. -/
def leaveLoops (lc : Vector LoopReg 4) (target : Word) : Vector LoopReg 4 :=
  let out := lc.toList.filter (fun l => l.active && !(l.start.toNat ≤ target.toNat && target.toNat < l.stop.toNat))
  lc.map (fun l => if l.active && out.any (fun o => o.order ≤ l.order) then deactivate l else l)

/-- What a meaning answers. -/
inductive Res where
  /-- Completes and falls through. -/
  | done (s : State)
  /-- Completes with the PC already set. -/
  | jumped (s : State)
  /-- Does not complete: the stream waits at it. -/
  | wait (s : State) (tag : WaitTag) (obj detail : Nat) (vals : List Word)
  /-- A precise trap of the instruction. -/
  | trap (s : State) (t : TrapInfo)
  /-- A held fault reported at the instruction (R215). -/
  | heldTrap (s : State) (t : TrapInfo)

/-- The wait record of a stream: one that goes on keeps its start (R324). -/
def Stream.waiting (t : Stream) (now : Nat) (tag : WaitTag) (obj detail : Nat) (vals : List Word) : Stream :=
  match t.wait with
  | some w => if w.tag = tag then { t with wait := some ⟨tag, obj, detail, vals, w.since⟩ }
              else { t with wait := some ⟨tag, obj, detail, vals, now⟩ }
  | none => { t with wait := some ⟨tag, obj, detail, vals, now⟩ }

abbrev Out := Host.Outcome State Fault Refusal

/-- Ends an instruction of `len` words of the C stream of bank `b`. -/
def finishC (b : BankId) (len : Nat) (pc : Word) : Res → State
  | .done s => s.modBank b (fun k => k.fallC (pc + BitVec.ofNat 64 (8 * len)))
  | .jumped s => s.modBank b (fun k => { k with c := { k.c with wait := none } })
  | .wait s tag obj detail vals => s.modBank b (fun k => { k with c := k.c.waiting s.dtc tag obj detail vals })
  | .trap s t => s.trapC b t pc false
  | .heldTrap s t => s.trapC b t pc true

/-- Runs a C-stream instruction under its guard (R25): when the guard fails it falls through with no effect. -/
def runC (g : Guard) (len : Nat) (f : State → BankId → Res) (s : State) : Out :=
  let b := s.cur.bank
  let k := s.bank b
  .next (finishC b len k.c.pc (if guardHolds k.cC g then f s b else .done s))

/-- Ends an instruction of the G stream: a trap aborts its job (R376). -/
def finishG (b : BankId) (len : Nat) (pc : Word) : Res → State
  | .done s => s.modBank b (fun k => { k with g := { k.g with pc := pc + BitVec.ofNat 64 (8 * len), wait := none } })
  | .jumped s => s.modBank b (fun k => { k with g := { k.g with wait := none } })
  | .wait s tag obj detail vals => s.modBank b (fun k => { k with g := k.g.waiting s.dtc tag obj detail vals })
  | .trap s t | .heldTrap s t => (s.modBank b (fun k => k.setTrapRegs t pc)).abortJob b t.cause

def runG (g : Guard) (len : Nat) (f : State → BankId → Res) (s : State) : Out :=
  let b := s.cur.bank
  let k := s.bank b
  .next (finishG b len k.g.pc (if guardHolds k.cG g then f s b else .done s))

/-- A meaning that acts on the bank alone. -/
def ofBank (f : Bank → Ev Bank) (s : State) (b : BankId) : Res :=
  match f (s.bank b) with
  | .ok k => .done (s.setBank b k)
  | .error (.trap t) => .trap s t
  | .error (.wait tag obj detail) => .wait s tag obj detail []

def pureC (g : Guard) (len : Nat) (f : Bank → Ev Bank) : State → Out := runC g len (ofBank f)
def pureG (g : Guard) (len : Nat) (f : Bank → Ev Bank) : State → Out := runG g len (ofBank f)

/-- A stopped evaluation as an answer. -/
def Stop.res (s : State) : Stop → Res
  | .trap t => .trap s t
  | .wait tag obj detail => .wait s tag obj detail []

/-- Continues with the value of an evaluation, or answers its stop. -/
def Ev.andThen {α : Type} (e : Ev α) (s : State) (f : α → Res) : Res :=
  match e with
  | .ok a => f a
  | .error st => st.res s

/-- A transfer that takes place; `leave` says whether loops are left (R191). -/
def goTo (s : State) (b : BankId) (target : Word) (leave : Bool) (k : Bank → Bank) : Res :=
  .jumped (s.modBank b (fun q =>
    let q := k q
    { q with lc := if leave then leaveLoops q.lc target else q.lc, c := { q.c with pc := target } }))

/-- A transfer to a register target: misaligned targets trap and do not transfer (R22, R187). -/
def transferTo (s : State) (b : BankId) (target : Word) (leave : Bool) (k : Bank → Bank) : Res :=
  if target.toNat % 8 ≠ 0 then .trap s ⟨cMISALIGNED, target, 0⟩ else goTo s b target leave k

/-- Return from a trap (ERET of R384): the PC, PRIV and INTRAP come back, and overlay POVL is loaded when it is not
current. -/
def State.trapReturn (s : State) (b : BankId) : Res :=
  let k := s.bank b
  let status := mkStatus (stPPRIV k.status) (stPPRIV k.status) 0 (stPOVL k.status)
  if k.trappc.toNat % 8 ≠ 0 then .trap s ⟨cMISALIGNED, k.trappc, 0⟩
  else
    let back := fun (k : Bank) => { k with status := status, c := { k.c with pc := k.trappc } }
    if stPOVL k.status = k.c.ovl then .jumped (s.setBank b (back k))
    else
      match k.overlay .c (stPOVL k.status) with
      | none => .trap s ⟨cFETCH_BOUNDS, BitVec.ofNat 64 (stPOVL k.status), 1⟩
      | some o =>
        match s.fetchOverlay b o with
        | .error t => .trap s t
        | .ok (_, some t, s) => .trap (s.modBank b (fun k => { k with c := k.c.unload })) t
        | .ok (ws, none, s) =>
          .jumped (s.modBank b (fun k =>
            let k := back k
            { k with c := k.c.load o ws }))

/-! ### Releases of the C path -/

/-- What every release of the C stream does before it takes effect (R203, R215): outstanding loads end first, covered
writes become visible at the scope, and a held fault is reported. -/
def releaseC (s : State) (b : BankId) (sc : Scope) (f : State → List Nat → Res) : Res :=
  let k := s.bank b
  if k.outLoads ≠ [] then .wait s .loads 1 0 []
  else if k.amons.any (fun a => a.path = 0) then .wait s .access 1 0 []
  else
    let ids := s.coveredBy b
    let s := s.releaseStores b sc
    match (s.bank b).reportHeld with
    | some (t, k) => .heldTrap (s.setBank b k) t
    | none => f s ids

/-! ### Byte strings -/

/-- A little-endian field of a byte string. -/
def leField (bs : List Byte) (off n : Nat) : Nat := natOfBytes ((bs.drop off).take n)

/-- Cuts a list into chunks of `k`, the last one shorter (R133). -/
def chunksOf {α : Type} (k : Nat) : Nat → List α → List (List α)
  | 0, _ => []
  | fuel + 1, l => if l.length ≤ k then [l] else l.take k :: chunksOf k fuel (l.drop k)

/-! ### Memory behind an address space -/

/-- A reader of the memory behind an address space, through the memory-resident TLB. -/
def State.imageReader (s : State) (part asid : Nat) (va n : Nat) : Option (List Byte) :=
  match s.readVirt [.mem] part asid va n with
  | .ok (bs, _) => some bs
  | .error _ => none

def State.imageTr (s : State) (part asid : Nat) (va : Nat) : Option (Nat × Bool) :=
  match s.reachVA [.mem] part asid va false with
  | .ok (.place p x, _) => some (p, (x.map (·.attar)).getD false)
  | _ => none

end Sys2Proof.Machine
end

