-- ==== Sys2Proof/Machine/Flags.lean ====
section
/-! DEFINITION. FP32 operations with the flags each raises (R110, R122, R123, R183 to R185), and the OR into FPFLAGS (R111). An FP32 value is its code; a result is a code with flags. -/
namespace Sys2Proof.Machine

/-- The flags are sticky: the device only sets them (R110). -/
def Bank.orFlags (k : Bank) (fl : Nat) : Bank := { k with fpflags := k.fpflags ||| BitVec.ofNat 64 fl }

def cNaN : Nat := 0x7FC00000

/-- INV for a NaN made of operands that are not NaN. -/
def invFlag (r : Val) (ops : List Val) : Nat := if madeNan r ops then fINV else 0

/-- A sum rounded once (R183, R117). -/
def fAdd (mode : Rnd) (a b : Nat) : Nat × Nat :=
  let x := fromF32 a
  let y := fromF32 b
  let v := x.addExact y (mode = .rdn)
  let (c, fl) := roundF32 mode v
  (c, fl ||| invFlag v [x, y])

def fSub (mode : Rnd) (a b : Nat) : Nat × Nat :=
  let x := fromF32 a
  let y := (fromF32 b).negate
  let v := x.addExact y (mode = .rdn)
  let (c, fl) := roundF32 mode v
  (c, fl ||| invFlag v [x, y])

def fMul (mode : Rnd) (a b : Nat) : Nat × Nat :=
  let x := fromF32 a
  let y := fromF32 b
  let v := x.mulExact y
  let (c, fl) := roundF32 mode v
  (c, fl ||| invFlag v [x, y])

/-- a × b + c with one rounding; 0 × ∞ + c is INV even when c is NaN (R183). -/
def fFma (mode : Rnd) (a b c : Nat) : Nat × Nat :=
  let x := fromF32 a
  let y := fromF32 b
  let z := fromF32 c
  let p := x.mulExact y
  let v := p.addExact z (mode = .rdn)
  let (r, fl) := roundF32 mode v
  (r, fl ||| invFlag p [x, y] ||| invFlag v [p, z])

/-- max and min of R122. -/
def f32Max (a b : Nat) : Nat :=
  let x := fromF32 a
  let y := fromF32 b
  if x.isNan || y.isNan then cNaN else if x.lt y then b else if y.lt x then a else if x.sign then b else a
def f32Min (a b : Nat) : Nat :=
  let x := fromF32 a
  let y := fromF32 b
  if x.isNan || y.isNan then cNaN else if x.lt y then a else if y.lt x then b else if x.sign then a else b

/-- Floating atomics: no flag (R224). -/
def f32AddRne (a b : Nat) : Nat := (fAdd .rne a b).1
def bf16AddRne (a b : Nat) : Nat :=
  (encodeFp fpBf16 .rne false 0 ((decodeFp fpBf16 (a % 65536)).addExact (decodeFp fpBf16 (b % 65536)))).1

/-- R57 under FCMP use. -/
def fcondHolds (cc : FCond) (a b : Nat) : Bool :=
  let x := fromF32 a
  let y := fromF32 b
  let nan := x.isNan || y.isNan
  match cc with
  | .eq => x.eqv y
  | .ne => !x.eqv y
  | .lt => x.lt y
  | .ge => !nan && !x.lt y
  | .le => !nan && !y.lt x
  | .gt => y.lt x
  | .un => nan
  | .ord => !nan

/-! ### FCVT (R185) -/

/-- Into an integer of width `w`: the 64-bit register value. -/
def cvtToInt (s : Bool) (w : Nat) (mode : Rnd) (a : Word) : Word × Nat :=
  let (i, fl) := encodeInt s w mode 0 false (fromF32 a.toNat)
  (wordOfInt i, fl)

def cvtFromInt (i : Int) (mode : Rnd) : Word × Nat :=
  let (c, fl) := roundF32 mode (valOfInt i)
  (BitVec.ofNat 64 c, fl)

def cvtToFp (f : FpFmt) (mode : Rnd) (a : Word) : Word × Nat :=
  let (c, fl) := encodeFp f mode false 0 (fromF32 a.toNat)
  (BitVec.ofNat 64 c, fl)

def cvtFromFp (f : FpFmt) (a : Word) : Word × Nat :=
  let (c, fl) := roundF32 .rne (decodeFp f (a.toNat % 65536))
  (BitVec.ofNat 64 c, fl)

def fcvtValue (p : FcvtPair) (mode : Rnd) (a : Word) : Word × Nat :=
  match p with
  | .toS32 => cvtToInt true 32 mode a
  | .toN32 => cvtToInt false 32 mode a
  | .toS64 => cvtToInt true 64 mode a
  | .toN64 => cvtToInt false 64 mode a
  | .fromS32 => cvtFromInt (sextNat a.toNat 32) mode
  | .fromN32 => cvtFromInt (a.toNat % 2 ^ 32 : Nat) mode
  | .fromS64 => cvtFromInt a.toInt mode
  | .fromN64 => cvtFromInt a.toNat mode
  | .toBf16 => cvtToFp fpBf16 mode a
  | .fromBf16 => cvtFromFp fpBf16 a
  | .toF16 => cvtToFp fpF16 mode a
  | .fromF16 => cvtFromFp fpF16 a

/-! ### Elementwise functions (R122, R123) -/

/-- exp2 of R123. The exponent is cut to ±200, beyond which the result is already infinite or zero. -/
def fExp2 (a : Nat) : Nat × Nat :=
  match fromF32 a with
  | .nan => (cNaN, 0)
  | .inf neg => (if neg then 0 else 0x7F800000, 0)
  | .num neg m e =>
    let (n, cut) := roundAt .rdn 0 neg m e 0
    let f : Val := if cut then (Val.num neg m e).addExact (valOfInt (-n)) else .num false 0 0
    let mulR := fun (p : Nat) => (roundF32 .rne ((fromF32 p).mulExact f)).1
    let p := f32AddRne (mulR 0x3DA0DED2) 0x3E67B3D2
    let p := f32AddRne (mulR p) 0x3F31F758
    let p := f32AddRne (mulR p) 0x3F800000
    roundF32 .rne ((fromF32 p).scale (min (max n (-200)) 200))

/-- recip, sqrt and rsqrt: correctly rounded (R122). -/
def fRecip (a : Nat) : Nat × Nat :=
  match fromF32 a with
  | .nan => (cNaN, 0)
  | .inf neg => (if neg then 0x80000000 else 0, 0)
  | .num neg m e => if m = 0 then (if neg then 0xFF800000 else 0x7F800000, fDZ) else roundF32 .rne (recipExact neg m e)

def fSqrt (a : Nat) : Nat × Nat :=
  match fromF32 a with
  | .nan => (cNaN, 0)
  | .inf neg => if neg then (cNaN, fINV) else (0x7F800000, 0)
  | .num neg m e =>
    if m = 0 then (if neg then 0x80000000 else 0, 0)
    else if neg then (cNaN, fINV)
    else roundF32 .rne (sqrtExact m e)

def fRsqrt (a : Nat) : Nat × Nat :=
  match fromF32 a with
  | .nan => (cNaN, 0)
  | .inf neg => if neg then (cNaN, fINV) else (0, 0)
  | .num neg m e =>
    if m = 0 then (if neg then 0xFF800000 else 0x7F800000, fDZ)
    else if neg then (cNaN, fINV)
    else roundF32 .rne (rsqrtExact m e)

def fExp (a : Nat) : Nat × Nat :=
  let (t, fl) := fMul .rne a 0x3FB8AA3B
  let (r, fl2) := fExp2 t
  (r, fl ||| fl2)

/-- cvt of R122 and R161 into the element format of an output of format `ofmt`, and back; the flags are those of the
conversion there. -/
def fCvtElem (ofmt : Nat) (a : Nat) : Nat × Nat :=
  let x := fromF32 a
  match elemFmt ofmt with
  | .mxi w =>
    match x with
    | .nan => (0, fNANLOST)
    | .inf neg =>
      ((roundF32 .rne ((valOfInt (if neg then intMin true w else intMax true w)).scale (2 - (w : Int)))).1, fOVF)
    | .num neg m e =>
      let (n, inx) := roundAt .rne 0 neg m (e + ((w : Int) - 2)) 0
      let c := clampInt true w n
      ((roundF32 .rne ((valOfInt c).scale (2 - (w : Int)))).1, if c ≠ n then fOVF + fINX else if inx then fINX else 0)
  | _ =>
    let ef := if isMx ofmt then
        (match ofmt with
          | 0x10 => 0x0B
          | 0x11 => 0x0C
          | 0x12 => 0x0D
          | 0x13 => 0x0E
          | _ => fmtE2m1) else ofmt
    let (c, fl) := toFmt ef ⟨0, true⟩ .rne true 0 false x
    ((roundF32 .rne (fromFmt ef ⟨0, true⟩ c)).1, fl)

/-- An FN node (R160). -/
def fnValue (fn : NodeFn) (ofmt : Nat) (a : Nat) : Nat × Nat :=
  let x := fromF32 a
  match fn with
  | .neg => if x.isNan then (cNaN, 0) else (a ^^^ 0x80000000, 0)
  | .abs => if x.isNan then (cNaN, 0) else (a % 0x80000000, 0)
  | .recip => fRecip a
  | .sqrt => fSqrt a
  | .rsqrt => fRsqrt a
  | .exp2 => fExp2 a
  | .exp => fExp a
  | .cvt => fCvtElem ofmt a

/-- A BF16 constant as FP32 (R161). -/
def bf16ToF32 (c : Nat) : Nat := (roundF32 .rne (decodeFp fpBf16 c)).1

/-- The inputs of an EWR node program: the element values of A, B and C, X, K0, K1 and the output's element format. -/
structure EwrIn where
  a : Val
  b : Val
  c : Val
  x : Nat
  k0 : Nat
  k1 : Nat
  fn : NodeFn
  ofmt : Nat
  deriving DecidableEq, Repr

/-- One node over the value stack, top first, with the flags so far (R161). A program that decoding accepts never
finds too few values (R162). -/
def ewrNode (i : EwrIn) (st : List Nat × Nat) (n : Node) : List Nat × Nat :=
  let push := fun (r : Nat × Nat) (l : List Nat) => (r.1 :: l, st.2 ||| r.2)
  match n, st.1 with
  | .a, l => push (roundF32 .rne i.a) l
  | .b, l => push (roundF32 .rne i.b) l
  | .c, l => push (roundF32 .rne i.c) l
  | .k0, l => push (bf16ToF32 i.k0, 0) l
  | .k1, l => push (bf16ToF32 i.k1, 0) l
  | .x, l => push (i.x, 0) l
  | .add, b :: a :: l => push (fAdd .rne a b) l
  | .sub, b :: a :: l => push (fSub .rne a b) l
  | .mul, b :: a :: l => push (fMul .rne a b) l
  | .fma, c :: b :: a :: l => push (fFma .rne a b c) l
  | .max, b :: a :: l => push (f32Max a b, 0) l
  | .min, b :: a :: l => push (f32Min a b, 0) l
  | .fn, a :: l => push (fnValue i.fn i.ofmt a) l
  | .selge, d :: c :: b :: a :: l => push (if fcondHolds .ge a b then c else d, 0) l
  | .selgt, d :: c :: b :: a :: l => push (if fcondHolds .gt a b then c else d, 0) l
  | _, _ => st

/-- The program up to its first END: the FP32 result and the union of the nodes' flags. -/
def ewrValue (i : EwrIn) (ns : List Node) : Nat × Nat :=
  let (l, fl) := (ns.takeWhile (fun n => n ≠ .stop)).foldl (ewrNode i) ([], 0)
  (l.headD 0, fl)

end Sys2Proof.Machine
end

