-- ==== Sys2Proof/Machine/Atomic.lean ====
section
/-! DEFINITION. Read-modify-writes at their points of performance, and accepted return-free atomics (R223 to R227). -/
namespace Sys2Proof.Machine

def amoBytes (ty : AmoTy) : Nat := 2 ^ amoTySize ty

/-- op(old, v) of R224 on w-bit patterns. -/
def amoApply (op : AmoOp) (ty : AmoTy) (old v : Nat) : Nat :=
  let w := 8 * amoBytes ty
  let sgn := ty = .s32 || ty = .s64
  let le := fun (a b : Nat) => if sgn then decide (sextNat a w ≤ sextNat b w) else decide (a ≤ b)
  match op with
  | .add => (old + v) % 2 ^ w
  | .and => old &&& v
  | .or => old ||| v
  | .xor => old ^^^ v
  | .min => if le old v then old else v
  | .max => if le old v then v else old
  | .swap => v
  | .fadd => if ty = .bf16 then bf16AddRne old v else f32AddRne old v
  | .fmin => f32Min old v
  | .fmax => f32Max old v

/-- extend(old) of R223. -/
def amoExtend (ty : AmoTy) (old : Nat) : Word :=
  if ty = .s32 then wordOfInt (sextNat old 32) else BitVec.ofNat 64 old

/-- A failed CAS writes the old value back (R223). -/
def casNew (vs : List Nat) (old : Nat) : Nat := if old = vs.getD 0 0 then vs.getD 1 0 else old
/-- The new value of an atomic from its operands and the old one; no operation is CAS (R223). -/
def rmwNew (op : Option AmoOp) (ty : AmoTy) (vs : List Nat) (old : Nat) : Nat :=
  match op with
  | some op => amoApply op ty old (vs.getD 0 0)
  | none => casNew vs old

/-- Performs a read-modify-write at its point of coherence: path 0 (C) after the writes its bank sees there, path 3 (B) after
the bank's own on that path, path 4 (N) after the base logic has recalled the line (R197, R225). -/
def State.rmw (s : State) (b : BankId) (path place n : Nat) (f : Nat → Nat) : Nat × State :=
  let s :=
    if path = 0 then s.settle b place n
    else if path = 4 then s.performAll (s.pend.filter (fun p => p.visible && p.meets place n))
    else s.settleB b place n
  let old := s.readNum place n
  (old, s.performWrite (if path = 4 then none else some b.core) place (bytesOf n (f old)) true)

/-- A performed write becomes a release write, in its core's copies of the bytes too. -/
def State.tagWrite (s : State) (place n core : Nat) (rels : List (Scope × List Nat)) : State :=
  let tags : List RelTag := rels.map (fun (sc, ids) => ⟨place, n, core, sc, ids⟩)
  { s.l1Note core place n [] tags true with released := s.released ++ tags }

/-- Performs an accepted atomic, or holds the error that it meets (R227). -/
def State.performAmon (s : State) (b : BankId) (a : Amon) : State :=
  let n := amoBytes a.ty
  let s := s.modBank b (fun k => { k with amons := k.amons.filter (fun q => q.id ≠ a.id) })
  if s.eccAt a.place n then
    let h : Held := ⟨cECC_UNCORRECTED, BitVec.ofNat 64 a.va, heldAux a.path 0 0, if a.path = 0 then a.seq else 0⟩
    s.modBank b (fun k => { k with held := if a.path = 0 then holdInOrder h k.held else k.held ++ [h] })
  else
    let s := if a.path = 0 then s.readPast b a.place n else s
    (s.rmw b a.path a.place n (rmwNew (some a.op) a.ty [a.val.toNat])).2.tagWrite a.place n b.core a.rel

/-- Every accepted return-free atomic of a bank is performed, in arrival order. -/
def State.performAmons (s : State) (b : BankId) : State :=
  let k := s.bank b
  let s := k.amons.foldl (fun s a => s.performAmon b a) s
  match k.amons, k.binding with
  | _ :: _, some c => s.finishAbort c.job
  | _, _ => s

end Sys2Proof.Machine
end

