-- ==== Sys2Proof/Machine/Codec.lean ====
section
/-! DEFINITION. How a context save and a migration's metadata hold machine state as 8-byte words (R389 to R391, R402). R390 names what each section holds and gives no byte layout: the order of the words is the model's, and each stands behind a free mask, so that no byte of a body has a value that anything may rest on (log entry 14). -/
namespace Sys2Proof.Config

/-- The free value that hides word `i` of the section with tag `tag`. Log entry 14. -/
opaque saveMask : (tag i : Nat) → Word

end Sys2Proof.Config

namespace Sys2Proof.Machine

/-- A layout of values as words. Reading takes what the value's words hold, leaves what follows, and takes 0 for words that are
not there (R391). -/
structure Codec (α : Type) where
  enc : α → List Word
  dec : List Word → α × List Word
  law : ∀ a l, dec (enc a ++ l) = (a, l)

/-! ### Numbers -/

/-- A number as words of 63 bits; the top bit says that more follow. -/
def natWords : Nat → Nat → List Word
  | 0, n => [BitVec.ofNat 64 n]
  | f + 1, n => if n < 2 ^ 63 then [BitVec.ofNat 64 n] else BitVec.ofNat 64 (2 ^ 63 + n % 2 ^ 63) :: natWords f (n / 2 ^ 63)

def wordsNat : List Word → Nat × List Word
  | [] => (0, [])
  | w :: l =>
    if w.toNat < 2 ^ 63 then (w.toNat, l)
    else
      let (n, r) := wordsNat l
      (w.toNat % 2 ^ 63 + 2 ^ 63 * n, r)

theorem wordsNat_natWords (f n : Nat) (h : n ≤ f) (l : List Word) : wordsNat (natWords f n ++ l) = (n, l) := by
  induction f generalizing n with
  | zero => simp [natWords, wordsNat, show n = 0 by omega]
  | succ f ih =>
    unfold natWords
    split
    · simp only [List.singleton_append, wordsNat, BitVec.toNat_ofNat, Nat.mod_eq_of_lt (show n < 2 ^ 64 by omega), *, if_true]
    · have hd : n / 2 ^ 63 ≤ f := by omega
      simp only [List.cons_append, wordsNat, ih _ hd, BitVec.toNat_ofNat]
      rw [Nat.mod_eq_of_lt (show 2 ^ 63 + n % 2 ^ 63 < 2 ^ 64 by omega), if_neg (by omega)]
      congr 1
      omega

def Codec.nat : Codec Nat := ⟨fun n => natWords n n, wordsNat, fun n l => wordsNat_natWords n n (Nat.le_refl n) l⟩

/-! ### Composition -/

def Codec.iso {α β : Type} (c : Codec α) (f : α → β) (g : β → α) (h : ∀ b, f (g b) = b) : Codec β :=
  ⟨fun b => c.enc (g b), fun l => (f (c.dec l).1, (c.dec l).2), fun b l => by simp [c.law, h]⟩

def Codec.pair {α β : Type} (c : Codec α) (d : Codec β) : Codec (α × β) :=
  ⟨fun p => c.enc p.1 ++ d.enc p.2, fun l => let (a, r) := c.dec l; let (b, r) := d.dec r; ((a, b), r),
    fun p l => by simp [List.append_assoc, c.law, d.law]⟩

/-- One of two kinds of value, behind a word that says which. -/
def Codec.sum {α β : Type} (c : Codec α) (d : Codec β) : Codec (α ⊕ β) :=
  ⟨fun p => match p with
      | .inl a => 0 :: c.enc a
      | .inr b => 1 :: d.enc b,
    fun l => if l.headD 0 = 0 then (.inl (c.dec l.tail).1, (c.dec l.tail).2) else (.inr (d.dec l.tail).1, (d.dec l.tail).2),
    fun p l => by cases p <;> simp [c.law, d.law]⟩

/-- Values of a list: each behind a word 1, and a word 0 at the end. -/
def manyWords {α : Type} (e : α → List Word) : List α → List Word
  | [] => [0]
  | a :: l => 1 :: (e a ++ manyWords e l)

def wordsMany {α : Type} (d : List Word → α × List Word) : Nat → List Word → List α × List Word
  | 0, ws => ([], ws)
  | f + 1, ws =>
    if ws.headD 0 = 0 then ([], ws.tail)
    else
      let (a, r) := d ws.tail
      let (as, r) := wordsMany d f r
      (a :: as, r)

theorem wordsMany_manyWords {α : Type} (c : Codec α) (as : List α) (f : Nat) (h : as.length < f) (l : List Word) :
    wordsMany c.dec f (manyWords c.enc as ++ l) = (as, l) := by
  induction as generalizing f with
  | nil => cases f with
    | zero => simp at h
    | succ f => simp [manyWords, wordsMany]
  | cons a as ih => cases f with
    | zero => simp at h
    | succ f => simp [manyWords, wordsMany, List.append_assoc, c.law, ih f (by simpa using h)]

theorem manyWords_length {α : Type} (e : α → List Word) (as : List α) : as.length < (manyWords e as).length := by
  induction as with
  | nil => simp [manyWords]
  | cons a as ih => simp [manyWords]; omega

def Codec.list {α : Type} (c : Codec α) : Codec (List α) :=
  ⟨manyWords c.enc, fun ws => wordsMany c.dec ws.length ws, fun as l => wordsMany_manyWords c as _ (by
    have := manyWords_length c.enc as
    rw [List.length_append]
    omega) l⟩

/-- As many values as the machine has of a register. -/
def wordsTimes {α : Type} (d : List Word → α × List Word) : Nat → List Word → List α × List Word
  | 0, ws => ([], ws)
  | n + 1, ws =>
    let (a, r) := d ws
    let (as, r) := wordsTimes d n r
    (a :: as, r)

theorem wordsTimes_flatMap {α : Type} (c : Codec α) (as : List α) (l : List Word) :
    wordsTimes c.dec as.length (as.flatMap c.enc ++ l) = (as, l) := by
  induction as with
  | nil => rfl
  | cons a as ih => simp [wordsTimes, List.append_assoc, c.law, ih]

def Codec.vec {α : Type} (c : Codec α) (n : Nat) : Codec (Vector α n) :=
  ⟨fun v => v.toList.flatMap c.enc,
    fun ws => let (l, r) := wordsTimes c.dec n ws; (Vector.ofFn (fun i => l.getD i.val (c.dec []).1), r),
    fun v l => by
      have h := wordsTimes_flatMap c v.toList l
      rw [Vector.length_toList] at h
      simp only [h]
      congr 1
      ext i hi
      simp⟩

def Codec.opt {α : Type} (c : Codec α) : Codec (Option α) :=
  c.list.iso List.head? Option.toList (fun o => by cases o <;> rfl)

/-- A value of a fixed set of names, by its place in the list of them. -/
def Codec.enum {α : Type} [DecidableEq α] (l : List α) (d : α) (h : ∀ a, l.getD (l.idxOf a) d = a) : Codec α :=
  Codec.nat.iso (fun n => l.getD n d) (fun a => l.idxOf a) h

/-! ### Plain values -/

def Codec.bv (w : Nat) : Codec (BitVec w) := Codec.nat.iso (BitVec.ofNat w) BitVec.toNat (fun v => by simp)
abbrev Codec.word : Codec Word := Codec.bv 64
def Codec.bool : Codec Bool := Codec.nat.iso (fun n => n = 1) Bool.toNat (fun b => by cases b <;> rfl)
def Codec.int : Codec Int := (Codec.nat.sum Codec.nat).iso
  (fun v => match v with
    | .inl n => .ofNat n
    | .inr n => .negSucc n)
  (fun i => match i with
    | .ofNat n => .inl n
    | .negSucc n => .inr n) (fun i => by cases i <;> rfl)
abbrev Codec.nats : Codec (List Nat) := Codec.list Codec.nat
abbrev Codec.coord : Codec (Nat × Nat × Nat) := Codec.nat.pair (Codec.nat.pair Codec.nat)
abbrev Codec.writes : Codec (List (Nat × List Nat)) := Codec.list (Codec.nat.pair Codec.nats)
def Codec.kind : Codec StreamKind :=
  Codec.enum [.c, .g] .c (fun a => by cases a <;> rfl)
def Codec.run : Codec Run :=
  Codec.enum [.unbound, .bound, .running, .ended] .unbound (fun a => by cases a <;> rfl)
def Codec.waitTag : Codec WaitTag :=
  Codec.enum [.pop, .push, .flag, .gidle, .waita, .hclaim, .hwait, .hbind, .rdv, .channel, .cpwait, .aqwait, .querySlot, .attarReply, .fenceP, .access,
    .gridOwner, .gridGo, .gridPlace, .tensorOwner, .evwait, .launchSlot, .ovldG, .tlb, .dirtyctl, .ctxbank, .loads, .gdrain, .remoteHank, .ended] .pop (fun a => by cases a <;> rfl)
def Codec.rnd : Codec Rnd :=
  Codec.enum [.rne, .rtz, .rdn, .rup, .sr] .rne (fun a => by cases a <;> rfl)
def Codec.scope : Codec Scope :=
  Codec.enum [.co, .cl, .di, .dv, .dm] .co (fun a => by cases a <;> rfl)
def Codec.node : Codec Node :=
  Codec.enum [.stop, .a, .b, .c, .k0, .k1, .x, .add, .sub, .mul, .fma, .max, .min, .fn, .selge, .selgt] .stop (fun a => by cases a <;> rfl)
def Codec.nodeFn : Codec NodeFn :=
  Codec.enum [.neg, .abs, .recip, .sqrt, .rsqrt, .exp2, .exp, .cvt] .neg (fun a => by cases a <;> rfl)
def Codec.phase : Codec GridPhase :=
  Codec.enum [.hashed, .stopped, .running, .written] .hashed (fun a => by cases a <;> rfl)
def Codec.rdvCls : Codec RdvCls :=
  Codec.enum [.both, .conly, .gonly] .both (fun a => by cases a <;> rfl)
def Codec.rdvExt : Codec RdvExt :=
  Codec.enum [.job, .die, .clu, .core] .job (fun a => by cases a <;> rfl)

/-! ### A context bank's state -/

def Codec.wait : Codec Wait :=
  (Codec.waitTag.pair (Codec.nat.pair (Codec.nat.pair ((Codec.list .word).pair Codec.nat)))).iso (fun (a, b, c, d, e) => ⟨a, b, c, d, e⟩) (fun x => (x.tag, x.obj, x.detail, x.vals, x.since)) (fun _ => rfl)
def Codec.loop : Codec LoopReg :=
  ((Codec.bv 32).pair (Codec.bool.pair (Codec.word.pair (Codec.word.pair (Codec.nat.pair (Codec.int.pair Codec.nat)))))).iso (fun (a, b, c, d, e, f, g) => ⟨a, b, c, d, e, f, g⟩) (fun x => (x.lc, x.active, x.start, x.stop, x.rem, x.step, x.order)) (fun _ => rfl)
def Codec.span : Codec SpanReg :=
  ((Codec.bv 256).pair Codec.bool).iso (fun (a, b) => ⟨a, b⟩) (fun x => (x.bits, x.valid)) (fun _ => rfl)
def Codec.tensor : Codec Tensor :=
  ((Codec.bv 512).pair (Codec.kind.pair Codec.span)).iso (fun (a, b, c) => ⟨a, b, c⟩) (fun x => (x.desc, x.owner, x.span)) (fun _ => rfl)
def Codec.claimant : Codec Claimant := ((Codec.nat.pair Codec.nat).sum (Codec.nat.sum Codec.nat)).iso
  (fun v => match v with
    | .inl (core, n) => .stream core n
    | .inr (.inl op) => .ply op
    | .inr (.inr qid) => .attar qid)
  (fun x => match x with
    | .stream core n => .inl (core, n)
    | .ply op => .inr (.inl op)
    | .attar qid => .inr (.inr qid)) (fun x => by cases x <;> rfl)
def Codec.hank : Codec Hank :=
  ((Codec.opt .word).pair ((Codec.bv 32).pair ((Codec.bv 32).pair ((Codec.bv 32).pair ((Codec.list (Codec.bv 32)).pair ((Codec.list .claimant).pair Codec.nats)))))).iso (fun (a, b, c, d, e, f, g) => ⟨a, b, c, d, e, f, g⟩) (fun x => (x.geo, x.head, x.tail, x.claimed, x.marks, x.claims, x.covers)) (fun _ => rfl)
def Codec.held : Codec Held :=
  (Codec.nat.pair (Codec.word.pair (Codec.word.pair Codec.nat))).iso (fun (a, b, c, d) => ⟨a, b, c, d⟩) (fun x => (x.cause, x.val, x.aux, x.seq)) (fun _ => rfl)
def Codec.pendTrap : Codec PendTrap :=
  (Codec.nat.pair (Codec.word.pair (Codec.word.pair (Codec.word.pair (Codec.nat.pair ((Codec.opt .nat).pair (Codec.bool.pair ((Codec.opt .nat).pair ((Codec.opt .nat)))))))))).iso (fun (a, b, c, d, e, f, g, h, i) => ⟨a, b, c, d, e, f, g, h, i⟩) (fun x => (x.cause, x.pc, x.val, x.aux, x.time, x.seq, x.held, x.grid, x.answer)) (fun _ => rfl)
abbrev Codec.letters : Codec Letters := Codec.list (Codec.bv 3)
def Codec.xferCmd : Codec XferCmd :=
  let move := Codec.span.pair (Codec.span.pair Codec.coord)
  ((move.sum (Codec.tensor.pair (Codec.tensor.pair (Codec.letters.pair (Codec.letters.pair ((Codec.list .word).pair Codec.word)))))).sum
    ((move.pair (Codec.bv 48)).sum Codec.nat)).iso
  (fun v => match v with
    | .inl (.inl (s, d, so, dO, n)) => .copy s d so dO n
    | .inl (.inr (a, c, la, lc, f, r)) => .tcopy a c la lc f r
    | .inr (.inl ((s, d, so, dO, n), m)) => .mcast s d so dO n m
    | .inr (.inr op) => .ply op)
  (fun x => match x with
    | .copy s d so dO n => .inl (.inl (s, d, so, dO, n))
    | .tcopy a c la lc f r => .inl (.inr (a, c, la, lc, f, r))
    | .mcast s d so dO n m => .inr (.inl ((s, d, so, dO, n), m))
    | .ply op => .inr (.inr op)) (fun x => by cases x <;> rfl)
def Codec.xfer : Codec Xfer :=
  (Codec.nat.pair (Codec.xferCmd.pair ((Codec.bv 12).pair ((Codec.opt (Codec.pair .span (Codec.pair .scope .word))).pair (Codec.nat.pair (Codec.nat.pair (Codec.bool.pair (Codec.bool.pair Codec.writes)))))))).iso (fun (a, b, c, d, e, f, g, h, i) => ⟨a, b, c, d, e, f, g, h, i⟩) (fun x => (x.id, x.cmd, x.asid, x.cword, x.done, x.flags, x.faulted, x.finished, x.todo)) (fun _ => rfl)
def Codec.chan : Codec Chan :=
  (Codec.nat.pair (Codec.nat.pair ((Codec.list .xfer)))).iso (fun (a, b, c) => ⟨a, b, c⟩) (fun x => (x.next, x.cpdone, x.xfers)) (fun _ => rfl)
def Codec.slot : Codec QuerySlot :=
  (Codec.nat.pair (Codec.nat.pair (Codec.word.pair (Codec.nat.pair (Codec.nat.pair (Codec.nat.pair (Codec.nat.pair Codec.nat))))))).iso (fun (a, b, c, d, e, f, g, h) => ⟨a, b, c, d, e, f, g, h⟩) (fun x => (x.slot, x.id, x.handle, x.hank, x.nu, x.committed, x.mask, x.nexcl)) (fun _ => rfl)
def Codec.gridArgs : Codec GridArgs :=
  ((Codec.bv 5).pair ((Codec.bv 5).pair ((Codec.bv 5).pair ((Codec.bv 3).pair (Codec.letters.pair (Codec.letters.pair (Codec.letters.pair (Codec.bool.pair (Codec.bool.pair (Codec.rnd.pair ((Codec.bv 5)))))))))))).iso (fun (a, b, c, d, e, f, g, h, i, j, k) => ⟨a, b, c, d, e, f, g, h, i, j, k⟩) (fun x => (x.fa, x.fb, x.fc, x.mr, x.lsa, x.lsb, x.lsc, x.acc, x.sat, x.rnd, x.shape)) (fun _ => rfl)
def Codec.gSrc : Codec GSrc := ((Codec.bv 4).sum ((Codec.bv 3).pair Codec.bool)).iso
  (fun v => match v with
    | .inl n => .reg n
    | .inr (q, p) => .queue q p)
  (fun x => match x with
    | .reg n => .inl n
    | .queue q p => .inr (q, p)) (fun x => by cases x <;> rfl)
def Codec.ewrArgs : Codec EwrArgs :=
  let t := Codec.bv 5
  let m := Codec.bv 6
  let k := Codec.bv 16
  let n2 := Codec.node.pair Codec.node
  let n4 := n2.pair n2
  ((t.pair (t.pair (t.pair (t.pair (Codec.bv 3))))).pair ((Codec.rnd.pair (Codec.bool.pair (Codec.nodeFn.pair Codec.gSrc))).pair
    ((m.pair (m.pair (m.pair Codec.letters))).pair ((k.pair k).pair (n4.pair n4))))).iso
  (fun ((fd, fa, fb, fc, mr), (rnd, sat, fn, x), (ma, mb, mc, ls), (k0, k1), ((n0, n1), (n2, n3)), ((n4, n5), (n6, n7))) =>
    ⟨fd, fa, fb, fc, mr, rnd, sat, fn, x, ma, mb, mc, ls, k0, k1, n0, n1, n2, n3, n4, n5, n6, n7⟩)
  (fun x => ((x.fd, x.fa, x.fb, x.fc, x.mr), (x.rnd, x.sat, x.fn, x.x), (x.ma, x.mb, x.mc, x.lsd), (x.k0, x.k1),
    ((x.n0, x.n1), (x.n2, x.n3)), ((x.n4, x.n5), (x.n6, x.n7)))) (fun _ => rfl)
def Codec.gridWhat : Codec GridWhat := ((Codec.enum [GridKind.ctr, .ctrs, .red, .cvt] .ctr (fun a => by cases a <;> rfl)).pair Codec.gridArgs |>.sum
    (Codec.ewrArgs.pair (Codec.bv 32))).iso
  (fun v => match v with
    | .inl (.ctr, a) => .ctr a
    | .inl (.ctrs, a) => .ctrs a
    | .inl (.red, a) => .red a
    | .inl (.cvt, a) => .cvt a
    | .inr (a, x) => .ewr a x)
  (fun x => match x with
    | .ctr a => .inl (.ctr, a)
    | .ctrs a => .inl (.ctrs, a)
    | .red a => .inl (.red, a)
    | .cvt a => .inl (.cvt, a)
    | .ewr a x => .inr (a, x)) (fun x => by cases x <;> rfl)
def Codec.gridPart : Codec GridPart :=
  (Codec.coord.pair (Codec.nat.pair (Codec.nat.pair (Codec.nat.pair (Codec.nat.pair (Codec.nats.pair (Codec.bool.pair (Codec.nats.pair ((Codec.list (Codec.list (Codec.pair .nat (Codec.list .int))))))))))))).iso (fun (a, b, c, d, e, f, g, h, i) => ⟨a, b, c, d, e, f, g, h, i⟩) (fun x => (x.src, x.tile, x.step, x.opnd, x.chunk, x.data, x.lost, x.counts, x.terms)) (fun _ => rfl)
def Codec.gridOp : Codec GridOp :=
  (Codec.nat.pair (Codec.word.pair (Codec.gridWhat.pair ((Codec.list (Codec.pair .nat .tensor)).pair ((Codec.list (Codec.pair .nat .word)).pair ((Codec.bv 512).pair (Codec.word.pair (Codec.word.pair ((Codec.bv 12).pair (Codec.phase.pair (Codec.nat.pair (Codec.nat.pair (Codec.bool.pair ((Codec.list .gridPart).pair ((Codec.list .gridPart).pair ((Codec.list .gridPart).pair (Codec.nat.pair ((Codec.opt .nat).pair ((Codec.opt .held).pair ((Codec.list (Codec.pair .nats (Codec.list .int))).pair (Codec.writes.pair ((Codec.opt (Codec.pair .nat .nat)))))))))))))))))))))))).iso (fun (a, b, c, d, e, f, g, h, i, j, k, l, m, n, o, p, q, r, s, t, u, v) => ⟨a, b, c, d, e, f, g, h, i, j, k, l, m, n, o, p, q, r, s, t, u, v⟩) (fun x => (x.seq, x.pc, x.what, x.tens, x.fmts, x.mrec, x.spwin, x.seed, x.asid, x.phase, x.number, x.tile, x.sent, x.opnds, x.nodes, x.exacts, x.flags, x.tag, x.stop, x.vals, x.todo, x.low)) (fun _ => rfl)

/-! ### A core record (R390) -/

/-- What a core record holds: the virtual core id, the bank, the value of DIRTYCTL, and the bank's state. -/
structure CoreSave where
  core : Nat
  bank : Nat
  dirty : Word
  k : Bank
  deriving DecidableEq, Repr

/-- A section: how its fields are written, and how they are put into what a record restores. -/
structure SaveSection where
  enc : CoreSave → List Word
  put : List Word → CoreSave → CoreSave

/-- The section of the fields that `get` names. -/
def Codec.section {α : Type} (c : Codec α) (get : CoreSave → α) (put : α → CoreSave → CoreSave) : SaveSection :=
  ⟨fun x => c.enc (get x), fun ws => put (c.dec ws).1⟩

/-- The fields of the bank that `get` names. -/
def Codec.bankSection {α : Type} (c : Codec α) (get : Bank → α) (put : α → Bank → Bank) : SaveSection :=
  c.section (fun x => get x.k) (fun a x => { x with k := put a x.k })

/-- The sections of a core record but SCRATCH, whose body is the scratchpad, by tag, in the record's order (R390). -/
def saveSections : List (Nat × SaveSection) :=
  [(0x01, (Codec.nat.pair Codec.nat).section (fun x => (x.core, x.bank)) (fun (n, b) x => { x with core := n, bank := b })),
   (0x02, (Codec.word.pair ((Codec.vec Codec.word 64).pair ((Codec.vec Codec.bool 8).pair ((Codec.vec Codec.loop 4).pair (Codec.word.pair (Codec.word.pair (Codec.word.pair (Codec.word.pair (Codec.word.pair Codec.word))))))))).bankSection
      (fun k => (k.c.pc, k.x, k.cC, k.lc, k.status, k.trapvec, k.trapcause, k.trappc, k.trapval, k.trapaux))
      (fun (v1, v2, v3, v4, v5, v6, v7, v8, v9, v10) k => { k with x := v2, cC := v3, lc := v4, status := v5, trapvec := v6, trapcause := v7, trappc := v8, trapval := v9, trapaux := v10, c := { k.c with pc := v1 } })),
   (0x03, (Codec.word.pair ((Codec.vec (Codec.bv 32) 16).pair ((Codec.vec Codec.bool 8)))).bankSection
      (fun k => (k.g.pc, k.y, k.cG))
      (fun (v1, v2, v3) k => { k with y := v2, cG := v3, g := { k.g with pc := v1 } })),
   (0x04, ((Codec.vec Codec.tensor 32)).bankSection
      (fun k => k.t)
      (fun v1 k => { k with t := v1 })),
   (0x05, ((Codec.vec (Codec.bv 512) 8)).bankSection
      (fun k => k.m)
      (fun v1 k => { k with m := v1 })),
   (0x06, ((Codec.vec Codec.span 16).pair (Codec.span.pair (Codec.span.pair (Codec.nat.pair Codec.nat)))).bankSection
      (fun k => (k.b, k.codeC, k.codeG, k.c.ovl, k.g.ovl))
      (fun (v1, v2, v3, v4, v5) k => { k with b := v1, codeC := v2, codeG := v3, c := { k.c with ovl := v4 }, g := { k.g with ovl := v5 } })),
   (0x07, ((Codec.vec (Codec.list Codec.word) 8)).bankSection
      (fun k => k.q)
      (fun v1 k => { k with q := v1 })),
   (0x08, ((Codec.vec Codec.bool 16)).bankSection
      (fun k => k.fl)
      (fun v1 k => { k with fl := v1 })),
   (0x09, ((Codec.vec Codec.hank 16)).bankSection
      (fun k => k.h.map (fun (h : Hank) => { h with covers := [] }))
      (fun v1 k => { k with h := v1 })),
   (0x0A, ((Codec.vec Codec.chan 8).pair Codec.nat).bankSection
      (fun k => (k.chan, k.plyNum))
      (fun (v1, v2) k => { k with chan := v1, plyNum := v2 })),
   (0x0B, (Codec.word.pair (Codec.word.pair (Codec.word.pair (Codec.word.pair ((Codec.vec Codec.word 16).pair (Codec.word.pair (Codec.word.pair (Codec.word.pair (Codec.word.pair ((Codec.bv 12))))))))))).section
      (fun x => (x.dirty, x.k.fpflags, x.k.roundseed, x.k.spwin, x.k.bfmt, x.k.plyDense, x.k.lwait, x.k.stall, x.k.quantum, x.k.asid))
      (fun (d, v1, v2, v3, v4, v5, v6, v7, v8, v9) x => { x with dirty := d, k := { x.k with fpflags := v1, roundseed := v2, spwin := v3, bfmt := v4, plyDense := v5, lwait := v6, stall := v7, quantum := v8, asid := v9 } })),
   (0x0C, ((Codec.list Codec.held).pair ((Codec.opt Codec.pendTrap).pair Codec.nat)).bankSection
      (fun k => (k.held, k.pendTrap, k.nextAcc))
      (fun (v1, v2, v3) k => { k with held := v1, pendTrap := v2, nextAcc := v3 })),
   (0x0D, ((Codec.opt Codec.wait).pair (Codec.run.pair ((Codec.opt Codec.wait).pair (Codec.run.pair ((Codec.vec Codec.nat 64).pair ((Codec.vec Codec.nat 64))))))).bankSection
      (fun k => (k.c.wait, k.c.run, k.g.wait, k.g.run, k.rdvC, k.rdvG))
      (fun (v1, v2, v3, v4, v5, v6) k => { k with rdvC := v5, rdvG := v6, c := { k.c with wait := v1, run := v2 }, g := { k.g with wait := v3, run := v4 } })),
   (0x0E, ((Codec.list Codec.gridOp).pair (Codec.nat.pair Codec.nat)).bankSection
      (fun k => (k.grid, k.nextGrid, k.gridNum))
      (fun (v1, v2, v3) k => { k with grid := v1, nextGrid := v2, gridNum := v3 })),
   (0x0F, ((Codec.list Codec.slot).pair Codec.nat).bankSection
      (fun k => (k.queries, k.nextQuery))
      (fun (v1, v2) k => { k with queries := v1, nextQuery := v2 })),
   (0x10, ((Codec.vec Codec.word 4)).bankSection
      (fun k => k.plystat)
      (fun v1 k => { k with plystat := v1 })),
   (0x20, ((Codec.vec Codec.word 8)).bankSection
      (fun k => k.conflicts)
      (fun v1 k => { k with conflicts := v1 }))]

/-- Words behind the mask of a section. -/
def masked (tag : Nat) (ws : List Word) : List Word := ws.mapIdx (fun i w => w ^^^ Config.saveMask tag i)

/-- Words as bytes, and the whole words of a byte string (R14). -/
def bytesOfWords (ws : List Word) : List Byte := ws.flatMap (fun w => bytesOf 8 w.toNat)

def bodyWords : Nat → List Byte → List Word
  | 0, _ => []
  | n + 1, bs => BitVec.ofNat 64 (natOfBytes (bs.take 8)) :: bodyWords n (bs.drop 8)

/-- The body of a section, and the words that a body holds. -/
def secBody (tag : Nat) (ws : List Word) : List Byte := bytesOfWords (masked tag ws)
def secWords (tag : Nat) (bs : List Byte) : List Word := masked tag (bodyWords (bs.length / 8) bs)

/-- The body of section `tag` of a core record. -/
def CoreSave.body (x : CoreSave) (tag : Nat) : List Byte :=
  match assocGet saveSections tag with
  | some f => secBody tag (f.enc x)
  | none => []

/-- What the bodies of a core record give, by tag: every field from its section, and 0 for what is missing (R391). -/
def readCore (body : Nat → List Byte) : CoreSave :=
  saveSections.foldl (fun x (tag, f) => f.put (secWords tag (body tag)) x) ⟨0, 0, 0, Bank.reset⟩

/-- The state of a bank that a save carries. Its accesses are over, its overlays are read again from the image, and what it had
observed of writes under way on this device goes no further. -/
def Bank.portable (k : Bank) : Bank :=
  { k with
    flD := Vector.replicate 16 [], h := k.h.map (fun (h : Hank) => { h with covers := [] }), attarReq := none,
    c := { k.c with code := [] }, g := { k.g with code := [] }, outLoads := [], amons := [], observed := [], acqPending := [],
    relFence := [], drain := .none, halted := none, preemptAt := none, idleSince := 0, binding := none, image := 0, ovls := [] }

/-! ### What a migrating job carries (R402) -/

abbrev Codec.bytes : Codec (List Byte) := Codec.list (Codec.bv 8)
def Codec.launchRec : Codec LaunchRec :=
  (Codec.nat.pair (Codec.nat.pair (Codec.nat.pair (Codec.nat.pair (Codec.nat.pair (Codec.nat.pair (Codec.nat.pair (Codec.nat.pair (Codec.nat.pair (Codec.nat.pair (Codec.nat.pair (Codec.nat.pair (Codec.nat.pair (Codec.nat.pair ((Codec.list Codec.word).pair (Codec.word.pair (Codec.word.pair (Codec.word.pair (Codec.word.pair (Codec.word.pair (Codec.nat.pair ((Codec.list Codec.word).pair (Codec.word.pair (Codec.nat.pair Codec.bytes)))))))))))))))))))))))).iso (fun (v1, v2, v3, v4, v5, v6, v7, v8, v9, v10, v11, v12, v13, v14, v15, v16, v17, v18, v19, v20, v21, v22, v23, v24, v25) => ⟨v1, v2, v3, v4, v5, v6, v7, v8, v9, v10, v11, v12, v13, v14, v15, v16, v17, v18, v19, v20, v21, v22, v23, v24, v25⟩) (fun x => (x.vmin, x.vmaj, x.kind, x.ctrl, x.ctx, x.recid, x.waitM, x.setM, x.clrM, x.image, x.entry, x.shape, x.dcount, x.savearea, x.args, x.spwin, x.seed, x.lwait, x.stall, x.quantum, x.doneaddr, x.bfmt, x.doneval, x.siladdr, x.raw)) (fun _ => rfl)
def Codec.qrec : Codec QRec :=
  (Codec.nat.pair (Codec.launchRec.pair (Codec.bool.pair (Codec.bytes.pair (Codec.bool.pair ((Codec.opt (Codec.pair Codec.nat Codec.nat)).pair Codec.nat)))))).iso (fun (v1, v2, v3, v4, v5, v6, v7) => ⟨v1, v2, v3, v4, v5, v6, v7⟩) (fun x => (x.arrival, x.lrec, x.priv, x.params, x.ready, x.inst, x.rot)) (fun _ => rfl)
def Codec.distaff : Codec Distaff :=
  (Codec.nat.pair (Codec.nat.pair (Codec.nat.pair (Codec.nat.pair Codec.nat)))).iso (fun (v1, v2, v3, v4, v5) => ⟨v1, v2, v3, v4, v5⟩) (fun x => (x.n, x.next, x.min, x.d, x.p)) (fun _ => rfl)
def Codec.region : Codec AttarRegion :=
  (Codec.nat.pair (Codec.nat.pair (Codec.nat.pair (Codec.bool.pair (Codec.nat.pair (Codec.nat.pair (Codec.nat.pair (Codec.nat.pair (Codec.nats.pair (Codec.nat.pair (Codec.nat.pair (Codec.nat.pair Codec.nat)))))))))))).iso (fun (v1, v2, v3, v4, v5, v6, v7, v8, v9, v10, v11, v12, v13) => ⟨v1, v2, v3, v4, v5, v6, v7, v8, v9, v10, v11, v12, v13⟩) (fun x => (x.stack, x.index, x.gen, x.live, x.part, x.asid, x.job, x.va, x.pages, x.hd, x.lnu, x.rows, x.valid)) (fun _ => rfl)
def Codec.arrival : Codec Arrival :=
  (Codec.nat.pair (Codec.nat.pair (Codec.nat.pair (Codec.nat.pair (Codec.nat.pair (Codec.kind.pair (Codec.nat.pair (Codec.rdvCls.pair (Codec.rdvExt.pair (Codec.nats.pair Codec.bool)))))))))).iso (fun (v1, v2, v3, v4, v5, v6, v7, v8, v9, v10, v11) => ⟨v1, v2, v3, v4, v5, v6, v7, v8, v9, v10, v11⟩) (fun x => (x.id, x.n, x.jd, x.jc, x.jk, x.kind, x.core, x.cls, x.ext, x.covers, x.opened)) (fun _ => rfl)
def Codec.hubMsg : Codec HubMsg :=
  (Codec.nat.pair (Codec.nat.pair (Codec.nat.pair (Codec.nat.pair (Codec.nat.pair (Codec.nat.pair ((Codec.bv 4).pair (Codec.bool.pair ((Codec.bv 32).pair (Codec.word.pair Codec.nats)))))))))).iso (fun (v1, v2, v3, v4, v5, v6, v7, v8, v9, v10, v11) => ⟨v1, v2, v3, v4, v5, v6, v7, v8, v9, v10, v11⟩) (fun x => (x.id, x.job, x.jd, x.jc, x.src, x.home, x.hank, x.commit, x.pos, x.n, x.covers)) (fun _ => rfl)
def Codec.spMsg : Codec SpMsg :=
  (((Codec.nat.pair (Codec.bytes.pair Codec.nat)).sum ((Codec.opt .nat).sum Codec.word)).sum
    (Codec.gridPart.sum (Codec.gridPart.sum Codec.gridPart))).iso
  (fun v => match v with
    | .inl (.inl (a, b, c)) => .hash a b c
    | .inl (.inr (.inl t)) => .go t
    | .inl (.inr (.inr w)) => .stop w
    | .inr (.inl p) => .opnd p
    | .inr (.inr (.inl p)) => .node p
    | .inr (.inr (.inr p)) => .exact p)
  (fun x => match x with
    | .hash a b c => .inl (.inl (a, b, c))
    | .go t => .inl (.inr (.inl t))
    | .stop w => .inl (.inr (.inr w))
    | .opnd p => .inr (.inl p)
    | .node p => .inr (.inr (.inl p))
    | .exact p => .inr (.inr (.inr p))) (fun x => by cases x <;> rfl)
def Codec.spindleMsg : Codec SpindleMsg :=
  (Codec.nat.pair (Codec.nat.pair (Codec.nat.pair (Codec.coord.pair (Codec.nat.pair (Codec.coord.pair (Codec.spMsg.pair Codec.word))))))).iso (fun (v1, v2, v3, v4, v5, v6, v7, v8) => ⟨v1, v2, v3, v4, v5, v6, v7, v8⟩) (fun x => (x.id, x.job, x.number, x.src, x.core, x.dst, x.body, x.head)) (fun _ => rfl)
def Codec.tagUse : Codec TagUse :=
  (Codec.nats.pair (Codec.nat.pair (Codec.nat.pair Codec.nat))).iso (fun (v1, v2, v3, v4) => ⟨v1, v2, v3, v4⟩) (fun x => (x.dies, x.tag, x.job, x.number)) (fun _ => rfl)
def Codec.rootRec : Codec RootRec :=
  (Codec.nat.pair (Codec.nat.pair (Codec.coord.pair (Codec.bool.pair (Codec.nat.pair (Codec.nats.pair (Codec.bool.pair (Codec.bytes.pair ((Codec.list (Codec.pair Codec.coord (Codec.pair Codec.nat (Codec.pair Codec.nat Codec.bytes))))))))))))).iso (fun (v1, v2, v3, v4, v5, v6, v7, v8, v9) => ⟨v1, v2, v3, v4, v5, v6, v7, v8, v9⟩) (fun x => (x.job, x.number, x.root, x.ready, x.parts, x.dies, x.needTag, x.own, x.got)) (fun _ => rfl)
def Codec.plyForm : Codec PlyForm :=
  (Codec.bool.pair ((Codec.bv 8))).iso (fun (v1, v2) => ⟨v1, v2⟩) (fun x => (x.bf, x.dm1)) (fun _ => rfl)
def Codec.plyMember : Codec PlyMember :=
  (Codec.coord.pair (Codec.phase.pair ((Codec.opt Codec.held).pair (Codec.nat.pair (Codec.nat.pair (Codec.span.pair (Codec.nat.pair (Codec.nat.pair ((Codec.bv 12).pair Codec.writes))))))))).iso (fun (v1, v2, v3, v4, v5, v6, v7, v8, v9, v10) => ⟨v1, v2, v3, v4, v5, v6, v7, v8, v9, v10⟩) (fun x => (x.c, x.phase, x.stop, x.ch, x.xfer, x.span, x.addr, x.count, x.asid, x.recs)) (fun _ => rfl)
def Codec.plyOp : Codec PlyOp :=
  (Codec.nat.pair (Codec.nat.pair (Codec.nat.pair (Codec.bool.pair (Codec.plyForm.pair (Codec.bool.pair (Codec.nat.pair (Codec.nat.pair (Codec.nat.pair (Codec.coord.pair (Codec.nat.pair ((Codec.list Codec.coord).pair ((Codec.list Codec.plyMember).pair ((Codec.opt (Codec.list (Codec.pair Codec.bool (Codec.pair Codec.nat Codec.nats)))).pair Codec.nat)))))))))))))).iso (fun (v1, v2, v3, v4, v5, v6, v7, v8, v9, v10, v11, v12, v13, v14, v15) => ⟨v1, v2, v3, v4, v5, v6, v7, v8, v9, v10, v11, v12, v13, v14, v15⟩) (fun x => (x.id, x.job, x.number, x.red, x.form, x.free, x.lo, x.hi, x.frac, x.owner, x.hank, x.parts, x.members, x.out, x.delivered)) (fun _ => rfl)
def Codec.attarQuery : Codec AttarQuery :=
  (Codec.nat.pair (Codec.coord.pair (Codec.nat.pair (Codec.nat.pair (Codec.nat.pair (Codec.nat.pair (Codec.nat.pair (Codec.nat.pair (Codec.bytes.pair (Codec.nat.pair (Codec.nat.pair ((Codec.list (Codec.pair (Codec.pair Codec.nat Codec.nat) (Codec.opt Codec.bytes))))))))))))))).iso (fun (v1, v2, v3, v4, v5, v6, v7, v8, v9, v10, v11, v12) => ⟨v1, v2, v3, v4, v5, v6, v7, v8, v9, v10, v11, v12⟩) (fun x => (x.job, x.c, x.id, x.stack, x.index, x.snap, x.lo, x.hi, x.query, x.hank, x.next, x.got)) (fun _ => rfl)

/-- The metadata of a job in the order of its fields. -/
def Codec.migJob : Codec MigJob :=
  ((Codec.nat.pair (Codec.qrec.pair ((Codec.list (.pair .nat .nat)).pair (Codec.list (.pair (.pair .nat .nat) .distaff))))).pair
    (((Codec.list .region).pair ((Codec.list .qrec).pair (Codec.nats.pair ((Codec.list (.pair .nat (.pair .nat (.pair .nat .nat)))).pair Codec.nat)))).pair
      ((Codec.list .arrival).pair ((Codec.list .hubMsg).pair ((Codec.list .spindleMsg).pair ((Codec.list .rootRec).pair ((Codec.list .tagUse).pair
        ((Codec.list .plyOp).pair (Codec.list .attarQuery))))))))).iso
  (fun ((v1, v2, v3, v4), (v5, v6, v7, v8, v9), (v10, v11, v12, v13, v14, v15, v16)) =>
    ⟨v1, v2, v3, v4, v5, v6, v7, v8, v9, v10, v11, v12, v13, v14, v15, v16⟩)
  (fun x => ((x.id, x.qrec, x.evbits, x.distaff), (x.regions, x.queue, x.tags, x.teams, x.bytes),
    (x.arrivals, x.hub, x.spindle, x.roots, x.routeTags, x.ply, x.scans))) (fun _ => rfl)

/-- The tag under whose mask the metadata stand; no section of a save has it. -/
def tagMeta : Nat := 0x100

/-- The metadata of a migrating job as bytes: the number of their words first. -/
def migBytes (m : MigJob) : List Byte :=
  let ws := Codec.migJob.enc m
  secBody tagMeta (Codec.nat.enc ws.length ++ ws)

/-- What metadata say; none while they are not complete. -/
def readMig (bs : List Byte) : Option MigJob :=
  let (n, ws) := Codec.nat.dec (secWords tagMeta bs)
  if bs = [] ∨ ws.length ≠ n then none else some (Codec.migJob.dec ws).1

end Sys2Proof.Machine
end

