-- ==== Sys2Proof/Machine/Shake.lean ====
section
/-! DEFINITION. SHAKE256, which the manual names for every digest (R135, R368 to R370, R389), over the 1600-bit string of FIPS 202 held as one number: bit 64 (5y + x) + z is bit z of lane (x, y), so that a plane y is 320 bits and byte strings enter and leave by their little-endian values. -/
namespace Sys2Proof.Machine

/-- A string of `n` bits turned by `r` places towards its high end. -/
def cyc (n r v : Nat) : Nat := v * 2 ^ r % 2 ^ n + v / 2 ^ (n - r)

/-- Plane y of the string. -/
def plane (s y : Nat) : Nat := fieldAt s (320 * y) 320

/-- Every lane of a plane turned by one place: its top bit comes back at its bottom. -/
def cycLanes (p : Nat) : Nat :=
  let top := p / 2 ^ 63 &&& (1 + 2 ^ 64 + 2 ^ 128 + 2 ^ 192 + 2 ^ 256)
  2 * p + top - top * 2 ^ 64

/-- θ: the parity of the columns beside a bit is added to it. -/
def shakeTheta (s : Nat) : Nat :=
  let par := plane s 0 ^^^ plane s 1 ^^^ plane s 2 ^^^ plane s 3 ^^^ plane s 4
  s ^^^ (cyc 320 64 par ^^^ cycLanes (cyc 320 256 par)) * (1 + 2 ^ 320 + 2 ^ 640 + 2 ^ 960 + 2 ^ 1280)

/-- ρ and π: from lane (1, 0), each next lane is the place to which π moves the last one, and lane number t of that walk
turns by (t + 1)(t + 2) / 2. -/
def shakeWalk (s : Nat) : Nat → Nat → Nat → Nat → Nat
  | 0, _, _, _ => 0
  | n + 1, t, x, y =>
    let y' := (2 * x + 3 * y) % 5
    cyc 64 ((t + 1) * (t + 2) / 2 % 64) (fieldAt s (64 * (5 * y + x)) 64) * 2 ^ (64 * (5 * y' + y)) + shakeWalk s n (t + 1) y y'

/-- χ on a plane. -/
def shakeChi (p : Nat) : Nat := p ^^^ ((2 ^ 320 - 1 - cyc 320 256 p) &&& cyc 320 192 p)

/-- One clock of the 8-bit register that makes the round constants. -/
def shakeClock (r : Nat) : Nat := if r < 128 then 2 * r else 2 * r ^^^ 0x171

/-- ι: bit 2^j − 1 of lane (0, 0) is added to the register's output j of the round; the register goes on. -/
def shakeIota : Nat → Nat → Nat → Nat × Nat
  | 0, _, r => (0, r)
  | n + 1, j, r =>
    let (c, r') := shakeIota n (j + 1) (shakeClock r)
    (r % 2 * 2 ^ (2 ^ j - 1) + c, r')

/-- `n` rounds, with the register as the rounds before have left it. -/
def shakeRounds : Nat → Nat → Nat → Nat
  | 0, _, s => s
  | n + 1, r, s =>
    let a := shakeTheta s
    let b := a % 2 ^ 64 + shakeWalk a 24 0 1 0
    let (c, r') := shakeIota 7 0 r
    shakeRounds n r' (((List.range 5).map (fun y => shakeChi (plane b y) * 2 ^ (320 * y))).sum ^^^ c)

/-- The permutation of the sponge: 24 rounds from the register's first value. -/
def shakeF (s : Nat) : Nat := shakeRounds 24 1 s

/-- Takes `n` blocks of 136 bytes in. -/
def spongeIn : Nat → Nat → List Byte → Nat
  | 0, s, _ => s
  | n + 1, s, bs => spongeIn n (shakeF (s ^^^ natOfBytes (bs.take 136))) (bs.drop 136)

/-- Gives out `n` blocks of 136 bytes. -/
def spongeOut : Nat → Nat → List Byte
  | 0, _ => []
  | n + 1, s => bytesOf 136 s ++ spongeOut n (shakeF s)

/-- The first `n` bytes of SHAKE256 of a message: the suffix 1111 and the first pad bit make the byte 0x1F behind the
message, and the last pad bit is the top bit of the last block. -/
def shake256 (m : List Byte) (n : Nat) : List Byte :=
  let blocks := m.length / 136 + 1
  let len := natOfBytes m + 0x1F * 2 ^ (8 * m.length) + 2 ^ (1088 * blocks - 1)
  (spongeOut (n / 136 + 1) (spongeIn blocks 0 (bytesOf (136 * blocks) len))).take n

end Sys2Proof.Machine
end

