-- ==== Sys2Proof/Machine/Window.lean ====
section
/-! DEFINITION. The register window of a partition: its registers, answers to fault records, debug commands, and the source side of live migration (R379, R380, R382, R386, R400 to R402). -/
namespace Sys2Proof

/-- Whether a core is one of a partition's. -/
def PartRec.owns (r : PartRec) (core : Nat) : Bool :=
  core < 2048 && Machine.coreNum core < Config.coresPerCluster && r.clumask.getLsbD (Machine.clusterOf core)

/-- Whether bytes lie in a partition's memory, which may stand in several ranges side by side (R365, R366). -/
def PartRec.spans (r : PartRec) : Nat → Nat → Nat → Bool
  | 0, _, _ => false
  | f + 1, a, e =>
    match r.ranges.find? (fun (b, l) => b ≤ a && a < l) with
    | none => false
    | some (_, l) => e ≤ l || r.spans f l e
def PartRec.holds (r : PartRec) (a n : Nat) : Bool := r.spans (r.ranges.length + 1) a (a + n)

/-- The header of a packet (R401). -/
def MigPacket.header (p : MigPacket) : List Byte :=
  bytesOf 4 p.session ++ bytesOf 8 p.counter ++ bytesOf 1 p.kind ++ bytesOf 3 0 ++ bytesOf 4 p.round ++ bytesOf 8 p.addr ++ bytesOf 4 p.length

def MigPacket.iv (p : MigPacket) : List Byte := bytesOf 4 p.session ++ bytesOf 8 p.counter

end Sys2Proof

namespace Sys2Proof.Machine

/-! ### Answers (R382) -/

/-- A bank that stops issuing notes when, unless it has stopped before (R322). -/
def Bank.stops (k : Bank) (now : Nat) : Bank := if k.drain = .none then { k with idleSince := now } else k

/-- Marks the bank that a core runs, when it is not the given one, so that the core drains it and comes back. -/
def State.comeBack (s : State) (b : BankId) : State :=
  let o : BankId := ⟨b.core, 1 - b.bank⟩
  if (s.core b.core).running = b.bank ∨ !s.live o then s.pickBank b.core
  else s.modBank o (fun k => { k.stops s.dtc with drain := .answer })

/-- Applies an answer to a live bank that waits for it: 0 RETRY, 1 DELIVER, 2 ABORT. -/
def State.applyAnswer (s : State) (b : BankId) (t : PendTrap) (act : Nat) : State :=
  let ti : TrapInfo := ⟨t.cause, t.val, t.aux⟩
  let s := (s.modBank b (fun k => { k with pendTrap := none, drain := .none, idleSince := s.dtc })).comeBack b
  if act = 0 then s
  else if act = 1 ∧ t.grid = none then s.deliver b ti t.pc
  else (s.modBank b (fun k => k.setTrapRegs ti t.pc)).abortJob b t.cause

def Bank.waitsFor (k : Bank) (part seq : Nat) : Option PendTrap :=
  match k.pendTrap with
  | some t => if k.part = part ∧ t.seq = some seq ∧ t.answer = none then some t else none
  | none => none

/-- An accepted answer; a bank that stands saved, or that is drained for a pre-emption, takes it at its RESUME (R387).
Any other answer is logged. -/
def State.answer (s : State) (part seq act : Nat) : State :=
  let note := fun (k : Bank) => { k with pendTrap := k.pendTrap.map (fun (t : PendTrap) => { t with answer := some act }) }
  match s.banks.find? (fun (_, k) => (k.waitsFor part seq).isSome) with
  | some (b, k) =>
    match k.waitsFor part seq with
    | some t => if k.preemptAt.isSome then s.modBank b note else s.applyAnswer b t act
    | none => s
  | none =>
    if s.saves.any (fun v => v.cores.any (fun (_, _, k) => (k.waitsFor part seq).isSome)) then
      { s with saves := s.saves.map (fun (v : Save) =>
          { v with cores := v.cores.map (fun (a, n, k) => (a, n, if (k.waitsFor part seq).isSome then note k else k)) }) }
    else s.logPart part .answerIgnored [seq, act]

/-! ### Fault records (R380, R393) -/

/-- The 64 bytes of a fault record. -/
def faultRecord (seq vcore bank cause asid job : Nat) (pc val aux : Word) (time : Nat) : List Byte :=
  bytesOf 6 seq ++ bytesOf 2 0 ++ bytesOf 2 vcore ++ bytesOf 1 bank ++ bytesOf 1 cause ++ bytesOf 4 asid ++ bytesOf 8 job
    ++ bytesOf 8 pc.toNat ++ bytesOf 8 val.toNat ++ bytesOf 8 aux.toNat ++ bytesOf 8 time ++ bytesOf 8 0

def Part.slots (p : Part) : Nat := 2 ^ fieldAt p.frctl.toNat 0 4
def Part.ringOn (p : Part) : Bool := fieldAt p.frctl.toNat 63 1 = 1
def Part.ringFull (p : Part) : Bool := p.frhead + p.slots ≤ p.frtail

/-- Writes a record at the slot of FRTAIL, then advances FRTAIL. A slot outside the partition's memory is not written (R366; log
entry 103). -/
def State.putRecord (s : State) (part : Nat) (p : Part) (rec : List Byte) : State :=
  let a := p.frbase.toNat + 64 * (p.frtail % p.slots)
  let s := if p.record.holds a 64 then s.performWrite none a rec false else s
  s.modPart part (fun p => { p with frtail := p.frtail + 1 })

/-- Writes what waits of the records of lost modified lines, while the ring has room (R393); the device answers them itself. -/
def State.flushLost (s : State) (part : Nat) : Nat → State
  | 0 => s
  | n + 1 =>
    match s.part part with
    | none => s
    | some p =>
      match p.lost with
      | (pa, t) :: l =>
        if !p.ringOn || p.ringFull then s
        else
          State.flushLost ((s.putRecord part p (faultRecord p.frtail 0x7FF 0 cECC_UNCORRECTED 0 0 0 (BitVec.ofNat 64 pa) 2 t)).modPart part
            (fun p => { p with lost := l })) part n
      | [] => s

/-! ### Debug commands (R379, R386) -/

/-- Halt causes: HALT has 0x01 (R386); BREAK has its trap code, and a debug command 0 (log entry 64). -/
def haltHALT : Nat := 1
def haltBREAK : Nat := cBREAK
def haltDBG : Nat := 0

/-- A bank halts: it drains as at a CTXBANK switch. -/
def State.haltBank (s : State) (b : BankId) (h : Halt) : State :=
  s.modBank b (fun k => { k.stops s.dtc with halted := some h, drain := if k.drain = .none then .halt else k.drain })

/-- DBGCMD: 0 halt, 1 resume, 2 attach, 3 detach. -/
def State.debug (s : State) (part : Nat) (b : BankId) (op : Nat) : State :=
  match s.part part with
  | none => s
  | some p =>
    if !p.record.owns b.core then s
    else
      let s := s.modPart part (fun p => { p with dbgLast := some b })
      if op = 0 then (if (s.bank b).halted.isSome then s else s.haltBank b ⟨haltDBG, 0⟩)
      else if op = 1 then
        (s.modBank b (fun k => { k with halted := none, drain := if k.drain = .halt then .none else k.drain })).pickBank b.core
      else s.modCore b.core (fun c => { c with attached := decide (op = 2) })

/-! ### Pre-emption (R387) -/

/-- A PREEMPT of a bank: it begins to drain. -/
def State.markPreempt (s : State) (b : BankId) : State :=
  s.modBank b (fun k => if k.preemptAt.isSome then k else
    { k.stops s.dtc with preemptAt := some s.dtc, drain := if k.pendTrap.isSome then .fault else .preempt })

/-! ### Live migration: the source (R400 to R402) -/

/-- MIGSTAT.state: idle, pre-copy, stopping, sent, done (log entry 70). -/
def migIdle : Nat := 0
def migCopy : Nat := 1
def migStopping : Nat := 2
def migSent : Nat := 3
def migDone : Nat := 4

/-- Where the DIRTY word of the bank's address space stands (R351, R357). -/
def State.dirtyPlace (s : State) (b : BankId) : Option Nat :=
  (s.part (s.bank b).part).map (fun p => asEntry p.record (s.bank b).asid.toNat + 8)

/-- DIRTYCTL as read: its reserved bits read 0 (R16, R357). -/
def State.dirtyWord (s : State) (b : BankId) : Word :=
  BitVec.ofNat 64 (((s.dirtyPlace b).map (fun p => s.readNum p 8)).getD 0) &&& 0x0000FFFFFF000001

/-- The leaves of a table and of those below it, as virtual base, size and physical base. -/
def tableLeaves (s : State) (r : PartRec) : Nat → Nat → Nat → List (Nat × Nat × Nat)
  | 0, va, t => (List.range 512).flatMap (fun i =>
      let e := s.readNum (t + 8 * i) 8
      if fieldAt e 0 1 = 0 ∨ pteMalformed e 0 then []
      else
        let a := va + 4096 * i
        let (vb, _, pb) := leafPage a e 0
        [(a, 4096, pb + (a - vb))])
  | lv + 1, va, t => (List.range 512).flatMap (fun i =>
      let e := s.readNum (t + 8 * i) 8
      let size := 4096 * 512 ^ (lv + 1)
      let a := va + size * i
      if fieldAt e 0 1 = 0 ∨ pteMalformed e (lv + 1) then []
      else if fieldAt e 1 1 = 1 then
        let (vb, _, pb) := leafPage a e (lv + 1)
        [(a, size, pb + (a - vb))]
      else
        let n := fieldAt e 12 36 * 4096
        if inRanges r n 4096 then tableLeaves s r lv a n else [])

/-- The mapped 4 KiB granules of an address space that lie in the partition's memory, as virtual and physical addresses (R366, R402). -/
def State.granules (s : State) (r : PartRec) (asid : Nat) : List (Nat × Nat) :=
  if !asOk s (asEntry r asid) then []
  else
    let root := fieldAt (s.readNum (asEntry r asid) 8) 12 36 * 4096
    if !inRanges r root 4096 then []
    else
      ((tableLeaves s r 4 0 root).flatMap (fun (va, n, pa) => (List.range (n / 4096)).map (fun i => (va + 4096 * i, pa + 4096 * i)))).filter
        (fun (_, pa) => r.holds pa 4096)

/-- The address spaces of a job: its launch context's and those of its banks, saved ones among them. -/
def State.jobAsids (s : State) (p : Part) (j : Job) : List Nat :=
  union (union [p.record.lcasid.getD j.qrec.lrec.ctx 0] (j.banks.map (fun (b, _) => (s.bank b).asid.toNat)))
    ((s.saves.filter (fun v => v.job = j.id)).flatMap (fun v => v.cores.map (fun (_, _, k) => k.asid.toNat)))

/-- Whether a job is on its way to another device: STOP has been given and the job is not yet released (R402). -/
def Part.leaving (p : Part) (job : Nat) : Bool := p.mig.job = job && (p.mig.state = migStopping || p.mig.state = migSent)

/-- Seals and sends a packet; no counter is used twice in a session (R401). -/
def Migration.send (m : Migration) (kind addr : Nat) (payload : List Byte) : Migration :=
  let p : MigPacket := ⟨m.session, m.counter, kind, m.round, addr, payload.length, []⟩
  { m with counter := m.counter + 1,
           pending := m.pending ++ [{ p with sealed := Config.gcmSeal (m.key.getD []) p.iv p.header payload }] }

def Part.sendGranules (p : Part) (s : State) (gs : List (Nat × Nat)) : Part :=
  { p with mig := gs.foldl (fun m (va, pa) => m.send 0 va (s.readMem pa 4096)) p.mig }

/-- Sets EN of DIRTY in an address-space entry; every TLB drops the ASID (R357). -/
def State.trackOn (s : State) (r : PartRec) (asid : Nat) : State :=
  let a := asEntry r asid + 8
  let s := s.performWrite none a (bytesOf 8 (s.readNum a 8 ||| 1)) true
  { s with tlb := s.tlb.filter (fun e => !(e.part = r.partid && e.asid = asid)) }

/-- Every write that a partition has under way is performed: accepted atomics and pending writes. -/
def State.performPart (s : State) (part : Nat) : State :=
  let s := ((s.banks.filter (fun (_, k) => k.part = part)).map Prod.fst).foldl State.performAmons s
  s.performAll (s.pend.filter (fun p => p.part = part))

/-- Harvests the bitmap of an address space (R360): the granules reported, their bits exchanged to 0, and the effect of
DIRTYSYNC. -/
def State.harvest (s : State) (r : PartRec) (asid : Nat) : List (Nat × Nat) × State :=
  match trackOf s r asid with
  | none => ([], s)
  | some bmap =>
    let s := s.performPart r.partid
    let hit := (s.granules r asid).filter (fun (_, pa) =>
      r.holds (bmap * 2 ^ 24 + 8 * (pa / 4096 / 64)) 8 && fieldAt (s.readNum (bmap * 2 ^ 24 + 8 * (pa / 4096 / 64)) 8) (pa / 4096 % 64) 1 = 1)
    let s := hit.foldl (fun s (_, pa) => s.performWrite none (bmap * 2 ^ 24 + 8 * (pa / 4096 / 64)) (bytesOf 8 0) true) s
    (hit, { s with tlb := s.tlb.map (fun t => if t.part = r.partid && t.asid = asid then { t with known := [] } else t) })

/-- The target's firmware as the receiver of migration packets; the model does not name its device. -/
def migPeer : Nat := 2 ^ 23

/-- Sends packets as RMA writes: header, sealed payload with its tag (R401). -/
def State.emitPackets (s : State) (l : List MigPacket) : State :=
  { s with outbox := s.outbox ++ l.map (fun p => .plain migPeer p.addr (some (p.header ++ p.sealed)) (32 + p.sealed.length)) }

/-- Sends the packets of a partition's migration from a counter on. -/
def State.emitFrom (s : State) (part counter : Nat) : State :=
  match s.part part with
  | none => s
  | some p => s.emitPackets (p.mig.pending.filter (fun q => counter ≤ q.counter))

/-- The counter of the next packet. -/
def State.migCounter (s : State) (part : Nat) : Nat := ((s.part part).map (fun p => p.mig.counter)).getD 0

/-- Harvests every address space of the job and sends what was reported. -/
def State.migHarvest (s : State) (part : Nat) (j : Job) : State :=
  match s.part part with
  | none => s
  | some p =>
    ((s.jobAsids p j).foldl (fun s a =>
      let (gs, s) := s.harvest p.record a
      s.modPart part (fun p => p.sendGranules s gs)) s).emitFrom part (s.migCounter part)

def State.modMig (s : State) (part : Nat) (f : Migration → Migration) : State := s.modPart part (fun p => { p with mig := f p.mig })

/-- Sends chunks of 4,096 bytes. -/
def Migration.sendAll (m : Migration) (kind : Nat) (bs : List Byte) : Migration :=
  (chunksOf 4096 (bs.length / 4096 + 1) bs).zipIdx.foldl (fun m (c, i) => m.send kind (4096 * i) c) m

/-- The bytes of a save that stands in memory. -/
def State.saveBytes (s : State) (v : Save) : List Byte :=
  let h := (s.imageReader v.part v.asid v.va 64).getD []
  (s.imageReader v.part v.asid v.va (leField h 24 8)).getD []

/-- The tagged span-store granules of an address space, by virtual address (R346). -/
def State.taggedIn (s : State) (r : PartRec) (asid : Nat) : List Nat :=
  (s.granules r asid).flatMap (fun (va, pa) => (List.range 128).filterMap (fun i => if s.tags.contains (pa / 32 + i) then some (va + 32 * i) else none))

/-- Lays the saves of a job end to end: each team's coordinates with place and length, and the bytes. -/
def packSaves : List (Nat × Nat × List Byte) → Nat → List (Nat × Nat × Nat × Nat) × List Byte
  | [], _ => ([], [])
  | (jd, jc, bs) :: l, off =>
    let (ts, r) := packSaves l (off + bs.length)
    ((jd, jc, off, bs.length) :: ts, bs ++ r)

/-- The records of a context that stand at their dispatch points (R325); those of a graph instance stay with it. -/
def QRec.atPoint (r : QRec) (ctx : Nat) : Bool := r.ready && r.inst.isNone && r.lrec.ctx = ctx

/-- The event bits that the job has set in its own context's vector and that still stand there (R325). -/
def Part.ownBits (p : Part) (j : Job) : List (Nat × Nat) :=
  j.evbits.filter (fun (ctx, bit) => ctx = j.qrec.lrec.ctx && (p.events.toList.getD ctx 0).getLsbD bit)

/-- What a job carries to its target (R402). Every access of the job is over, so that no release covers a write any more. -/
def State.migJobOf (s : State) (p : Part) (j : Job) (teams : List (Nat × Nat × Nat × Nat)) (bytes : Nat) : MigJob :=
  let rank := fun (d : Nat) => j.dies.idxOf d
  { id := j.id, qrec := j.qrec, evbits := p.ownBits j, distaff := j.distaff.map (fun ((d, c), x) => ((rank d, c), x)),
    regions := s.regions.filter (fun r => r.live && r.job = j.id), queue := p.queue.filter (fun r => r.atPoint j.qrec.lrec.ctx),
    tags := (s.jobAsids p j).flatMap (s.taggedIn p.record), teams := teams, bytes := bytes,
    arrivals := j.arrivals.map (fun (a : Arrival) => { a with covers := [] }),
    hub := (s.hub.filter (fun m => m.job = j.id)).map (fun (m : HubMsg) => { m with covers := [] }),
    spindle := s.spindle.filter (fun m => m.job = j.id),
    roots := (s.roots.filter (fun r => r.job = j.id)).map (fun (r : RootRec) => { r with dies := r.dies.map rank }),
    routeTags := (s.routeTags.filter (fun t => t.job = j.id)).map (fun (t : TagUse) => { t with dies := t.dies.map rank }),
    ply := s.ply.filter (fun o => o.job = j.id), scans := s.scans.filter (fun q => q.job = j.id) }

/-- Once every team of the migrating job is saved: the final harvest, the saves and the metadata (R402). -/
def State.migFinish (s : State) (job : Nat) : State :=
  match s.job job with
  | none => s
  | some j =>
    match s.part j.part with
    | none => s
    | some p =>
      if p.mig.state ≠ migStopping ∨ p.mig.job ≠ job ∨ j.banks ≠ [] then s
      else
        let s := s.migHarvest j.part j
        let (teams, body) := packSaves (j.saved.filterMap (fun t =>
          (s.saves.find? (fun v => v.serial = t.serial)).map (fun v => (t.jd, t.jc, s.saveBytes v)))) 0
        let what := s.migJobOf p j teams body.length
        (s.modMig j.part (fun m =>
          { ((m.sendAll 1 body).sendAll 2 (migBytes what)) with state := migSent, sentRecs := what.queue, sentBits := what.evbits })).emitFrom
          j.part (s.migCounter j.part)

/-- OP 1: tracks writes in the job's address spaces and sends round 0. The argument names the job. -/
def State.migStart (s : State) (part arg : Nat) : State :=
  match s.part part, s.job arg with
  | some p, some j =>
    if p.mig.key.isNone ∨ j.part ≠ part ∨ (p.mig.state ≠ migIdle ∧ p.mig.state ≠ migDone) then s
    else
      let as := s.jobAsids p j
      let s := as.foldl (fun s a => s.trackOn p.record a) (s.performPart part)
      let s := s.modPart part (fun p => { p with mig :=
        { p.mig with state := migCopy, round := 0, pending := [], counter := 0, session := p.mig.session + 1, job := arg } })
      (as.foldl (fun s a => s.modPart part (fun p => p.sendGranules s (s.granules p.record a))) s).emitFrom part 0
  | _, _ => s

/-- OP 2: a round. -/
def State.migRound (s : State) (part : Nat) : State :=
  match s.part part with
  | none => s
  | some p =>
    match s.job p.mig.job with
    | none => s
    | some j => if p.mig.state ≠ migCopy then s else (s.modMig part (fun m => { m with round := m.round + 1 })).migHarvest part j

/-- OP 3: every team of the job is pre-empted; the rest follows once they are saved, at once where every team is saved. -/
def State.migStop (s : State) (part : Nat) : State :=
  match s.part part with
  | none => s
  | some p =>
    match s.job p.mig.job with
    | none => s
    | some j =>
      if p.mig.state ≠ migCopy then s
      else
        (j.banks.foldl (fun s (b, _) => s.markPreempt b)
          (s.modMig part (fun m => { m with state := migStopping, round := m.round + 1 }))).migFinish j.id

/-- An answer that came while the bank drained for the pre-emption takes effect when the bank goes on (R382, R402). -/
def State.takeAnswer (s : State) (b : BankId) : State :=
  match (s.bank b).pendTrap with
  | some t =>
    match t.answer with
    | some act => s.applyAnswer b t act
    | none => s
  | none => s

/-- OP 4: before STOP completes, the job runs on at the source: banks still draining go on, and the teams that STOP
saved are runnable. -/
def State.migCancel (s : State) (part : Nat) : State :=
  match s.part part with
  | none => s
  | some p =>
    if p.mig.state = migIdle ∨ p.mig.state = migDone then s
    else
      let s := s.modMig part (fun m => { m with state := migIdle, pending := [], sentRecs := [], sentBits := [] })
      match s.job p.mig.job with
      | none => s
      | some j =>
        if p.mig.state = migCopy then s
        else
          let s := j.banks.foldl (fun s (b, _) => ((s.modBank b (fun k =>
            { k with preemptAt := none, drain := if k.drain = .preempt || k.drain = .parked then .none else k.drain })).pickBank b.core).takeAnswer b) s
          s.modJob j.id (fun j => { j with saved := j.saved.map (fun (t : SavedTeam) => { t with runnable := t.runnable || decide (t.reason = 0x40) }) })

/-- MIGCMD by OP; another OP is not performed and logged. -/
def State.migrate (s : State) (part op arg : Nat) : State :=
  if op = 1 then s.migStart part arg
  else if op = 2 then s.migRound part
  else if op = 3 then s.migStop part
  else if op = 4 then s.migCancel part
  else s.logPart part .windowWrite [0x58, op]

/-! ### Reads (R379) -/

/-- Fewest spare cores left in a cluster (R379, R397). -/
def State.fewestSpares (s : State) : Nat :=
  (s.health.failures.map (fun (_, n) => Config.sparesPerCluster - n)).foldl min Config.sparesPerCluster

def State.retiredMask (s : State) : Nat := s.health.retired.foldl (fun m c => m ||| 2 ^ c) 0

/-- DBGSTAT: of the core that the last DBGCMD named; a halt of the bank that it named goes before one of the other. -/
def State.dbgStat (s : State) (p : Part) : Nat :=
  match p.dbgLast with
  | none => 0
  | some b =>
    let att := (s.core b.core).attached.toNat * 2
    match (s.bank b).halted.or (s.bank ⟨b.core, 1 - b.bank⟩).halted with
    | some h => 1 + att + h.cause * 256 + h.imm * 65536
    | none => att

/-- The 8-byte value of a register; reserved offsets read 0. -/
def State.windowReg (s : State) (p : Part) (off : Nat) : Nat :=
  if off = 0x00 then 0x100 + p.record.partid * 65536
  else if off = 0x08 then p.frbase.toNat
  else if off = 0x10 then p.frctl.toNat
  else if off = 0x18 then p.frtail
  else if off = 0x20 then p.frhead
  else if off = 0x30 then p.drainNs.toNat
  else if off = 0x40 then s.dbgStat p
  else if off = 0x48 then s.health.replace.toNat + 2 * s.trust.recovered.toNat + s.retiredMask * 256 + s.fewestSpares * 2 ^ 40
  else if off = 0x50 then s.health.level + s.health.power * 2 ^ 16 + s.health.temp * 2 ^ 32
  else if off = 0x60 then p.mig.state + p.mig.round % 2 ^ 32 * 16 + (p.mig.pending.filter (fun q => q.kind = 0)).length % 2 ^ 28 * 2 ^ 36
  else 0

/-- A read of 8 or 4 bytes. -/
def State.windowRead (s : State) (part off size : Nat) : Nat :=
  match s.part part with
  | none => 0
  | some p => fieldAt (s.windowReg p (off / 8 * 8)) (8 * (off % 8)) (8 * size)

/-! ### Writes (R379) -/

/-- Whether the fields of a written value obey the register's limits; none for a register that takes no write. -/
def windowValid (p : Part) (off v : Nat) : Bool :=
  if off = 0x08 then fieldAt v 0 12 = 0 && fieldAt v 48 16 = 0 && inRanges p.record v 1
  else if off = 0x10 then fieldAt v 4 59 = 0 && 4 ≤ fieldAt v 0 4 && fieldAt v 0 4 ≤ 12
  else if off = 0x20 then true
  else if off = 0x28 then fieldAt v 50 14 = 0 && fieldAt v 48 2 ≠ 3
  else if off = 0x30 then true
  else if off = 0x38 then fieldAt v 14 50 = 0
  else if off = 0x58 then fieldAt v 4 4 = 0 && 1 ≤ fieldAt v 0 4 && fieldAt v 0 4 ≤ 4
  else false

/-- A write; one that is refused changes nothing and is logged. -/
def State.windowWrite (s : State) (part off size : Nat) (v : Word) : State :=
  match s.part part with
  | none => s
  | some p =>
    let n := v.toNat
    if size ≠ 8 ∨ !windowValid p off n then s.logPart part .windowWrite [off, size, n]
    else if off = 0x08 then s.modPart part (fun p => { p with frbase := v })
    else if off = 0x10 then (s.modPart part (fun p => { p with frctl := v })).flushLost part p.lost.length
    else if off = 0x20 then (s.modPart part (fun p => { p with frhead := n })).flushLost part p.lost.length
    else if off = 0x28 then s.answer part (fieldAt n 0 48) (fieldAt n 48 2)
    else if off = 0x30 then s.modPart part (fun p => { p with drainNs := v })
    else if off = 0x38 then s.debug part ⟨fieldAt n 0 11, fieldAt n 11 1⟩ (fieldAt n 12 2)
    else s.migrate part (fieldAt n 0 4) (fieldAt n 8 56)

/-- Whether an accepted query of the bank is still open. -/
def State.attarBusy (s : State) (b : BankId) : Bool :=
  match (s.bank b).binding with
  | some q => s.scans.any (fun a => a.job = q.job && a.c = (q.jd, q.jc, q.jk))
  | none => false

end Sys2Proof.Machine
end

