-- ==== Sys2Proof/Machine/Mem.lean ====
section
/-! DEFINITION. Loads, stores, atomics, WAITA, fences, PREF and FLUSH of the C stream, and the events that perform weak accesses (R217 to R233). -/
namespace Sys2Proof.Machine

/-- A destination queue must have room before the instruction acts (R28). -/
def Bank.roomFor (k : Bank) : Dst → Ev Unit
  | .reg _ => .ok ()
  | .queue q => if (k.getQ q).length < queueDepth q then .ok () else .error (.wait .push q.toNat 0)

/-- SIZE in bytes. -/
def sizeOf2 (sz : BitVec 2) : Nat := 2 ^ sz.toNat

/-- The loaded value, zero- or sign-extended (R221). -/
def extendLoad (sign : Bool) (bs : List Byte) : Word :=
  let v := natOfBytes bs
  if sign then wordOfInt (sextNat v (8 * bs.length)) else BitVec.ofNat 64 v

/-- Writes what a load read to its destination; `pair` writes two registers (R222). -/
def Bank.loadInto (k : Bank) (rd : Dst) (sign pair : Bool) (bs : List Byte) : Ev Bank :=
  if pair then
    match rd with
    | .reg n => .ok ((k.setX n (BitVec.ofNat 64 (natOfBytes (bs.take 8)))).setX (n + 1) (BitVec.ofNat 64 (natOfBytes (bs.drop 8))))
    | .queue _ => .ok k
  else k.writeDst rd (extendLoad sign bs)

def State.loadDone (s : State) (b : BankId) (rd : Dst) (sign pair : Bool) (bs : List Byte) : Res :=
  ((s.bank b).loadInto rd sign pair bs).andThen s (fun k => .done (s.setBank b k))

/-- A read that another device answers: the value is free, and the request leaves the device (R356). -/
def State.remoteRead (s : State) (dev off n : Nat) : List Byte × State :=
  (bytesOf n (natOfBytes (Config.freeBytes s.tick 0)), { s with outbox := s.outbox ++ [.plain dev off none n] })
def State.remoteWrite (s : State) (dev off : Nat) (bs : List Byte) : State :=
  { s with outbox := s.outbox ++ [.plain dev off (some bs) bs.length] }

/-- What the L1 answers to a load of the C path: its bytes with the bank's own stores laid over them that have not reached the
cluster's cache (R198). The load observes the writes and reads from the releases whose bytes it returns: those that stand there, or
those of an older copy (R203, R204). -/
def State.l1Read (s : State) (b : BankId) (place n : Nat) : Option (List Byte × State) :=
  (s.l1Hit b.core place n).map (fun bs =>
    let v := (List.range n).map (fun i => viewByte (s.ownStores b) (bs.getD i 0) (place + i))
    (v, if v = s.viewC b place n then s.noteRead b place n
        else s.noteSeen b (s.copyWrites b.core place n) (s.copyTags b.core place n)))

/-- Return-free atomics that an access of the bank on their path must follow: the same bytes, or the same line on path N
(R202, R211). -/
def Bank.behind (k : Bank) (path place n : Nat) : Bool :=
  k.amons.any (fun a => a.path = path &&
    (if path = 4 then a.place / 128 = place / 128 else overlap a.place (2 ^ amoTySize a.ty) place n))

/-- Earlier accesses of the C path to the same bytes that a later one must follow (R202): the wait, if any. -/
def Bank.inOrder (k : Bank) (place n : Nat) : Option WaitTag :=
  if k.outLoads.any (fun l => overlap l.place l.size place n) then some .loads
  else if k.behind 0 place n then some .access
  else none

/-- The PC after an instruction of one word, unless a loop ends there (R190). -/
def Bank.nextPc (k : Bank) : Word :=
  let npc := k.c.pc + 8
  if (latestLoop k.lc npc).isSome then BitVec.allOnes 64 else npc

/-- Whether no cache holds a place: scratchpad, an ATTAR page, or one reached through the domain window (R203). -/
def uncachedAt (p : Nat) (x : Option Xlat) : Bool := isSpad p || (x.map (·.attar)).getD false

/-- A read of the C path at its place, past the L1; the cluster's cache takes the line where it may hold it (R197, R205). -/
def State.readPlace (s : State) (b : BankId) (p n : Nat) (x : Option Xlat) : State :=
  let s := s.readPast b p n
  if uncachedAt p x then s else s.dirRead (clusterOf b.core) p

/-- A weak load of `n` bytes (R221, R222): scratchpad, device registers and L1 hits answer at once; a miss leaves the
load outstanding until LOAD_RETURN. -/
def weakLoad (rd : Dst) (m : MemRef) (n : Nat) (sign pair : Bool) (s : State) (b : BankId) : Res :=
  let k := s.bank b
  let e : Ev (Nat × SpanReg) := do
    dirs [] [rd]
    k.roomFor rd
    k.ea m pR n n true true (!pair)
  e.andThen s (fun (addr, r) =>
    match locate s b k.asid.toNat r m.sb.toNat addr false cFAULT_READ with
    | .error t => .trap s t
    | .ok (.reg off, s) => s.loadDone b rd sign pair (bytesOf n (s.windowRead k.part off n))
    | .ok (.remote d o, s) =>
      let (bs, s) := s.remoteRead d o n
      s.loadDone b rd sign pair bs
    | .ok (.place p x, s) =>
      match k.inOrder p n with
      | some tag => .wait s tag 1 0 []
      | none =>
        if s.eccAt p n then .trap s (eccTrap p addr)
        else if uncachedAt p x then (s.readPast b p n).loadDone b rd sign pair (s.viewC b p n)
        else
          match s.l1Read b p n with
          | some (bs, s) => s.loadDone b rd sign pair bs
          | none =>
            .done (s.modBank b (fun k =>
              { k with outLoads := k.outLoads ++ [⟨k.nextAcc, rd, p, n, sign, pair, k.c.pc, k.nextPc, addr⟩], nextAcc := k.nextAcc + 1 })))

def execLd (g : Guard) (sz : BitVec 2) (rd : Dst) (m : MemRef) : State → Out :=
  runC g 1 (weakLoad rd m (sizeOf2 sz) false false)
def execLdSigned (g : Guard) (sz : BitVec 2) (rd : Dst) (m : MemRef) : State → Out :=
  runC g 1 (weakLoad rd m (sizeOf2 sz) true false)
def execLdp (g : Guard) (rd : BitVec 6) (m : MemRef) : State → Out := runC g 1 (weakLoad (.reg rd) m 16 false true)

/-- Whether the instructions from `pc` up to the bank's own are outstanding loads only, the given ones in order. -/
def chained : List OutLoad → Word → Word → Bool
  | [], pc, here => pc = here
  | l :: ls, pc, here => l.pc = pc && chained ls l.next here

/-- Waits in which an instruction has entered nothing: it is left unexecuted by a trap before it. -/
def Wait.plain (w : Wait) : Bool :=
  w.vals = [] && [WaitTag.pop, .push, .loads, .access, .fenceP, .channel, .tensorOwner, .flag, .gidle].contains w.tag

/-- Whether a trap at an outstanding load is precise: nothing younger but the given loads has executed. The instruction that the
stream stands at may wait, or stand at its own trap in a fault drain (R381). -/
def Bank.preciseAt (k : Bank) (l : OutLoad) (younger : List OutLoad) : Bool :=
  chained younger l.next k.c.pc && k.c.run = .running && (k.pendTrap.isSome || (k.c.wait.map Wait.plain).getD true)

/-- A fault in whose place that of an older instruction is taken is discarded; a held one is held again (R381). -/
def Bank.dropTrap (k : Bank) : Bank :=
  match k.pendTrap with
  | none => k
  | some p => { k with pendTrap := none, drain := if k.drain = .fault then .none else k.drain,
                       held := if p.held then ⟨p.cause, p.val, p.aux, 0⟩ :: k.held else k.held }

/-- An uncorrectable error under an outstanding load traps precisely at it (R233, R393): the younger loads are discarded and
execute again, and so does a younger instruction that stands at its trap (R381). -/
def State.loadEcc (s : State) (b : BankId) (l : OutLoad) (younger : List OutLoad) : Option State :=
  if s.eccAt l.place l.size && (s.bank b).preciseAt l younger then
    let s := s.modBank b (fun k => { k.dropTrap with outLoads := k.outLoads.filter (fun q => q.id ≠ l.id && !younger.any (fun y => y.id = q.id)) })
    some (s.trapC b (eccTrap l.place l.va) l.pc false)
  else none

/-- The trap of the oldest outstanding load of a list that stands on an error. -/
def State.loadsEcc (s : State) (b : BankId) : List OutLoad → Option State
  | [] => none
  | l :: ls => (s.loadEcc b l ls).or (s.loadsEcc b ls)

/-- What a load that misses the L1 reads, and its line comes; a load that may have been performed before writes of the bank's own
transfers reads the bytes without them by a free choice (R245). -/
def State.missRead (s : State) (b : BankId) (place n : Nat) : List Byte × State :=
  if s.early b place n ≠ [] ∧ s.free (11 + 16 * place) % 2 = 1 then s.readEarly b place n
  else (s.viewC b place n, (s.readPast b place n).l1Fill b place)

/-- An error that can no longer be reported precisely is held with path C (R393). -/
def State.holdEcc (s : State) (b : BankId) (l : OutLoad) : State :=
  if s.eccAt l.place l.size then s.hold b ⟨cECC_UNCORRECTED, BitVec.ofNat 64 l.va, heldAux 0 0 0, 0⟩ else s

/-- LOAD_RETURN: an outstanding load is performed, unless an older one reads the same bytes (R202). An error that one of the bank's
outstanding loads stands on comes first. -/
def execLoadReturn (b : BankId) (id : Nat) (s : State) : Out :=
  let k := s.bank b
  match k.outLoads.find? (fun l => l.id = id) with
  | none => .next s
  | some l =>
    match s.loadsEcc b k.outLoads with
    | some s => .next s
    | none =>
      if (k.outLoads.takeWhile (fun q => q.id ≠ id)).any (fun q => overlap q.place q.size l.place l.size) then .next s
      else
        let s := s.holdEcc b l
        let (bs, s) := (s.l1Read b l.place l.size).getD (s.missRead b l.place l.size)
        match (s.bank b).loadInto l.dst l.sign l.pair bs with
        | .ok k => .next (s.setBank b { k with outLoads := k.outLoads.filter (fun q => q.id ≠ id) })
        | .error _ => .next s

/-- The bytes stored and the bank after its source was read: a store's data is the low bytes of the source (R221). -/
def Bank.storeData (k : Bank) (src : Src) (n : Nat) : Ev (List Byte × Bank) := do
  dirs [src] []
  let (v, k) ← k.readSrc src
  .ok (bytesOf n v.toNat, k)

/-- A weak store of the given bytes (R199, R214): it waits to be performed, and its translation fault to be held.
`k'` is the bank once its sources are read. -/
def weakStore (m : MemRef) (n : Nat) (dev : Bool) (data : Bank → Ev (List Byte × Bank)) (s : State) (b : BankId) : Res :=
  let k := s.bank b
  let e : Ev (List Byte × Bank × Nat × SpanReg) := do
    let (bs, q) ← data k
    let (addr, r) ← k.ea m pW n n true true dev
    .ok (bs, q, addr, r)
  e.andThen s (fun (bs, q, addr, r) =>
    match locate s b k.asid.toNat r m.sb.toNat addr true cFAULT_WRITE_WEAK with
    | .error t =>
      if t.cause = cFAULT_WRITE_WEAK then
        .done (((s.logFault k.part k.asid.toNat addr).setBank b q).queueStore b addr 0 [] true none
          (some ⟨cFAULT_WRITE_WEAK, BitVec.ofNat 64 addr, 0, 0⟩))
      else .trap s t
    | .ok (.reg off, s) => .done ((s.setBank b q).windowWrite k.part off n (BitVec.ofNat 64 (natOfBytes bs)))
    | .ok (.remote d o, s) => .done ((s.setBank b q).remoteWrite d o bs)
    | .ok (.place p x, s) =>
      match k.inOrder p n with
      | some tag => .wait s tag 1 0 []
      | none => .done ((s.setBank b q).queueStore b addr p bs (uncachedAt p x) none none))

def execSt (g : Guard) (sz : BitVec 2) (rs : Src) (m : MemRef) : State → Out :=
  runC g 1 (weakStore m (sizeOf2 sz) true (fun k => k.storeData rs (sizeOf2 sz)))
def execStp (g : Guard) (rs : BitVec 6) (m : MemRef) : State → Out :=
  runC g 1 (weakStore m 16 false (fun k => .ok (bytesOf 8 (k.getX rs).toNat ++ bytesOf 8 (k.getX (rs + 1)).toNat, k)))

/-- WEAK_STORE_PERFORM: a pending store reaches its point of coherence, or its fault is held (R199, R214). -/
def execWeakStorePerform (id : Nat) (s : State) : Out := .next (s.performStore id)

/-- LDA: performed at once, never from the L1 at `.cl` or wider, and an acquire (R198, R221). At `.co` the L1 may answer where it
holds the line; what it answers from an older copy of the bytes synchronises with the releases of that copy (R203). -/
def execLda (g : Guard) (sz : BitVec 2) (sc : Scope) (rd : Dst) (m : MemRef) : State → Out :=
  runC g 1 (fun s b =>
    let k := s.bank b
    let n := sizeOf2 sz
    let e : Ev (Nat × SpanReg) := do
      dirs [] [rd]
      k.roomFor rd
      k.ea m pR n n true true true
    e.andThen s (fun (addr, r) =>
      match locate s b k.asid.toNat r m.sb.toNat addr false cFAULT_READ with
      | .error t => .trap s t
      | .ok (.reg off, s) => (s.dropL1 b.core sc).loadDone b rd false false (bytesOf n (s.windowRead k.part off n))
      | .ok (.remote d o, s) =>
        let (bs, s) := s.remoteRead d o n
        (s.dropL1 b.core sc).loadDone b rd false false bs
      | .ok (.place p x, s) =>
        match k.inOrder p n with
        | some tag => .wait s tag 1 0 []
        | none =>
          if s.eccAt p n then .trap s (eccTrap p addr)
          else
            let now := s.viewC b p n
            match if sc = .co ∧ !uncachedAt p x then s.l1Read b p n else none with
            | some (bs, s) =>
              (if bs = now then s.acquire b sc p n else s.acquireTags b sc (s.copyTags b.core p n)).loadDone b rd false false bs
            | none => ((s.readPlace b p n x).acquire b sc p n).loadDone b rd false false now))

/-- STL: a release whose own write follows the covered ones (R203, R215, R221). -/
def execStl (g : Guard) (sz : BitVec 2) (sc : Scope) (rs : Src) (m : MemRef) : State → Out :=
  runC g 1 (fun s b =>
    let k := s.bank b
    let n := sizeOf2 sz
    let e : Ev (List Byte × Bank × Nat × SpanReg) := do
      let (bs, q) ← k.storeData rs n
      let (addr, r) ← k.ea m pW n n true true true
      .ok (bs, q, addr, r)
    e.andThen s (fun (bs, _, addr, r) =>
      match locate s b k.asid.toNat r m.sb.toNat addr true cFAULT_WRITE_STRONG with
      | .error t => .trap s t
      | .ok (w, s) =>
        releaseC s b sc (fun s ids =>
          ((s.bank b).storeData rs n).andThen s (fun (_, q) =>
            let t := s.setBank b q
            match w with
            | .reg off => .done (t.windowWrite k.part off n (BitVec.ofNat 64 (natOfBytes bs)))
            | .remote d o => .done (t.remoteWrite d o bs)
            | .place p x =>
              if s.eccAt p n then .trap s (eccTrap p addr)
              else .done (t.queueStore b addr p bs (uncachedAt p x) (some (sc, ids)) none)))))

/-! ### Atomics (R223 to R227) -/

def ordAcq (o : Order) : Bool := o = .acq || o = .ar
def ordRel (o : Order) : Bool := o = .rel || o = .ar

/-- A release on the atomic's own path (R226): path C as every C release; on B and N the stream's accepted atomics of
that path are performed first, on B its lists that are being sorted too (R248), and a held fault is reported. -/
def releaseOn (s : State) (b : BankId) (path : Nat) (sc : Scope) (f : State → List Nat → Res) : Res :=
  if path = 0 then releaseC s b sc f
  else
    let k := s.bank b
    if k.amons.any (fun a => a.path = path) then .wait s .access (2 ^ (path)) 0 []
    else
      let s := if path = 3 then s.performAll (s.bankAlu b) else s
      match (s.bank b).reportHeld with
      | some (t, k) => .heldTrap (s.setBank b k) t
      | none => f s []

/-- The releases that an atomic's write carries: its own, and on path C those of earlier FENCE.rel (R204, R226). -/
def State.atomicTags (s : State) (b : BankId) (path : Nat) (rel : Option (Scope × List Nat)) : List (Scope × List Nat) :=
  if path = 0 then s.carried b rel else rel.toList

/-- An acquire by an atomic on its path (R198, R208, R226): on path C as every acquire; on B and N it orders nothing of path C
but what an engine's release that it read covers. -/
def State.acquireOn (s : State) (b : BankId) (path : Nat) (sc : Scope) (place n : Nat) : State :=
  if path = 0 then s.acquire b sc place n
  else
    let ids := s.releasesAt b sc place n
    (s.observe b (ids.filter (fun i => s.pend.any (fun p => p.id = i && p.path ≠ 0)))).dropL1 b.core sc

/-- Sends an atomic to the device that holds its bytes (R225). -/
def State.remoteAtomic (s : State) (dev off : Nat) (a : RemoteAtomic) : State :=
  { s with outbox := s.outbox ++ [⟨dev, off, none, amoBytes a.ty, some a, none⟩] }

/-- The operands and the place of an atomic: sources read, checks of R217, translation as a write. One that returns its old value
is performed now, behind the accepted ones it must follow; one that does not joins them (R227). -/
def atomicSetup (returns : Bool) (srcs : List Src) (dsts : List Dst) (path : Nat) (perm : Nat) (m : MemRef) (n : Nat) (s : State) (b : BankId)
    (f : State → List Word → Bank → Where → Nat → Res) : Res :=
  let k := s.bank b
  let e : Ev (List Word × Bank × Nat × SpanReg) := do
    dirs srcs dsts
    dsts.forM k.roomFor
    let (vs, q) ← srcs.foldlM (fun (acc : List Word × Bank) src => do
      let (v, q) ← acc.2.readSrc src
      .ok (acc.1 ++ [v], q)) ([], k)
    let (addr, r) ← k.ea m perm n n (path ≠ 3) (path = 3) false
    .ok (vs, q, addr, r)
  e.andThen s (fun (vs, q, addr, r) =>
    match locate s b k.asid.toNat r m.sb.toNat addr true cFAULT_WRITE_STRONG with
    | .error t => .trap s t
    | .ok (w, s) =>
      match w with
      | .place p _ =>
        if s.eccAt p n then .trap s (eccTrap p addr)
        else if path = 0 && k.outLoads.any (fun l => overlap l.place l.size p n) then .wait s .loads 1 0 []
        else if returns && k.behind path p n then .wait s .access (2 ^ path) 0 []
        else f s vs q w addr
      | _ => f s vs q w addr)

/-- An atomic that returns its old value: AMO with its operation, CAS with none (R223). -/
def atomicReturn (path : Nat) (op : Option AmoOp) (ty : AmoTy) (ord : Order) (sc : Scope) (rd : Dst) (m : MemRef)
    (srcs : List Src) (s : State) (b : BankId) : Res :=
  let n := amoBytes ty
  atomicSetup true srcs [rd] path (pR + pW + pA) m n s b (fun s vs q w _ =>
    let ops := vs.map (fun v => v.toNat % 2 ^ (8 * n))
    let go := fun (s : State) (ids : List Nat) =>
      let s := s.modBank b (fun k => { k with q := q.q })
      match w with
      | .place p _ =>
        let s := if path = 0 then s.readPast b p n else s
        let s := if ordAcq ord then s.acquireOn b path sc p n else s
        let rels := s.atomicTags b path (if ordRel ord then some (sc, ids) else none)
        let (old, s) := s.rmw b path p n (rmwNew op ty ops)
        ((s.bank b).writeDst rd (amoExtend ty old)).andThen s (fun k => .done ((s.setBank b k).tagWrite p n b.core rels))
      | .remote d o =>
        let old := natOfBytes (bytesOf n (natOfBytes (Config.freeBytes s.tick 0)))
        let s := s.remoteAtomic d o ⟨path, op, ty, ops.map (BitVec.ofNat 64), true⟩
        let s := if ordAcq ord then s.dropL1 b.core sc else s
        ((s.bank b).writeDst rd (amoExtend ty old)).andThen s (fun k => .done (s.setBank b k))
      | .reg _ => .done s
    if ordRel ord then releaseOn s b path sc go else go s [])

/-- A return-free atomic: complete once accepted (R227). On path C it takes its place among the stream's stores, whose held
faults are reported in program order (R215). -/
def atomicAccept (path : Nat) (op : AmoOp) (ty : AmoTy) (rel : Bool) (sc : Scope) (m : MemRef) (src : Src) (s : State)
    (b : BankId) : Res :=
  let n := amoBytes ty
  atomicSetup false [src] [] path (pW + pA) m n s b (fun s vs q w addr =>
    let v : Word := BitVec.ofNat 64 ((vs.getD 0 0).toNat % 2 ^ (8 * n))
    let go := fun (s : State) (ids : List Nat) =>
      let s := s.modBank b (fun k => { k with q := q.q })
      match w with
      | .place p _ =>
        let a := fun (id : Nat) => (⟨id, path, op, ty, v, p, addr, s.nextStore, s.atomicTags b path (if rel then some (sc, ids) else none)⟩ : Amon)
        .done { s.modBank b (fun k => { k with amons := k.amons ++ [a k.nextAcc], nextAcc := k.nextAcc + 1 }) with nextStore := s.nextStore + 1 }
      | .remote d o => .done (s.remoteAtomic d o ⟨path, some op, ty, [v], false⟩)
      | .reg _ => .done s
    if rel then releaseOn s b path sc go else go s [])

def execAmo (g : Guard) (op : AmoOp) (ty : AmoTy) (ord : Order) (sc : Scope) (rd : Dst) (m : MemRef) (rs2 : Src) : State → Out :=
  runC g 2 (atomicReturn 0 (some op) ty ord sc rd m [rs2])
def execAmoB (g : Guard) (op : AmoOp) (ty : AmoTy) (ord : Order) (sc : Scope) (rd : Dst) (m : MemRef) (rs2 : Src) : State → Out :=
  runC g 2 (atomicReturn 3 (some op) ty ord sc rd m [rs2])
def execAmoN (g : Guard) (op : AmoOp) (ty : AmoTy) (ord : Order) (sc : Scope) (rd : Dst) (m : MemRef) (rs2 : Src) : State → Out :=
  runC g 2 (atomicReturn 4 (some op) ty ord sc rd m [rs2])
def execAmon (g : Guard) (op : AmoOp) (ty : AmoTy) (rel : Bool) (sc : Scope) (m : MemRef) (rs2 : Src) : State → Out :=
  runC g 2 (atomicAccept 0 op ty rel sc m rs2)
def execAmonB (g : Guard) (op : AmoOp) (ty : AmoTy) (rel : Bool) (sc : Scope) (m : MemRef) (rs2 : Src) : State → Out :=
  runC g 2 (atomicAccept 3 op ty rel sc m rs2)
def execAmonN (g : Guard) (op : AmoOp) (ty : AmoTy) (rel : Bool) (sc : Scope) (m : MemRef) (rs2 : Src) : State → Out :=
  runC g 2 (atomicAccept 4 op ty rel sc m rs2)

def casTy (wide : Bool) : AmoTy := if wide then .n64 else .n32

def execCas (g : Guard) (wide : Bool) (ord : Order) (sc : Scope) (rd : Dst) (m : MemRef) (rs2 rs3 : Src) : State → Out :=
  runC g 2 (atomicReturn 0 none (casTy wide) ord sc rd m [rs2, rs3])
def execCasB (g : Guard) (wide : Bool) (ord : Order) (sc : Scope) (rd : Dst) (m : MemRef) (rs2 rs3 : Src) : State → Out :=
  runC g 2 (atomicReturn 3 none (casTy wide) ord sc rd m [rs2, rs3])

/-- AMON_PERFORM: an accepted atomic is performed, in arrival order behind those it must follow (R211, R227). -/
def execAmonPerform (b : BankId) (id : Nat) (s : State) : Out :=
  let k := s.bank b
  match k.amons.find? (fun a => a.id = id) with
  | none => .next s
  | some a =>
    let older := k.amons.takeWhile (fun q => q.id ≠ id)
    if ({ k with amons := older } : Bank).behind a.path a.place (amoBytes a.ty) then .next s
    else
      let s := s.performAmon b a
      match k.binding with
      | some c => .next (s.finishAbort c.job)
      | none => .next s

/-! ### WAITA (R228, R229) -/

/-- The condition of WAITA at its access width. -/
def waitaHolds (cc : Cond) (wide : Bool) (v c : Word) : Bool :=
  if wide then condHolds cc v c else condHolds32 cc (v.setWidth 32) (c.setWidth 32)

/-- The comparand and deadline of a WAITA: those saved with its wait, or its sources, read and popped once (R228). -/
def Bank.waitaOperands (k : Bank) (rs2 rs3 : Src) : Ev (Word × Word × Bank) :=
  match k.c.wait with
  | some ⟨.waita, _, _, [c, dl], _⟩ => .ok (c, dl, k)
  | _ => do
    let (c, k) ← k.readSrc rs2
    let (dl, k) ← k.readSrc rs3
    .ok (c, dl, k)

/-- Operands that a stopped wait had popped stand again at the heads of their queues: a precise trap leaves its instruction
unexecuted, with nothing popped (R28, R229). DEDUCED, log entry 88. -/
def Bank.giveBack (k : Bank) : List (Src × Word) → Bank
  | [] => k
  | (.queue q false, v) :: l => let k := k.giveBack l; k.setQ q (v :: k.getQ q)
  | _ :: l => k.giveBack l

/-- A WAITA traps: at its first read nothing is popped yet; at a later one its operands go back. -/
def waitaTrap (rs2 rs3 : Src) (s : State) (b : BankId) (t : TrapInfo) : Res :=
  match (s.bank b).c.wait with
  | some ⟨.waita, _, _, [c, dl], _⟩ => .trap (s.modBank b (fun k => k.giveBack [(rs2, c), (rs3, dl)])) t
  | _ => .trap s t

def execWaita (g : Guard) (cc : Cond) (wide : Bool) (sc : Option Scope) (rd : Dst) (m : MemRef) (rs2 rs3 : Src) : State → Out :=
  runC g 2 (fun s b =>
    let k := s.bank b
    let n := if wide then 8 else 4
    let waiting := (k.c.wait.map (fun w => decide (w.tag = .waita))).getD false
    let e : Ev (Word × Word × Bank × Nat × SpanReg) := do
      dirs [rs2, rs3] [rd]
      k.roomFor rd
      let (c, dl, q) ← k.waitaOperands rs2 rs3
      let (addr, r) ← k.ea m pR n n true true false
      .ok (c, dl, q, addr, r)
    e.andThen s (fun (c, dl, q, addr, r) =>
      match locate s b k.asid.toNat r m.sb.toNat addr false cFAULT_READ with
      | .error t => waitaTrap rs2 rs3 s b t
      | .ok (w, s) =>
        let stop : Option Res := match w with
          | .place p _ =>
            if s.eccAt p n then some (waitaTrap rs2 rs3 s b (eccTrap p addr))
            else if waiting then none
            else (k.inOrder p n).map (fun tag => .wait s tag 1 0 [])
          | _ => none
        match stop with
        | some r => r
        | none =>
          let (bs, s) := match w with
            | .place p x => (s.viewC b p n, s.readPlace b p n x)
            | .remote d o => s.remoteRead d o n
            | .reg off => (bytesOf n (s.windowRead k.part off n), s)
          let v : Word := BitVec.ofNat 64 (natOfBytes bs)
          let s := s.modBank b (fun k => { k with q := q.q })
          if waitaHolds cc wide v c || (rs3 ≠ .reg 0 && dl.toNat ≤ s.dtc) then
            let s := match sc, w with
              | some sc, .place p _ => s.acquire b sc p n
              | some sc, _ => s.dropL1 b.core sc
              | none, _ => s
            ((s.bank b).writeDst rd v).andThen s (fun k => .done (s.setBank b k))
          else .wait s .waita 0 addr [c, dl]))

/-! ### Fences (R204, R209, R230, R231) -/

/-- The acquire part of a FENCE: the releases that earlier reads read from, those mutually in scope (R201, R204). -/
def State.fenceAcquire (s : State) (b : BankId) (sc : Scope) : State :=
  let l := (s.bank b).acqPending
  let s := s.modBank b (fun k => { k with acqPending := l.filter (fun (c, rs, _) => !mutualScope sc rs b.core c) })
  (s.observe b (coversOf b.core sc l)).dropL1 b.core sc

/-- Scopes from the narrowest (R9). -/
def scopeRank : Scope → Nat
  | .co => 0
  | .cl => 1
  | .di => 2
  | .dv => 3
  | .dm => 4

/-- The release part of a FENCE: every later write of the stream carries it, beside the wider ones of earlier fences; what a
narrower one covered, this one covers too (R204). -/
def Bank.fenceRelease (k : Bank) (sc : Scope) (ids : List Nat) : Bank :=
  { k with relFence := (sc, ids) :: k.relFence.filter (fun (rs, _) => scopeRank sc < scopeRank rs) }

def execFence (g : Guard) (o : Order) (sc : Scope) : State → Out :=
  runC g 1 (fun s b =>
    let k := s.bank b
    if ordRel o then
      releaseC s b sc (fun s ids =>
        let s := s.modBank b (fun k => k.fenceRelease sc ids)
        .done (if ordAcq o then s.fenceAcquire b sc else s))
    else if k.outLoads ≠ [] then .wait s .loads 1 0 []
    else
      match k.reportHeld with
      | some (t, k) => .heldTrap (s.setBank b k) t
      | none => .done (s.fenceAcquire b sc))

/-- Whether accesses of the paths of a mask, started by earlier instructions of the bank's C stream, are still open
(R209). Stores of path C are not counted: the fence performs them. -/
def State.pathsOpen (s : State) (b : BankId) (mask : BitVec 6) : Bool :=
  let k := s.bank b
  (mask.getLsbD 0 && (k.outLoads ≠ [] || k.amons.any (fun a => a.path = 0)))
    || (mask.getLsbD 2 && k.chan.toList.any (fun c => c.xfers.any (fun x => !x.finished)))
    || (mask.getLsbD 3 && k.amons.any (fun a => a.path = 3)) || (mask.getLsbD 4 && k.amons.any (fun a => a.path = 4))
    || (mask.getLsbD 5 && s.attarBusy b)

/-- Performs every pending store that the stream made or has observed: a later read of another path is not to return
an older value (R205, R209). -/
def State.performCovered (s : State) (b : BankId) : State := (s.coveredBy b).foldl (fun s id => s.performStore id) s

/-- Performs what the engines of a bank have written on the paths of a mask, path C apart (R209). The commands of the C stream
write on X and B; its G stream's writes on S do not count. -/
def State.performEngines (s : State) (b : BankId) (mask : BitVec 6) : State :=
  s.performAll (s.pend.filter (fun p => p.bank = b && 2 ≤ p.path && mask.getLsbD p.path))

def execFenceP (g : Guard) (mask : BitVec 6) : State → Out :=
  runC g 1 (fun s b =>
    if s.pathsOpen b mask then .wait s .fenceP mask.toNat 0 []
    else
      let s := s.performEngines b mask
      let s := if mask.getLsbD 0 then s.performCovered b else s
      match (s.bank b).reportHeld with
      | some (t, k) => .heldTrap (s.setBank b k) t
      | none => .done (if mask.getLsbD 0 && (mask.getLsbD 4 || mask.getLsbD 5) then s.dropL1 b.core .cl else s))

/-! ### Prefetch and flush (R232) -/

def execPref (g : Guard) (m : MemRef) : State → Out :=
  runC g 1 (fun s b =>
    let k := s.bank b
    (k.ea m pR 1 1 true true false).andThen s (fun (addr, r) =>
      match locate s b k.asid.toNat r m.sb.toNat addr false cFAULT_READ with
      | .error t => if t.cause = cSPAN_PERM then .trap s t else .done s
      | .ok (.place p x, s) => .done (if uncachedAt p x then s else s.l1Fill b p)
      | .ok (_, s) => .done s))

/-- What FLUSH moves: the line leaves the L1; at `.di` and wider the cluster's copy is written back. -/
def State.flushLine (s : State) (b : BankId) (place : Nat) (sc : Scope) : State :=
  let s := { s with l1 := s.l1.filter (fun l => !(l.core = b.core && l.line = place / 128)) }
  if sc = .co ∨ sc = .cl then s
  else
    (s.performAll ((s.inCluster (clusterOf b.core)).filter (fun p => p.place / 128 = place / 128))).dirLeave (clusterOf b.core) place

def execFlush (g : Guard) (sc : Scope) (m : MemRef) : State → Out :=
  runC g 1 (fun s b =>
    let k := s.bank b
    (k.ea m pR 1 1 true true false).andThen s (fun (addr, r) =>
      match locate s b k.asid.toNat r m.sb.toNat addr false cFAULT_READ with
      | .error t => if t.cause = cSPAN_STORE then .done s else .trap s t
      | .ok (.place p x, s) => .done (if uncachedAt p x then s else s.flushLine b p sc)
      | .ok (_, s) => .done s))

/-! ### Wakes -/

/-- A wait's end: when the stream waits with one of the tags, it issues again next, and its instruction decides
whether it completes (log entry 6). -/
def State.wake (s : State) (i : StreamId) (tags : List WaitTag) : State :=
  match ((s.bank i.bank).stream i.kind).wait with
  | some w => if tags.contains w.tag then { s with turns := .issue i :: s.turns } else s
  | none => s

/-- FENCE_P_COMPLETE (R209). -/
def execFencePComplete (b : BankId) (s : State) : Out := .next (s.wake ⟨b, .c⟩ [.fenceP, .access])
/-- WAITA_WAKE (R228). -/
def execWaitaWake (b : BankId) (s : State) : Out := .next (s.wake ⟨b, .c⟩ [.waita])
/-- WAIT_DEADLINE (R228, R284, R320): the DTC has passed the deadline that the wait holds. -/
def execWaitDeadline (b : BankId) (s : State) : Out :=
  match (s.bank b).c.wait with
  | some w =>
    if (w.tag = .waita || w.tag = .flag || w.tag = .evwait) && (w.vals.getLast?.map (fun d => decide (d.toNat ≤ s.dtc))).getD false
    then .next (s.wake ⟨b, .c⟩ [w.tag]) else .next s
  | none => .next s

end Sys2Proof.Machine
end

