-- ==== Sys2Proof/Machine/Scalar.lean ====
section
/-! DEFINITION. Integer, immediate, condition, control and loop instructions of the C stream (R173 to R181, R186 to R192). -/
namespace Sys2Proof.Machine

/-! ### Integer operations (R175 to R178) -/

/-- Bits [127:64] of the signed product. -/
def mulHighS (a b : Word) : Word := BitVec.ofInt 64 (a.toInt * b.toInt / 2 ^ 64)
/-- Bits [127:64] of the unsigned product. -/
def mulHighN (a b : Word) : Word := BitVec.ofNat 64 (a.toNat * b.toNat / 2 ^ 64)

/-- Division of R177. -/
def divSigned (a b : Word) : Word := if b = 0 then BitVec.allOnes 64 else BitVec.ofInt 64 (a.toInt.tdiv b.toInt)
def divUnsigned (a b : Word) : Word := if b = 0 then BitVec.allOnes 64 else BitVec.ofNat 64 (a.toNat / b.toNat)
def remSigned (a b : Word) : Word := if b = 0 then a else BitVec.ofInt 64 (a.toInt.tmod b.toInt)
def remUnsigned (a b : Word) : Word := if b = 0 then a else BitVec.ofNat 64 (a.toNat % b.toNat)

/-- Shifts of R176: counts at or above 64 give what shifting one position at a time gives. -/
def shiftLeft (a b : Word) : Word := if 64 ≤ b.toNat then 0 else a <<< b.toNat
def shiftRight (a b : Word) : Word := if 64 ≤ b.toNat then 0 else a >>> b.toNat
def shiftArith (a b : Word) : Word := if 64 ≤ b.toNat then (if a.msb then BitVec.allOnes 64 else 0) else a.sshiftRight b.toNat
def rotateLeft (a b : Word) : Word := a.rotateLeft (b.toNat % 64)

def minSigned (a b : Word) : Word := if a.toInt ≤ b.toInt then a else b
def minUnsigned (a b : Word) : Word := if a.toNat ≤ b.toNat then a else b
def maxSigned (a b : Word) : Word := if a.toInt ≤ b.toInt then b else a
def maxUnsigned (a b : Word) : Word := if a.toNat ≤ b.toNat then b else a

/-- Leading zero bits of the low `n` bits of a number. -/
def leadingZeros : Nat → Nat → Nat
  | 0, _ => 0
  | n + 1, v => if v / 2 ^ n % 2 = 1 then 0 else 1 + leadingZeros n v
/-- Trailing zero bits, at most `n`. -/
def trailingZeros : Nat → Nat → Nat
  | 0, _ => 0
  | n + 1, v => if v % 2 = 1 then 0 else 1 + trailingZeros n (v / 2)
def onesCount : Nat → Nat → Nat
  | 0, _ => 0
  | n + 1, v => v % 2 + onesCount n (v / 2)

def clzWord (a : Word) : Word := BitVec.ofNat 64 (leadingZeros 64 a.toNat)
def ctzWord (a : Word) : Word := BitVec.ofNat 64 (trailingZeros 64 a.toNat)
def popcWord (a : Word) : Word := BitVec.ofNat 64 (onesCount 64 a.toNat)
/-- Byte k moves to byte 7 − k. -/
def bswapWord (a : Word) : Word := BitVec.ofNat 64 (natOfBytes (bytesOf 8 a.toNat).reverse)

def execAdd (g : Guard) (rd : Dst) (ra rb : Src) : State → Out := pureC g 1 (fun k => k.op2 rd ra rb (· + ·))
def execSub (g : Guard) (rd : Dst) (ra rb : Src) : State → Out := pureC g 1 (fun k => k.op2 rd ra rb (· - ·))
def execMul (g : Guard) (rd : Dst) (ra rb : Src) : State → Out := pureC g 1 (fun k => k.op2 rd ra rb (· * ·))
def execMulhS (g : Guard) (rd : Dst) (ra rb : Src) : State → Out := pureC g 1 (fun k => k.op2 rd ra rb mulHighS)
def execMulhN (g : Guard) (rd : Dst) (ra rb : Src) : State → Out := pureC g 1 (fun k => k.op2 rd ra rb mulHighN)
def execDivS (g : Guard) (rd : Dst) (ra rb : Src) : State → Out := pureC g 1 (fun k => k.op2 rd ra rb divSigned)
def execDivN (g : Guard) (rd : Dst) (ra rb : Src) : State → Out := pureC g 1 (fun k => k.op2 rd ra rb divUnsigned)
def execRemS (g : Guard) (rd : Dst) (ra rb : Src) : State → Out := pureC g 1 (fun k => k.op2 rd ra rb remSigned)
def execRemN (g : Guard) (rd : Dst) (ra rb : Src) : State → Out := pureC g 1 (fun k => k.op2 rd ra rb remUnsigned)
def execAnd (g : Guard) (rd : Dst) (ra rb : Src) : State → Out := pureC g 1 (fun k => k.op2 rd ra rb (· &&& ·))
def execOr (g : Guard) (rd : Dst) (ra rb : Src) : State → Out := pureC g 1 (fun k => k.op2 rd ra rb (· ||| ·))
def execXor (g : Guard) (rd : Dst) (ra rb : Src) : State → Out := pureC g 1 (fun k => k.op2 rd ra rb (· ^^^ ·))
def execAndn (g : Guard) (rd : Dst) (ra rb : Src) : State → Out := pureC g 1 (fun k => k.op2 rd ra rb (fun a b => a &&& ~~~b))
def execShl (g : Guard) (rd : Dst) (ra rb : Src) : State → Out := pureC g 1 (fun k => k.op2 rd ra rb shiftLeft)
def execShr (g : Guard) (rd : Dst) (ra rb : Src) : State → Out := pureC g 1 (fun k => k.op2 rd ra rb shiftRight)
def execSra (g : Guard) (rd : Dst) (ra rb : Src) : State → Out := pureC g 1 (fun k => k.op2 rd ra rb shiftArith)
def execRol (g : Guard) (rd : Dst) (ra rb : Src) : State → Out := pureC g 1 (fun k => k.op2 rd ra rb rotateLeft)
def execMinS (g : Guard) (rd : Dst) (ra rb : Src) : State → Out := pureC g 1 (fun k => k.op2 rd ra rb minSigned)
def execMinN (g : Guard) (rd : Dst) (ra rb : Src) : State → Out := pureC g 1 (fun k => k.op2 rd ra rb minUnsigned)
def execMaxS (g : Guard) (rd : Dst) (ra rb : Src) : State → Out := pureC g 1 (fun k => k.op2 rd ra rb maxSigned)
def execMaxN (g : Guard) (rd : Dst) (ra rb : Src) : State → Out := pureC g 1 (fun k => k.op2 rd ra rb maxUnsigned)
def execClz (g : Guard) (rd : Dst) (ra : Src) : State → Out := pureC g 1 (fun k => k.op1 rd ra clzWord)
def execCtz (g : Guard) (rd : Dst) (ra : Src) : State → Out := pureC g 1 (fun k => k.op1 rd ra ctzWord)
def execPopc (g : Guard) (rd : Dst) (ra : Src) : State → Out := pureC g 1 (fun k => k.op1 rd ra popcWord)
def execBswap (g : Guard) (rd : Dst) (ra : Src) : State → Out := pureC g 1 (fun k => k.op1 rd ra bswapWord)

/-- bits(a, POS + W − 1, POS) (R178); `w` is W − 1. -/
def extractField (pos w : BitVec 6) (a : Word) : Word := BitVec.ofNat 64 (fieldAt a.toNat pos.toNat (w.toNat + 1))
/-- Bits [POS + W − 1 : POS] of `d` replaced by bits [W − 1 : 0] of `a` (R178). -/
def insertField (pos w : BitVec 6) (d a : Word) : Word :=
  let mask : Word := BitVec.ofNat 64 ((2 ^ (w.toNat + 1) - 1) * 2 ^ pos.toNat)
  (d &&& ~~~mask) ||| ((a <<< pos.toNat) &&& mask)
def signExtendField (w : BitVec 6) (a : Word) : Word := wordOfInt (sextNat a.toNat (w.toNat + 1))
def zeroExtendField (w : BitVec 6) (a : Word) : Word := BitVec.ofNat 64 (fieldAt a.toNat 0 (w.toNat + 1))

def execExtr (g : Guard) (rd : Dst) (ra : Src) (pos w : BitVec 6) : State → Out :=
  pureC g 1 (fun k => k.op1 rd ra (extractField pos w))
def execIns (g : Guard) (rd : BitVec 6) (ra : Src) (pos w : BitVec 6) : State → Out :=
  pureC g 1 (fun k => k.op1 (.reg rd) ra (insertField pos w (k.getX rd)))
def execSext (g : Guard) (rd : Dst) (ra : Src) (w : BitVec 6) : State → Out := pureC g 1 (fun k => k.op1 rd ra (signExtendField w))
def execZext (g : Guard) (rd : Dst) (ra : Src) (w : BitVec 6) : State → Out := pureC g 1 (fun k => k.op1 rd ra (zeroExtendField w))

/-! ### Immediates (R56, R179): ADDI, ANDI and CMPI sign-extend; ORI and XORI zero-extend -/

def execAddi (g : Guard) (rd : Dst) (ra : Src) (imm : BitVec 32) : State → Out :=
  pureC g 1 (fun k => k.op1 rd ra (· + imm.signExtend 64))
def execAndi (g : Guard) (rd : Dst) (ra : Src) (imm : BitVec 32) : State → Out :=
  pureC g 1 (fun k => k.op1 rd ra (· &&& imm.signExtend 64))
def execOri (g : Guard) (rd : Dst) (ra : Src) (imm : BitVec 32) : State → Out :=
  pureC g 1 (fun k => k.op1 rd ra (· ||| imm.setWidth 64))
def execXori (g : Guard) (rd : Dst) (ra : Src) (imm : BitVec 32) : State → Out :=
  pureC g 1 (fun k => k.op1 rd ra (· ^^^ imm.setWidth 64))
def execShli (g : Guard) (rd : Dst) (ra : Src) (sh : BitVec 6) : State → Out :=
  pureC g 1 (fun k => k.op1 rd ra (fun a => shiftLeft a (sh.setWidth 64)))
def execShri (g : Guard) (rd : Dst) (ra : Src) (sh : BitVec 6) : State → Out :=
  pureC g 1 (fun k => k.op1 rd ra (fun a => shiftRight a (sh.setWidth 64)))
def execSrai (g : Guard) (rd : Dst) (ra : Src) (sh : BitVec 6) : State → Out :=
  pureC g 1 (fun k => k.op1 rd ra (fun a => shiftArith a (sh.setWidth 64)))
def execMovi (g : Guard) (rd : Dst) (imm : BitVec 32) : State → Out :=
  pureC g 1 (fun k => do dirs [] [rd]; k.writeDst rd (imm.signExtend 64))
def execMovhi (g : Guard) (rd : BitVec 6) (imm : BitVec 32) : State → Out :=
  pureC g 1 (fun k => .ok (k.setX rd (imm ++ (k.getX rd).setWidth 32)))

/-! ### Conditions (R180, R181) -/

def execCmpi (g : Guard) (cc : Cond) (cd : BitVec 3) (ra : Src) (imm : BitVec 32) : State → Out :=
  pureC g 1 (fun k => do
    dirs [ra] []
    let (a, k) ← k.readSrc ra
    .ok (k.setC cd (condHolds cc a (imm.signExtend 64))))
def execCmp (g : Guard) (cc : Cond) (cd : BitVec 3) (ra rb : Src) : State → Out :=
  pureC g 1 (fun k => k.opC cd ra rb (condHolds cc))
def execSel (g : Guard) (rd : Dst) (ra rb : Src) (cs : BitVec 3) : State → Out :=
  pureC g 1 (fun k => k.op2 rd ra rb (fun a b => if condReg k.cC cs then a else b))
def execCand (g : Guard) (cd ca cb : BitVec 3) : State → Out :=
  pureC g 1 (fun k => .ok (k.setC cd (condReg k.cC ca && condReg k.cC cb)))
def execCor (g : Guard) (cd ca cb : BitVec 3) : State → Out :=
  pureC g 1 (fun k => .ok (k.setC cd (condReg k.cC ca || condReg k.cC cb)))
def execCnot (g : Guard) (cd ca : BitVec 3) : State → Out := pureC g 1 (fun k => .ok (k.setC cd (!condReg k.cC ca)))

/-! ### Control (R186, R187) -/

/-- PC + 8 × sext(OFF, 26). -/
def relTarget (pc : Word) (off : BitVec 26) : Word := pc + off.signExtend 64 * 8

def execBr (g : Guard) (off : BitVec 26) : State → Out :=
  runC g 1 (fun s b => goTo s b (relTarget (s.bank b).c.pc off) true id)

def execBc (g : Guard) (cc : Cond) (ra rb : Src) (off : BitVec 26) : State → Out :=
  runC g 1 (fun s b =>
    let k := s.bank b
    let e : Ev (Word × Word × Bank) := do
      dirs [ra, rb] []
      let (u, k) ← k.readSrc ra
      let (v, k) ← k.readSrc rb
      .ok (u, v, k)
    e.andThen s (fun (u, v, q) =>
      if condHolds cc u v then goTo s b (relTarget k.c.pc off) true (fun _ => q) else .done (s.setBank b q)))

def execCall (g : Guard) (l : BitVec 6) (off : BitVec 26) : State → Out :=
  runC g 1 (fun s b =>
    let pc := (s.bank b).c.pc
    goTo s b (relTarget pc off) false (fun k => k.setX l (pc + 8)))

/-- A transfer to a register target; `link` is written when it takes place. -/
def jumpTo (ra : Src) (link : Option (BitVec 6)) (s : State) (b : BankId) : Res :=
  let k := s.bank b
  let e : Ev (Word × Bank) := do dirs [ra] []; k.readSrc ra
  e.andThen s (fun (t, q) => transferTo s b t link.isNone (fun _ =>
    match link with
    | some l => q.setX l (k.c.pc + 8)
    | none => q))

def execJr (g : Guard) (ra : Src) : State → Out := runC g 1 (jumpTo ra none)
def execCallr (g : Guard) (ra : Src) (l : BitVec 6) : State → Out := runC g 1 (jumpTo ra (some l))
def execRet (g : Guard) (ra : Src) : State → Out := runC g 1 (jumpTo ra none)

/-! ### Hardware loops (R188, R189) -/

/-- A value that must fit an s32: TRAPAUX names the lowest bit of [63:32] that differs from bit 31 (R189). -/
def checkS32 (v : Word) : Ev Unit :=
  if v = (v.setWidth 32).signExtend 64 then .ok ()
  else
    let d := v ^^^ (v.setWidth 32).signExtend 64
    raise cILLEGAL_FIELD v (BitVec.ofNat 64 (256 + trailingZeros 64 d.toNat))

/-- max(0, ceil(bound / step)), exact. -/
def loopCount (bnd stp : Int) : Nat := (-((-bnd).fdiv stp)).toNat

/-- LOOP on the bank: the new bank with the counter's record replaced, and whether the body is entered. -/
def Bank.loopStart (k : Bank) (lcn : BitVec 2) (ra rb : Src) (off : BitVec 26) : Ev (Bank × Word × Bool) := do
  dirs [ra, rb] []
  let (bnd, k) ← k.readSrc ra
  let (stp, k) ← k.readSrc rb
  checkS32 bnd
  checkS32 stp
  if stp = 0 then raise cLOOP_STEP_ZERO bnd 0
  else
    let n := loopCount bnd.toInt stp.toInt
    let stop := relTarget k.c.pc off
    let old := k.lc[lcn.toNat]'(lcn.isLt)
    if n = 0 then .ok ({ k with lc := k.lc.set lcn.toNat (deactivate old) lcn.isLt }, stop, false)
    else
      let newest := 1 + k.lc.toList.foldl (fun m l => max m l.order) 0
      .ok ({ k with lc := k.lc.set lcn.toNat ⟨0, true, k.c.pc + 8, stop, n, stp.toInt, newest⟩ lcn.isLt }, stop, true)

/-- LOOP (R189). It is no taken transfer: a loop that ends where its fall-through goes loops back there (R190). -/
def execLoop (g : Guard) (lcn : BitVec 2) (ra rb : Src) (off : BitVec 26) : State → Out :=
  runC g 1 (fun s b =>
    let k := s.bank b
    (k.loopStart lcn ra rb off).andThen s (fun (q, stop, enter) =>
      .jumped (s.setBank b (q.fallC (if enter then k.c.pc + 8 else stop)))))

end Sys2Proof.Machine
end

