-- ==== Sys2Proof/Machine/Progress.lean ====
section
/-! DEFINITION. Queues, flags, hanks, rendezvous, YIELD and END, and the events that end their waits (R277 to R300). -/
namespace Sys2Proof.Machine

/-! ### Operand values that break a rule (R143) -/

/-- The lowest bit set in a field whose bits are forbidden. -/
def forbid (v lo n : Nat) : Option Nat :=
  if fieldAt v lo n = 0 then none else some (lo + trailingZeros n (fieldAt v lo n))

/-- A bound broken by a field, named by its lowest bit. -/
def outside (bad : Bool) (bit : Nat) : Option Nat := if bad then some bit else none

/-- R143: ILLEGAL_FIELD with the value and 256 + the lowest offending bit. -/
def r143 (v : Word) (offs : List (Option Nat)) : Ev Unit :=
  match offs.filterMap id with
  | [] => .ok ()
  | b :: bs => raise cILLEGAL_FIELD v (BitVec.ofNat 64 (256 + bs.foldl min b))

/-! ### Queues (R281) -/

def execQpush (g : Guard) (q : BitVec 3) (ra : Src) : State → Out := pureC g 1 (fun k => k.op1 (.queue q) ra id)
def execQpop (g : Guard) (rd : BitVec 6) (q : BitVec 3) : State → Out := pureC g 1 (fun k => k.op1 (.reg rd) (.queue q false) id)
def execQpeek (g : Guard) (rd : BitVec 6) (q : BitVec 3) : State → Out := pureC g 1 (fun k => k.op1 (.reg rd) (.queue q true) id)
def execQpeekCnt (g : Guard) (rd : BitVec 6) (q : BitVec 3) : State → Out :=
  pureC g 1 (fun k => .ok (k.setX rd (BitVec.ofNat 64 (k.getQ q).length)))

/-- QUEUE_WAKE (R280). -/
def execQueueWake (i : StreamId) (s : State) : Out := .next (s.wake i [.pop, .push])

/-! ### Flags (R283, R284) -/

/-- A G stream that waits at GIDLE notes a flag write of the C stream (R170). -/
def Bank.noteFlagWrite (k : Bank) : Bank :=
  match k.g.wait with
  | some w => if w.tag = .gidle then { k with g := { k.g with wait := some { w with vals := [1] } } } else k
  | none => k

/-- FLSET and FLCLR: every earlier instruction of the C stream has completed (R284). -/
def flagWrite (fl : BitVec 4) (v : Bool) (s : State) (b : BankId) : Res :=
  if (s.bank b).outLoads ≠ [] then .wait s .loads 1 0 [] else .done (s.modBank b (fun k => (k.setFl fl v []).noteFlagWrite))

def execFlset (g : Guard) (fl : BitVec 4) : State → Out := runC g 1 (flagWrite fl true)
def execFlclr (g : Guard) (fl : BitVec 4) : State → Out := runC g 1 (flagWrite fl false)

/-- FLWAIT; `ra` = x0 means no deadline (R284). The flag of a GSIG.D hands the S-path writes that it covers over to the C
stream (R168, R210). -/
def execFlwait (g : Guard) (rd ra : BitVec 6) (v : Bool) (fl : BitVec 4) : State → Out :=
  runC g 1 (fun s b =>
    let k := s.bank b
    if k.getFl fl = v then .done ((s.observe b (k.flD[fl.toNat]'(fl.isLt))).modBank b (fun k => k.setX rd 1))
    else if ra ≠ 0 ∧ (k.getX ra).toNat ≤ s.dtc then .done (s.setBank b (k.setX rd 0))
    else .wait s .flag fl.toNat v.toNat (if ra = 0 then [] else [k.getX ra]))

/-- FLAG_WAIT_WAKE (R283): a waiter of either stream observes its flag. -/
def execFlagWaitWake (i : StreamId) (s : State) : Out := .next (s.wake i [.flag])
/-- GIDLE_WAKE (R170). -/
def execGidleWake (b : BankId) (s : State) : Out := .next (s.wake ⟨b, .g⟩ [.gidle])

/-! ### Hanks (R286 to R293) -/

def hBASE (g : Word) : Nat := fieldAt g.toNat 0 19
def hSSIZE (g : Word) : Nat := 64 * (fieldAt g.toNat 32 6 + 1)
def hSCNT (g : Word) : Nat := fieldAt g.toNat 40 12 + 1
def hREMOTE (g : Word) : Bool := fieldAt g.toNat 52 1 = 1
def hPCORE (g : Word) : Nat := fieldAt g.toNat 58 6

def Hank.filled (h : Hank) : Nat := (h.tail - h.head).toNat
/-- FREE of R286; an unbound hank has none. -/
def Hank.free (h : Hank) : Nat :=
  match h.geo with
  | some g => hSCNT g - (h.claimed - h.head).toNat
  | none => 0

/-- Offset of the slot at a position (R286). -/
def slotOffset (g : Word) (p : Nat) : Nat := hBASE g + hSSIZE g * (p % hSCNT g)
/-- A position with its slot offset, as HCLAIM and HTAKE answer it. -/
def slotWord (g : Word) (p : Nat) : Word := BitVec.ofNat 64 (p + slotOffset g p * 2 ^ 32)

def misuse (h : BitVec 4) (reason : Nat) : TrapInfo := ⟨cHANK_MISUSE, 0, BitVec.ofNat 64 (h.toNat + reason * 256)⟩

/-- The bank of a team's core, by core number. -/
def Job.bankAt (j : Job) (jd jc num : Nat) : Option BankId :=
  (j.banks.find? (fun (b, c) => c.jd = jd && c.jc = jc && coreNum b.core = num)).map Prod.fst

/-- The bank of the same team on core number `num`. -/
def State.teamBank (s : State) (b : BankId) (num : Nat) : Option BankId :=
  match (s.bank b).binding with
  | none => none
  | some c => (s.job c.job).bind (fun j => j.bankAt c.jd c.jc num)

/-- The answer that ends a claim or a message of a waiting producer: 1 with the result, or 2 with a reason. -/
def State.answerWait (s : State) (b : BankId) (vals : List Word) : State :=
  s.modBank b (fun k =>
    match k.c.wait with
    | some w => if w.tag = .hclaim || w.tag = .remoteHank then { k with c := { k.c with wait := some { w with vals := vals } } } else k
    | none => k)

/-- Grants `n` slots: the claimed position and the hank with CLAIMED moved (R289). -/
def Hank.grant (h : Hank) (n : Nat) : Hank := { h with claimed := h.claimed + BitVec.ofNat 32 n }

/-- Grants the stream claims at the head of a hank's list, in arrival order; a claim that cannot be granted holds back
every claim behind it (R289). -/
def grantSteps : Nat → State → BankId → BitVec 4 → State
  | 0, s, _, _ => s
  | fuel + 1, s, home, hn =>
    let h := (s.bank home).getH hn
    match h.geo, h.claims with
    | some g, .stream core n :: rest =>
      match s.teamBank home core with
      | some b =>
        if n ≤ h.free then
          let s := s.modBank home (fun k => k.setH hn ({ h with claims := rest }.grant n))
          grantSteps fuel (s.answerWait b [1, slotWord g h.claimed.toNat]) home hn
        else s
      | none => s
    | _, _ => s

def State.grantClaims (s : State) (home : BankId) (hn : BitVec 4) : State :=
  grantSteps ((s.bank home).getH hn).claims.length s home hn

/-- The bank that holds a core of a job, by job coordinates. -/
def Job.bankOf (j : Job) (c : Nat × Nat × Nat) : Option BankId :=
  (j.banks.find? (fun (_, q) => q.jd = c.1 && q.jc = c.2.1 && q.jk = c.2.2)).map Prod.fst

/-- The virtual core id that a core of a job has, by job coordinates: that of its bank, or, while its team stands saved, that
of the core it was saved from (R389). -/
def State.coreAt (s : State) (j : Job) (c : Nat × Nat × Nat) : Option Nat :=
  match j.bankOf c with
  | some b => some b.core
  | none => s.saves.findSome? (fun v => v.cores.findSome? (fun (_, core, k) =>
      if k.binding.map (fun q => (q.job, q.jd, q.jc, q.jk)) = some (j.id, c.1, c.2.1, c.2.2) then some core else none))

/-- The bank of a core of a job, by job coordinates: as it is bound, or as its team stands saved. -/
def State.bankAt (s : State) (j : Job) (c : Nat × Nat × Nat) : Option Bank :=
  match j.bankOf c with
  | some b => some (s.bank b)
  | none => s.saves.findSome? (fun v => v.cores.findSome? (fun (_, _, k) =>
      if k.binding.map (fun q => (q.job, q.jd, q.jc, q.jk)) = some (j.id, c.1, c.2.1, c.2.2) then some k else none))

/-- Whether an engine delivery into a hank of a job's core is open (R288): a PLYSEND, a PLYRED that its owner's command has
entered, or an Attar query. -/
def State.deliveryFor (s : State) (job : Nat) (c : Nat × Nat × Nat) (hn : Nat) : Bool :=
  s.ply.any (fun o => o.job = job && o.owner = c && o.hank = hn && (!o.red || o.members.any (fun m => m.c = o.owner && m.xfer ≠ 0)))
    || s.scans.any (fun q => q.job = job && q.c = c && q.hank = hn)

/-- The same for a hank of the team that a bank holds. -/
def State.deliveryOpen (s : State) (b : BankId) (hn : BitVec 4) : Bool :=
  (s.bank b).binding.any (fun c => s.deliveryFor c.job (c.jd, c.jc, c.jk) hn.toNat)

/-- The geometry checks of R287. -/
def hankGeometry (s : State) (b : BankId) (hn : BitVec 4) (g : Word) : Ev Unit := do
  let v := g.toNat
  r143 g [forbid v 53 5, forbid v 38 2, forbid v 19 13, outside (47 < hPCORE g) 58,
    if hREMOTE g then none else forbid v 58 6]
  if hSCNT g < 2 ∨ hBASE g % 64 ≠ 0 ∨ 0x80000 < hBASE g + hSSIZE g * hSCNT g
      ∨ (hREMOTE g ∧ (hPCORE g = coreNum b.core ∨ (s.teamBank b (hPCORE g)).isNone)) then .error (.trap (misuse hn 6))
  else .ok ()

def execHbind (g : Guard) (hn : BitVec 4) (ra : BitVec 6) : State → Out :=
  runC g 1 (fun s b =>
    let k := s.bank b
    let v := k.getX ra
    let h := k.getH hn
    (if v = 0 then .ok () else hankGeometry s b hn v : Ev Unit).andThen s (fun _ =>
      if h.claimed ≠ h.tail || s.deliveryOpen b hn then .wait s .hbind hn.toNat 0 []
      else if h.filled ≠ 0 then .trap s (misuse hn 5)
      else .done (s.setBank b (k.setH hn ⟨if v = 0 then none else some v, 0, 0, 0, [], h.claims, []⟩))))

/-- The checks of a producer's instruction at the home hank (R289): unbound, then the wrong core. -/
def Hank.producerCheck (h : Hank) (remote : Option Nat) : Option Nat :=
  match h.geo with
  | none => some 1
  | some g =>
    match remote with
    | none => if hREMOTE g then some 7 else none
    | some core => if !hREMOTE g || hPCORE g ≠ core then some 7 else none

/-- HCLAIM on the home core. -/
def execHclaim (g : Guard) (hn : BitVec 4) (rd ra : BitVec 6) : State → Out :=
  runC g 1 (fun s b =>
    let k := s.bank b
    let n := (k.getX ra).toNat
    match k.c.wait with
    | some ⟨.hclaim, _, _, [1, r], _⟩ => .done (s.modBank b (fun k => k.setX rd r))
    | some ⟨.hclaim, _, _, _, _⟩ =>
      let s := s.grantClaims b hn
      match (s.bank b).c.wait with
      | some ⟨.hclaim, _, _, [1, r], _⟩ => .done (s.modBank b (fun k => k.setX rd r))
      | _ => .wait s .hclaim hn.toNat n []
    | _ =>
      let h := k.getH hn
      match h.producerCheck none, h.geo with
      | some r, _ => .trap s (misuse hn r)
      | none, none => .trap s (misuse hn 1)
      | none, some geo =>
        if hSCNT geo < n then .trap s (misuse hn 4)
        else if h.claims = [] && n ≤ h.free then
          .done (s.setBank b ((k.setH hn (h.grant n)).setX rd (slotWord geo h.claimed.toNat)))
        else .wait (s.setBank b (k.setH hn { h with claims := h.claims ++ [.stream (coreNum b.core) n] })) .hclaim hn.toNat n [])

/-- The core number of the home that a `.r` form names: the number itself, or, where it is the producer's own as in the
example of R293, the core of the team whose hank is bound to that producer (log entry 73). -/
def State.homeOf (s : State) (b : BankId) (hn : BitVec 4) (core : BitVec 6) : Nat :=
  if core.toNat ≠ coreNum b.core then core.toNat
  else
    match s.jobOf b, (s.bank b).binding with
    | some j, some c =>
      match j.banks.find? (fun (q, d) => d.jd = c.jd && d.jc = c.jc
          && (((s.bank q).getH hn).geo.map (fun g => hREMOTE g && hPCORE g = core.toNat)).getD false) with
      | some (q, _) => coreNum q.core
      | none => core.toNat
    | _, _ => core.toNat

/-- Sends a producer's message to the home core and waits for its answer (R289, R300). -/
def sendHub (s : State) (b : BankId) (core : BitVec 6) (hn : BitVec 4) (commit : Bool) (pos : Word32) (n : Word) (ids : List Nat) : Res :=
  let c := ((s.bank b).binding).getD ⟨0, 0, 0, 0, 0⟩
  .wait { s with hub := s.hub ++ [⟨s.nextMsg, c.job, c.jd, c.jc, coreNum b.core, s.homeOf b hn core, hn, commit, pos, n, ids⟩], nextMsg := s.nextMsg + 1 }
    .remoteHank hn.toNat n.toNat []

/-- A remote producer's instruction: sent once, then answered with a result or with the reason of its trap. -/
def remoteHank (hn : BitVec 4) (send : State → Res) (fin : State → Word → Res) (s : State) (b : BankId) : Res :=
  match (s.bank b).c.wait with
  | some ⟨.remoteHank, _, _, [1, r], _⟩ => fin s r
  | some ⟨.remoteHank, _, _, [2, r], _⟩ => .trap s (misuse hn r.toNat)
  | some ⟨.remoteHank, o, d, vals, _⟩ => .wait s .remoteHank o d vals
  | _ => send s

def execHclaimR (g : Guard) (hn : BitVec 4) (rd ra : BitVec 6) (core : BitVec 6) : State → Out :=
  runC g 1 (fun s b =>
    remoteHank hn (fun s => sendHub s b core hn false 0 ((s.bank b).getX ra) [])
      (fun s r => .done (s.modBank b (fun k => k.setX rd r))) s b)

/-- Moves TAIL over the marked positions that directly follow it (R290). -/
def Hank.advance : Nat → Hank → Hank
  | 0, h => h
  | fuel + 1, h =>
    if h.marks.contains h.tail then
      Hank.advance fuel { h with marks := h.marks.filter (fun p => p ≠ h.tail), tail := h.tail + 1 }
    else h

/-- Marks `n` positions from `p` on, or none when one of them may not be committed (R290). -/
def Hank.commit (h : Hank) (p : Word32) (n : Nat) (ids : List Nat) : Option Hank :=
  let o := (p - h.tail).toNat
  let window := (h.claimed - h.tail).toNat
  if n = 0 then some h
  else if window < o + n ∨ (List.range n).any (fun i => h.marks.contains (p + BitVec.ofNat 32 i)) then none
  else
    let h := { h with marks := h.marks ++ (List.range n).map (fun i => p + BitVec.ofNat 32 i), covers := union h.covers ids }
    some (h.advance h.marks.length)

/-- HCOMMIT on the home core: a release at `.co` (R292). -/
def execHcommit (g : Guard) (hn : BitVec 4) (ra rb : BitVec 6) : State → Out :=
  runC g 1 (fun s b =>
    let k := s.bank b
    let p := (k.getX ra).setWidth 32
    let n := (k.getX rb).toNat
    match (k.getH hn).producerCheck none with
    | some r => .trap s (misuse hn r)
    | none =>
      match (k.getH hn).commit p n [] with
      | none => .trap s (misuse hn 2)
      | some _ => releaseC s b .co (fun s ids =>
        match ((s.bank b).getH hn).commit p n ids with
        | none => .trap s (misuse hn 2)
        | some h => .done (s.modBank b (fun k => k.setH hn h))))

/-- HCOMMIT of a remote producer: a release at `.cl` before its message (R292). -/
def execHcommitR (g : Guard) (hn : BitVec 4) (ra rb : BitVec 6) (core : BitVec 6) : State → Out :=
  runC g 1 (fun s b =>
    let k := s.bank b
    remoteHank hn
      (fun s => releaseC s b .cl (fun s ids => sendHub s b core hn true ((k.getX ra).setWidth 32) (k.getX rb) ids))
      (fun s _ => .done s) s b)

/-- What a remote claim or commit does at its home bank: the answer, unless the claim waits (R289, R290). -/
def hubArrive (s : State) (m : HubMsg) (home : BankId) : State × Option (List Word) :=
  let k := s.bank home
  let h := k.getH m.hank
  let no := fun (r : Nat) => (s, some [2, BitVec.ofNat 64 r])
  match h.producerCheck (some m.src), h.geo with
  | some r, _ => no r
  | none, none => no 1
  | none, some g =>
    if m.commit then
      match h.commit m.pos m.n.toNat m.covers with
      | none => no 2
      | some h => (s.setBank home (k.setH m.hank h), some [1, 0])
    else if hSCNT g < m.n.toNat then no 4
    else if h.claims = [] && m.n.toNat ≤ h.free then
      (s.setBank home (k.setH m.hank (h.grant m.n.toNat)), some [1, slotWord g h.claimed.toNat])
    else (s.setBank home (k.setH m.hank { h with claims := h.claims ++ [.stream m.src m.n.toNat] }), none)

/-- HANK_REMOTE_MESSAGE: held at the hub while the producer or the home is out (R300); a core that the team has not answers as an
unbound hank. -/
def execHankRemoteMessage (id : Nat) (s : State) : Out :=
  match s.hub.find? (fun m => m.id = id) with
  | none => .next s
  | some m =>
    let gone := { s with hub := s.hub.filter (fun q => q.id ≠ id) }
    let out := (s.job m.job).any (fun j => j.saved.any (fun t => t.jd = m.jd && t.jc = m.jc))
    match (s.job m.job).bind (fun j => j.bankAt m.jd m.jc m.src) with
    | none => .next s
    | some src =>
      match (s.job m.job).bind (fun j => j.bankAt m.jd m.jc m.home) with
      | none => .next (if out then s else gone.answerWait src [2, 1])
      | some home =>
        let (s, a) := hubArrive gone m home
        match a with
        | some vals => .next (s.answerWait src vals)
        | none => .next s

/-- The acquire at `.cl` of HWAITF and HTAKE (R292). -/
def State.hankAcquire (s : State) (b : BankId) (hn : BitVec 4) : State :=
  (s.observe b ((s.bank b).getH hn).covers).dropL1 b.core .cl

/-- The bound geometry of one's own hank, or the trap of reason 1. -/
def Bank.boundHank (k : Bank) (hn : BitVec 4) : Ev (Hank × Word) :=
  match (k.getH hn).geo with
  | none => .error (.trap (misuse hn 1))
  | some g => .ok (k.getH hn, g)

def execHwaitf (g : Guard) (hn : BitVec 4) (rd ra : BitVec 6) : State → Out :=
  runC g 1 (fun s b =>
    let k := s.bank b
    let n := (k.getX ra).toNat
    (k.boundHank hn).andThen s (fun (h, geo) =>
      if hSCNT geo < n then .trap s (misuse hn 4)
      else if n ≤ h.filled then
        .done ((s.hankAcquire b hn).modBank b (fun k => k.setX rd (BitVec.ofNat 64 h.filled)))
      else .wait s .hwait hn.toNat n []))

def execHwaite (g : Guard) (hn : BitVec 4) (rd ra : BitVec 6) : State → Out :=
  runC g 1 (fun s b =>
    let k := s.bank b
    let n := (k.getX ra).toNat
    (k.boundHank hn).andThen s (fun (h, geo) =>
      if hREMOTE geo then .trap s (misuse hn 7)
      else if hSCNT geo < n then .trap s (misuse hn 4)
      else if n ≤ h.free then .done (s.setBank b (k.setX rd (BitVec.ofNat 64 h.free)))
      else .wait s .hclaim hn.toNat n []))

def execHtake (g : Guard) (hn : BitVec 4) (rd ra : BitVec 6) : State → Out :=
  runC g 1 (fun s b =>
    let k := s.bank b
    let n := (k.getX ra).toNat
    (k.boundHank hn).andThen s (fun (h, geo) =>
      if hSCNT geo ≤ n then .trap s (misuse hn 4)
      else if n < h.filled then
        .done ((s.hankAcquire b hn).modBank b (fun k => k.setX rd (slotWord geo (h.head + BitVec.ofNat 32 n).toNat)))
      else .wait s .hwait hn.toNat n []))

/-- The pending stores of the bank's C stream are performed. -/
def State.performOwn (s : State) (b : BankId) : State := s.performAll (s.pend.filter (fun p => p.bank = b && p.path = 0))

/-- HDONE, after every earlier C-path access has been performed (R292). -/
def execHdone (g : Guard) (hn : BitVec 4) (ra : BitVec 6) : State → Out :=
  runC g 1 (fun s b =>
    let k := s.bank b
    let n := (k.getX ra).toNat
    (k.boundHank hn).andThen s (fun (h, geo) =>
      if hSCNT geo < n then .trap s (misuse hn 4)
      else if h.filled < n then .trap s (misuse hn 3)
      else if k.outLoads ≠ [] then .wait s .loads 1 0 []
      else if k.amons.any (fun a => a.path = 0) then .wait s .access 1 0 []
      else
        let s := s.performOwn b
        .done ((s.modBank b (fun k => k.setH hn { (k.getH hn) with head := h.head + BitVec.ofNat 32 n })).grantClaims b hn)))

/-- HANK_WAIT_WAKE (R291, R296). -/
def execHankWaitWake (b : BankId) (s : State) : Out := .next (s.wake ⟨b, .c⟩ [.hclaim, .hwait, .hbind, .remoteHank])

/-! ### Rendezvous (R294) -/

def rdvScope : RdvExt → Scope
  | .job => .dv
  | .die => .di
  | .clu => .cl
  | .core => .co

def extNum : RdvExt → Nat
  | .job => 0
  | .die => 1
  | .clu => 2
  | .core => 3

/-- Whether coordinates lie in the extent instance of others. -/
def inExtent (e : RdvExt) (a b : Nat × Nat × Nat) : Bool :=
  (extNum e = 0 || a.1 = b.1) && (extNum e ≤ 1 || a.2.1 = b.2.1) && (extNum e ≤ 2 || a.2.2 = b.2.2)

def Arrival.at (a : Arrival) : Nat × Nat × Nat := (a.jd, a.jc, a.jk)

/-- Whether two arrivals belong to one instance. -/
def Arrival.same (a c : Arrival) : Bool := a.id = c.id && a.n = c.n && (inExtent a.ext a.at c.at || inExtent c.ext c.at a.at)

def clsHas (c : RdvCls) (k : StreamKind) : Bool :=
  match c, k with
  | .both, _ => true
  | .conly, .c => true
  | .gonly, .g => true
  | _, _ => false

/-- Dies, clusters per die and cores per cluster of a shape (R303). -/
def shapeOf (shape : Nat) : Nat × Nat × Nat := (fieldAt shape 0 3, fieldAt shape 8 4, fieldAt shape 16 6)

/-- The job coordinates of every core of a job. -/
def Job.coords (j : Job) : List (Nat × Nat × Nat) :=
  let (nd, ncl, nco) := shapeOf j.qrec.lrec.shape
  (List.range nd).flatMap (fun d => (List.range ncl).flatMap (fun c => (List.range nco).map (fun k => (d, c, k))))

def Bank.rdvCount (k : Bank) (kind : StreamKind) (id : BitVec 6) : Nat :=
  match kind with
  | .c => k.rdvC[id.toNat]'(id.isLt)
  | .g => k.rdvG[id.toNat]'(id.isLt)
def Bank.rdvNext (k : Bank) (kind : StreamKind) (id : BitVec 6) : Bank :=
  match kind with
  | .c => { k with rdvC := k.rdvC.set id.toNat (k.rdvCount .c id + 1) id.isLt }
  | .g => { k with rdvG := k.rdvG.set id.toNat (k.rdvCount .g id + 1) id.isLt }

/-- The arriver's own entry after its `n`th arrival. -/
def Job.arrivalOf (j : Job) (id n : Nat) (p : Nat × Nat × Nat) (kind : StreamKind) : Option Arrival :=
  j.arrivals.find? (fun a => a.id = id && a.n = n && a.at = p && a.kind = kind)

/-- TRAPAUX of SHAPE_MISMATCH (R137). -/
def shapeAux (reason letter detail : Nat) : Word := BitVec.ofNat 64 (reason + letter * 256 + detail * 65536)

/-- A waiting member leaves an instance that has opened; a C stream acquires what every C-stream arriver released. -/
def rdvLeave (kind : StreamKind) (ext : RdvExt) (j : Job) (a : Arrival) (s : State) (b : BankId) : Res :=
  let ids := (j.arrivals.filter (fun c => c.same a && c.kind = .c)).foldl (fun l c => union l c.covers) []
  match kind with
  | .c => .done ((s.observe b ids).dropL1 b.core (rdvScope ext))
  | .g => .done s

/-- Notes an arrival. -/
def rdvArrive (a : Arrival) (id : BitVec 6) (job : Nat) (s : State) (b : BankId) : Res :=
  let s := s.modBank b (fun k => k.rdvNext a.kind id)
  .wait (s.modJob job (fun j => { j with arrivals := j.arrivals ++ [a] })) .rdv id.toNat 1 []

def rdvRun (cls : RdvCls) (ext : RdvExt) (id : BitVec 6) (kind : StreamKind) (s : State) (b : BankId) : Res :=
  let k := s.bank b
  match k.binding, s.jobOf b with
  | some c, some j =>
    let p := (c.jd, c.jc, c.jk)
    let waiting := (match (k.stream kind).wait with
      | some w => w.tag = .rdv
      | none => false : Bool)
    if waiting then
      match j.arrivalOf id.toNat (k.rdvCount kind id - 1) p kind with
      | some a => if a.opened then rdvLeave kind ext j a s b else .wait s .rdv id.toNat (j.arrivals.filter (fun c => c.same a)).length []
      | none => .wait s .rdv id.toNat 0 []
    else
      let a : Arrival := ⟨id.toNat, k.rdvCount kind id, c.jd, c.jc, c.jk, kind, b.core, cls, ext, [], false⟩
      match j.arrivals.find? (fun e => e.same a && !(e.ext = ext && e.cls = cls)) with
      | some e => .trap s ⟨cSHAPE_MISMATCH, 0, shapeAux 9 255 e.core⟩
      | none =>
        match kind with
        | .g => rdvArrive a id c.job s b
        | .c => releaseC s b (rdvScope ext) (fun s ids => rdvArrive { a with covers := ids } id c.job s b)
  | _, _ => .done s

def execRdv (g : Guard) (cls : RdvCls) (ext : RdvExt) (id : BitVec 6) (s : State) : Out :=
  match s.cur.kind with
  | .c => runC g 1 (rdvRun cls ext id .c) s
  | .g => runG g 1 (rdvRun cls ext id .g) s

/-- RDV_OPEN: the instance of the arrival number `slot` of the job opens when every member that its first arrival names
has arrived. -/
def execRdvOpen (job id n slot : Nat) (s : State) : Out :=
  match s.job job with
  | none => .next s
  | some j =>
    match j.arrivals[slot]? with
    | none => .next s
    | some a =>
      if a.id ≠ id ∨ a.n ≠ n then .next s
      else
        let inst := j.arrivals.filter (fun c => c.same a)
        let first := inst.headD a
        let members := (j.coords.filter (fun p => inExtent first.ext first.at p)).flatMap (fun p =>
          ([.c, .g] : List StreamKind).filterMap (fun k => if clsHas first.cls k then some (p, k) else none))
        if members.all (fun (p, k) => inst.any (fun c => c.at = p && c.kind = k)) then
          .next (s.modJob job (fun j => { j with arrivals := j.arrivals.map (fun c => if c.same a then { c with opened := true } else c) }))
        else .next s

/-! ### Ending and yielding (R295) -/

def prioOf (r : LaunchRec) : Nat := fieldAt r.ctrl 0 3

/-- Whether a team of at least a priority waits for banks of a partition: a record at its dispatch point, or a saved
team that is runnable. -/
def State.teamWaits (s : State) (part prio : Nat) : Bool :=
  (match s.part part with
    | some p => p.queue.any (fun r => r.ready && prio ≤ prioOf r.lrec)
    | none => false)
  || s.jobs.any (fun j => j.part = part && prio ≤ prioOf j.qrec.lrec && j.saved.any (·.runnable))

/-- Whether a team of higher priority whose record is marked URGENT waits for banks of a partition (R313). -/
def State.urgentWaits (s : State) (part prio : Nat) : Bool :=
  let urgent := fun (r : LaunchRec) => fieldAt r.ctrl 3 1 = 1 && prio < prioOf r
  (s.part part).any (fun p => p.queue.any (fun r => r.ready && urgent r.lrec))
    || s.jobs.any (fun j => j.part = part && urgent j.qrec.lrec && j.saved.any (·.runnable))

def State.modTeam (s : State) (job jd jc : Nat) (f : TeamRec → TeamRec) : State :=
  s.modJob job (fun j => { j with teams := j.teams.map (fun t => if t.jd = jd && t.jc = jc then f t else t) })

def execYieldC (g : Guard) : State → Out :=
  runC g 1 (fun s b =>
    match (s.bank b).binding, s.jobOf b with
    | some c, some j =>
      if s.teamWaits c.part (prioOf j.qrec.lrec) then .done (s.modTeam c.job c.jd c.jc (fun t => { t with boundary := true }))
      else .done s
    | _, _ => .done s)

/-- A stream that has ended stands at its last instruction and counts as waiting (R296). -/
def Stream.finish (t : Stream) (now : Nat) : Stream := { t with run := .ended, wait := some ⟨.ended, 0, 0, [], now⟩ }

/-- END reports a held fault first, once every write it covers is performed or has faulted (R214, R215). -/
def execEndC (g : Guard) (s : State) : Out :=
  let b := s.cur.bank
  let k := s.bank b
  if guardHolds k.cC g then
    .next (match releaseC s b .dv (fun s _ => .done s) with
      | .done s => (s.modBank b (fun k => { k with c := k.c.finish s.dtc })).endTeam b
      | r => finishC b 1 k.c.pc r)
  else .next (finishC b 1 k.c.pc (.done s))

end Sys2Proof.Machine
end

