-- ==== Sys2Proof/Machine/Spans.lean ====
section
/-! DEFINITION. Spans (R326 to R337), overlays (R342 to R344) and the host's writes to span storage (R331). -/
namespace Sys2Proof.Machine

/-! ### Well-formedness (R328) -/

/-- Permissions that a space allows (R327); `dm` says that a virtual span lies in device memory. -/
def permsAllowed (space : Nat) (dm : Bool) : Nat :=
  match space with
  | 0 => if dm then pR + pW + pA + pT + pATTAR + pSPANSTORE + pDEV else pR + pW + pA + pT
  | 1 | 2 => pR + pW + pA + pT
  | 3 => pR + pW
  | _ => 0

/-- The bits of PERM that R328 forbids. -/
def permsForbidden (s : BitVec 256) : Nat :=
  let p := sPERM s
  let allow := permsAllowed (sSPACE s) (fieldAt (sBASE s) 55 2 = 0)
  let ss := if p &&& pSPANSTORE ≠ 0 then p &&& (255 - (pSPANSTORE + pR + pW)) else 0
  let dv := if p &&& pDEV ≠ 0 then p &&& (255 - (pDEV + pR + pW)) else 0
  (p &&& (255 - allow)) ||| ss ||| dv

/-- The offending bits of a span that is not well-formed, named as R143 names them. -/
def spanOffences (s : BitVec 256) : List (Option Nat) :=
  let v := s.toNat
  let b := sBASE s
  let l := sLIMIT s
  let sp := sSPACE s
  [forbid v 214 42, forbid v 180 11, forbid v 139 26, outside (3 < sp) 136,
    outside (0x17 < sFHINT s && sFHINT s ≠ 0x1F) 165, outside (l < b) 64,
    outside (sp = 0 && 2 ^ 57 < l) 64, outside (sp = 0 && fieldAt b 55 1 = 1) 55,
    outside (sp = 0 && l ≠ b && fieldAt (l - 1) 55 2 ≠ fieldAt b 55 2) 64,
    outside ((sp = 1 || sp = 2) && 0x80000 < l) 64, outside (sp = 2 && 47 < sCORE s) 170,
    outside (sp = 3 && 2 ^ 48 < l) 64, if sp = 2 then none else forbid v 170 6, if sp = 3 then none else forbid v 192 22,
    (forbid (permsForbidden s) 0 8).map (128 + ·)]

/-- The lowest offending bit. -/
def spanBad (s : BitVec 256) : Option Nat :=
  match (spanOffences s).filterMap id with
  | [] => none
  | b :: bs => some (bs.foldl min b)

/-! ### Span instructions (R334 to R336) -/

def spanTrap (s : BitVec 256) (bit : Nat) : TrapInfo :=
  ⟨cILLEGAL_FIELD, BitVec.ofNat 64 (fieldAt s.toNat (bit / 64 * 64) 64), BitVec.ofNat 64 (256 + bit)⟩

/-- The 256 bits that SPMINT reads from four x registers. -/
def Bank.fourX (k : Bank) (ra : BitVec 6) : BitVec 256 :=
  k.getX (ra + 3) ++ k.getX (ra + 2) ++ k.getX (ra + 1) ++ k.getX ra

def execSpmint (g : Guard) (bd : BitVec 4) (ra : BitVec 6) : State → Out :=
  pureC g 1 (fun k =>
    let s : BitVec 256 := k.fourX ra
    match spanBad s with
    | some bit => .error (.trap (spanTrap s bit))
    | none => if sPART s ≠ k.part then .error (.trap (spanTrap s 176)) else .ok (k.setB bd ⟨s, true⟩))

/-- A source span that may be derived from: valid and not sealed (R335). -/
def Bank.deriveFrom (k : Bank) (ba : BitVec 4) : Ev (BitVec 256) :=
  let r := k.getB ba
  let n := BitVec.ofNat 64 ba.toNat
  if !r.valid then raise cSPAN_INVALID 0 n
  else if sSEAL r.bits then raise cSPAN_PERM (BitVec.ofNat 64 (sBASE r.bits)) n
  else .ok r.bits

def setBASE (s : BitVec 256) (v : Nat) : BitVec 256 := (s &&& ~~~(BitVec.ofNat 256 (2 ^ 64 - 1))) ||| BitVec.ofNat 256 (v % 2 ^ 64)
def setLIMIT (s : BitVec 256) (v : Nat) : BitVec 256 :=
  (s &&& ~~~(BitVec.ofNat 256 ((2 ^ 64 - 1) * 2 ^ 64))) ||| BitVec.ofNat 256 (v % 2 ^ 64 * 2 ^ 64)
def setPERM (s : BitVec 256) (v : Nat) : BitVec 256 :=
  (s &&& ~~~(BitVec.ofNat 256 (255 * 2 ^ 128))) ||| BitVec.ofNat 256 (v % 256 * 2 ^ 128)
def setPART (s : BitVec 256) (v : Nat) : BitVec 256 :=
  (s &&& ~~~(BitVec.ofNat 256 (15 * 2 ^ 176))) ||| BitVec.ofNat 256 (v % 16 * 2 ^ 176)

def execSpnarrow (g : Guard) (bd ba : BitVec 4) (rb : Src) (mask : BitVec 8) : State → Out :=
  pureC g 1 (fun k => do
    dirs [rb] []
    let s ← k.deriveFrom ba
    let (n, k) ← k.readSrc rb
    let s' := setPERM (setLIMIT s (sBASE s + min (sLIMIT s - sBASE s) n.toNat)) (sPERM s &&& mask.toNat)
    .ok (k.setB bd ⟨s', true⟩))

def execSpoff (g : Guard) (bd ba : BitVec 4) (rb : Src) : State → Out :=
  pureC g 1 (fun k => do
    dirs [rb] []
    let s ← k.deriveFrom ba
    let (o, k) ← k.readSrc rb
    if sLIMIT s - sBASE s < o.toNat then raise cSPAN_BOUNDS o (BitVec.ofNat 64 ba.toNat)
    else .ok (k.setB bd ⟨setBASE s (sBASE s + o.toNat), true⟩))

def execSpget (g : Guard) (rd : Dst) (ba : BitVec 4) (sel : BitVec 3) : State → Out :=
  pureC g 1 (fun k => do
    dirs [] [rd]
    let r := k.getB ba
    k.writeDst rd (if sel = 4 then BitVec.ofNat 64 r.valid.toNat else BitVec.ofNat 64 (fieldAt r.bits.toNat (64 * sel.toNat) 64)))

def execSpmov (g : Guard) (bd ba : BitVec 4) : State → Out := pureC g 1 (fun k => .ok (k.setB bd (k.getB ba)))
def execSpmovClr (g : Guard) (bd : BitVec 4) : State → Out := pureC g 1 (fun k => .ok (k.setB bd SpanReg.reset))

/-! ### Span storage (R337) -/

/-- The checks that SPLD and SPST share, up to the translated place. -/
def spanStorePlace (m : MemRef) (write : Bool) (s : State) (b : BankId) : Except TrapInfo (Nat × Nat × State) :=
  let k := s.bank b
  let r := k.getB m.sb
  let n := BitVec.ofNat 64 m.sb.toNat
  match spanCheck r m.sb.toNat (k.getX m.xi + m.off.signExtend 64).toInt 32 (if write then pW else pR) with
  | .error t => .error t
  | .ok addr =>
    let a := BitVec.ofNat 64 addr
    if sPERM r.bits &&& pSPANSTORE = 0 ∨ sSPACE r.bits ≠ 0 ∨ fieldAt (sBASE r.bits) 55 2 ≠ 0 then .error ⟨cSPAN_PERM, a, n⟩
    else if addr % 32 ≠ 0 then .error ⟨cMISALIGNED, a, 0⟩
    else
      match s.translate b.core k.part k.asid.toNat addr write with
      | .fault f _ => .error ⟨if write then cFAULT_WRITE_STRONG else cFAULT_READ, a, f.aux⟩
      | .window .. => .error ⟨cSPAN_PERM, a, n⟩
      | .ok x s =>
        if !x.spanstore then .error ⟨cSPAN_PERM, a, n⟩
        else if !isDevMem x.pa then .error ⟨cSPAN_PERM, BitVec.ofNat 64 (addr - sBASE r.bits), n⟩
        else .ok (x.pa, addr, s)

def execSpld (g : Guard) (bd : BitVec 4) (m : MemRef) : State → Out :=
  runC g 1 (fun s b =>
    match spanStorePlace m false s b with
    | .error t => .trap s t
    | .ok (pa, addr, s) =>
      if s.eccAt pa 32 then .trap s (eccTrap pa addr)
      else
        let v : BitVec 256 := BitVec.ofNat 256 (s.readNum pa 32)
        let s := s.noteRead b pa 32
        .done (s.modBank b (fun k => k.setB bd ⟨v, s.tags.contains (pa / 32) && sPART v = k.part⟩)))

/-- SPST performs its write and its tag at once; earlier overlapping stores of the bank stand before it. -/
def execSpst (g : Guard) (bs : BitVec 4) (m : MemRef) : State → Out :=
  runC g 1 (fun s b =>
    match spanStorePlace m true s b with
    | .error t => .trap s t
    | .ok (pa, _, s) =>
      let r := (s.bank b).getB bs
      let s := (s.settle b pa 32).performWrite (some b.core) pa (bytesOf 32 r.bits.toNat) false
      let rest := s.tags.filter (fun t => t ≠ pa / 32)
      .done { s with tags := if r.valid then rest ++ [pa / 32] else rest })

/-- HOST_MEMORY_WRITE: a write of the host over PCIe, which clears the tags of the granules it touches (R331). -/
def execHostMemoryWrite (pa : Nat) (data : List Byte) (s : State) : Out :=
  if data = [] ∨ Config.devMemEnd < pa + data.length then .next s
  else
    let s := (s.landHome pa data.length).performWrite none pa data false
    .next { s with tags := s.tags.filter (fun t => !overlap (32 * t) 32 pa data.length) }

/-! ### Overlays (R344) -/

/-- OVLD's checks of its number and target. -/
def ovldCheck (k : Bank) (kind : StreamKind) (n t : Word) : Ev OvlEntry :=
  match if n.toNat ≤ 255 then k.overlay kind n.toNat else none with
  | none => raise cFETCH_BOUNDS n 1
  | some o => if t.toNat % 8 ≠ 0 then raise cMISALIGNED t 0 else .ok o

def execOvld (g : Guard) (rd : Dst) (ra rb : Src) : State → Out :=
  runC g 1 (fun s b =>
    let k := s.bank b
    let e : Ev (Word × OvlEntry × Bank) := do
      dirs [ra, rb] [rd]
      let (t, q) ← k.readSrc ra
      let (n, q) ← q.readSrc rb
      let o ← ovldCheck k .c n t
      let q ← q.writeDst rd (BitVec.ofNat 64 (k.c.ovl * 2 ^ 32) + k.c.pc + 8)
      .ok (t, o, q)
    e.andThen s (fun (t, o, q) =>
      match s.fetchOverlay b o with
      | .error f => .trap s f
      | .ok (_, some f, s) => .trap (s.modBank b (fun k => { k with c := k.c.unload })) f
      | .ok (ws, none, s) =>
        .jumped (s.modBank b (fun k =>
          { k with q := q.q, x := q.x, lc := k.lc.map deactivate, c := { k.c.load o ws with pc := t } }))))

def execOvldG (g : Guard) (ra rb : Src) : State → Out :=
  runC g 1 (fun s b =>
    let k := s.bank b
    let e : Ev (Word × Word × OvlEntry × Bank) := do
      dirs [ra, rb] []
      let (t, q) ← k.readSrc ra
      let (n, q) ← q.readSrc rb
      let o ← ovldCheck k .g n t
      if k.g.run = .ended then raise cFETCH_BOUNDS n 2
      else .ok (t, n, o, q)
    e.andThen s (fun (t, n, o, q) =>
      match k.g.wait with
      | some w =>
        if w.tag = .gidle then
          match s.fetchOverlay b o with
          | .error f => .trap s f
          | .ok (_, some f, s) => .trap (s.modBank b (fun k => { k with g := k.g.unload })) f
          | .ok (ws, none, s) =>
            .done (s.modBank b (fun k => { k with q := q.q, g := { k.g.load o ws with pc := t, wait := none } }))
        else .wait s .ovldG 0 n.toNat []
      | none => .wait s .ovldG 0 n.toNat []))

end Sys2Proof.Machine
end

