-- ==== Sys2Proof/Machine/Images.lean ====
section
/-! DEFINITION. Placed JIF images: reading, validation and the spans the loader mints (R338 to R342). -/
namespace Sys2Proof.Machine

def allZero (bs : List Byte) : Bool := bs.all (fun b => b = 0)

/-- A section header (R339). -/
structure Section where
  ty : Nat
  alignLog : Nat
  off : Nat
  size : Nat
  memsize : Nat
  deriving DecidableEq, Repr

/-- A span-table entry (R341). -/
structure SpanEntry where
  target : Nat
  size : Nat
  perm : Nat
  space : Nat
  core : Nat
  reg : Nat
  flags : Nat
  clean : Bool
  deriving DecidableEq, Repr

/-- An entry-table entry (R342). -/
structure EntryPoint where
  stream : Nat
  pc : Nat
  clean : Bool
  deriving DecidableEq, Repr

structure Image where
  va : Nat
  imgsize : Nat
  ssoff : Nat
  sssize : Nat
  sections : List Section
  spans : List SpanEntry
  entries : List EntryPoint
  ovls : List OvlEntry
  /-- Reserved bytes of the overlay table are 0 and every STREAM is 0 or 1. -/
  ovlClean : Bool
  deriving DecidableEq, Repr

def parseSection (bs : List Byte) : Option Section :=
  if allZero ((bs.drop 2).take 6) then some ⟨leField bs 0 1, leField bs 1 1, leField bs 8 8, leField bs 16 8, leField bs 24 8⟩ else none

def parseSpanEntry (bs : List Byte) : SpanEntry :=
  ⟨leField bs 0 8, leField bs 8 8, leField bs 16 1, leField bs 17 1, leField bs 18 1, leField bs 19 1, leField bs 20 1,
    allZero ((bs.drop 21).take 11) && leField bs 20 1 < 2⟩

def parseEntry (bs : List Byte) : EntryPoint := ⟨leField bs 0 1, leField bs 4 4, allZero ((bs.drop 1).take 3)⟩

def parseOvl (bs : List Byte) : OvlEntry :=
  ⟨if leField bs 0 1 = 0 then .c else .g, leField bs 2 2, leField bs 4 4, leField bs 8 8⟩

/-- Cuts a byte string into records of `n` bytes. -/
def recordsOf (n : Nat) : Nat → List Byte → List (List Byte)
  | 0, _ => []
  | fuel + 1, bs => if bs = [] then [] else bs.take n :: recordsOf n fuel (bs.drop n)

def Image.sec (i : Image) (ty : Nat) : Option Section := i.sections.find? (fun x => x.ty = ty)

/-- Whether a range of the image meets a section. -/
def Image.meets (i : Image) (ty off n : Nat) : Bool :=
  match i.sec ty with
  | some x => n ≠ 0 && overlap off n x.off x.memsize
  | none => false

/-- The header checks of R339 and R341. -/
def headerOk (va : Nat) (h : List Byte) : Bool :=
  va % 4096 = 0 && leField h 0 4 = 0x0046494A && leField h 5 1 = 1 && leField h 6 1 = 1 && leField h 7 1 = 0
    && leField h 8 8 % 4096 = 0 && leField h 16 8 % 8 = 0 && 1 ≤ leField h 24 2 && leField h 24 2 ≤ 10
    && allZero ((h.drop 26).take 6) && leField h 32 8 % 4096 = 0 && leField h 40 8 % 4096 = 0 && allZero ((h.drop 48).take 16)

def Section.ok (x : Section) (imgsize : Nat) : Bool :=
  1 ≤ x.ty && x.ty ≤ 10 && x.alignLog ≤ 12 && x.off % 2 ^ x.alignLog = 0 && x.off + x.memsize ≤ imgsize
    && (if x.ty = 5 then x.size = 0 else x.size = x.memsize)

/-- No two sections have one type, and none overlap. -/
def sectionsApart : List Section → Bool
  | [] => true
  | x :: l => l.all (fun y => y.ty ≠ x.ty && (x.memsize = 0 || y.memsize = 0 || !overlap x.off x.memsize y.off y.memsize)) && sectionsApart l

/-- Reads a section's bytes; an absent section is empty. -/
def readSection (rd : Nat → Nat → Option (List Byte)) (va : Nat) (xs : List Section) (ty : Nat) : Option (List Byte) :=
  match xs.find? (fun x => x.ty = ty) with
  | none => some []
  | some x => if x.size = 0 then some [] else rd (va + x.off) x.size

/-- Reads a placed image with a reader of bytes; none when a page that the loader reads is not mapped or the header or
a section breaks its rules. -/
def readImage (rd : Nat → Nat → Option (List Byte)) (va : Nat) : Option Image := do
  let h ← rd va 64
  if !headerOk va h then none
  else
    let nsec := leField h 24 2
    let imgsize := leField h 8 8
    let sh ← rd (va + leField h 16 8) (32 * nsec)
    let xs ← (recordsOf 32 nsec sh).mapM parseSection
    if !(xs.all (fun x => x.ok imgsize) && sectionsApart xs) then none
    else
      let st ← readSection rd va xs 6
      let et ← readSection rd va xs 7
      let ot ← readSection rd va xs 8
      let _ ← readSection rd va xs 9
      let _ ← readSection rd va xs 10
      if st.length % 32 ≠ 0 ∨ et.length % 8 ≠ 0 ∨ ot.length % 16 ≠ 0 then none
      else
        let orec := recordsOf 16 ot.length ot
        some ⟨va, imgsize, leField h 32 8, leField h 40 8, xs, (recordsOf 32 st.length st).map parseSpanEntry,
          (recordsOf 8 et.length et).map parseEntry, orec.map parseOvl,
          orec.all (fun r => leField r 0 1 ≤ 1 && leField r 1 1 = 0)⟩

/-- The span that the loader mints for an entry (R341). -/
def SpanEntry.mint (e : SpanEntry) (i : Image) (part : Nat) : BitVec 256 :=
  let base := if e.space = 0 then i.va + e.target else e.target
  mkSpan base (base + e.size) e.perm e.space 0x1F e.core part (e.flags % 2 = 1) 0

/-- The loader's refusals for one span entry (R341). -/
def SpanEntry.ok (e : SpanEntry) (i : Image) (part : Nat) (attarAt : Nat → Bool) : Bool :=
  e.clean && e.space ≤ 2 && e.core ≤ (if e.space = 2 then 47 else 0) && (e.reg ≤ 15 || e.reg = 0xFF)
    && e.target + e.size < 2 ^ 64 && (spanBad (e.mint i part)).isNone
    && (e.space ≠ 0
      || (e.target + e.size ≤ i.imgsize && e.perm &&& pDEV = 0
        && (e.perm &&& pW = 0 || !(i.meets 1 e.target e.size || i.meets 2 e.target e.size || i.meets 3 e.target e.size))
        && (e.perm &&& pSPANSTORE = 0 || (i.ssoff ≤ e.target && e.target + e.size ≤ i.ssoff + i.sssize))
        && (e.perm &&& pATTAR = 0 || e.size = 0
          || (List.range ((i.va + e.target + e.size + 4095) / 4096 - (i.va + e.target) / 4096)).all (fun p =>
              attarAt (((i.va + e.target) / 4096 + p) * 4096)))))

def noRegTwice : List SpanEntry → Bool
  | [] => true
  | e :: l => (e.reg = 0xFF || l.all (fun f => f.reg ≠ e.reg)) && noRegTwice l

def Image.overlay (i : Image) (k : StreamKind) (n : Nat) : Option OvlEntry := i.ovls.find? (fun o => o.kind = k && o.num = n)

/-- The overlay table (R342): bounds, code section, numbers consecutive from 0. -/
def Image.ovlsOk (i : Image) : Bool :=
  i.ovlClean
    && i.ovls.all (fun o =>
      let x := i.sec (if o.kind = .c then 1 else 2)
      o.length % 8 = 0 && 8 ≤ o.length && o.length ≤ (if o.kind = .c then 65536 else 16384) && o.offset % 8 = 0 && o.num ≤ 255
        && (match x with
          | some x => x.off ≤ o.offset && o.offset + o.length ≤ x.off + x.memsize
          | none => false))
    && ([.c, .g] : List StreamKind).all (fun k =>
        let l := i.ovls.filter (fun o => o.kind = k)
        (List.range l.length).all (fun n => (l.filter (fun o => o.num = n)).length = 1))

/-- The entry table (R342). -/
def Image.entriesOk (i : Image) : Bool :=
  i.entries.all (fun e =>
    e.clean && e.stream ≤ 2 && e.pc % 8 = 0
      && (match i.overlay (if e.stream = 1 then .g else .c) 0 with
        | some o => e.pc < o.length
        | none => false))
    && (i.entries.filter (fun e => e.stream = 2)).length ≤ 1

/-- The whole validation of R341 and R342. `codeAt` says whether the loader can read an overlay; `trAt` translates an address for
reading: its physical address and its ATTAR attribute, none when it is not mapped. -/
def Image.ok (i : Image) (part : Nat) (codeAt : Nat → Nat → Bool) (trAt : Nat → Option (Nat × Bool)) : Bool :=
  i.spans.all (fun e => e.ok i part (fun a => ((trAt a).map Prod.snd).getD false))
    && 32 * i.spans.length ≤ i.sssize && noRegTwice i.spans && i.ovlsOk && i.entriesOk && i.ssoff + i.sssize ≤ i.imgsize
    && (List.range (i.imgsize / 4096)).all (fun p =>
        match trAt (i.va + 4096 * p) with
        | some (pa, _) => isDevMem pa
        | none => true)
    && ([.c, .g] : List StreamKind).all (fun k =>
        match i.overlay k 0 with
        | some o => codeAt (i.va + o.offset) o.length
        | none => true)
    && (List.range (i.sssize / 4096)).all (fun p => (trAt (i.va + i.ssoff + 4096 * p)).isSome)

/-- The valid image at an address, or none (reason 0x06 of R305). -/
def State.image (s : State) (part asid va : Nat) : Option Image :=
  match readImage (s.imageReader part asid) va with
  | none => none
  | some i => if i.ok part (fun va n => (s.loaderWords part asid va n).isSome) (s.imageTr part asid) then some i else none

/-- The reads of a loader that an error in a page-table entry stops are logged (R373): those of an image's header, or of its pages. -/
def State.logImage (s : State) (part asid va : Nat) : State :=
  match s.imageReader part asid va 64 with
  | none => s.logReads part asid [(va, 64)]
  | some h => if !headerOk va h then s else s.logReads part asid ((List.range (leField h 8 8 / 4096)).map (fun p => (va + 4096 * p, 1)))

/-- The program counter of an entry of the given stream (R342). -/
def Image.entry (i : Image) (idx stream : Nat) : Option Nat :=
  match i.entries[idx]? with
  | some e => if e.stream = stream then some e.pc else none
  | none => none

/-- The `__trap` entry (R375). -/
def Image.trapEntry (i : Image) : Option Nat := (i.entries.find? (fun e => e.stream = 2)).map (·.pc)

end Sys2Proof.Machine
end

