-- ==== Sys2Proof/Machine/Tensor.lean ====
section
/-! DEFINITION. Tensor descriptors (R144 to R147), bank formats (R95 to R99), and the C-stream instructions that prepare grid operands (R148 to R154), with GTHAND. -/
namespace Sys2Proof.Machine

/-! ### The descriptor (R144) -/

/-- A descriptor, field by field. -/
structure Desc where
  base : Nat
  space : Nat
  dspan : Nat
  ext : List Nat
  stride : List Int
  scoff : Nat
  fmt : Nat
  rank : Nat
  bdim : Nat
  rnd : Nat
  sat : Bool
  alt : Alt
  core : Nat
  deriving DecidableEq, Repr

/-- A field of a 512-bit value. -/
def field512 (v : BitVec 512) (lo n : Nat) : Nat := fieldAt v.toNat lo n

def Desc.of (v : BitVec 512) : Desc :=
  { base := field512 v 0 57, space := field512 v 57 2, dspan := field512 v 59 4,
    ext := (List.range 6).map (fun d => field512 v (64 + 32 * d) 32),
    stride := (List.range 6).map (fun d => sextNat (field512 v (256 + 32 * d) 32) 32),
    scoff := field512 v 448 26, fmt := field512 v 474 5, rank := field512 v 479 3, bdim := field512 v 482 3,
    rnd := field512 v 485 3, sat := field512 v 488 1 = 1, alt := ⟨field512 v 490 16, field512 v 489 1 = 1⟩,
    core := field512 v 506 6 }

def Desc.w (d : Desc) : Nat := fmtWidth d.fmt
def Desc.mx (d : Desc) : Bool := isMx d.fmt
def Desc.extAt (d : Desc) (k : Nat) : Nat := d.ext.getD k 0
def Desc.strideAt (d : Desc) (k : Nat) : Int := d.stride.getD k 0

/-- ALTV holds an infinity or a NaN code (R94). -/
def altBad (altv : Nat) : Bool := fieldAt altv 7 8 = 255

/-- Strides of sub-byte and block-scaled elements (R145). The dimension P is the first whose stride is 1. -/
def strideOffences (v : BitVec 512) : List (Option Nat) :=
  let d := Desc.of v
  let dims := List.range (min d.rank 6)
  let at' := fun (k : Nat) => 256 + 32 * k
  let sub : List (Option Nat) :=
    if d.rank ≠ 0 ∧ (d.w = 4 ∨ d.w = 6) then
      match dims.find? (fun k => d.strideAt k = 1) with
      | none => [some 256]
      | some p => dims.map (fun k => if k = p then none else forbid v.toNat (at' k) (if d.w = 4 then 1 else 2))
    else []
  let blk : List (Option Nat) :=
    if d.mx && d.bdim < d.rank then
      dims.map (fun k =>
        if d.strideAt k < 0 ∨ (k = d.bdim ∧ d.strideAt k ≠ 1) then some (at' k)
        else if k = d.bdim then none else forbid v.toNat (at' k) 5)
    else []
  sub ++ blk

/-- The offending bits of a descriptor that is not well-formed (R145), named as R143 names them. -/
def descOffences (v : BitVec 512) : List (Option Nat) :=
  let d := Desc.of v
  let n := v.toNat
  [forbid n 63 1, outside (d.space = 3) 57, outside (47 < d.core) 506,
    if d.space = 2 then none else forbid n 506 6, outside (0x17 < d.fmt) 474, outside (6 < d.rank) 479,
    if d.mx then outside (d.rank ≤ d.bdim) 482 else forbid n 482 3,
    if d.space = 0 && d.mx then none else forbid n 448 26, outside (4 < d.rnd) 485, outside (altBad d.alt.altv) 490]
  ++ (List.range 6).map (fun k => if k < d.rank then outside (d.extAt k = 0) (64 + 32 * k) else forbid n (64 + 32 * k) 32)
  ++ (List.range 6).map (fun k => if k < d.rank then none else forbid n (256 + 32 * k) 32)
  ++ (if d.fmt ≤ 0x17 then strideOffences v else [])

def lowestOf (l : List (Option Nat)) : Option Nat :=
  match l.filterMap id with
  | [] => none
  | b :: bs => some (bs.foldl min b)

/-- The check of R145: SHAPE_MISMATCH, reason 0x01. -/
def wellFormedDesc (v : BitVec 512) : Except TrapInfo Unit :=
  match lowestOf (descOffences v) with
  | none => .ok ()
  | some bit => .error ⟨cSHAPE_MISMATCH, 0, shapeAux 1 255 bit⟩

/-! ### Places of elements (R146) -/

/-- Σ xd × STRIDEd. -/
def Desc.offset (d : Desc) (x : List Nat) : Int := ((x.zip d.stride).map (fun (i, st) => (i : Int) * st)).foldl (· + ·) 0

/-- First bit of an element. -/
def Desc.bitAt (d : Desc) (x : List Nat) : Int := 8 * (d.base : Int) + d.w * d.offset x

/-- EXTd with the block dimension rounded up to whole blocks (R146). -/
def Desc.roundedExt (d : Desc) (k : Nat) : Nat := if d.mx ∧ k = d.bdim then (d.extAt k + 31) / 32 * 32 else d.extAt k

/-- The footprint of the elements: first byte, first byte beyond. -/
def Desc.footprint (d : Desc) : Int × Int :=
  let ends := (List.range d.rank).map (fun k => d.strideAt k * ((d.roundedExt k : Int) - 1))
  let lo := (ends.map (fun e => min e 0)).foldl (· + ·) 0
  let hi := (ends.map (fun e => max e 0)).foldl (· + ·) 0
  ((8 * (d.base : Int) + d.w * lo).fdiv 8, (8 * (d.base : Int) + d.w * hi + d.w + 7).fdiv 8)

/-- The address of the scale of the block whose first element lies at byte `a` (R98, R146); `bf` is the bank format of
a scratchpad tensor. -/
def Desc.scaleAt (d : Desc) (bf : Word) (a : Int) : Int :=
  if d.space = 0 then d.base + 4096 * d.scoff + (a - d.base).fdiv (4 * d.w)
  else 0x8000 * fieldAt bf.toNat 28 4 + fieldAt bf.toNat 13 15 + a.fdiv (4 * d.w)

/-- ALTV and ALTMODE of a tensor (R91). -/
def Desc.altOf (d : Desc) (bf : Word) : Alt :=
  if d.space = 0 then d.alt else ⟨fieldAt bf.toNat 48 16, fieldAt bf.toNat 44 1 = 1⟩

/-- Alignment required of BASE (R146). -/
def Desc.align (d : Desc) : Nat := if d.mx then 4 * d.w else max (d.w / 8) 1

/-! ### Bank formats -/

/-- The offending bits of a BFMT value (R97). -/
def bfmtOffences (v : Word) : List (Option Nat) :=
  let n := v.toNat
  let fmt := fieldAt n 0 5
  [forbid n 45 3, forbid n 32 8, forbid n 7 6, outside (0x17 < fmt) 0,
    outside (fmt ≤ 0x17 && fieldAt n 5 2 ≠ (if 0x10 ≤ fmt then 1 else 0)) 5, outside (4 < fieldAt n 40 3) 40,
    outside (altBad (fieldAt n 48 16)) 48]

/-- The bank whose BFMT registers decode a scratchpad tensor of the given space and core (R99): none when the core
holds no bank of the issuing job. -/
def State.formatBank (s : State) (b : BankId) (space core : Nat) : Option BankId :=
  if space = 1 ∨ core = coreNum b.core then some b
  else
    let at' := clusterOf b.core * 64 + core
    match s.jobOf b with
    | none => none
    | some j => (j.banks.find? (fun (q, _) => q.core = at')).map Prod.fst

/-- A value of BFMT by bank number. -/
def Bank.getBfmt (k : Bank) (n : Nat) : Word := k.bfmt.toList.getD n 0

/-! ### Checks of a use (R147) -/

def useAux (reg role dspan : Nat) : Word := BitVec.ofNat 64 (reg + role * 32 + dspan * 256)

/-- The first byte of a range outside a span. -/
def firstOutside (lo hi base limit : Int) : Option Int :=
  if hi ≤ lo then none else if lo < base then some lo else if limit < hi then some (max lo limit) else none

/-- Steps 0 to 5 of R147 for a descriptor with its captured span: the sampled BFMT, or the trap. Role 0 is the output,
1 to 3 are A, B, C; `acc` says that the output is read as accumulate-into. -/
def checkUse (s : State) (b : BankId) (v : BitVec 512) (span : SpanReg) (reg role : Nat) (acc : Bool) : Except TrapInfo Word :=
  match wellFormedDesc v with
  | .error t => .error t
  | .ok _ =>
    let d := Desc.of v
    let aux := useAux reg role d.dspan
    let base := BitVec.ofNat 64 d.base
    let sb : Int := sBASE span.bits
    let sl : Int := sLIMIT span.bits
    let (lo, hi) := d.footprint
    let need := if role = 0 then (if acc then pR + pW else pW) else pR
    let scale : Option Int := if d.mx ∧ d.space = 0 then firstOutside (d.scaleAt 0 lo) (d.scaleAt 0 (hi - 1) + 1) sb sl else none
    let first := (lo.toNat / 0x8000)
    let banks := (List.range ((hi - 1).toNat / 0x8000 - first + 1)).map (first + ·)
    if !span.valid ∨ sSPACE span.bits ≠ d.space ∨ (d.space = 2 ∧ sCORE span.bits ≠ d.core) then .error ⟨cSPAN_INVALID, base, aux⟩
    else if d.base % d.align ≠ 0 then .error ⟨cMISALIGNED, base, aux⟩
    else if !grants span.bits need then .error ⟨cSPAN_PERM, base, aux⟩
    else
      match firstOutside lo hi sb sl, scale with
      | some a, some c => .error ⟨cTENSOR_BOUNDS, wordOfInt (min a c), aux⟩
      | some a, none | none, some a => .error ⟨cTENSOR_BOUNDS, wordOfInt a, aux⟩
      | none, none =>
        if d.space = 0 then .ok 0
        else
          match s.formatBank b d.space d.core with
          | none => .error ⟨cFORMAT_SPLIT, BitVec.ofNat 64 first, aux⟩
          | some q =>
            let k := s.bank q
            let bf := k.getBfmt first
            let top := d.scaleAt bf (hi - 1)
            if d.mx ∧ 0x80000 ≤ top then .error ⟨cTENSOR_BOUNDS, wordOfInt (max (d.scaleAt bf lo) 0x80000), aux⟩
            else
              match banks.find? (fun n => k.getBfmt n ≠ bf) with
              | some n => .error ⟨cFORMAT_SPLIT, BitVec.ofNat 64 n, aux⟩
              | none => if fieldAt bf.toNat 0 5 ≠ d.fmt then .error ⟨cFORMAT_SPLIT, BitVec.ofNat 64 first, aux⟩ else .ok bf

/-! ### Moves between memory and the registers (R148) -/

/-- Reads 64 bytes on path C for TDEF, TLD and MLD, and goes on with them; `owned` is the register that must be owned
by C. The bytes are read at one moment: R148 promises that for each 8-byte word only. DESIGN CHOICE, log entry 92. -/
def load512 (m : MemRef) (owned : Option (BitVec 5)) (s : State) (b : BankId) (f : State → BitVec 512 → Res) : Res :=
  let k := s.bank b
  (k.ea m pR 64 64 true true false).andThen s (fun (addr, r) =>
    let waits : Bool := match owned with
      | some t => decide ((k.getT t).owner = .g)
      | none => false
    if waits then .wait s .tensorOwner ((owned.map (·.toNat)).getD 0) 0 []
    else
      match locate s b k.asid.toNat r m.sb.toNat addr false cFAULT_READ with
      | .error t => .trap s t
      | .ok (.place p x, s) =>
        match k.inOrder p 64 with
        | some tag => .wait s tag 1 0 []
        | none =>
          if s.eccAt p 64 then .trap s (eccTrap p addr)
          else
            let (bs, s) := (if uncachedAt p x then none else s.l1Read b p 64).getD (s.viewC b p 64, s.readPast b p 64)
            f s (BitVec.ofNat 512 (natOfBytes bs))
      | .ok (.remote d o, s) =>
        let (bs, s) := s.remoteRead d o 64
        f s (BitVec.ofNat 512 (natOfBytes bs))
      | .ok (.reg _, s) => f s 0)

/-- Writes a tensor register with the span it captures (R148). -/
def Bank.defT (k : Bank) (t : BitVec 5) (v : BitVec 512) (span : SpanReg) : Bank := k.setT t ⟨v, (k.getT t).owner, span⟩

/-- The span register that a descriptor names, as it is now. -/
def Bank.spanFor (k : Bank) (v : BitVec 512) : SpanReg := k.getB (BitVec.ofNat 4 (field512 v 59 4))

/-- TDEF (R148). -/
def execTdef (g : Guard) (t : BitVec 5) (m : MemRef) : State → Out :=
  runC g 1 (fun s b => load512 m (some t) s b (fun s v =>
    let cap := (s.bank b).spanFor v
    let role := if grants cap.bits pW then 0 else 1
    match checkUse s b v cap t.toNat role false with
    | .error e => .trap s e
    | .ok _ => .done (s.modBank b (fun k => k.defT t v cap))))

/-- TLD (R148). -/
def execTld (g : Guard) (t : BitVec 5) (m : MemRef) : State → Out :=
  runC g 1 (fun s b => load512 m (some t) s b (fun s v =>
    match wellFormedDesc v with
    | .error e => .trap s e
    | .ok _ => .done (s.modBank b (fun k => k.defT t v (k.spanFor v)))))

/-- TST (R148): a weak store of the visible bits, whatever the owner, performed at one moment (log entry 92). -/
def execTst (g : Guard) (t : BitVec 5) (m : MemRef) : State → Out :=
  runC g 1 (weakStore m 64 false (fun k => .ok (bytesOf 64 (k.getT t).desc.toNat, k)))

/-- MLD (R148). -/
def execMld (g : Guard) (mr : BitVec 3) (m : MemRef) : State → Out :=
  runC g 1 (fun s b => load512 m none s b (fun s v => .done (s.modBank b (fun k => k.setM mr v))))

/-- MST (R148): performed at one moment (log entry 92). -/
def execMst (g : Guard) (mr : BitVec 3) (m : MemRef) : State → Out :=
  runC g 1 (weakStore m 64 false (fun k => .ok (bytesOf 64 (k.getM mr).toNat, k)))

/-! ### Word access and ownership (R150, R151) -/

/-- A 512-bit value with one field replaced. -/
def setField512 (v : BitVec 512) (lo n w : Nat) : BitVec 512 :=
  let hi := v.toNat / 2 ^ (lo + n)
  BitVec.ofNat 512 (v.toNat % 2 ^ lo + w % 2 ^ n * 2 ^ lo + hi * 2 ^ (lo + n))

def execTset (g : Guard) (t : BitVec 5) (ra : Src) (n : BitVec 3) : State → Out :=
  pureC g 1 (fun k => do
    dirs [ra] []
    if (k.getT t).owner = .g then .error (.wait .tensorOwner t.toNat 0)
    else
      let (a, k) ← k.readSrc ra
      let v := setField512 (k.getT t).desc (64 * n.toNat) 64 a.toNat
      match wellFormedDesc v with
      | .error e => .error (.trap e)
      | .ok _ => .ok (k.defT t v (k.spanFor v)))

def execTget (g : Guard) (rd : Dst) (t : BitVec 5) (n : BitVec 3) : State → Out :=
  pureC g 1 (fun k => do
    dirs [] [rd]
    k.writeDst rd (BitVec.ofNat 64 (field512 (k.getT t).desc (64 * n.toNat) 64)))

/-- Gives a tensor register to a stream. -/
def Bank.give (k : Bank) (t : BitVec 5) (o : StreamKind) : Bank := k.setT t { k.getT t with owner := o }

def execThand (g : Guard) (t : BitVec 5) : State → Out := pureC g 1 (fun k => .ok (k.give t .g))

/-- GTHAND: the G stream issues in order, so every earlier grid instruction has issued. -/
def execGthand (g : Guard) (t : BitVec 5) : State → Out := pureG g 1 (fun k => .ok (k.give t .c))

/-- TENSOR_OWNER_WAKE (R142, R296). -/
def execTensorOwnerWake (b : BankId) (s : State) : Out := .next (s.wake ⟨b, .c⟩ [.tensorOwner])

/-! ### Bank formats and mapping registers (R152, R153) -/

def Bank.setBfmt (k : Bank) (n : BitVec 4) (v : Word) : Bank := { k with bfmt := k.bfmt.set n.toNat v n.isLt }

def execBfset (g : Guard) (bank : BitVec 4) (ra : Src) : State → Out :=
  pureC g 1 (fun k => do
    dirs [ra] []
    let (v, k) ← k.readSrc ra
    r143 v (bfmtOffences v)
    .ok (k.setBfmt bank v))

/-- MAP: one pair of a letter. -/
def execMap (g : Guard) (mr : BitVec 3) (ra : Src) (slot : BitVec 3) (pos : BitVec 2) : State → Out :=
  pureC g 1 (fun k => do
    dirs [ra] []
    let (v, k) ← k.readSrc ra
    r143 v [forbid v.toNat 15 49]
    .ok (k.setM mr (setField512 (k.getM mr) (60 * slot.toNat + 15 * pos.toNat) 15 v.toNat)))

/-- MAP.tile: MODE, TM and TN. -/
def execMapTile (g : Guard) (mr : BitVec 3) (ra : Src) : State → Out :=
  pureC g 1 (fun k => do
    dirs [ra] []
    let (v, k) ← k.readSrc ra
    r143 v [forbid v.toNat 10 54]
    .ok (k.setM mr (setField512 (k.getM mr) 480 10 v.toNat)))

def execMclr (g : Guard) (mr : BitVec 3) : State → Out := pureC g 1 (fun k => .ok (k.setM mr 0))

end Sys2Proof.Machine
end

