-- ==== Sys2Proof/Machine/Lower.lean ====
section
/-! DEFINITION. The mapping record (R124 to R127), the checks at issue (R136), and the lowering: participants, live indices, owners, readers, tree nodes (R128 to R132), demand (R138, R139). -/
namespace Sys2Proof.Machine

/-! ### The mapping record (R124 to R126) -/

def recLevel (m : BitVec 512) (s p : Nat) : Nat := field512 m (60 * s + 15 * p + 12) 3
def recFact (m : BitVec 512) (s p : Nat) : Nat := field512 m (60 * s + 15 * p) 12
def recFree (m : BitVec 512) : Bool := field512 m 489 1 = 1
def recTM (m : BitVec 512) : Nat := field512 m 487 2
def recTN (m : BitVec 512) : Nat := field512 m 480 7

/-- The used pairs of a letter, outermost first: level and factor. -/
def letterPairs (m : BitVec 512) (s : Nat) : List (Nat × Nat) :=
  ((List.range 4).map (fun p => (recLevel m s p, recFact m s p + 1))).filter (fun q => q.1 ≠ 0)

/-- The offending bits of a malformed letter field (R126): `prev` is the level before, `gap` an unused pair before. -/
def letterOffences (m : BitVec 512) (s : Nat) : Nat → Nat → Nat → Bool → List (Option Nat)
  | 0, _, _, _ => []
  | n + 1, p, prev, gap =>
    let lv := recLevel m s p
    let at' := 60 * s + 15 * p
    if lv = 0 then forbid m.toNat at' 12 :: letterOffences m s n (p + 1) 0 true
    else outside (gap || lv ≤ prev) (at' + 12) :: letterOffences m s n (p + 1) lv gap

/-- The lowest offending bit of a malformed record (R126). -/
def malformedBit (m : BitVec 512) : Option Nat :=
  lowestOf ([forbid m.toNat 490 22, outside (recTM m = 3) 487, outside (65 ≤ recTN m) 480]
    ++ (List.range 8).flatMap (fun s => letterOffences m s 4 0 0 false))

def lvDIE : Nat := 1
def lvCLU : Nat := 2
def lvCORE : Nat := 3
def lvSEQ : Nat := 4
def lvGROW : Nat := 5
def lvGCOL : Nat := 6
def lvGK : Nat := 7

/-- The factor of a letter at a level, 1 when it has no pair there. -/
def factorAt (m : BitVec 512) (s lv : Nat) : Nat := ((letterPairs m s).find? (fun q => q.1 = lv)).elim 1 Prod.snd

def prodNat (l : List Nat) : Nat := l.foldl (· * ·) 1

/-- The product of the factors of all letters at a level (R127, R130). -/
def levelFactor (m : BitVec 512) (lv : Nat) : Nat := prodNat ((List.range 8).map (fun s => factorAt m s lv))

/-! ### The operation to be lowered -/

inductive OpKind where
  | ctr | ctrs | red | cvt | ewr
  deriving DecidableEq, Repr

/-- An operand: role (0 O, 1 A, 2 B, 3 C), letters in order, descriptor, ALTV and ALTMODE (R91). -/
structure Opnd where
  role : Nat
  lets : List Nat
  d : Desc
  alt : Alt
  deriving DecidableEq, Repr

/-- A grid instruction as its checks see it; `ops` in the order O, A, B, C; `job` is dies, clusters per die, cores per
cluster; `me` the job coordinates. -/
structure GridIn where
  kind : OpKind
  ops : List Opnd
  m : BitVec 512
  acc : Bool
  shape : Nat
  job : Nat × Nat × Nat
  me : Nat × Nat × Nat
  staging : Nat
  deriving DecidableEq, Repr

def GridIn.out (g : GridIn) : Opnd := g.ops.headD ⟨0, [], Desc.of 0, Alt.none⟩
def GridIn.ins (g : GridIn) : List Opnd := g.ops.tail
/-- Whether the operation is a contraction (R113). -/
def GridIn.sums (g : GridIn) : Bool := g.kind = .ctr || g.kind = .ctrs || g.kind = .red

def carries (o : Opnd) (s : Nat) : Bool := o.lets.contains s
/-- The letters that some operand carries, ascending. -/
def GridIn.letters (g : GridIn) : List Nat := (List.range 8).filter (fun s => g.ops.any (fun o => carries o s))
/-- The summed letters, ascending (R113, R114). -/
def GridIn.summed (g : GridIn) : List Nat :=
  (List.range 8).filter (fun s => g.ins.any (fun o => carries o s) && !carries g.out s)

/-- Extent of a letter in an operand. -/
def Opnd.extOf (o : Opnd) (s : Nat) : Option Nat := if o.lets.contains s then some (o.d.extAt (o.lets.idxOf s)) else none
/-- Extent of a letter: that of the first operand that carries it; 1 when none does (R130). -/
def GridIn.ext (g : GridIn) (s : Nat) : Nat := (g.ops.findSome? (fun o => o.extOf s)).getD 1
/-- The sum length L (R114). -/
def GridIn.len (g : GridIn) : Nat := prodNat (g.summed.map g.ext)
def GridIn.nb (g : GridIn) : Nat := (g.len + 31) / 32

/-- Input classes of R115. -/
inductive Cls where
  | int | narrow | wide
  deriving DecidableEq, Repr

def classOf (fmt : Nat) : Option Cls :=
  if fmt = 0 ∨ fmt = 4 then some .int
  else if 8 ≤ fmt ∧ fmt ≤ 10 then some .wide
  else if 0x0B ≤ fmt ∧ fmt ≤ 0x17 then some .narrow else none

/-- The class of all inputs of a contraction. -/
def joinClass (a b : Cls) : Option Cls :=
  match a, b with
  | .int, .narrow | .narrow, .int => some .narrow
  | a, b => if a = b then some a else none

def GridIn.cls (g : GridIn) : Cls :=
  match g.ins.map (fun o => classOf o.d.fmt) with
  | [some a] => a
  | [some a, some b] => (joinClass a b).getD a
  | _ => .wide

/-- Exponent of the smallest subnormal of an unscaled input format of the narrow class; 0 for an integer input (R407). -/
def fineExp (fmt : Nat) : Option Int :=
  match elemFmt fmt with
  | .fp f => if fmt < 0x10 then some (1 - f.bias - f.mb) else none
  | .int .. => some 0
  | .mxi _ => none

/-- The tag of every exact partial of a contraction of the narrow class whose inputs are unscaled (R407). -/
def GridIn.fixedTag (g : GridIn) : Option Int :=
  if g.cls = .narrow then (g.ins.map (fun o => fineExp o.d.fmt)).foldl (fun a b => a.bind (fun x => b.map (x + ·))) (some 0) else none

/-- W of R118. -/
def GridIn.wbits (g : GridIn) : Nat := if g.ins.any (fun o => o.d.fmt = fmtF32) then 72 else 48

/-! ### Tiles -/

/-- The format group of the Mirio table (R157): 0 FP8, 1 16-bit, 2 FP32, 3 INT8. -/
def mirioGroup (fmt : Nat) : Option Nat :=
  if fmt = 0x0B ∨ fmt = 0x0C then some 0
  else if fmt = 0x09 ∨ fmt = 0x0A then some 1
  else if fmt = 0x08 then some 2
  else if fmt = 0 ∨ fmt = 4 then some 3 else none

/-- The Mirio shape table for FP8 (R157). -/
def mirioTable : List (Nat × Nat × Nat) :=
  [(32, 32, 32), (32, 64, 32), (64, 32, 32), (64, 64, 32), (32, 32, 64), (64, 64, 64), (128, 64, 64), (128, 64, 128)]

def mirioTile (shape group : Nat) : Option (Nat × Nat × Nat) :=
  match mirioTable[shape]? with
  | none => none
  | some (m, n, k) =>
    match group with
    | 1 => some (m, n, k / 2)
    | 2 => if 6 ≤ shape then none else some (m, n, k / 4)
    | _ => some (m, n, k)

/-- M, N and K (R124, R127, R157). -/
def GridIn.tile (g : GridIn) : Nat × Nat × Nat :=
  let w := (g.ins.map (fun o => o.d.w)).foldl max 0
  let w := if w = 6 then 8 else w
  let own := (32 * 2 ^ recTM g.m, 16 * recTN g.m, 1024 / w)
  if g.kind = .ctrs then
    match mirioGroup ((g.ins.headD g.out).d.fmt) with
    | some q => (mirioTile g.shape q).getD own
    | none => own
  else own

/-! ### Participants and coordinates (R130) -/

abbrev Coord := Nat × Nat × Nat

def Coord.at (c : Coord) (lv : Nat) : Nat := if lv = lvDIE then c.1 else if lv = lvCLU then c.2.1 else c.2.2

/-- A letter's coordinate at a spatial level: the mixed-radix digit of the participant's coordinate there. -/
def spatialAt (m : BitVec 512) (c : Coord) (lv s : Nat) : Nat :=
  let after := prodNat (((List.range 8).filter (fun t => s < t)).map (fun t => factorAt m t lv))
  c.at lv / after % factorAt m s lv

def GridIn.dims (g : GridIn) : Coord := (levelFactor g.m lvDIE, levelFactor g.m lvCLU, levelFactor g.m lvCORE)
def GridIn.isPart (g : GridIn) (c : Coord) : Bool := c.1 < g.dims.1 && c.2.1 < g.dims.2.1 && c.2.2 < g.dims.2.2
/-- The participants, by rank. -/
def GridIn.parts (g : GridIn) : List Coord :=
  (List.range g.dims.1).flatMap (fun d => (List.range g.dims.2.1).flatMap (fun c => (List.range g.dims.2.2).map (fun k => (d, c, k))))

/-- The coordinate of a letter is 0 at every spatial level. -/
def allZeroAt (m : BitVec 512) (c : Coord) (s : Nat) : Bool :=
  spatialAt m c lvDIE s = 0 && spatialAt m c lvCLU s = 0 && spatialAt m c lvCORE s = 0

/-- The owner of what a participant holds has coordinate 0 in every summed letter (R130). -/
def GridIn.owner (g : GridIn) (c : Coord) : Bool := g.summed.all (fun s => allZeroAt g.m c s)
/-- A participant with a nonzero coordinate in a letter that no operand carries holds nothing (R130). -/
def GridIn.dead (g : GridIn) (c : Coord) : Bool := ((List.range 8).filter (fun s => !g.letters.contains s)).any (fun s => !allZeroAt g.m c s)

/-- The participant's coordinates with those of some letters set to 0. -/
def GridIn.project (g : GridIn) (c : Coord) (keep : Nat → Bool) : Coord :=
  let at' := fun (lv : Nat) =>
    (List.range 8).foldl (fun v s => v * factorAt g.m s lv + (if keep s then spatialAt g.m c lv s else 0)) 0
  (at' lvDIE, at' lvCLU, at' lvCORE)

/-- The reader of the block of an operand that a participant needs (R131). -/
def GridIn.reader (g : GridIn) (o : Opnd) (c : Coord) : Coord := g.project c (carries o)
/-- The owner of the output elements that a participant holds. -/
def GridIn.ownerOf (g : GridIn) (c : Coord) : Coord := g.project c (fun s => !g.summed.contains s)

/-- The index that coordinates denote, or none when it is not live; `b` is the block size before, `f` the product of
the factors before (R130). -/
def liveIndex (e : Nat) : Nat → Nat → List Nat → List Nat → Option Nat
  | _, _, [], _ => some 0
  | b, f, k :: ks, a =>
    let f := f * k
    match liveIndex e ((e + f - 1) / f) f ks a.tail with
    | none => none
    | some r => let x := a.headD 0 * ((e + f - 1) / f) + r; if x < b then some x else none

/-- All choices of one element from each list, the first varying slowest. -/
def cartesian {α : Type} : List (List α) → List (List α)
  | [] => [[]]
  | l :: ls => l.flatMap (fun x => (cartesian ls).map (x :: ·))

/-- The indices of a letter that a participant runs through: SEQ coordinate and index, in order. -/
def GridIn.indices (g : GridIn) (c : Coord) (s : Nat) : List (Nat × Nat) :=
  let ps := letterPairs g.m s
  let e := g.ext s
  let choices := ps.map (fun (lv, f) => if lv ≤ lvCORE then [spatialAt g.m c lv s] else List.range f)
  (cartesian choices).filterMap (fun a =>
    match liveIndex e e 1 (ps.map Prod.snd) a with
    | none => none
    | some x =>
      if x < e then some (((ps.zip a).find? (fun q => q.1.1 = lvSEQ)).elim 0 Prod.snd, x) else none)

/-- Indices of a letter with a given SEQ coordinate. -/
def GridIn.indicesAt (g : GridIn) (c : Coord) (s q : Nat) : List Nat :=
  if g.dead c then [] else ((g.indices c s).filter (fun p => p.1 = q)).map Prod.snd

/-- SEQ coordinates of a tile or step number over the given letters, first letter most significant. -/
def seqDigits (m : BitVec 512) (ls : List Nat) (n : Nat) (s : Nat) : Nat :=
  if ls.contains s then
    n / prodNat ((ls.filter (fun t => s < t)).map (fun t => factorAt m t lvSEQ)) % factorAt m s lvSEQ
  else 0

def GridIn.outLetters (g : GridIn) : List Nat := g.letters.filter (fun s => carries g.out s)
def GridIn.stepLetters (g : GridIn) : List Nat := (List.range 8).filter (fun s => !carries g.out s)
/-- Number of output tiles and of steps in each (R134). -/
def GridIn.tiles (g : GridIn) : Nat := prodNat (g.outLetters.map (fun s => factorAt g.m s lvSEQ))
def GridIn.steps (g : GridIn) : Nat := prodNat (g.stepLetters.map (fun s => factorAt g.m s lvSEQ))

/-- The SEQ coordinate of a letter in step `st` of tile `t`. -/
def GridIn.seqAt (g : GridIn) (t st s : Nat) : Nat :=
  if carries g.out s then seqDigits g.m g.outLetters t s else seqDigits g.m g.stepLetters st s

/-- Whether a step is live for the letters that no operand carries. -/
def GridIn.stepLive (g : GridIn) (st : Nat) : Bool :=
  (g.stepLetters.filter (fun s => !g.letters.contains s)).all (fun s => g.seqAt 0 st s = 0)

/-- The output elements of tile `t` that a participant holds, coordinates in O's letter order; a dead participant holds
none, of an output without letters too (R130). -/
def GridIn.outElems (g : GridIn) (c : Coord) (t : Nat) : List (List Nat) :=
  if g.dead c then [] else cartesian (g.out.lets.map (fun s => g.indicesAt c s (g.seqAt t 0 s)))

/-- The summed coordinates that a participant holds, in all steps: ascending term index. -/
def GridIn.sumElems (g : GridIn) (c : Coord) : List (List Nat) :=
  if g.dead c then [] else cartesian (g.summed.map (fun s => (g.indices c s).map Prod.snd))

/-- Term index of summed coordinates (R114). -/
def GridIn.termIndex (g : GridIn) (x : List Nat) : Nat := (g.summed.zip x).foldl (fun t q => t * g.ext q.1 + q.2) 0

/-- The block of an operand in a step: coordinates in the operand's letter order, first letter slowest. -/
def GridIn.block (g : GridIn) (o : Opnd) (c : Coord) (t st : Nat) : List (List Nat) :=
  if g.stepLive st && !g.dead c && (g.letters.all (fun s => g.indicesAt c s (g.seqAt t st s) ≠ [])) then
    cartesian (o.lets.map (fun s => g.indicesAt c s (g.seqAt t st s)))
  else []

/-! ### Partials (R128, R132) -/

/-- The term indices that a participant holds. -/
def GridIn.terms (g : GridIn) (c : Coord) : List Nat := (g.sumElems c).map g.termIndex

def blockLen (len b : Nat) : Nat := min 32 (len - 32 * b)
def GridIn.heldIn (g : GridIn) (c : Coord) (b : Nat) : Nat := ((g.terms c).filter (fun t => t / 32 = b)).length
def GridIn.whole (g : GridIn) (c : Coord) (b : Nat) : Bool := g.heldIn c b = blockLen g.len b
/-- Sum blocks of which a participant holds only some terms. -/
def GridIn.partialBlocks (g : GridIn) (c : Coord) : List Nat :=
  (List.range g.nb).filter (fun b => g.heldIn c b ≠ 0 && !g.whole c b)

/-- Maximal tree nodes (height, number) all of whose blocks satisfy a test, in ascending first block (R128). -/
def nodesIn (whole : Nat → Bool) (nb : Nat) : Nat → Nat → List (Nat × Nat)
  | 0, i => if i < nb && whole i then [(0, i)] else []
  | h + 1, i =>
    if nb ≤ i * 2 ^ (h + 1) then []
    else if (List.range (min (2 ^ (h + 1)) (nb - i * 2 ^ (h + 1)))).all (fun k => whole (i * 2 ^ (h + 1) + k)) then [(h + 1, i)]
    else nodesIn whole nb h (2 * i) ++ nodesIn whole nb h (2 * i + 1)

def treeTop (nb : Nat) : Nat := Nat.log2 nb + 1
def GridIn.nodes (g : GridIn) (c : Coord) : List (Nat × Nat) := nodesIn (g.whole c) g.nb (treeTop g.nb) 0

/-! ### A split inside a sum block (R128) -/

/-- The summed coordinates of a term. -/
def GridIn.termDigits (g : GridIn) (t : Nat) : List (Nat × Nat) :=
  g.summed.map (fun s => (s, t / prodNat ((g.summed.filter (fun q => s < q)).map g.ext) % g.ext s))

/-- The spatial coordinates that hold an index of a letter: level and coordinate, by greedy cutting (R130). -/
def greedy (e : Nat) : Nat → List (Nat × Nat) → Nat → List (Nat × Nat)
  | _, [], _ => []
  | f, (lv, k) :: ps, x =>
    let f := f * k
    let b := (e + f - 1) / f
    (if lv ≤ lvCORE then [(lv, x / b)] else []) ++ greedy e f ps (x % b)

/-- Letter, level and coordinate of everything spatial that holds a term. -/
def GridIn.termHolder (g : GridIn) (t : Nat) : List (Nat × Nat × Nat) :=
  (g.termDigits t).flatMap (fun (s, x) => (greedy (g.ext s) 1 (letterPairs g.m s) x).map (fun (lv, a) => (s, lv, a)))

/-- The lowest run boundary inside a sum block, with its letter and level: the outermost level of the first letter
whose coordinate changes there. -/
def GridIn.cut (g : GridIn) : Option (Nat × Nat × Nat) :=
  match (List.range g.len).find? (fun t => t % 32 ≠ 0 && g.termHolder t != g.termHolder (t - 1)) with
  | none => none
  | some t => ((g.termHolder t).zip (g.termHolder (t - 1))).findSome? (fun (p, q) =>
      if p ≠ q then some (t, p.1, p.2.1) else none)

/-! ### Demand (R138, R139) -/

def engines (rank : Nat) : Nat := (max rank 1 + 2) / 3

/-- Whether an operand is broadcast at some spatial level (R131). -/
def GridIn.broadcast (g : GridIn) (o : Opnd) : Bool :=
  (List.range 8).any (fun s => !carries o s && (1 < factorAt g.m s lvDIE || 1 < factorAt g.m s lvCLU || 1 < factorAt g.m s lvCORE))

/-- The participants that the job has: the record may name more (R130, R136). -/
def GridIn.present (g : GridIn) : List Coord := g.parts.filter (fun c => c.1 < g.job.1 && c.2.1 < g.job.2.1 && c.2.2 < g.job.2.2)

/-- The participants that send partials to an owner. -/
def GridIn.senders (g : GridIn) (c : Coord) : List Coord :=
  g.parts.filter (fun q => q ≠ c && !g.owner q && g.ownerOf q = c && g.terms q ≠ [])

/-- The stream engines that a participant needs (R138). A reader of a broadcast operand counts one for the multicast whether or not
a receiver has a live index. DEDUCED, log entry 36. -/
def GridIn.engineNeed (g : GridIn) (c : Coord) : Nat :=
  let inp := fun (o : Opnd) =>
    if g.reader o c = c then engines o.lets.length + (if g.broadcast o then 1 else 0) else 1
  let own := engines g.out.lets.length * (if g.acc then 2 else 1) + (if g.senders c = [] then 0 else 1)
  (g.ins.map inp).foldl (· + ·) 0 + (if g.owner c then own else 1)

def round256 (n : Nat) : Nat := (n + 255) / 256 * 256

/-- Whether an exact partial can arrive at an owner: the sum is cut inside a block, and its class has such partials (R128, R129).
FREE mode allows FP32 partials in their place and does not forbid them (R120). -/
def GridIn.exactComes (g : GridIn) : Bool := g.cut.isSome && g.cls ≠ .wide

/-- The staging bytes of R139. Whether a sender's buffer takes 16 or 4 bytes for an element is decided once for the whole
contraction, in FREE mode as in CANON mode. DESIGN CHOICE, log entry 85. -/
def GridIn.stagingNeed (g : GridIn) (c : Coord) : Nat :=
  let gridF := fun (s : Nat) => factorAt g.m s lvGROW * factorAt g.m s lvGCOL * factorAt g.m s lvGK
  let inp := fun (o : Opnd) =>
    let n := prodNat (o.lets.map gridF)
    round256 (2 * ((n * o.d.w + 7) / 8 + (if o.d.mx then (n + 31) / 32 else 0)))
  let tile := levelFactor g.m lvGROW * levelFactor g.m lvGCOL
  let part := if g.owner c then (g.senders c).length * round256 (tile * (if g.exactComes then 16 else 4)) else 0
  (g.ins.map inp).foldl (· + ·) 0 + round256 (tile * 4) + part

/-! ### The checks of R136, steps 1 to 8 -/

def shapeTrap (reason letter detail : Nat) : TrapInfo := ⟨cSHAPE_MISMATCH, 0, shapeAux reason letter detail⟩

def GridIn.step1 (g : GridIn) : Option TrapInfo :=
  match malformedBit g.m with
  | some b => some (shapeTrap 1 (if b < 480 then b / 60 else 255) b)
  | none =>
    if g.kind = .ctrs then (forbid g.m.toNat 480 9).map (shapeTrap 1 255)
    else if recTN g.m = 0 then some (shapeTrap 1 255 480) else none

/-- ALTV outside the range of R116. -/
def altRange (o : Opnd) : Bool :=
  (o.d.fmt = 0x0F || o.d.fmt = 0x14) && !o.alt.nanMode && o.alt.altv % 0x8000 ≠ 0
    && !(119 ≤ fieldAt o.alt.altv 7 8 && fieldAt o.alt.altv 7 8 ≤ 134)

/-- The offending input format of a contraction (R115, R137). -/
def badClass (fmts : List Nat) : Option Nat :=
  match fmts.find? (fun f => (classOf f).isNone) with
  | some f => some f
  | none =>
    match fmts with
    | [a, b] =>
      match classOf a, classOf b with
      | some p, some q => if (joinClass p q).isNone then some b else none
      | _, _ => none
    | _ => none

/-- The offending input format of CTRS (R157). -/
def badGroup (fmts : List Nat) : Option Nat :=
  match fmts.find? (fun f => (mirioGroup f).isNone) with
  | some f => some f
  | none => fmts.find? (fun f => mirioGroup f ≠ mirioGroup (fmts.headD 0))

def GridIn.step2 (g : GridIn) : Option TrapInfo :=
  let fmts := g.ins.map (fun o => o.d.fmt)
  if !g.sums then none
  else
    match (if g.kind = .ctrs then badGroup fmts else badClass fmts) with
    | some f => some (shapeTrap 6 255 f)
    | none =>
      if g.kind = .ctrs ∧ ((mirioGroup (fmts.headD 0)).bind (mirioTile g.shape)).isNone then some ⟨cILLEGAL_FIELD, 0, 40⟩
      else if g.ins.any altRange then some (shapeTrap 8 255 0) else none

def GridIn.step3 (g : GridIn) : Option TrapInfo :=
  match g.ops.find? (fun o => o.lets.length ≠ o.d.rank) with
  | some o => some (shapeTrap 0x0B 255 o.role)
  | none =>
    (g.ops.flatMap (fun o => o.lets.map (fun s => (s, o.extOf s)))).findSome? (fun (s, e) =>
      if e ≠ some (g.ext s) then some (shapeTrap 2 s 0) else none)

def GridIn.step4 (g : GridIn) : Option TrapInfo :=
  (g.letters.find? (fun s => prodNat ((letterPairs g.m s).map Prod.snd) < g.ext s)).map (fun s => shapeTrap 3 s 0)

/-- A grid pair on a letter of the wrong class (R127, R130, R159, R163). -/
def GridIn.wrongLevel (g : GridIn) (s lv : Nat) : Bool :=
  lvGROW ≤ lv && (!g.letters.contains s || (if lv = lvGK then carries g.out s || !g.sums else g.summed.contains s))

def GridIn.step5 (g : GridIn) : Option TrapInfo :=
  let (m, n, k) := g.tile
  let lost := if g.kind = .cvt then (g.ins.flatMap (·.lets)).find? (fun s => !carries g.out s) else none
  match lost with
  | some s => some (shapeTrap 5 s 0)
  | none =>
    match (List.range 8).findSome? (fun s => ((letterPairs g.m s).find? (fun q => g.wrongLevel s q.1)).map (fun q => shapeTrap 5 s q.1)) with
    | some t => some t
    | none => ([(lvGROW, m), (lvGCOL, n), (lvGK, k)].find? (fun (lv, d) =>
        levelFactor g.m lv ≠ 1 && levelFactor g.m lv ≠ d)).map (fun (lv, _) => shapeTrap 4 255 lv)

def GridIn.step6 (g : GridIn) : Option TrapInfo :=
  if !g.sums then none
  else
    match g.summed.getLast? with
    | none => none
    | some sn =>
      g.ins.findSome? (fun o =>
        let l := o.lets.getD o.d.bdim 255
        if o.d.mx && (l ≠ sn || (1 < g.summed.length && g.ext sn % 32 ≠ 0)) then some (shapeTrap 7 l 0) else none)

def GridIn.step7 (g : GridIn) : Option TrapInfo :=
  if g.sums && g.cls = .wide && !recFree g.m then
    g.cut.map (fun (t, s, lv) => ⟨cMAP_CANON_SPLIT, 0, BitVec.ofNat 64 (lv + s * 256 + t * 2 ^ 32)⟩)
  else none

/-- MAP_OVERFLOW with RES, NEED and HAVE (R137). A count that its 28 bits do not hold stands there by its low 28 bits.
DESIGN CHOICE, log entry 86. -/
def overflowTrap (res need have' : Nat) : TrapInfo :=
  ⟨cMAP_OVERFLOW, 0, BitVec.ofNat 64 (res * 2 ^ 56 + need % 2 ^ 28 * 2 ^ 28 + have' % 2 ^ 28)⟩

def GridIn.step8 (g : GridIn) : Option TrapInfo :=
  let (m, n, _) := g.tile
  let (pd, pc, pk) := g.dims
  let (nd, nc, nk) := g.job
  let mine := g.isPart g.me
  let need : List (Nat × Nat × Nat) :=
    [(1, pd, nd), (2, pc, nc), (3, pk, nk), (4, m * n, 8192)]
      ++ (if mine then [(5, g.engineNeed g.me, 8), (6, g.stagingNeed g.me, g.staging)] else [])
  (need.find? (fun (_, a, b) => b < a)).map (fun (r, a, b) => overflowTrap r a b)

/-- The first failure of steps 1 to 8 (R136). Where several letters, levels or inputs fail one step, which one TRAPAUX names is log
entry 35. -/
def GridIn.check (g : GridIn) : Option TrapInfo :=
  match g.step1 with
  | some t => some t
  | none =>
    match g.step2 with
    | some t => some t
    | none =>
      match g.step3 with
      | some t => some t
      | none =>
        match g.step4 with
        | some t => some t
        | none =>
          match g.step5 with
          | some t => some t
          | none =>
            match g.step6 with
            | some t => some t
            | none =>
              match g.step7 with
              | some t => some t
              | none => g.step8

end Sys2Proof.Machine
end

