-- ==== Sys2Proof/Machine/Engine.lean ====
section
/-! DEFINITION. Byte accesses of the engines: stream engines and Spindle (path S), copy engines (path X), Attar (path A). -/
namespace Sys2Proof.Machine

/-- Why an engine's access fails: its translation, another cause of R374, an uncorrectable error. -/
inductive EFault where
  | xlat (f : XFault)
  | cause (c : Nat)
  | ecc
  deriving DecidableEq, Repr

/-- Whose access it is: the TLBs that serve it, its bank, path and operation, its partition and ASID, and its span. -/
structure EngCtx where
  hs : List TlbHolder
  bank : BankId
  path : Nat
  op : Nat
  part : Nat
  asid : Nat
  span : SpanReg
  deriving DecidableEq, Repr

def EngCtx.core (c : EngCtx) : Nat := c.bank.core

/-- Where a byte of a span lies for an engine, with the page checks of R331 and R332. A page outside device memory fails as a
mismatch of R332 does; after acceptance that fault is held like every fault of the path (R238). DEDUCED, log entry 37. -/
def engPlace (s : State) (c : EngCtx) (addr : Nat) (write : Bool) : Except EFault (Where × State) :=
  match sSPACE c.span.bits with
  | 1 => .ok (.place (spadPlace c.core addr) none, s)
  | 2 => .ok (.place (spadPlace (clusterOf c.core * 64 + sCORE c.span.bits) addr) none, s)
  | 3 =>
    match windowDown s with
    | some f => .error (.xlat f)
    | none => .ok (.remote (sDEVID c.span.bits) addr, s)
  | _ =>
    let fin := fun (t : Tr) => match t with
      | .fault f _ => Except.error (EFault.xlat f)
      | .window d o =>
        match (windowDown s).or (s.remoteFault d o write) with
        | some f => .error (.xlat f)
        | none => .ok (Where.remote d o, s)
      | .ok x s =>
        if x.spanstore then .error (.cause cSPAN_STORE)
        else if !isDevMem x.pa || sPERM c.span.bits &&& pDEV ≠ 0 then .error (.cause cSPAN_PERM)
        else .ok (.place x.pa (some x), s)
    match s.translateFor c.hs c.part c.asid addr write with
    | .window d o => if s.ownDid = some d then fin (s.exportXlat o write).looped else fin (.window d o)
    | t => fin t

/-- What an engine reads at a place: paths S and X what its cluster's cache shows, path A what is performed (R197, R199). -/
def EngCtx.view (c : EngCtx) (s : State) (place n : Nat) : List Byte :=
  if c.path = 5 then s.readMem place n else s.viewCluster (clusterOf c.core) place n

/-- A write of an engine at a place. In device memory it is in its cluster's cache, and globally visible later (R199); a place
that no cache holds it writes at once. `rels` are the releases that it carries. -/
def EngCtx.write (c : EngCtx) (s : State) (va place : Nat) (x : Option Xlat) (bs : List Byte) (rels : List (Scope × List Nat)) : State :=
  if uncachedAt place x then ((s.landHome place bs.length).performWrite (some c.core) place bs false).tagWrite place bs.length c.core rels
  else s.queueWrite ⟨0, c.bank, c.part, c.path, c.op, va, place, bs, false, true, false, rels, none⟩

/-- A read of an engine leaves its line in its cluster's cache, which holds no line of path A (R197). -/
def EngCtx.share (c : EngCtx) (s : State) (place : Nat) (x : Option Xlat) : State :=
  if c.path = 5 || uncachedAt place x then s else s.dirRead (clusterOf c.core) place

/-- A fault of an access that an error in a page-table entry caused is logged (R373). -/
def EngCtx.noteFault (c : EngCtx) (s : State) (addr : Nat) (f : EFault) : State :=
  match f with
  | .xlat x => s.logAccess c.part c.asid addr x
  | _ => s

/-- Reads bytes, 8 at a time at most. Bytes of another device are free values, and the request leaves the device. -/
def engRead (c : EngCtx) : Nat → State → Nat → Nat → Except (Nat × EFault) (List Byte × State)
  | 0, s, _, _ => .ok ([], s)
  | fuel + 1, s, addr, n =>
    if n = 0 then .ok ([], s)
    else
      let len := min n (8 - addr % 8)
      match engPlace s c addr false with
      | .error f => .error (addr, f)
      | .ok (w, s) =>
        let got : Except EFault (List Byte × State) :=
          match w with
          | .place p x => if s.eccAt p len then .error .ecc else .ok (c.view s p len, c.share s p x)
          | .remote d o => .ok (bytesOf len (natOfBytes (Config.freeBytes s.tick addr)), { s with outbox := s.outbox ++ [.plain d o none len] })
          | .reg _ => .error (.cause cSPAN_PERM)
        match got with
        | .error f => .error (addr, f)
        | .ok (bs, s) =>
          match engRead c fuel s (addr + len) (n - len) with
          | .error e => .error e
          | .ok (r, s) => .ok (bs ++ r, s)

def State.engLoad (s : State) (c : EngCtx) (addr n : Nat) : Except (Nat × EFault) (List Byte × State) := engRead c (n / 8 + 2) s addr n

/-- Writes bytes, 8 at a time at most; the first failure ends it with what was written before. -/
def engWrite (c : EngCtx) : Nat → State → Nat → List Byte → State × Option (Nat × EFault)
  | 0, s, _, _ => (s, none)
  | fuel + 1, s, addr, bs =>
    if bs = [] then (s, none)
    else
      let len := min bs.length (8 - addr % 8)
      match engPlace s c addr true with
      | .error f => (c.noteFault s addr f, some (addr, f))
      | .ok (w, s) =>
        let s := match w with
          | .place p x => c.write s addr p x (bs.take len) []
          | .remote d o => { s with outbox := s.outbox ++ [.plain d o (some (bs.take len)) len] }
          | .reg _ => s
        engWrite c fuel s (addr + len) (bs.drop len)

def State.engStore (s : State) (c : EngCtx) (addr : Nat) (bs : List Byte) : State × Option (Nat × EFault) :=
  engWrite c (bs.length / 8 + 2) s addr bs

/-- A byte string of exactly `n` bytes. -/
def fitBytes (n : Nat) (bs : List Byte) : List Byte := (bs ++ List.replicate (n - bs.length) 0).take n

/-- The cause of a failed engine access: `x` for a failed translation. -/
def EFault.code (f : EFault) (x : Nat) : Nat :=
  match f with
  | .xlat _ => x
  | .cause c => c
  | .ecc => cECC_UNCORRECTED

/-- Free value of this step, by family and three indices. -/
def State.pick (s : State) (fam a b c : Nat) : Nat := s.free (fam + 16 * (a + 2 ^ 40 * (b + 2 ^ 40 * c)))

/-! ### Tensor elements (R88, R90, R146) -/

/-- The code of an element, and its block's scale (127 for an unscaled format). -/
def readElem (c : EngCtx) (d : Desc) (bf : Word) (s : State) (x : List Nat) : Except (Nat × EFault) ((Nat × Nat) × State) :=
  let bit := (d.bitAt x).toNat
  let w := d.w
  match s.engLoad c (bit / 8) ((bit % 8 + w + 7) / 8) with
  | .error e => .error e
  | .ok (bs, s) =>
    let code := fieldAt (natOfBytes bs) (bit % 8) w
    if d.mx then
      let a := (d.bitAt x - (w * (x.getD d.bdim 0 % 32) : Nat)).fdiv 8
      match s.engLoad c (d.scaleAt bf a).toNat 1 with
      | .error e => .error e
      | .ok (sc, s) => .ok ((code, natOfBytes sc), s)
    else .ok ((code, 127), s)

/-- The value of an element. -/
def elemVal (d : Desc) (alt : Alt) (e : Nat × Nat) : Val :=
  if d.mx then fromBlock d.fmt alt e.2 e.1 else fromFmt d.fmt alt e.1

/-- Reads elements one after another; the first failure ends it. -/
def readElems (c : EngCtx) (d : Desc) (bf : Word) : State → List (List Nat) → Except (Nat × EFault) (List (Nat × Nat) × State)
  | s, [] => .ok ([], s)
  | s, x :: xs =>
    match readElem c d bf s x with
    | .error e => .error e
    | .ok (v, s) =>
      match readElems c d bf s xs with
      | .error e => .error e
      | .ok (vs, s) => .ok (v :: vs, s)

/-- Lays `n` bits of a code over a byte map (address, mask, value) (R207). -/
def putBits : Nat → List (Nat × Nat × Nat) → Nat → Nat → Nat → List (Nat × Nat × Nat)
  | 0, l, _, _, _ => l
  | fuel + 1, l, bit, n, code =>
    if n = 0 then l
    else
      let sh := bit % 8
      let k := min (8 - sh) n
      let m := (2 ^ k - 1) * 2 ^ sh
      let (m0, v0) := (assocGet l (bit / 8)).getD (0, 0)
      let v := (v0 &&& (255 - m)) ||| (code % 2 ^ k * 2 ^ sh)
      putBits fuel (assocSet l (bit / 8) (m0 ||| m, v)) (bit + k) (n - k) (code / 2 ^ k)

/-- Whether an element of fewer than 8 bits stands across the boundary between byte `a` and the next. -/
def straddles (bits : List (Nat × Nat × Nat)) (a : Nat) : Bool := bits.any (fun (at', w, _) => at' / 8 = a && a < (at' + w - 1) / 8)

/-- Joins the writes of neighbouring bytes that an element stands across, so that no element is written in halves (R164). -/
def joinUnits (across : Nat → Bool) : List (Nat × List Nat) → List (Nat × List Nat)
  | [] => []
  | (a, bs) :: l =>
    match joinUnits across l with
    | (a2, bs2) :: l2 => if a2 = a + bs.length && across (a + bs.length - 1) then (a, bs ++ bs2) :: l2 else (a, bs) :: (a2, bs2) :: l2
    | [] => [(a, bs)]

/-- Brings a byte into its place by address. -/
def insertByte (x : Nat × List Nat) : List (Nat × List Nat) → List (Nat × List Nat)
  | [] => [x]
  | y :: l => if x.1 ≤ y.1 then x :: y :: l else y :: insertByte x l

/-- The writes of elements and scales, given as bit position, bits and code: each element of 8 bits or more and each scale byte
is one (R206); elements of fewer bits go as whole bytes, whose other bits are those read now (R207), the bytes of one element
together (R164). -/
def unitsOf (c : EngCtx) (s : State) (bits : List (Nat × Nat × Nat)) : List (Nat × List Nat) :=
  let whole := (bits.filter (fun (_, w, _) => 8 ≤ w)).map (fun (at', w, code) => (at' / 8, (bytesOf (w / 8) code).map (·.toNat)))
  let narrow := bits.filter (fun (_, w, _) => w < 8)
  let map := narrow.foldl (fun l (at', w, code) => putBits 16 l at' w code) []
  let bytes := map.map (fun (a, m, v) =>
    let old := match s.engLoad c a 1 with
      | .ok (bs, _) => natOfBytes bs
      | .error _ => 0
    (a, [(old &&& (255 - m)) ||| v]))
  whole ++ joinUnits (straddles narrow) (bytes.foldr insertByte [])

/-- A list in an order of free choice: one element after another is taken from what is left. -/
def freeOrder {α : Type} (choose : Nat → Nat) : Nat → List α → List α
  | 0, l => l
  | n + 1, l =>
    match l with
    | [] => []
    | [x] => [x]
    | x :: y :: l =>
      let i := choose n % (l.length + 2)
      ((x :: y :: l)[i]?).toList ++ freeOrder choose n ((x :: y :: l).eraseIdx i)

/-- The writes in the order in which the engine makes them: any (R207). -/
def State.anyOrder (s : State) {α : Type} (l : List α) : List α := freeOrder (fun i => s.pick 13 i 0 0) l.length l

/-- Stores the bytes of one unit as one write, where they lie in one page. -/
def State.engStoreUnit (s : State) (c : EngCtx) (addr : Nat) (bs : List Byte) : State × Option (Nat × EFault) :=
  if addr / 4096 = (addr + bs.length - 1) / 4096 then
    match engPlace s c addr true with
    | .error f => (c.noteFault s addr f, some (addr, f))
    | .ok (.place p x, s) => (c.write s addr p x bs [], none)
    | .ok (_, s) => s.engStore c addr bs
  else s.engStore c addr bs

/-- Makes writes: a failed one is lost, the others stand; answers the lowest failure, as address and cause (R168). -/
def writeUnits (c : EngCtx) (cause : Nat) : List (Nat × List Nat) → State → Option (Nat × Nat) → State × Option (Nat × Nat)
  | [], s, low => (s, low)
  | (a, bs) :: l, s, low =>
    let (s, e) := s.engStoreUnit c a (bs.map (BitVec.ofNat 8))
    let low := match e, low with
      | some (a, f), some (m, q) => if a < m then some (a, f.code cause) else some (m, q)
      | some (a, f), none => some (a, f.code cause)
      | none, m => m
    writeUnits c cause l s low

end Sys2Proof.Machine
end

