-- ==== Sys2Proof/Machine/Contract.lean ====
section
/-! DEFINITION. The values of a contraction element: block values, the pairwise tree, exact partials, FREE mode (R114 to R120, R129). An FP32 or s32 value is its 32-bit code; a result is a code with flags. -/
namespace Sys2Proof.Machine

/-! ### Additions of the tree (R117) -/

def codeOfInt (i : Int) : Nat := (i % 2 ^ 32).toNat

/-- Clamps to the s32 range; a clamp is SATINT. -/
def clampS32 (i : Int) : Nat × Nat := (codeOfInt (clampInt true 32 i), if clampInt true 32 i = i then 0 else fSATINT)

def addCls (c : Cls) (a b : Nat) : Nat × Nat :=
  match c with
  | .int => clampS32 (sextNat a 32 + sextNat b 32)
  | _ => fAdd .rne a b

/-! ### Parts of a block (R118, R129) -/

/-- The exact sum of some terms of a block, V × 2^T, with what it holds besides numbers. -/
structure Part128 where
  nanProd : Bool
  ninf : Bool
  pinf : Bool
  /-- Every term is −0. -/
  negZero : Bool
  t : Int
  v : Int
  deriving DecidableEq, Repr

def finites : List Val → List (Bool × Nat × Int)
  | [] => []
  | .num n m e :: l => if m = 0 then finites l else (n, m, e) :: finites l
  | _ :: l => finites l

def Val.isNegZero (v : Val) : Bool := v.isZero && v.sign

/-- The exact sum of terms. Its tag is the least exponent of its nonzero terms, and 0 when it has none. DESIGN CHOICE, log
entry 83. -/
def partOf (ps : List Val) : Part128 :=
  let fs := finites ps
  let t := (fs.map (fun f => f.2.2)).foldl min (fs.headD (false, 0, 0)).2.2
  { nanProd := ps.any Val.isNan, ninf := ps.any (fun p => p.isInf && p.sign), pinf := ps.any (fun p => p.isInf && !p.sign),
    negZero := ps.all Val.isNegZero, t := t,
    v := (fs.map (fun f => scaledInt f.1 f.2.1 f.2.2 t)).foldl (· + ·) 0 }

/-- A part under the tag that R407 fixes. A tag below it stays where the sum is no multiple of 2^T, as an ALTV can make it.
DESIGN CHOICE, log entry 83. -/
def Part128.tagged (p : Part128) (tag : Option Int) : Part128 :=
  match tag with
  | none => p
  | some g =>
    if g ≤ p.t then { p with t := g, v := p.v * 2 ^ (p.t - g).toNat }
    else if p.v % 2 ^ (g - p.t).toNat = 0 then { p with t := g, v := p.v / 2 ^ (g - p.t).toNat }
    else p

/-- Two parts of one block add exactly, under the smaller tag (R129). -/
def Part128.add (a b : Part128) : Part128 :=
  let t := min a.t b.t
  { nanProd := a.nanProd || b.nanProd, ninf := a.ninf || b.ninf, pinf := a.pinf || b.pinf, negZero := a.negZero && b.negZero,
    t := t, v := a.v * 2 ^ (a.t - t).toNat + b.v * 2 ^ (b.t - t).toNat }

/-- Rules 1 to 6 of R118 for a whole block's sum. -/
def Part128.finish (c : Cls) (p : Part128) : Nat × Nat :=
  if p.nanProd then (cNaN, 0)
  else if p.ninf && p.pinf then (cNaN, fINV)
  else if p.pinf then (0x7F800000, 0)
  else if p.ninf then (0xFF800000, 0)
  else
    match c with
    | .int => clampS32 (if 0 ≤ p.t then p.v * 2 ^ p.t.toNat else p.v)
    | _ => if p.v = 0 then (if p.negZero then 0x80000000 else 0, 0) else roundF32 .rne (.num (p.v < 0) p.v.natAbs p.t)

/-- The 128 bits of a partial (R129). Beside them, as bit 128, the model carries that every term is −0, which R118 needs and
R129 gives no place. DEDUCED, log entry 34. -/
def Part128.pack (p : Part128) (blk : Nat) : Nat :=
  let both := p.ninf && p.pinf
  let special := p.nanProd || p.ninf || p.pinf
  let t := if special then 0 else p.t
  let v := if special then 0 else p.v
  (v % 2 ^ 96).toNat + (t % 2 ^ 16).toNat * 2 ^ 96 + blk % 256 * 2 ^ 112
    + (p.nanProd || both).toNat * 2 ^ 122 + p.ninf.toNat * 2 ^ 121 + p.pinf.toNat * 2 ^ 120 + p.negZero.toNat * 2 ^ 128

/-- What 128 bits say of a part. NAN beside both infinities is read as what the infinities give: INV is raised (R129), also
where the part held a NaN product besides. DEDUCED, log entry 34. -/
def Part128.unpack (n : Nat) : Part128 :=
  let bit := fun (k : Nat) => fieldAt n k 1 = 1
  let both := decide (bit 121) && decide (bit 120)
  { nanProd := decide (bit 122) && !both, ninf := bit 121, pinf := bit 120,
    negZero := bit 128, t := sextNat (fieldAt n 96 16) 16, v := sextNat n 96 }

/-- Rule 7 of R118: the wide class. -/
def wideBlock (wbits : Nat) (ps : List Val) : Nat × Nat :=
  let p := partOf ps
  if p.nanProd || p.ninf || p.pinf || p.v = 0 && finites ps = [] then p.finish .wide
  else
    let fs := finites ps
    let e := (fs.map (fun f => logMag f.2.1 f.2.2)).foldl max (logMag (fs.headD (false, 1, 0)).2.1 (fs.headD (false, 1, 0)).2.2)
    let q := e - wbits
    let cut := fs.map (fun f => if q ≤ f.2.2 then (scaledInt f.1 f.2.1 f.2.2 q, false)
      else
        let d := 2 ^ (q - f.2.2).toNat
        ((if f.1 then -((f.2.1 / d : Nat) : Int) else (f.2.1 / d : Nat)), f.2.1 % d ≠ 0))
    let v := (cut.map Prod.fst).foldl (· + ·) 0
    let inx := if cut.any Prod.snd then fINX else 0
    if v = 0 then (0, inx)
    else
      let (c, fl) := roundF32 .rne (.num (v < 0) v.natAbs q)
      (c, fl ||| inx)

/-- block_value of R118 over the products of a block, or of a part of one. -/
def blockValue (c : Cls) (wbits : Nat) (ps : List Val) : Nat × Nat :=
  match c with
  | .wide => wideBlock wbits ps
  | c => (partOf ps).finish c

/-! ### The tree (R117) -/

/-- The value of a node from given nodes and leaves. -/
def treeValue (c : Cls) (leaf : Nat → Nat × Nat) (given : Nat × Nat → Option Nat) (nb : Nat) : Nat → Nat → Nat × Nat
  | h, i =>
    match given (h, i) with
    | some v => (v, 0)
    | none =>
      match h with
      | 0 => leaf i
      | h + 1 =>
        if nb ≤ (2 * i + 1) * 2 ^ h then treeValue c leaf given nb h (2 * i)
        else
          let a := treeValue c leaf given nb h (2 * i)
          let b := treeValue c leaf given nb h (2 * i + 1)
          let r := addCls c a.1 b.1
          (r.1, a.2 ||| b.2 ||| r.2)

/-! ### FREE mode (R120) -/

/-- Cuts terms, ascending, into runs of consecutive terms of one block; `cut` says where to cut besides. -/
def freeCuts (cut : Nat → Bool) : List (Nat × Val) → List (List (Nat × Val))
  | [] => []
  | x :: l =>
    match freeCuts cut l with
    | [] => [[x]]
    | r :: rs =>
      match l with
      | (u, _) :: _ => if u = x.1 + 1 && u % 32 ≠ 0 && !cut u then (x :: r) :: rs else [x] :: r :: rs
      | [] => [x] :: r :: rs

/-- Brings a term into its place among terms that ascend. -/
def insertTerm (x : Nat × Val) : List (Nat × Val) → List (Nat × Val)
  | [] => [x]
  | y :: l => if x.1 ≤ y.1 then x :: y :: l else y :: insertTerm x l

/-- Combines values in the order that a choice function gives. -/
def freeCombine (c : Cls) (choose : Nat → Nat) : Nat → List Nat → Nat × Nat
  | 0, l => (l.headD 0, 0)
  | n + 1, l =>
    match l with
    | [] => (0, 0)
    | [v] => (v, 0)
    | _ =>
      let i := choose (2 * n) % l.length
      let a := l.getD i 0
      let l := l.eraseIdx i
      let j := choose (2 * n + 1) % l.length
      let r := addCls c a (l.getD j 0)
      let rest := freeCombine c choose n (r.1 :: l.eraseIdx j)
      (rest.1, r.2 ||| rest.2)

/-! ### Accumulate-into and output (R117, R119) -/

/-- acc(o) as an operand of add. -/
def accValue (c : Cls) (fmt : Nat) (v : Val) : Nat × Nat :=
  match c with
  | .int => let (i, fl) := encodeInt true 32 .rne 0 (isIntFmt fmt) v; (codeOfInt i, fl)
  | _ => roundF32 .rne v

/-- The exact value of a 32-bit result. -/
def resultVal (c : Cls) (code : Nat) : Val :=
  match c with
  | .int => valOfInt (sextNat code 32)
  | _ => fromF32 code

/-- A value to be written: a number, or a code with its scale that goes into its own form (R109). -/
inductive OutVal where
  | val (v : Val)
  | own (code scale : Nat)
  deriving DecidableEq, Repr

/-- A value as plain numbers, for what stands in State. -/
def Val.toInts : Val → List Int
  | .nan => [0]
  | .inf n => [1, if n then 1 else 0]
  | .num n m e => [2, if n then 1 else 0, m, e]
def Val.ofInts : List Int → Val
  | [1, n] => .inf (n = 1)
  | [2, n, m, e] => .num (n = 1) m.toNat e
  | _ => .nan

def OutVal.toInts : OutVal → List Int
  | .val v => v.toInts
  | .own c s => [3, c, s]
def OutVal.ofInts : List Int → OutVal
  | [3, c, s] => .own c.toNat s.toNat
  | l => .val (Val.ofInts l)

/-- The number of a value that is none of its own form. -/
def OutVal.num : OutVal → Val
  | .val v => v
  | .own _ _ => .num false 0 0

end Sys2Proof.Machine
end

