-- ==== Sys2Proof/Machine/Grid.lean ====
section
/-! DEFINITION. Grid instructions: issue (R135, R136, R141, R142), the hash exchange, operand and partial messages (R131 to R135), the work of an output tile, completion (R141, R168, R171), and MCHK (R165). -/
namespace Sys2Proof.Machine

/-! ### Operands -/

def letterNums (l : Letters) : List Nat := l.map (·.toNat)

/-- Letters of an EWR input: those of the output that its mask names (R160). -/
def maskLetters (l : Letters) (m : BitVec 6) : List Nat :=
  ((letterNums l).zipIdx.filter (fun p => m.getLsbD p.2)).map Prod.fst

def ewrNodes (a : EwrArgs) : List Node := [a.n0, a.n1, a.n2, a.n3, a.n4, a.n5, a.n6, a.n7]
def ewrUses (a : EwrArgs) (n : Node) : Bool := ((ewrNodes a).takeWhile (fun m => m ≠ .stop)).contains n

def GridWhat.kind : GridWhat → OpKind
  | .ctr _ => .ctr
  | .ctrs _ => .ctrs
  | .red _ => .red
  | .cvt _ => .cvt
  | .ewr _ _ => .ewr

def GridWhat.args : GridWhat → Option GridArgs
  | .ctr a | .ctrs a | .red a | .cvt a => some a
  | .ewr _ _ => none

def GridWhat.mr : GridWhat → BitVec 3
  | .ctr a | .ctrs a | .red a | .cvt a => a.mr
  | .ewr a _ => a.mr
def GridWhat.acc (w : GridWhat) : Bool := (w.args.map (·.acc)).getD false
def GridWhat.rnd : GridWhat → Rnd
  | .ctr a | .ctrs a | .red a | .cvt a => a.rnd
  | .ewr a _ => a.rnd
def GridWhat.sat : GridWhat → Bool
  | .ctr a | .ctrs a | .red a | .cvt a => a.sat
  | .ewr a _ => a.sat
def GridWhat.shape (w : GridWhat) : Nat := (w.args.map (·.shape.toNat)).getD 0

/-- Role, register and letters of each operand, in the order O, A, B, C (R155, R160). -/
def GridWhat.operands : GridWhat → List (Nat × BitVec 5 × List Nat)
  | .ctr a | .ctrs a => [(0, a.fc, letterNums a.lsc), (1, a.fa, letterNums a.lsa), (2, a.fb, letterNums a.lsb)]
  | .red a | .cvt a => [(0, a.fc, letterNums a.lsc), (1, a.fa, letterNums a.lsa)]
  | .ewr a _ => (0, a.fd, letterNums a.lsd) ::
      ((if ewrUses a .a then [(1, a.fa, maskLetters a.lsd a.ma)] else [])
        ++ (if ewrUses a .b then [(2, a.fb, maskLetters a.lsd a.mb)] else [])
        ++ (if ewrUses a .c then [(3, a.fc, maskLetters a.lsd a.mc)] else []))

/-- Words 0 and on with the register fields cleared, for the hash (R135, R163). -/
def GridWhat.hashWords (w : GridWhat) : List Nat :=
  let g : Guard := ⟨0, false⟩
  let i : Instr := match w with
    | .ctr a => .ctr g { a with fa := 0, fb := 0, fc := 0 }
    | .ctrs a => .ctrs g { a with fa := 0, fb := 0, fc := 0 }
    | .red a => .red g { a with fa := 0, fb := 0, fc := 0 }
    | .cvt a => .cvt g { a with fa := 0, fb := 0, fc := 0 }
    | .ewr a _ => .ewr g { a with fd := 0, fa := 0, fb := 0, fc := 0 }
  (encode i).getD []

/-- The digest of R135. Bits [63:14] of word 0 stand as 7 bytes, and an operand's format code as one byte before its six
extents of four bytes. DESIGN CHOICE, log entry 33. -/
def gridDigest (w : GridWhat) (m : BitVec 512) (ops : List Opnd) : List Byte :=
  let ws := w.hashWords
  shake256 (bytesOf 64 m.toNat ++ bytesOf 7 (ws.headD 0 / 2 ^ 14) ++ ws.tail.flatMap (bytesOf 8)
    ++ (ops.filter (fun o => o.role < 3)).flatMap (fun o => bytesOf 1 o.d.fmt ++ o.d.ext.flatMap (bytesOf 4))) 8

/-- What the checks and the lowering see of an operation. -/
def gridInput (w : GridWhat) (tens : List (Nat × Tensor)) (fmts : List (Nat × Word)) (m : BitVec 512) (spwin : Word)
    (job me : Coord) : GridIn :=
  { kind := w.kind,
    ops := w.operands.map (fun (role, _, ls) =>
      let d := Desc.of ((assocGet tens role).getD Tensor.reset).desc
      ⟨role, ls, d, d.altOf ((assocGet fmts role).getD 0)⟩),
    m := m, acc := w.acc, shape := w.shape, job := job, me := me, staging := fieldAt spwin.toNat 32 19 }

/-- Shape of a bank's job and the bank's own coordinates; a bank without a job counts as a job of one core. -/
def State.gridPlace (s : State) (b : BankId) : Coord × Coord :=
  match (s.bank b).binding, s.jobOf b with
  | some c, some j => (shapeOf j.qrec.lrec.shape, (c.jd, c.jc, c.jk))
  | _, _ => ((1, 1, 1), (0, 0, 0))

def GridOp.input (o : GridOp) (s : State) (b : BankId) : GridIn :=
  gridInput o.what o.tens o.fmts o.mrec o.spwin (s.gridPlace b).1 (s.gridPlace b).2

/-- The checks of R147 for the operands in order: the sampled formats, or the first trap. -/
def gridUses (s : State) (b : BankId) (acc : Bool) : List (Nat × BitVec 5 × List Nat) → Except TrapInfo (List (Nat × Word))
  | [] => .ok []
  | (role, t, _) :: l =>
    let r := (s.bank b).getT t
    match checkUse s b r.desc r.span t.toNat role (acc && role = 0) with
    | .error e => .error e
    | .ok bf =>
      match gridUses s b acc l with
      | .error e => .error e
      | .ok fs => .ok ((role, bf) :: fs)

/-- Every local check: R147, then steps 1 to 8 of R136. The formats sampled and the trap of the first failure. -/
def gridChecks (w : GridWhat) (s : State) (b : BankId) : List (Nat × Word) × Option TrapInfo :=
  let k := s.bank b
  match gridUses s b w.acc w.operands with
  | .error t => ([], some t)
  | .ok fs =>
    let (job, me) := s.gridPlace b
    let tens := w.operands.map (fun (r, t, _) => (r, k.getT t))
    (fs, (gridInput w tens fs (k.getM w.mr) k.spwin job me).check)

/-! ### Messages (R133, R135) -/

/-- TYPE of a message. -/
def SpMsg.type : SpMsg → Nat
  | .hash .. => 1
  | .go _ => 2
  | .stop _ => 3
  | .opnd _ => 4
  | .node _ => 5
  | .exact _ => 6

/-- OPND and CHUNK of a message: A is 0, B is 1; the third input of EWR is 2 (DESIGN CHOICE, log entry 84). -/
def SpMsg.place : SpMsg → Nat × Nat
  | .opnd p => (p.opnd - 1, p.chunk)
  | .node p | .exact p => (0, p.chunk)
  | _ => (0, 0)

/-- The 64-bit header (R133). TAG is 0x1F between cores of one cluster, and in a message of an operation that holds no route
tag yet (log entry 33). -/
def spHeader (body : SpMsg) (tag : Option Nat) (number core : Nat) (near : Bool) : Word :=
  BitVec.ofNat 64 (body.type * 2 ^ 60 + (if near then 31 else tag.getD 31) * 2 ^ 55 + number % 2 ^ 16 * 2 ^ 39 + core % 2 ^ 11 * 2 ^ 28
    + body.place.1 * 2 ^ 26 + body.place.2 % 2 ^ 26)

def State.sendSpindle (s : State) (job number : Nat) (tag : Option Nat) (src : Coord) (core : Nat) (dst : Coord) (body : SpMsg) : State :=
  let head := spHeader body tag number core (src.1 = dst.1 && src.2.1 = dst.2.1)
  { s with spindle := s.spindle ++ [⟨s.nextMsg, job, number, src, core, dst, body, head⟩], nextMsg := s.nextMsg + 1 }

def State.dropSpindle (s : State) (id : Nat) : State := { s with spindle := s.spindle.filter (fun m => m.id ≠ id) }

def Bank.modGrid (k : Bank) (seq : Nat) (f : GridOp → GridOp) : Bank :=
  { k with grid := k.grid.map (fun o => if o.seq = seq then f o else o) }
def State.modGrid (s : State) (b : BankId) (seq : Nat) (f : GridOp → GridOp) : State := s.modBank b (fun k => k.modGrid seq f)

/-- The operation of a bank with a contraction number that several cores share. -/
def Bank.gridNumbered (k : Bank) (n : Nat) : Option GridOp := k.grid.find? (fun o => o.number = n && o.phase ≠ .stopped)

/-- Whether a number is that of a PLYRED. -/
def plyNumber (n : Nat) : Bool := 2 ^ 32 ≤ n

/-- A member of a PLYRED gets GO or STOP (R251). -/
def State.plyAnswer (s : State) (job number : Nat) (c : Coord) (r : SpMsg) : State :=
  { s with ply := s.ply.map (fun (o : PlyOp) =>
      if o.job = job && o.red && o.number = number then
        { o with members := o.members.map (fun (m : PlyMember) =>
            if m.c = c then
              match r with
              | .go _ => { m with phase := .running }
              | .stop aux => { m with phase := .stopped, stop := m.stop.or (some ⟨cSHAPE_MISMATCH, 0, aux, 0⟩) }
              | _ => m
            else m) }
      else o) }

/-- A participant of a contraction gets GO or STOP. -/
def State.groupAnswer (s : State) (b : BankId) (number : Nat) (r : SpMsg) : State :=
  match (s.bank b).gridNumbered number with
  | none => s
  | some o =>
    match r with
    | .go tag => s.modGrid b o.seq (fun o => { o with phase := .running, tag := tag })
    | .stop aux => s.modGrid b o.seq (fun o => { o with phase := .stopped, stop := o.stop.or (some ⟨cSHAPE_MISMATCH, 0, aux, 0⟩) })
    | _ => s

/-- A participant gets GO or STOP (R135, R251). -/
def State.gridAnswer (s : State) (b : BankId) (number : Nat) (r : SpMsg) : State :=
  match (s.bank b).binding with
  | some q => if plyNumber number then s.plyAnswer q.job number (q.jd, q.jc, q.jk) r else s.groupAnswer b number r
  | none => s.groupAnswer b number r

/-- Route tags that a job's contractions hold on a die (R135). -/
def State.tagsOn (s : State) (job die : Nat) : Nat := (s.routeTags.filter (fun t => t.job = job && t.dies.contains die)).length

/-- Whether the root holds everything its decision needs (R135). -/
def RootRec.full (r : RootRec) : Bool := r.ready && r.got.length = r.parts
/-- Whether the decision is GO. -/
def RootRec.agrees (r : RootRec) : Bool := r.got.all (fun (_, _, st, h) => st = 0 && h = r.own)
/-- Whether the root waits only for route tags. -/
def RootRec.waitsTag (r : RootRec) : Bool := r.full && r.agrees && r.needTag

def minCore (l : List (Coord × Nat × Nat × List Byte)) : Nat :=
  match l.map (fun q => q.2.1) with
  | [] => 0
  | c :: cs => cs.foldl min c

def RootRec.names (r : RootRec) (job number : Nat) (root : Coord) : Bool := r.job = job && r.number = number && r.root = root

/-- The route tag that a message of the root's decision carries. -/
def SpMsg.granted : SpMsg → Option Nat
  | .go t => t
  | _ => none

/-- Sends the root's decision to every other participant and to its own operation. -/
def State.rootSend (s : State) (r : RootRec) (root : BankId) (body : SpMsg) : State :=
  let s := { s with roots := s.roots.filter (fun q => !q.names r.job r.number r.root) }
  let s := r.got.foldl (fun s (c, _, _, _) =>
    if c = r.root then s else s.sendSpindle r.job r.number body.granted r.root root.core c body) s
  s.gridAnswer root r.number body

/-- ROOT_DECISION (R135): nothing before the root holds every hash and its own checks; then STOP, or GO once the tags
are held, in the order of its contractions. While the root's team stands saved its record stays, and the decision comes once
the root waits at issue again (R171). -/
def State.rootDecide (s : State) (job number : Nat) (root : Coord) : State :=
  match s.roots.find? (fun r => r.names job number root), (s.job job).bind (fun j => j.bankOf root) with
  | none, _ | _, none => s
  | some r, some b =>
    if !r.full then s
    else
      let failed := r.got.filter (fun (_, _, st, _) => st ≠ 0)
      let differ := r.got.filter (fun (_, _, _, h) => h ≠ r.own)
      if failed ≠ [] then s.rootSend r b (.stop (shapeAux 0x0A 255 (minCore failed)))
      else if differ ≠ [] then s.rootSend r b (.stop (shapeAux 0x09 255 (minCore differ)))
      else if !r.needTag then s.rootSend r b (.go none)
      else if s.roots.any (fun q => q.job = job && q.root = root && plyNumber q.number = plyNumber number && q.number < number && q.waitsTag) then s
      else if r.dies.any (fun d => Config.routeTags ≤ s.tagsOn job d) then s
      else
        let tag := ((List.range Config.routeTags).find? (fun t =>
          !s.routeTags.any (fun u => u.job = job && u.tag = t && u.dies.any (fun d => r.dies.contains d)))).getD 0
        State.rootSend { s with routeTags := s.routeTags ++ [⟨r.dies, tag, job, number⟩] } r b (.go (some tag))

/-- Adds a participant's result to the root's record, which its first HASH makes. -/
def State.rootGot (s : State) (job number : Nat) (root c : Coord) (core status : Nat) (h : List Byte) : State :=
  match s.roots.find? (fun r => r.names job number root) with
  | none => { s with roots := s.roots ++ [⟨job, number, root, false, 0, [], false, [], [(c, core, status, h)]⟩] }
  | some _ => { s with roots := s.roots.map (fun r =>
      if r.names job number root then { r with got := r.got ++ [(c, core, status, h)] } else r) }

/-- The root's own result: its number of participants, dies and digest. -/
def State.rootReady (s : State) (job number : Nat) (root : Coord) (core status parts : Nat) (dies : List Nat) (needTag : Bool)
    (h : List Byte) : State :=
  let s := s.rootGot job number root root core status h
  { s with roots := s.roots.map (fun r =>
      if r.names job number root then { r with ready := true, parts := parts, dies := dies, needTag := needTag, own := h } else r) }

/-! ### Issue (R136, R141) -/

/-- The die numbers of a contraction's participants. -/
def gridDies (s : State) (j : Job) (g : GridIn) : List Nat :=
  (((g.present.filterMap (s.coreAt j)).map dieOf).foldl (fun l d => if l.contains d then l else l ++ [d]) [])

/-- A grid operation as issue makes it. ROUNDSEED and the other registers are sampled at the moment of issue, also where no link of
R103 orders them. DESIGN CHOICE, log entry 100. -/
def newGridOp (k : Bank) (w : GridWhat) (fs : List (Nat × Word)) (phase : GridPhase) (number : Nat) (stop : Option Held) : GridOp :=
  { seq := k.nextGrid, pc := k.g.pc, what := w, tens := w.operands.map (fun (r, t, _) => (r, k.getT t)), fmts := fs,
    mrec := k.getM w.mr, spwin := k.spwin, seed := k.roundseed, asid := k.asid, phase := phase, number := number, tile := 0,
    sent := false, opnds := [], nodes := [], exacts := [], flags := 0, tag := none, stop := stop, vals := [],
    todo := [], low := none }

def State.addGrid (s : State) (b : BankId) (o : GridOp) : State :=
  s.modBank b (fun k => { k with grid := k.grid ++ [o], nextGrid := k.nextGrid + 1 })

def TrapInfo.held (t : TrapInfo) : Held := ⟨t.cause, t.val, t.aux, 0⟩

/-- The checks made and the operation's way on: it traps, completes with no effect, runs, or joins the hash
exchange (steps 1 to 10 of R136). -/
def gridStart (w : GridWhat) (s : State) (b : BankId) : Res :=
  let k := s.bank b
  let (job, me) := s.gridPlace b
  let (fs, fail) := gridChecks w s b
  let tens := w.operands.map (fun (r, t, _) => (r, k.getT t))
  let g := gridInput w tens fs (k.getM w.mr) k.spwin job me
  let multi := 1 < g.dims.1 * g.dims.2.1 * g.dims.2.2
  let id := (k.binding.map (·.job)).getD 0
  let number := k.gridNum
  let counted := s.modBank b (fun k => { k with gridNum := k.gridNum + 1 })
  if !g.isPart me then
    match fail with
    | some t => .trap s t
    | none => .done counted
  else if !multi then
    match fail with
    | some t => .trap s t
    | none => .done (counted.addGrid b (newGridOp k w fs .running number none))
  else
    let h := gridDigest w (k.getM w.mr) g.ops
    let s := counted
    let status := (fail.map (·.cause)).getD 0
    if me = (0, 0, 0) then
      let dies := (s.job id).elim [] (fun j => gridDies s j g)
      let s := s.addGrid b (newGridOp k w fs .hashed number (fail.map TrapInfo.held))
      let s := s.rootReady id number (0, 0, 0) b.core status g.present.length dies (1 < g.dims.1 * g.dims.2.1) h
      .wait (s.rootDecide id number (0, 0, 0)) .gridGo 0 b.core [BitVec.ofNat 64 k.nextGrid]
    else
      let s := s.sendSpindle id number none me b.core (0, 0, 0) (.hash status h g.present.length)
      match fail with
      | some t => .trap s t
      | none => .wait (s.addGrid b (newGridOp k w fs .hashed number none)) .gridGo 0 b.core [BitVec.ofNat 64 k.nextGrid]

/-- The registers that a grid instruction names and that C still owns (R142). -/
def Bank.notOwned (k : Bank) (w : GridWhat) : Option (BitVec 5) :=
  (w.operands.find? (fun (_, t, _) => (k.getT t).owner = .c)).map (fun q => q.2.1)

/-- A root that waits at issue decides what it could not decide while its team stood saved (R171). -/
def State.rootAgain (s : State) (b : BankId) (number : Nat) : State :=
  match (s.bank b).binding with
  | some c => s.rootDecide c.job number (c.jd, c.jc, c.jk)
  | none => s

/-- A grid instruction on the G stream (R141). -/
def gridRun (w : GridWhat) (s : State) (b : BankId) : Res :=
  let k := s.bank b
  match k.g.wait with
  | some ⟨.gridGo, o, d, [seq], _⟩ =>
    match k.grid.find? (fun q => q.seq = seq.toNat) with
    | none => .done s
    | some q =>
      match q.phase, q.stop with
      | .hashed, _ => .wait (s.rootAgain b q.number) .gridGo o d [seq]
      | .stopped, some t => .trap (s.modBank b (fun k => { k with grid := k.grid.filter (fun r => r.seq ≠ q.seq) })) ⟨t.cause, t.val, t.aux⟩
      | _, _ => .done s
  | _ =>
    match k.notOwned w with
    | some t => .wait s .gridOwner t.toNat 0 []
    | none => if 4 ≤ k.grid.length then .wait s .gridPlace 0 0 [] else gridStart w s b

/-- TRAPVAL of a field trap at execution is word 0 (R374). -/
def fillWord0 (b : BankId) (r : Res) : Res :=
  match r with
  | .trap s t => if t.cause = cILLEGAL_FIELD ∧ t.aux = 40 then
      let k := s.bank b
      .trap s { t with val := BitVec.ofNat 64 (k.g.code.getD (k.g.pc.toNat / 8) 0) } else .trap s t
  | r => r

def execCtr (g : Guard) (a : GridArgs) : State → Out := runG g 2 (gridRun (.ctr a))
def execCtrs (g : Guard) (a : GridArgs) : State → Out := runG g 2 (fun s b => fillWord0 b (gridRun (.ctrs a) s b))
def execRed (g : Guard) (a : GridArgs) : State → Out := runG g 2 (gridRun (.red a))
def execCvt (g : Guard) (a : GridArgs) : State → Out := runG g 2 (gridRun (.cvt a))

/-- EWR samples X from its y register or queue at issue (R160, R163). A queue is popped when the instruction has issued:
the head stays while it waits for GO, and a trap pops nothing (R28). -/
def execEwr (g : Guard) (a : EwrArgs) : State → Out :=
  runG g 3 (fun s b =>
    let k := s.bank b
    let e : Ev (Word32 × Bank) := do
      gsrcDir a.x
      match k.g.wait with
      | some ⟨.gridGo, _, _, _, _⟩ => k.readGSrc a.x
      | _ =>
        match k.notOwned (.ewr a 0) with
        | some t => .error (.wait .gridOwner t.toNat 0)
        | none => if 4 ≤ k.grid.length then .error (.wait .gridPlace 0 0) else k.readGSrc a.x
    e.andThen s (fun (x, q) =>
      match gridRun (.ewr a x) s b with
      | .done t => .done (t.modBank b (fun k => { k with q := q.q }))
      | r => r))

/-- GRID_ISSUE: the G stream's grid instruction issues again next (R141). -/
def execGridIssue (b : BankId) (s : State) : Out := .next (s.wake ⟨b, .g⟩ [.gridOwner, .gridGo, .gridPlace])

/-- MCHK (R165): the checks for this core, whatever the owners; nothing else changes. -/
def execMchk (g : Guard) (kind : GridKind) (rx : Dst) (a : GridArgs) : State → Out :=
  runC g 2 (fun s b =>
    let w : GridWhat := match kind with
      | .ctr => .ctr a
      | .ctrs => .ctrs a
      | .red => .red a
      | .cvt => .cvt a
    let code := ((gridChecks w s b).2.map (·.cause)).getD 0
    (dstDir .c rx >>= fun _ => (s.bank b).writeDst rx (BitVec.ofNat 64 code)).andThen s (fun k => .done (s.setBank b k)))

/-! ### Message events -/

def State.spindleMsg (s : State) (id : Nat) : Option SpindleMsg := s.spindle.find? (fun m => m.id = id)

/-- HASH_MESSAGE: the root receives a participant's hash and status, and decides once it holds all (R135). -/
def execHashMessage (id : Nat) (s : State) : Out :=
  match s.spindleMsg id with
  | some ⟨_, job, number, src, core, root, .hash status h _, _⟩ =>
    .next (((s.dropSpindle id).rootGot job number root src core status h).rootDecide job number root)
  | _ => .next s

/-- ROUTE_TAG_GRANT: a root takes the tags of its next contraction together, or waits with none (R135). -/
def execRouteTagGrant (job : Nat) (s : State) : Out :=
  .next ((s.roots.filter (fun r => r.job = job && r.waitsTag)).foldl (fun s r => s.rootDecide job r.number r.root) s)

/-- The bank that a message reaches: none while its team is not bound. -/
def State.recipient (s : State) (m : SpindleMsg) : Option BankId := (s.job m.job).bind (fun j => j.bankOf m.dst)

def execGoMessage (id : Nat) (s : State) : Out :=
  match s.spindleMsg id with
  | some m =>
    match s.recipient m, m.body with
    | some b, .go tag => .next ((s.dropSpindle id).gridAnswer b m.number (.go tag))
    | _, _ => .next s
  | none => .next s

def execStopMessage (id : Nat) (s : State) : Out :=
  match s.spindleMsg id with
  | some m =>
    match s.recipient m, m.body with
    | some b, .stop aux => .next ((s.dropSpindle id).gridAnswer b m.number (.stop aux))
    | _, _ => .next s
  | none => .next s

/-- A piece is placed in its recipient's staging window, once the recipient's operation is there. -/
def State.deliverPart (s : State) (id : Nat) (f : SpMsg → Option (GridOp → GridOp)) : State :=
  match s.spindleMsg id with
  | none => s
  | some m =>
    match s.recipient m, f m.body with
    | some b, some upd =>
      match (s.bank b).gridNumbered m.number with
      | some o => (s.dropSpindle id).modGrid b o.seq upd
      | none => s
    | _, _ => s

def execOpndMessage (id : Nat) (s : State) : Out :=
  .next (s.deliverPart id (fun m => match m with
    | .opnd p => some (fun o => { o with opnds := o.opnds ++ [p] })
    | _ => none))
def execNodeMessage (id : Nat) (s : State) : Out :=
  .next (s.deliverPart id (fun m => match m with
    | .node p => some (fun o => { o with nodes := o.nodes ++ [p] })
    | _ => none))
def execExactMessage (id : Nat) (s : State) : Out :=
  .next (s.deliverPart id (fun m => match m with
    | .exact p => some (fun o => { o with exacts := o.exacts ++ [p] })
    | _ => none))

/-! ### Operand blocks (R131, R133) -/

def GridOp.tensor (o : GridOp) (role : Nat) : Tensor := (assocGet o.tens role).getD Tensor.reset
def GridOp.fmtOf (o : GridOp) (role : Nat) : Word := (assocGet o.fmts role).getD 0

/-- The access context of an operand. -/
def GridOp.ctx (o : GridOp) (s : State) (b : BankId) (role : Nat) : EngCtx :=
  ⟨holdersOf b.core, b, 1, o.seq, (s.bank b).part, o.asid.toNat, (o.tensor role).span⟩

/-- The scale blocks of a list of elements, in first-appearance order. -/
def scaleKeys (d : Desc) (xs : List (List Nat)) : List (List Nat) :=
  if d.mx then (xs.map (fun x => x.set d.bdim (x.getD d.bdim 0 / 32))).foldl (fun l k => if l.contains k then l else l ++ [k]) [] else []

/-- Payload of OPND: codes packed, then the scale bytes (R133). -/
def packBlock (d : Desc) (xs : List (List Nat)) (es : List (Nat × Nat)) : List Nat :=
  let codes := (es.zipIdx.map (fun (e, i) => e.1 % 2 ^ d.w * 2 ^ (d.w * i))).foldl (· + ·) 0
  let keys := xs.map (fun x => x.set d.bdim (x.getD d.bdim 0 / 32))
  let scales := (scaleKeys d xs).map (fun k => ((es.zip keys).find? (fun q => q.2 = k)).elim 127 (fun q => q.1.2))
  ((bytesOf ((es.length * d.w + 7) / 8) codes).map (·.toNat)) ++ scales

def unpackBlock (d : Desc) (xs : List (List Nat)) (bs : List Nat) : List (Nat × Nat) :=
  let n := (xs.length * d.w + 7) / 8
  let codes := natOfBytes ((bs.take n).map (BitVec.ofNat 8))
  let keys := scaleKeys d xs
  xs.zipIdx.map (fun (x, i) =>
    (fieldAt codes (d.w * i) d.w,
      if d.mx then bs.getD (n + keys.idxOf (x.set d.bdim (x.getD d.bdim 0 / 32))) 127 else 127))

/-- Chunks that a list of values takes, `k` to a chunk. -/
def chunkCount (k n : Nat) : Nat := max 1 ((n + k - 1) / k)

/-- The parts of one sender for a tile and step, joined in chunk order, or none when one is missing. -/
def joinParts (l : List GridPart) (src : Coord) (tile step opnd count : Nat) : Option (List Nat × Bool) :=
  (List.range count).foldl (fun acc i =>
    match acc, l.find? (fun p => p.src = src && p.tile = tile && p.step = step && p.opnd = opnd && p.chunk = i) with
    | some (d, lost), some p => some (d ++ p.data, lost || p.lost)
    | _, _ => none) (some ([], false))

/-- Number of bytes of an OPND block. -/
def blockBytes (d : Desc) (xs : List (List Nat)) : Nat := (xs.length * d.w + 7) / 8 + (scaleKeys d xs).length

/-- An element of an operand: its value, code and scale. -/
structure GridElem where
  v : Val
  code : Nat
  scale : Nat
  deriving DecidableEq, Repr

/-- The elements of the inputs, by role and coordinates. -/
abbrev OpVals := List (Nat × List (List Nat × GridElem))

def Opnd.elem (x : Opnd) (e : Nat × Nat) : GridElem := ⟨elemVal x.d x.alt e, e.1, e.2⟩

/-- What reading an operand for a tile gives: elements with values, whether an error stood in them; or a fault with its
address; or a wait for a message. -/
inductive OpndRead where
  | ok (vs : List (List Nat × GridElem)) (lost : Bool) (s : State)
  | fault (addr : Nat) (f : EFault)
  | wait

/-- Reads a block on path S, with errors noted and their elements taken as 0. -/
def readBlock (o : GridOp) (b : BankId) (x : Opnd) (xs : List (List Nat)) (s : State) :
    Except (Nat × EFault) (List (Nat × Nat) × Option Nat × State) :=
  let c := o.ctx s b x.role
  match readElems c x.d (o.fmtOf x.role) s xs with
  | .ok (es, s) => .ok (es, none, s)
  | .error (a, .ecc) => .ok (xs.map (fun _ => (0, 127)), some a, s)
  | .error e => .error e

/-- The other participants that get a block from the one that reads it (R131). -/
def GridIn.receivers (g : GridIn) (x : Opnd) (tile st : Nat) : List Coord :=
  g.parts.filter (fun q => q ≠ g.me && g.reader x q = g.me && g.block x q tile st ≠ [])

/-- The block of an operand in one step: read by its reader, taken from messages elsewhere. An error is held here unless the
sending of the block holds it (R171). -/
def opndStep (o : GridOp) (b : BankId) (g : GridIn) (x : Opnd) (st : Nat) (s : State) : OpndRead :=
  let xs := g.block x g.me o.tile st
  if xs = [] then .ok [] false s
  else if g.reader x g.me = g.me then
    match readBlock o b x xs s with
    | .ok (es, ecc, s) =>
      let s := match ecc with
        | some a => if g.broadcast x && g.receivers x o.tile st ≠ [] then s else s.hold b ⟨cECC_UNCORRECTED, BitVec.ofNat 64 a, heldAux 1 0 o.tile, 0⟩
        | none => s
      .ok (xs.zip (es.map x.elem)) ecc.isSome s
    | .error (a, f) => .fault a f
  else
    match joinParts o.opnds (g.reader x g.me) o.tile st x.role (chunkCount 2048 (blockBytes x.d xs)) with
    | none => .wait
    | some (bs, lost) => .ok (xs.zip ((unpackBlock x.d xs bs).map x.elem)) lost s

/-- All steps of a tile for one operand. -/
def opndTile (o : GridOp) (b : BankId) (g : GridIn) (x : Opnd) : Nat → State → OpndRead
  | 0, s => .ok [] false s
  | n + 1, s =>
    match opndTile o b g x n s with
    | .ok vs lost s =>
      match opndStep o b g x n s with
      | .ok ws l2 s => .ok (vs ++ ws) (lost || l2) s
      | r => r
    | r => r

/-- The values of every input in a tile, by role. -/
def opndsTile (o : GridOp) (b : BankId) (g : GridIn) : List Opnd → State → Except (Option (Nat × EFault)) (OpVals × Bool × State)
  | [], s => .ok ([], false, s)
  | x :: l, s =>
    match opndTile o b g x g.steps s with
    | .wait => .error none
    | .fault a f => .error (some (a, f))
    | .ok vs lost s =>
      match opndsTile o b g l s with
      | .error e => .error e
      | .ok (rest, l2, s) => .ok ((x.role, vs) :: rest, lost || l2, s)

/-- Sends one block to the participants that need it (R131, R133). -/
def sendBlock (o : GridOp) (b : BankId) (job : Nat) (g : GridIn) (x : Opnd) (st : Nat) (s : State) :
    Except (Nat × EFault) (State × Option Nat) :=
  let xs := g.block x g.me o.tile st
  let to' := g.receivers x o.tile st
  if xs = [] ∨ to' = [] then .ok (s, none)
  else
    match readBlock o b x xs s with
    | .error e => .error e
    | .ok (es, ecc, s) =>
      let bs := packBlock x.d xs es
      let cs := chunksOf 2048 (bs.length + 1) bs
      .ok (to'.foldl (fun s q => cs.zipIdx.foldl (fun s (d, i) =>
        s.sendSpindle job o.number o.tag g.me b.core q (.opnd ⟨g.me, o.tile, st, x.role, i, d, ecc.isSome, [], []⟩)) s) s, ecc)

/-- Sends every block of the tile that this participant reads for others; an error found is held once a tile. -/
def sendBlocks (o : GridOp) (b : BankId) (job : Nat) (g : GridIn) : List (Opnd × Nat) → State → Except (Nat × EFault) (State × Option Nat)
  | [], s => .ok (s, none)
  | (x, st) :: l, s =>
    match sendBlock o b job g x st s with
    | .error e => .error e
    | .ok (s, ecc) =>
      match sendBlocks o b job g l s with
      | .error e => .error e
      | .ok (s, e2) => .ok (s, ecc.or e2)

/-- The blocks that this participant reads for others, by step. -/
def GridIn.ownBlocks (g : GridIn) : List (Opnd × Nat) :=
  (List.range g.steps).flatMap (fun st => (g.ins.filter (fun x => g.reader x g.me = g.me && g.broadcast x)).map (fun x => (x, st)))

/-! ### Elements -/

/-- An operand's element under an assignment of letters. -/
def lookupElem (vs : OpVals) (env : List (Nat × Nat)) (x : Opnd) : GridElem :=
  let at' := x.lets.map (fun s => (assocGet env s).getD 0)
  (((assocGet vs x.role).getD []).find? (fun p => p.1 = at')).elim ⟨.num false 0 0, 0, 255⟩ Prod.snd
def lookupVal (vs : OpVals) (env : List (Nat × Nat)) (x : Opnd) : Val := (lookupElem vs env x).v

/-- The products of an output element that a participant holds, ascending, with INV of an infinity times a zero (R114). -/
def productsOf (g : GridIn) (vs : OpVals) (x : List Nat) : List (Nat × Val) × Nat :=
  let ps := (g.sumElems g.me).map (fun y =>
    let env := g.out.lets.zip x ++ g.summed.zip y
    let ops := g.ins.map (lookupVal vs env)
    let p : Val := match ops with
      | [a, c] => a.mulExact c
      | a :: _ => a
      | [] => .num false 1 0
    (g.termIndex y, p, invFlag p ops))
  (ps.map (fun p => (p.1, p.2.1)), ps.foldl (fun f p => f ||| p.2.2) 0)

def blockOf (ps : List (Nat × Val)) (b : Nat) : List Val := (ps.filter (fun p => p.1 / 32 = b)).map Prod.snd

/-- The contribution of a non-owner to one element in CANON mode: node values, exact partials, flags (R132). -/
def contribution (g : GridIn) (ps : List (Nat × Val)) : List Nat × List Nat × Nat :=
  let c := g.cls
  let leaf := fun (b : Nat) => blockValue c g.wbits (blockOf ps b)
  let ns := (g.nodes g.me).map (fun (h, i) => treeValue c leaf (fun _ => none) g.nb h i)
  let ex := (g.partialBlocks g.me).map (fun b => ((partOf (blockOf ps b)).tagged g.fixedTag).pack b)
  (ns.map Prod.fst, ex, ns.foldl (fun f n => f ||| n.2) 0)

/-- Terms cut freely into sub-blocks (R120). -/
def freeRuns (s : State) (key tile : Nat) (ps : List (Nat × Val)) : List (List (Nat × Val)) :=
  freeCuts (fun t => s.pick 1 t key tile % 2 = 1) ps

/-- The value of a sub-block, E taken over it alone, with flags (R120). -/
def runValue (g : GridIn) (r : List (Nat × Val)) : Nat × Nat := blockValue g.cls g.wbits (r.map Prod.snd)

/-- A non-owner's share of an element in FREE mode: the values of some of its sub-blocks, and the terms of the others, which
the owner may join with terms of other participants (R120). Which are which is a free choice: log entry 15. -/
def freeShare (s : State) (g : GridIn) (key tile : Nat) (ps : List (Nat × Val)) : List (Nat × Nat) × List (Nat × Val) :=
  let (open', closed) := (freeRuns s key tile ps).partition (fun r => s.pick 14 ((r.headD (0, .nan)).1) key tile % 2 = 1)
  (closed.map (runValue g), open'.flatten)

/-- What owners have received for a tile from one sender: node values and partials per element, and in FREE mode the number
of values of each element and its terms. -/
structure Received where
  src : Coord
  nodes : List Nat
  exacts : List Nat
  counts : List Nat
  terms : List (List (Nat × Val))
  deriving DecidableEq, Repr

/-- The value of an owned element before the output conversion, in CANON mode (R117, R132). -/
def canonElement (g : GridIn) (ps : List (Nat × Val)) (rs : List Received) (n : Nat) : Nat × Nat :=
  let c := g.cls
  let given := rs.flatMap (fun r =>
    let ns := g.nodes r.src
    ns.zipIdx.map (fun (k, i) => (k, r.nodes.getD (n * ns.length + i) 0)))
  let parts := rs.flatMap (fun r =>
    let bs := g.partialBlocks r.src
    bs.zipIdx.map (fun (b, i) => (b, Part128.unpack (r.exacts.getD (n * bs.length + i) 0))))
  let leaf := fun (b : Nat) =>
    match parts.filter (fun p => p.1 = b) with
    | [] => blockValue c g.wbits (blockOf ps b)
    | l =>
      let own := blockOf ps b
      let first := if own = [] then (l.map Prod.snd).headD (partOf []) else partOf own
      let more := if own = [] then (l.map Prod.snd).tail else l.map Prod.snd
      (more.foldl Part128.add first).finish c
  treeValue c leaf (fun k => assocGet given k) g.nb (treeTop g.nb) 0

/-- Cuts the values of a FREE-mode message by element. -/
def countedLists : List Nat → List Nat → List (List Nat)
  | [], _ => []
  | n :: ns, l => l.take n :: countedLists ns (l.drop n)

/-- The EWR value of an element, as an FP32 code with flags (R161, R163). -/
def ewrElement (a : EwrArgs) (xv : Word32) (g : GridIn) (vs : OpVals) (x : List Nat) : Nat × Nat :=
  let val := fun (role : Nat) =>
    match g.ops.find? (fun q => q.role = role && role ≠ 0) with
    | some q => lookupVal vs (g.out.lets.zip x) q
    | none => .num false 0 0
  ewrValue ⟨val 1, val 2, val 3, xv.toNat, a.k0.toNat, a.k1.toNat, a.fn, g.out.d.fmt⟩ (ewrNodes a)

/-- Accumulates acc(o) onto a value (R117). -/
def withAcc (g : GridIn) (acc : Option Val) (r : Nat × Nat) : Nat × Nat :=
  match acc with
  | none => r
  | some v =>
    let a := accValue g.cls g.out.d.fmt v
    let t := addCls g.cls r.1 a.1
    (t.1, r.2 ||| a.2 ||| t.2)

/-! ### Writing a tile (R119, R168, R207) -/

/-- Bits to write for unscaled elements, and their flags. -/
def plainCodes (o : GridOp) (g : GridIn) (fromInt : Bool) (vals : List (List Nat × Val)) : List (Nat × Nat × Nat) × Nat :=
  let d := g.out.d
  let rs := vals.map (fun (x, v) =>
    let (c, fl) := toFmt d.fmt g.out.alt o.what.rnd o.what.sat (rndOf o.seed x) fromInt v
    ((d.bitAt x).toNat, c, fl))
  (rs.map (fun r => (r.1, d.w, r.2.1)), rs.foldl (fun f r => f ||| r.2.2) 0)

/-- Positions of a block of a block-scaled output, the absent ones included. -/
def blockPositions (d : Desc) (k : List Nat) : List (List Nat) := (List.range 32).map (fun i => k.set d.bdim (32 * k.getD d.bdim 0 + i))

/-- One output block: codes of 32 positions and the scale byte (R88, R108), a block of a CVT into its own form as it stands
(R109, log entry 81). When the block has elements of another
owner, R119 names no converter, and its codes and scale are free values. -/
def mxBlock (s : State) (o : GridOp) (g : GridIn) (mine : Bool) (vals : List (List Nat × OutVal)) (k : List Nat) :
    List (Nat × Nat × Nat) × Nat :=
  let d := g.out.d
  let xs := blockPositions d k
  let here := fun (x : List Nat) => x.getD d.bdim 0 < d.extAt d.bdim
  let a := (d.bitAt (xs.headD [])).fdiv 8
  let sc := ((d.scaleAt (o.fmtOf 0) a) * 8).toNat
  if mine then
    let vs := xs.map (fun x => if here x then (assocGet vals x).getD (OutVal.val (.num false 0 0)) else OutVal.val (.num false 0 0))
    let (scale, codes, fl) :=
      match vs.head? with
      | some (OutVal.own _ sc) => sameMx d.fmt g.out.alt sc (vs.map (fun (v : OutVal) => match v with
        | .own c _ => c
        | .val _ => 0))
      | _ => toMx d.fmt g.out.alt o.what.rnd (xs.map (rndOf o.seed)) (vs.map OutVal.num)
    ((xs.zip codes).map (fun (x, c) => ((d.bitAt x).toNat, d.w, c)) ++ [(sc, 8, scale)], fl)
  else
    let own := xs.filter (fun x => (assocGet vals x).isSome)
    (own.map (fun x => ((d.bitAt x).toNat, d.w, s.pick 4 (d.bitAt x).toNat 0 o.tile % 2 ^ d.w)) ++ [(sc, 8, s.pick 5 sc 0 o.tile % 256)], 0)

/-- The elements of a block that exist, and whether this participant owns all of them. -/
def ownsBlock (g : GridIn) (k : List Nat) : Bool :=
  let d := g.out.d
  let all := (List.range g.tiles).flatMap (g.outElems g.me)
  ((blockPositions d k).filter (fun x => x.getD d.bdim 0 < d.extAt d.bdim)).all (fun x => all.contains x)

/-- The bytes of the staging window, which have no defined content once a grid instruction has run (R139). -/
def State.clobber (s : State) (core : Nat) (spwin : Word) (key : Nat) : State :=
  let base := fieldAt spwin.toNat 0 19
  let size := fieldAt spwin.toNat 32 19
  s.performWrite none (spadPlace core base) ((List.range size).map (fun i => BitVec.ofNat 8 (s.pick 3 i key 0))) false

/-- Converts the values of a tile: its writes follow in later turns. -/
def writeTile (o : GridOp) (b : BankId) (g : GridIn) (fromInt : Bool) (vals : List (List Nat × OutVal)) (s : State) : State :=
  let d := g.out.d
  let c := o.ctx s b 0
  let pend := if d.mx then o.vals.map (fun p => (p.1, OutVal.ofInts p.2)) ++ vals else []
  let keys := (pend.map (fun p => p.1.set d.bdim (p.1.getD d.bdim 0 / 32))).foldl (fun l k => if l.contains k then l else l ++ [k]) []
  let whole := fun (k : List Nat) =>
    (blockPositions d k).all (fun x => d.extAt d.bdim ≤ x.getD d.bdim 0 || (assocGet pend x).isSome)
  let ready := keys.filter (fun k => whole k || !ownsBlock g k)
  let (bits, fl) :=
    if d.mx then
      ready.foldl (fun (acc : List (Nat × Nat × Nat) × Nat) k =>
        let r := mxBlock s o g (whole k) pend k
        (acc.1 ++ r.1, acc.2 ||| r.2)) ([], 0)
    else plainCodes o g fromInt (vals.map (fun p => (p.1, p.2.num)))
  let left := pend.filter (fun p => !ready.contains (p.1.set d.bdim (p.1.getD d.bdim 0 / 32)))
  let todo := s.anyOrder (unitsOf c s bits)
  s.modGrid b o.seq (fun o => { o with flags := o.flags ||| fl, vals := left.map (fun p => (p.1, p.2.toInts)), todo := todo })

/-! ### The work of one tile (R134) -/

def State.gridOp (s : State) (b : BankId) (seq : Nat) : Option GridOp := (s.bank b).grid.find? (fun o => o.seq = seq)

/-- The operation moves to its next tile; the root's tags are released with its last one (R135). -/
def State.nextTile (s : State) (b : BankId) (seq : Nat) (g : GridIn) (job : Nat) : State :=
  let s := s.modGrid b seq (fun o =>
    { o with tile := o.tile + 1, sent := false, phase := if g.tiles ≤ o.tile + 1 then .written else .running,
             opnds := o.opnds.filter (fun p => p.tile ≠ o.tile), nodes := o.nodes.filter (fun p => p.tile ≠ o.tile),
             exacts := o.exacts.filter (fun p => p.tile ≠ o.tile) })
  match s.gridOp b seq with
  | some o =>
    if o.phase = .written ∧ g.me = (0, 0, 0) ∧ o.tag.isSome then
      { s with routeTags := s.routeTags.filter (fun t => !(t.job = job && t.number = o.number)) }
    else s
  | none => s

/-- A translation fault on an S-path read: a fault record follows, and the operation stays at its tile (R171, R380). With
the ring disabled it counts as answered DELIVER at once, which aborts the job (R382). -/
def State.gridReadFault (s : State) (b : BankId) (o : GridOp) (addr : Nat) : State :=
  let k := s.bank b
  let aux := heldAux 1 0 o.tile
  let on : Bool := match s.part k.part with
    | some p => decide (fieldAt p.frctl.toNat 63 1 = 1)
    | none => false
  if on then
    s.modBank b (fun k => { k with pendTrap := some ⟨cFAULT_READ, k.g.pc, BitVec.ofNat 64 addr, aux, s.dtc, none, false, some o.seq, none⟩, drain := .fault })
  else (s.modBank b (fun k => k.setTrapRegs ⟨cFAULT_READ, BitVec.ofNat 64 addr, aux⟩ k.g.pc)).abortJob b cFAULT_READ

/-- A read that fails in another way than by its translation: the fault is held, and the tile stays unwritten (R331). -/
def State.gridFail (s : State) (b : BankId) (o : GridOp) (g : GridIn) (job addr : Nat) (f : EFault) : State :=
  match f with
  | .xlat x => (s.logAccess (s.bank b).part o.asid.toNat addr x).gridReadFault b o addr
  | f => (s.hold b ⟨f.code cFAULT_READ, BitVec.ofNat 64 addr, heldAux 1 0 o.tile, 0⟩).nextTile b o.seq g job

/-- Sends a list of values in chunks to the owner; the first chunk carries the counts and the terms of FREE mode. -/
def sendValues (o : GridOp) (b : BankId) (job : Nat) (g : GridIn) (per : Nat) (mk : GridPart → SpMsg) (vals counts : List Nat)
    (terms : List (List (Nat × Val))) (lost : Bool) (s : State) : State :=
  let terms := terms.map (fun l => l.map (fun (t, v) => (t, v.toInts)))
  (chunksOf per (vals.length + 1) vals).zipIdx.foldl (fun s (d, i) =>
    s.sendSpindle job o.number o.tag g.me b.core (g.ownerOf g.me) (mk ⟨g.me, o.tile, 0, 0, i, d, lost, if i = 0 then counts else [], if i = 0 then terms else []⟩)) s

/-- What one sender has delivered for a tile in FREE mode. -/
def joinFree (l : List GridPart) (src : Coord) (tile : Nat) : Option (Received × Bool) :=
  match l.find? (fun p => p.src = src && p.tile = tile && p.chunk = 0) with
  | none => none
  | some first => (joinParts l src tile 0 0 (chunkCount 512 first.counts.sum)).map (fun (d, lost) =>
      (⟨src, d, [], first.counts, first.terms.map (fun l => l.map (fun (t, v) => (t, Val.ofInts v)))⟩, lost))

/-- What the senders of an owner have delivered for the tile, or none while something is missing. -/
def received (o : GridOp) (g : GridIn) (count : Nat) : List Coord → Option (List Received × Bool)
  | [] => some ([], false)
  | q :: l =>
    let got : Option (Received × Bool) :=
      if recFree g.m then joinFree o.nodes q o.tile
      else
        let nn := count * (g.nodes q).length
        let ne := count * (g.partialBlocks q).length
        let ns := if nn = 0 then some ([], false) else joinParts o.nodes q o.tile 0 0 (chunkCount 512 nn)
        let es := if ne = 0 then some ([], false) else joinParts o.exacts q o.tile 0 0 (chunkCount 128 ne)
        match ns, es with
        | some (a, l1), some (c, l2) => some (⟨q, a, c, [], []⟩, l1 || l2)
        | _, _ => none
    match got, received o g count l with
    | some (r, l1), some (rs, l2) => some (r :: rs, l1 || l2)
    | _, _ => none

/-- A non-owner's share of a tile: its node values and exact partials go to the owner (R132). -/
def gridSend (o : GridOp) (b : BankId) (g : GridIn) (job : Nat) (xs : List (List Nat)) (vs : OpVals)
    (lost : Bool) (s : State) : State :=
  let ps := xs.map (productsOf g vs)
  let fl := ps.foldl (fun f p => f ||| p.2) 0
  if g.terms g.me = [] then s
  else if recFree g.m then
    let l := ps.zipIdx.map (fun (p, i) => freeShare s g i o.tile p.1)
    let fl := l.foldl (fun f r => r.1.foldl (fun f v => f ||| v.2) f) fl
    let s := sendValues o b job g 512 .node (l.flatMap (fun r => r.1.map Prod.fst)) (l.map (fun r => r.1.length)) (l.map Prod.snd) lost s
    s.modGrid b o.seq (fun o => { o with flags := o.flags ||| fl })
  else
    let cs := ps.map (fun p => contribution g p.1)
    let fl := cs.foldl (fun f c => f ||| c.2.2) fl
    let ns := cs.flatMap (fun c => c.1)
    let es := cs.flatMap (fun c => c.2.1)
    let s := if ns = [] then s else sendValues o b job g 512 .node ns [] [] lost s
    let s := if es = [] then s else sendValues o b job g 128 .exact es [] [] lost s
    s.modGrid b o.seq (fun o => { o with flags := o.flags ||| fl })

/-- Whether a block of one operand goes whole into a block of another: the same block-scaled form and alternate code, with
blocks along the same letter (R109). -/
def Opnd.sameForm (a c : Opnd) : Bool :=
  a.d.mx && a.d.fmt = c.d.fmt && a.alt = c.alt && a.lets[a.d.bdim]? = c.lets[c.d.bdim]?

/-- The values of an owner's tile with their flags, and whether the output conversion starts from an integer. -/
def tileValues (o : GridOp) (g : GridIn) (xs : List (List Nat)) (vs : OpVals) (rs : List Received)
    (accs : List Val) (s : State) : List (List Nat × OutVal) × Nat × Bool :=
  match o.what with
  | .cvt _ =>
    let a := g.ins.headD g.out
    (xs.map (fun x =>
      let e := lookupElem vs (g.out.lets.zip x) a
      (x, if a.sameForm g.out then .own e.code e.scale else .val e.v)), 0, isIntFmt a.d.fmt)
  | .ewr a xv =>
    let r := xs.map (fun x => (x, ewrElement a xv g vs x))
    (r.map (fun p => (p.1, .val (fromF32 p.2.1))), r.foldl (fun f p => f ||| p.2.2) 0, false)
  | _ =>
    let r := xs.zipIdx.map (fun (x, n) =>
      let (ps, fl) := productsOf g vs x
      let acc := if g.acc then accs[n]? else none
      if recFree g.m then
        let joined := rs.foldl (fun l (r : Received) => (r.terms.getD n []).foldr insertTerm l) ps
        let own := (freeRuns s n o.tile joined).map (runValue g)
        let more := rs.flatMap (fun (r : Received) => (countedLists r.counts r.nodes).getD n [])
        let a := acc.map (accValue g.cls g.out.d.fmt)
        let l := own.map Prod.fst ++ more ++ (a.map Prod.fst).toList
        let v := freeCombine g.cls (fun i => s.pick 2 i n o.tile) l.length l
        (x, v.1, v.2 ||| fl ||| (own.map Prod.snd).foldl (· ||| ·) 0 ||| (a.map Prod.snd).getD 0)
      else
        let v := withAcc g acc (canonElement g ps rs n)
        (x, v.1, v.2 ||| fl))
    (r.map (fun p => (p.1, .val (resultVal g.cls p.2.1))), r.foldl (fun f p => f ||| p.2.2) 0, g.cls = .int)

/-- Reads acc(o) for the elements of a tile (R117): only owners do. -/
def readAccs (o : GridOp) (b : BankId) (g : GridIn) (xs : List (List Nat)) (s : State) : Except (Nat × EFault) (List Val × Option Nat × State) :=
  if g.acc then
    match readBlock o b g.out xs s with
    | .ok (es, ecc, s) => .ok (es.map (elemVal g.out.d g.out.alt), ecc, s)
    | .error e => .error e
  else .ok ([], none, s)

/-- Makes the next `n` writes of the current tile. With the last one the tile ends: one fault is held for it when a write
faulted, with the lowest address (R168). -/
def State.writeSome (s : State) (b : BankId) (o : GridOp) (n : Nat) : State :=
  let (s, low) := writeUnits (o.ctx s b 0) cFAULT_WRITE_WEAK (o.todo.take n) s o.low
  let left := o.todo.drop n
  let s := s.modGrid b o.seq (fun o => { o with todo := left, low := if left = [] then none else low })
  if left ≠ [] then s
  else
    let s := match low with
      | some (a, c) => s.hold b ⟨c, BitVec.ofNat 64 a, heldAux 1 0 o.tile, 0⟩
      | none => s
    s.nextTile b o.seq (o.input s b) (((s.bank b).binding.map (·.job)).getD 0)

/-- A drain stops a grid operation at an output-tile boundary: the writes of a tile that it has begun to write are made
(R134, R381). -/
def State.endTiles (s : State) (b : BankId) : State :=
  ((s.bank b).grid.filter (fun o => o.todo ≠ [])).foldl (fun s o => s.writeSome b o o.todo.length) s

/-- An owner's share of a tile: once every partial is here it computes and converts (R134). -/
def gridOwn (o : GridOp) (b : BankId) (g : GridIn) (job : Nat) (xs : List (List Nat)) (vs : OpVals)
    (lost : Bool) (s : State) : Option State :=
  let senders := if g.sums then g.senders g.me else []
  match received o g xs.length senders with
  | none => none
  | some (rs, l2) =>
    match readAccs o b g xs s with
    | .error (a, f) => some (s.gridFail b o g job a f)
    | .ok (accs, ecc, s) =>
      let s := match ecc with
        | some a => s.hold b ⟨cECC_UNCORRECTED, BitVec.ofNat 64 a, heldAux 1 0 o.tile, 0⟩
        | none => s
      let s := s.clobber b.core o.spwin o.tile
      if lost || l2 || ecc.isSome then some (s.nextTile b o.seq g job)
      else
        let (vals, fl, fromInt) := tileValues o g xs vs rs accs s
        let s := s.modGrid b o.seq (fun o => { o with flags := o.flags ||| fl })
        let s := writeTile o b g fromInt vals s
        some (if (s.gridOp b o.seq).any (fun o => o.todo = []) then s.nextTile b o.seq g job else s)

/-- The address range of a tensor's elements, with its space and core. -/
def Tensor.range (t : Tensor) : Nat × Nat × Int × Int :=
  let d := Desc.of t.desc
  (d.space, d.core, d.footprint.1, d.footprint.2)

def rangesMeet (p q : Nat × Nat × Int × Int) : Bool := p.1 = q.1 && p.2.1 = q.2.1 && p.2.2.1 < q.2.2.2 && q.2.2.1 < p.2.2.2

/-- Where bytes `lo` to `hi − 1` of a span lie, as pieces (place, length): page by page in memory, at once in a scratchpad. A
byte that does not translate lies nowhere. -/
def placesIn (s : State) (c : EngCtx) : Nat → Nat → Nat → List (Nat × Nat)
  | 0, _, _ => []
  | fuel + 1, lo, hi =>
    if hi ≤ lo then []
    else
      let n := if sSPACE c.span.bits = 0 then min (hi - lo) (4096 - lo % 4096) else hi - lo
      let rest := placesIn s c fuel (lo + n) hi
      match engPlace s c lo false with
      | .ok (.place p _, _) => (p, n) :: rest
      | .ok (.remote d o, _) => (2 ^ 60 + d * 2 ^ 45 + o, n) :: rest
      | _ => rest

/-- The places of a tensor's elements and of its scales (R146). -/
def GridOp.places (o : GridOp) (s : State) (b : BankId) (role : Nat) : List (Nat × Nat) :=
  let d := Desc.of (o.tensor role).desc
  let (lo, hi) := d.footprint
  let pieces := fun (l h : Int) => placesIn s (o.ctx s b role) ((h - l).toNat / 4096 + 2) l.toNat h.toNat
  pieces lo hi ++ (if d.mx then pieces (d.scaleAt (o.fmtOf role) lo) (d.scaleAt (o.fmtOf role) (hi - 1) + 1) else [])

def placesMeet (p q : List (Nat × Nat)) : Bool := p.any (fun (a, n) => q.any (fun (c, m) => overlap a n c m))

/-- The writes of a grid operation that are not yet performed at their home slices. -/
def State.opWrites (s : State) (b : BankId) (seq : Nat) : List PendStore :=
  s.pend.filter (fun p => p.bank = b && p.path = 1 && p.op = seq && !p.home)

/-- Whether the write of an earlier grid instruction of the stream to what this one reads or writes is not yet performed (R141):
the same range of a space, or the same places under another name. -/
def State.gridBlocked (s : State) (b : BankId) (o : GridOp) : Bool :=
  (s.bank b).grid.any (fun e => e.seq < o.seq && (e.phase ≠ .written || s.opWrites b e.seq ≠ []) && o.tens.any (fun (role, t) =>
    rangesMeet (e.tensor 0).range t.range || placesMeet (e.places s b 0) (o.places s b role)))

/-- Whether the bank's grid work goes on: its core runs it and it does not stand drained (R381). A pre-emption lets it
run on while its streams are stopped (R387). -/
def State.gridLive (s : State) (b : BankId) : Bool :=
  let k := s.bank b
  (s.core b.core).running = b.bank && (k.drain = .none || k.drain = .preempt) && k.halted.isNone && k.pendTrap.isNone

/-- One turn of a running operation: it sends the blocks that it reads for others, works its current tile, or makes `n` writes
of it. The operands of a tile are read in one turn: DESIGN CHOICE, log entry 101. -/
def State.gridTurn (s : State) (b : BankId) (seq n : Nat) : State :=
  let k := s.bank b
  match s.gridOp b seq with
  | none => s
  | some o =>
    if o.todo ≠ [] then (if (s.core b.core).running = b.bank then s.writeSome b o n else s)
    else if o.phase ≠ .running ∨ !s.gridLive b ∨ s.gridBlocked b o then s
    else
      let g := o.input s b
      let job := (k.binding.map (·.job)).getD 0
      let xs := g.outElems g.me o.tile
      if !o.sent then
        match sendBlocks o b job g g.ownBlocks s with
        | .error (a, f) => s.gridFail b o g job a f
        | .ok (s, ecc) =>
          let s := match ecc with
            | some a => s.hold b ⟨cECC_UNCORRECTED, BitVec.ofNat 64 a, heldAux 1 0 o.tile, 0⟩
            | none => s
          s.modGrid b seq (fun o => { o with sent := true })
      else if xs = [] then s.nextTile b seq g job
      else
        match opndsTile o b g g.ins s with
        | .error none => s
        | .error (some (a, f)) => s.gridFail b o g job a f
        | .ok (vs, lost, t) =>
          if g.sums && !g.owner g.me then (gridSend o b g job xs vs lost t).nextTile b seq g job
          else (gridOwn o b g job xs vs lost t).getD s

/-- Turns of one operation in a row, each making all the writes that it can. -/
def State.gridTurns : Nat → State → BankId → Nat → State
  | 0, s, _, _ => s
  | n + 1, s, b, seq => State.gridTurns n (s.gridTurn b seq (2 ^ 32)) b seq

/-- GRID_COMPLETE (R141): the tiles still to be written are written as far as their operands and partials are here; once
every tile is written and every message sent has been delivered, its writes are performed at their home slices (R197; globally
visible they become later, R199, R213: log entry 102), the flags are ORed in (R111) and the operation ends. -/
def execGridComplete (b : BankId) (seq : Nat) (s : State) : Out :=
  match s.gridOp b seq with
  | none => .next s
  | some o =>
    let g := o.input s b
    let s := s.gridTurns (3 * (g.tiles - o.tile)) b seq
    match s.gridOp b seq with
    | none => .next s
    | some o =>
      let job := ((s.bank b).binding.map (·.job)).getD 0
      if o.phase ≠ .written ∨ s.spindle.any (fun m => m.job = job && m.number = o.number && m.src = g.me && 1 < g.parts.length) then .next s
      else
        .next (((s.homeAll ((s.opWrites b seq).map (·.id))).clobber b.core o.spwin o.tile).modBank b (fun k =>
          { k.orFlags o.flags with grid := k.grid.filter (fun q => q.seq ≠ seq) }))

end Sys2Proof.Machine
end

