-- ==== Sys2Proof/Machine/GScalar.lean ====
section
/-! DEFINITION. The scalar and control instructions of the G stream (R166 to R170). -/
namespace Sys2Proof.Machine

/-- A binary operation on 32-bit values; sources are read in slot order (R28, R166). -/
def Bank.gop2 (k : Bank) (rd : GDst) (ra rb : GSrc) (f : Word32 → Word32 → Word32) : Ev Bank := do
  gsrcDir ra
  gsrcDir rb
  gdstDir rd
  let (a, k) ← k.readGSrc ra
  let (b, k) ← k.readGSrc rb
  k.writeGDst rd (f a b)

def execGmov (g : Guard) (rd : GDst) (ra : GSrc) : State → Out :=
  pureG g 1 (fun k => do
    gsrcDir ra
    gdstDir rd
    let (a, k) ← k.readGSrc ra
    k.writeGDst rd a)

def execGadd (g : Guard) (rd : GDst) (ra rb : GSrc) : State → Out := pureG g 1 (fun k => k.gop2 rd ra rb (· + ·))
def execGsub (g : Guard) (rd : GDst) (ra rb : GSrc) : State → Out := pureG g 1 (fun k => k.gop2 rd ra rb (· - ·))

def execGcmp (g : Guard) (cc : Cond) (cd : BitVec 3) (ra rb : GSrc) : State → Out :=
  pureG g 1 (fun k => do
    gsrcDir ra
    gsrcDir rb
    let (a, k) ← k.readGSrc ra
    let (b, k) ← k.readGSrc rb
    .ok (k.setCG cd (condHolds32 cc a b)))

def execGqpop (g : Guard) (rd : BitVec 4) (q : BitVec 3) (peek : Bool) : State → Out :=
  pureG g 1 (fun k => do
    popDir .g q
    let (v, k) ← k.take q peek
    .ok (k.setY rd (v.setWidth 32)))

def execGqpush (g : Guard) (q : BitVec 3) (ra : BitVec 4) : State → Out :=
  pureG g 1 (fun k => do
    pushDir .g q
    k.push q ((k.getY ra).setWidth 64))

/-! ### Branches (R167) -/

/-- Target of a G-stream branch. -/
def gTarget (pc : Word) (off : BitVec 26) : Word := pc + 8 * off.signExtend 64

def Bank.gJump (k : Bank) (off : BitVec 26) : Bank := { k with g := { k.g with pc := gTarget k.g.pc off } }

def execGloop (g : Guard) (ra : BitVec 4) (off : BitVec 26) : State → Out :=
  runG g 1 (fun s b =>
    let k := s.bank b
    if k.getY ra = 0 then .done s
    else
      let n := k.getY ra - 1
      if n ≠ 0 then .jumped (s.setBank b ((k.setY ra n).gJump off)) else .done (s.setBank b (k.setY ra n)))

def execGbr (g : Guard) (off : BitVec 26) : State → Out := runG g 1 (fun s b => .jumped (s.modBank b (fun k => k.gJump off)))

def execGbc (g : Guard) (cc : Cond) (ra rb : GSrc) (off : BitVec 26) : State → Out :=
  runG g 1 (fun s b =>
    let e : Ev (Word32 × Word32 × Bank) := do
      gsrcDir ra
      gsrcDir rb
      let (a, k) ← (s.bank b).readGSrc ra
      let (c, k) ← k.readGSrc rb
      .ok (a, c, k)
    e.andThen s (fun (a, c, k) =>
      if condHolds32 cc a c then .jumped (s.setBank b (k.gJump off)) else .done (s.setBank b k)))

/-! ### Flags and ends (R168 to R170) -/

/-- GSIG: earlier G-stream instructions have issued, since the stream issues in order. -/
def execGsig (g : Guard) (fl : BitVec 4) : State → Out := pureG g 1 (fun k => .ok (k.setFl fl true []))

/-- Waits until every earlier grid instruction has completed on this core. -/
def afterGrid (f : Bank → Bank) (s : State) (b : BankId) : Res :=
  if (s.bank b).grid ≠ [] then .wait s .gdrain 2 0 [] else .done (s.modBank b f)

/-- The S-path writes of a bank that are not yet globally visible. -/
def State.gridWrites (s : State) (b : BankId) : List Nat :=
  (s.pend.filter (fun p => p.bank = b && p.path = 1)).map (fun p => p.id)

/-- GSIG.D: every earlier grid instruction has completed, and the flag hands its S-path writes over (R168, R210). -/
def execGsigD (g : Guard) (fl : BitVec 4) : State → Out :=
  runG g 1 (fun s b => afterGrid (fun k => k.setFl fl true (s.gridWrites b)) s b)

def execGwaitf (g : Guard) (fl : BitVec 4) (v : Bool) : State → Out :=
  runG g 1 (fun s b => if (s.bank b).getFl fl = v then .done s else .wait s .flag fl.toNat v.toNat [])

def execGdrain (g : Guard) : State → Out := runG g 1 (afterGrid id)

/-- GIDLE (R170): an entry in q0 to q3, a flag write of the C stream since it issued, or a resumption ends it. -/
def execGidle (g : Guard) : State → Out :=
  runG g 1 (fun s b =>
    let k := s.bank b
    let noted : Bool := match k.g.wait with
      | some ⟨.gidle, _, _, [1], _⟩ => true
      | _ => false
    if noted || ([0, 1, 2, 3] : List (BitVec 3)).any (fun q => k.getQ q ≠ []) then .done s else .wait s .gidle 0 0 [])

/-- Every tensor register that G owns passes to C. -/
def Bank.passAll (k : Bank) : Bank := { k with t := k.t.map (fun (t : Tensor) => { t with owner := .c }) }

def execGend (g : Guard) (s : State) : Out :=
  let b := s.cur.bank
  let k := s.bank b
  if guardHolds k.cG g then
    .next (match afterGrid Bank.passAll s b with
      | .done s => (s.modBank b (fun k => { k with g := k.g.finish s.dtc })).endTeam b
      | r => finishG b 1 k.g.pc r)
  else .next (finishG b 1 k.g.pc (.done s))

end Sys2Proof.Machine
end

