-- ==== Sys2Proof/Machine/Copy.lean ====
section
/-! DEFINITION. Copy engines: channels, COPY, MCAST, TCOPY, the work of a transfer and its completion, CPWAIT and CPSTAT (R234 to R245). -/
namespace Sys2Proof.Machine

/-! ### Channels (R234, R235) -/

def Chan.busy (c : Chan) : Nat := (c.xfers.filter (fun x => !x.finished)).length

/-- CPDONE: the largest n such that every transfer up to n has completed. -/
def Chan.settle (c : Chan) : Chan :=
  let left := (c.xfers.filter (fun x => !x.finished)).map (fun x => x.id)
  let done := match left with
    | [] => c.next - 1
    | i :: is => is.foldl min i - 1
  { c with cpdone := max c.cpdone done, xfers := c.xfers.filter (fun x => !x.finished) }

/-- The engine accepts a command: it takes the channel's next identifier (R234). -/
def Bank.accept (k : Bank) (ch : BitVec 3) (cmd : XferCmd) (cword : Option (SpanReg × Scope × Word)) : Bank :=
  let c := k.getChan ch
  k.setChan ch { c with next := c.next + 1, xfers := c.xfers ++ [⟨c.next, cmd, k.asid, cword, 0, 0, false, false, []⟩] }

def Bank.modXfer (k : Bank) (ch : BitVec 3) (id : Nat) (f : Xfer → Xfer) : Bank :=
  let c := k.getChan ch
  k.setChan ch { c with xfers := c.xfers.map (fun x => if x.id = id then f x else x) }

def Bank.findXfer (k : Bank) (ch : BitVec 3) (id : Nat) : Option Xfer := (k.getChan ch).xfers.find? (fun x => x.id = id && !x.finished)

/-- A transfer counts as complete. -/
def Bank.endXfer (k : Bank) (ch : BitVec 3) (id : Nat) : Bank :=
  let k := k.modXfer ch id (fun x => { x with finished := true })
  k.setChan ch (k.getChan ch).settle

/-- A full channel waits at issue (R235). -/
def Bank.chanRoom (k : Bank) (ch : BitVec 3) : Ev Unit :=
  if 16 ≤ (k.getChan ch).busy then .error (.wait .channel ch.toNat (k.getChan ch).next) else .ok ()

/-- A transfer as the operation of its writes: channel and identifier. -/
def xferOp (ch : BitVec 3) (id : Nat) : Nat := ch.toNat + 8 * id

/-- The writes of a transfer that are not yet globally visible. -/
def State.payload (s : State) (b : BankId) (op : Nat) : List Nat :=
  (s.pend.filter (fun p => p.bank = b && p.path = 2 && p.op = op)).map (fun p => p.id)

/-- A transfer of a bank ends once every write that it made is performed (R235), and with it an abort that waits for it (R378). How
R197, R198, R199 and R245 fit that rule: log entry 102. -/
def State.endTransfer (s : State) (b : BankId) (ch : BitVec 3) (id : Nat) : State :=
  let s := (s.homeAll (s.payload b (xferOp ch id))).modBank b (fun k => k.endXfer ch id)
  match (s.bank b).binding with
  | some c => s.finishAbort c.job
  | none => s

/-- A transfer faults: the fault is held, no completion word follows (R238); the flags of the elements that it has converted
stand (R111). -/
def State.failTransfer (s : State) (b : BankId) (ch : BitVec 3) (id addr : Nat) (f : EFault) : State :=
  ((s.modBank b (fun k => k.orFlags ((k.findXfer ch id).elim 0 (·.flags)))).hold b ⟨f.code cFAULT_ENGINE, BitVec.ofNat 64 addr, heldAux 2 ch.toNat id, 0⟩).endTransfer b ch id

/-! ### Spans of engine commands (R237, R238) -/

/-- The check of one span that an engine command names: span_check, SPANSTORE, T and DEV, then the spaces of the entry. Only
TCOPY (`tensor`) accepts a span with T. -/
def Bank.engSpan (k : Bank) (n : BitVec 4) (off : Word) (size perm : Nat) (spaces : List Nat) (tensor : Bool := false) : Ev (Nat × SpanReg) :=
  let r := k.getB n
  match spanCheck r n.toNat off.toInt size perm with
  | .error t => .error (.trap t)
  | .ok addr =>
    let aux := BitVec.ofNat 64 n.toNat
    let p := sPERM r.bits
    if p &&& pSPANSTORE ≠ 0 then raise cSPAN_STORE (BitVec.ofNat 64 addr) 0
    else if p &&& (if tensor then pDEV else pT + pDEV) ≠ 0 then raise cSPAN_PERM off aux
    else if !spaces.contains (sSPACE r.bits) then raise cSPAN_PERM (BitVec.ofNat 64 addr) aux
    else .ok (addr, r)

/-- The completion word of a command (R237): its span, checked at offset 0. -/
def Bank.complWord (k : Bank) (sc : Option Scope) (n : BitVec 4) (v : Word) (tensor : Bool := false) : Ev (Option (SpanReg × Scope × Word)) :=
  match sc with
  | none => .ok none
  | some sc => do
    let (addr, r) ← k.engSpan n 0 8 pW [0, 1, 2] tensor
    if addr % 8 ≠ 0 then raise cMISALIGNED (BitVec.ofNat 64 addr) 0 else .ok (some (r, sc, v))

/-- Accepts a checked command and writes its identifier. -/
def Bank.take1 (k : Bank) (ch : BitVec 3) (rx : Dst) (cmd : XferCmd) (cw : Option (SpanReg × Scope × Word)) : Ev Bank := do
  k.chanRoom ch
  (k.accept ch cmd cw).writeDst rx (BitVec.ofNat 64 (k.getChan ch).next)

/-! ### COPY, MCAST, TCOPY (R239, R240, R242) -/

/-- Whether an address names another device through the domain window (R195). -/
def State.elsewhere (s : State) (r : SpanReg) (addr : Nat) : Bool :=
  sSPACE r.bits = 0 && fieldAt addr 55 2 = 2 && s.ownDid ≠ some (fieldAt addr 45 10)

/-- COPY; with a side in the system window its completion word must lie in this device, else its span traps as one of a space that
the entry does not accept (R243). DEDUCED, log entry 96. -/
def execCopy (g : Guard) (ch : BitVec 3) (sc : Option Scope) (cvr : BitVec 6) (fa fb fc : BitVec 4) (rx : Dst) (ry rz : Src)
    (len : BitVec 48) : State → Out :=
  runC g 2 (fun s b => ofBank (fun k => do
    dirs [ry, rz] [rx]
    k.roomFor rx
    let (so, q) ← k.readSrc ry
    let (d, q) ← q.readSrc rz
    let (_, dst) ← k.engSpan fb d len.toNat pW [0, 1, 2, 3]
    let (sa, src) ← k.engSpan fa so len.toNat pR [0, 1, 2, 3]
    if sSPACE src.bits = 3 ∧ sSPACE dst.bits = 3 then raise cSPAN_PERM (BitVec.ofNat 64 sa) (BitVec.ofNat 64 fa.toNat)
    else
      let cw ← k.complWord sc fc (k.getX cvr)
      if (sSPACE src.bits = 3 ∨ sSPACE dst.bits = 3) ∧ cw.any (fun (r, _, _) => s.elsewhere r (sBASE r.bits)) then
        raise cSPAN_PERM (BitVec.ofNat 64 (sBASE (k.getB fc).bits)) (BitVec.ofNat 64 fc.toNat)
      else q.take1 ch rx (.copy src dst so.toNat d.toNat len.toNat) cw) s b)

/-- The lowest core of a mask that does not run a stream of the bank's job. -/
def State.strayCore (s : State) (b : BankId) (mask : BitVec 48) : Option Nat :=
  (List.range 48).find? (fun n => mask.getLsbD n &&
    !((s.jobOf b).elim false (fun j => j.banks.any (fun (q, _) => q.core = clusterOf b.core * 64 + n))))

def execMcast (g : Guard) (ch : BitVec 3) (sc : Option Scope) (cvr : BitVec 6) (fa fb fc : BitVec 4) (rx : Dst) (ry rz : Src)
    (mask : BitVec 48) : State → Out :=
  runC g 2 (fun s b =>
    let k := s.bank b
    let e : Ev Bank := do
      dirs [ry, rz] [rx]
      k.roomFor rx
      let (n, q) ← k.readSrc ry
      let (d, q) ← q.readSrc rz
      let (_, dst) ← k.engSpan fb d n.toNat pW [2]
      let (_, src) ← k.engSpan fa 0 n.toNat pR [0, 1, 2]
      let cw ← k.complWord sc fc (k.getX cvr)
      match s.strayCore b mask with
      | some c => raise cSPAN_PERM (BitVec.ofNat 64 c) (BitVec.ofNat 64 fb.toNat)
      | none => q.take1 ch rx (.mcast src dst 0 d.toNat n.toNat mask) cw
    e.andThen s (fun q => .done (s.setBank b q)))

/-- The checks of TCOPY's letters (R242): as many as the ranks, one extent a letter, every source letter in the
destination. -/
def tcopyLetters (a c : Desc) (la lc : List Nat) : Option TrapInfo :=
  let bad := fun (r l d : Nat) => some (⟨cSHAPE_MISMATCH, 0, shapeAux r l d⟩ : TrapInfo)
  if lc.length ≠ c.rank then bad 0x0B 255 0
  else if la.length ≠ a.rank then bad 0x0B 255 1
  else
    match la.zipIdx.find? (fun (l, i) => lc.contains l && a.extAt i ≠ c.extAt (lc.idxOf l)) with
    | some (l, _) => bad 0x02 l 0
    | none =>
      match la.find? (fun l => !lc.contains l) with
      | some l => bad 0x05 l 0
      | none => none

/-- The checks of R238 on a tensor's captured span: SPANSTORE and DEV trap, with the offset of the tensor's base and the register. -/
def tcopySpan (r : SpanReg) (d : Desc) (reg role : Nat) : Option TrapInfo :=
  if sPERM r.bits &&& pSPANSTORE ≠ 0 then some ⟨cSPAN_STORE, BitVec.ofNat 64 d.base, 0⟩
  else if sPERM r.bits &&& pDEV ≠ 0 then some ⟨cSPAN_PERM, BitVec.ofNat 64 (d.base - sBASE r.bits), useAux reg role d.dspan⟩
  else none

/-- TCOPY samples its tensors, the formats of their banks and ROUNDSEED at acceptance (R99, R103, R242). -/
def execTcopy (g : Guard) (ch : BitVec 3) (sc : Option Scope) (csb : BitVec 4) (fa fc : BitVec 5) (lsa lsc : Letters) (rx : Dst) :
    State → Out :=
  runC g 2 (fun s b =>
    let k := s.bank b
    let a := k.getT fa
    let c := k.getT fc
    let e : Ev Bank := do
      dirs [] [rx]
      k.roomFor rx
      match checkUse s b c.desc c.span fc.toNat 0 false, tcopySpan c.span (Desc.of c.desc) fc.toNat 0,
          checkUse s b a.desc a.span fa.toNat 1 false, tcopySpan a.span (Desc.of a.desc) fa.toNat 1 with
      | .error t, _, _, _ => .error (.trap t)
      | .ok _, some t, _, _ => .error (.trap t)
      | .ok _, none, .error t, _ => .error (.trap t)
      | .ok _, none, .ok _, some t => .error (.trap t)
      | .ok cf, none, .ok af, none =>
        match tcopyLetters (Desc.of a.desc) (Desc.of c.desc) (letterNums lsa) (letterNums lsc) with
        | some t => .error (.trap t)
        | none =>
          let cw ← k.complWord sc csb (BitVec.ofNat 64 (k.getChan ch).next) true
          k.take1 ch rx (.tcopy a c lsa lsc [af, cf] k.roundseed) cw
    e.andThen s (fun q => .done (s.setBank b q)))

/-! ### The work of a transfer -/

/-- The access context of path X: the cluster's TLB serves the hub's copy engines (R354). -/
def State.xCtx (s : State) (b : BankId) (op : Nat) (asid : BitVec 12) (span : SpanReg) : EngCtx :=
  ⟨[.cluster (clusterOf b.core), .mem], b, 2, op, (s.bank b).part, asid.toNat, span⟩

/-- Whether the target of a system-window transfer refuses it: another device's choice (R243). -/
def State.refused (s : State) (ch : BitVec 3) (id : Nat) : Bool := s.pick 6 ch.toNat id 0 % 2 = 1

/-- Bytes of the next word of a copy: up to the next multiple of 8 in the destination, so that an aligned word is
written whole (R239). -/
def wordLen (da left : Nat) : Nat := min left (8 - da % 8)

/-- Moves the next word of a COPY. -/
def copyWord (s : State) (b : BankId) (ch : BitVec 3) (x : Xfer) (src dst : SpanReg) (so d len : Nat) : State :=
  let sa := sBASE src.bits + so + x.done
  let da := sBASE dst.bits + d + x.done
  let n := wordLen da (len - x.done)
  if (sSPACE src.bits = 3 ∨ sSPACE dst.bits = 3) ∧ s.refused ch x.id then
    s.failTransfer b ch x.id (if sSPACE src.bits = 3 then sa else da) (.cause cFAULT_ENGINE)
  else
    match s.engLoad (s.xCtx b (xferOp ch x.id) x.asid src) sa n with
    | .error (a, f) => ((s.xCtx b (xferOp ch x.id) x.asid src).noteFault s a f).failTransfer b ch x.id a f
    | .ok (bs, s) =>
      match s.engStore (s.xCtx b (xferOp ch x.id) x.asid dst) da bs with
      | (s, some (a, f)) => s.failTransfer b ch x.id a f
      | (s, none) => s.modBank b (fun k => k.modXfer ch x.id (fun y => { y with done := y.done + n }))

/-- Moves the next word of an MCAST: read once, written in every core of the mask. -/
def mcastWord (s : State) (b : BankId) (ch : BitVec 3) (x : Xfer) (src dst : SpanReg) (so d len : Nat) (mask : BitVec 48) : State :=
  let sa := sBASE src.bits + so + x.done
  let da := sBASE dst.bits + d + x.done
  let n := wordLen da (len - x.done)
  match s.engLoad (s.xCtx b (xferOp ch x.id) x.asid src) sa n with
  | .error (a, f) => ((s.xCtx b (xferOp ch x.id) x.asid src).noteFault s a f).failTransfer b ch x.id a f
  | .ok (bs, s) =>
    let s := (List.range 48).foldl (fun s c =>
      if mask.getLsbD c then s.performWrite none (spadPlace (clusterOf b.core * 64 + c) da) bs false else s) s
    s.modBank b (fun k => k.modXfer ch x.id (fun y => { y with done := y.done + n }))

/-- Coordinates number `i` under the given extents. -/
def coordsAt : List Nat → Nat → List Nat
  | [], _ => []
  | e :: es, i => i % max e 1 :: coordsAt es (i / max e 1)

/-- Extents of the units of a TCOPY: elements, or blocks of 32 along BDIM. -/
def unitExts (c : Desc) : List Nat :=
  (List.range c.rank).map (fun k => if c.mx ∧ k = c.bdim then (c.extAt k + 31) / 32 else c.extAt k)
def unitCount (c : Desc) : Nat := (unitExts c).foldl (· * ·) 1

/-- The source element of a destination element: letters name the dimensions (R242). -/
def sourceOf (la lc : List Nat) (x : List Nat) : List Nat := la.map (fun l => x.getD (lc.idxOf l) 0)

/-- Converts unit `x.done` of a TCOPY: an element, or a block with its scale (R100, R108). Its writes follow. A block that goes whole into its
own form and alternate code is not scaled anew: R109 makes it the identity. DEDUCED, log entry 81. -/
def tcopyUnit (s : State) (b : BankId) (ch : BitVec 3) (x : Xfer) (a c : Tensor) (lsa lsc : Letters) (fmts : List Word) (seed : Word) : State :=
  let ad := Desc.of a.desc
  let cd := Desc.of c.desc
  let cf := fmts.getD 1 0
  let (rc, sat) := if cd.space = 0 then (cd.rnd, cd.sat) else (fieldAt cf.toNat 40 3, fieldAt cf.toNat 43 1 = 1)
  let mode := Sys2Proof.rndOf rc
  let alt := cd.altOf cf
  let u := coordsAt (unitExts cd) x.done
  let all := if cd.mx then (List.range 32).map (fun i => u.set cd.bdim (32 * u.getD cd.bdim 0 + i)) else [u]
  let here := fun (y : List Nat) => !cd.mx || y.getD cd.bdim 0 < cd.extAt cd.bdim
  let srcs := (all.filter here).map (sourceOf (letterNums lsa) (letterNums lsc))
  match readElems (s.xCtx b (xferOp ch x.id) x.asid a.span) ad (fmts.getD 0 0) s srcs with
  | .error (p, f) => ((s.xCtx b (xferOp ch x.id) x.asid a.span).noteFault s p f).failTransfer b ch x.id p f
  | .ok (es, s) =>
    let vs := es.map (elemVal ad (ad.altOf (fmts.getD 0 0)))
    let (bits, fl) :=
      if cd.mx then
        let vs := all.map (fun y => if here y then (assocGet ((all.filter here).zip vs) y).getD (.num false 0 0) else .num false 0 0)
        let raw := all.map (fun y => ((assocGet ((all.filter here).zip es) y).getD (0, 0)).1)
        let (scale, codes, fl) :=
          if ad.fmt = cd.fmt && ad.altOf (fmts.getD 0 0) = alt && (letterNums lsa)[ad.bdim]? = (letterNums lsc)[cd.bdim]?
          then sameMx cd.fmt alt ((es.headD (0, 255)).2) raw
          else toMx cd.fmt alt mode (all.map (rndOf seed)) vs
        ((all.zip codes).map (fun (y, v) => ((cd.bitAt y).toNat, cd.w, v))
          ++ [(((cd.scaleAt cf ((cd.bitAt (all.headD [])).fdiv 8)) * 8).toNat, 8, scale)], fl)
      else
        let r := toFmt cd.fmt alt mode sat (rndOf seed u) (isIntFmt ad.fmt) (vs.headD (.num false 0 0))
        ([((cd.bitAt u).toNat, cd.w, r.1)], r.2)
    let todo := s.anyOrder (unitsOf (s.xCtx b (xferOp ch x.id) x.asid c.span) s bits)
    s.modBank b (fun k => k.modXfer ch x.id (fun y => { y with todo := todo, flags := y.flags ||| fl }))

/-- Makes the next write of a TCOPY's unit; the unit is done with the last one. -/
def tcopyWrite (s : State) (b : BankId) (ch : BitVec 3) (x : Xfer) (c : Tensor) (u : Nat × List Nat) (left : List (Nat × List Nat)) : State :=
  match s.engStoreUnit (s.xCtx b (xferOp ch x.id) x.asid c.span) u.1 (u.2.map (BitVec.ofNat 8)) with
  | (s, some (a, f)) => s.failTransfer b ch x.id a f
  | (s, none) => s.modBank b (fun k => k.modXfer ch x.id (fun y => { y with todo := left, done := if left = [] then y.done + 1 else y.done }))

/-- What a transfer has to move in all: bytes, or units. -/
def XferCmd.total : XferCmd → Nat
  | .copy _ _ _ _ n => n
  | .mcast _ _ _ _ n mask => if mask = 0 then 0 else n
  | .tcopy _ c _ _ _ _ => unitCount (Desc.of c.desc)
  | .ply _ => 0

/-- Steps that a transfer still needs at most: a unit of a TCOPY is converted, then written in up to 33 writes. -/
def Xfer.steps (x : Xfer) : Nat :=
  match x.cmd with
  | .tcopy .. => 34 * (x.cmd.total - x.done)
  | _ => x.cmd.total - x.done

/-- One word of a transfer, one unit of a TCOPY converted, or one of its writes. -/
def State.xferStep (s : State) (b : BankId) (ch : BitVec 3) (id : Nat) : State :=
  match (s.bank b).findXfer ch id with
  | none => s
  | some x =>
    if x.cmd.total ≤ x.done then s
    else
      match x.cmd with
      | .copy src dst so d len => copyWord s b ch x src dst so d len
      | .mcast src dst so d len mask => mcastWord s b ch x src dst so d len mask
      | .tcopy a c la lc fmts seed =>
        match x.todo with
        | u :: left => tcopyWrite s b ch x c u left
        | [] => tcopyUnit s b ch x a c la lc fmts seed
      | .ply _ => s

def State.xferSteps : Nat → State → BankId → BitVec 3 → Nat → State
  | 0, s, _, _, _ => s
  | n + 1, s, b, ch, id => State.xferSteps n (s.xferStep b ch id) b ch id

/-- The completion word: a release on path X at its scope that covers the transfer's payload, which is visible within the scope
first (R203, R241). -/
def State.complete (s : State) (b : BankId) (ch : BitVec 3) (x : Xfer) : State :=
  let s := s.modBank b (fun k => k.orFlags x.flags)
  match x.cword with
  | none => s.endTransfer b ch x.id
  | some (r, sc, v) =>
    let op := xferOp ch x.id
    let c := s.xCtx b op x.asid r
    let addr := sBASE r.bits
    match engPlace s c addr true with
    | .error f => (c.noteFault s addr f).failTransfer b ch x.id addr f
    | .ok (w, s) =>
      let ids := s.payload b op
      let s := s.showWrites b.core sc ids
      let s : State := match w with
        | .place p x => c.write s addr p x (bytesOf 8 v.toNat) [(sc, ids)]
        | .remote d o => { s with outbox := s.outbox ++ [.plain d o (some (bytesOf 8 v.toNat)) 8] }
        | .reg _ => s
      s.endTransfer b ch x.id

/-- TRANSFER_COMPLETE (R235): what is left of the transfer is done, then its completion word is written, and CPDONE follows. -/
def execTransferComplete (b : BankId) (ch : BitVec 3) (id : Nat) (s : State) : Out :=
  match (s.bank b).findXfer ch id with
  | none => .next s
  | some x =>
    match x.cmd with
    | .ply _ => .next s
    | _ =>
      let s := s.xferSteps x.steps b ch id
      match (s.bank b).findXfer ch id with
      | none => .next s
      | some x => .next (s.complete b ch x)

/-! ### CPWAIT, CPSTAT (R244) -/

def execCpwait (g : Guard) (ch : BitVec 3) (rd : Dst) (ra : Src) : State → Out :=
  runC g 1 (fun s b =>
    let k := s.bank b
    let e : Ev (Word × Bank) := do
      dirs [ra] [rd]
      k.roomFor rd
      match k.c.wait with
      | some ⟨.cpwait, _, _, [v], _⟩ => .ok (v, k)
      | _ => k.readSrc ra
    e.andThen s (fun (v, q) =>
      let c := k.getChan ch
      if c.next ≤ v.toNat then .trap s ⟨cILLEGAL_FIELD, v, 256⟩
      else if v.toNat ≤ c.cpdone then
        (q.writeDst rd (BitVec.ofNat 64 c.cpdone)).andThen s (fun k => .done (s.setBank b k))
      else .wait (s.setBank b q) .cpwait ch.toNat v.toNat [v]))

def execCpstatNext (g : Guard) (ch : BitVec 3) (rd : Dst) : State → Out :=
  pureC g 1 (fun k => do
    dirs [] [rd]
    k.writeDst rd (BitVec.ofNat 64 (k.getChan ch).next))

def execCpstatBusy (g : Guard) (ch : BitVec 3) (rd : Dst) : State → Out :=
  pureC g 1 (fun k => do
    dirs [] [rd]
    k.writeDst rd (BitVec.ofNat 64 (k.getChan ch).busy))

/-- CPWAIT_WAKE (R244, R296). -/
def execCpwaitWake (b : BankId) (s : State) : Out := .next (s.wake ⟨b, .c⟩ [.cpwait, .channel])

end Sys2Proof.Machine
end

