-- ==== Sys2Proof/Machine/Ply.lean ====
section
/-! DEFINITION. Ply: records and their arithmetic, PLYSORT, PLYSEND, PLYRED with its hash exchange, delivery of slots into hanks, PLYSTAT (R246 to R256). -/
namespace Sys2Proof

/-! ### Records (R246) -/

def PlyForm.d (f : PlyForm) : Nat := f.dm1.toNat + 1
/-- Bytes of one value. -/
def PlyForm.vw (f : PlyForm) : Nat := if f.bf then 2 else 4
/-- Bytes of a record. -/
def PlyForm.rs (f : PlyForm) : Nat := (4 + f.d * f.vw + 7) / 8 * 8
def PlyForm.bits (f : PlyForm) : Nat := f.dm1.toNat + (if f.bf then 256 else 0)

/-- A value code of the form as FP32, and back. A NaN is canonical on both sides (R84). -/
def PlyForm.enter (f : PlyForm) (c : Nat) : Nat :=
  if f.bf then Machine.bf16ToF32 c else if (Machine.fromF32 c).isNan then Machine.cNaN else c
def PlyForm.leave (f : PlyForm) (c : Nat) : Nat :=
  if f.bf then (Machine.encodeFp Machine.fpBf16 .rne false 0 (Machine.fromF32 c)).1
  else if (Machine.fromF32 c).isNan then Machine.cNaN else c

/-- A record's bytes as its index and its FP32 values. -/
def PlyForm.parse (f : PlyForm) (bs : List Byte) : Nat × List Nat :=
  (Machine.leField bs 0 4, (List.range f.d).map (fun j => f.enter (Machine.leField bs (4 + f.vw * j) f.vw)))

/-- The values of a record or of a dense entry, packed. -/
def PlyForm.pack (f : PlyForm) (vs : List Nat) : List Byte := vs.flatMap (fun v => bytesOf f.vw (f.leave v))

def PlyForm.record (f : PlyForm) (r : Nat × List Nat) : List Byte :=
  let bs := bytesOf 4 r.1 ++ f.pack r.2
  bs ++ List.replicate (f.rs - bs.length) 0

/-- The smallest slot that an operation's deliveries fit in (R247). -/
def PlyForm.slotMin (f : PlyForm) : Nat := max (8 + f.rs) (12 + f.d * f.vw)

end Sys2Proof

namespace Sys2Proof.Machine

/-- Sums of an operation: values, finite sums that became infinite, additions. -/
structure PlySum where
  vals : List Nat
  ovf : Nat
  adds : Nat
  deriving DecidableEq, Repr

def isFiniteF32 (c : Nat) : Bool := fieldAt c 23 8 ≠ 255
def isInfF32 (c : Nat) : Bool := fieldAt c 0 31 = 0x7F800000

/-- Element by element addition in FP32 RNE. -/
def plyAdd (a b : PlySum) : PlySum :=
  let l := (a.vals.zip b.vals).map (fun (x, y) =>
    let r := f32AddRne x y
    (r, isFiniteF32 x && isFiniteF32 y && isInfF32 r))
  ⟨l.map Prod.fst, a.ovf + b.ovf + (l.filter (fun p => p.2)).length, a.adds + b.adds + l.length⟩

/-! ### PLYSORT (R248) -/

/-- Adds a record to a list kept in ascending index order; equal indices add in the order of arrival. -/
def plyInsert (i : Nat) (v : PlySum) : List (Nat × PlySum) → List (Nat × PlySum)
  | [] => [(i, v)]
  | (j, w) :: l => if i < j then (i, v) :: (j, w) :: l else if i = j then (j, plyAdd w v) :: l else (j, w) :: plyInsert i v l

def plySorted (rs : List (Nat × List Nat)) : List (Nat × PlySum) :=
  rs.foldl (fun l r => plyInsert r.1 ⟨r.2, 0, 0⟩ l) []

/-- Counts for PLYSTAT: wraps modulo 2^64 (R254). -/
def Bank.countPly (k : Bank) (n : Fin 4) (by' : Nat) : Bank :=
  { k with plystat := k.plystat.set n (k.plystat[n] + BitVec.ofNat 64 by') }

/-- The operands of a Ply list: its offset, its count below 2^16 (R248) and its span. -/
def Bank.plyList (k : Bank) (fa : BitVec 4) (ry rz : Src) (form : PlyForm) (perm : Nat) (spaces : List Nat) : Ev (Nat × Nat × SpanReg × Bank) := do
  let (o, q) ← k.readSrc ry
  let (n, q) ← q.readSrc rz
  r143 n [forbid n.toNat 16 48]
  let (addr, r) ← k.engSpan fa o (n.toNat * form.rs) perm spaces
  .ok (addr, n.toNat, r, q)

/-- PLYSORT: on path B; path C sees its write once it is performed, at the latest with a FENCE.P of both (R248). The bytes
behind the merged records are bytes of the input in no defined order. -/
def execPlysort (g : Guard) (fa : BitVec 4) (rx : Dst) (ry rz : Src) (form : PlyForm) : State → Out :=
  runC g 2 (fun s b =>
    let k := s.bank b
    let e : Ev (Nat × Nat × SpanReg × Bank) := do
      dirs [ry, rz] [rx]
      k.roomFor rx
      k.plyList fa ry rz form (pR + pW) [1]
    e.andThen s (fun (addr, n, _, q) =>
      let place := spadPlace b.core addr
      let len := n * form.rs
      if s.eccAt place len then .trap s ⟨cECC_UNCORRECTED, BitVec.ofNat 64 addr, 1⟩
      else if k.behind 3 place len then .wait s .access 8 0 []
      else
        let s := s.settleB b place len
        let inp := s.readMem place len
        let out := plySorted ((recordsOf form.rs n inp).map form.parse)
        let bs := out.flatMap (fun (i, v) => form.record (i, v.vals))
        let tail := (List.range (len - bs.length)).map (fun i => inp.getD (s.pick 7 i 0 0 % max len 1) 0)
        let s := if len = 0 then s else s.queueWrite ⟨0, b, k.part, 3, 0, addr, place, bs ++ tail, true, false, false, [], none⟩
        let q := q.countPly 0 ((out.map (fun p => p.2.ovf)).foldl (· + ·) 0)
        (q.writeDst rx (BitVec.ofNat 64 out.length)).andThen s (fun k => .done (s.setBank b k))))

/-! ### Checks before acceptance (R247, R250) -/

/-- Whether an engine may deliver slots of `n` bytes into a hank (R293, reason 0). -/
def Hank.takes (h : Hank) (n : Nat) : Bool :=
  match h.geo with
  | none => false
  | some g => !hREMOTE g && n ≤ hSSIZE g

/-- A failed access before acceptance, precisely at the instruction. -/
def EFault.precise (f : EFault) (addr : Nat) (r : SpanReg) : TrapInfo :=
  match f with
  | .xlat x => ⟨cFAULT_READ, BitVec.ofNat 64 addr, x.aux⟩
  | .cause c => ⟨c, BitVec.ofNat 64 addr, 0⟩
  | .ecc => ⟨cECC_UNCORRECTED, BitVec.ofNat 64 addr, if sSPACE r.bits = 0 then 2 else 1⟩

/-- Reads the index of every record in turn: ascending, and inside a range when one is given (R250). A page with SPANSTORE ends the
reading: its fault is one of the path, held when the list is sent (R331). -/
def plyIndices (c : EngCtx) (rs : Nat) (range : Option (Nat × Nat)) : Nat → State → Nat → Nat → Option Nat → Except TrapInfo State
  | 0, s, _, _, _ => .ok s
  | n + 1, s, addr, pos, last =>
    match s.engLoad c addr 4 with
    | .error (a, f) => if f = .cause cSPAN_STORE then .ok s else .error (f.precise a c.span)
    | .ok (bs, s) =>
      let i := natOfBytes bs
      let bad := fun (r : Nat) => Except.error (⟨cPLY_ORDER, BitVec.ofNat 64 addr, BitVec.ofNat 64 (r + pos * 256)⟩ : TrapInfo)
      if (last.map (fun l => decide (i ≤ l))).getD false then bad 1
      else if (range.map (fun (lo, hi) => decide (i < lo) || decide (hi ≤ i))).getD false then bad 2
      else plyIndices c rs range n s (addr + rs) (pos + 1) (some i)

/-- Adds an accepted member's transfer to its channel. -/
def Bank.acceptPly (k : Bank) (ch : BitVec 3) (rx : Dst) (op : Nat) : Ev Bank := k.take1 ch rx (.ply op) none

/-! ### PLYSEND (R249) -/

/-- The core of the job that runs its stream under a virtual core id, by job coordinates, with its bank; a team that stands saved runs
on later (R299, log entry 87). -/
def State.plyTarget (s : State) (b : BankId) (core : Nat) : Option (Coord × Bank) :=
  (s.jobOf b).bind (fun j => j.coords.findSome? (fun c => if s.coreAt j c = some core then (s.bankAt j c).map (fun k => (c, k)) else none))

/-- PLYSEND. TRAPAUX of a target outside the job: DESIGN CHOICE, log entry 41. -/
def execPlysend (g : Guard) (ch : BitVec 3) (fa : BitVec 4) (rx : Dst) (ry rz : Src) (form : PlyForm) (core : BitVec 11)
    (hank : BitVec 4) : State → Out :=
  runC g 2 (fun s b =>
    let k := s.bank b
    let e : Ev (Nat × Nat × SpanReg × Bank) := do
      dirs [ry, rz] [rx]
      k.roomFor rx
      k.plyList fa ry rz form pR [0, 1, 2]
    e.andThen s (fun (addr, n, r, q) =>
      match k.binding, s.plyTarget b core.toNat with
      | some me, some (c, home) =>
        if !(home.getH hank).takes form.slotMin then .trap s (misuse hank 0)
        else
          match plyIndices (s.xCtx b 0 k.asid r) form.rs none n s addr 0 none with
          | .error t => .trap s t
          | .ok s =>
            (q.acceptPly ch rx s.nextPly).andThen s (fun q =>
              let m : PlyMember := ⟨(me.jd, me.jc, me.jk), .running, none, ch.toNat, (k.getChan ch).next, r, addr, n, k.asid, []⟩
              .done { (s.setBank b q) with
                ply := s.ply ++ [⟨s.nextPly, me.job, 0, false, form, false, 0, 2 ^ 32, 0, c, hank.toNat, [m.c], [m], none, 0⟩],
                nextPly := s.nextPly + 1 })
      | _, _ => .trap s ⟨cSPAN_PERM, BitVec.ofNat 64 core.toNat, BitVec.ofNat 64 fa.toNat⟩))

/-! ### PLYRED (R251) -/

def gMASK (v : Nat) : Nat := fieldAt v 0 48
def gKIND (v : Nat) : Nat := fieldAt v 48 1
def gOWNER (v : Nat) : Nat := fieldAt v 64 11
def gOHANK (v : Nat) : Nat := fieldAt v 75 4
def gFREE (v : Nat) : Bool := fieldAt v 79 1 = 1
def gLO (v : Nat) : Nat := fieldAt v 128 33
def gHI (v : Nat) : Nat := fieldAt v 192 33

/-- The members that a group record names, in rank order, with their virtual core ids: job coordinates ascend (R130). A core
whose team stands saved counts by the id it was saved from (log entry 87). -/
def plyMembers (s : State) (j : Job) (b : BankId) (v : Nat) : List (Coord × Nat) :=
  (j.coords.filterMap (fun c => (s.coreAt j c).map (fun p => (c, p)))).filter (fun (_, p) =>
    if gKIND v = 1 then (gMASK v).testBit (dieOf p)
    else clusterOf p = clusterOf b.core && (gMASK v).testBit (coreNum p))

/-- The offending bits of a group record (R143, R251). -/
def groupOffences (v : Nat) (ms : List (Coord × Nat)) : List (Option Nat) :=
  [forbid v 225 31, forbid v 161 31, forbid v 80 48, forbid v 49 15, if gKIND v = 1 then forbid v 4 44 else none,
    outside (2 ^ 32 < gHI v || gHI v < gLO v) 192, outside (!ms.any (fun (_, p) => p = gOWNER v)) 64]

/-- Reads bytes on path C, 8 at a time at most, as a weak load does, past the L1. -/
def pathRead (b : BankId) (r : SpanReg) (n : Nat) : Nat → State → Nat → Nat → Except TrapInfo (List Byte × State)
  | 0, s, _, _ => .ok ([], s)
  | fuel + 1, s, addr, len =>
    if len = 0 then .ok ([], s)
    else
      let w := min len (8 - addr % 8)
      match locate s b (s.bank b).asid.toNat r n addr false cFAULT_READ with
      | .error t => .error t
      | .ok (at', s) =>
        let got : Except TrapInfo (List Byte × State) := match at' with
          | .place p _ => if s.eccAt p w then .error (eccTrap p addr) else .ok (s.viewC b p w, s.readPast b p w)
          | .remote d o => .ok (s.remoteRead d o w)
          | .reg _ => .ok (List.replicate w 0, s)
        match got with
        | .error t => .error t
        | .ok (bs, s) =>
          match pathRead b r n fuel s (addr + w) (len - w) with
          | .error t => .error t
          | .ok (l, s) => .ok (bs ++ l, s)

/-- The digest of R251. -/
def plyDigest (v : Nat) (form : PlyForm) : List Byte := shake256 (bytesOf 32 v ++ bytesOf 2 form.bits) 8

/-- Enters a member into its operation, which its first member makes. -/
def State.joinPly (s : State) (job number : Nat) (form : PlyForm) (v : Nat) (owner : Coord) (parts : List Coord) (frac : Nat) (m : PlyMember) : State :=
  match s.ply.find? (fun o => o.red && o.job = job && o.number = number) with
  | none => { s with
      ply := s.ply ++ [⟨s.nextPly, job, number, true, form, gFREE v, gLO v, gHI v, frac, owner, gOHANK v, parts, [m], none, 0⟩],
      nextPly := s.nextPly + 1 }
  | some _ => { s with ply := s.ply.map (fun (o : PlyOp) =>
      if o.red && o.job = job && o.number = number then
        { o with form := form, free := gFREE v, lo := gLO v, hi := gHI v, owner := owner, hank := gOHANK v, parts := parts,
                 frac := if m.c = owner then frac else o.frac, members := o.members ++ [m] }
      else o) }

/-- A member leaves an operation that has stopped. -/
def State.leavePly (s : State) (job number : Nat) (c : Coord) : State :=
  let out := fun (o : PlyOp) =>
    if o.red && o.job = job && o.number = number then { o with members := o.members.filter (fun m => m.c ≠ c) } else o
  { s with ply := (s.ply.map out).filter (fun o => o.members ≠ []) }

/-- The member's own checks: its group record, its list, the owner's hank. The first answer is a trap on its list, which
starts nothing (R250), the second the trap of a failed check. -/
def plyChecks (s : State) (b : BankId) (v : Nat) (ms : List (Coord × Nat)) (form : PlyForm) (addr n : Nat) (r : SpanReg) :
    Except TrapInfo (Option TrapInfo × State) :=
  match lowestOf (groupOffences v ms) with
  | some bit => .ok (some ⟨cSHAPE_MISMATCH, 0, shapeAux 1 255 bit⟩, s)
  | none =>
    match plyIndices (s.xCtx b 0 (s.bank b).asid r) form.rs (some (gLO v, gHI v)) n s addr 0 none with
    | .error t => .error t
    | .ok s =>
      let h := BitVec.ofNat 4 (gOHANK v)
      if gOWNER v = b.core && !((s.bank b).getH h).takes form.slotMin then .ok (some (misuse h 0), s) else .ok (none, s)

/-- The exchange of R251: a member sends its HASH, the root notes its own result; both wait at issue. `q` is the bank
once its sources are read; the pops come with acceptance (R28). -/
def plyStart (ch : BitVec 3) (form : PlyForm) (s : State) (b : BankId) (j : Job) (me : Coord) (v : Nat) (addr n : Nat) (r : SpanReg)
    (q : Bank) : Res :=
  let ms := plyMembers s j b v
  match plyChecks s b v ms form addr n r with
  | .error t => .trap s t
  | .ok (fail, s) =>
    let number := 2 ^ 32 + q.plyNum
    let owner := (ms.find? (fun (_, p) => p = gOWNER v)).map Prod.fst
    let m : PlyMember := ⟨me, .hashed, fail.map TrapInfo.held, ch.toNat, 0, r, addr, n, q.asid, []⟩
    let status := (fail.map (·.cause)).getD 0
    let dies := (ms.map (fun (_, p) => dieOf p)).foldl (fun l d => if l.contains d then l else l ++ [d]) []
    let count := fun (k : Bank) => { k with plyNum := k.plyNum + 1 }
    match owner.or (ms.head?.map Prod.fst) with
    | none =>
      match fail with
      | some t => .trap (s.modBank b count) t
      | none => .done (s.modBank b count)
    | some root =>
      let enter := fun (s : State) => s.joinPly j.id number form v (owner.getD root) (ms.map Prod.fst)
        (fieldAt q.plyDense.toNat 0 17) m
      let core := (s.coreAt j root).getD 0
      if root = me then
        let s := (enter (s.modBank b count)).rootReady j.id number root b.core status ms.length dies
          (1 < dies.length) (plyDigest v form)
        .wait (s.rootDecide j.id number root) .gridGo 0 core [BitVec.ofNat 64 number]
      else
        let s := s.sendSpindle j.id number none me b.core root (.hash status (plyDigest v form) ms.length)
        match fail with
        | some t => .trap (s.modBank b count) t
        | none => .wait (enter (s.modBank b count)) .gridGo 0 core [BitVec.ofNat 64 number]

/-- A waiting member: GO accepts its command, whose operands it pops; STOP is its trap. -/
def plyGo (ch : BitVec 3) (rx : Dst) (ry rz : Src) (s : State) (b : BankId) (j : Job) (me : Coord) (o d : Nat) (number : Word) : Res :=
  match s.ply.find? (fun q => q.red && q.job = j.id && q.number = number.toNat) with
  | none => .done s
  | some op =>
    match op.members.find? (fun m => m.c = me) with
    | none => .done s
    | some m =>
      match m.phase, m.stop with
      | .hashed, _ => .wait (s.rootAgain b number.toNat) .gridGo o d [number]
      | .stopped, some t => .trap (s.leavePly j.id number.toNat me) ⟨t.cause, t.val, t.aux⟩
      | _, _ =>
        let k := s.bank b
        (do
          let (_, q) ← k.readSrc ry
          let (_, q) ← q.readSrc rz
          q.acceptPly ch rx op.id : Ev Bank).andThen s (fun k' =>
          .done { (s.setBank b k') with ply := s.ply.map (fun (p : PlyOp) =>
            if p.id = op.id then
              { p with members := p.members.map (fun e => if e.c = me then { e with xfer := (k.getChan ch).next } else e) }
            else p) })

/-- PLYRED. A core that its own record does not name has no rank: its command completes at once with nothing sent, as
a core that is no participant does (R136). -/
def execPlyred (g : Guard) (ch : BitVec 3) (fa fb : BitVec 4) (rx : Dst) (ry rz : Src) (form : PlyForm) : State → Out :=
  runC g 2 (fun s b =>
    let k := s.bank b
    match k.binding, s.jobOf b, k.c.wait with
    | some c, some j, some ⟨.gridGo, o, d, [number], _⟩ => plyGo ch rx ry rz s b j (c.jd, c.jc, c.jk) o d number
    | bind, job, _ =>
      let e : Ev (Nat × Nat × SpanReg × Bank × Nat × SpanReg) := do
        dirs [ry, rz] [rx]
        k.roomFor rx
        let (addr, n, r, q) ← k.plyList fa ry rz form pR [0, 1, 2]
        let (ga, gr) ← k.engSpan fb 0 32 pR [0, 1, 2]
        k.chanRoom ch
        if k.outLoads ≠ [] then .error (.wait .loads 1 0)
        else if k.amons.any (fun a => a.path = 0) then .error (.wait .access 1 0) else .ok (addr, n, r, q, ga, gr)
      e.andThen s (fun (addr, n, r, q, ga, gr) =>
        match pathRead b gr fb.toNat 6 s ga 32 with
        | .error t => .trap s t
        | .ok (bs, s) =>
          let v := natOfBytes bs
          let q := { q with observed := (s.bank b).observed, acqPending := (s.bank b).acqPending }
          match bind, job with
          | some c, some j =>
            let ms := plyMembers s j b v
            if lowestOf (groupOffences v ms) = none ∧ !ms.any (fun (_, p) => p = b.core) then
              match plyIndices (s.xCtx b 0 k.asid r) form.rs (some (gLO v, gHI v)) n s addr 0 none with
              | .error t => .trap s t
              | .ok s =>
                let id := (k.getChan ch).next
                (q.acceptPly ch rx s.nextPly).andThen s (fun q => .done (s.setBank b { q.endXfer ch id with plyNum := q.plyNum + 1 }))
            else plyStart ch form s b j (c.jd, c.jc, c.jk) v addr n r q
          | _, _ => .trap s ⟨cSHAPE_MISMATCH, 0, shapeAux 1 255 ((lowestOf (groupOffences v [])).getD 64)⟩))

/-! ### Merging (R250, R252, R253) -/

/-- Reads a member's list as it is sent: a record out of order, or one that cannot be read, is withdrawn with every
later one. The failure is the second answer. -/
def plyRead (c : EngCtx) (f : PlyForm) (range : Option (Nat × Nat)) : Nat → State → Nat → Option Nat →
    List (Nat × List Nat) × Option (Nat × EFault) × State
  | 0, s, _, _ => ([], none, s)
  | n + 1, s, addr, last =>
    match s.engLoad c addr (4 + f.d * f.vw) with
    | .error e => ([], some e, s)
    | .ok (bs, s) =>
      let r := f.parse bs
      if (last.map (fun l => decide (r.1 ≤ l))).getD false || (range.map (fun (lo, hi) => decide (r.1 < lo) || decide (hi ≤ r.1))).getD false then
        ([], some (addr, .cause cFAULT_ENGINE), s)
      else
        let (l, e, s) := plyRead c f range n s (addr + f.rs) (some r.1)
        (r :: l, e, s)

/-- Applies a change to the bank of a job's core, where it is bound or where it stands saved. -/
def State.modMember (s : State) (job : Nat) (c : Coord) (f : Bank → Bank) : State :=
  let here := fun (k : Bank) => decide (k.binding.map (fun q => (q.job, q.jd, q.jc, q.jk)) = some (job, c.1, c.2.1, c.2.2))
  match (s.job job).bind (fun j => j.bankOf c) with
  | some b => s.modBank b f
  | none => { s with saves := s.saves.map (fun (v : Save) =>
      { v with cores := v.cores.map (fun (a, n, k) => (a, n, if here k then f k else k)) }) }

def PlyMember.chan (m : PlyMember) : BitVec 3 := BitVec.ofNat 3 m.ch

/-- A member's transfer ends. -/
def State.endMember (s : State) (job : Nat) (m : PlyMember) : State :=
  (s.modMember job m.c (fun k => k.endXfer m.chan m.xfer)).finishAbort job

/-- Sends one accepted member's list to its first merge unit. -/
def plySendList (s : State) (o : PlyOp) (m : PlyMember) : State :=
  match (s.job o.job).bind (fun j => j.bankOf m.c) with
  | none => s
  | some b =>
    let (l, e, s) := plyRead (s.xCtx b 0 m.asid m.span) o.form (if o.red then some (o.lo, o.hi) else none) m.count s m.addr none
    let s := match e with
      | some (a, f) => ((s.xCtx b 0 m.asid m.span).noteFault s a f).hold b ⟨f.code cFAULT_ENGINE, BitVec.ofNat 64 a, heldAux 2 m.ch m.xfer, 0⟩
      | none => s
    let s := { s with ply := s.ply.map (fun (p : PlyOp) =>
      if p.id = o.id then { p with members := p.members.map (fun e => if e.c = m.c then { e with phase := .written, recs := l } else e) } else p) }
    if o.red && m.c ≠ o.owner then s.endMember o.job m else s

/-- Every accepted member whose list is still to be sent sends it. -/
def State.plySendAll (s : State) (id : Nat) : State :=
  match s.ply.find? (fun o => o.id = id) with
  | none => s
  | some o => (o.members.filter (fun m => m.phase = .running && m.xfer ≠ 0)).foldl (fun s m => plySendList s o m) s

/-- One level of the pairwise tree (R117, R252); an absent value leaves the other as it is. -/
def plyPairs : List (Option PlySum) → List (Option PlySum)
  | some a :: some c :: l => some (plyAdd a c) :: plyPairs l
  | some a :: none :: l => some a :: plyPairs l
  | none :: c :: l => c :: plyPairs l
  | [a] => [a]
  | [] => []

def plyTree : Nat → List (Option PlySum) → Option PlySum
  | 0, l => l.head?.join
  | n + 1, l => if l.length ≤ 1 then l.head?.join else plyTree n (plyPairs l)

/-- FREE mode: any association and order, chosen by free values. -/
def plyFree (choose : Nat → Nat) : Nat → List PlySum → Option PlySum
  | 0, l => l.head?
  | n + 1, l =>
    if l.length ≤ 1 then l.head?
    else
      let i := choose (2 * n) % l.length
      let a := l.getD i ⟨[], 0, 0⟩
      let r := l.eraseIdx i
      let m := choose (2 * n + 1) % r.length
      plyFree choose n (plyAdd a (r.getD m ⟨[], 0, 0⟩) :: r.eraseIdx m)

/-- The merged value at an index (R252), members in rank order. -/
def plyMerge (s : State) (o : PlyOp) (ranks : List PlyMember) (i : Nat) : Option PlySum :=
  let cs := ranks.map (fun m => (assocGet m.recs i).map (fun v => (⟨v, 0, 0⟩ : PlySum)))
  if o.free then plyFree (fun n => s.pick 8 n i o.id) cs.length (cs.filterMap id) else plyTree cs.length cs

def insertNat (i : Nat) : List Nat → List Nat
  | [] => [i]
  | j :: l => if i < j then i :: j :: l else if i = j then j :: l else j :: insertNat i l

/-- Start and length of the window of an index (R253). -/
def plyWindow (o : PlyOp) (i : Nat) : Nat × Nat :=
  let w := o.lo + (i - o.lo) / 256 * 256
  (w, min 256 (o.hi - w))

/-- The merged stream as it is emitted: windows that are full enough are dense (R253). -/
def plyEmit (o : PlyOp) (rs : List (Nat × List Nat)) : List (Bool × Nat × List Nat) :=
  let ws := (rs.map (fun r => (plyWindow o r.1).1)).foldl (fun l w => if l.contains w then l else l ++ [w]) []
  ws.flatMap (fun w =>
    let len := (plyWindow o w).2
    let mine := rs.filter (fun r => (plyWindow o r.1).1 = w)
    if o.red && o.frac ≠ 0 && o.frac * len ≤ mine.length * 65536 then
      (List.range len).map (fun n => (true, w + n, (assocGet mine (w + n)).getD (List.replicate o.form.d 0)))
    else mine.map (fun r => (false, r.1, r.2)))

/-- Merges once every member's list is here, and counts for the owner (R254). -/
def State.plyMergeAll (s : State) (id : Nat) : State :=
  match s.ply.find? (fun o => o.id = id) with
  | none => s
  | some o =>
    if o.out.isSome || o.members.length < o.parts.length || o.members.any (fun m => m.phase ≠ .written) then s
    else
      let coords := (s.job o.job).elim [] Job.coords
      let ranks := if o.red then coords.filterMap (fun c => o.members.find? (fun m => m.c = c)) else o.members
      let idx := (ranks.flatMap (fun m => m.recs.map Prod.fst)).foldl (fun l i => insertNat i l) []
      let ms := idx.filterMap (fun i => (plyMerge s o ranks i).map (fun v => (i, v)))
      let s := if o.red then s.modMember o.job o.owner (fun k =>
          (k.countPly 0 ((ms.map (fun p => p.2.ovf)).foldl (· + ·) 0)).countPly 3 ((ms.map (fun p => p.2.adds)).foldl (· + ·) 0)) else s
      let out := plyEmit o (ms.map (fun p => (p.1, p.2.vals)))
      { s with ply := s.ply.map (fun (p : PlyOp) => if p.id = id then { p with out := some out } else p) }

/-! ### Delivery (R247, R253) -/

/-- Delivers one slot of an engine into a hank: a free slot is claimed in arrival order, written and committed; while
none is free the delivery waits as a claim. The answer says whether the slot is committed. -/
def State.deliverSlot (s : State) (home : BankId) (hn : BitVec 4) (who : Claimant) (data : List Byte) : State × Bool :=
  let h := (s.bank home).getH hn
  match h.geo with
  | none => (s, false)
  | some g =>
    if (h.claims.head?.map (fun c => decide (c = who))).getD true && 1 ≤ h.free then
      let s := s.performWrite none (spadPlace home.core (slotOffset g h.claimed.toNat)) data false
      let h := { h with claims := h.claims.drop 1, marks := h.marks ++ [h.claimed], claimed := h.claimed + 1 }
      ((s.modBank home (fun k => k.setH hn (h.advance h.marks.length))).grantClaims home hn, true)
    else if h.claims.contains who then (s, false)
    else (s.modBank home (fun k => k.setH hn { h with claims := h.claims ++ [who] }), false)

/-- What the next slot of `size` bytes takes of a stream: entries of one kind, as many as fit. -/
def slotEntries (o : PlyOp) (size : Nat) (out : List (Bool × Nat × List Nat)) : List (Bool × Nat × List Nat) :=
  match out with
  | [] => []
  | (dense, i, _) :: _ =>
    let cap := if dense then (size - 12) / (o.form.d * o.form.vw) else (size - 8) / o.form.rs
    let same := (out.zipIdx.takeWhile (fun (e, n) => e.1 = dense && (!dense || e.2.1 = i + n))).map Prod.fst
    same.take (max cap 1)

/-- The bytes of a slot (R247). -/
def slotBytes (o : PlyOp) (es : List (Bool × Nat × List Nat)) (last : Bool) : List Byte :=
  let dense := (es.head?.map (fun e => e.1)).getD false
  let head := es.length + last.toNat * 2 ^ 32 + dense.toNat * 2 ^ 33
  bytesOf 8 head ++
    (if dense then bytesOf 4 ((es.head?.map (fun e => e.2.1)).getD 0) ++ es.flatMap (fun e => o.form.pack e.2.2)
     else es.flatMap (fun e => o.form.record (e.2.1, e.2.2)))

/-- Dense windows that end within the entries of a slot. -/
def windowsEnded (o : PlyOp) (es : List (Bool × Nat × List Nat)) : Nat :=
  (es.filter (fun e => e.1 && (e.2.1 + 1 = o.hi || (e.2.1 + 1 - o.lo) % 256 = 0))).length

/-- Commits one slot of a merged stream; the last one ends the receiver's transfer and gives back the route tags. -/
def State.plyDeliver (s : State) (id : Nat) : State :=
  match s.ply.find? (fun o => o.id = id) with
  | none => s
  | some o =>
    match o.out, (s.job o.job).bind (fun j => j.bankOf o.owner) with
    | some out, some home =>
      let hn := BitVec.ofNat 4 o.hank
      match ((s.bank home).getH hn).geo with
      | none => s
      | some g =>
        let es := slotEntries o (hSSIZE g) out
        let rest := out.drop es.length
        let last := rest.isEmpty
        match s.deliverSlot home hn (.ply id) (slotBytes o es last) with
        | (s, false) => s
        | (s, true) =>
          let s := s.modBank home (fun k => (k.countPly 1 es.length).countPly 2 (windowsEnded o es))
          if last then
            let s := { s with ply := s.ply.filter (fun p => p.id ≠ id),
                              routeTags := s.routeTags.filter (fun t => !(o.red && t.job = o.job && t.number = o.number)) }
            match o.members.find? (fun m => !o.red || m.c = o.owner) with
            | some m => s.endMember o.job m
            | none => s
          else { s with ply := s.ply.map (fun (p : PlyOp) => if p.id = id then { p with out := some rest, delivered := p.delivered + es.length } else p) }
    | _, _ => s

/-- PLY_SLOT_COMMIT: lists that are still to be sent are sent and merged, and one slot is committed once the owner's
hank has a place. -/
def execPlySlotCommit (op : Nat) (s : State) : Out := .next (((s.plySendAll op).plyMergeAll op).plyDeliver op)

/-! ### PLYSTAT (R254) -/

def plyCounter (n : BitVec 2) : Fin 4 := ⟨n.toNat, n.isLt⟩

def execPlystat (g : Guard) (n : BitVec 2) (rd : Dst) : State → Out :=
  pureC g 1 (fun k => do
    dirs [] [rd]
    k.writeDst rd k.plystat[plyCounter n])

def execPlystatClr (g : Guard) (n : BitVec 2) (rd : Dst) : State → Out :=
  pureC g 1 (fun k => do
    dirs [] [rd]
    let q ← k.writeDst rd k.plystat[plyCounter n]
    .ok { q with plystat := q.plystat.set (plyCounter n) 0 })

end Sys2Proof.Machine
end

