-- ==== Sys2Proof/Machine/Attar.lean ====
section
/-! DEFINITION. Attar: regions, queries, scans and triples, the instructions and the stack's replies (R257 to R276). -/
namespace Sys2Proof.Machine

/-! ### Regions (R258 to R260) -/

/-- Bytes of a row block. -/
def rowBlock (hd : Nat) : Nat := (4 * hd + 63) / 64 * 64

/-- The stack of a physical address: 2 × die + PA[36] (R259). -/
def stackOf (pa : Nat) : Nat := pa / 2 ^ 36 % 8

def AttarRegion.handle (r : AttarRegion) : Nat := r.index + r.stack * 64 + r.gen * 65536

/-- The region of a handle that is valid for a stream of a job (R259). -/
def State.region (s : State) (job : Nat) (h : Nat) : Option AttarRegion :=
  s.regions.find? (fun r => r.live && r.handle = h && r.job = job)

def State.modRegion (s : State) (stack index : Nat) (f : AttarRegion → AttarRegion) : State :=
  { s with regions := s.regions.map (fun r => if r.stack = stack && r.index = index then f r else r) }

/-- A region's context is freed: its generation moves on (R259). -/
def AttarRegion.freed (r : AttarRegion) : AttarRegion := { r with live := false, gen := (r.gen + 1) % 65536 }

/-- Where a byte of a region lies. -/
def AttarRegion.place (r : AttarRegion) (off : Nat) : Nat := r.pages.getD (off / 4096) 0 + off % 4096

def attarTrap (v reason detail : Nat) : TrapInfo := ⟨cATTAR_REGION, BitVec.ofNat 64 v, BitVec.ofNat 64 (reason + detail * 256)⟩

/-! ### Triples (R262, R263) -/

/-- A CANON sum of wide-class terms as an FP32 code (R117). -/
def canonSum (w : Nat) (vs : List Val) : Nat :=
  let nb := (vs.length + 31) / 32
  (treeValue .wide (fun b => blockValue .wide w ((vs.drop (32 * b)).take 32)) (fun _ => none) nb (treeTop nb) 0).1

/-- Value `d` of a list of bf16 codes at a byte offset. -/
def bfAt (bs : List Byte) (off d : Nat) : Val := decodeFp fpBf16 (leField bs (off + 2 * d) 2)

/-- m, s and a of a unit over the row blocks that it includes. -/
def unitTriple (hd : Nat) (q : List Byte) (rows : List (List Byte)) : Nat × Nat × List Nat :=
  let sc := rows.map (fun r => canonSum 48 ((List.range hd).map (fun d => (bfAt q 0 d).mulExact (bfAt r 0 d))))
  match sc with
  | [] => (0xFF800000, 0, List.replicate hd 0)
  | c :: cs =>
    let m := cs.foldl f32Max c
    let p := sc.map (fun x => (fExp2 (fSub .rne x m).1).1)
    (m, canonSum 72 (p.map fromF32),
      (List.range hd).map (fun d => canonSum 72 ((p.zip rows).map (fun (x, r) => (fromF32 x).mulExact (bfAt r (2 * hd) d)))))

/-- Rows that a unit scans (R261, R262). -/
def AttarQuery.unitRows (q : AttarQuery) (nu u : Nat) : List Nat :=
  let top := min q.hi q.snap
  let first := q.lo + (u + nu - q.lo % nu) % nu
  (List.range ((top + nu - 1 - first) / nu)).map (fun n => first + nu * n)

/-- A 64-byte granule of a row as the scan reads it, once (R266). -/
def AttarQuery.granule (q : AttarQuery) (s : State) (r : AttarRegion) (row n : Nat) : Option (List Byte) :=
  match assocGet q.got (row, n) with
  | some g => g
  | none =>
    let p := r.place (rowBlock r.hd * row + 64 * n)
    if s.eccAt p 64 then none else some (s.readMem p 64)

/-- A whole row block, or none when a granule of it is uncorrectable (R268). -/
def AttarQuery.rowBytes (q : AttarQuery) (s : State) (r : AttarRegion) (row : Nat) : Option (List Byte) :=
  ((List.range (rowBlock r.hd / 64)).mapM (q.granule s r row)).map List.flatten

/-- The record of a unit with its status and its count of excluded rows (R262, R263, R268). -/
def unitRecord (s : State) (r : AttarRegion) (q : AttarQuery) (u : Nat) : List Byte × Nat × Nat :=
  let all := (q.unitRows (2 ^ r.lnu) u).map (fun row => (row, q.rowBytes s r row))
  let excl := (all.filter (fun p => p.2.isNone)).map Prod.fst
  let rows := if 4 < excl.length then [] else all.filterMap Prod.snd
  let (m, sm, a) := unitTriple r.hd q.query rows
  let status := if excl = [] then 0 else if excl.length ≤ 4 then 1 else 2
  let ex := (excl.take 4) ++ List.replicate (4 - excl.length) 0xFFFFFFFF
  (bytesOf 4 m ++ bytesOf 4 sm ++ bytesOf 4 rows.length ++ bytesOf 4 q.snap ++ bytesOf 1 status ++ bytesOf 1 u
    ++ bytesOf 2 (min excl.length 0xFFFF) ++ ex.flatMap (bytesOf 4) ++ List.replicate 12 0 ++ a.flatMap (bytesOf 4),
    status, min excl.length 0xFFFF)

/-! ### Queries -/

/-- The lowest query slot that no query holds. -/
def Bank.freeSlot (k : Bank) : Nat := ((List.range 16).find? (fun n => !k.queries.any (fun q => q.slot = n))).getD 0

/-- Whether a query is one of a bank's core. -/
def AttarQuery.ofBank (q : AttarQuery) (k : Bank) (qid : Nat) : Bool :=
  k.binding.map (fun c => (c.job, c.jd, c.jc, c.jk)) = some (q.job, q.c.1, q.c.2.1, q.c.2.2) && q.id = qid

/-- The turn that reads one granule of a scan. -/
def State.attarScan (s : State) (b : BankId) (qid row n : Nat) : State :=
  { s with scans := s.scans.map (fun q =>
      if q.ofBank (s.bank b) qid then
        match s.regions.find? (fun r => r.stack = q.stack && r.index = q.index) with
        | some r => if (assocGet q.got (row, n)).isSome then q else { q with got := q.got ++ [((row, n), q.granule s r row n)] }
        | none => q
      else q) }

/-- ATTAR_SLOT_COMMIT: the next unit's triple goes into the querier's hank once a slot is free there; the query ends
with its last unit (R264). -/
def execAttarSlotCommit (b : BankId) (qid : Nat) (s : State) : Out :=
  match s.scans.find? (fun q => q.ofBank (s.bank b) qid) with
  | none => .next s
  | some q =>
    let hn := BitVec.ofNat 4 q.hank
    match s.regions.find? (fun r => r.stack = q.stack && r.index = q.index), ((s.bank b).getH hn).geo with
    | some r, some g =>
      let (rec', status, nexcl) := unitRecord s r q q.next
      match s.deliverSlot b hn (.attar qid) (rec' ++ List.replicate (hSSIZE g - rec'.length) 0) with
      | (s, false) => .next s
      | (s, true) =>
        let slot := fun (t : QuerySlot) =>
          if t.id = qid then
            { t with committed := t.committed + 1, nexcl := t.nexcl + nexcl, mask := t.mask + (if status = 0 then 0 else 2 ^ q.next) }
          else t
        let s := s.modBank b (fun k => { k with queries := k.queries.map slot })
        let mine := fun (t : AttarQuery) => t.ofBank (s.bank b) qid
        .next { s with scans :=
          if q.next + 1 = 2 ^ r.lnu then s.scans.filter (fun t => !mine t)
          else s.scans.map (fun t => if mine t then { t with next := t.next + 1 } else t) }
    | _, _ => .next s

/-! ### The stack's side (R260, R269 to R274) -/

/-- A reply: a result, or a trap. -/
inductive AttarReply where
  | later
  | done (s : State) (v : Word)
  | hd (n : Nat)
  | trap (t : TrapInfo)

def regionFault (h : Nat) : AttarReply := .trap (attarTrap h 5 0)

/-- The stack registers a region (R271): reasons 0x01, 0x02, 0x04, 0x03 in that order, then one of its free contexts. -/
def stackRegister (s : State) (b : BankId) (job base hd lnu rows valid : Nat) (pages : List (Nat × Bool)) : AttarReply :=
  let stack := stackOf ((pages.map Prod.fst).headD 0)
  match pages.zipIdx.find? (fun (p, _) => !p.2) with
  | some (_, i) => .trap (attarTrap base 1 (4096 * i))
  | none =>
    match pages.zipIdx.find? (fun (p, _) => stackOf p.1 ≠ stack) with
    | some (_, i) => .trap (attarTrap base 2 (4096 * i))
    | none =>
      if rows < valid then .trap (attarTrap base 4 0)
      else
        let free := (List.range 64).filter (fun i => !s.regions.any (fun r => r.live && r.stack = stack && r.index = i))
        if free = [] then .trap (attarTrap base 3 stack)
        else
          let i := free.getD (s.pick 9 stack 0 0 % free.length) 0
          let old := s.regions.find? (fun r => r.stack = stack && r.index = i)
          let r : AttarRegion := ⟨stack, i, (old.map (·.gen)).getD 0, true, (s.bank b).part, (s.bank b).asid.toNat, job, base,
            pages.map Prod.fst, hd, lnu, rows, valid⟩
          .done { s with regions := s.regions.filter (fun q => !(q.stack = stack && q.index = i)) ++ [r] } (BitVec.ofNat 64 r.handle)

/-- A row write at the stack, in 64-byte granules, recorded by dirty tracking (R276, R358). -/
def appendRow (s : State) (r : AttarRegion) (row : List Byte) : State :=
  (List.range (rowBlock r.hd / 64)).foldl (fun s n =>
    let p := r.place (rowBlock r.hd * r.valid + 64 * n)
    let s := match s.part r.part with
      | some q => (trackOf s q.record r.asid).elim s (fun m => s.markGranule r.part m (p / 4096))
      | none => s
    s.performWrite none p ((row.drop (64 * n)).take 64) false) s

/-- What a stack answers to a request of bank `b`. -/
def stackReply (s : State) (b : BankId) (q : AttarReq) : AttarReply :=
  let job := ((s.bank b).binding.map (·.job)).getD 0
  let arg := fun (n : Nat) => q.args.getD n 0
  let h := arg 0
  match q.what with
  | .register => stackRegister s b job (arg 0) (arg 1) (arg 2) (arg 3) (arg 4) q.pages
  | w =>
    match s.region job h with
    | none => regionFault h
    | some r =>
      match w with
      | .free =>
        if s.scans.any (fun t => t.stack = r.stack && t.index = r.index) then .later
        else .done (s.modRegion r.stack r.index AttarRegion.freed) 0
      | .ask => .hd r.hd
      | .query =>
        match (s.bank b).binding with
        | none => regionFault h
        | some c =>
          let id := (s.bank b).nextQuery
          let t : AttarQuery := ⟨job, (c.jd, c.jc, c.jk), id, r.stack, r.index, r.valid, arg 1, arg 2, q.data, arg 3, 0, []⟩
          let s := s.modBank b (fun k => { k with
            nextQuery := id + 1, queries := k.queries ++ [⟨k.freeSlot, id, BitVec.ofNat 64 h, arg 3, 2 ^ r.lnu, 0, 0, 0⟩] })
          .done { s with scans := s.scans ++ [t] } (BitVec.ofNat 64 id)
      | .append =>
        if r.rows ≤ r.valid then .trap (attarTrap h 6 r.rows)
        else
          let row := q.data.take (4 * r.hd) ++ List.replicate (rowBlock r.hd - 4 * r.hd) 0
          .done ((appendRow s r row).modRegion r.stack r.index (fun t => { t with valid := t.valid + 1 })) (BitVec.ofNat 64 r.valid)
      | _ =>
        if r.rows < arg 1 then .trap (attarTrap h 7 r.rows)
        else
          let v := max r.valid (arg 1)
          .done (s.modRegion r.stack r.index (fun t => { t with valid := v })) (BitVec.ofNat 64 v)

/-- ATTAR_STACK_REPLY (R269): the stack performs the request of the bank's stream as one step of its order and answers;
the stream issues next and completes or traps. An append or a commit stands in that order before the stream's next
instruction issues, so the outcome that R275's table allows without a FENCE.P, a completed append that a later query does not
scan, does not come about. DESIGN CHOICE, log entry 93. -/
def execAttarStackReply (b : BankId) (s : State) : Out :=
  match (s.bank b).attarReq, (s.bank b).c.wait with
  | some q, some w =>
    let answer := fun (s : State) (vals : List Word) =>
      (s.modBank b (fun k => { k with attarReq := none, c := { k.c with wait := some { w with vals := vals } } })).wake ⟨b, .c⟩ [.attarReply]
    if w.tag ≠ .attarReply then .next s
    else
      match stackReply s b q with
      | .later => .next s
      | .done s v => .next (answer s [1, v])
      | .hd n => .next (answer s [3, BitVec.ofNat 64 n])
      | .trap t => .next (answer s [2, BitVec.ofNat 64 t.cause, t.val, t.aux])
  | _, _ => .next s

/-! ### The instructions -/

/-- Sends a request and waits for its reply. -/
def askStack (s : State) (b : BankId) (q : AttarReq) : Res :=
  .wait (s.modBank b (fun k => { k with attarReq := some q })) .attarReply 0 0 []

/-- An Attar instruction: `send` when nothing is under way, `more` when the stack has named HD, `fin` with its result. -/
def attarRun (send : State → Res) (more : State → Nat → Res) (fin : State → Word → Res) (s : State) (b : BankId) : Res :=
  match (s.bank b).c.wait with
  | some ⟨.attarReply, _, _, [1, v], _⟩ => fin s v
  | some ⟨.attarReply, _, _, [2, c, v, a], _⟩ => .trap s ⟨c.toNat, v, a⟩
  | some ⟨.attarReply, _, _, [3, n], _⟩ => more s n.toNat
  | some ⟨.attarReply, o, d, vals, _⟩ => .wait s .attarReply o d vals
  | _ => send s

/-- A span of an Attar instruction: scratchpad or device memory, no window (R269). -/
def Bank.attarSpan (k : Bank) (n : BitVec 4) (off : Word) (size perm align : Nat) (spaces : List Nat) : Ev (Nat × SpanReg) := do
  let (addr, r) ← k.engSpan n off size perm spaces
  if sSPACE r.bits = 0 ∧ fieldAt (sBASE r.bits) 55 2 ≠ 0 then raise cSPAN_PERM (BitVec.ofNat 64 addr) (BitVec.ofNat 64 n.toNat)
  else if addr % align ≠ 0 then raise cMISALIGNED (BitVec.ofNat 64 addr) 0
  else .ok (addr, r)

/-- The access context of path A: the core's TLBs. -/
def State.aCtx (s : State) (b : BankId) (r : SpanReg) : EngCtx := ⟨holdersOf b.core, b, 5, 0, (s.bank b).part, (s.bank b).asid.toNat, r⟩

/-- Reads the source of an AQPOST or AAPPEND on path A: its span's checks, then the check `chk`, then the bytes, precisely. A page
with SPANSTORE is the one fault that path A holds (R331, R374): the bytes are free values then, log entry 94. -/
def attarSource (s : State) (b : BankId) (n : BitVec 4) (off : Word) (len align : Nat) (chk : Option TrapInfo)
    (f : State → List Byte → Res) : Res :=
  ((s.bank b).attarSpan n off len pR align [0, 1]).andThen s (fun (addr, r) =>
    match chk, s.engLoad (s.aCtx b r) addr len with
    | some t, _ => .trap s t
    | none, .ok (bs, s) => f s bs
    | none, .error (a, e) =>
      if e = .cause cSPAN_STORE then
        f (s.hold b ⟨cSPAN_STORE, BitVec.ofNat 64 a, heldAux 5 0 0, 0⟩) (fitBytes len (Config.freeBytes s.tick a))
      else .trap s (e.precise a r))

/-- Reads the sources of an instruction in slot order. -/
def Bank.readAll (k : Bank) (l : List Src) : Ev (List Word × Bank) :=
  l.foldlM (fun (acc : List Word × Bank) src => do
    let (v, q) ← acc.2.readSrc src
    .ok (acc.1 ++ [v], q)) ([], k)

/-- Completes: pops the sources and writes the result. -/
def attarDone (rx : Option Dst) (srcs : List Src) (s : State) (b : BankId) (v : Word) : Res :=
  let e : Ev Bank := do
    let (_, q) ← (s.bank b).readAll srcs
    match rx with
    | some d => q.writeDst d v
    | none => .ok q
  e.andThen s (fun k => .done (s.setBank b k))

/-- The pages of a region, each translated as a write: physical address and ATTAR attribute (R271). -/
def attarPages (s : State) (b : BankId) : Nat → Nat → Except TrapInfo (List (Nat × Bool) × State)
  | 0, _ => .ok ([], s)
  | n + 1, va =>
    match s.translate b.core (s.bank b).part (s.bank b).asid.toNat va true with
    | .fault f _ => .error ⟨cFAULT_READ, BitVec.ofNat 64 va, f.aux⟩
    | .window .. => .error ⟨cFAULT_READ, BitVec.ofNat 64 va, (⟨3, 5, false⟩ : XFault).aux⟩
    | .ok x s =>
      match attarPages s b n (va + 4096) with
      | .error t => .error t
      | .ok (l, s) => .ok ((x.pa, x.attar) :: l, s)

/-- AREG (R271). A region span that grants more than ATTAR is accepted: DESIGN CHOICE, log entry 105. -/
def execAreg (g : Guard) (fa : BitVec 4) (rx : Dst) (ry rz : Src) (hd : BitVec 8) (lnu : BitVec 3) (rows : BitVec 20) : State → Out :=
  runC g 2 (fun s b =>
    attarRun (fun s =>
      let k := s.bank b
      let e : Ev (List Word × Nat) := do
        dirs [ry, rz] [rx]
        k.roomFor rx
        let (vs, _) ← k.readAll [ry, rz]
        let (base, _) ← k.attarSpan fa (vs.getD 0 0) (rows.toNat * rowBlock (hd.toNat + 1)) pATTAR 4096 [0]
        .ok (vs, base)
      e.andThen s (fun (vs, base) =>
        match attarPages s b ((rows.toNat * rowBlock (hd.toNat + 1) + 4095) / 4096) base with
        | .error t => .trap s t
        | .ok (ps, s) =>
          askStack s b ⟨.register, [base, hd.toNat + 1, lnu.toNat, rows.toNat, (vs.getD 1 0).toNat], [], ps⟩))
      (fun s _ => .done s) (fun s v => attarDone (some rx) [ry, rz] s b v) s b)

def execAregFree (g : Guard) (ry : Src) : State → Out :=
  runC g 2 (fun s b =>
    attarRun (fun s =>
      let k := s.bank b
      (dirs [ry] [] >>= fun _ => k.readAll [ry]).andThen s (fun (vs, _) => askStack s b ⟨.free, [(vs.getD 0 0).toNat], [], []⟩))
      (fun s _ => .done s) (fun s v => attarDone none [ry] s b v) s b)

/-- AQPOST (R272): local checks, HD from the stack, the span and slot checks, then the query itself. -/
def execAqpost (g : Guard) (fa : BitVec 4) (rx : Dst) (ry rz : Src) (hr : BitVec 6) (hank : BitVec 4) : State → Out :=
  runC g 2 (fun s b =>
    let k := s.bank b
    let e : Ev (List Word) := do
      dirs [ry, rz] [rx]
      k.roomFor rx
      let (vs, _) ← k.readAll [ry, rz]
      let v := (vs.getD 1 0).toNat
      r143 (vs.getD 1 0) [outside (fieldAt v 32 32 < fieldAt v 0 32) 32]
      .ok vs
    e.andThen s (fun vs =>
      let h := (k.getX hr).toNat
      let v := (vs.getD 1 0).toNat
      attarRun (fun s =>
        if !(k.getH hank).takes 0 then .trap s (misuse hank 0)
        else if 16 ≤ k.queries.length then .wait s .querySlot 0 k.nextQuery []
        else askStack s b ⟨.ask, [h], [], []⟩)
        (fun s hd =>
          attarSource s b fa (vs.getD 0 0) (2 * hd) 2 (if (k.getH hank).takes (48 + 4 * hd) then none else some (misuse hank 0))
            (fun s bs => askStack s b ⟨.query, [h, fieldAt v 0 32, fieldAt v 32 32, hank.toNat], bs, []⟩))
        (fun s r => attarDone (some rx) [ry, rz] s b r) s b))

/-- AAPPEND: its advance is a release at `.dv` on path A (R275), so held faults are reported first. -/
def execAappend (g : Guard) (fa : BitVec 4) (rx : Dst) (ry : Src) (hr : BitVec 6) : State → Out :=
  runC g 2 (fun s b =>
    let k := s.bank b
    let e : Ev (List Word) := do
      dirs [ry] [rx]
      k.roomFor rx
      let (vs, _) ← k.readAll [ry]
      .ok vs
    e.andThen s (fun vs =>
      let h := (k.getX hr).toNat
      attarRun (fun s => askStack s b ⟨.ask, [h], [], []⟩)
        (fun s hd =>
          attarSource s b fa (vs.getD 0 0) (rowBlock hd) 64 none (fun s bs =>
            releaseOn s b 5 .dv (fun s _ => askStack s b ⟨.append, [h], bs, []⟩)))
        (fun s r => attarDone (some rx) [ry] s b r) s b))

/-- ACOMMIT: a release as AAPPEND's advance is. -/
def execAcommit (g : Guard) (rx : Dst) (ry : Src) (hr : BitVec 6) : State → Out :=
  runC g 2 (fun s b =>
    let k := s.bank b
    let e : Ev (List Word) := do
      dirs [ry] [rx]
      k.roomFor rx
      let (vs, _) ← k.readAll [ry]
      .ok vs
    e.andThen s (fun vs =>
      attarRun (fun s => releaseOn s b 5 .dv (fun s _ => askStack s b ⟨.commit, [(k.getX hr).toNat, (vs.getD 0 0).toNat], [], []⟩))
        (fun s _ => .done s) (fun s r => attarDone (some rx) [ry] s b r) s b))

/-- AQWAIT (R273): the mask, then the count; the query slot is freed. -/
def execAqwait (g : Guard) (rx : Dst) (cr : BitVec 6) (ry : Src) : State → Out :=
  runC g 2 (fun s b =>
    let k := s.bank b
    let e : Ev (Word × Bank) := do
      dirs [ry] [rx]
      k.roomFor rx
      match k.c.wait with
      | some ⟨.aqwait, _, _, [v], _⟩ => .ok (v, k)
      | _ => k.readSrc ry
    e.andThen s (fun (v, q) =>
      match k.queries.find? (fun t => t.id = v.toNat) with
      | none => .trap s ⟨cILLEGAL_FIELD, v, 256⟩
      | some t =>
        if t.committed < t.nu then .wait (s.setBank b q) .aqwait t.slot v.toNat [v]
        else
          let q := { q with queries := q.queries.filter (fun u => u.id ≠ v.toNat) }
          (q.writeDst rx (BitVec.ofNat 64 t.mask)).andThen s (fun q =>
            .done (s.setBank b (q.setX cr (BitVec.ofNat 64 t.nexcl))))))

/-- AQWAIT_WAKE (R273, R296). -/
def execAqwaitWake (b : BankId) (s : State) : Out := .next (s.wake ⟨b, .c⟩ [.aqwait, .querySlot])

end Sys2Proof.Machine
end

