-- ==== Sys2Proof/Machine/Sched.lean ====
section
/-! DEFINITION. Launch rings and records, event vectors, dispatch, bind records, Distaff, graphs and the completion of a job (R301 to R320). -/
namespace Sys2Proof

/-- The version, reserved-field and OP checks of a bind record (R311). -/
def BindRec.formOk (r : BindRec) (op : Nat) : Bool := r.vmaj = 1 && r.vmin = 0 && r.op = op && !r.rsvd && r.bank < 2

def BindRec.target (r : BindRec) : BankId := ⟨r.vcore, r.bank⟩

end Sys2Proof

namespace Sys2Proof.Machine

/-! ### Event vectors (R306, R307) -/

/-- The event vector of a launch context, as a number. -/
def State.events (s : State) (part ctx : Nat) : Nat :=
  match s.part part with
  | some p => (p.events.toList.getD ctx 0).toNat
  | none => 0

def State.setEvents (s : State) (part ctx v : Nat) : State :=
  s.modPart part (fun p => if h : ctx < 16 then { p with events := p.events.set ctx (BitVec.ofNat 256 v) h } else p)

/-- A job that sets a bit notes it; the bits that are cleared are no job's any more (R325). -/
def State.noteEvents (s : State) (part : Nat) : State :=
  { s with jobs := s.jobs.map (fun j =>
      if j.part = part then { j with evbits := j.evbits.filter (fun (ctx, bit) => fieldAt (s.events part ctx) bit 1 = 1) } else j) }

def andNot (v m : Nat) : Nat := v - (v &&& m)

/-- Queue order: priority, then arrival number, then the index within a graph instance (R307). -/
def QRec.idx (r : QRec) : Nat := (r.inst.map Prod.snd).getD 0
def QRec.before (a b : QRec) : Bool :=
  prioOf b.lrec < prioOf a.lrec
    || (prioOf a.lrec = prioOf b.lrec && (a.arrival < b.arrival || (a.arrival = b.arrival && a.idx < b.idx)))

def QRec.same (a b : QRec) : Bool := a.arrival = b.arrival && a.inst = b.inst

def insertRec (r : QRec) : List QRec → List QRec
  | [] => [r]
  | q :: l => if r.before q then r :: q :: l else q :: insertRec r l
def inOrder (l : List QRec) : List QRec := l.foldr insertRec []

/-- Steps 1 and 2 of R307 for records in order: those that reach their dispatch points, and the vector left. A CLRM only
clears bits, so that no record passed over could pass later. -/
def dispatchPass : List QRec → Nat → List QRec × Nat
  | [], v => ([], v)
  | r :: rs, v =>
    if r.lrec.waitM &&& v = r.lrec.waitM then
      let (l, v) := dispatchPass rs (andNot v r.lrec.clrM)
      (r :: l, v)
    else dispatchPass rs v

/-- Records reach their dispatch points, at place `rot` of the rotation. -/
def Part.makeReady (p : Part) (l : List QRec) (rot : Nat) : Part :=
  { p with queue := p.queue.map (fun r => if l.any (fun q => q.same r) then { r with ready := true, rot := rot } else r) }

/-- Evaluates the waiting records of a context, or those that `which` chooses (R307). -/
def State.evaluate (s : State) (part ctx : Nat) (which : QRec → Bool) : State :=
  match s.part part with
  | none => s
  | some p =>
    let wait := inOrder (p.queue.filter (fun r => !r.ready && r.inst.isNone && r.lrec.ctx = ctx && which r))
    let (l, v) := dispatchPass wait (s.events part ctx)
    { ((s.setEvents part ctx v).noteEvents part).modPart part (fun p => p.makeReady l s.nextSave) with nextSave := s.nextSave + 1 }

/-- One step of the event order: bits set, bits cleared, then the records whose WAIT holds. -/
def State.eventStep (s : State) (part ctx set clr : Nat) : State :=
  (s.setEvents part ctx (andNot (s.events part ctx ||| set) clr)).evaluate part ctx (fun _ => true)

/-- The same within an instance, against its private vector (R316); a failed instance dispatches nothing more (R317). -/
def State.evaluateInst (s : State) (part inst : Nat) : State :=
  match (s.part part).bind (fun p => p.graphs.find? (fun g => g.id = inst)), s.part part with
  | some g, some p =>
    if g.failed.isSome then s
    else
      let wait := inOrder (p.queue.filter (fun r => !r.ready && r.inst.map Prod.fst = some inst))
      let (l, v) := dispatchPass wait g.events
      { s.modPart part (fun p => { (p.makeReady l s.nextSave) with
          graphs := p.graphs.map (fun (q : GInst) => if q.id = inst then { q with events := v } else q) }) with nextSave := s.nextSave + 1 }
  | _, _ => s

/-! ### Event instructions (R320) -/

def execEvset (g : Guard) (ctx : BitVec 4) (bit : BitVec 8) : State → Out :=
  runC g 1 (fun s b => releaseC s b .dv (fun s _ =>
    let k := s.bank b
    let s := match k.binding with
      | some c => s.modJob c.job (fun j => { j with evbits := (j.evbits.filter (fun e => e ≠ (ctx.toNat, bit.toNat))) ++ [(ctx.toNat, bit.toNat)] })
      | none => s
    .done (s.eventStep k.part ctx.toNat (2 ^ bit.toNat) 0)))

def execEvclr (g : Guard) (ctx : BitVec 4) (bit : BitVec 8) : State → Out :=
  runC g 1 (fun s b => .done (s.eventStep (s.bank b).part ctx.toNat 0 (2 ^ bit.toNat)))

/-- EVWAIT; every write that an EVSET covers has been performed, so that its acquire drops the L1 and no more. -/
def execEvwait (g : Guard) (rd rb : BitVec 6) (ctx : BitVec 4) (bit : BitVec 8) : State → Out :=
  runC g 1 (fun s b =>
    let k := s.bank b
    if fieldAt (s.events k.part ctx.toNat) bit.toNat 1 = 1 then .done ((s.modBank b (fun k => k.setX rd 1)).dropL1 b.core .dv)
    else if rb ≠ 0 ∧ (k.getX rb).toNat ≤ s.dtc then .done (s.setBank b (k.setX rd 0))
    else .wait s .evwait ctx.toNat bit.toNat (if rb = 0 then [] else [k.getX rb]))

/-- EVWAIT_WAKE. -/
def execEvwaitWake (b : BankId) (s : State) : Out := .next (s.wake ⟨b, .c⟩ [.evwait])

/-! ### Distaff (R318, R319) -/

/-- TRAPVAL of a field check made at execution is word 0 (R374). -/
def Bank.word0C (k : Bank) : Word := BitVec.ofNat 64 (k.c.code.getD (k.c.pc.toNat / 8) 0)

/-- The context that an instruction names: the die by its physical number, which must be one of the job's. -/
def State.distaffOf (s : State) (b : BankId) (die rc : Nat) : Ev (Job × Distaff) :=
  let w := (s.bank b).word0C
  match s.jobOf b with
  | none => raise cILLEGAL_FIELD w 51
  | some j =>
    if !j.dies.contains die then raise cILLEGAL_FIELD w 51
    else
      match assocGet j.distaff (die, rc) with
      | none => raise cILLEGAL_FIELD w 45
      | some d => .ok (j, d)

def State.setDistaff (s : State) (job die rc : Nat) (d : Distaff) : State :=
  s.modJob job (fun j => { j with distaff := assocSet j.distaff (die, rc) d })

def ceilDiv (a b : Nat) : Nat := (a + b - 1) / b

def execDinit (g : Guard) (die : BitVec 2) (rc : BitVec 6) (ra rb : Src) : State → Out :=
  runC g 1 (fun s b =>
    let e : Ev (Job × Word × Word × Bank) := do
      dirs [ra, rb] []
      let (j, _) ← s.distaffOf b die.toNat rc.toNat
      let (n, q) ← (s.bank b).readSrc ra
      let (p, q) ← q.readSrc rb
      r143 n [outside (2 ^ 32 ≤ n.toNat) 0]
      r143 p [outside (fieldAt p.toNat 0 32 = 0) 0, outside (fieldAt p.toNat 32 16 = 0) 32, outside (fieldAt p.toNat 48 16 = 0) 48]
      .ok (j, n, p, q)
    e.andThen s (fun (j, n, p, q) =>
      .done ((s.setBank b q).setDistaff j.id die.toNat rc.toNat
        ⟨n.toNat, 0, fieldAt p.toNat 0 32, fieldAt p.toNat 32 16, fieldAt p.toNat 48 16⟩)))

/-- What a claim takes: its count. -/
def Distaff.count (c : Distaff) : Nat := Nat.min (c.n - c.next) (Nat.max c.min (ceilDiv (c.n - c.next) (c.d * c.p)))

def execDclaim (g : Guard) (rd : Dst) (die : BitVec 2) (rc : BitVec 6) : State → Out :=
  runC g 1 (fun s b =>
    let e : Ev (Job × Distaff × Bank) := do
      dirs [] [rd]
      let (j, d) ← s.distaffOf b die.toNat rc.toNat
      let q ← (s.bank b).writeDst rd (BitVec.ofNat 64 (d.next + d.count * 2 ^ 32))
      .ok (j, d, q)
    e.andThen s (fun (j, d, q) => .done ((s.setBank b q).setDistaff j.id die.toNat rc.toNat { d with next := d.next + d.count })))

/-! ### Launch records (R303, R305) -/

/-- Little-endian 64-bit fields. -/
def wordsAt (bs : List Byte) (off n : Nat) : List Word := (List.range n).map (fun i => BitVec.ofNat 64 (leField bs (off + 8 * i) 8))

def parseRec (bs : List Byte) : LaunchRec :=
  { vmin := leField bs 0 1, vmaj := leField bs 1 1, kind := leField bs 2 1, ctrl := leField bs 3 1, ctx := leField bs 4 1,
    recid := leField bs 8 8, waitM := leField bs 16 32, setM := leField bs 48 32, clrM := leField bs 80 32,
    image := leField bs 112 8, entry := leField bs 120 8, shape := leField bs 128 4, dcount := leField bs 132 1,
    savearea := leField bs 136 8, args := wordsAt bs 144 8, spwin := BitVec.ofNat 64 (leField bs 208 8),
    seed := BitVec.ofNat 64 (leField bs 216 8), lwait := BitVec.ofNat 64 (leField bs 224 8),
    stall := BitVec.ofNat 64 (leField bs 232 8), quantum := BitVec.ofNat 64 (leField bs 240 8), doneaddr := leField bs 248 8,
    bfmt := wordsAt bs 256 16, doneval := BitVec.ofNat 64 (leField bs 384 8), siladdr := leField bs 392 8, raw := bs }

/-- A reserved field or bit of a record is not 0 (reason 0x02). -/
def LaunchRec.rsvd (r : LaunchRec) : Bool :=
  fieldAt r.ctrl 4 4 ≠ 0 || fieldAt r.ctx 4 4 ≠ 0 || leField r.raw 5 3 ≠ 0 || leField r.raw 133 3 ≠ 0 || leField r.raw 400 112 ≠ 0
    || fieldAt r.shape 3 5 ≠ 0 || fieldAt r.shape 12 4 ≠ 0 || fieldAt r.shape 22 10 ≠ 0
    || (r.kind = 0 && (fieldAt r.entry 6 2 ≠ 0 || fieldAt r.entry 14 50 ≠ 0))

/-- The offending bits of an SPWIN value (R139, R143). -/
def spwinOffences (v : Word) : List (Option Nat) :=
  let n := v.toNat
  [forbid n 51 13, forbid n 32 12, forbid n 19 13, forbid n 0 12, outside (0x80000 < fieldAt n 0 19 + fieldAt n 32 19) 32]

/-- Clusters of a partition on a die. -/
def clustersOn (r : PartRec) (die : Nat) : Nat := ((List.range 8).filter (fun c => r.clumask.getLsbD (8 * die + c))).length

/-- Whether a shape fits a partition (reason 0x05). -/
def shapeFits (r : PartRec) (shape : Nat) : Bool :=
  let (nd, ncl, nco) := shapeOf shape
  nco ≤ Config.coresPerCluster && nd ≤ ((List.range 4).filter (fun d => ncl ≤ clustersOn r d)).length

/-- A graph object (R315). -/
structure Graph where
  reentrant : Bool
  psize : Nat
  recs : List (List Byte)
  patches : List Nat
  deriving DecidableEq, Repr

def pOFF (e : Nat) : Nat := fieldAt e 48 16
def pLEN (e : Nat) : Nat := fieldAt e 40 8
def pROFF (e : Nat) : Nat := fieldAt e 16 16
def pREC (e : Nat) : Nat := fieldAt e 0 16

/-- Reads a graph object; none when it is not mapped or breaks its layout. -/
def readGraph (rd : Nat → Nat → Option (List Byte)) (va : Nat) : Option Graph := do
  let h ← rd va 64
  let nrec := leField h 4 2
  let np := leField h 6 2
  let psize := leField h 8 4
  if leField h 1 1 ≠ 1 ∨ 1 < leField h 2 1 ∨ leField h 3 1 ≠ 0 ∨ nrec < 1 ∨ 256 < nrec ∨ 1024 < np ∨ psize % 8 ≠ 0 ∨ 65536 < psize
      ∨ leField h 12 52 ≠ 0 then none
  else
    let rs ← rd (va + 64) (512 * nrec)
    let ps ← if np = 0 then some [] else rd (va + 64 + 512 * nrec) (8 * np)
    let patches := (recordsOf 8 np ps).map natOfBytes
    if patches.all (fun e => fieldAt e 32 8 = 0 && 1 ≤ pLEN e && pLEN e ≤ 64 && pROFF e % 8 = 0) then
      some ⟨leField h 2 1 = 1, psize, recordsOf 512 nrec rs, patches⟩
    else none

/-- Every patch lies within its record and the parameter block (reason 0x0C). -/
def Graph.patchesOk (g : Graph) : Bool :=
  g.patches.all (fun e => pREC e < g.recs.length && pROFF e + 8 * pLEN e ≤ 512 && 8 * (pOFF e + pLEN e) ≤ g.psize)

/-- The object behind a record: an image, or a graph with its parameter block. -/
inductive Loaded where
  | image (i : Image)
  | graph (g : Graph) (params : List Byte)
  | bad

def State.loaded (s : State) (part asid : Nat) (r : LaunchRec) : Loaded :=
  if r.kind = 0 then
    match s.image part asid r.image with
    | some i => .image i
    | none => .bad
  else
    match readGraph (s.imageReader part asid) r.image with
    | none => .bad
    | some g =>
      match if g.psize = 0 then some [] else s.imageReader part asid r.entry g.psize with
      | some ps => .graph g ps
      | none => .bad

/-- The reason for which a record is rejected (R305): a torn copy, then the table's order. `ring` is the context of the
ring that carried it, none for a record of a graph. `asid` is the address space of its launch context. -/
def recReason (p : PartRec) (ring : Option Nat) (torn : Bool) (r : LaunchRec) (o : Loaded) : Option Nat :=
  let (nd, ncl, nco) := shapeOf r.shape
  let bad : List (Bool × Nat) :=
    [(torn, 0x0D), (r.vmaj ≠ 1, 0x01), (r.rsvd, 0x02), (1 < r.kind || (ring.isNone && r.kind = 1), 0x03),
      (nd < 1 || 4 < nd || ncl < 1 || 8 < ncl || nco < 1 || 48 < nco || 64 < r.dcount, 0x04), (!shapeFits p r.shape, 0x05),
      ((match o with | .bad => true | _ => false), 0x06),
      ((match o with
        | .image i => (i.entry (fieldAt r.entry 0 6) 0).isNone || (i.entry (fieldAt r.entry 8 6) 1).isNone
        | _ => false), 0x07),
      (r.bfmt.any (fun v => (lowestOf (bfmtOffences v)).isSome), 0x08),
      ((lowestOf (spwinOffences r.spwin)).isSome || r.quantum.toNat < 10000, 0x09), (2 ^ 63 ≤ r.doneval.toNat, 0x0A),
      (r.savearea % 4096 ≠ 0 || r.doneaddr % 8 ≠ 0 || r.siladdr % 4096 ≠ 0, 0x0B),
      ((match o with | .graph g _ => !g.patchesOk | _ => false), 0x0C),
      ((match ring with | some c => r.ctx ≠ c | none => false), 0x0E), (ring.isNone && r.ctx ≠ 0, 0x0F)]
  (bad.find? Prod.fst).map Prod.snd

/-! ### Rings (R301, R302, R321) -/

def Part.ring (p : Part) (ctx : Nat) (dev : Bool) : Ring := (if dev then p.devRings else p.hostRings).toList.getD ctx Ring.reset
def Part.setRing (p : Part) (ctx : Nat) (dev : Bool) (r : Ring) : Part :=
  if h : ctx < 16 then
    if dev then { p with devRings := p.devRings.set ctx r h } else { p with hostRings := p.hostRings.set ctx r h }
  else p
/-- Where the record of a sequence number stands. -/
def Ring.slot (r : Ring) (n : Nat) : Nat := r.base + 512 * (n % 2 ^ r.qlog2)

/-- HOST_DOORBELL: a new tail, within the ring's slots. -/
def execHostDoorbell (part ctx tail : Nat) (s : State) : Out :=
  match s.part part with
  | none => .next s
  | some p =>
    let r := p.ring ctx false
    if r.tail ≤ tail ∧ tail ≤ r.head + 2 ^ r.qlog2 then .next (s.modPart part (fun p => p.setRing ctx false { r with tail := tail }))
    else .next s

/-- 8-byte words of a byte string. -/
def wordsOfBytes : Nat → List Byte → List Nat
  | 0, _ => []
  | n + 1, bs => natOfBytes (bs.take 8) :: wordsOfBytes n (bs.drop 8)

/-- Puts a LAUNCH's record into the device ring of its context once a slot is free; until then the stream waits with the record
that it has read. -/
def launchRing (s : State) (b : BankId) (bs : List Byte) : Res :=
  let k := s.bank b
  let ctx := fieldAt (leField bs 4 1) 0 4
  let hold : Res := .wait s .launchSlot ctx 0 ((wordsOfBytes 64 bs).map (BitVec.ofNat 64))
  match s.part k.part with
  | none => hold
  | some p =>
    let q := p.ring ctx true
    if q.tail < q.head + 2 ^ q.qlog2 then
      let s := s.performWrite none (q.slot q.tail) bs false
      .wait (s.modPart k.part (fun p => p.setRing ctx true { q with tail := q.tail + 1 })) .launchSlot ctx 0 [BitVec.ofNat 64 ctx, BitVec.ofNat 64 q.tail]
    else hold

/-- LAUNCH (R321): reads the record once, checks CTX, releases, waits for a slot, writes the record, and waits until the
scheduler's copy has given it its arrival number. The wait holds the 64 words of the record, then its ring place, then the
answer too. -/
def execLaunch (g : Guard) (rd : BitVec 6) (m : MemRef) : State → Out :=
  runC g 1 (fun s b =>
    let k := s.bank b
    match k.c.wait with
    | some ⟨.launchSlot, _, _, [_, _, a], _⟩ => .done (s.setBank b (k.setX rd a))
    | some ⟨.launchSlot, o, d, [c, n], _⟩ => .wait s .launchSlot o d [c, n]
    | some ⟨.launchSlot, _, _, w :: ws, _⟩ => launchRing s b ((w :: ws).flatMap (fun v => bytesOf 8 v.toNat))
    | _ =>
      (k.ea m pR 512 64 true true false).andThen s (fun (addr, r) =>
        if k.outLoads ≠ [] then .wait s .loads 1 0 []
        else
          match pathRead b r m.sb.toNat 66 s addr 512 with
          | .error t => .trap s t
          | .ok (bs, s) =>
            if fieldAt (leField bs 4 1) 0 4 = 15 ∧ !k.priv then .trap s ⟨cPRIVILEGED, 15, 0⟩
            else releaseC s b .dv (fun s _ => launchRing s b bs)))

/-- LAUNCH_SLOT_WAKE. -/
def execLaunchSlotWake (b : BankId) (s : State) : Out := .next (s.wake ⟨b, .c⟩ [.launchSlot])

/-- The LAUNCH whose record is copied learns its arrival number, in its bank or in a save. -/
def State.answerLaunch (s : State) (part ctx n a : Nat) : State :=
  let fix := fun (k : Bank) =>
    match k.c.wait with
    | some w =>
      if k.part = part ∧ w.tag = .launchSlot ∧ w.vals = [BitVec.ofNat 64 ctx, BitVec.ofNat 64 n] then
        { k with c := { k.c with wait := some { w with vals := w.vals ++ [BitVec.ofNat 64 a] } } }
      else k
    | none => k
  { s with banks := s.banks.map (fun (b, k) => (b, fix k)),
           saves := s.saves.map (fun (v : Save) => { v with cores := v.cores.map (fun (a, n, k) => (a, n, fix k)) }) }

/-- What the refusal of a partner with another major version names: this side's version and the partner's (R20). -/
def versions (vmaj vmin : Nat) : List Nat := if vmaj = 1 then [] else [1, 0, vmaj, vmin]

/-- The versions that the refusal of an image, or of a graph object, names when its header has another major version (R20, R372). -/
def State.objectVersions (s : State) (part asid : Nat) (r : LaunchRec) : List Nat :=
  match s.imageReader part asid r.image 64 with
  | some h =>
    if r.kind = 1 then versions (leField h 1 1) (leField h 0 1)
    else if leField h 0 4 = 0x0046494A then versions (leField h 5 1) (leField h 4 1)
    else []
  | none => []

/-- The loader's reads of a record's image or graph object that an error in a page-table entry stops are logged (R373). -/
def State.logObject (s : State) (part asid : Nat) (r : LaunchRec) : State :=
  if r.kind = 0 then s.logImage part asid r.image
  else
    match s.imageReader part asid r.image 64 with
    | none => s.logReads part asid [(r.image, 64)]
    | some h =>
      s.logReads part asid [(r.image + 64, 512 * leField h 4 2), (r.image + 64 + 512 * leField h 4 2, 8 * leField h 6 2), (r.entry, leField h 8 4)]

/-- Logs a refused record, and writes its reason to DONEADDR; a refusal for a version names both (R20, R305). `asid` is the address
space of its image or graph object. -/
def State.rejectRec (s : State) (part ctx asid : Nat) (r : LaunchRec) (arrival reason : Nat) : State :=
  let names := if reason = 1 then versions r.vmaj r.vmin
    else if reason = 6 then s.objectVersions part asid r else []
  (s.logSched .recordReject ([r.recid, arrival, reason] ++ names)).writeDone part ctx r.doneaddr (2 ^ 63 + reason)

/-- RECORD_COPY (R301, R302, R305): the record at the head of a ring is copied, numbered, checked, and evaluated. -/
def execRecordCopy (part ctx : Nat) (dev torn : Bool) (s : State) : Out :=
  match s.part part with
  | none => .next s
  | some p =>
    let q := p.ring ctx dev
    if q.tail ≤ q.head then .next s
    else
      let r := parseRec (s.readMem (q.slot q.head) 512)
      let a := p.arrival + 1
      let s := s.modPart part (fun p => { (p.setRing ctx dev { q with head := q.head + 1 }) with arrival := a })
      let s := if dev then s.answerLaunch part ctx q.head a else s
      let asid := p.record.lcasid.getD (r.ctx % 16) 0
      let o := s.loaded part asid r
      let s := if (torn && !dev) || r.vmaj ≠ 1 then s else s.logObject part asid r
      match recReason p.record (some ctx) (torn && !dev) r o with
      | some reason => .next (s.rejectRec part ctx asid r a reason)
      | none =>
        let params := match o with
          | .graph _ ps => ps
          | _ => []
        let rec' : QRec := ⟨a, r, ctx = 15, params, false, none, 0⟩
        .next ((s.modPart part (fun p => { p with queue := p.queue ++ [rec'] })).evaluate part ctx (fun q => q.same rec'))

/-! ### Graphs (R315 to R317) -/

/-- Applies one patch to the records of an instance. -/
def applyPatch (params : List Byte) (recs : List (List Byte)) (e : Nat) : List (List Byte) :=
  recs.modify (pREC e) (fun bs => patchBytes (pROFF e) ((params.drop (8 * pOFF e)).take (8 * pLEN e)) 0 bs)

/-- An instance whose records are all over, or that has failed and runs nothing, ends: the replay's DONEADDR and SETM
take effect, or the failure's value is written (R316, R317). -/
def State.finishInst (s : State) (part inst : Nat) : State :=
  match (s.part part).bind (fun p => p.graphs.find? (fun g => g.id = inst)) with
  | none => s
  | some g =>
    let r := g.replay.lrec
    let gone := s.modPart part (fun p => { p with
      graphs := p.graphs.filter (fun q => q.id ≠ inst), queue := p.queue.filter (fun q => q.inst.map Prod.fst ≠ some inst) })
    match g.failed with
    | some v =>
      if s.jobs.any (fun j => j.part = part && j.qrec.inst.map Prod.fst = some inst)
          || ((s.part part).elim false (fun p => p.queue.any (fun q => q.ready && q.inst.map Prod.fst = some inst))) then s
      else gone.writeDone part r.ctx r.doneaddr (2 ^ 63 + v)
    | none => if g.left = [] then (gone.writeDone part r.ctx r.doneaddr r.doneval.toNat).eventStep part r.ctx r.setM 0 else s

/-- One record of an instance is rejected (R317). -/
def State.failInst (s : State) (part inst idx reason : Nat) : State :=
  (s.modPart part (fun p => { p with
    graphs := p.graphs.map (fun (g : GInst) => if g.id = inst ∧ g.failed.isNone then { g with failed := some (256 * idx + reason) } else g),
    queue := p.queue.filter (fun q => q.ready || q.inst.map Prod.fst ≠ some inst) })).finishInst part inst

/-- Whether the record stands on its way to another device with the job whose context it is (R325, R402). -/
def Part.recLeaving (p : Part) (r : QRec) : Bool := p.mig.state = migSent && p.mig.sentRecs.any (fun q => q.same r)

/-- GRAPH_INSTANCE_START (R316). -/
def execGraphInstanceStart (part arrival : Nat) (s : State) : Out :=
  match s.part part with
  | none => .next s
  | some p =>
    match p.queue.find? (fun r => r.arrival = arrival && r.ready && r.inst.isNone && r.lrec.kind = 1 && !p.recLeaving r) with
    | none => .next s
    | some r =>
      let asid := p.record.lcasid.getD r.lrec.ctx 0
      let same := fun (q : QRec) => q.lrec.kind = 1 && q.lrec.image = r.lrec.image && p.record.lcasid.getD q.lrec.ctx 0 = asid
      match readGraph (s.imageReader part asid) r.lrec.image with
      | none => .next (((s.logObject part asid r.lrec).modPart part (fun p => { p with queue := p.queue.filter (fun q => !q.same r) })).rejectRec part r.lrec.ctx asid r.lrec arrival 0x06)
      | some g =>
        if p.queue.any (fun q => q.ready && q.inst.isNone && same q && q.arrival < arrival)
            ∨ (if g.reentrant then 4 else 1) ≤ (p.graphs.filter (fun i => same i.replay)).length then .next s
        else if !g.patchesOk then
          .next ((s.modPart part (fun p => { p with queue := p.queue.filter (fun q => !q.same r) })).rejectRec part r.lrec.ctx asid r.lrec arrival 0x0C)
        else
          let id := p.nextInst
          let recs := (g.patches.foldl (applyPatch r.params) g.recs).map parseRec
          let own := recs.zipIdx.map (fun ((q : LaunchRec), i) =>
            (⟨arrival, { q with ctx := r.lrec.ctx, ctrl := q.ctrl / 8 * 8 + prioOf r.lrec }, r.priv, [], false, some (id, i), 0⟩ : QRec))
          let bad := recs.zipIdx.filterMap (fun ((q : LaunchRec), i) =>
            (recReason p.record none false q (s.loaded part asid q)).map (fun reason => (q, i, reason)))
          let s := (recs.foldl (fun s q => s.logObject part asid q) s).modPart part (fun p => { p with
            queue := p.queue.filter (fun q => !q.same r) ++ own, nextInst := id + 1,
            graphs := p.graphs ++ [⟨id, r.lrec.image, r, 0, List.range recs.length, none⟩] })
          match bad with
          | [] => .next (s.evaluateInst part id)
          | (_, i, reason) :: _ =>
            let s := bad.foldl (fun s (q, _, reason) => s.rejectRec part r.lrec.ctx asid q arrival reason) s
            .next (s.failInst part id i reason)

/-! ### Dispatch (R307, R309, R318) -/

/-- Whether a bank is free for a placement of a partition: no team is bound to it and no job has been given it. -/
def State.bankFree (s : State) (p : Part) (b : BankId) : Bool :=
  b.bank < 2 && p.record.owns b.core && (s.bank b).binding.isNone && s.jobs.all (fun j => j.banks.all (fun (q, _) => q ≠ b))

/-- The job coordinates of a placement, by ascending number (R130, R309); none when the banks do not have the shape. -/
def placeCoords (shape : Nat) (bs : List BankId) : Option (List (BankId × Nat × Nat × Nat)) :=
  let (nd, ncl, nco) := shapeOf shape
  let dies := (List.range 4).filter (fun d => bs.any (fun b => dieOf b.core = d))
  let clus := fun d => (List.range 8).filter (fun c => bs.any (fun b => clusterOf b.core = 8 * d + c))
  let cores := fun d c => (List.range 48).filter (fun n => bs.any (fun b => b.core = 512 * d + 64 * c + n))
  if bs.length ≠ nd * ncl * nco ∨ dies.length ≠ nd ∨ !dies.all (fun d => (clus d).length = ncl && (clus d).all (fun c => (cores d c).length = nco))
  then none
  else
    some (dies.zipIdx.flatMap (fun (d, jd) => (clus d).zipIdx.flatMap (fun (c, jc) => (cores d c).zipIdx.filterMap (fun (n, jk) =>
      (bs.find? (fun b => b.core = 512 * d + 64 * c + n)).map (fun b => (b, jd, jc, jk))))))

/-- Distaff contexts of a die that jobs hold. -/
def State.distaffUsed (s : State) (die : Nat) : Nat :=
  (s.jobs.map (fun j => (j.distaff.filter (fun ((d, _), _) => d = die)).length)).foldl (· + ·) 0

/-- Whether enough dies of a partition have the clusters of a record's shape and Distaff contexts free for it (R318). -/
def State.contextsFree (s : State) (p : Part) (r : LaunchRec) : Bool :=
  let (nd, ncl, _) := shapeOf r.shape
  nd ≤ ((List.range 4).filter (fun d => ncl ≤ clustersOn p.record d && s.distaffUsed d + r.dcount ≤ Config.distaffPerDie)).length

/-- Whether a runnable saved team of a partition is bound before a record: one of higher priority, or one of the same priority that
stands before it in the rotation (R313). -/
def State.higherWaits (s : State) (part : Nat) (r : QRec) : Bool :=
  s.jobs.any (fun j => j.part = part && j.saved.any (fun t => t.runnable
    && (prioOf r.lrec < prioOf j.qrec.lrec || (prioOf r.lrec = prioOf j.qrec.lrec && t.rotation < r.rot))))

/-- The next record of a partition to be dispatched. -/
def Part.nextRec (p : Part) : Option QRec := (inOrder (p.queue.filter (fun r => r.ready && r.lrec.kind = 0 && !p.recLeaving r))).head?

/-- DISPATCH: the first record at its dispatch point is placed on the named banks; one whose shape no longer fits is
rejected (R397). The failed cores of the placement are mapped onto spares (R4). -/
def execDispatch (part arrival jobid : Nat) (places : List BankId) (s : State) : Out :=
  match s.part part with
  | none => .next s
  | some p =>
    match p.nextRec with
    | none => .next s
    | some r =>
      if r.arrival ≠ arrival then .next s
      else
        let gone := s.modPart part (fun p => { p with queue := p.queue.filter (fun q => !q.same r) })
        if !shapeFits p.record r.lrec.shape then
          let s := gone.rejectRec part r.lrec.ctx (p.record.lcasid.getD r.lrec.ctx 0) r.lrec arrival 0x05
          match r.inst with
          | some (g, i) => .next (s.failInst part g i 0x05)
          | none => .next s
        else
          match placeCoords r.lrec.shape places with
          | none => .next s
          | some l =>
            let dies := ((List.range 4).filter (fun d => places.any (fun b => dieOf b.core = d)))
            if jobid = 0 ∨ (s.job jobid).isSome ∨ !places.all (s.bankFree p) ∨ s.higherWaits part r
                ∨ dies.any (fun d => Config.distaffPerDie < s.distaffUsed d + r.lrec.dcount) then .next s
            else
              let job : Job :=
                { id := jobid, part := part, qrec := r, dies := dies, evbits := [],
                  banks := l.map (fun (b, jd, jc, jk) => (b, ⟨jobid, part, jd, jc, jk⟩)), started := false, aborted := none,
                  arrivals := [], saved := [], teams := [], stalledAt := none,
                  distaff := dies.flatMap (fun d => (List.range r.lrec.dcount).map (fun c => ((d, c), ⟨0, 0, 1, 1, 1⟩))) }
              .next { gone with jobs := gone.jobs ++ [job],
                                health := { gone.health with failedCores := gone.health.failedCores.filter (fun c => !places.any (fun b => b.core = c)) } }

/-! ### Bind records (R304, R310, R311) -/

/-- Logs a rejected bind record in its die's dispatch log; a refusal for a version names both (R20): the record's, or those `vs` of
what it names. -/
def State.rejectBind (s : State) (r : BindRec) (reason : Nat) (vs : List Nat := []) : State :=
  { s with dispatchLog := s.dispatchLog ++
      [(r.vcore / 512, ⟨.bindReject, [r.op, r.vcore, r.bank, r.jobid, reason] ++ versions r.vmaj r.vmin ++ vs⟩)] }

/-- Whether VCORE names an exposed core of PART. -/
def State.bindCore (s : State) (r : BindRec) : Bool := ((s.part r.part).map (fun p => p.record.owns r.vcore)).getD false

def codeSpan (i : Image) (ty part : Nat) : SpanReg :=
  match i.sec ty with
  | some x => ⟨mkSpan (i.va + x.off) (i.va + x.off + x.memsize) pX 0 0x1F 0 part false 0, true⟩
  | none => SpanReg.reset

/-- The spans that the loader places in b registers (R341). -/
def Bank.loadSpans (k : Bank) (i : Image) (part : Nat) : Bank :=
  i.spans.foldl (fun k e => if e.reg < 16 then k.setB (BitVec.ofNat 4 e.reg) ⟨e.mint i part, true⟩ else k) k

/-- The spans that it places in the span store. -/
def State.loadStore (s : State) (i : Image) (part asid : Nat) : State :=
  i.spans.zipIdx.foldl (fun s (e, n) =>
    if e.reg < 16 then s
    else
      match s.reachVA [.mem] part asid (i.va + i.ssoff + 32 * n) true with
      | .ok (.place pa _, s) =>
        let s := (s.landHome pa 32).performWrite none pa (bytesOf 32 (e.mint i part).toNat) false
        { s with tags := s.tags.filter (fun t => t ≠ pa / 32) ++ [pa / 32] }
      | _ => s) s

/-- The state that a bank gets at its dispatch (R278, R304, R375). -/
def State.freshBank (s : State) (p : Part) (j : Job) (c : Binding) (i : Image) : Bank :=
  let r := j.qrec.lrec
  let asid := p.record.lcasid.getD r.ctx 0
  let k : Bank := { Bank.reset with
    x := Vector.ofFn (fun (n : Fin 64) => if 2 ≤ n.val ∧ n.val ≤ 9 then r.args.getD (n.val - 2) 0 else 0),
    spwin := r.spwin, roundseed := r.seed, lwait := r.lwait, stall := r.stall, quantum := r.quantum,
    bfmt := Vector.ofFn (fun (n : Fin 16) => r.bfmt.getD n.val 0), status := mkStatus j.qrec.priv.toNat 0 0 0,
    trapvec := match i.trapEntry with
      | some pc => BitVec.ofNat 64 (2 ^ 63 + pc)
      | none => 0,
    asid := BitVec.ofNat 12 asid, binding := some c, image := i.va, codeC := codeSpan i 1 p.record.partid,
    codeG := codeSpan i 2 p.record.partid, ovls := i.ovls, idleSince := s.dtc,
    c := ⟨BitVec.ofNat 64 ((i.entry (fieldAt r.entry 0 6) 0).getD 0), none, .bound, [], 0⟩,
    g := ⟨BitVec.ofNat 64 ((i.entry (fieldAt r.entry 8 6) 1).getD 0), none, .bound, [], 0⟩ }
  (k.loadSpans i p.record.partid).reloaded s asid

/-- One extension of a measurement register (R370). -/
def extend (m d : List Byte) : List Byte := shake256 (m ++ d) 32

/-- MEAS4 takes the code and read-only sections of an image at its first load in the partition; another image placed at the
address later is another image (R370). -/
def State.measureImage (s : State) (part asid : Nat) (i : Image) : State :=
  let bs := ([1, 2, 3] : List Nat).flatMap (fun t => (readSection (s.imageReader part asid) i.va i.sections t).getD [])
  let d := shake256 bs 32
  let key := (asid * 2 ^ 57 + i.va) * 2 ^ 256 + natOfBytes d
  s.modPart part (fun p =>
    if p.measured.contains key then p else { p with measured := p.measured ++ [key], meas := p.meas.modify 0 (fun m => extend m d) })

/-- BIND. A record that is not rejected but differs from the firmware's own placement binds nothing. -/
def execBind (r : BindRec) (s : State) : Out :=
  let b := r.target
  if !r.formOk 1 then .next (s.rejectBind r 1)
  else if !s.bindCore r then .next (s.rejectBind r 2)
  else if (s.bank b).binding.isSome then .next (s.rejectBind r 3)
  else
    match s.job r.jobid, s.part r.part with
    | some j, some p =>
      match assocGet j.banks b with
      | none => .next s
      | some c =>
        if c ≠ ⟨r.jobid, r.part, r.jd, r.jc, r.jk⟩ ∨ j.started then .next s
        else
          let asid := p.record.lcasid.getD j.qrec.lrec.ctx 0
          match s.image r.part asid j.qrec.lrec.image with
          | none => .next ((s.logImage r.part asid j.qrec.lrec.image).rejectBind r 6 (s.objectVersions r.part asid j.qrec.lrec))
          | some i => .next ((((s.setBank b (s.freshBank p j c i)).loadStore i r.part asid).measureImage r.part asid i).logImage r.part asid i.va)
    | _, _ => .next s

def Bank.startStreams (k : Bank) : Bank := { k with c := { k.c with run := .running }, g := { k.g with run := .running } }

/-- The teams of a job, by coordinates. -/
def Job.teamList (j : Job) : List (Nat × Nat) :=
  let (nd, ncl, _) := shapeOf j.qrec.lrec.shape
  (List.range nd).flatMap (fun d => (List.range ncl).map (fun c => (d, c)))

/-- START: the single dispatch event (R278, R310), with the acquire at `.dv` of the dispatch point on every core (R308, R321). -/
def execStart (r : BindRec) (s : State) : Out :=
  if !r.formOk 2 ∨ r.bank ≠ 0 ∨ r.vcore ≠ 0 ∨ r.part ≠ 0 ∨ r.lrec ≠ 0 ∨ r.jd ≠ 0 ∨ r.jc ≠ 0 ∨ r.jk ≠ 0 then .next (s.rejectBind r 1)
  else
    match s.job r.jobid with
    | none => .next (s.rejectBind r 5)
    | some j =>
      let bound := j.banks.filter (fun (b, c) => (s.bank b).binding = some c)
      if bound = [] ∨ j.started then .next (s.rejectBind r 5)
      else
        let s := bound.foldl (fun s (b, _) => (s.modBank b Bank.startStreams).dropL1 b.core .dv) s
        let s := bound.foldl (fun s (b, _) => s.pickBank b.core) s
        .next (s.modJob j.id (fun j => { j with started := true, teams := j.teamList.map (fun (d, c) => ⟨d, c, s.dtc, false⟩) }))

/-- Whether the bank holds a team of JOBID. -/
def State.holds (s : State) (b : BankId) (job : Nat) : Bool := (s.bank b).binding.map (·.job) = some job
/-- Whether that team is bound and neither over nor saved. -/
def State.teamIn (s : State) (b : BankId) (job : Nat) : Bool :=
  ((s.job job).map (fun j => j.banks.any (fun (q, _) => q = b))).getD false

/-- Whether the firmware pre-empts a team (R313): at its quantum boundary for a waiting team of equal or higher priority, or at
once for an urgent one of higher priority. -/
def State.mayPreempt (s : State) (j : Job) (jd jc : Nat) : Bool :=
  let prio := prioOf j.qrec.lrec
  (j.teams.any (fun t => t.jd = jd && t.jc = jc && t.boundary) && s.teamWaits j.part prio) || s.urgentWaits j.part prio

/-- PREEMPT: the bank begins to drain (R387). The firmware writes no such record when R313 gives it no ground. -/
def execPreempt (r : BindRec) (s : State) : Out :=
  if !r.formOk 3 then .next (s.rejectBind r 1)
  else if !s.bindCore r then .next (s.rejectBind r 2)
  else if !s.holds r.target r.jobid || !s.teamIn r.target r.jobid then .next (s.rejectBind r 4)
  else
    match s.job r.jobid, (s.bank r.target).binding with
    | some j, some c => .next (if s.mayPreempt j c.jd c.jc then s.markPreempt r.target else s)
    | _, _ => .next s

/-- RELEASE: frees a bank whose job is over or whose team has been saved (R310). -/
def execRelease (r : BindRec) (s : State) : Out :=
  if !r.formOk 5 then .next (s.rejectBind r 1)
  else if !s.bindCore r then .next (s.rejectBind r 2)
  else if !s.holds r.target r.jobid || s.teamIn r.target r.jobid then .next (s.rejectBind r 4)
  else .next (s.freeBank r.target)

/-! ### Completion (R8, R256, R308) -/

/-- Whether both streams of a bank have ended and every access and transfer of them is over. -/
def Bank.over (k : Bank) : Bool := k.c.run = .ended && k.g.run = .ended && k.quiet && k.outLoads.isEmpty && k.grid.isEmpty

/-- Whether a job has completed. -/
def State.jobOver (s : State) (j : Job) : Bool :=
  j.started && j.aborted.isNone && j.banks.all (fun (b, _) => (s.bank b).over && !s.pend.any (fun p => p.bank = b))
    && s.saves.all (fun v => v.job ≠ j.id || v.cores.all (fun (_, _, k) => k.over))
    && !s.ply.any (fun o => o.job = j.id) && !s.scans.any (fun q => q.job = j.id)

/-- The job leaves the device: its regions, Distaff contexts and saves go, and its banks wait for RELEASE. -/
def State.retireJob (s : State) (j : Job) : State :=
  let s := { s with
    jobs := s.jobs.filter (fun q => q.id ≠ j.id), saves := s.saves.filter (fun v => v.job ≠ j.id),
    regions := s.regions.map (fun (r : AttarRegion) => if r.live && r.job = j.id then r.freed else r),
    ply := s.ply.filter (fun o => o.job ≠ j.id), scans := s.scans.filter (fun q => q.job ≠ j.id),
    hub := s.hub.filter (fun m => m.job ≠ j.id), spindle := s.spindle.filter (fun m => m.job ≠ j.id),
    roots := s.roots.filter (fun r => r.job ≠ j.id), routeTags := s.routeTags.filter (fun t => t.job ≠ j.id) }
  j.banks.foldl (fun s (b, _) => (s.modBank b (fun k => { k with c := k.c.stopped, g := k.g.stopped })).pickBank b.core) s

/-- JOB_COMPLETE: DONEVAL, then SETM as one step of the event order. -/
def execJobComplete (job : Nat) (s : State) : Out :=
  match s.job job with
  | none => .next s
  | some j =>
    if !s.jobOver j then .next s
    else
      let r := j.qrec.lrec
      let s := s.writeDone j.part r.ctx r.doneaddr r.doneval.toNat
      match j.qrec.inst with
      | none => .next ((s.eventStep j.part r.ctx r.setM 0).retireJob j)
      | some (g, i) =>
        let s := s.modPart j.part (fun p => { p with graphs := p.graphs.map (fun (q : GInst) =>
          if q.id = g then { q with events := q.events ||| r.setM, left := q.left.filter (fun n => n ≠ i) } else q) })
        .next (((s.evaluateInst j.part g).retireJob j).finishInst j.part g)

/-- SCHEDULER_RESTART (R325): the waiting records are evaluated again, and nothing else changes. -/
def execSchedulerRestart (s : State) : Out :=
  .next (s.parts.foldl (fun s (n, p) =>
    p.graphs.foldl (fun s g => s.evaluateInst n g.id) ((List.range 16).foldl (fun s c => s.evaluate n c (fun _ => true)) s)) s)

end Sys2Proof.Machine
end

