-- ==== Sys2Proof/Machine/Xlate.lean ====
section
/-! DEFINITION. TLB invalidations and their acknowledgements, DIRTYSYNC, walks, and accesses that come from other devices (R243, R352, R356, R361 to R364). -/
namespace Sys2Proof

/-- Whether a target serves a core. -/
def TlbHolder.serves (t : TlbHolder) (core : Nat) : Bool :=
  match t with
  | .core n => core = n
  | .cluster c => Machine.clusterOf core = c
  | .mem => true

end Sys2Proof

namespace Sys2Proof.Machine

/-! ### Ending the accesses of a bank -/

/-- The state that an answer holds; a stop leaves the given one. -/
def stateOf (o : Out) (s : State) : State :=
  match o with
  | .next t => t
  | _ => s

/-- Every outstanding load returns (R381). -/
def State.returnLoads (s : State) (b : BankId) : State :=
  ((s.bank b).outLoads.map (fun l => l.id)).foldl (fun s id => stateOf (execLoadReturn b id s) s) s

/-- Every access that the cores of a set have under way in a partition is performed or has faulted: those of its banks, and the
writes of banks that have been freed since. -/
def State.finishPart (s : State) (part : Nat) (cores : Nat → Bool) : State :=
  let s := ((s.banks.filter (fun (b, k) => k.part = part && cores b.core)).map Prod.fst).foldl (fun s b => (s.returnLoads b).performAmons b) s
  s.performAll (s.pend.filter (fun p => p.part = part && cores p.bank.core))

/-! ### Invalidations (R361, R362) -/

/-- The targets of a partition's invalidations: the core and cluster TLBs of its clusters, and the memory-resident TLB. -/
def invTargets (r : PartRec) : List TlbHolder :=
  ((List.range 32).filter (fun c => r.clumask.getLsbD c)).flatMap (fun c =>
    .cluster c :: (List.range Config.coresPerCluster).map (fun n => .core (64 * c + n))) ++ [.mem]

/-- Sends an invalidation to every target. -/
def State.sendInval (s : State) (b : BankId) (asid va : Option Nat) (dirtyOnly : Bool) : State :=
  match s.part (s.bank b).part with
  | none => s
  | some p => { s with invals := s.invals ++ (invTargets p.record).map (fun t => ⟨t, b, p.record.partid, asid, va, dirtyOnly⟩) }

/-- What every TLBINV does first: earlier writes of the stream on path C are performed, and a held fault is reported. -/
def tlbinv (f : State → Res) (s : State) (b : BankId) : Res :=
  if (s.bank b).amons.any (fun a => a.path = 0) then .wait s .access 1 0 []
  else
    let s := s.performOwn b
    match (s.bank b).reportHeld with
    | some (t, k) => .heldTrap (s.setBank b k) t
    | none => f s

/-- An address outside region 0b00 invalidates nothing. -/
def execTlbinvPage (g : Guard) (ra : Src) (asid : BitVec 12) : State → Out :=
  runC g 1 (fun s b =>
    (dirs [ra] []).andThen s (fun _ => ((s.bank b).readSrc ra).andThen s (fun _ =>
      tlbinv (fun s =>
        ((s.bank b).readSrc ra).andThen s (fun (v, q) =>
          let s := s.setBank b q
          .done (if v.toNat < 2 ^ 55 then s.sendInval b (some asid.toNat) (some v.toNat) false else s))) s b)))

def execTlbinvAsid (g : Guard) (asid : BitVec 12) : State → Out :=
  runC g 1 (fun s b => tlbinv (fun s => .done (s.sendInval b (some asid.toNat) none false)) s b)
def execTlbinvPart (g : Guard) : State → Out :=
  runC g 1 (fun s b => tlbinv (fun s => .done (s.sendInval b none none false)) s b)

/-- Whether an invalidation removes an entry; one of a page removes every piece of the translation that covers its address. -/
def Inval.hits (v : Inval) (e : TlbEntry) : Bool :=
  e.holder = v.target && e.part = v.part && (v.asid.elim true (fun a => a = e.asid))
    && (v.va.elim true (fun a => e.page.1 ≤ a && a < e.page.1 + e.page.2))

/-- A target acknowledges one invalidation: the entries go, or only their dirty-known bits, and every access that the
cores it serves have under way in the partition is performed or has faulted. -/
def State.ackInval (s : State) (v : Inval) : State :=
  let s := { s with
    invals := s.invals.filter (fun w => w ≠ v),
    tlb := if v.dirtyOnly then s.tlb.map (fun e => if v.hits e then { e with known := [] } else e) else s.tlb.filter (fun e => !v.hits e) }
  s.finishPart v.part v.target.serves

/-- TLB_ACKNOWLEDGE: a target acknowledges what was sent to it; no software takes part (R363). -/
def execTlbAcknowledge (t : TlbHolder) (s : State) : Out :=
  .next ((s.invals.filter (fun v => v.target = t)).foldl State.ackInval s)

/-- TLBSYNC. -/
def execTlbsync (g : Guard) : State → Out :=
  runC g 1 (fun s b => if s.invals.any (fun v => v.bank = b && !v.dirtyOnly) then .wait s .tlb 0 0 [] else .done s)

/-- DIRTYSYNC (R364): at once when the address space is not tracked; else it waits for every TLB, and later reads of the
stream are as new as the writes waited for. -/
def execDirtysync (g : Guard) (asid : BitVec 12) : State → Out :=
  runC g 1 (fun s b =>
    let k := s.bank b
    let sent := (match k.c.wait with
      | some ⟨.tlb, _, _, [_], _⟩ => true
      | _ => false : Bool)
    if sent then
      if s.invals.any (fun v => v.bank = b && v.dirtyOnly) then .wait s .tlb 0 0 [1] else .done (s.dropL1 b.core .dv)
    else
      match s.part k.part with
      | none => .done s
      | some p =>
        match trackOf s p.record asid.toNat with
        | none => .done s
        | some _ => .wait (s.sendInval b (some asid.toNat) none true) .tlb 0 0 [1])

/-- PAGE_WALK (R352): the walk of an access of a core; a fault is the access's own. -/
def execPageWalk (core part asid va : Nat) (write : Bool) (s : State) : Out :=
  if 2 ^ 55 ≤ va then .next s
  else
    match s.walk (holdersOf core) part asid va write with
    | .ok _ s => .next s
    | .fault f s => .next (s.logWalk part asid va f)
    | .window .. => .next s

/-! ### Accesses of other devices (R243, R356) -/

/-- Whether an arriving access may touch the physical bytes: device memory outside span storage (R331). -/
def Xlat.open (x : Xlat) : Bool := isDevMem x.pa && !x.spanstore

/-- Writes bytes at an offset of the exported window; the first address that is refused ends it, with the fault if its
translation gave one. -/
def exportWrite : Nat → State → Nat → List Byte → State × Option XFault
  | 0, s, _, _ => (s, none)
  | fuel + 1, s, off, bs =>
    if bs = [] then (s, none)
    else
      let n := min bs.length (8 - off % 8)
      match s.exportXlat off true with
      | .ok x s => if x.open then exportWrite fuel ((s.landHome x.pa n).performWrite none x.pa (bs.take n) false) (off + n) (bs.drop n) else (s, none)
      | .fault f s => (s.logExport off f, some f)
      | .window .. => (s, none)

/-- Reads bytes at an offset of the exported window, or answers the fault of the first address that is refused, if its
translation gave one. -/
def exportRead : Nat → State → Nat → Nat → Except (Option XFault × State) (List Byte × State)
  | 0, s, _, _ => .ok ([], s)
  | fuel + 1, s, off, n =>
    if n = 0 then .ok ([], s)
    else
      let w := min n (8 - off % 8)
      match s.exportXlat off false with
      | .ok x s =>
        if x.open && !s.eccAt x.pa w then
          match exportRead fuel s (off + w) (n - w) with
          | .ok (bs, t) => .ok (s.readMem x.pa w ++ bs, t)
          | .error e => .error e
        else .error (none, s)
      | .fault f s => .error (some f, s.logExport off f)
      | .window .. => .error (none, s)

/-- What is sent back goes to the requester, which the model does not name. -/
def requester : Nat := 2 ^ 22

/-- Sends an answer back: data, or the fault of R356. -/
def State.reply (s : State) (off n : Nat) (data : Option (List Byte)) (f : Option XFault) : State :=
  { s with outbox := s.outbox ++ [⟨requester, off, data, n, none, f.map (fun f => (f.reason, f.level))⟩] }

def State.serveWrite (s : State) (off : Nat) (bs : List Byte) : State :=
  match exportWrite (bs.length / 8 + 2) s off bs with
  | (s, some f) => s.reply off bs.length none (some f)
  | (s, none) => s

def State.serveRead (s : State) (off n : Nat) : State :=
  match exportRead (n / 8 + 2) s off n with
  | .ok (bs, s) => s.reply off n (some bs) none
  | .error (some f, s) => s.reply off n none (some f)
  | .error (none, s) => s

/-- An atomic that another device asks for, at the line's home slice or, on path N, its stack: every cluster cache gives the
line up first (R197, R225). -/
def State.serveAtomic (s : State) (off : Nat) (a : RemoteAtomic) : State :=
  let n := amoBytes a.ty
  match s.exportXlat off true with
  | .fault f s => (s.logExport off f).reply off n none (some f)
  | .window .. => s
  | .ok x s =>
    if !x.open || off % n ≠ 0 || s.eccAt x.pa n then s
    else
      let s := s.performAll (s.pend.filter (fun p => p.visible && p.meets x.pa n))
      let old := s.readNum x.pa n
      let s := s.performWrite none x.pa (bytesOf n (rmwNew a.op a.ty (a.vals.map (·.toNat)) old)) true
      if a.returns then s.reply off n (some (bytesOf n old)) none else s

/-- DOMAIN_WINDOW_ACCESS (R195, R225, R356): nothing is reached before the device id is assigned (R367). -/
def execDomainWindowAccess (off : Nat) (r : WindowReq) (len : Nat) (s : State) : Out :=
  if (windowDown s).isSome ∨ 2 ^ 45 ≤ off then .next s
  else
    match r with
    | .write bs => .next (s.serveWrite off bs)
    | .read => .next (s.serveRead off len)
    | .atomic a => .next (s.serveAtomic off a)

/-- UE_RMA_REQUEST (R243). -/
def execUeRmaRequest (r : UeReq) (s : State) : Out :=
  if (windowDown s).isSome then .next s
  else
    match r with
    | .write off data => if 4096 < data.length ∨ 2 ^ 48 ≤ off then .next s else .next (s.serveWrite off data)
    | .read off len => if 2 ^ 48 ≤ off then .next s else .next (s.serveRead off len)

end Sys2Proof.Machine
end

