-- ==== Sys2Proof/Machine/Save.lean ====
section
/-! DEFINITION. Saving and restoring teams: pre-emption, long-wait swaps, RESUME and its checks, wake sources, quanta, and the Sillage record (R298, R299, R313, R322 to R324, R387 to R391). -/
namespace Sys2Proof.Machine

/-! ### The save format (R389, R390) -/

def saveTags : List Nat := (List.range 17).map (· + 1) ++ [0x20]
def tagScratch : Nat := 0x11
/-- Every section but TELEMETRY is required. -/
def tagRequired (t : Nat) : Bool := t ≠ 0x20

def sectionBytes (tag : Nat) (body : List Byte) : List Byte :=
  bytesOf 2 tag ++ bytesOf 1 1 ++ bytesOf 1 0 ++ bytesOf 1 (tagRequired tag).toNat ++ bytesOf 3 0 ++ bytesOf 8 body.length ++ body

/-- A core record: its sections in the order of their tags, and the end tag. -/
def coreRecord (x : CoreSave) (spad : List Byte) : List Byte :=
  saveTags.flatMap (fun t => sectionBytes t (if t = tagScratch then spad else x.body t)) ++ List.replicate 16 0

def saveHeader (reason cores job dtc : Nat) (recs digest : List Byte) : List Byte :=
  ([0x4A, 0x53, 0x41, 0x56] : List Byte) ++ bytesOf 1 0 ++ bytesOf 1 1 ++ bytesOf 1 reason ++ bytesOf 1 cores ++ bytesOf 8 job
    ++ bytesOf 8 dtc ++ bytesOf 8 (64 + recs.length) ++ digest

/-- Where the save of a team stands. -/
def saveAddr (r : LaunchRec) (jd jc : Nat) : Nat := r.savearea + 2 ^ 25 * (8 * jd + jc)

def State.jobAsid (s : State) (j : Job) : Nat := ((s.part j.part).map (fun p => p.record.lcasid.getD j.qrec.lrec.ctx 0)).getD 0

/-! ### Saving a team (R298, R381, R387) -/

/-- What a drain ends before a save: accesses, the grid's current tiles, the reply of a stack, member lists, and the
acknowledgements of the bank's invalidations. The bank issues nothing from then on (R322). -/
def State.drainBank (s : State) (b : BankId) : State :=
  let s := (s.returnLoads b).performAmons b
  let s := (s.performAll (s.pend.filter (fun p => p.bank = b))).endTiles b
  let s : State := stateOf (execAttarStackReply b s) s
  let s : State := match (s.bank b).binding with
    | some c => (s.ply.filter (fun o => o.job = c.job && o.members.any (fun m => m.c = (c.jd, c.jc, c.jk)))).foldl (fun s o => s.plySendAll o.id) s
    | none => s
  (s.invals.filter (fun v => v.bank = b)).foldl State.ackInval s

/-- Every accepted copy of a bank runs to its end. -/
def State.finishXfers (s : State) (b : BankId) : State :=
  ([0, 1, 2, 3, 4, 5, 6, 7] : List (BitVec 3)).foldl (fun s ch =>
    ((s.bank b).getChan ch).xfers.foldl (fun s x => stateOf (execTransferComplete b ch x.id s) s) s) s

/-- Brings a bank into its place by rank. -/
def insertRank (x : BankId × Binding) : List (BankId × Binding) → List (BankId × Binding)
  | [] => [x]
  | y :: l => if x.2.jk ≤ y.2.jk then x :: y :: l else y :: insertRank x l

/-- The banks of a team, in rank order, which is that of their core numbers (R130, R389). -/
def Job.teamBanks (j : Job) (jd jc : Nat) : List (BankId × Binding) := (j.banks.filter (fun (_, c) => c.jd = jd && c.jc = jc)).foldr insertRank []

/-- How many members of other teams have arrived at the instance that a stream of a saved core waits at (R299). -/
def State.foreignArrivals (j : Job) (c : Coord) (k : Bank) (kind : StreamKind) (id : Nat) : Nat :=
  match j.arrivalOf id (k.rdvCount kind (BitVec.ofNat 6 id) - 1) c kind with
  | some own => (j.arrivals.filter (fun a => a.same own && !(a.jd = c.1 && a.jc = c.2.1))).length
  | none => 0

/-- A saved bank whose RDV waits hold the arrivals of other teams so far, so that a later one fires as a wake source (R299). -/
def Bank.marksRdv (k : Bank) (j : Job) (c : Coord) : Bank :=
  ([.c, .g] : List StreamKind).foldl (fun k kind =>
    match (k.stream kind).wait with
    | some w =>
      if w.tag = .rdv then
        k.setStream kind { k.stream kind with wait := some { w with vals := [BitVec.ofNat 64 (State.foreignArrivals j c k kind w.obj)] } }
      else k
    | none => k) k

/-- Writes the context save of a drained team and takes the team off its banks; `free` gives the banks up as well
(R298), else they wait for RELEASE (R310). -/
def State.saveTeam (s : State) (j : Job) (jd jc reason : Nat) (runnable free : Bool) : State :=
  let bs := j.teamBanks jd jc
  let asid := s.jobAsid j
  let va := saveAddr j.qrec.lrec jd jc
  let serial := s.nextSave
  let recs := bs.flatMap (fun (b, _) =>
    coreRecord ⟨b.core, b.bank, s.dirtyWord b, s.bank b⟩ (s.readMem (spadPlace b.core 0) Config.spadBytes))
  let digest := shake256 recs 32
  let cores := bs.map (fun (b, c) =>
    let k := s.bank b
    (c.jk, b.core, ({ k with preemptAt := none, drain := if k.pendTrap.isSome then .fault else .none } : Bank).marksRdv j (c.jd, c.jc, c.jk)))
  let s := s.writeOrLog [.mem] j.part asid va (saveHeader reason bs.length j.id s.dtc recs digest ++ recs)
  let s : State := { s with saves := s.saves ++ [⟨serial, va, j.part, asid, j.id, reason, cores, digest⟩], nextSave := serial + 1 }
  let s := bs.foldl (fun s (b, c) => (s.setBank b { Bank.reset with binding := if free then none else some c }).pickBank b.core) s
  let s := s.modJob j.id (fun j => { j with
    banks := j.banks.filter (fun (_, c) => !(c.jd = jd && c.jc = jc)), teams := j.teams.filter (fun t => !(t.jd = jd && t.jc = jc)),
    saved := j.saved ++ [⟨jd, jc, reason, serial, runnable, serial⟩] })
  s.migFinish j.id

/-- Grid operations of a bank that are still at work. -/
def Bank.gridBusy (k : Bank) : Bool := k.grid.any (fun o => o.phase = .running)

/-- PREEMPT_DRAIN_EXPIRY (R387): the bank's drain ends, once DRAIN_NS has passed or its grid instructions are over; the
core runs its other bank, and the team is saved once each of its banks is drained. A fault whose record is not yet
written holds the drain. -/
def execPreemptDrainExpiry (b : BankId) (s : State) : Out :=
  let k := s.bank b
  match k.preemptAt, k.binding, s.jobOf b with
  | some t, some c, some j =>
    let ns := ((s.part c.part).map (fun p => p.drainNs.toNat)).getD 0
    if k.drain = .parked ∨ (k.pendTrap.map (fun p => p.seq.isNone)).getD false ∨ (s.dtc < t + ns ∧ k.gridBusy ∧ k.drain = .preempt) then .next s
    else
      let s := ((s.drainBank b).modBank b (fun k => { k with drain := .parked })).pickBank b.core
      let migrating := ((s.part c.part).map (fun p => decide (p.mig.state = migStopping ∧ p.mig.job = j.id))).getD false
      if (j.teamBanks c.jd c.jc).all (fun (q, _) => (s.bank q).drain = .parked) then
        .next (s.saveTeam j c.jd c.jc (if migrating then 0x40 else 0x30) (!migrating) false)
      else .next s
  | _, _, _ => .next s

/-! ### Quanta and long waits (R298, R313) -/

/-- The bank of the lowest-numbered core of a team. -/
def Job.leader (j : Job) (jd jc : Nat) : Option BankId :=
  match j.teamBanks jd jc with
  | [] => none
  | (b, _) :: l => some (l.foldl (fun m (q, _) => if q.core < m.core then q else m) b)

/-- QUANTUM_BOUNDARY: the team has held its banks for QUANTUM_NS. -/
def execQuantumBoundary (job jd jc : Nat) (s : State) : Out :=
  match s.job job with
  | none => .next s
  | some j =>
    match j.teams.find? (fun t => t.jd = jd && t.jc = jc), j.leader jd jc with
    | some t, some b =>
      if t.start + (s.bank b).quantum.toNat ≤ s.dtc then .next (s.modTeam job jd jc (fun t => { t with boundary := true })) else .next s
    | _, _ => .next s

/-- When a stream's wait began; none when it does not wait. A bank that waits for an answer waits (R381). -/
def Bank.waitStart (k : Bank) (kind : StreamKind) : Option Nat :=
  match k.pendTrap with
  | some t => some t.time
  | none => (k.stream kind).wait.map (fun w => w.since)

/-- Every stream of the bank has waited longer than `ns`. -/
def Bank.waitsLong (k : Bank) (now ns : Nat) : Bool :=
  ([.c, .g] : List StreamKind).all (fun x => (k.waitStart x).elim false (fun t => t + ns < now))

/-- The condition, width and span of the WAITA that a C stream stands at. -/
def Bank.waitaAt (k : Bank) : Option (Cond × Bool × SpanReg) :=
  match decode .c k.priv k.c.pc.toNat (k.c.code.drop (k.c.pc.toNat / 8)) with
  | .ok (.waita _ cc wide _ _ m _ _) _ => some (cc, wide, k.getB m.sb)
  | _ => none

/-- The place of a scratchpad address that a core reaches through a span. -/
def spadAt (core : Nat) (r : BitVec 256) (off : Nat) : Nat :=
  spadPlace (if sSPACE r = 1 then core else core / 64 * 64 + sCORE r) off

/-- Whether the word of a WAITA satisfies its condition at its point of coherence (R299). `gone` names the cores whose scratchpads
stand in a save: no agent changes those any more. -/
def State.watchHolds (s : State) (part core : Nat) (gone : List Nat) (k : Bank) (w : Wait) : Bool :=
  match k.waitaAt with
  | none => false
  | some (cc, wide, r) =>
    let test := fun (p : Nat) => waitaHolds cc wide (BitVec.ofNat 64 (s.readNum p (if wide then 8 else 4))) (w.vals.headD 0)
    if sSPACE r.bits ≠ 0 then !gone.any (fun c => spadAt core r.bits w.detail / Config.spadBytes = spadPlace c 0 / Config.spadBytes) && test (spadAt core r.bits w.detail)
    else
      match s.reachVA [.mem] part k.asid.toNat w.detail false with
      | .ok (.place p _, _) => test p
      | .ok _ => s.pick 10 w.detail 0 0 % 2 = 1
      | .error _ => true

/-- Whether a copy that ended during the save has satisfied a WAITA of the team on a scratchpad (R299). -/
def State.watchEnded (s : State) (bs : List (BankId × Binding)) : Bool :=
  bs.any (fun (b, _) =>
    let k := s.bank b
    (k.waitaAt.any (fun (_, _, r) => sSPACE r.bits ≠ 0)) && k.c.wait.any (fun w => w.tag = .waita && s.watchHolds k.part b.core [] k w))

/-- LONG_WAIT_SWAP. A trap that waits for its record holds the team (R380). Accepted copies go on to their end before the save, so
that a saved team waits for no copy of its own (R236, R381). -/
def execLongWaitSwap (job jd jc : Nat) (s : State) : Out :=
  match s.job job with
  | none => .next s
  | some j =>
    match j.leader jd jc with
    | none => .next s
    | some b =>
      let bs := j.teamBanks jd jc
      let ns := (s.bank b).lwait.toNat
      if ns = 0 ∨ !j.started ∨ !bs.all (fun (q, _) =>
          let k := s.bank q
          k.waitsLong s.dtc ns && k.preemptAt.isNone && k.halted.isNone && (k.pendTrap.map (fun p => p.seq.isSome)).getD true) then .next s
      else
        let s := bs.foldl (fun s (q, _) => (s.finishXfers q).drainBank q) s
        .next ((s.saveTeam j jd jc 0x31 (s.watchEnded bs) true).logSched .longWait [j.qrec.lrec.recid, jd, jc, s.dtc])

/-! ### Wake sources (R299) -/

def Wait.late (w : Wait) (now : Nat) : Bool := (w.vals.getLast?.map (fun d => decide (d.toNat ≤ now))).getD false

/-- Whether a slot of an open query of a saved core can be committed into its hank once the core is back (R264). -/
def State.slotHeld (s : State) (j : Job) (c : Coord) (k : Bank) (which : AttarQuery → Bool) : Bool :=
  s.scans.any (fun q => q.job = j.id && q.c = c && which q && (k.getH (BitVec.ofNat 4 q.hank)).free ≠ 0)

/-- Whether a commit or a delivery into a hank of a saved core is held at the hub or at a stack (R253, R264, R300). -/
def State.commitHeld (s : State) (j : Job) (c : Coord) (core : Nat) (k : Bank) (h : Nat) : Bool :=
  s.hub.any (fun m => m.job = j.id && m.jd = c.1 && m.jc = c.2.1 && m.home = coreNum core && m.hank.toNat = h)
    || s.ply.any (fun o => o.job = j.id && o.owner = c && o.hank = h && o.out.isSome) || s.slotHeld j c k (fun q => q.hank = h)

/-- Whether the wake source of a saved wait has fired (R299): something outside the team has ended the wait, or an arrival, commit
or delivery that it waits for is held. `gone` names the team's cores. -/
def State.sourceFired (s : State) (j : Job) (gone : List Nat) (c : Coord) (core : Nat) (k : Bank) (kind : StreamKind) (w : Wait) : Bool :=
  let ring := fun (p : Part) => p.ring w.obj true
  match w.tag with
  | .waita => s.watchHolds j.part core gone k w || (w.late s.dtc && w.vals.getLast? ≠ some 0)
  | .flag => w.vals ≠ [] && w.late s.dtc
  | .evwait => fieldAt (s.events j.part w.obj) w.detail 1 = 1 || (w.vals ≠ [] && w.late s.dtc)
  | .cpwait => w.detail ≤ (k.getChan (BitVec.ofNat 3 w.obj)).cpdone
  | .channel => (k.getChan (BitVec.ofNat 3 w.obj)).busy < 16
  | .aqwait => k.queries.any (fun q => q.id = w.detail && q.nu ≤ q.committed) || s.slotHeld j c k (fun q => q.id = w.detail)
  | .querySlot => s.slotHeld j c k (fun _ => true)
  | .hclaim => w.vals ≠ []
  | .hwait | .hbind => s.commitHeld j c core k w.obj
  | .remoteHank => w.vals ≠ [] || s.hub.any (fun m => m.job = j.id && m.jd = c.1 && m.jc = c.2.1 && m.src = coreNum core)
  | .rdv => (w.vals.headD 0).toNat < State.foreignArrivals j c k kind w.obj
      || (j.arrivalOf w.obj (k.rdvCount kind (BitVec.ofNat 6 w.obj) - 1) c kind).any (·.opened)
  | .launchSlot => w.vals.length = 3 || (2 < w.vals.length && (s.part j.part).any (fun p => (ring p).tail < (ring p).head + 2 ^ (ring p).qlog2))
  | .gridGo => s.spindle.any (fun m => m.job = j.id && m.dst = c) || s.ply.any (fun o => o.job = j.id && o.members.any (fun m => m.c = c && m.phase ≠ .hashed))
  | .tlb | .fenceP | .access | .loads | .dirtyctl | .attarReply => true
  | _ => false

/-- WAKE_SOURCE_FIRE: the team is runnable, at the back of its rotation. -/
def execWakeSourceFire (job jd jc : Nat) (s : State) : Out :=
  match s.job job with
  | none => .next s
  | some j =>
    match j.saved.find? (fun t => t.jd = jd && t.jc = jc && !t.runnable && t.reason ≠ 0x40) with
    | none => .next s
    | some t =>
      let cores := ((s.saves.find? (fun v => v.serial = t.serial)).map (fun v => v.cores)).getD []
      let gone := cores.map (fun (_, core, _) => core)
      if cores.any (fun (jk, core, k) => (k.pendTrap.bind (fun p => p.answer)).isSome
          || ([.c, .g] : List StreamKind).any (fun x => ((k.stream x).wait.map (s.sourceFired j gone (jd, jc, jk) core k x)).getD false)) then
        .next { (s.modJob job (fun j => { j with saved := j.saved.map (fun (q : SavedTeam) =>
          if q.serial = t.serial then { q with runnable := true, rotation := s.nextSave } else q) })) with nextSave := s.nextSave + 1 }
      else .next s

/-! ### Restoring a team (R388, R391) -/

/-- What a restored bank takes from a save: its overlays are reloaded, and GIDLE is over (R170). -/
def Bank.restored (k : Bank) (s : State) (j : Job) (c : Binding) : Bank :=
  let k := ({ k with binding := some c } : Bank).reloaded s (s.jobAsid j)
  match k.g.wait with
  | some w => if w.tag = .gidle then { k with g := { k.g with wait := some { w with vals := [1] } } } else k
  | none => k

/-- The overlays that a restored bank's streams run, as address and length. -/
def Bank.overlayBytes (k : Bank) : List (Nat × Nat) :=
  ([.c, .g] : List StreamKind).filterMap (fun kind => (k.overlay kind (k.stream kind).ovl).map (fun o => (k.image + o.offset, o.length)))

/-- Restores one core of a saved team into a bank, with its scratchpad and the answer that came meanwhile (R387). -/
def State.restoreCore (s : State) (j : Job) (v : Save) (t : SavedTeam) (jk : Nat) (b : BankId) (k : Bank) (spad : List Byte) : State :=
  let c : Binding := ⟨j.id, j.part, t.jd, t.jc, jk⟩
  let s := (s.setBank b (k.restored s j c)).logReads j.part (s.jobAsid j) k.overlayBytes
  let s : State := { (s.performWrite none (spadPlace b.core 0) spad false) with l1 := s.l1.filter (fun l => l.core ≠ b.core) }
  let left := v.cores.filter (fun (a, _) => a ≠ jk)
  let s : State := { s with saves := if left = [] then s.saves.filter (fun w => w.serial ≠ v.serial)
                             else s.saves.map (fun (w : Save) => if w.serial = v.serial then { w with cores := left } else w) }
  let s := s.modJob j.id (fun j => { j with
    banks := j.banks ++ [(b, c)],
    saved := if left = [] then j.saved.filter (fun q => q.serial ≠ t.serial) else j.saved,
    teams := if left = [] then j.teams ++ [⟨t.jd, t.jc, s.dtc, false⟩] else j.teams })
  match k.pendTrap with
  | some p =>
    match p.answer with
    | some act => s.applyAnswer b p act
    | none => s.pickBank b.core
  | none => s.pickBank b.core

/-- A section of a save as it is read. -/
structure SaveSec where
  tag : Nat
  vmaj : Nat
  flags : Nat
  body : List Byte
  deriving DecidableEq, Repr

/-- The sections of one core record, and what follows its end tag; the tag of a header whose LENGTH fails or whose reserved bits or
bytes are not 0 (R16; DEDUCED, log entry 95), and 0 when the end tag is missing. -/
def readRecord : Nat → List Byte → Except Nat (List SaveSec × List Byte)
  | 0, _ => .error 0
  | fuel + 1, bs =>
    let tag := leField bs 0 2
    let len := leField bs 8 8
    if bs.length < 16 then .error 0
    else if bs.length < 16 + len ∨ len % 8 ≠ 0 ∨ 2 ≤ leField bs 4 1 ∨ leField bs 5 3 ≠ 0 then .error tag
    else if tag = 0 then (if len = 0 then .ok ([], bs.drop 16) else .error 0)
    else (readRecord fuel (bs.drop (16 + len))).map (fun (l, r) => (⟨tag, leField bs 2 1, leField bs 4 1, (bs.drop 16).take len⟩ :: l, r))

def readRecords : Nat → List Byte → Except Nat (List (List SaveSec))
  | 0, _ => .ok []
  | n + 1, bs =>
    match readRecord (bs.length / 16 + 1) bs with
    | .error t => .error t
    | .ok (l, r) => (readRecords n r).map (fun ls => l :: ls)

def SaveSec.known (x : SaveSec) : Bool := saveTags.contains x.tag && x.vmaj = 1

/-- The tests of R391 on the bytes of a save: the reason and the tag concerned, or the core records. -/
def checkSave (h body : List Byte) : Except (Nat × Nat) (List (List SaveSec)) :=
  if leField h 5 1 ≠ 1 ∨ h.take 4 ≠ [0x4A, 0x53, 0x41, 0x56] then .error (1, 0)
  else if shake256 body 32 ≠ (h.drop 32).take 32 then .error (2, 0)
  else
    match readRecords (leField h 7 1) body with
    | .error t => .error (3, t)
    | .ok rs =>
      match rs.flatten.find? (fun x => x.flags % 2 = 1 && !x.known) with
      | some x => .error (4, x.tag)
      | none =>
        match rs.findSome? (fun r => (saveTags.filter tagRequired).find? (fun t => !r.any (fun x => x.known && x.tag = t))) with
        | some t => .error (5, t)
        | none => .ok rs

/-- The body of a section that the firmware knows; none of its bytes when the section is absent (R391). -/
def knownBody (r : List SaveSec) (tag : Nat) : List Byte := ((r.find? (fun x => x.known && x.tag = tag)).map (fun x => x.body)).getD []

/-- The virtual core id and the bank that a core record gives, for a save whose bytes this device did not write; the overlay table
is the image's. The value of DIRTYCTL in the record is that of the writer's address space, and is not applied (log entry 14). -/
def State.savedCore (s : State) (j : Job) (c : Binding) (r : List SaveSec) : Nat × Bank :=
  let x := readCore (knownBody r)
  (x.core, { x.k with
    drain := if x.k.pendTrap.isSome then .fault else .none, idleSince := s.dtc, image := j.qrec.lrec.image,
    binding := some c,
    ovls := ((readImage (s.imageReader j.part (s.jobAsid j)) j.qrec.lrec.image).map (·.ovls)).getD [] })

def scratchOf (r : List SaveSec) : List Byte :=
  let b := knownBody r tagScratch
  b.take Config.spadBytes ++ List.replicate (Config.spadBytes - b.length) 0

/-- Whether a core may take a rank of a saved team: same core number, the die of its rank, one cluster for the team. -/
def placeFits (j : Job) (t : SavedTeam) (core old : Nat) : Bool :=
  coreNum core = coreNum old && j.dies.getD t.jd 4 = dieOf core && (j.teamBanks t.jd t.jc).all (fun (q, _) => clusterOf q.core = clusterOf core)

/-- Logs a rejected restoration with its reason and tag, and with both versions when the save's major version is another (R20). -/
def State.rejectResume (s : State) (b : BankId) (job : Nat) (reason tag : Nat) (vs : List Nat) : State :=
  { s with dispatchLog := s.dispatchLog ++ [(b.core / 512, ⟨.resumeReject, [b.core, b.bank, job, reason, tag] ++ vs⟩)] }

/-- The header of a save and the bytes after it, as they stand in memory: places of what is read, and the bytes. -/
def saveReads (h : List Byte) (va : Nat) : Nat × Nat := (va + 64, if leField h 24 8 ≤ 64 ∨ 2 ^ 25 < leField h 24 8 then 0 else leField h 24 8 - 64)
def State.saveHead (s : State) (part asid va : Nat) : List Byte := (s.imageReader part asid va 64).getD []
def State.saveBody (s : State) (part asid va : Nat) : List Byte :=
  let (a, n) := saveReads (s.saveHead part asid va) va
  if n = 0 then [] else (s.imageReader part asid a n).getD []

/-- Reads a save for a restoration (R391): its core records, or the refusal, logged. Reads that an error in a page-table entry stops
are logged too (R373). -/
def State.openSave (s : State) (j : Job) (b : BankId) (asid va : Nat) : Except State (List (List SaveSec)) :=
  let h := s.saveHead j.part asid va
  match checkSave h (s.saveBody j.part asid va) with
  | .ok rs => .ok rs
  | .error (reason, tag) =>
    .error ((s.logReads j.part asid [(va, 64), saveReads h va]).rejectResume b j.id reason tag
      (if reason = 1 then versions (leField h 5 1) (leField h 4 1) else []))

/-- The virtual core id and bank of a saved core: as the save has them here while its bytes are those that this device wrote or
took in, else as its record gives them. -/
def State.coreOfSave (s : State) (j : Job) (v : Save) (t : SavedTeam) (asid va jk : Nat) (rs : List (List SaveSec)) : Option (Nat × Bank) :=
  (v.cores.find? (fun (a, _) => a = jk)).map (fun (_, old, k) =>
    if ((s.saveHead j.part asid va).drop 32).take 32 = v.digest then (old, k)
    else s.savedCore j ⟨j.id, j.part, t.jd, t.jc, jk⟩ (rs.getD jk []))

/-- Whether a runnable team or a record at its dispatch point goes before a saved team (R313): one of higher priority, or one of the
same priority that stands before it in the rotation. A record that waits for Distaff contexts holds back no team that may free
them (R318). -/
def State.outranked (s : State) (j : Job) (t : SavedTeam) : Bool :=
  let first := fun (r : LaunchRec) (rot : Nat) =>
    prioOf j.qrec.lrec < prioOf r || (prioOf j.qrec.lrec = prioOf r && rot < t.rotation)
  s.jobs.any (fun q => q.part = j.part && q.saved.any (fun u => u.runnable && first q.qrec.lrec u.rotation))
    || (s.part j.part).any (fun p => p.nextRec.any (fun r => first r.lrec r.rot && s.contextsFree p r.lrec))

/-- Whether the job is on its way to another device (R402): its teams stay saved. -/
def State.leaving (s : State) (j : Job) : Bool := (s.part j.part).elim false (fun p => p.leaving j.id)

/-- RESUME (R310, R311, R391): the tests in order, then the restoration of one core. The firmware writes no such record for a team
that another goes before (R313). -/
def execResume (r : BindRec) (s : State) : Out :=
  let b := r.target
  if !r.formOk 4 then .next (s.rejectBind r 1)
  else if !s.bindCore r then .next (s.rejectBind r 2)
  else if (s.bank b).binding.isSome ∨ s.jobs.any (fun j => j.banks.any (fun (q, _) => q = b)) then .next (s.rejectBind r 3)
  else
    match s.job r.jobid with
    | none => .next (s.rejectResume b r.jobid 6 0 [])
    | some j =>
      let va := saveAddr j.qrec.lrec r.jd r.jc
      match s.openSave j b (s.jobAsid j) va with
      | .error s => .next s
      | .ok rs =>
        match j.saved.find? (fun t => t.jd = r.jd && t.jc = r.jc) with
        | none => .next (s.rejectResume b r.jobid 6 0 [])
        | some t =>
          match s.saves.find? (fun v => v.serial = t.serial) with
          | none => .next (s.rejectResume b r.jobid 6 0 [])
          | some v =>
            match s.coreOfSave j v t (s.jobAsid j) va r.jk rs with
            | none => .next (s.rejectResume b r.jobid 6 0 [])
            | some (old, k) =>
              if rs.length ≠ (shapeOf j.qrec.lrec.shape).2.2 ∨ r.part ≠ j.part ∨ !placeFits j t r.vcore old then
                .next (s.rejectResume b r.jobid 6 0 [])
              else if s.outranked j t || s.leaving j then .next s
              else .next (s.restoreCore j v t r.jk b k (scratchOf (rs.getD r.jk [])))

/-- TEAM_REBIND (R299): a runnable team is bound again, whole, on the named cluster and bank; its save is read by the rules of a
RESUME (R391). -/
def execTeamRebind (job jd jc bank : Nat) (s : State) : Out :=
  match s.job job with
  | none => .next s
  | some j =>
    match j.saved.find? (fun t => t.jd = jd && t.jc = jc && t.runnable), s.part j.part with
    | some t, some p =>
      match s.saves.find? (fun v => v.serial = t.serial) with
      | none => .next s
      | some v =>
        let at' := fun (old : Nat) => (⟨bank / 2 * 64 + coreNum old, bank % 2⟩ : BankId)
        if s.outranked j t ∨ s.leaving j ∨ !v.cores.all (fun (_, old, _) => s.bankFree p (at' old) && placeFits j t (at' old).core old) then .next s
        else
          match s.openSave j (at' 0) v.asid v.va with
          | .error s => .next s
          | .ok rs =>
            if rs.length ≠ (shapeOf j.qrec.lrec.shape).2.2 then .next (s.rejectResume (at' 0) job 6 0 [])
            else
              let take := fun (s' : State) (w : Save) (jk old : Nat) (k : Bank) =>
                s'.restoreCore j w t jk (at' old) ((s.coreOfSave j v t v.asid v.va jk rs).elim k Prod.snd) (scratchOf (rs.getD jk []))
              .next (v.cores.foldl (fun s' (jk, old, k) =>
                match s'.saves.find? (fun w => w.serial = v.serial) with
                | some w => take s' w jk old k
                | none => s') s)
    | _, _ => .next s

/-! ### The Sillage record (R322 to R324) -/

/-- A core of a job as the record shows it. -/
structure SilCore where
  core : Nat
  bank : Nat
  out : Bool
  c : Coord
  k : Bank
  deriving DecidableEq, Repr

def insertSil (x : SilCore) : List SilCore → List SilCore
  | [] => [x]
  | y :: l => if x.core ≤ y.core then x :: y :: l else y :: insertSil x l

/-- The cores of a job in ascending virtual core id, those of saved teams included. -/
def State.silCores (s : State) (j : Job) : List SilCore :=
  let here := j.banks.map (fun (b, c) => (⟨b.core, b.bank, false, (c.jd, c.jc, c.jk), s.bank b⟩ : SilCore))
  let away := j.saved.flatMap (fun t => ((s.saves.find? (fun v => v.serial = t.serial)).map (fun v => v.cores)).getD [] |>.map (fun (jk, core, k) =>
    (⟨core, 0, true, (t.jd, t.jc, jk), k⟩ : SilCore)))
  (here ++ away).foldr insertSil []

def otherKind : StreamKind → StreamKind
  | .c => .g
  | .g => .c

def Stream.over (t : Stream) : Bool := t.run = .ended

/-- KIND of a wait (R324). -/
def silKind : WaitTag → Nat
  | .pop => 1 | .push => 2 | .flag => 3 | .waita => 4 | .hclaim => 5 | .remoteHank => 5 | .hwait => 6 | .hbind => 7 | .rdv => 8
  | .cpwait => 9 | .channel => 9 | .aqwait => 0x0A | .querySlot => 0x0A | .gridOwner => 0x0C | .gridGo => 0x0D
  | .tensorOwner => 0x0E | .evwait => 0x0F | .launchSlot => 0x0F | .ended => 0x10 | .ovldG => 0x11 | .gidle => 1
  | .attarReply | .fenceP | .access | .loads | .gdrain | .gridPlace | .tlb | .dirtyctl => 0x0B
  | .ctxbank => 0

/-- Whether `n` bytes that core `y` reaches from `off` through a span take in the address that core `x` watches through the span
`w`: the same virtual address, or the same place of a scratchpad. -/
def meetsWatch (y x : Nat) (r w : BitVec 256) (off n addr : Nat) : Bool :=
  if sSPACE r = 0 then sSPACE w = 0 && sBASE r + off ≤ addr && addr < sBASE r + off + n
  else sSPACE w ≠ 0 && spadAt y r (sBASE r + off) ≤ spadAt x w addr && spadAt x w addr < spadAt y r (sBASE r + off) + n

/-- Whether an accepted transfer or atomic of the job targets the address that a core watches (R324). -/
def targets (l : List SilCore) (x : SilCore) (addr : Nat) : Bool :=
  let w := (x.k.waitaAt.map (fun (_, _, r) => r.bits)).getD 0
  l.any (fun y =>
    let covers := fun (r : SpanReg) (off n : Nat) => meetsWatch y.core x.core r.bits w off n addr
    y.k.amons.any (fun a => if sSPACE w = 0 then !isSpad a.place && a.va = addr else a.place = spadAt x.core w addr) || y.k.chan.toList.any (fun (c : Chan) => c.xfers.any (fun t =>
      !t.finished && ((match t.cmd with
        | .copy _ d _ o n => covers d o n
        | .mcast _ d _ o n m => (List.range 48).any (fun i => m.getLsbD i && meetsWatch (y.core / 64 * 64 + i) x.core d.bits w o n addr)
        | .tcopy _ q _ _ _ _ => covers q.span 0 (sLIMIT q.span.bits - sBASE q.span.bits)
        | .ply _ => false) || (t.cword.map (fun (r, _, _) => covers r 0 8)).getD false))))

/-- The core whose hank a waiting producer claims or commits at: its own, or the home of its message or of its queued claim. -/
def State.homeCore (s : State) (j : Job) (l : List SilCore) (x : SilCore) (w : Wait) : Option SilCore :=
  if w.tag ≠ .remoteHank then some x
  else
    let mate := fun (y : SilCore) => y.c.1 = x.c.1 && y.c.2.1 = x.c.2.1
    match s.hub.find? (fun m => m.job = j.id && m.jd = x.c.1 && m.jc = x.c.2.1 && m.src = coreNum x.core) with
    | some m => l.find? (fun y => mate y && coreNum y.core = m.home)
    | none => l.find? (fun y => mate y && y.core ≠ x.core && (y.k.getH (BitVec.ofNat 4 w.obj)).claims.any (fun q =>
        match q with
        | .stream n _ => n = coreNum x.core
        | _ => false))

/-- The participants of the grid operation, or of the Ply operation, that a stream waits at. -/
def State.participants (s : State) (j : Job) (x : SilCore) (kind : StreamKind) : List Coord :=
  match kind with
  | .g =>
    match x.k.grid.find? (fun o => o.phase = .hashed) with
    | some o => (gridInput o.what o.tens o.fmts o.mrec o.spwin (shapeOf j.qrec.lrec.shape) x.c).present
    | none => []
  | .c => ((s.ply.find? (fun o => o.job = j.id && o.members.any (fun m => m.c = x.c && m.phase = .hashed))).map (fun o => o.parts)).getD []

/-- Whether the consumer of a hank, the C stream of its home, has ended or waits on anything but filled slots of it. -/
def consumerGone (k : Bank) (h : Nat) : Bool := k.c.over || k.c.wait.any (fun w => !decide (w.tag = .hwait ∧ w.obj = h))

/-- Whether a stream stands at its own grid issue. -/
def atGrid (k : Bank) (kind : StreamKind) : Bool :=
  match (k.stream kind).wait with
  | some w => w.tag = .gridGo || w.tag = .gridOwner || w.tag = .gridPlace
  | none => true

/-- ORPHAN of a wait (R324) but for OVLD.g, whose G stream is looked at first. -/
def State.orphan (s : State) (j : Job) (l : List SilCore) (x : SilCore) (kind : StreamKind) (w : Wait) : Bool :=
  let k := x.k
  let o := k.stream (otherKind kind)
  let elsewhere := fun (tag : WaitTag) => o.over || (o.wait.map (fun v => !decide (v.tag = tag ∧ v.obj = w.obj))).getD false
  let h := k.getH (BitVec.ofNat 4 w.obj)
  match w.tag with
  | .pop => elsewhere .push
  | .push => elsewhere .pop
  | .gidle => o.over || o.wait.isSome
  | .flag => true
  | .waita =>
    !targets l x w.detail
  | .hclaim | .remoteHank => (s.homeCore j l x w).any (fun y => consumerGone y.k w.obj)
  | .hwait => h.claimed = h.tail && !s.deliveryFor j.id x.c w.obj
  | .hbind => h.claimed = h.tail
  | .rdv => (j.arrivalOf w.obj (k.rdvCount kind (BitVec.ofNat 6 w.obj) - 1) x.c kind).any (fun a =>
      l.any (fun y => inExtent a.ext a.at y.c && ((clsHas a.cls .c && y.k.c.over) || (clsHas a.cls .g && y.k.g.over))))
  | .gridOwner => k.c.over
  | .gridGo => l.any (fun y => (s.participants j x kind).contains y.c && ((y.k.stream kind).over || !atGrid y.k kind))
  | .tensorOwner => k.g.over
  | .evwait => true
  | _ => false

/-- The entry of a stream. A GIDLE wait is not among the codes; it shows as the pop that ends it. -/
def State.silStream (s : State) (j : Job) (l : List SilCore) (x : SilCore) (kind : StreamKind) : List Byte :=
  let t := x.k.stream kind
  match t.wait with
  | none => bytesOf 8 t.pc.toNat ++ bytesOf 24 0
  | some w =>
    let arrived := (match (j.arrivals.filter (fun a => a.id = w.obj && a.at = x.c && a.kind = kind)).getLast? with
      | some a => (j.arrivals.filter (fun b => b.same a)).length
      | none => 0)
    let orphan := if w.tag = .ovldG then
        (match x.k.g.wait with
          | some v => v.tag ≠ .gidle && s.orphan j l x .g v
          | none => false)
      else s.orphan j l x kind w
    let detail := if w.tag = .rdv then arrived else if w.tag = .evwait ∨ silKind w.tag ≠ 0x0F then w.detail else 0
    bytesOf 8 t.pc.toNat ++ bytesOf 1 (silKind w.tag) ++ bytesOf 1 orphan.toNat ++ bytesOf 2 w.obj ++ bytesOf 4 0 ++ bytesOf 8 detail
      ++ bytesOf 8 w.since

def silQueue (k : Bank) (q : BitVec 3) : List Byte :=
  let l := k.getQ q
  bytesOf 8 (l.headD 0).toNat ++ bytesOf 1 l.length ++ bytesOf 1 (queueDepth q) ++ bytesOf 6 0

def State.silHank (s : State) (j : Job) (x : SilCore) (n : BitVec 4) : List Byte :=
  let h := x.k.getH n
  let g := h.geo.getD 0
  let open' := s.deliveryFor j.id x.c n.toNat
  bytesOf 4 h.head.toNat ++ bytesOf 4 h.tail.toNat ++ bytesOf 4 h.claimed.toNat
    ++ bytesOf 1 (h.geo.isSome.toNat + 2 * (hREMOTE g).toNat + 4 * open'.toNat) ++ bytesOf 1 (hPCORE g) ++ bytesOf 2 0

def takeZero (n : Nat) (bs : List Byte) : List Byte := bs.take n ++ List.replicate (n - bs.length) 0

/-- Up to 7 open Ply operations of a core. -/
def State.silPly (s : State) (j : Job) (l : List SilCore) (x : SilCore) : List Byte :=
  let ops := s.ply.filter (fun o => o.job = j.id && (o.owner = x.c || o.members.any (fun m => m.c = x.c)))
  takeZero 168 ((ops.take 7).flatMap (fun o =>
    let id := ((o.members.find? (fun m => m.c = x.c)).map (fun m => m.xfer)).getD 0
    let owner := ((l.find? (fun y => y.c = o.owner)).map (fun y => y.core)).getD 0
    bytesOf 8 id ++ bytesOf 2 owner ++ bytesOf 1 (decide (o.owner = x.c)).toNat ++ bytesOf 1 0 ++ bytesOf 4 o.delivered ++ bytesOf 8 0))

def flagBits (v : Vector Bool 16) : Nat := (v.toList.zipIdx.map (fun (f, i) => f.toNat * 2 ^ i)).foldl (· + ·) 0

/-- An Attar query slot; a free one is 0. -/
def silSlot (k : Bank) (n : Nat) : List Byte :=
  match k.queries.find? (fun q => q.slot = n) with
  | some q => bytesOf 8 q.id ++ bytesOf 4 q.handle.toNat ++ bytesOf 1 q.committed ++ bytesOf 1 q.nu ++ bytesOf 2 0
  | none => List.replicate 16 0

/-- The section of a core. R188 says that lc values stand in the record; R323 gives them no place in it, and the layout is followed
(log entry 97). -/
def State.silSection (s : State) (j : Job) (l : List SilCore) (x : SilCore) : List Byte :=
  let k := x.k
  bytesOf 2 x.core ++ bytesOf 1 x.bank ++ bytesOf 1 x.out.toNat ++ bytesOf 12 0 ++ s.silStream j l x .c ++ s.silStream j l x .g
    ++ (List.range 8).flatMap (fun q => silQueue k (BitVec.ofNat 3 q)) ++ (List.range 16).flatMap (fun n => s.silHank j x (BitVec.ofNat 4 n))
    ++ k.chan.toList.flatMap (fun c => bytesOf 8 c.next ++ bytesOf 8 c.cpdone)
    ++ (List.range 16).flatMap (silSlot k)
    ++ s.silPly j l x ++ bytesOf 2 (flagBits k.fl) ++ bytesOf 6 0

/-- The whole record. -/
def State.sillage (s : State) (j : Job) (ns : Nat) : List Byte :=
  let l := s.silCores j
  bytesOf 1 0 ++ bytesOf 1 1 ++ bytesOf 2 l.length ++ bytesOf 4 0 ++ bytesOf 8 j.qrec.lrec.recid ++ bytesOf 8 j.id ++ bytesOf 8 s.dtc
    ++ bytesOf 8 ns ++ bytesOf 24 0 ++ (l.take 63).flatMap (fun x => s.silSection j l x)

/-- When the job's last progress was: its latest wait's start, or the moment a bank stopped issuing; none when some
stream may issue. -/
def State.lastProgress (s : State) (l : List SilCore) : Option Nat :=
  l.foldl (fun acc x => ([.c, .g] : List StreamKind).foldl (fun acc kind =>
    match acc with
    | none => none
    | some t =>
      match x.k.waitStart kind with
      | some u => some (max t u)
      | none => if !x.out && s.live ⟨x.core, x.bank⟩ && (s.core x.core).running = x.bank then none else some (max t x.k.idleSince)) acc) (some 0)

/-- SILLAGE_RECORD: once for a stall, and once more after progress. -/
def execSillageRecord (job : Nat) (s : State) : Out :=
  match s.job job with
  | none => .next s
  | some j =>
    let l := s.silCores j
    let ns := (l.head?.map (fun x => x.k.stall.toNat)).getD 0
    match s.lastProgress l with
    | none => .next s
    | some t =>
      if ns = 0 ∨ !j.started ∨ s.dtc < t + ns ∨ j.stalledAt = some t then .next s
      else
        let bs := s.sillage j ns
        let s := (s.modJob job (fun j => { j with stalledAt := some t })).logPart j.part .stall [j.qrec.lrec.recid, s.dtc]
        if j.qrec.lrec.siladdr = 0 then .next s
        else .next (s.writeOrLog [.mem] j.part (s.jobAsid j) j.qrec.lrec.siladdr bs)

end Sys2Proof.Machine
end

