-- ==== Sys2Proof/Machine/Trust.lean ====
section
/-! DEFINITION. Partitions, device identity, measurement, quotes, boot and firmware recovery (R365 to R371, R403). -/
namespace Sys2Proof.Machine

/-! ### Partitions (R365) -/

/-- The fields of a partition record's 256 bytes. -/
def parsePart (bs : List Byte) : PartRec :=
  { vmin := leField bs 0 1, vmaj := leField bs 1 1, partid := fieldAt (leField bs 2 1) 0 4, vf := leField bs 3 1,
    clumask := BitVec.ofNat 32 (leField bs 4 4), expAsid := fieldAt (leField bs 8 2) 0 12,
    expEn := fieldAt (leField bs 8 2) 12 1 = 1, lcasid := (List.range 16).map (fun i => fieldAt (leField bs (16 + 2 * i) 2) 0 12),
    astab := leField bs 48 8, ranges := (List.range 8).map (fun i => (leField bs (64 + 16 * i) 8, leField bs (72 + 16 * i) 8)),
    raw := bs }

/-- The record's bytes that are not 0 though they are reserved. -/
def reservedBytes (bs : List Byte) (lo n : Nat) : List Nat := (List.range n).map (· + lo) |>.filter (fun i => leField bs i 1 ≠ 0)

/-- The clusters that a record may not name: those of other partitions and retired ones. -/
def State.takenClusters (s : State) : List Nat :=
  s.health.retired ++ s.parts.flatMap (fun (_, p) => (List.range 32).filter (fun c => p.record.clumask.getLsbD c))

/-- Whether a range shares a byte with another partition's memory. -/
def State.rangeTaken (s : State) (b l : Nat) : Bool :=
  s.parts.any (fun (_, p) => p.record.ranges.any (fun (b', l') => b < l' && b' < l && b < l && b' < l'))

/-- The bytes at fault of one memory range. -/
def State.rangeFaults (s : State) (i b l : Nat) : List Nat :=
  (if b % 0x200000 ≠ 0 ∨ Config.tlbRegionBase < l ∨ s.rangeTaken b l then [64 + 16 * i] else [])
    ++ (if l % 0x200000 ≠ 0 ∨ l < b then [72 + 16 * i] else [])

/-- The bytes at fault of a record (R365). Device memory ends with the region of R354. -/
def State.partFaults (s : State) (r : PartRec) : List Nat :=
  let bs := r.raw
  (if r.vmaj ≠ 1 then [1] else [])
    ++ (if fieldAt (leField bs 2 1) 4 4 ≠ 0 ∨ (s.part r.partid).isSome then [2] else [])
    ++ (if r.vf < 1 ∨ 16 < r.vf ∨ s.parts.any (fun (_, p) => p.record.vf = r.vf) then [3] else [])
    ++ ((s.takenClusters.filter (fun c => r.clumask.getLsbD c)).map (fun c => 4 + c / 8))
    ++ (if fieldAt (leField bs 8 2) 13 3 ≠ 0 ∨ (r.expEn ∧ s.exporter.isSome) then [9] else [])
    ++ reservedBytes bs 10 6
    ++ ((List.range 16).filter (fun i => fieldAt (leField bs (16 + 2 * i) 2) 12 4 ≠ 0)).map (fun i => 17 + 2 * i)
    ++ (if r.astab % 0x40000 ≠ 0 ∨ !r.holds r.astab 0x40000 then [48] else [])
    ++ reservedBytes bs 56 8
    ++ (r.ranges.zipIdx.flatMap (fun ((b, l), i) => s.rangeFaults i b l))
    ++ reservedBytes bs 192 64

/-- A partition as it is created: MEAS4 to MEAS7 are 0 (R370) and DRAIN_NS is 50,000 (R379). Its other registers are the
model's choice (log entry 4). -/
def Part.created (r : PartRec) : Part :=
  { record := r, events := Vector.replicate 16 0, hostRings := Vector.replicate 16 Ring.reset,
    devRings := Vector.replicate 16 Ring.reset, arrival := 0, queue := [], graphs := [], nextInst := 0, frbase := 0, frctl := 0,
    frtail := 0, frhead := 0, lost := [], drainNs := 50000, dbgLast := none,
    mig := { state := migIdle, round := 0, pending := [], counter := 0, session := 0, key := none, job := 0, sentRecs := [], sentBits := [], applied := [],
             received := [], acks := [] },
    meas := List.replicate 4 (List.replicate 32 0), measured := [], log := [] }

def State.modTrust (s : State) (f : Trust → Trust) : State := { s with trust := f s.trust }

/-- Extends measurement register `i` of a list by a digest (R370). -/
def extendAt (l : List (List Byte)) (i : Nat) (d : List Byte) : List (List Byte) := l.set i (extend (l.getD i []) d)

/-- PARTITION_CREATE: the record's fields are those of its 256 bytes. A refused record is logged with the byte at fault,
the lowest one; an accepted one extends MEAS3. -/
def execPartitionCreate (r : PartRec) (s : State) : Out :=
  let q := parsePart r.raw
  if s.trust.waitingImage ∨ r.raw.length ≠ 256 then .next s
  else
    match s.partFaults q with
    | b :: bs => .next (s.logDevice .partitionRefused [q.partid, bs.foldl min b])
    | [] => .next ({ s with parts := assocSet s.parts q.partid (Part.created q) }.modTrust (fun t =>
        { t with meas := extendAt t.meas 3 (shake256 r.raw 32) }))

/-- DEVICE_ID_ASSIGN: once per boot (R367). -/
def execDeviceIdAssign (id : Nat) (s : State) : Out :=
  if s.trust.waitingImage ∨ s.trust.deviceId.isSome ∨ 2 ^ 22 ≤ id then .next s
  else .next (s.modTrust (fun t => { t with deviceId := some id }))

/-- MEAS_EXTEND: MEAS5 to MEAS7 through the partition's mailbox (R370). -/
def execMeasExtend (part idx : Nat) (d : List Byte) (s : State) : Out :=
  if idx < 5 ∨ 7 < idx ∨ d.length ≠ 32 then .next s
  else .next (s.modPart part (fun p => { p with meas := extendAt p.meas (idx - 4) d }))

/-! ### Quotes (R368, R371) -/

/-- The certificate of the attestation key that was certified with identity leaf `leaf`. -/
def certificate (leaf : Nat) : List Byte :=
  let body := fitBytes 68 (Config.xmssPublicKey (leaf + 1)) ++ bytesOf 8 leaf
  body ++ fitBytes 2820 (Config.xmssSign 0 leaf body)

/-- Bytes 0 to 351 of a quote, which the attestation key signs. -/
def State.quoteBody (s : State) (p : Part) (nonce : List Byte) : List Byte :=
  bytesOf 1 0 ++ bytesOf 1 1 ++ bytesOf 2 0 ++ bytesOf 4 s.trust.attLeaf ++ bytesOf 8 s.dtc ++ nonce
    ++ shake256 (fitBytes 68 (Config.xmssPublicKey 0)) 32 ++ bytesOf 8 s.trust.bootcount ++ bytesOf 1 p.record.partid
    ++ bytesOf 3 0 ++ bytesOf 4 (s.trust.deviceId.getD 0) ++ (s.trust.meas ++ p.meas).flatten

/-- The 5,748 bytes of a quote. -/
def State.quote (s : State) (p : Part) (nonce : List Byte) (leaf : Nat) : List Byte :=
  let body := s.quoteBody p nonce
  body ++ fitBytes 2500 (Config.xmssSign (leaf + 1) s.trust.attLeaf body) ++ certificate leaf

/-- Reasons of a failed quote request, numbered by the model (log entry 71): QUOTE_EXHAUSTED, IDENTITY_EXHAUSTED. -/
def quoteExhausted : Nat := 1
def identityExhausted : Nat := 2

/-- QUOTE_REQUEST. -/
def execQuoteRequest (part : Nat) (nonce : List Byte) (s : State) : Out :=
  match s.part part with
  | none => .next s
  | some p =>
    if nonce.length ≠ 32 then .next s
    else
      match if 2 ^ 20 ≤ s.trust.identityLeaf then none else s.trust.certLeaf with
      | none => .next (if 2 ^ 20 ≤ s.trust.identityLeaf then s.logPart part .quoteFailed [identityExhausted] else s)
      | some leaf =>
        if 1024 ≤ s.trust.attLeaf then .next (s.logPart part .quoteFailed [quoteExhausted])
        else .next (s.modTrust (fun t => { t with attLeaf := t.attLeaf + 1, quotes := t.quotes ++ [(part, s.quote p nonce leaf)] }))

/-! ### Boot (R368 to R370, R403) -/

/-- The bytes of an image that its signature covers; R369 gives no layout of the header (log entry 13). -/
def imageBytes (i : FwImage) : List Byte := bytesOf 4 i.svn ++ bytesOf 1 i.raise.toNat ++ i.key ++ i.body

/-- What the ROM finds wrong with an image: 1 key digest, 2 signature, 3 SVN below the floor (R369, R403). -/
def State.imageReason (s : State) (i : FwImage) : Option Nat :=
  if shake256 i.key 32 ≠ Config.fusedKeyDigest then some 1
  else if !Config.xmssVerify i.key (imageBytes i) i.sig then some 2
  else if i.svn < s.trust.floor then some 3
  else none

/-- A reset of the device: its state is lost but what the module keeps: the firmware slot, the fused floor, the identity
counter (R368, R369), and what is repaired, retired and to be replaced (R397, R398). -/
def State.resetDevice (s : State) : State :=
  { State.reset with
    turns := s.turns, tick := s.tick, deviceLog := s.deviceLog,
    trust := { Trust.reset with slot := s.trust.slot, floor := s.trust.floor, identityLeaf := s.trust.identityLeaf,
                                recovered := s.trust.recovered },
    health := { Health.reset with replace := s.health.replace, retired := s.health.retired, failures := s.health.failures,
                                  rows := s.health.rows } }

/-- The security block certifies a new attestation key with one identity leaf; the counter is advanced first (R368). -/
def Trust.certify (t : Trust) : Trust :=
  if 2 ^ 20 ≤ t.identityLeaf then t
  else { t with bootcount := t.identityLeaf, certLeaf := some t.identityLeaf, attLeaf := 0, identityLeaf := t.identityLeaf + 1 }

/-- What a successful boot does: MEAS0 to MEAS2, the floor, the attestation key. -/
def Trust.booted (t : Trust) (i : FwImage) (mgmt sched : List Byte) : Trust :=
  let m := extendAt (extendAt (extendAt t.meas 0 (shake256 (imageBytes i) 32)) 1 (shake256 mgmt 32)) 2 (shake256 sched 32)
  Trust.certify { t with meas := m, floor := if i.raise then i.svn else t.floor }

/-- BOOT: the device resets and the ROM checks the slot; a rejected image opens the recovery mailbox. -/
def execBoot (mgmt sched : List Byte) (s : State) : Out :=
  let r := s.resetDevice
  match s.trust.slot with
  | some i =>
    match s.imageReason i with
    | none => .next (r.modTrust (fun t => t.booted i mgmt sched))
    | some _ => .next (r.modTrust (fun t => { t with waitingImage := true }))
  | none => .next (r.modTrust (fun t => { t with waitingImage := true }))

/-- FIRMWARE_RECOVERY_IMAGE: only the open recovery mailbox takes one. -/
def execFirmwareRecoveryImage (img : FwImage) (s : State) : Out :=
  if !s.trust.waitingImage then .next s
  else
    match s.imageReason img with
    | some r => .next (s.logDevice .recoveryRejected [r])
    | none => .next (s.resetDevice.modTrust (fun t => { t with slot := some img, recovered := true }))

/-- POWER_LOSS: the identity counter was committed before any signature left the block (R368). -/
def execPowerLoss (s : State) : Out := .next s.resetDevice

end Sys2Proof.Machine
end

