-- ==== Sys2Proof/Machine/System.lean ====
section
/-! DEFINITION. System registers, TRAP, ERET, BREAK, HALT, the drains of a core's banks, fault records and the commands of a register window (R79, R357, R379 to R386, R402). -/
namespace Sys2Proof.Machine

/-! ### System registers (R79, R384, R385) -/

/-- CORECOORD (R11, R367). -/
def State.coreCoord (s : State) (b : BankId) : Word := BitVec.ofNat 64 (b.core % 2048 + s.trust.deviceId.getD 0 * 2 ^ 32)

/-- The value of a system register. -/
def State.readSys (s : State) (b : BankId) (r : SysReg) : Word :=
  let k := s.bank b
  match r with
  | .status => k.status
  | .trapcause => k.trapcause
  | .trappc => k.trappc
  | .trapval => k.trapval
  | .trapvec => k.trapvec
  | .trapaux => k.trapaux
  | .ctxbank => BitVec.ofNat 64 b.bank
  | .partid => BitVec.ofNat 64 k.part
  | .asid => k.asid.setWidth 64
  | .dtc => BitVec.ofNat 64 s.dtc
  | .corecoord => s.coreCoord b
  | .bfmt n => k.bfmt[n.toNat]'(n.isLt)
  | .spwin => k.spwin
  | .roundseed => k.roundseed
  | .fpflags => k.fpflags
  | .lwait => k.lwait
  | .stall => k.stall
  | .quantum => k.quantum
  | .plyDense => k.plyDense
  | .cpdone c => BitVec.ofNat 64 (k.getChan c).cpdone
  | .dirtyctl => s.dirtyWord b
  | .conflicts e => k.conflicts[e.toNat]'(e.isLt)

/-- The offending bits of a value written to DIRTYCTL (R357). -/
def State.dirtyOffences (s : State) (b : BankId) (v : Word) : List (Option Nat) :=
  let n := v.toNat
  let fits := ((s.part (s.bank b).part).map (fun p => p.record.holds (fieldAt n 24 24 * 2 ^ 24) (2 ^ 24))).getD false
  [forbid n 48 16, forbid n 1 23, outside (fieldAt n 0 1 = 1 && !fits) 24]

/-- The offending bits of a value written to a system register (R385, R143). -/
def State.sysOffences (s : State) (b : BankId) (r : SysReg) (v : Word) : List (Option Nat) :=
  let n := v.toNat
  match r with
  | .status => [forbid n 16 48, forbid n 3 5]
  | .trapcause => [forbid n 8 56]
  | .trapvec => [forbid n 56 6, forbid n 16 32, forbid n 0 3]
  | .ctxbank => [forbid n 1 63]
  | .asid => [forbid n 12 52]
  | .bfmt _ => bfmtOffences v
  | .spwin => spwinOffences v
  | .fpflags => [forbid n 7 57]
  | .plyDense => [forbid n 17 47, outside (0x10000 < fieldAt n 0 17) 0]
  | .quantum => [outside (n < 10000) 0]
  | .dirtyctl => s.dirtyOffences b v
  | .trappc | .trapval | .trapaux | .roundseed | .lwait | .stall | .conflicts _ | .partid | .dtc | .corecoord | .cpdone _ => []

/-- Writes a register that is one field of the bank; the others keep the bank. -/
def Bank.writeSys (k : Bank) (r : SysReg) (v : Word) : Bank :=
  match r with
  | .status => { k with status := v }
  | .trapcause => { k with trapcause := v }
  | .trappc => { k with trappc := v }
  | .trapval => { k with trapval := v }
  | .trapvec => { k with trapvec := v }
  | .trapaux => { k with trapaux := v }
  | .asid => { k with asid := v.setWidth 12 }
  | .bfmt n => k.setBfmt n v
  | .spwin => { k with spwin := v }
  | .roundseed => { k with roundseed := v }
  | .fpflags => { k with fpflags := v }
  | .lwait => { k with lwait := v }
  | .stall => { k with stall := v }
  | .quantum => { k with quantum := v }
  | .plyDense => { k with plyDense := v }
  | .conflicts e => { k with conflicts := k.conflicts.set e.toNat v e.isLt }
  | .ctxbank | .partid | .dtc | .corecoord | .cpdone _ | .dirtyctl => k

/-- CTXBANK: the other bank's number makes the bank drain when a team is bound there (R386). -/
def State.writeCtxbank (s : State) (b : BankId) (v : Word) : State :=
  if v.toNat ≠ b.bank ∧ (s.bank ⟨b.core, 1 - b.bank⟩).binding.isSome then s.modBank b (fun k => { k.stops s.dtc with drain := .ctxbank }) else s

/-- Writes the DIRTY word; no TLB keeps a translation with the bitmap that it replaces (R357, R358). -/
def State.writeDirty (s : State) (b : BankId) (v : Word) : State :=
  match s.dirtyPlace b with
  | some p =>
    let k := s.bank b
    { s.performWrite none p (bytesOf 8 v.toNat) true with tlb := s.tlb.filter (fun e => !(e.part = k.part && e.asid = k.asid.toNat)) }
  | none => s

/-- Whether a stream's DIRTYCTL write has been carried out, with the word it replaced. -/
def Stream.dirtyDone (t : Stream) : Option Word :=
  match t.wait with
  | some ⟨.dirtyctl, _, _, [_, old, _], _⟩ => some old
  | _ => none

/-- Writes a checked value and goes on with the register's old value. A DIRTYCTL write that changes EN waits for
DIRTYCTL_WRITE (R357). -/
def writeReg (s : State) (b : BankId) (r : SysReg) (v : Word) (fin : State → Word → Res) : Res :=
  let old := s.readSys b r
  match r with
  | .ctxbank => fin (s.writeCtxbank b v) old
  | .dirtyctl =>
    match (s.bank b).c.dirtyDone with
    | some old => fin s old
    | none =>
      if (s.dirtyPlace b).isSome ∧ fieldAt v.toNat 0 1 ≠ fieldAt old.toNat 0 1 then .wait s .dirtyctl 0 0 [v, old]
      else fin (s.writeDirty b v) old
  | _ => fin (s.modBank b (fun k => k.writeSys r v)) old

/-- A wait leaves the state as it was before the sources were read. -/
def Res.unpopped (r : Res) (s : State) : Res :=
  match r with
  | .wait _ tag obj detail vals => .wait s tag obj detail vals
  | r => r

/-- SWR and SRX: the value is read and checked, a queue source is popped at completion, and the old value goes to the
destination, if there is one. -/
def sysWrite (rd : Option Dst) (r : SysReg) (ra : Src) (s : State) (b : BankId) : Res :=
  let e : Ev (Word × Bank) := do
    dirs [ra] rd.toList
    let (v, k) ← (s.bank b).readSrc ra
    match (s.bank b).c.dirtyDone with
    | some _ => .ok (v, k)
    | none => do
      r143 v (s.sysOffences b r v)
      .ok (v, k)
  e.andThen s (fun (v, k) =>
    let t := s.setBank b k
    match rd with
    | none => (writeReg t b r v (fun t _ => .done t)).unpopped s
    | some d =>
      match k.writeDst d 0 with
      | .error st => st.res s
      | .ok _ => (writeReg t b r v (fun t old => ((t.bank b).writeDst d old).andThen t (fun k => .done (t.setBank b k)))).unpopped s)

def execSrd (g : Guard) (rd : Dst) (r : SysReg) : State → Out :=
  runC g 1 (fun s b =>
    (dirs [] [rd]).andThen s (fun _ => ((s.bank b).writeDst rd (s.readSys b r)).andThen s (fun k => .done (s.setBank b k))))

def execSwr (g : Guard) (r : SysReg) (ra : Src) : State → Out := runC g 1 (sysWrite none r ra)
def execSrx (g : Guard) (rd : Dst) (r : SysReg) (ra : Src) : State → Out := runC g 1 (sysWrite (some rd) r ra)

/-- DIRTYCTL_WRITE (R357): every TLB drops the address space, every write under way is performed or has faulted, and the
waiting write of DIRTYCTL takes effect. -/
def execDirtyctlWrite (b : BankId) (s : State) : Out :=
  match (s.bank b).c.wait with
  | some ⟨.dirtyctl, _, _, [v, _], _⟩ =>
    let k := s.bank b
    let s := s.finishPart k.part (fun _ => true)
    let old := s.dirtyWord b
    let s := (s.writeDirty b v).modBank b (fun k => { k with c := { k.c with wait := k.c.wait.map (fun w => { w with vals := [v, old, 1] }) } })
    .next (s.wake ⟨b, .c⟩ [.dirtyctl])
  | _ => .next s

/-! ### TRAP, ERET, BREAK, HALT (R384, R386) -/

/-- TRAP: delivered with the next instruction's address. -/
def execTrap (g : Guard) (imm : BitVec 15) (s : State) : Out :=
  let b := s.cur.bank
  let k := s.bank b
  if guardHolds k.cC g then .next (s.deliver b ⟨cTRAP, imm.setWidth 64, 0⟩ (k.c.pc + 8)) else .next (finishC b 1 k.c.pc (.done s))

def execEret (g : Guard) : State → Out := runC g 1 (fun s b => s.trapReturn b)

/-- BREAK: on an attached core the bank halts and goes on behind it; otherwise it is delivered. -/
def execBrk (g : Guard) (imm : BitVec 15) (s : State) : Out :=
  let b := s.cur.bank
  let k := s.bank b
  if guardHolds k.cC g ∧ !(s.core b.core).attached then .next (s.deliver b ⟨cBREAK, imm.setWidth 64, 0⟩ (k.c.pc + 8))
  else runC g 1 (fun s b => .done (s.haltBank b ⟨haltBREAK, imm.toNat⟩)) s

def execHalt (g : Guard) (imm : BitVec 15) : State → Out := runC g 1 (fun s b => .done (s.haltBank b ⟨haltHALT, imm.toNat⟩))

/-! ### Drains and switches (R381, R386) -/

/-- Ends the drain of the bank that a core runs: its loads return, its grid work stands at its cursors, and the core runs
the other bank when a team is bound there (R386); one that has itself drained gives the core back at once. A fault's bank drains
once its record is written (R381). -/
def State.switchBank (s : State) (core : Nat) : State :=
  let b : BankId := ⟨core, (s.core core).running⟩
  let o : BankId := ⟨core, 1 - b.bank⟩
  let k := s.bank b
  let go := (s.returnLoads b).endTiles b
  match k.drain with
  | .fault => if (k.pendTrap.map (fun t => t.seq.isSome)).getD true then go.pickBank core else s
  | .halt => go.pickBank core
  | .ctxbank | .answer =>
    let t := go.modBank b (fun k => { k with drain := .none })
    if (t.bank o).binding.isSome then (t.modCore core (fun c => { c with running := o.bank })).pickBank core else t
  | .none | .preempt | .parked => s

def execBankSwitch (core : Nat) (s : State) : Out := .next (s.switchBank core)

/-- CTXBANK_WRITE: the drain that a write of CTXBANK began. -/
def execCtxbankWrite (b : BankId) (s : State) : Out :=
  if (s.core b.core).running = b.bank ∧ (s.bank b).drain = .ctxbank then .next (s.switchBank b.core) else .next s

/-! ### Fault records and answers (R380, R382) -/

/-- A bank that is to be saved goes on draining once its fault is answered. -/
def Bank.keepDraining (k : Bank) : Bank :=
  if k.preemptAt.isSome ∧ k.binding.isSome ∧ k.drain = .none then { k with drain := .preempt } else k

/-- RING_TRAP: with FRCTL.EN = 0 the trap counts as answered DELIVER; while the ring is full it waits. -/
def execRingTrap (b : BankId) (s : State) : Out :=
  let k := s.bank b
  match k.pendTrap with
  | none => .next s
  | some t =>
    if t.seq.isSome then .next s
    else
      match s.part k.part with
      | none => .next ((s.applyAnswer b t 1).modBank b Bank.keepDraining)
      | some p =>
        if !p.ringOn then .next ((s.applyAnswer b t 1).modBank b Bank.keepDraining)
        else if p.ringFull then .next s
        else
          let job := (k.binding.map (·.job)).getD 0
          let s := s.putRecord k.part p (faultRecord p.frtail b.core b.bank t.cause k.asid.toNat job t.pc t.val t.aux t.time)
          .next (s.modBank b (fun k => { k with pendTrap := k.pendTrap.map (fun t => { t with seq := some p.frtail }) }))

def execFanswerRetry (part seq : Nat) (s : State) : Out := .next (s.answer part seq 0)
def execFanswerDeliver (part seq : Nat) (s : State) : Out := .next (s.answer part seq 1)
def execFanswerAbort (part seq : Nat) (s : State) : Out := .next (s.answer part seq 2)

/-! ### Window commands (R379, R386, R402) -/

def execDbgcmdHalt (part : Nat) (b : BankId) (s : State) : Out := .next (s.debug part b 0)
def execDbgcmdResume (part : Nat) (b : BankId) (s : State) : Out := .next (s.debug part b 1)
def execDbgcmdAttach (part : Nat) (b : BankId) (s : State) : Out := .next (s.debug part b 2)
def execDbgcmdDetach (part : Nat) (b : BankId) (s : State) : Out := .next (s.debug part b 3)

def execMigcmdStart (part arg : Nat) (s : State) : Out := .next (s.migrate part 1 arg)
def execMigcmdRound (part arg : Nat) (s : State) : Out := .next (s.migrate part 2 arg)
def execMigcmdStop (part arg : Nat) (s : State) : Out := .next (s.migrate part 3 arg)
def execMigcmdCancel (part arg : Nat) (s : State) : Out := .next (s.migrate part 4 arg)

/-- REGISTER_WINDOW_WRITE. -/
def execRegisterWindowWrite (part off size : Nat) (v : Word) (s : State) : Out := .next (s.windowWrite part off size v)

end Sys2Proof.Machine
end

