-- ==== Sys2Proof/Machine/Recovery.lean ====
section
/-! DEFINITION. Uncorrectable errors, core failures and retirement, links, throttling, row repair, and the target side and the end of a live migration (R392 to R405). -/
namespace Sys2Proof.Machine

/-! ### Uncorrectable errors (R393, R394) -/

/-- STRUCT codes of R394. -/
def eccRegister : Nat := 3
def eccQueue : Nat := 4
def eccFlag : Nat := 5
def eccHank : Nat := 6
def eccSpan : Nat := 7
def eccInstr : Nat := 8
def eccQuery : Nat := 10

/-- The pieces of bank state of each structure; a span register and an instruction memory have their own sites. -/
def eccCount (struct : Nat) : Nat :=
  if struct = eccRegister then 64
  else if struct = eccQueue then 8
  else if struct = eccFlag ∨ struct = eccHank ∨ struct = eccQuery then 16
  else 0

/-- The content that an error takes from a register, a queue's head, a flag, the counters of a hank or a query slot is a free value
(log entry 72). -/
def Bank.lose (k : Bank) (struct detail : Nat) (v : Nat → Nat) : Bank :=
  if struct = eccRegister then k.setX (BitVec.ofNat 6 detail) (BitVec.ofNat 64 (v 0))
  else if struct = eccQueue then
    match k.getQ (BitVec.ofNat 3 detail) with
    | [] => k
    | _ :: l => k.setQ (BitVec.ofNat 3 detail) (BitVec.ofNat 64 (v 0) :: l)
  else if struct = eccFlag then k.setFl (BitVec.ofNat 4 detail) (v 0 % 2 = 1) []
  else if struct = eccHank then
    let n := BitVec.ofNat 4 detail
    k.setH n { k.getH n with head := BitVec.ofNat 32 (v 0), tail := BitVec.ofNat 32 (v 1), claimed := BitVec.ofNat 32 (v 2) }
  else if struct = eccQuery then
    { k with queries := k.queries.map (fun (q : QuerySlot) =>
        if q.slot = detail then { q with handle := BitVec.ofNat 64 (v 0), committed := v 1, mask := v 2, nexcl := v 3 } else q) }
  else k

/-- The registers of a file. -/
def fileSize : RegFile → Nat
  | .cC | .cG | .m => 8
  | .lc => 4
  | .y => 16
  | .t => 32

/-- The content that an error takes from a register of another file: a condition, a loop counter with its record, a y, t or m
register. -/
def Bank.loseReg (k : Bank) (file : RegFile) (n : Nat) (v : Nat → Nat) : Bank :=
  let num := fun (i w : Nat) => (List.range (w / 64 + 1)).foldl (fun a j => a * 2 ^ 64 + v (i + j)) 0
  match file with
  | .cC => if n < 8 then k.setC (BitVec.ofNat 3 n) (v 0 % 2 = 1) else k
  | .cG => if n < 8 then k.setCG (BitVec.ofNat 3 n) (v 0 % 2 = 1) else k
  | .lc => if h : n < 4 then
      { k with lc := k.lc.set n ⟨BitVec.ofNat 32 (v 0), v 1 % 2 = 1, BitVec.ofNat 64 (v 2), BitVec.ofNat 64 (v 3), v 4, v 5, v 6⟩ h } else k
  | .y => if n < 16 then k.setY (BitVec.ofNat 4 n) (BitVec.ofNat 32 (v 0)) else k
  | .t => if n < 32 then
      k.setT (BitVec.ofNat 5 n) ⟨BitVec.ofNat 512 (num 2 512), if v 0 % 2 = 1 then .g else .c, ⟨BitVec.ofNat 256 (num 16 256), v 1 % 2 = 1⟩⟩ else k
  | .m => if n < 8 then k.setM (BitVec.ofNat 3 n) (BitVec.ofNat 512 (num 2 512)) else k

/-- Whether the C stream of a bank stands at an instruction boundary: it runs, and no wait of it holds values. -/
def Bank.atBoundary (k : Bank) : Bool := k.c.run = .running && k.pendTrap.isNone && (k.c.wait.map (fun w => decide (w.vals = []))).getD true

/-- A claim of a producer leaves the first place where it waits. -/
def Hank.withdraw (h : Hank) (core : Nat) : Hank :=
  { h with claims := h.claims.filter (fun c =>
      match c with
      | .stream n _ => n ≠ core
      | _ => true) }

/-- What a waiting C stream has entered is taken back, so that its instruction is left unexecuted: a claim, a message to a home
core, or an arrival at a join that has not opened (R289, R294, R300). -/
def State.withdraw (s : State) (b : BankId) : State :=
  let k := s.bank b
  match k.c.wait, k.binding with
  | some w, some c =>
    let hn := BitVec.ofNat 4 w.obj
    let num := coreNum b.core
    if w.tag = .hclaim then s.modBank b (fun k => k.setH hn ((k.getH hn).withdraw num))
    else if w.tag = .remoteHank then
      let s : State := { s with hub := s.hub.filter (fun m => !(m.job = c.job && m.jd = c.jd && m.jc = c.jc && m.src = num)) }
      (s.banks.filter (fun (q, v) => q ≠ b && v.binding.any (fun d => d.job = c.job && d.jd = c.jd && d.jc = c.jc))).foldl
        (fun s (q, _) => s.modBank q (fun k => k.setH hn ((k.getH hn).withdraw num))) s
    else if w.tag = .rdv then
      let id := BitVec.ofNat 6 w.obj
      let n := k.rdvCount .c id - 1
      let s := s.modJob c.job (fun j => { j with arrivals := j.arrivals.filter (fun a => !(a.id = w.obj && a.n = n && a.at = (c.jd, c.jc, c.jk) && a.kind = .c)) })
      s.modBank b (fun k => { k with rdvC := k.rdvC.set id.toNat n id.isLt })
    else s
  | _, _ => s

/-- Whether the C stream of a bank waits at a join that has opened: its instruction is over with its next issue. -/
def State.joinOpen (s : State) (b : BankId) : Bool :=
  let k := s.bank b
  match k.c.wait, k.binding, s.jobOf b with
  | some w, some c, some j => w.tag = .rdv
      && (j.arrivalOf w.obj (k.rdvCount .c (BitVec.ofNat 6 w.obj) - 1) (c.jd, c.jc, c.jk) .c).any (fun a => a.opened)
  | _, _, _ => false

/-- The same for the machine: a stream whose join has opened is about to complete it. -/
def State.boundaryOf (s : State) (b : BankId) : Bool := (s.bank b).atBoundary && !s.joinOpen b

/-- ECC_UNCORRECTED at the next instruction boundary of a bank's C stream. -/
def State.raiseEcc (s : State) (b : BankId) (struct detail : Nat) : State :=
  let k := s.bank b
  if s.boundaryOf b then (s.withdraw b).trapC b ⟨cECC_UNCORRECTED, 0, BitVec.ofNat 64 (struct + detail * 256)⟩ k.c.pc false else s

/-- Exactly `n` bytes that nothing determines. -/
def State.freeString (s : State) (which n : Nat) : List Byte := fitBytes n (Config.freeBytes s.tick which)

/-- The partition whose memory holds a physical address. -/
def State.ownerOf (s : State) (pa : Nat) : Option Part := (s.parts.map Prod.snd).find? (fun p => inRanges p.record pa 1)

/-- The record of a lost line in its partition's fault ring, once the ring has room (R380, R393). -/
def State.lineRecord (s : State) (pa : Nat) : State :=
  match s.ownerOf pa with
  | none => s.logDevice .modifiedLineLost [pa]
  | some p =>
    let n := p.record.partid
    let s := s.logPart n .modifiedLineLost [pa]
    if p.ringOn then (s.modPart n (fun p => { p with lost := p.lost ++ [(pa, s.dtc)] })).flushLost n (p.lost.length + 1) else s

/-- A modified line is lost: writes that wait in a cluster cache for it go, and what the stack holds shows. The model does
not say what that is (log entry 72). -/
def State.loseLine (s : State) (line : Nat) : State :=
  let pa := 128 * line
  let s : State := { s with pend := s.pend.filter (fun p => !(p.visible && overlap p.place p.data.length pa 128)) }
  (s.performWrite none pa (s.freeString 21 128) false).lineRecord pa

/-- An error in a merge buffer: the records of the index are withdrawn, and the owner's issuing stream holds the error. -/
def State.losePly (s : State) (op index : Nat) : State :=
  match s.ply.find? (fun o => o.id = op) with
  | none => s
  | some o =>
    let s : State := { s with ply := s.ply.map (fun (p : PlyOp) => if p.id = op then
      { p with out := p.out.map (fun l => l.filter (fun e => e.2.1 ≠ index)),
               members := p.members.map (fun m => { m with recs := m.recs.filter (fun e => e.1 ≠ index) }) } else p) }
    match o.members.find? (fun m => !o.red || m.c = o.owner) with
    | some m => s.modMember o.job m.c (fun k => { k with held := k.held ++ [⟨cECC_UNCORRECTED, 0, heldAux 2 m.ch m.xfer, 0⟩] })
    | none => s

/-- An error comes under a byte: a load under way whose instruction can no longer trap precisely has read it before (R233; log entry
91). -/
def State.markBad (s : State) (place : Nat) : State :=
  let late := fun (k : Bank) => k.outLoads.zipIdx.any (fun (l, i) => l.place ≤ place && place < l.place + l.size && !k.preciseAt l (k.outLoads.drop (i + 1)))
  let s := ((s.banks.filter (fun (_, k) => late k)).map Prod.fst).foldl State.returnLoads s
  { s with bad := union s.bad [place] }

/-- ECC_ERROR. -/
def execEccError (site : EccSite) (s : State) : Out :=
  .next (match site with
    | .bankState b struct detail =>
      if detail < eccCount struct ∧ s.boundaryOf b then (s.modBank b (fun k => k.lose struct detail s.free)).raiseEcc b struct detail else s
    | .register b file n =>
      if n < fileSize file ∧ s.boundaryOf b then (s.modBank b (fun k => k.loseReg file n s.free)).raiseEcc b eccRegister n else s
    | .spanReg b n =>
      if 16 ≤ n ∨ !s.boundaryOf b then s
      else (s.modBank b (fun k =>
        k.setB (BitVec.ofNat 4 n) { k.getB (BitVec.ofNat 4 n) with valid := false })).raiseEcc b eccSpan n
    | .instrMemory b kind =>
      if !s.boundaryOf b then s
      else (s.modBank b (fun k => k.setStream kind { k.stream kind with code := [] })).raiseEcc b eccInstr 0
    | .memory pa => if isDevMem pa then s.markBad pa else s
    | .scratchpad core off => if off < Config.spadBytes then s.markBad (spadPlace core off) else s
    | .cleanLine line => { s with l1 := s.l1.filter (fun l => l.line ≠ line) }
    | .modifiedLine line => if isDevMem (128 * line) then s.loseLine line else s
    | .plyBuffer op index => s.losePly op index
    | .heldAccess b path chan id addr => s.hold b ⟨cECC_UNCORRECTED, BitVec.ofNat 64 addr, heldAux path chan id, 0⟩)

/-! ### Failed cores (R397, R398) -/

def State.modHealth (s : State) (f : Health → Health) : State := { s with health := f s.health }

/-- A bank's job is aborted with ECC_UNCORRECTED, STRUCT 0x03, but not for a team that stands saved while its bank waits for
RELEASE (R397). -/
def State.abortEcc (s : State) (b : BankId) : State :=
  if (s.bank b).binding.isSome ∧ (s.jobOf b).elim true (fun j => j.banks.any (fun (q, _) => q = b)) then
    (s.modBank b (fun k => k.setTrapRegs ⟨cECC_UNCORRECTED, 0, 3⟩ k.c.pc)).abortJob b cECC_UNCORRECTED
  else s

/-- A bank of a failed core loses its state; what was under way in it is lost, so its job's abort need not wait. -/
def State.loseBank (s : State) (b : BankId) : State :=
  let k := s.bank b
  let s := (s.modBank b (fun k => { k with chan := Vector.replicate 8 Chan.reset, amons := [], outLoads := [] })).abortEcc b
  let s : State := { s with pend := s.pend.filter (fun p => p.visible || p.bank ≠ b) }
  s.setBank b { Bank.reset with binding := if (k.binding.bind (fun c => s.job c.job)).isSome then k.binding else none }

/-- A cluster retires: it leaves every partition once its running teams are aborted. -/
def State.retireCluster (s : State) (c : Nat) : State :=
  let bs := (s.banks.filter (fun (b, _) => clusterOf b.core = c)).map Prod.fst
  let s := bs.foldl State.abortEcc s
  let s : State := { s with parts := s.parts.map (fun (n, p) =>
    (n, { p with record := { p.record with clumask := p.record.clumask &&& ~~~(BitVec.ofNat 32 (2 ^ c)) } })) }
  (s.modHealth (fun h => { h with retired := union h.retired [c], replace := true })).logDevice .retire [c]

/-- CORE_FAILURE: the virtual core's number goes to a spare at the next dispatch; a fifth failure retires the cluster. -/
def execCoreFailure (core : Nat) (s : State) : Out :=
  let c := clusterOf core
  if 2048 ≤ core ∨ Config.coresPerCluster ≤ coreNum core ∨ s.health.retired.contains c ∨ s.health.failedCores.contains core then .next s
  else
    let n := (assocGet s.health.failures c).getD 0 + 1
    let s := s.modHealth (fun h => { h with failures := assocSet h.failures c n, failedCores := h.failedCores ++ [core] })
    let s := (s.loseBank ⟨core, 0⟩).loseBank ⟨core, 1⟩
    let s : State := { s with l1 := s.l1.filter (fun l => l.core ≠ core), tlb := s.tlb.filter (fun e => e.holder ≠ .core core),
                              invals := s.invals.filter (fun v => v.target ≠ .core core) }
    let s := s.performWrite none (spadPlace core 0) (s.freeString 20 Config.spadBytes) false
    .next (if Config.sparesPerCluster < n then s.retireCluster c else s)

/-- ROW_REPAIR: a stack bank uses a spare row; with its last one the module is to be replaced. -/
def execRowRepair (stack bank : Nat) (s : State) : Out :=
  let n := (assocGet s.health.rows (stack, bank)).getD 0 + 1
  if 8 ≤ stack ∨ Config.spareRows < n then .next s
  else .next (s.modHealth (fun h => { h with rows := assocSet h.rows (stack, bank) n, replace := h.replace || decide (n = Config.spareRows) }))

/-! ### Links (R395, R396, R398) -/

/-- One bit of the reflected CRC-32. -/
def crcBit (c : Nat) : Nat := if c % 2 = 1 then (c / 2) ^^^ 0xEDB88320 else c / 2
def crcByte (c : Nat) (b : Byte) : Nat := (List.range 8).foldl (fun c _ => crcBit c) (c ^^^ b.toNat)
/-- CRC-32 with the IEEE 802.3 polynomial. -/
def crc32 (bs : List Byte) : Nat := (bs.foldl crcByte 0xFFFFFFFF) ^^^ 0xFFFFFFFF

/-- Bytes 0 to 251 of a flit. -/
def flitBytes (f : Flit) : List Byte :=
  bytesOf 2 f.seq ++ bytesOf 2 f.ackseq ++ bytesOf 1 (f.ackv.toNat + 2 * f.nak.toNat) ++ bytesOf 1 f.vc ++ bytesOf 2 0 ++ fitBytes 244 f.payload

/-- The partner of a link, as the receiver of what leaves the device. -/
def linkPeer (link : Nat) : Nat := requester + 1 + link

/-- Sends a flit with its CRC. -/
def State.emitFlit (s : State) (link : Nat) (f : Flit) : State :=
  let bs := flitBytes f
  { s with outbox := s.outbox ++ [.plain (linkPeer link) 0 (some (bs ++ bytesOf 4 (crc32 bs))) 256] }

def State.link (s : State) (n : Nat) : LinkState := (assocGet s.links n).getD LinkState.reset
def State.setLink (s : State) (n : Nat) (l : LinkState) : State := { s with links := assocSet s.links n l }

/-- A flit of the window as it is sent: it acknowledges what has been received. -/
def LinkState.flit (l : LinkState) (seq : Nat) (payload : List Byte) : Flit := ⟨seq, l.lastGood, true, false, 0, payload, 0⟩

/-- XOR of two payloads. -/
def xorBytes (a b : List Byte) : List Byte := List.zipWith (· ^^^ ·) (fitBytes 244 a) (fitBytes 244 b)

/-- The parity group of a flit's entry in the window (R396). -/
def parityGroup (seq : Nat) : Nat := seq % 1024 / 16

/-- The parity entry of a flit's group; an empty entry counts as zero. -/
def LinkState.parityOf (l : LinkState) (seq : Nat) : List Byte := (assocGet l.parity (parityGroup seq)).getD (List.replicate 244 0)

/-- Parity is updated as an entry enters or leaves (R396). -/
def LinkState.toggle (l : LinkState) (seq : Nat) (payload : List Byte) : LinkState :=
  { l with parity := assocSet l.parity (parityGroup seq) (xorBytes (l.parityOf seq) payload) }

/-- An entry rebuilt from the parity of its group and the other entries of the group. -/
def LinkState.rebuild (l : LinkState) (seq : Nat) : List Byte :=
  (l.window.filter (fun (n, _) => n ≠ seq && parityGroup n = parityGroup seq)).foldl (fun a (_, p, _) => xorBytes a p) (l.parityOf seq)

/-- Entries leave the window. -/
def LinkState.leave (l : LinkState) (out : List (Nat × List Byte × Option Carried)) : LinkState :=
  { out.foldl (fun l (n, p, _) => l.toggle n p) l with window := l.window.filter (fun e => !out.any (fun q => q.1 = e.1)) }

/-- Sends a payload; at most 1,024 flits are unacknowledged. -/
def State.sendFlit (s : State) (link : Nat) (payload : List Byte) (carried : Option Carried) : State :=
  let l := s.link link
  if 16 ≤ link ∨ l.version.isNone ∨ 1024 ≤ l.window.length then s
  else
    (s.setLink link { l.toggle l.sendNext payload with window := l.window ++ [(l.sendNext, payload, carried)], sendNext := (l.sendNext + 1) % 65536 }).emitFlit
      link (l.flit l.sendNext payload)

/-- Distance from one sequence number to a later one. -/
def seqDist (a b : Nat) : Nat := (b + 65536 - a % 65536) % 65536

/-- Every flit up to an acknowledged one leaves the window. -/
def LinkState.acked (l : LinkState) (seq : Nat) : LinkState :=
  if l.window.any (fun e => e.1 = seq) then l.leave (l.window.takeWhile (fun e => e.1 ≠ seq) ++ l.window.filter (fun e => e.1 = seq)) else l

def hourNs : Nat := 3600000000000

/-- A retrain is counted; more than 16 in one hour ask for replacement (R398). -/
def State.noteRetrain (s : State) (link : Nat) : State :=
  let l := s.link link
  let ts := l.retrains ++ [s.dtc]
  let s := (s.setLink link { l with retrains := ts }).logDevice .retrain [link]
  s.modHealth (fun h => { h with replace := h.replace || decide (16 < (ts.filter (fun t => s.dtc < t + hourNs)).length) })

/-- What the loss of a flit does to the access that it carries: a transfer under way faults with a held FAULT_ENGINE (R396). An
access of the C path that meets a link down faults when it is made (log entry 12). -/
def State.loseFlit (s : State) (c : Option Carried) : State :=
  match c with
  | none => s
  | some c => if ((s.bank c.bank).findXfer c.ch c.id).isSome then s.failTransfer c.bank c.ch c.id c.addr (.xlat ⟨7, 5, false⟩) else s

/-- Replay of the window: an entry that fails its own CRC is rebuilt from the parity of its group of 16, and two in one
group make the link retrain and lose the flits from the first failed one on, with the accesses that they carry. Which entries fail is
a free choice. -/
def State.replay (s : State) (link : Nat) : State :=
  let l := s.link link
  let failed := fun (e : Nat × List Byte × Option Carried) => s.pick 12 link e.1 0 % 2 = 1
  let fails := l.window.filter (fun e => failed e)
  let twice := fails.filter (fun e => fails.any (fun q => q.1 ≠ e.1 && parityGroup q.1 = parityGroup e.1))
  let send := fun (s : State) (e : Nat × List Byte × Option Carried) =>
    s.emitFlit link (l.flit e.1 (if failed e then l.rebuild e.1 else e.2.1))
  match twice with
  | [] => l.window.foldl send s
  | e :: _ =>
    let kept := l.window.takeWhile (fun q => q.1 ≠ e.1)
    let gone := l.window.dropWhile (fun q => q.1 ≠ e.1)
    let s := (kept.foldl send (s.setLink link { l.leave gone with sendNext := e.1 })).noteRetrain link
    gone.foldl (fun s q => s.loseFlit q.2.2) s

/-- What a received flit says about flits sent: the acknowledged ones leave, and a NAK replays the rest. -/
def State.heedAck (s : State) (link : Nat) (f : Flit) : State :=
  let s := if f.ackv || f.nak then s.setLink link ((s.link link).acked f.ackseq) else s
  if f.nak then s.replay link else s

/-- LINK_FLIT: a flit with a wrong CRC is discarded and answered with NAK and the last good SEQ. What any other says of the flits sent
is heeded; out of order it is discarded, with a NAK unless it is one itself (log entry 104). -/
def execLinkFlit (link : Nat) (f : Flit) (s : State) : Out :=
  let l := s.link link
  let nak : Flit := ⟨0, l.lastGood, true, true, 0, [], 0⟩
  if 16 ≤ link ∨ l.version.isNone then .next s
  else if f.crc ≠ crc32 (flitBytes f) then .next (s.emitFlit link nak)
  else
    let s := s.heedAck link f
    if f.seq ≠ (l.lastGood + 1) % 65536 then .next (if f.nak then s else s.emitFlit link nak)
    else
      let q := s.link link
      .next ((s.setLink link { q with lastGood := f.seq, delivered := q.delivered ++ [f.payload] }).emitFlit link ⟨0, f.seq, true, false, 0, [], 0⟩)

/-- LINK_TRAINING: version 1.0 with a partner of the same major version, else a refusal that names both; training a link
that was up counts as a retrain. -/
def execLinkTraining (link vmaj vmin : Nat) (s : State) : Out :=
  let l := s.link link
  let s := if link < 16 && l.version.isSome then s.noteRetrain link else s
  let l := s.link link
  if 16 ≤ link then .next s
  else if vmaj ≠ 1 then .next ((s.setLink link { l with version := none }).logDevice .refuseVersion [link, 1, 0, vmaj, vmin])
  else .next (s.setLink link { l with version := some (1, min 0 vmin), sendNext := 0, window := [], parity := [], lastGood := 65535 })

/-! ### Power and cooling (R405) -/

/-- Whether a level's trigger is met: watts, and tenths of a degree. -/
def throttleTrigger (level power temp : Nat) : Bool :=
  (level = 1 && (3000 < power || 950 ≤ temp)) || (level = 2 && 1000 ≤ temp) || (level = 3 && 1050 ≤ temp)

/-- The levels whose triggers the sensors show now were met at the given time. -/
def Health.noteTriggers (h : Health) (now : Nat) : Health :=
  { h with met := ([1, 2, 3].filter (fun l => throttleTrigger l h.power h.temp)).foldl (fun m l => assocSet m l now) h.met }

/-- The sensors read package power and hottest junction (R406); what they read before held until now. -/
def State.sense (s : State) (power temp : Nat) : State :=
  s.modHealth (fun h => ({ h.noteTriggers s.dtc with power := power, temp := temp }).noteTriggers s.dtc)

/-- THROTTLE_ENTER: a level is entered whose trigger is met; one below the present level is noted. -/
def execThrottleEnter (level power temp : Nat) (s : State) : Out :=
  if throttleTrigger level power temp then .next ((s.sense power temp).modHealth (fun h => { h with level := max h.level level })) else .next s

/-- Nanoseconds below its triggers after which a level is left (R405). -/
def throttleNs : Nat := 10000000

/-- THROTTLE_EXIT: the level named is left for the one below, once neither of its triggers has been met for 10 ms. -/
def execThrottleExit (level : Nat) (s : State) : Out :=
  let h := s.health.noteTriggers s.dtc
  if level ≠ 0 ∧ h.level = level ∧ ((assocGet h.met level).getD 0) + throttleNs ≤ s.dtc
  then .next (s.modHealth (fun _ => { h with level := level - 1 })) else .next s

/-- THERMAL_SHUTDOWN: the event is logged and the state is lost. -/
def execThermalShutdown (temp : Nat) (s : State) : Out :=
  if temp < 1150 then .next s
  else .next ((s.resetDevice.modHealth (fun h => { h with off := true, temp := temp })).logDevice .thermal [temp])

/-! ### Live migration (R400 to R402) -/

/-- MIGRATION_KEY_SUPPLY. -/
def execMigrationKeySupply (part : Nat) (key : List Byte) (s : State) : Out :=
  if key.length ≠ 32 then .next s else .next (s.modMig part (fun m => { m with key := some key }))

/-- A granule is applied when its ROUND is at least the last one applied to it; the answer says whether it is to be
acknowledged. -/
def State.applyGranule (s : State) (part : Nat) (r : PartRec) (p : MigPacket) (bs : List Byte) : State × Bool :=
  match s.part part with
  | none => (s, false)
  | some q =>
    if ((assocGet q.mig.applied p.addr).map (fun n => decide (p.round < n))).getD false then (s, true)
    else
      match writeVA true [.mem] part (r.lcasid.getD 0 0) (bs.length / 8 + 2) s p.addr bs with
      | .ok s => (s.modMig part (fun m => { m with applied := assocSet m.applied p.addr p.round }), true)
      | .error (a, f) => (s.logAccess part (r.lcasid.getD 0 0) a f, false)

/-- The payloads of a kind laid end to end from offset `off`. -/
def assemble (l : List MigPacket) (kind : Nat) : Nat → Nat → List Byte
  | 0, _ => []
  | fuel + 1, off =>
    match l.find? (fun p => p.kind = kind && p.addr = off && p.length ≠ 0) with
    | some p => p.sealed ++ assemble l kind fuel (off + p.length)
    | none => []

/-- A span with the partition of its new device (R346). -/
def repart (part : Nat) (v : BitVec 256) : BitVec 256 := v &&& ~~~(BitVec.ofNat 256 (15 * 2 ^ 176)) ||| BitVec.ofNat 256 (part * 2 ^ 176)

def SpanReg.moved (r : SpanReg) (part : Nat) : SpanReg := if r.valid then { r with bits := repart part r.bits } else r

/-- A bank that has come from another device: PART is rewritten in every valid span register (R346). -/
def Bank.moved (k : Bank) (part : Nat) : Bank :=
  { k with b := k.b.map (fun r => r.moved part), codeC := k.codeC.moved part, codeG := k.codeG.moved part }

/-- A tagged span-store granule of a moved job: PART is rewritten, and the tag set (R346). -/
def State.moveGranule (s : State) (part asid va : Nat) : State :=
  match s.reachVA [.mem] part asid va true with
  | .ok (.place pa _, s) =>
    let v := BitVec.ofNat 256 (s.readNum pa 32)
    { (s.landHome pa 32).performWrite none pa (bytesOf 32 (repart part v).toNat) false with tags := union s.tags [pa / 32] }
  | _ => s

/-- A region of a moved job: the same handle, over the pages that its addresses have here (R276). Another job's region with that
context is dropped, and a page with no translation here stands at physical address 0: DESIGN CHOICE, log entry 14. -/
def State.moveRegion (s : State) (part job : Nat) (r : AttarRegion) : State :=
  let pages := (List.range r.pages.length).map (fun i => ((s.imageTr part r.asid (r.va + 4096 * i)).map Prod.fst).getD 0)
  { s with regions := s.regions.filter (fun q => !(q.stack = r.stack && q.index = r.index)) ++ [{ r with part := part, job := job, pages := pages }] }

/-- The Ply operations that a moved bank's transfers and its hanks' claims name have new numbers, from `base` on. -/
def Bank.rebased (k : Bank) (base : Nat) : Bank :=
  { k with
    chan := k.chan.map (fun (c : Chan) => { c with xfers := c.xfers.map (fun (t : Xfer) =>
      match t.cmd with
      | .ply op => { t with cmd := .ply (base + op) }
      | _ => t) }),
    h := k.h.map (fun (h : Hank) => { h with claims := h.claims.map (fun q =>
      match q with
      | .ply op => .ply (base + op)
      | q => q) }) }

/-- A team's save arrives: it is placed in the job's save area, and its banks are those that its bytes give (R389, R402); one that
does not pass the tests of R391, a save of another major version among them (R20), gives none, and its RESUME is refused. -/
def State.moveTeam (s : State) (j : Job) (jd jc base : Nat) (bs : List Byte) : State :=
  let h := bs.take 64
  let va := saveAddr j.qrec.lrec jd jc
  let asid := s.jobAsid j
  let s := s.writeOrLog [.mem] j.part asid va bs
  let cores := match checkSave h (bs.drop 64) with
    | .ok rs => rs.zipIdx.map (fun (r, jk) =>
      let (n, k) := s.savedCore j ⟨j.id, j.part, jd, jc, jk⟩ r
      (jk, n, (k.moved j.part).rebased base))
    | .error _ => []
  let n := s.nextSave
  let s : State := { s with saves := s.saves ++ [⟨n, va, j.part, asid, j.id, leField h 6 1, cores, (h.drop 32).take 32⟩], nextSave := n + 1 }
  s.modJob j.id (fun j => { j with saved := j.saved ++ [⟨jd, jc, leField h 6 1, n, true, n⟩] })

/-- The highest of some numbers, and one more. -/
def nextOf (l : List Nat) : Nat := l.foldl (fun m n => max m (n + 1)) 0

/-- The messages, joins, Ply operations and queries of a moved job, with numbers that are free here. -/
def State.moveWork (s : State) (part : Nat) (m : MigJob) (dies : List Nat) : State :=
  let die := fun (r : Nat) => dies.getD r 0
  { s with
    hub := s.hub ++ m.hub.map (fun (q : HubMsg) => { q with id := s.nextMsg + q.id }),
    spindle := s.spindle ++ m.spindle.map (fun (q : SpindleMsg) => { q with id := s.nextMsg + q.id }),
    nextMsg := s.nextMsg + nextOf (m.hub.map (·.id) ++ m.spindle.map (·.id)),
    roots := s.roots ++ m.roots.map (fun (r : RootRec) => { r with dies := r.dies.map die }),
    routeTags := s.routeTags ++ m.routeTags.map (fun (t : TagUse) => { t with dies := t.dies.map die }),
    ply := s.ply ++ m.ply.map (fun (o : PlyOp) => { o with
      id := s.nextPly + o.id, members := o.members.map (fun (q : PlyMember) => { q with span := q.span.moved part }) }),
    nextPly := s.nextPly + nextOf (m.ply.map (·.id)), scans := s.scans ++ m.scans }

/-- The dies of a partition that a moved job gets: the first that hold its shape and have Distaff contexts free for it; none while
too few do (R318). -/
def State.diesFor (s : State) (p : Part) (r : LaunchRec) : Option (List Nat) :=
  let (nd, ncl, _) := shapeOf r.shape
  let l := (List.range 4).filter (fun d => ncl ≤ clustersOn p.record d && s.distaffUsed d + r.dcount ≤ Config.distaffPerDie)
  if nd ≤ l.length then some (l.take nd) else none

/-- The target makes the job once its metadata and its saves are here (R402): every team stands saved and runnable, on the first
dies of the partition that hold its shape; its Distaff contexts, event bits, regions, tagged granules, what its banks wait on and
its records at their dispatch points are here (log entry 14). None while the job's dies have no room: the packet then is not
acknowledged, and comes again (R401). -/
def State.migInstall (s : State) (part : Nat) : Option State :=
  match s.part part with
  | none => some s
  | some p =>
    let session := (p.mig.received.getLast?.map (fun q => q.session)).getD 0
    let here := p.mig.received.filter (fun q => q.session = session)
    let get := fun (kind : Nat) => assemble here kind (here.length + 1) 0
    match readMig (get 2) with
    | none => some s
    | some m =>
      let body := get 1
      if body.length ≠ m.bytes ∨ m.id = 0 ∨ (s.job m.id).isSome then some s
      else (s.diesFor p m.qrec.lrec).map (fun dies =>
        let asid := p.record.lcasid.getD m.qrec.lrec.ctx 0
        let j : Job :=
          { id := m.id, part := part, qrec := m.qrec, dies := dies, evbits := m.evbits, banks := [], started := true, aborted := none,
            arrivals := m.arrivals, distaff := m.distaff.map (fun ((d, c), x) => ((dies.getD d 0, c), x)), saved := [], teams := [], stalledAt := none }
        let base := s.nextPly
        let s : State := { s.moveWork part m dies with jobs := s.jobs ++ [j] }
        let s := m.teams.foldl (fun s (jd, jc, off, n) => s.moveTeam j jd jc base ((body.drop off).take n)) s
        let s := m.regions.foldl (fun s r => s.moveRegion part m.id r) s
        let s := m.tags.foldl (fun s va => s.moveGranule part asid va) s
        let s := m.evbits.foldl (fun s (ctx, bit) => s.setEvents part ctx (s.events part ctx ||| 2 ^ bit)) s
        { s with nextSave := s.nextSave + 1 }.modPart part (fun p => { p with
          queue := p.queue ++ m.queue.zipIdx.map (fun ((r : QRec), i) => { r with arrival := p.arrival + 1 + i, rot := s.nextSave }),
          arrival := p.arrival + m.queue.length, mig := { p.mig with received := [], state := migDone } }))

/-- MIGRATION_PACKET: a packet whose tag fails is discarded without acknowledgement. -/
def execMigrationPacket (part : Nat) (p : MigPacket) (s : State) : Out :=
  match s.part part with
  | none => .next s
  | some q =>
    match q.mig.key.bind (fun k => Config.gcmOpen k p.iv p.header p.sealed) with
    | none => .next s
    | some bs =>
      if bs.length ≠ p.length ∨ 4096 < p.length then .next s
      else
        let ack := fun (s : State) => s.modMig part (fun m => { m with acks := m.acks ++ [p.counter] })
        if p.kind = 0 then
          let (s, done) := s.applyGranule part q.record p bs
          .next (if done then ack s else s)
        else
          match (ack (s.modMig part (fun m => { m with received := m.received ++ [{ p with sealed := bs }] }))).migInstall part with
          | some s => .next s
          | none => .next s

/-- The job is released on the source: it leaves with its records at their dispatch points and the event bits that it set. -/
def State.migRelease (s : State) (part job : Nat) : State :=
  match s.job job with
  | none => s
  | some j =>
    let gone := ((s.part part).map (fun p => p.mig.sentBits)).getD []
    let s := gone.foldl (fun s (ctx, bit) => s.setEvents part ctx (andNot (s.events part ctx) (2 ^ bit))) (s.retireJob j)
    s.modPart part (fun p =>
      { p with queue := p.queue.filter (fun r => !p.recLeaving r), mig := { p.mig with state := migDone, sentRecs := [], sentBits := [] } })

/-- MIGRATION_ACKNOWLEDGE: acknowledged packets are not sent again; once everything is, the job is released. -/
def execMigrationAcknowledge (part : Nat) (counters : List Nat) (s : State) : Out :=
  let s := s.modMig part (fun m => { m with pending := m.pending.filter (fun p => !counters.contains p.counter) })
  match s.part part with
  | some p => .next (if p.mig.state = migSent ∧ p.mig.pending = [] then s.migRelease part p.mig.job else s)
  | none => .next s

end Sys2Proof.Machine
end

