-- ==== Sys2Proof/Machine/Agents.lean ====
section
/-! DEFINITION. Fetching an instruction (R22, R33), the scoreboard of outstanding loads (R221), the choice of the agent that moves next (log entry 1), and the turns that are not events of the opcode table. -/
namespace Sys2Proof.Machine

def srcX : Src → List (BitVec 6)
  | .reg n => [n]
  | .queue .. => []
def dstX : Dst → List (BitVec 6)
  | .reg n => [n]
  | .queue .. => []

/-- The x registers that a C-stream instruction names: one that is still to be loaded holds the instruction back
(R221). -/
def xRegs : Instr → List (BitVec 6)
  | .add _ rd ra rb => dstX rd ++ srcX ra ++ srcX rb
  | .sub _ rd ra rb => dstX rd ++ srcX ra ++ srcX rb
  | .mul _ rd ra rb => dstX rd ++ srcX ra ++ srcX rb
  | .mulhS _ rd ra rb => dstX rd ++ srcX ra ++ srcX rb
  | .mulhN _ rd ra rb => dstX rd ++ srcX ra ++ srcX rb
  | .divS _ rd ra rb => dstX rd ++ srcX ra ++ srcX rb
  | .divN _ rd ra rb => dstX rd ++ srcX ra ++ srcX rb
  | .remS _ rd ra rb => dstX rd ++ srcX ra ++ srcX rb
  | .remN _ rd ra rb => dstX rd ++ srcX ra ++ srcX rb
  | .and _ rd ra rb => dstX rd ++ srcX ra ++ srcX rb
  | .or _ rd ra rb => dstX rd ++ srcX ra ++ srcX rb
  | .xor _ rd ra rb => dstX rd ++ srcX ra ++ srcX rb
  | .andn _ rd ra rb => dstX rd ++ srcX ra ++ srcX rb
  | .shl _ rd ra rb => dstX rd ++ srcX ra ++ srcX rb
  | .shr _ rd ra rb => dstX rd ++ srcX ra ++ srcX rb
  | .sra _ rd ra rb => dstX rd ++ srcX ra ++ srcX rb
  | .rol _ rd ra rb => dstX rd ++ srcX ra ++ srcX rb
  | .minS _ rd ra rb => dstX rd ++ srcX ra ++ srcX rb
  | .minN _ rd ra rb => dstX rd ++ srcX ra ++ srcX rb
  | .maxS _ rd ra rb => dstX rd ++ srcX ra ++ srcX rb
  | .maxN _ rd ra rb => dstX rd ++ srcX ra ++ srcX rb
  | .clz _ rd ra => dstX rd ++ srcX ra
  | .ctz _ rd ra => dstX rd ++ srcX ra
  | .popc _ rd ra => dstX rd ++ srcX ra
  | .bswap _ rd ra => dstX rd ++ srcX ra
  | .extr _ rd ra _ _ => dstX rd ++ srcX ra
  | .ins _ rd ra _ _ => [rd] ++ srcX ra
  | .sext _ rd ra _ => dstX rd ++ srcX ra
  | .zext _ rd ra _ => dstX rd ++ srcX ra
  | .addi _ rd ra _ => dstX rd ++ srcX ra
  | .andi _ rd ra _ => dstX rd ++ srcX ra
  | .ori _ rd ra _ => dstX rd ++ srcX ra
  | .xori _ rd ra _ => dstX rd ++ srcX ra
  | .shli _ rd ra _ => dstX rd ++ srcX ra
  | .shri _ rd ra _ => dstX rd ++ srcX ra
  | .srai _ rd ra _ => dstX rd ++ srcX ra
  | .movi _ rd _ => dstX rd
  | .movhi _ rd _ => [rd]
  | .cmpi _ _ _ ra _ => srcX ra
  | .cmp _ _ _ ra rb => srcX ra ++ srcX rb
  | .sel _ rd ra rb _ => dstX rd ++ srcX ra ++ srcX rb
  | .fadd _ _ rd ra rb => dstX rd ++ srcX ra ++ srcX rb
  | .fsub _ _ rd ra rb => dstX rd ++ srcX ra ++ srcX rb
  | .fmul _ _ rd ra rb => dstX rd ++ srcX ra ++ srcX rb
  | .fma _ _ rd ra rb => [rd] ++ srcX ra ++ srcX rb
  | .fmin _ rd ra rb => dstX rd ++ srcX ra ++ srcX rb
  | .fmax _ rd ra rb => dstX rd ++ srcX ra ++ srcX rb
  | .fcmp _ _ _ ra rb => srcX ra ++ srcX rb
  | .fcvt _ _ _ rd ra => dstX rd ++ srcX ra
  | .bc _ _ ra rb _ => srcX ra ++ srcX rb
  | .call _ rl _ => [rl]
  | .loop _ _ ra rb _ => srcX ra ++ srcX rb
  | .jr _ ra => srcX ra
  | .callr _ ra rl => srcX ra ++ [rl]
  | .ret _ ra => srcX ra
  | .ld _ _ rd m => dstX rd ++ [m.xi]
  | .ldSigned _ _ rd m => dstX rd ++ [m.xi]
  | .st _ _ rs m => srcX rs ++ [m.xi]
  | .lda _ _ _ rd m => dstX rd ++ [m.xi]
  | .stl _ _ _ rs m => srcX rs ++ [m.xi]
  | .ldp _ rd m => [rd, rd + 1] ++ [m.xi]
  | .stp _ rs m => [rs, rs + 1] ++ [m.xi]
  | .pref _ m => [m.xi]
  | .flush _ _ m => [m.xi]
  | .waita _ _ _ _ rd m rs2 rs3 => dstX rd ++ [m.xi] ++ srcX rs2 ++ srcX rs3
  | .amo _ _ _ _ _ rd m rs2 => dstX rd ++ [m.xi] ++ srcX rs2
  | .amoB _ _ _ _ _ rd m rs2 => dstX rd ++ [m.xi] ++ srcX rs2
  | .amoN _ _ _ _ _ rd m rs2 => dstX rd ++ [m.xi] ++ srcX rs2
  | .amon _ _ _ _ _ m rs2 => [m.xi] ++ srcX rs2
  | .amonB _ _ _ _ _ m rs2 => [m.xi] ++ srcX rs2
  | .amonN _ _ _ _ _ m rs2 => [m.xi] ++ srcX rs2
  | .cas _ _ _ _ rd m rs2 rs3 => dstX rd ++ [m.xi] ++ srcX rs2 ++ srcX rs3
  | .casB _ _ _ _ rd m rs2 rs3 => dstX rd ++ [m.xi] ++ srcX rs2 ++ srcX rs3
  | .tdef _ _ m => [m.xi]
  | .tld _ _ m => [m.xi]
  | .tst _ _ m => [m.xi]
  | .mld _ _ m => [m.xi]
  | .mst _ _ m => [m.xi]
  | .tset _ _ ra _ => srcX ra
  | .tget _ rd _ _ => dstX rd
  | .bfset _ _ ra => srcX ra
  | .map _ _ ra _ _ => srcX ra
  | .mapTile _ _ ra => srcX ra
  | .mchk _ _ rx _ => dstX rx
  | .copy _ _ _ cvr _ _ _ rx ry rz _ => [cvr] ++ dstX rx ++ srcX ry ++ srcX rz
  | .tcopy _ _ _ _ _ _ _ _ rx => dstX rx
  | .mcast _ _ _ cvr _ _ _ rx ry rz _ => [cvr] ++ dstX rx ++ srcX ry ++ srcX rz
  | .plysort _ _ rx ry rz _ => dstX rx ++ srcX ry ++ srcX rz
  | .plysend _ _ _ rx ry rz _ _ _ => dstX rx ++ srcX ry ++ srcX rz
  | .plyred _ _ _ _ rx ry rz _ => dstX rx ++ srcX ry ++ srcX rz
  | .cpwait _ _ rd ra => dstX rd ++ srcX ra
  | .cpstatNext _ _ rd => dstX rd
  | .cpstatBusy _ _ rd => dstX rd
  | .plystat _ _ rd => dstX rd
  | .plystatClr _ _ rd => dstX rd
  | .areg _ _ rx ry rz _ _ _ => dstX rx ++ srcX ry ++ srcX rz
  | .aregFree _ ry => srcX ry
  | .aqpost _ _ rx ry rz hr _ => dstX rx ++ srcX ry ++ srcX rz ++ [hr]
  | .aqwait _ rx cr ry => dstX rx ++ [cr] ++ srcX ry
  | .aappend _ _ rx ry hr => dstX rx ++ srcX ry ++ [hr]
  | .acommit _ rx ry hr => dstX rx ++ srcX ry ++ [hr]
  | .qpush _ _ ra => srcX ra
  | .qpop _ rd _ => [rd]
  | .qpeek _ rd _ => [rd]
  | .qpeekCnt _ rd _ => [rd]
  | .flwait _ rd ra _ _ => [rd] ++ [ra]
  | .hbind _ _ ra => [ra]
  | .hclaim _ _ rd ra => [rd] ++ [ra]
  | .hclaimR _ _ rd ra _ => [rd] ++ [ra]
  | .hcommit _ _ ra rb => [ra] ++ [rb]
  | .hcommitR _ _ ra rb _ => [ra] ++ [rb]
  | .hwaitf _ _ rd ra => [rd] ++ [ra]
  | .hwaite _ _ rd ra => [rd] ++ [ra]
  | .htake _ _ rd ra => [rd] ++ [ra]
  | .hdone _ _ ra => [ra]
  | .evwait _ rd rb _ _ => [rd] ++ [rb]
  | .dinit _ _ _ ra rb => srcX ra ++ srcX rb
  | .dclaim _ rd _ _ => dstX rd
  | .launch _ rd m => [rd] ++ [m.xi]
  | .spmint _ _ ra => [ra, ra + 1, ra + 2, ra + 3]
  | .spnarrow _ _ _ rb _ => srcX rb
  | .spoff _ _ _ rb => srcX rb
  | .spget _ rd _ _ => dstX rd
  | .spld _ _ m => [m.xi]
  | .spst _ _ m => [m.xi]
  | .ovld _ rd ra rb => dstX rd ++ srcX ra ++ srcX rb
  | .ovldG _ ra rb => srcX ra ++ srcX rb
  | .tlbinvPage _ ra _ => srcX ra
  | .srd _ rd _ => dstX rd
  | .swr _ _ ra => srcX ra
  | .srx _ rd _ ra => dstX rd ++ srcX ra
  | _ => []

/-- The queue that a load's destination slot pushes: a later push of it keeps its place behind the load (R28). -/
def loadTouches (l : OutLoad) (regs : List (BitVec 6)) : Bool :=
  match l.dst with
  | .reg n => (n ≠ 0 && regs.contains n) || (l.pair && regs.contains (n + 1))
  | .queue _ => true

/-- Words of the loaded extent from the PC on (R33, R343). -/
def Stream.ahead (t : Stream) : List Nat := t.code.drop (t.pc.toNat / 8)

/-- Whether the streams of a bank may issue: its core runs it (R277), and it neither drains nor is halted. -/
def State.issues (s : State) (b : BankId) : Bool :=
  let k := s.bank b
  (s.core b.core).running = b.bank && k.drain = .none && k.halted.isNone && k.pendTrap.isNone
    && !s.health.failedCores.contains b.core

/-- What fetching gives: nothing to issue now, a trap of decoding taken, or an instruction to run. -/
inductive Fetched where
  | idle
  | trapped (s : State)
  | run (i : Instr) (s : State)

/-- Fetches and decodes the next instruction of a stream (R33); a misaligned PC never fetches (R22). An older load that stands on an
error traps first (R233). -/
def State.fetch (s : State) (i : StreamId) : Fetched :=
  let k := s.bank i.bank
  let t := k.stream i.kind
  if !s.issues i.bank ∨ t.run ≠ .running ∨ t.pc.toNat % 8 ≠ 0 then .idle
  else
    match if i.kind = .c then s.loadsEcc i.bank k.outLoads else none with
    | some s => .trapped s
    | none =>
      match decode i.kind (i.kind = .c && k.priv) t.pc.toNat t.ahead with
      | .trap cause v a =>
        let ti : TrapInfo := ⟨cause, BitVec.ofNat 64 v, BitVec.ofNat 64 a⟩
        match i.kind with
        | .c => .trapped (s.trapC i.bank ti t.pc false)
        | .g => .trapped (finishG i.bank 0 t.pc (.trap s ti))
      | .ok ins _ =>
        if i.kind = .c && k.outLoads.any (fun l => loadTouches l (xRegs ins)) then .idle
        else .run ins { s with cur := i }

/-- Whether a constructor of `Instr` is an event: it has no encoding. -/
def isEvent (i : Instr) : Bool := (encode i).isNone

/-- The events that may end a wait of a stream. -/
def waitTurns (i : StreamId) (w : Wait) : List Turn :=
  let b := i.bank
  match w.tag with
  | .pop | .push => [.event (.queueWake i)]
  | .flag => [.event (.flagWaitWake i), .event (.waitDeadline b)]
  | .gidle => [.event (.gidleWake b)]
  | .waita => [.event (.waitaWake b), .event (.waitDeadline b)]
  | .hclaim | .hwait | .hbind => [.event (.hankWaitWake b)]
  | .cpwait | .channel => [.event (.cpwaitWake b)]
  | .aqwait | .querySlot => [.event (.aqwaitWake b)]
  | .attarReply => [.event (.attarStackReply b)]
  | .fenceP | .access => [.event (.fencePComplete b)]
  | .tensorOwner => [.event (.tensorOwnerWake b)]
  | .gridOwner | .gridGo | .gridPlace => [.event (.gridIssue b)]
  | .evwait => [.event (.evwaitWake b), .event (.waitDeadline b)]
  | .launchSlot => [.event (.launchSlotWake b)]
  | .dirtyctl => [.event (.dirtyctlWrite b)]
  | .rdv | .ovldG | .tlb | .ctxbank | .loads | .gdrain | .remoteHank | .ended => []

/-- Turns that may come next in a bank. -/
def bankTurns (b : BankId) (k : Bank) : List Turn :=
  [.issue ⟨b, .c⟩, .issue ⟨b, .g⟩]
    ++ k.outLoads.map (fun l => .event (.loadReturn b l.id)) ++ k.amons.map (fun a => .event (.amonPerform b a.id))
    ++ k.grid.map (fun o => .gridWork b o.seq 1) ++ k.grid.map (fun o => .event (.gridComplete b o.seq))
    ++ ([0, 1, 2, 3, 4, 5, 6, 7] : List (BitVec 3)).flatMap (fun c =>
        (k.getChan c).xfers.flatMap (fun x => [.copyWork b c x.id 1, .event (.transferComplete b c x.id)]))
    ++ (if k.pendTrap.isSome then [.event (.ringTrap b)] else [])
    ++ (match k.drain with
        | .none | .parked => []
        | .fault | .halt | .answer => [.event (.bankSwitch b.core)]
        | .ctxbank => [.event (.ctxbankWrite b)]
        | .preempt => [])
    ++ (if k.preemptAt.isSome then [.event (.preemptDrainExpiry b)] else [])
    ++ (k.c.wait.toList.flatMap (waitTurns ⟨b, .c⟩)) ++ (k.g.wait.toList.flatMap (waitTurns ⟨b, .g⟩))

/-- The joins of a job that some stream has reached. -/
def joinTurns (j : Job) : List Turn := j.arrivals.zipIdx.map (fun (a, i) => .event (.rdvOpen j.id a.id a.n i))

/-- Turns of a job and of the scheduler for it. -/
def jobTurns (j : Job) : List Turn :=
  [.event (.jobComplete j.id), .event (.sillageRecord j.id)] ++ joinTurns j
    ++ j.teams.flatMap (fun t => [.event (.quantumBoundary j.id t.jd t.jc), .event (.longWaitSwap j.id t.jd t.jc)])
    ++ j.saved.map (fun t => .event (.wakeSourceFire j.id t.jd t.jc))

/-- Turns of the memory system and of the units between cores. -/
def systemTurns (s : State) : List Turn :=
  s.pend.map (fun p => .event (.weakStorePerform p.id)) ++ s.pend.map (fun p => .reach p.id)
    ++ s.l1.map (fun l => .evictL1 l.core l.line) ++ (List.range s.tlb.length).map .evictTlb
    ++ s.hub.map (fun m => .event (.hankRemoteMessage m.id))
    ++ s.spindle.map (fun m => .event (match m.body with
        | .hash .. => .hashMessage m.id
        | .go _ => .goMessage m.id
        | .stop _ => .stopMessage m.id
        | .opnd _ => .opndMessage m.id
        | .node _ => .nodeMessage m.id
        | .exact _ => .exactMessage m.id))
    ++ s.roots.map (fun r => .event (.routeTagGrant r.job))
    ++ s.ply.map (fun o => .event (.plySlotCommit o.id))
    ++ s.scans.flatMap (fun q =>
        match (s.job q.job).bind (fun j => j.bankOf q.c) with
        | some b => [.event (.attarSlotCommit b q.id)]
        | none => [])
    ++ s.invals.map (fun v => .event (.tlbAcknowledge v.target)) ++ s.jobs.flatMap jobTurns

/-- The turns among which an unwritten future chooses. -/
def State.candidates (s : State) : List Turn :=
  [.elapse 1, .sense (Config.free s.tick 31 % 2 ^ 16) (Config.free s.tick 32 % 1150)] ++ s.parts.map (fun (n, _) => .migResend n) ++ s.banks.flatMap (fun (b, k) => bankTurns b k) ++ systemTurns s

/-- The next turn: the head of the written list, or a free choice among the candidates when nothing is written. -/
def State.nextTurn (s : State) : Turn × State :=
  match s.turns with
  | t :: ts => (t, { s with turns := ts, tick := s.tick + 1 })
  | [] => (s.candidates.getD (Config.free s.tick 0 % s.candidates.length) (.elapse 1), { s with tick := s.tick + 1 })

/-- Sets a ring's place and size (R301). -/
def State.setRing (s : State) (part ctx : Nat) (dev : Bool) (base qlog2 : Nat) : State :=
  if base % 4096 ≠ 0 ∨ qlog2 < 4 ∨ 16 < qlog2 then s
  else s.modPart part (fun p =>
    if h : ctx < 16 then
      if dev then { p with devRings := p.devRings.set ctx ⟨base, qlog2, 0, 0⟩ h }
      else { p with hostRings := p.hostRings.set ctx ⟨base, qlog2, 0, 0⟩ h }
    else p)

/-- The turns that neither issue an instruction nor are an event of the table. -/
def State.plainTurn (s : State) : Turn → State
  | .elapse n => { s with dtc := (s.dtc + n) % 2 ^ 64 }
  | .reach id => s.reachStore id
  | .evictL1 core line => { s with l1 := s.l1.filter (fun l => !(l.core = core && l.line = line)) }
  | .evictTlb n => { s with tlb := s.tlb.eraseIdx n }
  | .conflict b e n =>
    if !s.issues b then s
    else s.modBank b (fun k => { k with conflicts := k.conflicts.set e.toNat (k.conflicts[e.toNat]'(e.isLt) + BitVec.ofNat 64 n) e.isLt })
  | .ringConfig part ctx dev base qlog2 => s.setRing part ctx dev base qlog2
  | .linkSend link payload carried => s.sendFlit link payload carried
  | .sense power temp => s.sense power temp
  | .migResend part => s.emitFrom part 0
  | .gridWork b seq n => s.gridTurn b seq n
  | .copyWork b ch id n => s.xferSteps n b ch id
  | .attarScan b qid row gran => s.attarScan b qid row gran
  | .issue _ | .event _ => s

/-- Whether a turn switches a device on that has shut down. -/
def Turn.powersOn : Turn → Bool
  | .event (.boot ..) => true
  | _ => false

/-- The state in which stream `i` of bank A of core 0 runs the words at PC 0, privileged when it is a C stream, and
nothing else has changed: what a load of a program from outside leaves (log entry 2). -/
def State.placeWords (s : State) (kind : StreamKind) (ws : List Nat) : State :=
  let i : StreamId := ⟨⟨0, 0⟩, kind⟩
  let s := s.modBank i.bank (fun k =>
    let k := { k with status := k.status ||| 1, drain := .none, halted := none, pendTrap := none, outLoads := [] }
    k.setStream kind { k.stream kind with pc := 0, wait := none, run := .running, code := ws })
  { s.modCore 0 (fun c => { c with running := 0 }) with turns := [.issue i] }

end Sys2Proof.Machine
end

