-- ==== Sys2Proof/Machine/ScalarFp.lean ====
section
/-! DEFINITION. The scalar FP32 instructions of the C stream (R182 to R185). -/
namespace Sys2Proof.Machine

/-- Two FP32 sources, a destination whose bits [63:32] become 0, and flags (R182). -/
def Bank.op2F (k : Bank) (rd : Dst) (ra rb : Src) (f : Nat → Nat → Nat × Nat) : Ev Bank := do
  dirs [ra, rb] [rd]
  let (a, k) ← k.readSrc ra
  let (b, k) ← k.readSrc rb
  let r := f (a.toNat % 2 ^ 32) (b.toNat % 2 ^ 32)
  let k ← k.writeDst rd (BitVec.ofNat 64 r.1)
  .ok (k.orFlags r.2)

def execFadd (g : Guard) (rnd : Rnd) (rd : Dst) (ra rb : Src) : State → Out := pureC g 1 (fun k => k.op2F rd ra rb (fAdd rnd))
def execFsub (g : Guard) (rnd : Rnd) (rd : Dst) (ra rb : Src) : State → Out := pureC g 1 (fun k => k.op2F rd ra rb (fSub rnd))
def execFmul (g : Guard) (rnd : Rnd) (rd : Dst) (ra rb : Src) : State → Out := pureC g 1 (fun k => k.op2F rd ra rb (fMul rnd))
/-- RD is also the addend (R183). -/
def execFma (g : Guard) (rnd : Rnd) (rd : BitVec 6) (ra rb : Src) : State → Out :=
  pureC g 1 (fun k => k.op2F (.reg rd) ra rb (fun a b => fFma rnd a b ((k.getX rd).toNat % 2 ^ 32)))
def execFmin (g : Guard) (rd : Dst) (ra rb : Src) : State → Out := pureC g 1 (fun k => k.op2F rd ra rb (fun a b => (f32Min a b, 0)))
def execFmax (g : Guard) (rd : Dst) (ra rb : Src) : State → Out := pureC g 1 (fun k => k.op2F rd ra rb (fun a b => (f32Max a b, 0)))
def execFcmp (g : Guard) (cc : FCond) (cd : BitVec 3) (ra rb : Src) : State → Out :=
  pureC g 1 (fun k => k.opC cd ra rb (fun a b => fcondHolds cc (a.toNat % 2 ^ 32) (b.toNat % 2 ^ 32)))
def execFcvt (g : Guard) (pair : FcvtPair) (rnd : Rnd) (rd : Dst) (ra : Src) : State → Out :=
  pureC g 1 (fun k => do
    dirs [ra] [rd]
    let (a, k) ← k.readSrc ra
    let r := fcvtValue pair rnd a
    let k ← k.writeDst rd r.1
    .ok (k.orFlags r.2))

end Sys2Proof.Machine
end

