-- ==== Sys2Proof/Machine/Dispatch.lean ====
section
/-! DEFINITION. The dispatch: one arm per constructor of `Instr`, each a direct call of its meaning. -/
namespace Sys2Proof.Machine

def exec (i : Instr) (s : State) : Host.Outcome State Fault Refusal :=
  match i with
  | .add g rd ra rb => Sys2Proof.Machine.execAdd g rd ra rb s
  | .sub g rd ra rb => Sys2Proof.Machine.execSub g rd ra rb s
  | .mul g rd ra rb => Sys2Proof.Machine.execMul g rd ra rb s
  | .mulhS g rd ra rb => Sys2Proof.Machine.execMulhS g rd ra rb s
  | .mulhN g rd ra rb => Sys2Proof.Machine.execMulhN g rd ra rb s
  | .divS g rd ra rb => Sys2Proof.Machine.execDivS g rd ra rb s
  | .divN g rd ra rb => Sys2Proof.Machine.execDivN g rd ra rb s
  | .remS g rd ra rb => Sys2Proof.Machine.execRemS g rd ra rb s
  | .remN g rd ra rb => Sys2Proof.Machine.execRemN g rd ra rb s
  | .and g rd ra rb => Sys2Proof.Machine.execAnd g rd ra rb s
  | .or g rd ra rb => Sys2Proof.Machine.execOr g rd ra rb s
  | .xor g rd ra rb => Sys2Proof.Machine.execXor g rd ra rb s
  | .andn g rd ra rb => Sys2Proof.Machine.execAndn g rd ra rb s
  | .shl g rd ra rb => Sys2Proof.Machine.execShl g rd ra rb s
  | .shr g rd ra rb => Sys2Proof.Machine.execShr g rd ra rb s
  | .sra g rd ra rb => Sys2Proof.Machine.execSra g rd ra rb s
  | .rol g rd ra rb => Sys2Proof.Machine.execRol g rd ra rb s
  | .minS g rd ra rb => Sys2Proof.Machine.execMinS g rd ra rb s
  | .minN g rd ra rb => Sys2Proof.Machine.execMinN g rd ra rb s
  | .maxS g rd ra rb => Sys2Proof.Machine.execMaxS g rd ra rb s
  | .maxN g rd ra rb => Sys2Proof.Machine.execMaxN g rd ra rb s
  | .clz g rd ra => Sys2Proof.Machine.execClz g rd ra s
  | .ctz g rd ra => Sys2Proof.Machine.execCtz g rd ra s
  | .popc g rd ra => Sys2Proof.Machine.execPopc g rd ra s
  | .bswap g rd ra => Sys2Proof.Machine.execBswap g rd ra s
  | .extr g rd ra pos w => Sys2Proof.Machine.execExtr g rd ra pos w s
  | .ins g rd ra pos w => Sys2Proof.Machine.execIns g rd ra pos w s
  | .sext g rd ra w => Sys2Proof.Machine.execSext g rd ra w s
  | .zext g rd ra w => Sys2Proof.Machine.execZext g rd ra w s
  | .addi g rd ra imm => Sys2Proof.Machine.execAddi g rd ra imm s
  | .andi g rd ra imm => Sys2Proof.Machine.execAndi g rd ra imm s
  | .ori g rd ra imm => Sys2Proof.Machine.execOri g rd ra imm s
  | .xori g rd ra imm => Sys2Proof.Machine.execXori g rd ra imm s
  | .shli g rd ra sh => Sys2Proof.Machine.execShli g rd ra sh s
  | .shri g rd ra sh => Sys2Proof.Machine.execShri g rd ra sh s
  | .srai g rd ra sh => Sys2Proof.Machine.execSrai g rd ra sh s
  | .movi g rd imm => Sys2Proof.Machine.execMovi g rd imm s
  | .movhi g rd imm => Sys2Proof.Machine.execMovhi g rd imm s
  | .cmpi g cc cd ra imm => Sys2Proof.Machine.execCmpi g cc cd ra imm s
  | .cmp g cc cd ra rb => Sys2Proof.Machine.execCmp g cc cd ra rb s
  | .sel g rd ra rb cs => Sys2Proof.Machine.execSel g rd ra rb cs s
  | .cand g cd ca cb => Sys2Proof.Machine.execCand g cd ca cb s
  | .cor g cd ca cb => Sys2Proof.Machine.execCor g cd ca cb s
  | .cnot g cd ca => Sys2Proof.Machine.execCnot g cd ca s
  | .fadd g rnd rd ra rb => Sys2Proof.Machine.execFadd g rnd rd ra rb s
  | .fsub g rnd rd ra rb => Sys2Proof.Machine.execFsub g rnd rd ra rb s
  | .fmul g rnd rd ra rb => Sys2Proof.Machine.execFmul g rnd rd ra rb s
  | .fma g rnd rd ra rb => Sys2Proof.Machine.execFma g rnd rd ra rb s
  | .fmin g rd ra rb => Sys2Proof.Machine.execFmin g rd ra rb s
  | .fmax g rd ra rb => Sys2Proof.Machine.execFmax g rd ra rb s
  | .fcmp g cc cd ra rb => Sys2Proof.Machine.execFcmp g cc cd ra rb s
  | .fcvt g pair rnd rd ra => Sys2Proof.Machine.execFcvt g pair rnd rd ra s
  | .br g off => Sys2Proof.Machine.execBr g off s
  | .bc g cc ra rb off => Sys2Proof.Machine.execBc g cc ra rb off s
  | .call g rl off => Sys2Proof.Machine.execCall g rl off s
  | .loop g lc ra rb off => Sys2Proof.Machine.execLoop g lc ra rb off s
  | .jr g ra => Sys2Proof.Machine.execJr g ra s
  | .callr g ra rl => Sys2Proof.Machine.execCallr g ra rl s
  | .ret g ra => Sys2Proof.Machine.execRet g ra s
  | .ld g size rd m => Sys2Proof.Machine.execLd g size rd m s
  | .ldSigned g size rd m => Sys2Proof.Machine.execLdSigned g size rd m s
  | .st g size rs m => Sys2Proof.Machine.execSt g size rs m s
  | .lda g size sc rd m => Sys2Proof.Machine.execLda g size sc rd m s
  | .stl g size sc rs m => Sys2Proof.Machine.execStl g size sc rs m s
  | .ldp g rd m => Sys2Proof.Machine.execLdp g rd m s
  | .stp g rs m => Sys2Proof.Machine.execStp g rs m s
  | .pref g m => Sys2Proof.Machine.execPref g m s
  | .flush g sc m => Sys2Proof.Machine.execFlush g sc m s
  | .fence g ord sc => Sys2Proof.Machine.execFence g ord sc s
  | .fenceP g mask => Sys2Proof.Machine.execFenceP g mask s
  | .waita g cc wide sc rd m rs2 rs3 => Sys2Proof.Machine.execWaita g cc wide sc rd m rs2 rs3 s
  | .amo g op ty ord sc rd m rs2 => Sys2Proof.Machine.execAmo g op ty ord sc rd m rs2 s
  | .amoB g op ty ord sc rd m rs2 => Sys2Proof.Machine.execAmoB g op ty ord sc rd m rs2 s
  | .amoN g op ty ord sc rd m rs2 => Sys2Proof.Machine.execAmoN g op ty ord sc rd m rs2 s
  | .amon g op ty rel sc m rs2 => Sys2Proof.Machine.execAmon g op ty rel sc m rs2 s
  | .amonB g op ty rel sc m rs2 => Sys2Proof.Machine.execAmonB g op ty rel sc m rs2 s
  | .amonN g op ty rel sc m rs2 => Sys2Proof.Machine.execAmonN g op ty rel sc m rs2 s
  | .cas g wide ord sc rd m rs2 rs3 => Sys2Proof.Machine.execCas g wide ord sc rd m rs2 rs3 s
  | .casB g wide ord sc rd m rs2 rs3 => Sys2Proof.Machine.execCasB g wide ord sc rd m rs2 rs3 s
  | .loadReturn b id => Sys2Proof.Machine.execLoadReturn b id s
  | .weakStorePerform id => Sys2Proof.Machine.execWeakStorePerform id s
  | .amonPerform b id => Sys2Proof.Machine.execAmonPerform b id s
  | .fencePComplete b => Sys2Proof.Machine.execFencePComplete b s
  | .tdef g t m => Sys2Proof.Machine.execTdef g t m s
  | .tld g t m => Sys2Proof.Machine.execTld g t m s
  | .tst g t m => Sys2Proof.Machine.execTst g t m s
  | .mld g mr m => Sys2Proof.Machine.execMld g mr m s
  | .mst g mr m => Sys2Proof.Machine.execMst g mr m s
  | .tset g t ra k => Sys2Proof.Machine.execTset g t ra k s
  | .tget g rd t k => Sys2Proof.Machine.execTget g rd t k s
  | .thand g t => Sys2Proof.Machine.execThand g t s
  | .bfset g bank ra => Sys2Proof.Machine.execBfset g bank ra s
  | .map g mr ra slot pos => Sys2Proof.Machine.execMap g mr ra slot pos s
  | .mapTile g mr ra => Sys2Proof.Machine.execMapTile g mr ra s
  | .mclr g mr => Sys2Proof.Machine.execMclr g mr s
  | .mchk g kind rx a => Sys2Proof.Machine.execMchk g kind rx a s
  | .ctr g a => Sys2Proof.Machine.execCtr g a s
  | .ctrs g a => Sys2Proof.Machine.execCtrs g a s
  | .red g a => Sys2Proof.Machine.execRed g a s
  | .cvt g a => Sys2Proof.Machine.execCvt g a s
  | .ewr g a => Sys2Proof.Machine.execEwr g a s
  | .gridIssue b => Sys2Proof.Machine.execGridIssue b s
  | .gridComplete b seq => Sys2Proof.Machine.execGridComplete b seq s
  | .hashMessage id => Sys2Proof.Machine.execHashMessage id s
  | .routeTagGrant job => Sys2Proof.Machine.execRouteTagGrant job s
  | .goMessage id => Sys2Proof.Machine.execGoMessage id s
  | .stopMessage id => Sys2Proof.Machine.execStopMessage id s
  | .opndMessage id => Sys2Proof.Machine.execOpndMessage id s
  | .nodeMessage id => Sys2Proof.Machine.execNodeMessage id s
  | .exactMessage id => Sys2Proof.Machine.execExactMessage id s
  | .gmov g rd ra => Sys2Proof.Machine.execGmov g rd ra s
  | .gadd g rd ra rb => Sys2Proof.Machine.execGadd g rd ra rb s
  | .gsub g rd ra rb => Sys2Proof.Machine.execGsub g rd ra rb s
  | .gcmp g cc cd ra rb => Sys2Proof.Machine.execGcmp g cc cd ra rb s
  | .gqpop g rd q peek => Sys2Proof.Machine.execGqpop g rd q peek s
  | .gqpush g q ra => Sys2Proof.Machine.execGqpush g q ra s
  | .gloop g ra off => Sys2Proof.Machine.execGloop g ra off s
  | .gbr g off => Sys2Proof.Machine.execGbr g off s
  | .gbc g cc ra rb off => Sys2Proof.Machine.execGbc g cc ra rb off s
  | .gsig g fl => Sys2Proof.Machine.execGsig g fl s
  | .gsigD g fl => Sys2Proof.Machine.execGsigD g fl s
  | .gwaitf g fl v => Sys2Proof.Machine.execGwaitf g fl v s
  | .gdrain g => Sys2Proof.Machine.execGdrain g s
  | .gidle g => Sys2Proof.Machine.execGidle g s
  | .gend g => Sys2Proof.Machine.execGend g s
  | .gthand g t => Sys2Proof.Machine.execGthand g t s
  | .copy g ch sc cvr fa fb fc rx ry rz len => Sys2Proof.Machine.execCopy g ch sc cvr fa fb fc rx ry rz len s
  | .tcopy g ch sc csb fa fc lsa lsc rx => Sys2Proof.Machine.execTcopy g ch sc csb fa fc lsa lsc rx s
  | .mcast g ch sc cvr fa fb fc rx ry rz mask => Sys2Proof.Machine.execMcast g ch sc cvr fa fb fc rx ry rz mask s
  | .transferComplete b ch id => Sys2Proof.Machine.execTransferComplete b ch id s
  | .plysort g fa rx ry rz form => Sys2Proof.Machine.execPlysort g fa rx ry rz form s
  | .plysend g ch fa rx ry rz form core hank => Sys2Proof.Machine.execPlysend g ch fa rx ry rz form core hank s
  | .plyred g ch fa fb rx ry rz form => Sys2Proof.Machine.execPlyred g ch fa fb rx ry rz form s
  | .plySlotCommit op => Sys2Proof.Machine.execPlySlotCommit op s
  | .cpwait g ch rd ra => Sys2Proof.Machine.execCpwait g ch rd ra s
  | .cpstatNext g ch rd => Sys2Proof.Machine.execCpstatNext g ch rd s
  | .cpstatBusy g ch rd => Sys2Proof.Machine.execCpstatBusy g ch rd s
  | .plystat g k rd => Sys2Proof.Machine.execPlystat g k rd s
  | .plystatClr g k rd => Sys2Proof.Machine.execPlystatClr g k rd s
  | .areg g fa rx ry rz hd lnu rows => Sys2Proof.Machine.execAreg g fa rx ry rz hd lnu rows s
  | .aregFree g ry => Sys2Proof.Machine.execAregFree g ry s
  | .aqpost g fa rx ry rz hr hank => Sys2Proof.Machine.execAqpost g fa rx ry rz hr hank s
  | .aqwait g rx cr ry => Sys2Proof.Machine.execAqwait g rx cr ry s
  | .aappend g fa rx ry hr => Sys2Proof.Machine.execAappend g fa rx ry hr s
  | .acommit g rx ry hr => Sys2Proof.Machine.execAcommit g rx ry hr s
  | .attarStackReply b => Sys2Proof.Machine.execAttarStackReply b s
  | .attarSlotCommit b qid => Sys2Proof.Machine.execAttarSlotCommit b qid s
  | .rdv g cls ext id => Sys2Proof.Machine.execRdv g cls ext id s
  | .rdvOpen job id n slot => Sys2Proof.Machine.execRdvOpen job id n slot s
  | .qpush g q ra => Sys2Proof.Machine.execQpush g q ra s
  | .qpop g rd q => Sys2Proof.Machine.execQpop g rd q s
  | .qpeek g rd q => Sys2Proof.Machine.execQpeek g rd q s
  | .qpeekCnt g rd q => Sys2Proof.Machine.execQpeekCnt g rd q s
  | .queueWake w => Sys2Proof.Machine.execQueueWake w s
  | .flset g fl => Sys2Proof.Machine.execFlset g fl s
  | .flclr g fl => Sys2Proof.Machine.execFlclr g fl s
  | .flwait g rd ra v fl => Sys2Proof.Machine.execFlwait g rd ra v fl s
  | .flagWaitWake w => Sys2Proof.Machine.execFlagWaitWake w s
  | .gidleWake b => Sys2Proof.Machine.execGidleWake b s
  | .hbind g h ra => Sys2Proof.Machine.execHbind g h ra s
  | .hclaim g h rd ra => Sys2Proof.Machine.execHclaim g h rd ra s
  | .hclaimR g h rd ra core => Sys2Proof.Machine.execHclaimR g h rd ra core s
  | .hcommit g h ra rb => Sys2Proof.Machine.execHcommit g h ra rb s
  | .hcommitR g h ra rb core => Sys2Proof.Machine.execHcommitR g h ra rb core s
  | .hankRemoteMessage id => Sys2Proof.Machine.execHankRemoteMessage id s
  | .hwaitf g h rd ra => Sys2Proof.Machine.execHwaitf g h rd ra s
  | .hwaite g h rd ra => Sys2Proof.Machine.execHwaite g h rd ra s
  | .htake g h rd ra => Sys2Proof.Machine.execHtake g h rd ra s
  | .hdone g h ra => Sys2Proof.Machine.execHdone g h ra s
  | .hankWaitWake b => Sys2Proof.Machine.execHankWaitWake b s
  | .yieldC g => Sys2Proof.Machine.execYieldC g s
  | .endC g => Sys2Proof.Machine.execEndC g s
  | .waitaWake b => Sys2Proof.Machine.execWaitaWake b s
  | .waitDeadline b => Sys2Proof.Machine.execWaitDeadline b s
  | .cpwaitWake b => Sys2Proof.Machine.execCpwaitWake b s
  | .aqwaitWake b => Sys2Proof.Machine.execAqwaitWake b s
  | .tensorOwnerWake b => Sys2Proof.Machine.execTensorOwnerWake b s
  | .evset g ctx bit => Sys2Proof.Machine.execEvset g ctx bit s
  | .evclr g ctx bit => Sys2Proof.Machine.execEvclr g ctx bit s
  | .evwait g rd rb ctx bit => Sys2Proof.Machine.execEvwait g rd rb ctx bit s
  | .evwaitWake b => Sys2Proof.Machine.execEvwaitWake b s
  | .dinit g die rc ra rb => Sys2Proof.Machine.execDinit g die rc ra rb s
  | .dclaim g rd die rc => Sys2Proof.Machine.execDclaim g rd die rc s
  | .launch g rd m => Sys2Proof.Machine.execLaunch g rd m s
  | .launchSlotWake b => Sys2Proof.Machine.execLaunchSlotWake b s
  | .hostDoorbell part ctx tail => Sys2Proof.Machine.execHostDoorbell part ctx tail s
  | .recordCopy part ctx dev torn => Sys2Proof.Machine.execRecordCopy part ctx dev torn s
  | .dispatch part arrival jobid places => Sys2Proof.Machine.execDispatch part arrival jobid places s
  | .graphInstanceStart part arrival => Sys2Proof.Machine.execGraphInstanceStart part arrival s
  | .bind r => Sys2Proof.Machine.execBind r s
  | .start r => Sys2Proof.Machine.execStart r s
  | .preempt r => Sys2Proof.Machine.execPreempt r s
  | .preemptDrainExpiry b => Sys2Proof.Machine.execPreemptDrainExpiry b s
  | .resume r => Sys2Proof.Machine.execResume r s
  | .release r => Sys2Proof.Machine.execRelease r s
  | .jobComplete job => Sys2Proof.Machine.execJobComplete job s
  | .quantumBoundary job jd jc => Sys2Proof.Machine.execQuantumBoundary job jd jc s
  | .longWaitSwap job jd jc => Sys2Proof.Machine.execLongWaitSwap job jd jc s
  | .wakeSourceFire job jd jc => Sys2Proof.Machine.execWakeSourceFire job jd jc s
  | .teamRebind job jd jc bank => Sys2Proof.Machine.execTeamRebind job jd jc bank s
  | .sillageRecord job => Sys2Proof.Machine.execSillageRecord job s
  | .schedulerRestart => Sys2Proof.Machine.execSchedulerRestart s
  | .spmint g b ra => Sys2Proof.Machine.execSpmint g b ra s
  | .spnarrow g bd ba rb mask => Sys2Proof.Machine.execSpnarrow g bd ba rb mask s
  | .spoff g bd ba rb => Sys2Proof.Machine.execSpoff g bd ba rb s
  | .spget g rd b sel => Sys2Proof.Machine.execSpget g rd b sel s
  | .spmov g bd ba => Sys2Proof.Machine.execSpmov g bd ba s
  | .spmovClr g bd => Sys2Proof.Machine.execSpmovClr g bd s
  | .spld g b m => Sys2Proof.Machine.execSpld g b m s
  | .spst g b m => Sys2Proof.Machine.execSpst g b m s
  | .ovld g rd ra rb => Sys2Proof.Machine.execOvld g rd ra rb s
  | .ovldG g ra rb => Sys2Proof.Machine.execOvldG g ra rb s
  | .hostMemoryWrite pa data => Sys2Proof.Machine.execHostMemoryWrite pa data s
  | .tlbinvPage g ra asid => Sys2Proof.Machine.execTlbinvPage g ra asid s
  | .tlbinvAsid g asid => Sys2Proof.Machine.execTlbinvAsid g asid s
  | .tlbinvPart g => Sys2Proof.Machine.execTlbinvPart g s
  | .tlbsync g => Sys2Proof.Machine.execTlbsync g s
  | .dirtysync g asid => Sys2Proof.Machine.execDirtysync g asid s
  | .tlbAcknowledge t => Sys2Proof.Machine.execTlbAcknowledge t s
  | .pageWalk core part asid va write => Sys2Proof.Machine.execPageWalk core part asid va write s
  | .domainWindowAccess off data len => Sys2Proof.Machine.execDomainWindowAccess off data len s
  | .partitionCreate r => Sys2Proof.Machine.execPartitionCreate r s
  | .deviceIdAssign id => Sys2Proof.Machine.execDeviceIdAssign id s
  | .measExtend part idx d => Sys2Proof.Machine.execMeasExtend part idx d s
  | .quoteRequest part nonce => Sys2Proof.Machine.execQuoteRequest part nonce s
  | .boot mgmt sched => Sys2Proof.Machine.execBoot mgmt sched s
  | .firmwareRecoveryImage img => Sys2Proof.Machine.execFirmwareRecoveryImage img s
  | .trap g imm => Sys2Proof.Machine.execTrap g imm s
  | .eret g => Sys2Proof.Machine.execEret g s
  | .srd g rd r => Sys2Proof.Machine.execSrd g rd r s
  | .swr g r ra => Sys2Proof.Machine.execSwr g r ra s
  | .srx g rd r ra => Sys2Proof.Machine.execSrx g rd r ra s
  | .brk g imm => Sys2Proof.Machine.execBrk g imm s
  | .halt g imm => Sys2Proof.Machine.execHalt g imm s
  | .ctxbankWrite b => Sys2Proof.Machine.execCtxbankWrite b s
  | .dirtyctlWrite b => Sys2Proof.Machine.execDirtyctlWrite b s
  | .ringTrap b => Sys2Proof.Machine.execRingTrap b s
  | .bankSwitch core => Sys2Proof.Machine.execBankSwitch core s
  | .fanswerRetry part seq => Sys2Proof.Machine.execFanswerRetry part seq s
  | .fanswerDeliver part seq => Sys2Proof.Machine.execFanswerDeliver part seq s
  | .fanswerAbort part seq => Sys2Proof.Machine.execFanswerAbort part seq s
  | .dbgcmdHalt part b => Sys2Proof.Machine.execDbgcmdHalt part b s
  | .dbgcmdResume part b => Sys2Proof.Machine.execDbgcmdResume part b s
  | .dbgcmdAttach part b => Sys2Proof.Machine.execDbgcmdAttach part b s
  | .dbgcmdDetach part b => Sys2Proof.Machine.execDbgcmdDetach part b s
  | .migcmdStart part arg => Sys2Proof.Machine.execMigcmdStart part arg s
  | .migcmdRound part arg => Sys2Proof.Machine.execMigcmdRound part arg s
  | .migcmdStop part arg => Sys2Proof.Machine.execMigcmdStop part arg s
  | .migcmdCancel part arg => Sys2Proof.Machine.execMigcmdCancel part arg s
  | .migrationPacket part p => Sys2Proof.Machine.execMigrationPacket part p s
  | .registerWindowWrite part off size v => Sys2Proof.Machine.execRegisterWindowWrite part off size v s
  | .eccError site => Sys2Proof.Machine.execEccError site s
  | .coreFailure core => Sys2Proof.Machine.execCoreFailure core s
  | .linkFlit link f => Sys2Proof.Machine.execLinkFlit link f s
  | .throttleEnter level power temp => Sys2Proof.Machine.execThrottleEnter level power temp s
  | .throttleExit level => Sys2Proof.Machine.execThrottleExit level s
  | .thermalShutdown temp => Sys2Proof.Machine.execThermalShutdown temp s
  | .ueRmaRequest r => Sys2Proof.Machine.execUeRmaRequest r s
  | .linkTraining link vmaj vmin => Sys2Proof.Machine.execLinkTraining link vmaj vmin s
  | .rowRepair stack bank => Sys2Proof.Machine.execRowRepair stack bank s
  | .powerLoss => Sys2Proof.Machine.execPowerLoss s
  | .migrationKeySupply part key => Sys2Proof.Machine.execMigrationKeySupply part key s
  | .migrationAcknowledge part counters => Sys2Proof.Machine.execMigrationAcknowledge part counters s

end Sys2Proof.Machine
end

