-- ==== Sys2Proof/Machine/Step.lean ====
section
/-! DEFINITION. The step: one turn of one agent. -/
namespace Sys2Proof.Machine

/-- What a turn does. -/
def runTurn (t : Turn) (s : State) : Host.Outcome State Fault Refusal :=
  match t with
  | .issue i =>
    match s.fetch i with
    | .idle => .next s
    | .trapped s => .next s
    | .run ins s => exec ins s
  | .event e => if isEvent e then exec e s else .next s
  | t => .next (s.plainTurn t)

/-- One step of the machine: the next turn is taken. A device that has shut down stops, but for a boot (R405). -/
def step (s : State) : Host.Outcome State Fault Refusal :=
  if s.health.off && !s.nextTurn.1.powersOn then .fault .poweredOff else runTurn s.nextTurn.1 s.nextTurn.2

/-- `s` with the instruction of bits `w` as the next one a step fetches and runs: three words at PC 0, read by the C
stream, or by the G stream when only it decodes them. -/
def State.withFetchWord (s : State) (_nbits w : Nat) : State :=
  let ws := [w % 2 ^ 64, w / 2 ^ 64 % 2 ^ 64, w / 2 ^ 128 % 2 ^ 64]
  let kind : StreamKind :=
    match decode .c true 0 ws with
    | .ok .. => .c
    | .trap .. => match decode .g true 0 ws with
      | .ok .. => .g
      | .trap .. => .c
  s.placeWords kind ws

end Sys2Proof.Machine
end

