-- ==== Sys2Proof/WellFormed.lean ====
section
/-! DEFINITION. Which instructions are well formed: those whose fields the encoding tables can hold (R31, R51 to R79, R155 to R162, R237, R269, R285, R294, R333). -/
namespace Sys2Proof

/-- A source slot of a format without a peek bit does not peek (R53). -/
def popping : Src → Bool
  | .reg _ => true
  | .queue _ peek => !peek

/-- The same of a G-stream slot. -/
def gpopping : GSrc → Bool
  | .reg _ => true
  | .queue _ peek => !peek

/-- R62: the widening pairs take no rounding code, and no pair takes SR. -/
def fcvtRndOk (pair : FcvtPair) (rnd : Rnd) : Bool :=
  if pair = .fromBf16 ∨ pair = .fromF16 then rnd = .rne else rnd ≠ .sr

/-- At most six letters, none repeated (R31). -/
def lettersOk (l : Letters) : Bool := l.length ≤ 6 && decide l.Nodup

/-- The fields that each grid instruction reserves (R155, R157 to R159). -/
def gridArgsOk (kind : GridKind) (a : GridArgs) : Bool :=
  lettersOk a.lsa && lettersOk a.lsb && lettersOk a.lsc
    && (match kind with
      | .ctr => a.shape = 0
      | .ctrs => a.shape.toNat < 8
      | .red => a.shape = 0 && a.fb = 0 && a.lsb = []
      | .cvt => a.shape = 0 && a.fb = 0 && a.lsb = [] && !a.acc)

/-- The stack discipline of an elementwise rule: no node pops an empty stack, the end finds one value, and nothing
follows the end (R161, R162). -/
def ruleOk : List Node → Nat → Bool
  | [], depth => depth = 1
  | .stop :: l, depth => depth = 1 && l.all (· = .stop)
  | nd :: l, depth => (nodeEffect nd).1 ≤ depth && ruleOk l (depth - (nodeEffect nd).1 + (nodeEffect nd).2)

/-- Whether a node stands in the rule before its end. -/
def EwrArgs.uses (a : EwrArgs) (nd : Node) : Bool := (a.nodes.takeWhile (· ≠ .stop)).contains nd

/-- A mask has no bit at or above the number of letters. -/
def maskOk (m : BitVec 6) (nl : Nat) : Bool := m.toNat < 2 ^ nl

/-- R162. -/
def ewrArgsOk (a : EwrArgs) : Bool :=
  lettersOk a.lsd && ruleOk a.nodes 0 && maskOk a.ma a.lsd.length && maskOk a.mb a.lsd.length && maskOk a.mc a.lsd.length
    && (a.uses .a || (a.fa = 0 && a.ma = 0)) && (a.uses .b || (a.fb = 0 && a.mb = 0)) && (a.uses .c || (a.fc = 0 && a.mc = 0))
    && (a.uses .fn || a.fn = .neg) && (a.uses .x || a.x = .reg 0)

/-- Whether an instruction has an encoding that holds its fields; an event has no encoding and no condition. -/
def wellFormed : Instr → Bool
  | .extr _ _ _ pos w => pos.toNat + w.toNat + 1 ≤ 64
  | .ins _ _ _ pos w => pos.toNat + w.toNat + 1 ≤ 64
  | .fadd _ rnd _ _ _ => rnd ≠ .sr
  | .fsub _ rnd _ _ _ => rnd ≠ .sr
  | .fmul _ rnd _ _ _ => rnd ≠ .sr
  | .fma _ rnd _ _ _ => rnd ≠ .sr
  | .fcvt _ pair rnd _ _ => fcvtRndOk pair rnd
  | .bc _ _ ra rb _ => popping ra && popping rb
  | .loop _ _ ra rb off => popping ra && popping rb && 2 ≤ off.toNat && off.toNat < 2 ^ 25
  | .jr _ ra => popping ra
  | .callr _ ra _ => popping ra
  | .ret _ ra => popping ra
  | .ldp _ rd _ => rd.toNat % 2 = 0
  | .stp _ rs _ => rs.toNat % 2 = 0
  | .flush _ sc _ => sc ≠ .co
  | .fence _ ord _ => ord ≠ .none
  | .fenceP _ mask => mask ≠ 0
  | .amo _ op ty _ _ _ _ _ => amoOkCB op ty
  | .amoB _ op ty _ sc _ _ _ => amoOkCB op ty && (sc = .co || sc = .cl)
  | .amoN _ op ty _ sc _ _ _ => amoOkN op ty && sc ≠ .co && sc ≠ .cl
  | .amon _ op ty _ _ _ _ => amoOkCB op ty
  | .amonB _ op ty _ sc _ _ => amoOkCB op ty && (sc = .co || sc = .cl)
  | .amonN _ op ty _ sc _ _ => amoOkN op ty && sc ≠ .co && sc ≠ .cl
  | .casB _ _ _ sc _ _ _ _ => sc = .co || sc = .cl
  | .mchk _ kind _ a => gridArgsOk kind a && a.rnd ≠ .sr
  | .ctr _ a => gridArgsOk .ctr a
  | .ctrs _ a => gridArgsOk .ctrs a
  | .red _ a => gridArgsOk .red a
  | .cvt _ a => gridArgsOk .cvt a
  | .ewr _ a => ewrArgsOk a
  | .gbc _ _ ra rb _ => gpopping ra && gpopping rb
  | .copy _ _ sc cvr _ _ fc _ _ _ _ => sc.isSome || (cvr = 0 && fc = 0)
  | .tcopy _ _ sc csb _ _ lsa lsc _ => (sc.isSome || csb = 0) && lettersOk lsa && lettersOk lsc
  | .mcast _ _ sc cvr _ _ fc _ _ _ _ => sc.isSome || (cvr = 0 && fc = 0)
  | .areg _ _ _ _ _ _ lnu rows => lnu ≠ 7 && rows ≠ 0
  | .hclaimR _ _ _ _ core => core.toNat ≤ 47
  | .hcommitR _ _ _ _ core => core.toNat ≤ 47
  | .spmint _ _ ra => ra.toNat % 4 = 0
  | .spget _ _ _ sel => sel.toNat ≤ 4
  | .tlbinvPage _ ra _ => popping ra
  | .swr _ r _ => !sysReadOnly r
  | .srx _ _ r _ => !sysReadOnly r
  | .add .. | .sub .. | .mul .. | .mulhS .. | .mulhN .. | .divS .. | .divN .. | .remS .. | .remN .. | .and ..
  | .or .. | .xor .. | .andn .. | .shl .. | .shr .. | .sra .. | .rol .. | .minS .. | .minN .. | .maxS ..
  | .maxN .. | .clz .. | .ctz .. | .popc .. | .bswap .. | .sext .. | .zext .. | .addi .. | .andi .. | .ori ..
  | .xori .. | .shli .. | .shri .. | .srai .. | .movi .. | .movhi .. | .cmpi .. | .cmp .. | .sel .. | .cand ..
  | .cor .. | .cnot .. | .fmin .. | .fmax .. | .fcmp .. | .br .. | .call .. | .ld .. | .ldSigned .. | .st ..
  | .lda .. | .stl .. | .pref .. | .waita .. | .cas .. | .tdef .. | .tld .. | .tst .. | .mld .. | .mst ..
  | .tset .. | .tget .. | .thand .. | .bfset .. | .map .. | .mapTile .. | .mclr .. | .gmov .. | .gadd ..
  | .gsub .. | .gcmp .. | .gqpop .. | .gqpush .. | .gloop .. | .gbr .. | .gsig .. | .gsigD .. | .gwaitf ..
  | .gdrain .. | .gidle .. | .gend .. | .gthand .. | .plysort .. | .plysend .. | .plyred .. | .cpwait ..
  | .cpstatNext .. | .cpstatBusy .. | .plystat .. | .plystatClr .. | .aregFree .. | .aqpost .. | .aqwait ..
  | .aappend .. | .acommit .. | .rdv .. | .qpush .. | .qpop .. | .qpeek .. | .qpeekCnt .. | .flset ..
  | .flclr .. | .flwait .. | .hbind .. | .hclaim .. | .hcommit .. | .hwaitf .. | .hwaite .. | .htake ..
  | .hdone .. | .yieldC .. | .endC .. | .evset .. | .evclr .. | .evwait .. | .dinit .. | .dclaim ..
  | .launch .. | .spnarrow .. | .spoff .. | .spmov .. | .spmovClr .. | .spld .. | .spst .. | .ovld ..
  | .ovldG .. | .tlbinvAsid .. | .tlbinvPart .. | .tlbsync .. | .dirtysync .. | .trap .. | .eret .. | .srd ..
  | .brk .. | .halt .. => true
  | .loadReturn .. | .weakStorePerform .. | .amonPerform .. | .fencePComplete .. | .gridIssue ..
  | .gridComplete .. | .hashMessage .. | .routeTagGrant .. | .goMessage .. | .stopMessage .. | .opndMessage ..
  | .nodeMessage .. | .exactMessage .. | .transferComplete .. | .plySlotCommit .. | .attarStackReply ..
  | .attarSlotCommit .. | .rdvOpen .. | .queueWake .. | .flagWaitWake .. | .gidleWake ..
  | .hankRemoteMessage .. | .hankWaitWake .. | .waitaWake .. | .waitDeadline .. | .cpwaitWake ..
  | .aqwaitWake .. | .tensorOwnerWake .. | .evwaitWake .. | .launchSlotWake .. | .hostDoorbell ..
  | .recordCopy .. | .dispatch .. | .graphInstanceStart .. | .bind .. | .start .. | .preempt ..
  | .preemptDrainExpiry .. | .resume .. | .release .. | .jobComplete .. | .quantumBoundary ..
  | .longWaitSwap .. | .wakeSourceFire .. | .teamRebind .. | .sillageRecord .. | .schedulerRestart ..
  | .hostMemoryWrite .. | .tlbAcknowledge .. | .pageWalk .. | .domainWindowAccess .. | .partitionCreate ..
  | .deviceIdAssign .. | .measExtend .. | .quoteRequest .. | .boot .. | .firmwareRecoveryImage ..
  | .ctxbankWrite .. | .dirtyctlWrite .. | .ringTrap .. | .bankSwitch .. | .fanswerRetry ..
  | .fanswerDeliver .. | .fanswerAbort .. | .dbgcmdHalt .. | .dbgcmdResume .. | .dbgcmdAttach ..
  | .dbgcmdDetach .. | .migcmdStart .. | .migcmdRound .. | .migcmdStop .. | .migcmdCancel ..
  | .migrationPacket .. | .registerWindowWrite .. | .eccError .. | .coreFailure .. | .linkFlit ..
  | .throttleEnter .. | .throttleExit .. | .thermalShutdown .. | .ueRmaRequest .. | .linkTraining ..
  | .rowRepair .. | .powerLoss .. | .migrationKeySupply .. | .migrationAcknowledge .. => true

/-- The streams that an instruction may run in (R49, R77, R294). An event runs in none. -/
def runsIn (k : StreamKind) : Instr → Bool
  | .rdv _ cls _ _ => match cls with
    | .both => true
    | .conly => k = .c
    | .gonly => k = .g
  | .ctr .. | .ctrs .. | .red .. | .cvt .. | .ewr .. | .gmov .. | .gadd .. | .gsub .. | .gcmp .. | .gqpop ..
  | .gqpush .. | .gloop .. | .gbr .. | .gbc .. | .gsig .. | .gsigD .. | .gwaitf .. | .gdrain .. | .gidle ..
  | .gend .. | .gthand .. => k = .g
  | .add .. | .sub .. | .mul .. | .mulhS .. | .mulhN .. | .divS .. | .divN .. | .remS .. | .remN .. | .and ..
  | .or .. | .xor .. | .andn .. | .shl .. | .shr .. | .sra .. | .rol .. | .minS .. | .minN .. | .maxS ..
  | .maxN .. | .clz .. | .ctz .. | .popc .. | .bswap .. | .extr .. | .ins .. | .sext .. | .zext .. | .addi ..
  | .andi .. | .ori .. | .xori .. | .shli .. | .shri .. | .srai .. | .movi .. | .movhi .. | .cmpi .. | .cmp ..
  | .sel .. | .cand .. | .cor .. | .cnot .. | .fadd .. | .fsub .. | .fmul .. | .fma .. | .fmin .. | .fmax ..
  | .fcmp .. | .fcvt .. | .br .. | .bc .. | .call .. | .loop .. | .jr .. | .callr .. | .ret .. | .ld ..
  | .ldSigned .. | .st .. | .lda .. | .stl .. | .ldp .. | .stp .. | .pref .. | .flush .. | .fence ..
  | .fenceP .. | .waita .. | .amo .. | .amoB .. | .amoN .. | .amon .. | .amonB .. | .amonN .. | .cas ..
  | .casB .. | .tdef .. | .tld .. | .tst .. | .mld .. | .mst .. | .tset .. | .tget .. | .thand .. | .bfset ..
  | .map .. | .mapTile .. | .mclr .. | .mchk .. | .copy .. | .tcopy .. | .mcast .. | .plysort .. | .plysend ..
  | .plyred .. | .cpwait .. | .cpstatNext .. | .cpstatBusy .. | .plystat .. | .plystatClr .. | .areg ..
  | .aregFree .. | .aqpost .. | .aqwait .. | .aappend .. | .acommit .. | .qpush .. | .qpop .. | .qpeek ..
  | .qpeekCnt .. | .flset .. | .flclr .. | .flwait .. | .hbind .. | .hclaim .. | .hclaimR .. | .hcommit ..
  | .hcommitR .. | .hwaitf .. | .hwaite .. | .htake .. | .hdone .. | .yieldC .. | .endC .. | .evset ..
  | .evclr .. | .evwait .. | .dinit .. | .dclaim .. | .launch .. | .spmint .. | .spnarrow .. | .spoff ..
  | .spget .. | .spmov .. | .spmovClr .. | .spld .. | .spst .. | .ovld .. | .ovldG .. | .tlbinvPage ..
  | .tlbinvAsid .. | .tlbinvPart .. | .tlbsync .. | .dirtysync .. | .trap .. | .eret .. | .srd .. | .swr ..
  | .srx .. | .brk .. | .halt .. => k = .c
  | .loadReturn .. | .weakStorePerform .. | .amonPerform .. | .fencePComplete .. | .gridIssue ..
  | .gridComplete .. | .hashMessage .. | .routeTagGrant .. | .goMessage .. | .stopMessage .. | .opndMessage ..
  | .nodeMessage .. | .exactMessage .. | .transferComplete .. | .plySlotCommit .. | .attarStackReply ..
  | .attarSlotCommit .. | .rdvOpen .. | .queueWake .. | .flagWaitWake .. | .gidleWake ..
  | .hankRemoteMessage .. | .hankWaitWake .. | .waitaWake .. | .waitDeadline .. | .cpwaitWake ..
  | .aqwaitWake .. | .tensorOwnerWake .. | .evwaitWake .. | .launchSlotWake .. | .hostDoorbell ..
  | .recordCopy .. | .dispatch .. | .graphInstanceStart .. | .bind .. | .start .. | .preempt ..
  | .preemptDrainExpiry .. | .resume .. | .release .. | .jobComplete .. | .quantumBoundary ..
  | .longWaitSwap .. | .wakeSourceFire .. | .teamRebind .. | .sillageRecord .. | .schedulerRestart ..
  | .hostMemoryWrite .. | .tlbAcknowledge .. | .pageWalk .. | .domainWindowAccess .. | .partitionCreate ..
  | .deviceIdAssign .. | .measExtend .. | .quoteRequest .. | .boot .. | .firmwareRecoveryImage ..
  | .ctxbankWrite .. | .dirtyctlWrite .. | .ringTrap .. | .bankSwitch .. | .fanswerRetry ..
  | .fanswerDeliver .. | .fanswerAbort .. | .dbgcmdHalt .. | .dbgcmdResume .. | .dbgcmdAttach ..
  | .dbgcmdDetach .. | .migcmdStart .. | .migcmdRound .. | .migcmdStop .. | .migcmdCancel ..
  | .migrationPacket .. | .registerWindowWrite .. | .eccError .. | .coreFailure .. | .linkFlit ..
  | .throttleEnter .. | .throttleExit .. | .thermalShutdown .. | .ueRmaRequest .. | .linkTraining ..
  | .rowRepair .. | .powerLoss .. | .migrationKeySupply .. | .migrationAcknowledge .. => false

end Sys2Proof
end

