-- ==== Sys2Proof/Certificates/Slice0/Obligations.lean ====
section
/-! DEFINITION. The statements about the machine that the provers are given. Helpers stand under `Sys2Proof.Claims`. -/
namespace Sys2Proof.Claims
open Machine

/-! ### Operands and completion, said once -/

/-- The bank whose stream runs. -/
def here (s : State) : Bank := s.bank s.cur.bank

/-- The guard of a C-stream instruction holds (R25). -/
abbrev goes (g : Guard) (s : State) : Prop := guardHolds (here s).cC g = true

/-- The guard of a G-stream instruction holds. -/
abbrev goesG (g : Guard) (s : State) : Prop := guardHolds (here s).cG g = true

/-- Source slot `src` gives `v` and leaves the bank as `k'`: a register as it stands, or the head of a queue that the C
stream pops, removed unless it is peeked (R26, R27, R29). -/
def Operand (k : Bank) (src : Src) (v : Word) (k' : Bank) : Prop :=
  match src with
  | .reg n => v = (if n = 0 then 0 else k.x[n.toNat]'(n.isLt)) ∧ k' = k
  | .queue q peek => 4 ≤ q.toNat ∧ ∃ l, k.getQ q = v :: l ∧ k' = if peek then k else k.setQ q l

/-- Destination slot `dst` takes `v` and leaves the bank as `k'`: a register, x0 discarding it, or a queue with room that
the C stream pushes (R26, R27, R29). -/
def Result (k : Bank) (dst : Dst) (v : Word) (k' : Bank) : Prop :=
  match dst with
  | .reg n => k' = if n = 0 then k else { k with x := k.x.set n.toNat v n.isLt }
  | .queue q => q.toNat < 4 ∧ (k.getQ q).length < (if q = 2 ∨ q = 3 then 64 else 16) ∧ k' = k.setQ q (k.getQ q ++ [v])

/-- The state after a one-word C-stream instruction that leaves its bank as `k`: the PC moves past it, or back to the
start of a loop that ends there (R190). -/
def past (s : State) (k : Bank) : State := s.setBank s.cur.bank (k.fallC ((here s).c.pc + 8))

/-- The state after a C-stream instruction of `len` words. -/
def pastBy (s : State) (k : Bank) (len : Nat) : State :=
  s.setBank s.cur.bank (k.fallC ((here s).c.pc + BitVec.ofNat 64 (8 * len)))

/-- The state after a one-word C-stream instruction that changed more than its bank: `s'` with the bank `k`. -/
def thenPast (s s' : State) (k : Bank) : State := s'.setBank s.cur.bank (k.fallC ((here s).c.pc + 8))

/-- The state after an instruction of `len` words that changed more than its bank. -/
def thenPastBy (s s' : State) (k : Bank) (len : Nat) : State :=
  s'.setBank s.cur.bank (k.fallC ((here s).c.pc + BitVec.ofNat 64 (8 * len)))

/-- The state once `t` is reached and the instruction of `len` words that `s` runs falls through. -/
def goesOn (s t : State) (len : Nat := 1) : State := thenPastBy s t (t.bank s.cur.bank) len

/-- The instruction takes a precise trap: nothing of it has happened, and the trap is delivered (R376). -/
def Traps (i : Instr) (s : State) (cause : Nat) (val aux : Word) : Prop :=
  exec i s = .next (s.deliver s.cur.bank ⟨cause, val, aux⟩ (here s).c.pc)

/-- The state after a C-stream transfer that leaves its bank as `k`. -/
def jumps (s : State) (k : Bank) (target : Word) (leave : Bool) : State :=
  s.setBank s.cur.bank { k with lc := if leave then leaveLoops k.lc target else k.lc, c := { k.c with pc := target, wait := none } }

/-- `f` is what an instruction of one source computes. -/
def Computes1 (mk : Guard → Dst → Src → Instr) (f : Word → Word) : Prop :=
  ∀ (g : Guard) (rd : Dst) (ra : Src) (s : State) (a : Word) (k1 k2 : Bank), goes g s →
    Operand (here s) ra a k1 → Result k1 rd (f a) k2 → exec (mk g rd ra) s = .next (past s k2)

/-- `f` is what an instruction of two sources computes. -/
def Computes2 (mk : Guard → Dst → Src → Src → Instr) (f : Word → Word → Word) : Prop :=
  ∀ (g : Guard) (rd : Dst) (ra rb : Src) (s : State) (a b : Word) (k1 k2 k3 : Bank), goes g s →
    Operand (here s) ra a k1 → Operand k1 rb b k2 → Result k2 rd (f a b) k3 → exec (mk g rd ra rb) s = .next (past s k3)

/-- R57 under integer use. -/
def condition (cc : Cond) (a b : Word) : Prop :=
  match cc with
  | .eq => a = b
  | .ne => a ≠ b
  | .lt => a.toInt < b.toInt
  | .ge => a.toInt ≥ b.toInt
  | .le => a.toInt ≤ b.toInt
  | .gt => a.toInt > b.toInt
  | .lo => a.toNat < b.toNat
  | .hs => a.toNat ≥ b.toNat
  | .ls => a.toNat ≤ b.toNat
  | .hi => a.toNat > b.toNat

/-- Writes condition register `c` of the C stream; c0 discards it (R29). -/
def withC (k : Bank) (c : BitVec 3) (v : Bool) : Bank := { k with cC := if c = 0 then k.cC else k.cC.set c.toNat v c.isLt }

/-- Reads condition register `c` of the C stream; c0 is 1. -/
def readC (k : Bank) (c : BitVec 3) : Bool := if c = 0 then true else k.cC[c.toNat]'(c.isLt)

end Sys2Proof.Claims

open Sys2Proof Sys2Proof.Machine Sys2Proof.Claims

/-! ### Decoding and the step -/

/-- A turn in which a stream issues runs the instruction that stands at its PC: once the turn is taken off the list and
the counter of free values has moved, the step is exec of the decoded instruction with that stream as the one that runs
(R22, R33). The stream runs, its PC is aligned, its bank may issue, and no outstanding load is to write what the instruction names (R221)
or stands on an uncorrectable error (R233).
A turn of an event is exec of the event.
That a turn is taken from a list is the model's choice (log entry 1). -/
def Obligations.StepRunsDecoded : Prop :=
  (∀ (s : State) (i : StreamId) (ins : Instr) (len : Nat) (rest : List Turn),
    let s' : State := { s with turns := rest, tick := s.tick + 1 }
    let t := (s.bank i.bank).stream i.kind
    s.health.off = false → s.turns = .issue i :: rest → s'.issues i.bank = true → t.run = .running → t.pc.toNat % 8 = 0 →
    decode i.kind (i.kind = .c && (s.bank i.bank).priv) t.pc.toNat (t.code.drop (t.pc.toNat / 8)) = .ok ins len →
    (i.kind = .c → ∀ l ∈ (s.bank i.bank).outLoads, loadTouches l (xRegs ins) = false ∧ s.eccAt l.place l.size = false) →
    step s = exec ins { s' with cur := i }) ∧
  (∀ (s : State) (e : Instr) (rest : List Turn), s.health.off = false → s.turns = .event e :: rest → encode e = none →
    step s = exec e { s with turns := rest, tick := s.tick + 1 })

/-- Words that the spec writes out decode to the instructions it names: the examples of R80, R179, R185, R361 and R384. Of the last
two, one traps for want of privilege and one for its stream (R33). -/
def Obligations.DecodeWorkedWords : Prop :=
  decode .c false 0 [0xFFFFFFFF0E1C0014] = .ok (.addi ⟨0, false⟩ (.reg 7) (.reg 7) 0xFFFFFFFF) 1 ∧
  decode .c false 0 [0x00040444A0054041, 0x74000C] =
    .ok (.amonN ⟨0, false⟩ .fadd .f32 false .dv ⟨4, 9, 16⟩ (.reg 12)) 2 ∧
  decode .c false 0 [0x0000205080C0C028] = .ok (.fma ⟨0, false⟩ .rtz 3 (.reg 4) (.reg 5)) 1 ∧
  decode .c true 0 [0x02460000A00000E0] = .ok (.tlbinvPage ⟨0, false⟩ (.reg 5) 0x123) 1 ∧
  decode .c false 0 [0x00000200014080F0] = .ok (.srd ⟨0, false⟩ (.reg 5) .dtc) 1 ∧
  decode .c false 0 [0x02460000A00000E0] = .trap 0x05 0x02460000A00000E0 0 ∧
  decode .g false 0 [0x00040444A0054041, 0x74000C] = .trap 0x04 0x00040444A0054041 0

/-- Decoding the words of a well-formed instruction, in a stream that may run it and under the privilege it may need,
gives the instruction back with its length, whatever words follow. -/
def Obligations.DecodeEncode : Prop :=
  ∀ (i : Instr) (k : StreamKind) (ws rest : List Nat) (pc : Nat), wellFormed i = true → runsIn k i = true →
    encode i = some ws → decode k true pc (ws ++ rest) = .ok i ws.length

/-- R50: a word whose major value the table of R49 does not list traps ILLEGAL_OPCODE with word 0, in either stream,
once its length is legal and lies within the extent. -/
def Obligations.ReservedMajor : Prop :=
  ∀ (k : StreamKind) (priv : Bool) (pc w : Nat) (rest : List Nat), fieldAt w 0 2 ≠ 3 → fieldAt w 0 2 ≤ rest.length →
    fieldAt w 2 8 ∉ [0x04, 0x05, 0x06, 0x07, 0x08, 0x09, 0x0A, 0x0C, 0x10, 0x11, 0x12, 0x13, 0x14, 0x18, 0x19, 0x20, 0x21,
      0x24, 0x25, 0x28, 0x29, 0x2C, 0x30, 0x31, 0x34, 0x38, 0x3C] →
    decode k priv pc (w :: rest) = .trap 0x02 w 0

/-! ### Integer, immediate and condition instructions -/

/-- What each integer instruction of two sources writes, for every operand form (R175, R176). -/
def Sys2Proof.Claims.IntegerResults : Prop :=
  Computes2 .add (fun a b => a + b) ∧ Computes2 .sub (fun a b => a - b) ∧ Computes2 .mul (fun a b => a * b) ∧
  Computes2 .mulhS (fun a b => ((a.signExtend 128) * (b.signExtend 128)).extractLsb' 64 64) ∧
  Computes2 .mulhN (fun a b => ((a.setWidth 128) * (b.setWidth 128)).extractLsb' 64 64) ∧
  Computes2 .and (fun a b => a &&& b) ∧ Computes2 .or (fun a b => a ||| b) ∧ Computes2 .xor (fun a b => a ^^^ b) ∧
  Computes2 .andn (fun a b => a &&& ~~~b) ∧
  Computes2 .shl (fun a b => BitVec.ofNat 64 (a.toNat * 2 ^ b.toNat)) ∧
  Computes2 .shr (fun a b => BitVec.ofNat 64 (a.toNat / 2 ^ b.toNat)) ∧
  Computes2 .sra (fun a b => BitVec.ofInt 64 (a.toInt / 2 ^ b.toNat)) ∧
  Computes2 .rol (fun a b => a.rotateLeft (b.toNat % 64)) ∧
  Computes2 .minS (fun a b => BitVec.ofInt 64 (min a.toInt b.toInt)) ∧
  Computes2 .minN (fun a b => BitVec.ofNat 64 (min a.toNat b.toNat)) ∧
  Computes2 .maxS (fun a b => BitVec.ofInt 64 (max a.toInt b.toInt)) ∧
  Computes2 .maxN (fun a b => BitVec.ofNat 64 (max a.toNat b.toNat))

/-- R177: division rounds toward zero, the remainder has the dividend's sign and satisfies a = q × b + r, a zero divisor
gives all ones and the dividend, and −2^63 by −1 gives −2^63 and 0. -/
def Obligations.DivisionResults : Prop :=
  ∃ divS divN remS remN : Word → Word → Word,
    Computes2 .divS divS ∧ Computes2 .divN divN ∧ Computes2 .remS remS ∧ Computes2 .remN remN ∧
    (∀ a, divS a 0 = BitVec.allOnes 64 ∧ divN a 0 = BitVec.allOnes 64 ∧ remS a 0 = a ∧ remN a 0 = a) ∧
    (divS (BitVec.intMin 64) (-1) = BitVec.intMin 64 ∧ remS (BitVec.intMin 64) (-1) = 0) ∧
    (∀ a b : Word, b ≠ 0 → ¬(a = BitVec.intMin 64 ∧ b = -1) →
      (divS a b).toInt = a.toInt.tdiv b.toInt ∧ a.toInt = (divS a b).toInt * b.toInt + (remS a b).toInt ∧
      (0 ≤ a.toInt → 0 ≤ (remS a b).toInt) ∧ (a.toInt ≤ 0 → (remS a b).toInt ≤ 0)) ∧
    (∀ a b : Word, b ≠ 0 → (divN a b).toNat = a.toNat / b.toNat ∧ a.toNat = (divN a b).toNat * b.toNat + (remN a b).toNat)

/-- What the unary and bit-field instructions write (R175, R178). -/
def Sys2Proof.Claims.BitResults : Prop :=
  (∃ clz ctz popc : Word → Word, Computes1 .clz clz ∧ Computes1 .ctz ctz ∧ Computes1 .popc popc ∧
    (∀ a : Word, (clz a).toNat ≤ 64 ∧ (∀ i : Nat, 64 - (clz a).toNat ≤ i → a.getLsbD i = false) ∧
      ((clz a).toNat < 64 → a.getLsbD (63 - (clz a).toNat) = true)) ∧
    (∀ a : Word, (ctz a).toNat ≤ 64 ∧ (∀ i : Nat, i < (ctz a).toNat → a.getLsbD i = false) ∧
      ((ctz a).toNat < 64 → a.getLsbD (ctz a).toNat = true)) ∧
    (∀ a : Word, (popc a).toNat = ((List.range 64).filter (fun i => a.getLsbD i)).length)) ∧
  (∃ bswap : Word → Word, Computes1 .bswap bswap ∧
    ∀ (a : Word) (n : Nat), n < 8 → (bswap a).extractLsb' (8 * (7 - n)) 8 = a.extractLsb' (8 * n) 8) ∧
  (∀ pos w : BitVec 6, pos.toNat + w.toNat < 64 →
    Computes1 (fun g rd ra => .extr g rd ra pos w) (fun a => (a.extractLsb' pos.toNat (w.toNat + 1)).setWidth 64)) ∧
  (∀ w : BitVec 6, Computes1 (fun g rd ra => .sext g rd ra w) (fun a => (a.setWidth (w.toNat + 1)).signExtend 64)) ∧
  (∀ w : BitVec 6, Computes1 (fun g rd ra => .zext g rd ra w) (fun a => (a.setWidth (w.toNat + 1)).setWidth 64)) ∧
  (∀ (g : Guard) (rd : BitVec 6) (ra : Src) (pos w : BitVec 6) (s : State) (a v : Word) (k1 k2 : Bank), goes g s →
    pos.toNat + w.toNat < 64 → Operand (here s) ra a k1 → Result k1 (.reg rd) v k2 →
    (∀ i : Nat, v.getLsbD i = if pos.toNat ≤ i ∧ i ≤ pos.toNat + w.toNat then a.getLsbD (i - pos.toNat)
      else ((here s).getX rd).getLsbD i) →
    exec (.ins g rd ra pos w) s = .next (past s k2))

/-- R179: what the immediate instructions write. -/
def Obligations.ImmediateResults : Prop :=
  (∀ i : BitVec 32, Computes1 (fun g rd ra => .addi g rd ra i) (fun a => a + i.signExtend 64) ∧
    Computes1 (fun g rd ra => .andi g rd ra i) (fun a => a &&& i.signExtend 64) ∧
    Computes1 (fun g rd ra => .ori g rd ra i) (fun a => a ||| i.setWidth 64) ∧
    Computes1 (fun g rd ra => .xori g rd ra i) (fun a => a ^^^ i.setWidth 64)) ∧
  (∀ n : BitVec 6, Computes1 (fun g rd ra => .shli g rd ra n) (fun a => a <<< n.toNat) ∧
    Computes1 (fun g rd ra => .shri g rd ra n) (fun a => a >>> n.toNat) ∧
    Computes1 (fun g rd ra => .srai g rd ra n) (fun a => a.sshiftRight n.toNat)) ∧
  (∀ (g : Guard) (rd : Dst) (i : BitVec 32) (s : State) (k : Bank), goes g s → Result (here s) rd (i.signExtend 64) k →
    exec (.movi g rd i) s = .next (past s k)) ∧
  (∀ (g : Guard) (rd : BitVec 6) (i : BitVec 32) (s : State) (k : Bank), goes g s →
    Result (here s) (.reg rd) (i ++ ((here s).getX rd).setWidth 32) k → exec (.movhi g rd i) s = .next (past s k))

/-- CMP, CMPI, SEL and the condition-register instructions (R57, R180, R181). -/
def Obligations.ConditionResults : Prop :=
  (∀ (g : Guard) (cc : Cond) (c : BitVec 3) (ra rb : Src) (s : State) (a b : Word) (k1 k2 : Bank) (v : Bool), goes g s →
    Operand (here s) ra a k1 → Operand k1 rb b k2 → (v = true ↔ condition cc a b) →
    exec (.cmp g cc c ra rb) s = .next (past s (withC k2 c v))) ∧
  (∀ (g : Guard) (cc : Cond) (c : BitVec 3) (ra : Src) (i : BitVec 32) (s : State) (a : Word) (k1 : Bank) (v : Bool),
    goes g s → Operand (here s) ra a k1 → (v = true ↔ condition cc a (i.signExtend 64)) →
    exec (.cmpi g cc c ra i) s = .next (past s (withC k1 c v))) ∧
  (∀ (g : Guard) (rd : Dst) (ra rb : Src) (c : BitVec 3) (s : State) (a b : Word) (k1 k2 k3 : Bank), goes g s →
    Operand (here s) ra a k1 → Operand k1 rb b k2 → Result k2 rd (if readC (here s) c then a else b) k3 →
    exec (.sel g rd ra rb c) s = .next (past s k3)) ∧
  (∀ (g : Guard) (c a b : BitVec 3) (s : State), goes g s →
    exec (.cand g c a b) s = .next (past s (withC (here s) c (readC (here s) a && readC (here s) b))) ∧
    exec (.cor g c a b) s = .next (past s (withC (here s) c (readC (here s) a || readC (here s) b))) ∧
    exec (.cnot g c a) s = .next (past s (withC (here s) c (!readC (here s) a))))

/-- R173: an instruction of either stream whose guard does not hold has no effect but that the PC moves past it, which
for the C stream includes loop-back. The guard is read off the instruction's first word (R25). -/
def Obligations.GuardFails : Prop :=
  ∀ (i : Instr) (s : State) (w : Nat) (ws : List Nat), wellFormed i = true → runsIn s.cur.kind i = true →
    encode i = some (w :: ws) →
    guardHolds (if s.cur.kind = .c then (here s).cC else (here s).cG) ⟨BitVec.ofNat 3 (fieldAt w 10 3), fieldAt w 13 1 = 1⟩ = false →
    exec i s = .next (if s.cur.kind = .c then pastBy s (here s) (1 + ws.length)
      else s.setBank s.cur.bank { here s with g := { (here s).g with pc := (here s).g.pc + BitVec.ofNat 64 (8 * (1 + ws.length)), wait := none } })

/-! ### Scalar FP32 -/

/-- `f` gives the FP32 code and the flags of an instruction of two FP32 sources (R182). -/
def Sys2Proof.Claims.Computes2F (mk : Guard → Dst → Src → Src → Instr) (f : Nat → Nat → Nat × Nat) : Prop :=
  ∀ (g : Guard) (rd : Dst) (ra rb : Src) (s : State) (a b : Word) (k1 k2 k3 : Bank), goes g s →
    Operand (here s) ra a k1 → Operand k1 rb b k2 →
    Result k2 rd (BitVec.ofNat 64 (f (a.toNat % 2 ^ 32) (b.toNat % 2 ^ 32)).1) k3 →
    exec (mk g rd ra rb) s =
      .next (past s { k3 with fpflags := k3.fpflags ||| BitVec.ofNat 64 (f (a.toNat % 2 ^ 32) (b.toNat % 2 ^ 32)).2 })

/-- FADD, FSUB, FMUL, FMA, FMIN, FMAX, FCMP and FCVT write what the FP32 operations of the model give on bits [31:0] of
their sources, and OR their flags into FPFLAGS (R182 to R185). -/
def Sys2Proof.Claims.FpResults : Prop :=
  (∀ rnd : Rnd, Computes2F (fun g rd ra rb => .fadd g rnd rd ra rb) (fAdd rnd) ∧
    Computes2F (fun g rd ra rb => .fsub g rnd rd ra rb) (fSub rnd) ∧
    Computes2F (fun g rd ra rb => .fmul g rnd rd ra rb) (fMul rnd)) ∧
  Computes2F .fmin (fun a b => (f32Min a b, 0)) ∧ Computes2F .fmax (fun a b => (f32Max a b, 0)) ∧
  (∀ (rnd : Rnd) (g : Guard) (rd : BitVec 6) (ra rb : Src) (s : State) (a b : Word) (k1 k2 k3 : Bank) (r : Nat × Nat),
    goes g s → Operand (here s) ra a k1 → Operand k1 rb b k2 →
    r = fFma rnd (a.toNat % 2 ^ 32) (b.toNat % 2 ^ 32) (((here s).getX rd).toNat % 2 ^ 32) →
    Result k2 (.reg rd) (BitVec.ofNat 64 r.1) k3 →
    exec (.fma g rnd rd ra rb) s = .next (past s { k3 with fpflags := k3.fpflags ||| BitVec.ofNat 64 r.2 })) ∧
  (∀ (g : Guard) (cc : FCond) (c : BitVec 3) (ra rb : Src) (s : State) (a b : Word) (k1 k2 : Bank), goes g s →
    Operand (here s) ra a k1 → Operand k1 rb b k2 →
    exec (.fcmp g cc c ra rb) s = .next (past s (withC k2 c (fcondHolds cc (a.toNat % 2 ^ 32) (b.toNat % 2 ^ 32))))) ∧
  (∀ (g : Guard) (p : FcvtPair) (rnd : Rnd) (rd : Dst) (ra : Src) (s : State) (a : Word) (k1 k2 : Bank), goes g s →
    Operand (here s) ra a k1 → Result k1 rd (fcvtValue p rnd a).1 k2 →
    exec (.fcvt g p rnd rd ra) s =
      .next (past s { k2 with fpflags := k2.fpflags ||| BitVec.ofNat 64 (fcvtValue p rnd a).2 }))

/-- The special cases of R183 and R184, for every pair of codes and every rounding: a NaN operand alone gives the
canonical NaN and no flag, ∞ − ∞ and 0 × ∞ give it with INV, exact cancellation gives +0, and −0 under RDN; the worked
conversions of R185. -/
def Sys2Proof.Claims.FpSpecialCases : Prop :=
  (∀ (rnd : Rnd) (a b : Nat), rnd ≠ .sr → (a % 2 ^ 31 > 0x7F800000 ∨ b % 2 ^ 31 > 0x7F800000) → a < 2 ^ 32 → b < 2 ^ 32 →
    fAdd rnd a b = (0x7FC00000, 0) ∧ fSub rnd a b = (0x7FC00000, 0) ∧ fMul rnd a b = (0x7FC00000, 0) ∧
    f32Min a b = 0x7FC00000 ∧ f32Max a b = 0x7FC00000) ∧
  (∀ rnd : Rnd, rnd ≠ .sr → fAdd rnd 0x7F800000 0xFF800000 = (0x7FC00000, 0x10) ∧ fSub rnd 0x7F800000 0x7F800000 = (0x7FC00000, 0x10) ∧
    fMul rnd 0 0x7F800000 = (0x7FC00000, 0x10) ∧ fMul rnd 0xFF800000 0x80000000 = (0x7FC00000, 0x10) ∧
    fFma rnd 0 0x7F800000 0x7FC00000 = (0x7FC00000, 0x10) ∧ fFma rnd 0x7F800000 0x3F800000 0xFF800000 = (0x7FC00000, 0x10)) ∧
  (∀ (rnd : Rnd) (a : Nat), rnd ≠ .sr → a < 0x7F800000 →
    fSub rnd a a = (if rnd = .rdn then 0x80000000 else 0, 0) ∧
    fAdd rnd a (a + 2 ^ 31) = (if rnd = .rdn then 0x80000000 else 0, 0)) ∧
  f32Max 0x80000000 0 = 0 ∧ f32Max 0 0x80000000 = 0 ∧ f32Min 0x80000000 0 = 0x80000000 ∧ f32Min 0 0x80000000 = 0x80000000 ∧
  fcvtValue .toS32 .rtz 0xBF333333 = (0, 1) ∧ fcvtValue .toS32 .rne 0x4F32D05E = (0x7FFFFFFF, 0x10) ∧
  fcvtValue .toBf16 .rne 0x3F808000 = (0x3F80, 1) ∧ fcvtValue .toF16 .rne 0x477FF000 = (0x7C00, 5) ∧
  fcvtValue .toF16 .rtz 0x477FF000 = (0x7BFF, 1)

/-! ### Control -/

/-- The transfers of the C stream: where the PC goes, the link, and the loops that are left (R186, R187, R191). -/
def Sys2Proof.Claims.ControlTransfers : Prop :=
  (∀ (g : Guard) (off : BitVec 26) (s : State), goes g s →
    exec (.br g off) s = .next (jumps s (here s) ((here s).c.pc + off.signExtend 64 * 8) true)) ∧
  (∀ (g : Guard) (l : BitVec 6) (off : BitVec 26) (s : State) (k : Bank), goes g s →
    Result (here s) (.reg l) ((here s).c.pc + 8) k →
    exec (.call g l off) s = .next (jumps s k ((here s).c.pc + off.signExtend 64 * 8) false)) ∧
  (∀ (g : Guard) (cc : Cond) (ra rb : Src) (off : BitVec 26) (s : State) (a b : Word) (k1 k2 : Bank), goes g s →
    Operand (here s) ra a k1 → Operand k1 rb b k2 →
    (condition cc a b → exec (.bc g cc ra rb off) s = .next (jumps s k2 ((here s).c.pc + off.signExtend 64 * 8) true)) ∧
    (¬condition cc a b → exec (.bc g cc ra rb off) s = .next (past s k2))) ∧
  (∀ (g : Guard) (ra : Src) (s : State) (a : Word) (k1 : Bank), goes g s → Operand (here s) ra a k1 → a.toNat % 8 = 0 →
    exec (.jr g ra) s = .next (jumps s k1 a true) ∧ exec (.ret g ra) s = .next (jumps s k1 a true) ∧
    ∀ (l : BitVec 6) (k2 : Bank), Result k1 (.reg l) ((here s).c.pc + 8) k2 →
      exec (.callr g ra l) s = .next (jumps s k2 a false))

/-- R187: a register target that is not a multiple of 8 traps MISALIGNED at the transfer with the target as TRAPVAL; no
link is written, and nothing is popped. -/
def Obligations.MisalignedTargets : Prop :=
  ∀ (g : Guard) (ra : Src) (l : BitVec 6) (s : State) (a : Word) (k1 : Bank), goes g s → Operand (here s) ra a k1 →
    a.toNat % 8 ≠ 0 → Traps (.jr g ra) s 0x0D a 0 ∧ Traps (.ret g ra) s 0x0D a 0 ∧ Traps (.callr g ra l) s 0x0D a 0

/-- R191: a transfer that leaves loops deactivates every active loop whose range does not contain the target, and
every loop later than one of these, and no other; it keeps the visible counters. -/
def Sys2Proof.Claims.LoopsLeft : Prop :=
  ∀ (lc : Vector LoopReg 4) (target : Word) (i : Fin 4),
    ((leaveLoops lc target)[i]).lc = (lc[i]).lc ∧
    (((leaveLoops lc target)[i]).active = true ↔ (lc[i]).active = true ∧
      ∀ j : Fin 4, (lc[j]).active = true → (lc[j]).order ≤ (lc[i]).order →
        (lc[j]).start.toNat ≤ target.toNat ∧ target.toNat < (lc[j]).stop.toNat)

/-- LOOP of R189: the count is max(0, ⌈bound / step⌉); with a count of 0 the body is skipped as a fall-through, else the
counter is 0, the loop is the newest active one, and the stream falls through into the body (R190). A bound or step outside s32 traps with the
lowest bit that differs from bit 31, and a step of 0 traps LOOP_STEP_ZERO. -/
def Sys2Proof.Claims.LoopStarts : Prop :=
  ∀ (g : Guard) (n : BitVec 2) (ra rb : Src) (off : BitVec 26) (s : State) (a b : Word) (k1 k2 : Bank), goes g s →
    Operand (here s) ra a k1 → Operand k1 rb b k2 →
    let stop := (here s).c.pc + off.signExtend 64 * 8
    (∀ r : Nat, -2 ^ 31 ≤ a.toInt → a.toInt < 2 ^ 31 → -2 ^ 31 ≤ b.toInt → b.toInt < 2 ^ 31 → b ≠ 0 →
      (if (0 < a.toInt ∧ 0 < b.toInt) ∨ (a.toInt < 0 ∧ b.toInt < 0)
        then b.toInt.natAbs * (r - 1) < a.toInt.natAbs ∧ a.toInt.natAbs ≤ b.toInt.natAbs * r else r = 0) →
      exec (.loop g n ra rb off) s =
        if r = 0 then .next (s.setBank s.cur.bank
          (({ k2 with lc := k2.lc.set n.toNat { k2.lc[n.toNat]'(n.isLt) with active := false, order := 0 } n.isLt } : Bank).fallC stop))
        else .next (past s { k2 with
          lc := k2.lc.set n.toNat ⟨0, true, (here s).c.pc + 8, stop, r, b.toInt, 1 + k2.lc.toList.foldl (fun m l => max m l.order) 0⟩ n.isLt })) ∧
    (b = 0 → -2 ^ 31 ≤ a.toInt → a.toInt < 2 ^ 31 → Traps (.loop g n ra rb off) s 0x22 a 0) ∧
    (∀ d : Nat, 32 ≤ d → d < 64 → a.getLsbD d ≠ a.getLsbD 31 → (∀ i : Nat, 32 ≤ i → i < d → a.getLsbD i = a.getLsbD 31) →
      Traps (.loop g n ra rb off) s 0x03 a (BitVec.ofNat 64 (256 + d))) ∧
    (∀ d : Nat, -2 ^ 31 ≤ a.toInt → a.toInt < 2 ^ 31 → 32 ≤ d → d < 64 → b.getLsbD d ≠ b.getLsbD 31 →
      (∀ i : Nat, 32 ≤ i → i < d → b.getLsbD i = b.getLsbD 31) →
      Traps (.loop g n ra rb off) s 0x03 b (BitVec.ofNat 64 (256 + d)))

/-- R190: fall-through to `npc` with no active loop ending there moves the PC; otherwise the latest loop ending there
takes its turn: while iterations remain it counts down, steps its counter and the PC goes to its start, else it is
deactivated and the fall-through goes on; loops later than it are deactivated either way. -/
def Sys2Proof.Claims.LoopBack : Prop :=
  (∀ (k : Bank) (npc : Word), (∀ j : Fin 4, (k.lc[j]).active = true → (k.lc[j]).stop ≠ npc) →
    k.fallC npc = { k with c := { k.c with pc := npc, wait := none } }) ∧
  (∀ (k : Bank) (npc : Word) (i : Fin 4), (k.lc[i]).active = true → (k.lc[i]).stop = npc →
    (∀ j : Fin 4, j ≠ i → (k.lc[j]).active = true → (k.lc[j]).stop = npc → (k.lc[j]).order < (k.lc[i]).order) →
    let cut : Vector LoopReg 4 := k.lc.map (fun q =>
      if q.active = true ∧ (k.lc[i]).order < q.order then { q with active := false, order := 0 } else q)
    let l := k.lc[i]
    (1 < l.rem → k.fallC npc =
      { k with lc := cut.set i { l with rem := l.rem - 1, lc := l.lc + BitVec.ofInt 32 l.step },
               c := { k.c with pc := l.start, wait := none } }) ∧
    (l.rem ≤ 1 → k.fallC npc = ({ k with lc := cut.set i { l with active := false, order := 0 } } : Bank).fallC npc))

/-! ### Loads, stores, atomics, fences -/

/-- A destination that an instruction may write: a register, or a queue that the C stream pushes, with room (R28). -/
def Sys2Proof.Claims.Room (k : Bank) (rd : Dst) : Prop :=
  match rd with
  | .reg _ => True
  | .queue q => q.toNat < 4 ∧ (k.getQ q).length < (if q = 2 ∨ q = 3 then 64 else 16)

/-- The access of `n` bytes through `m` passes the checks of its span and reaches address `addr` (R217, R218, R220), which
lies at `w`, with `s1` the state once translation is done (R331, R332, R352). -/
def Sys2Proof.Claims.Reaches (s : State) (k : Bank) (m : MemRef) (perm n : Nat) (mem spad dev write : Bool) (cause addr : Nat)
    (w : Where) (s1 : State) : Prop :=
  ∃ r : SpanReg, k.ea m perm n n mem spad dev = .ok (addr, r) ∧
    locate s s.cur.bank (here s).asid.toNat r m.sb.toNat addr write cause = .ok (w, s1)

/-- No earlier access of the C path to these bytes is open: no outstanding load, no accepted atomic (R202). -/
abbrev Sys2Proof.Claims.NothingOver (s : State) (p n : Nat) : Prop :=
  (∀ l ∈ (here s).outLoads, overlap l.place l.size p n = false) ∧
    ∀ a ∈ (here s).amons, a.path = 0 → overlap a.place (2 ^ amoTySize a.ty) p n = false

/-- What the L1 line answers to a load of bank `b` (R198): its bytes `l` with the bank's own stores that have not reached the
cluster's cache over them. The load observes what wrote the bytes that it returns: what stands there where these are the bytes that
stand there, else what is noted with the older copy (R203, R204). -/
def Sys2Proof.Claims.L1Answers (s : State) (b : BankId) (p n : Nat) (l bs : List Byte) (s2 : State) : Prop :=
  bs = (List.range n).map (fun i => viewByte (s.ownStores b) (l.getD i 0) (p + i)) ∧
    s2 = if bs = s.viewC b p n then s.noteRead b p n else s.noteSeen b (s.copyWrites b.core p n) (s.copyTags b.core p n)

/-- What a weak load that answers at once reads, and the state it leaves: a device register, another device (a free
value), bytes that no cache holds, or an L1 line with the bank's own stores over it. -/
def Sys2Proof.Claims.LoadAnswers (s : State) (n : Nat) (w : Where) (s1 s2 : State) (bs : List Byte) : Prop :=
  match w with
  | .reg off => s2 = s1 ∧ bs = bytesOf n (s1.windowRead (here s).part off n)
  | .remote d o => bs = (s1.remoteRead d o n).1 ∧ s2 = (s1.remoteRead d o n).2
  | .place p x => NothingOver s p n ∧ s1.eccAt p n = false ∧
      (if uncachedAt p x = true then bs = s1.viewC s.cur.bank p n ∧ s2 = s1.readPast s.cur.bank p n
       else ∃ l, s1.l1Hit s.cur.bank.core p n = some l ∧ L1Answers s1 s.cur.bank p n l bs s2)

/-- What a load that misses the L1 reads, and the state it leaves: the bytes that stand there, the line coming into the L1; or, where
writes of the bank's own transfers are performed that nothing has ordered before its loads, the bytes without them (R208, R245). -/
def Sys2Proof.Claims.MissReads (s : State) (b : BankId) (p n : Nat) (bs : List Byte) (s1 : State) : Prop :=
  bs = s.viewC b p n ∧ s1 = (s.readPast b p n).l1Fill b p ∨ s.early b p n ≠ [] ∧ (bs, s1) = s.readEarly b p n

/-- The value of a byte string as a load of one register writes it: little-endian, zero- or sign-extended (R221). -/
def Sys2Proof.Claims.loaded (sign : Bool) (bs : List Byte) : Word :=
  if sign then BitVec.ofInt 64 (if natOfBytes bs < 2 ^ (8 * bs.length - 1) then natOfBytes bs else natOfBytes bs - 2 ^ (8 * bs.length))
  else BitVec.ofNat 64 (natOfBytes bs)

/-- LD, LD.s and LDP (R221, R222): where the bytes are at hand, the registers take them and the PC moves on; on an L1 miss
the instruction completes with the load outstanding, and LOAD_RETURN writes the registers, unless an older outstanding load reads the
same bytes (R202) or one stands on an uncorrectable error (R233). Which of two allowed values a miss reads is open (log entry 102). -/
def Sys2Proof.Claims.LoadsComplete : Prop :=
  (∀ (g : Guard) (sz : BitVec 2) (sign : Bool) (rd : Dst) (m : MemRef) (s s1 s2 : State) (addr : Nat) (w : Where) (bs : List Byte)
      (k : Bank), goes g s → Room (here s) rd →
    Reaches s (here s) m 1 (2 ^ sz.toNat) true true true false 0x10 addr w s1 → LoadAnswers s (2 ^ sz.toNat) w s1 s2 bs →
    Result (s2.bank s.cur.bank) rd (loaded sign bs) k →
    exec (if sign then .ldSigned g sz rd m else .ld g sz rd m) s = .next (thenPast s s2 k)) ∧
  (∀ (g : Guard) (n : BitVec 6) (m : MemRef) (s s1 s2 : State) (addr : Nat) (w : Where) (bs : List Byte), goes g s →
    Reaches s (here s) m 1 16 true true false false 0x10 addr w s1 → LoadAnswers s 16 w s1 s2 bs →
    exec (.ldp g n m) s = .next (thenPast s s2
      (((s2.bank s.cur.bank).setX n (loaded false (bs.take 8))).setX (n + 1) (loaded false (bs.drop 8))))) ∧
  (∀ (g : Guard) (sz : BitVec 2) (sign : Bool) (rd : Dst) (m : MemRef) (s s1 : State) (addr p : Nat) (x : Option Xlat),
    goes g s → Room (here s) rd → Reaches s (here s) m 1 (2 ^ sz.toNat) true true true false 0x10 addr (.place p x) s1 →
    NothingOver s p (2 ^ sz.toNat) → s1.eccAt p (2 ^ sz.toNat) = false → uncachedAt p x = false →
    s1.l1Hit s.cur.bank.core p (2 ^ sz.toNat) = none →
    let k := s1.bank s.cur.bank
    exec (if sign then .ldSigned g sz rd m else .ld g sz rd m) s = .next (thenPast s s1
      { k with outLoads := k.outLoads ++ [⟨k.nextAcc, rd, p, 2 ^ sz.toNat, sign, false, (here s).c.pc, (here s).nextPc, addr⟩],
               nextAcc := k.nextAcc + 1 })) ∧
  (∀ (g : Guard) (n : BitVec 6) (m : MemRef) (s s1 : State) (addr p : Nat) (x : Option Xlat), goes g s →
    Reaches s (here s) m 1 16 true true false false 0x10 addr (.place p x) s1 →
    NothingOver s p 16 → s1.eccAt p 16 = false → uncachedAt p x = false → s1.l1Hit s.cur.bank.core p 16 = none →
    let k := s1.bank s.cur.bank
    exec (.ldp g n m) s = .next (thenPast s s1
      { k with outLoads := k.outLoads ++ [⟨k.nextAcc, .reg n, p, 16, false, true, (here s).c.pc, (here s).nextPc, addr⟩],
               nextAcc := k.nextAcc + 1 })) ∧
  (∀ (s : State) (b : BankId) (l : OutLoad), (s.bank b).outLoads.find? (fun q => q.id = l.id) = some l →
    (∀ q ∈ (s.bank b).outLoads.takeWhile (fun q => q.id ≠ l.id), overlap q.place q.size l.place l.size = false) →
    (∀ q ∈ (s.bank b).outLoads, s.eccAt q.place q.size = false) →
    ∃ (bs : List Byte) (s1 : State),
    (match s.l1Hit b.core l.place l.size with
      | some h => L1Answers s b l.place l.size h bs s1
      | none => MissReads s b l.place l.size bs s1) ∧
    ∀ k : Bank, (if l.pair then ∃ n, l.dst = .reg n ∧
        k = ((s1.bank b).setX n (loaded false (bs.take 8))).setX (n + 1) (loaded false (bs.drop 8))
      else Result (s1.bank b) l.dst (loaded l.sign bs) k) →
    exec (.loadReturn b l.id) s = .next (s1.setBank b { k with outLoads := k.outLoads.filter (fun q => q.id ≠ l.id) }))

/-- The checks of an access through a span, in their order (R18, R217, R220): an invalid span, an offset out of bounds and
a missing permission trap with the offset and the span's number; a misaligned address traps with the address. -/
def Obligations.SpanTraps : Prop :=
  ∀ (g : Guard) (sz : BitVec 2) (n : BitVec 6) (src : BitVec 6) (m : MemRef) (s : State), goes g s →
    let r := (here s).getB m.sb
    let o : Word := (here s).getX m.xi + m.off.signExtend 64
    let lo := r.bits.extractLsb' 0 64
    let hi := r.bits.extractLsb' 64 64
    let perm := r.bits.extractLsb' 128 8
    let num := BitVec.ofNat 64 m.sb.toNat
    let both := fun (cause : Nat) (val aux : Word) =>
      Traps (.ld g sz (.reg n) m) s cause val aux ∧ Traps (.st g sz (.reg src) m) s cause val aux
    (r.valid = false → both 0x08 o num) ∧
    (r.valid = true → (o.toInt < 0 ∨ (hi.toNat : Int) - lo.toNat < o.toInt + 2 ^ sz.toNat) → both 0x09 o num) ∧
    (r.valid = true → 0 ≤ o.toInt → o.toInt + 2 ^ sz.toNat ≤ (hi.toNat : Int) - lo.toNat →
      (perm.getLsbD 0 = false → Traps (.ld g sz (.reg n) m) s 0x0A o num) ∧
      (perm.getLsbD 1 = false → Traps (.st g sz (.reg src) m) s 0x0A o num) ∧
      (perm = 3 → r.bits.extractLsb' 136 3 ∈ [0, 1, 2] → (lo.toNat + o.toNat) % 2 ^ sz.toNat ≠ 0 →
        both 0x0D (BitVec.ofNat 64 (lo.toNat + o.toNat)) 0))

/-- ST and STP complete with their store queued, or with the device register or the other device written; a fault of
their translation is held, not taken (R199, R214, R221). -/
def Sys2Proof.Claims.StoresComplete : Prop :=
  (∀ (g : Guard) (sz : BitVec 2) (rs : Src) (m : MemRef) (s s1 : State) (v : Word) (k1 : Bank) (addr : Nat) (w : Where), goes g s →
    Operand (here s) rs v k1 → Reaches s (here s) m 2 (2 ^ sz.toNat) true true true true 0x12 addr w s1 →
    let n := 2 ^ sz.toNat
    let s2 := s1.setBank s.cur.bank k1
    match w with
    | .place p x => NothingOver s p n → exec (.st g sz rs m) s = .next (goesOn s (s2.queueStore s.cur.bank addr p (bytesOf n v.toNat) (uncachedAt p x) none none))
    | .reg off => exec (.st g sz rs m) s = .next (goesOn s (s2.windowWrite (here s).part off n (BitVec.ofNat 64 (natOfBytes (bytesOf n v.toNat)))))
    | .remote d o => exec (.st g sz rs m) s = .next (goesOn s (s2.remoteWrite d o (bytesOf n v.toNat)))) ∧
  (∀ (g : Guard) (n : BitVec 6) (m : MemRef) (s s1 : State) (addr p : Nat) (x : Option Xlat), goes g s →
    Reaches s (here s) m 2 16 true true false true 0x12 addr (.place p x) s1 → NothingOver s p 16 →
    exec (.stp g n m) s = .next (goesOn s ((s1.setBank s.cur.bank (here s)).queueStore s.cur.bank addr p
        (bytesOf 8 ((here s).getX n).toNat ++ bytesOf 8 ((here s).getX (n + 1)).toNat) (uncachedAt p x) none none))) ∧
  (∀ (g : Guard) (sz : BitVec 2) (rs : Src) (m : MemRef) (s : State) (v : Word) (k1 : Bank) (addr : Nat) (r : SpanReg) (f : TrapInfo),
    goes g s → Operand (here s) rs v k1 → (here s).ea m 2 (2 ^ sz.toNat) (2 ^ sz.toNat) true true true = .ok (addr, r) →
    locate s s.cur.bank (here s).asid.toNat r m.sb.toNat addr true 0x12 = .error f → f.cause = 0x12 →
    exec (.st g sz rs m) s = .next (goesOn s ((s.setBank s.cur.bank k1).queueStore s.cur.bank addr 0 [] true none (some ⟨0x12, BitVec.ofNat 64 addr, 0, 0⟩))))

/-- WEAK_STORE_PERFORM: a pending store with no fault is performed: its bytes stand in memory and it is pending no more. Where no
store that stands before it in its coherence order overlaps it, and none that is already performed at its home slice, no other byte
and no other pending store has changed. Memory is in its canonical form. -/
def Sys2Proof.Claims.WeakStorePerformed : Prop :=
  ∀ (s : State) (p : PendStore), memWf s.mem = true → s.pend.find? (fun q => q.id = p.id) = some p → p.fault = none →
    s.eccAt p.place p.data.length = false →
    (∀ q ∈ (s.orderOf p).takeWhile (fun q => q.id ≠ p.id), q.meets p.place p.data.length = false) →
    (p.home = false → ∀ q ∈ s.pend, q.home = true → q.meets p.place p.data.length = false) →
    ∃ t, exec (.weakStorePerform p.id) s = .next t ∧ t.pend = s.pend.filter (fun q => q.id ≠ p.id) ∧
      (∀ i : Nat, i < p.data.length → readByte t.mem (p.place + i) = p.data.getD i 0) ∧
      (∀ a : Nat, a < p.place ∨ p.place + p.data.length ≤ a → readByte t.mem a = readByte s.mem a) ∧ t.banks = s.banks ∧ memWf t.mem = true

/-- STL is a release (R203, R215): with nothing outstanding and no fault to report, the stores that it covers are
released and its own store is queued behind them, naming them. -/
def Sys2Proof.Claims.StoreRelease : Prop :=
  ∀ (g : Guard) (sz : BitVec 2) (sc : Scope) (rs : Src) (m : MemRef) (s s1 : State) (v : Word) (k1 k2 : Bank) (addr p : Nat)
      (x : Option Xlat), goes g s →
    Operand (here s) rs v k1 → Reaches s (here s) m 2 (2 ^ sz.toNat) true true true true 0x11 addr (.place p x) s1 →
    (s1.bank s.cur.bank).outLoads = [] → (∀ a ∈ (s1.bank s.cur.bank).amons, a.path ≠ 0) →
    let s2 := s1.releaseStores s.cur.bank sc
    (s2.bank s.cur.bank).held = [] → s2.eccAt p (2 ^ sz.toNat) = false → Operand (s2.bank s.cur.bank) rs v k2 →
    exec (.stl g sz sc rs m) s = .next (goesOn s ((s2.setBank s.cur.bank k2).queueStore s.cur.bank addr p (bytesOf (2 ^ sz.toNat) v.toNat) (uncachedAt p x)
        (some (sc, s1.coveredBy s.cur.bank)) none))

/-- LDA and WAITA read at once, past the L1 at `.cl` and wider, and acquire (R203, R221, R228); LDA at `.co` may be answered by
the L1, and where what it reads is an older copy, it synchronises with the releases of that copy. A WAITA whose condition
holds, or whose deadline has passed, completes with the value read. -/
def Sys2Proof.Claims.AcquiringReads : Prop :=
  (∀ (g : Guard) (sz : BitVec 2) (sc : Scope) (rd : Dst) (m : MemRef) (s s1 : State) (addr p : Nat) (x : Option Xlat) (k : Bank),
    goes g s → Room (here s) rd → Reaches s (here s) m 1 (2 ^ sz.toNat) true true true false 0x10 addr (.place p x) s1 →
    NothingOver s p (2 ^ sz.toNat) → s1.eccAt p (2 ^ sz.toNat) = false →
    (sc = .co → uncachedAt p x = false → s1.l1Hit s.cur.bank.core p (2 ^ sz.toNat) = none) →
    let b := s.cur.bank
    let s2 := (s1.readPlace b p (2 ^ sz.toNat) x).acquire b sc p (2 ^ sz.toNat)
    Result (s2.bank b) rd (loaded false (s1.viewC b p (2 ^ sz.toNat))) k →
    exec (.lda g sz sc rd m) s = .next (thenPast s s2 k)) ∧
  (∀ (g : Guard) (sz : BitVec 2) (rd : Dst) (m : MemRef) (s s1 s2 : State) (addr p : Nat) (x : Option Xlat) (l bs : List Byte) (k : Bank),
    goes g s → Room (here s) rd → Reaches s (here s) m 1 (2 ^ sz.toNat) true true true false 0x10 addr (.place p x) s1 →
    NothingOver s p (2 ^ sz.toNat) → s1.eccAt p (2 ^ sz.toNat) = false → uncachedAt p x = false →
    let b := s.cur.bank
    s1.l1Hit b.core p (2 ^ sz.toNat) = some l → L1Answers s1 b p (2 ^ sz.toNat) l bs s2 →
    let s3 := if bs = s1.viewC b p (2 ^ sz.toNat) then s2.acquire b .co p (2 ^ sz.toNat)
      else s2.acquireTags b .co (s1.copyTags b.core p (2 ^ sz.toNat))
    Result (s3.bank b) rd (loaded false bs) k →
    exec (.lda g sz .co rd m) s = .next (thenPast s s3 k)) ∧
  (∀ (g : Guard) (sz : BitVec 2) (sc : Scope) (rd : Dst) (m : MemRef) (s s1 s2 : State) (addr : Nat) (w : Where) (bs : List Byte)
      (k : Bank), goes g s → Room (here s) rd → Reaches s (here s) m 1 (2 ^ sz.toNat) true true true false 0x10 addr w s1 →
    (∀ p x, w ≠ .place p x) → LoadAnswers s (2 ^ sz.toNat) w s1 s2 bs →
    let s3 := s2.dropL1 s.cur.bank.core sc
    Result (s3.bank s.cur.bank) rd (loaded false bs) k → exec (.lda g sz sc rd m) s = .next (thenPast s s3 k)) ∧
  (∀ (g : Guard) (cc : Cond) (wide : Bool) (sc : Option Scope) (rd : Dst) (m : MemRef) (n2 n3 : BitVec 6) (s s1 : State)
      (addr p : Nat) (x : Option Xlat) (k : Bank),
    goes g s → (here s).c.wait = none → Room (here s) rd →
    let n := if wide then 8 else 4
    Reaches s (here s) m 1 n true true false false 0x10 addr (.place p x) s1 → NothingOver s p n → s1.eccAt p n = false →
    let b := s.cur.bank
    let v := loaded false (s1.viewC b p n)
    (waitaHolds cc wide v ((here s).getX n2) = true ∨ n3 ≠ 0 ∧ ((here s).getX n3).toNat ≤ s1.dtc) →
    let s2 := s1.readPlace b p n x
    let s3 := match sc with
      | some c => s2.acquire b c p n
      | none => s2
    Result (s3.bank b) rd v k →
    exec (.waita g cc wide sc rd m (.reg n2) (.reg n3)) s = .next (thenPastBy s s3 k 2))

/-- What an atomic operation computes from the old value and the operand, as numbers of the type's width (R224). -/
def Sys2Proof.Claims.amoResult (op : AmoOp) (ty : AmoTy) (old v : Nat) : Nat :=
  let w := 8 * 2 ^ amoTySize ty
  let signed := ty = .s32 ∨ ty = .s64
  match op with
  | .add => (old + v) % 2 ^ w
  | .and => Nat.land old v
  | .or => Nat.lor old v
  | .xor => Nat.xor old v
  | .min => if signed then (if (BitVec.ofNat w old).toInt ≤ (BitVec.ofNat w v).toInt then old else v) else min old v
  | .max => if signed then (if (BitVec.ofNat w old).toInt ≤ (BitVec.ofNat w v).toInt then v else old) else max old v
  | .swap => v
  | .fadd => if ty = .bf16 then bf16AddRne old v else (fAdd .rne old v).1
  | .fmin => f32Min old v
  | .fmax => f32Max old v

/-- An atomic of path `path` (0 C, 3 B, 4 N) reaches the bytes at place `p`, and no outstanding load of path C reads them. -/
def Sys2Proof.Claims.AtomicAt (s : State) (k : Bank) (m : MemRef) (path perm n addr p : Nat) (x : Option Xlat) (s1 : State) : Prop :=
  Reaches s k m perm n (path ≠ 3) (path = 3) false true 0x11 addr (.place p x) s1 ∧ s1.eccAt p n = false ∧
    (path = 0 → ∀ l ∈ (here s).outLoads, overlap l.place l.size p n = false)

/-- AMO, AMO.B, AMO.N and the CAS forms: the bytes are read at their point of coherence and replaced in one step, and the
destination takes the old value, sign-extended for s32 (R223 to R226). The write carries the releases of earlier FENCE.rel on
path C (R204), and an acquiring form acquires on its own path. A relaxed or acquiring form with register operands, that no accepted
atomic of its path stands before (R202, R211). -/
def Sys2Proof.Claims.AtomicsComplete : Prop :=
  ∀ (g : Guard) (op : AmoOp) (ty : AmoTy) (ord : Order) (sc : Scope) (rd : Dst) (m : MemRef) (n2 n3 : BitVec 6) (s s1 : State)
      (addr p : Nat) (x : Option Xlat) (k : Bank) (path : Nat) (i : Instr) (new : Nat → Nat) (wide : Bool), goes g s → Room (here s) rd →
    let t := if i = .cas g wide ord sc rd m (.reg n2) (.reg n3) ∨ i = .casB g wide ord sc rd m (.reg n2) (.reg n3)
      then (if wide then AmoTy.n64 else .n32) else ty
    let n := 2 ^ amoTySize t
    let v := ((here s).getX n2).toNat % 2 ^ (8 * n)
    let c := ((here s).getX n3).toNat % 2 ^ (8 * n)
    (i = .amo g op ty ord sc rd m (.reg n2) ∧ path = 0 ∧ new = (fun old => amoResult op ty old v) ∨
      i = .amoB g op ty ord sc rd m (.reg n2) ∧ path = 3 ∧ new = (fun old => amoResult op ty old v) ∨
      i = .amoN g op ty ord sc rd m (.reg n2) ∧ path = 4 ∧ new = (fun old => amoResult op ty old v) ∨
      i = .cas g wide ord sc rd m (.reg n2) (.reg n3) ∧ path = 0 ∧ new = (fun old => if old = v then c else old) ∨
      i = .casB g wide ord sc rd m (.reg n2) (.reg n3) ∧ path = 3 ∧ new = (fun old => if old = v then c else old)) →
    ord ≠ .rel → ord ≠ .ar → AtomicAt s (here s) m path 11 n addr p x s1 → (here s).behind path p n = false →
    let b := s.cur.bank
    let s2 := s1.setBank b (here s)
    let s3 := if path = 0 then s2.readPast b p n else s2
    let s4 := if ord = .acq then s3.acquireOn b path sc p n else s3
    let r := s4.rmw b path p n new
    Result (r.2.bank b) rd (if t = .s32 then (BitVec.ofNat 32 r.1).signExtend 64 else BitVec.ofNat 64 r.1) k →
    exec i s = .next (thenPastBy s (r.2.tagWrite p n b.core (if path = 0 then (s4.bank b).relFence else [])) k 2)

/-- The bytes that an atomic reads and writes, for every operation: where no pending write meets them, memory holds the new value
little-endian, every other byte is unchanged, and the canonical form is kept. -/
def Sys2Proof.Claims.AtomicWrites : Prop :=
  ∀ (s : State) (b : BankId) (path p n : Nat) (new : Nat → Nat), memWf s.mem = true → (∀ q ∈ s.pend, q.meets p n = false) →
    (s.rmw b path p n new).1 = s.readNum p n ∧
    (s.rmw b path p n new).2.readNum p n = new (s.readNum p n) % 256 ^ n ∧
    (∀ a : Nat, a < p ∨ p + n ≤ a → readByte (s.rmw b path p n new).2.mem a = readByte s.mem a) ∧
    (s.rmw b path p n new).2.banks = s.banks ∧ memWf (s.rmw b path p n new).2.mem = true

/-- The state in which the running stream's return-free atomic has been accepted from state `t`: it stands last in its bank's list,
with its operand, its place, its turn among the stream's stores, and the releases that its write will carry. The source was
popped from the queues as `k1` has them. -/
def Sys2Proof.Claims.accepted (s t : State) (k1 : Bank) (path : Nat) (op : AmoOp) (ty : AmoTy) (v : Word) (p addr : Nat)
    (rels : List (Scope × List Nat)) : State :=
  let k := { t.bank s.cur.bank with q := k1.q }
  thenPastBy s { t with nextStore := t.nextStore + 1 } { k with
    amons := k.amons ++ [⟨k.nextAcc, path, op, ty, BitVec.ofNat 64 (v.toNat % 2 ^ (8 * 2 ^ amoTySize ty)), p, addr, t.nextStore, rels⟩],
    nextAcc := k.nextAcc + 1 } 2

/-- AMON, AMON.B and AMON.N complete once accepted (R227), for every operand form, relaxed and `.rel`. A releasing one has its
path's release first (R203, R226): on path C the covered stores, with nothing outstanding; on B and N the stream's accepted
atomics of that path are over, and on B its sorts have written their lists (R248). AMON_PERFORM completes too: the accepted operation is performed, behind those that it must follow
(R202, R211), and its write carries its releases; a held fault stands in its place where it meets an error. Where that fault stands
among those of other paths is the model's choice (log entry 76), and so is that the last atomic of an aborted job ends the abort (log
entry 65). -/
def Obligations.ReturnFreeAtomics : Prop :=
  (∀ (g : Guard) (op : AmoOp) (ty : AmoTy) (rel : Bool) (sc : Scope) (m : MemRef) (src : Src) (s s1 : State) (v : Word) (k1 : Bank)
      (addr p : Nat) (x : Option Xlat) (path : Nat) (i : Instr), goes g s →
    (i = .amon g op ty rel sc m src ∧ path = 0 ∨ i = .amonB g op ty rel sc m src ∧ path = 3 ∨
      i = .amonN g op ty rel sc m src ∧ path = 4) →
    Operand (here s) src v k1 → AtomicAt s (here s) m path 10 (2 ^ amoTySize ty) addr p x s1 →
    let b := s.cur.bank
    (rel = false → exec i s = .next (accepted s s1 k1 path op ty v p addr (if path = 0 then (here s).relFence else []))) ∧
    (rel = true → path = 0 → (here s).outLoads = [] → (∀ a ∈ (here s).amons, a.path ≠ 0) →
      let s2 := s1.releaseStores b sc
      (s2.bank b).held = [] →
      exec i s = .next (accepted s s2 k1 path op ty v p addr ((sc, s1.coveredBy b) :: (s2.bank b).relFence))) ∧
    (rel = true → path ≠ 0 → (∀ a ∈ (here s).amons, a.path ≠ path) →
      let s2 := if path = 3 then s1.performAll (s1.bankAlu b) else s1
      (s2.bank b).held = [] → exec i s = .next (accepted s s2 k1 path op ty v p addr [(sc, [])]))) ∧
  (∀ (s : State) (b : BankId) (a : Amon), (s.bank b).amons.find? (fun q => q.id = a.id) = some a →
    let n := 2 ^ amoTySize a.ty
    let late := ({ s.bank b with amons := (s.bank b).amons.takeWhile (fun q => q.id ≠ a.id) } : Bank).behind a.path a.place n
    let s1 := s.modBank b (fun k => { k with amons := k.amons.filter (fun q => q.id ≠ a.id) })
    let s2 := if a.path = 0 then s1.readPast b a.place n else s1
    let t := if s.eccAt a.place n = true then s1.modBank b (fun k =>
        { k with held := if a.path = 0 then holdInOrder ⟨0x38, BitVec.ofNat 64 a.va, 0, a.seq⟩ k.held
                         else k.held ++ [⟨0x38, BitVec.ofNat 64 a.va, BitVec.ofNat 64 a.path, 0⟩] })
      else (s2.rmw b a.path a.place n (fun old => amoResult a.op a.ty old a.val.toNat)).2.tagWrite a.place n b.core a.rel
    (late = false → exec (.amonPerform b a.id) s = .next (match (s.bank b).binding with
      | some c => t.finishAbort c.job
      | none => t)) ∧
    (late = true → exec (.amonPerform b a.id) s = .next s))

/-- FENCE, FENCE.P, PREF and FLUSH (R204, R209, R230 to R232): with nothing to wait for and no fault to report they
complete; FENCE with a release performs what it covers, and every later write carries that release,
beside the wider ones of earlier fences. FENCE.P waits while an
access of a path that it names is open. -/
def Obligations.FencesComplete : Prop :=
  (∀ (g : Guard) (sc : Scope) (s : State), goes g s → (here s).outLoads = [] → (here s).held = [] →
    exec (.fence g .acq sc) s = .next (goesOn s (s.fenceAcquire s.cur.bank sc))) ∧
  (∀ (g : Guard) (sc : Scope) (s : State), goes g s → (here s).outLoads = [] → (∀ a ∈ (here s).amons, a.path ≠ 0) →
    let s1 := s.releaseStores s.cur.bank sc
    (s1.bank s.cur.bank).held = [] →
    let s2 := s1.modBank s.cur.bank (fun k => { k with
      relFence := (sc, s.coveredBy s.cur.bank) :: k.relFence.filter (fun r => scopeRank sc < scopeRank r.1) })
    exec (.fence g .rel sc) s = .next (goesOn s s2) ∧ exec (.fence g .ar sc) s = .next (goesOn s (s2.fenceAcquire s.cur.bank sc))) ∧
  (∀ (g : Guard) (mask : BitVec 6) (s : State), goes g s →
    let s0 := s.performEngines s.cur.bank mask
    let s1 := if mask.getLsbD 0 then s0.performCovered s.cur.bank else s0
    (s.pathsOpen s.cur.bank mask = false → (s1.bank s.cur.bank).held = [] →
      exec (.fenceP g mask) s = .next (goesOn s
        (if mask.getLsbD 0 ∧ (mask.getLsbD 4 ∨ mask.getLsbD 5) then s1.dropL1 s.cur.bank.core .cl else s1))) ∧
    (s.pathsOpen s.cur.bank mask = true →
      exec (.fenceP g mask) s = .next (s.setBank s.cur.bank
        { here s with c := (here s).c.waiting s.dtc .fenceP mask.toNat 0 [] }))) ∧
  (∀ (g : Guard) (sc : Scope) (m : MemRef) (s s1 : State) (addr p : Nat) (x : Option Xlat), goes g s →
    Reaches s (here s) m 1 1 true true false false 0x10 addr (.place p x) s1 →
    exec (.pref g m) s = .next (goesOn s (if uncachedAt p x then s1 else s1.l1Fill s.cur.bank p)) ∧
    exec (.flush g sc m) s = .next (goesOn s (if uncachedAt p x then s1 else s1.flushLine s.cur.bank p sc)))

/-- The wakes of the C path: a stream that waits for the cause that fires issues its instruction again (log entry 6);
WAIT_DEADLINE fires once the DTC has reached the deadline saved with the wait (R228). -/
def Sys2Proof.Claims.AccessWakes : Prop :=
  (∀ (s : State) (b : BankId) (w : Wait), (s.bank b).c.wait = some w →
    ((w.tag = .fenceP ∨ w.tag = .access) → exec (.fencePComplete b) s = .next { s with turns := .issue ⟨b, .c⟩ :: s.turns }) ∧
    (w.tag = .waita → exec (.waitaWake b) s = .next { s with turns := .issue ⟨b, .c⟩ :: s.turns }) ∧
    (∀ (d : Word) (l : List Word), (w.tag = .waita ∨ w.tag = .flag ∨ w.tag = .evwait) → w.vals = l ++ [d] → d.toNat ≤ s.dtc →
      exec (.waitDeadline b) s = .next { s with turns := .issue ⟨b, .c⟩ :: s.turns }))

/-! ### Tensor, mapping and format registers -/

/-- The 512 bits at the address of `m` as path C reads them (R148), with the state once they are read. -/
def Sys2Proof.Claims.Reads512 (s : State) (m : MemRef) (v : BitVec 512) (s2 : State) : Prop :=
  ∃ (addr p : Nat) (x : Option Xlat) (s1 : State), Reaches s (here s) m 1 64 true true false false 0x10 addr (.place p x) s1 ∧
    NothingOver s p 64 ∧ s1.eccAt p 64 = false ∧ ∃ bs : List Byte, v = BitVec.ofNat 512 (natOfBytes bs) ∧
    match (if uncachedAt p x then none else s1.l1Hit s.cur.bank.core p 64) with
    | some l => L1Answers s1 s.cur.bank p 64 l bs s2
    | none => bs = s1.viewC s.cur.bank p 64 ∧ s2 = s1.readPast s.cur.bank p 64

/-- The span register that a descriptor names in bits [62:59]. -/
def Sys2Proof.Claims.named (k : Bank) (v : BitVec 512) : SpanReg := k.getB (v.extractLsb' 59 4)

/-- TDEF, TLD, MLD, TST and MST move 512 bits between memory and a register (R148): TDEF and TLD capture the span that the
descriptor names and keep the owner; the stores are queued whatever the owner. -/
def Obligations.TensorMoves : Prop :=
  (∀ (g : Guard) (t : BitVec 5) (m : MemRef) (s s2 : State) (v : BitVec 512), goes g s → Reads512 s m v s2 →
    wellFormedDesc v = .ok () → ((here s).getT t).owner = .c →
    let k := s2.bank s.cur.bank
    let k2 : Bank := { k with t := k.t.set t.toNat ⟨v, .c, named k v⟩ t.isLt }
    exec (.tld g t m) s = .next (thenPast s s2 k2) ∧
    ((∃ w, checkUse s2 s.cur.bank v (named k v) t.toNat (if grants (named k v).bits 2 then 0 else 1) false = .ok w) →
      exec (.tdef g t m) s = .next (thenPast s s2 k2))) ∧
  (∀ (g : Guard) (n : BitVec 3) (m : MemRef) (s s2 : State) (v : BitVec 512), goes g s → Reads512 s m v s2 →
    let k := s2.bank s.cur.bank
    exec (.mld g n m) s = .next (thenPast s s2 { k with m := k.m.set n.toNat v n.isLt })) ∧
  (∀ (g : Guard) (t : BitVec 5) (n : BitVec 3) (m : MemRef) (s s1 : State) (addr p : Nat) (x : Option Xlat), goes g s →
    Reaches s (here s) m 2 64 true true false true 0x12 addr (.place p x) s1 → NothingOver s p 64 →
    let put := fun (v : BitVec 512) =>
      goesOn s ((s1.setBank s.cur.bank (here s)).queueStore s.cur.bank addr p (bytesOf 64 v.toNat) (uncachedAt p x) none none)
    exec (.tst g t m) s = .next (put ((here s).getT t).desc) ∧ exec (.mst g n m) s = .next (put ((here s).getM n)))

/-- TSET, TGET, THAND, GTHAND, BFSET, MAP, MAP.tile and MCLR (R150 to R153): the word, field or owner that each writes,
and nothing else. -/
def Sys2Proof.Claims.TensorRegisters : Prop :=
  (∀ (g : Guard) (t : BitVec 5) (ra : Src) (n : BitVec 3) (s : State) (a : Word) (k1 : Bank) (v : BitVec 512), goes g s →
    Operand (here s) ra a k1 → ((here s).getT t).owner = .c → wellFormedDesc v = .ok () →
    (∀ i : Nat, v.getLsbD i = if 64 * n.toNat ≤ i ∧ i < 64 * n.toNat + 64 then a.getLsbD (i - 64 * n.toNat)
      else ((here s).getT t).desc.getLsbD i) →
    exec (.tset g t ra n) s = .next (past s { k1 with t := k1.t.set t.toNat ⟨v, .c, named k1 v⟩ t.isLt })) ∧
  (∀ (g : Guard) (rd : Dst) (t : BitVec 5) (n : BitVec 3) (s : State) (k : Bank), goes g s →
    Result (here s) rd (((here s).getT t).desc.extractLsb' (64 * n.toNat) 64) k → exec (.tget g rd t n) s = .next (past s k)) ∧
  (∀ (g : Guard) (t : BitVec 5) (s : State), goes g s → exec (.thand g t) s =
    .next (past s { here s with t := (here s).t.set t.toNat { (here s).getT t with owner := .g } t.isLt })) ∧
  (∀ (g : Guard) (t : BitVec 5) (s : State), goesG g s → exec (.gthand g t) s =
    .next (s.setBank s.cur.bank { here s with t := (here s).t.set t.toNat { (here s).getT t with owner := .c } t.isLt,
                                              g := { (here s).g with pc := (here s).g.pc + 8, wait := none } })) ∧
  (∀ (g : Guard) (n : BitVec 4) (ra : Src) (s : State) (v : Word) (k1 : Bank), goes g s → Operand (here s) ra v k1 →
    lowestOf (bfmtOffences v) = none →
    exec (.bfset g n ra) s = .next (past s { k1 with bfmt := k1.bfmt.set n.toNat v n.isLt })) ∧
  (∀ (g : Guard) (n slot : BitVec 3) (pos : BitVec 2) (ra : Src) (s : State) (a : Word) (k1 : Bank) (v : BitVec 512), goes g s →
    Operand (here s) ra a k1 →
    let put := fun (lo w : Nat) => ∀ i : Nat, v.getLsbD i = if lo ≤ i ∧ i < lo + w then a.getLsbD (i - lo) else ((here s).getM n).getLsbD i
    (a.toNat < 2 ^ 15 → put (60 * slot.toNat + 15 * pos.toNat) 15 →
      exec (.map g n ra slot pos) s = .next (past s { k1 with m := k1.m.set n.toNat v n.isLt })) ∧
    (a.toNat < 2 ^ 10 → put 480 10 → exec (.mapTile g n ra) s = .next (past s { k1 with m := k1.m.set n.toNat v n.isLt }))) ∧
  (∀ (g : Guard) (n : BitVec 3) (s : State), goes g s →
    exec (.mclr g n) s = .next (past s { here s with m := (here s).m.set n.toNat 0 n.isLt }))

/-- While a tensor register is owned by G, TSET, TLD and TDEF of it wait, TLD and TDEF once their span is checked (R142), and TENSOR_OWNER_WAKE lets the stream issue
again; a descriptor that would not be well-formed traps SHAPE_MISMATCH and is not written (R145). -/
def Sys2Proof.Claims.TensorOwners : Prop :=
  (∀ (g : Guard) (t : BitVec 5) (ra : Src) (n : BitVec 3) (s : State) (a : Word) (k1 : Bank), goes g s → Operand (here s) ra a k1 →
    ((here s).getT t).owner = .g →
    exec (.tset g t ra n) s = .next (s.setBank s.cur.bank
      { here s with c := (here s).c.waiting s.dtc .tensorOwner t.toNat 0 [] })) ∧
  (∀ (g : Guard) (t : BitVec 5) (m : MemRef) (s : State) (addr : Nat) (r : SpanReg), goes g s →
    (here s).ea m 1 64 64 true true false = .ok (addr, r) → ((here s).getT t).owner = .g →
    let t' := s.setBank s.cur.bank { here s with c := (here s).c.waiting s.dtc .tensorOwner t.toNat 0 [] }
    exec (.tld g t m) s = .next t' ∧ exec (.tdef g t m) s = .next t') ∧
  (∀ (s : State) (b : BankId) (w : Wait), (s.bank b).c.wait = some w → w.tag = .tensorOwner →
    exec (.tensorOwnerWake b) s = .next { s with turns := .issue ⟨b, .c⟩ :: s.turns }) ∧
  (∀ (g : Guard) (t : BitVec 5) (ra : Src) (n : BitVec 3) (s : State) (a : Word) (k1 : Bank) (e : TrapInfo), goes g s →
    Operand (here s) ra a k1 → ((here s).getT t).owner = .c →
    wellFormedDesc (setField512 ((here s).getT t).desc (64 * n.toNat) 64 a.toNat) = .error e →
    e.cause = 0x1B ∧ Traps (.tset g t ra n) s 0x1B e.val e.aux)

/-! ### Grid instructions -/

/-- Source slot of the G stream: a y register, or bits [31:0] of a queue's head (R29). -/
def Sys2Proof.Claims.GOperand (k : Bank) (src : GSrc) (v : Word32) (k' : Bank) : Prop :=
  match src with
  | .reg n => v = k.getY n ∧ k' = k
  | .queue q peek => q.toNat < 4 ∧ ∃ (w : Word) (l : List Word), k.getQ q = w :: l ∧ v = w.setWidth 32 ∧ k' = if peek then k else k.setQ q l

/-- Destination slot of the G stream: a pushed entry has bits [63:32] zero (R29). -/
def Sys2Proof.Claims.GResult (k : Bank) (dst : GDst) (v : Word32) (k' : Bank) : Prop :=
  match dst with
  | .reg n => k' = { k with y := k.y.set n.toNat v n.isLt }
  | .queue q => 4 ≤ q.toNat ∧ (k.getQ q).length < 16 ∧ k' = k.setQ q (k.getQ q ++ [v.setWidth 64])

/-- The state after a G-stream instruction of `len` words that leaves its bank as `k`. -/
def Sys2Proof.Claims.pastG (s t : State) (k : Bank) (len : Nat) : State :=
  t.setBank s.cur.bank { k with g := { k.g with pc := (here s).g.pc + BitVec.ofNat 64 (8 * len), wait := none } }

/-- `i` is the grid instruction with operation `w` of `len` words, and `k1` the bank once X is read. -/
def Sys2Proof.Claims.GridForm (g : Guard) (i : Instr) (w : GridWhat) (len : Nat) (k k1 : Bank) : Prop :=
  (∃ a : GridArgs, len = 2 ∧ k1 = k ∧ (i = .ctr g a ∧ w = .ctr a ∨ i = .ctrs g a ∧ w = .ctrs a ∨ i = .red g a ∧ w = .red a ∨
    i = .cvt g a ∧ w = .cvt a)) ∨
  (∃ (a : EwrArgs) (x : Word32), len = 3 ∧ i = .ewr g a ∧ w = .ewr a x ∧ GOperand k a.x x k1)

/-- What the checks and the lowering see of the operation that the bank would issue now. -/
def Sys2Proof.Claims.gridSeen (s : State) (w : GridWhat) (fs : List (Nat × Word)) : GridIn :=
  gridInput w (w.operands.map (fun (r, t, _) => (r, (here s).getT t))) fs ((here s).getM w.mr) (here s).spwin
    (s.gridPlace s.cur.bank).1 (s.gridPlace s.cur.bank).2

/-- Issue of CTR, CTRS, RED, CVT and EWR (R136, R141, R142) in a stream that owns the registers and has a free place: the
lone participant starts its operation with everything sampled, a core outside the participants goes on with nothing done but
the count of the job's contractions (log entry 33), and a participant of several waits for GO: the root, at (0, 0, 0), with its own
result in the record that its decision needs, any other once it has sent its hash; a failed check aborts the job. -/
def Sys2Proof.Claims.GridIssues : Prop :=
  ∀ (g : Guard) (i : Instr) (w : GridWhat) (len : Nat) (s : State) (k1 : Bank) (fs : List (Nat × Word)) (fail : Option TrapInfo),
    goesG g s → GridForm g i w len (here s) k1 → (here s).g.wait = none → (here s).notOwned w = none → (here s).grid.length < 4 →
    gridChecks w s s.cur.bank = (fs, fail) →
    let gi := gridSeen s w fs
    let me := (s.gridPlace s.cur.bank).2
    let multi := 1 < gi.dims.1 * gi.dims.2.1 * gi.dims.2.2
    let op := newGridOp (here s) w fs
    (fail = none → gi.isPart me = false → exec i s = .next (pastG s s { k1 with gridNum := k1.gridNum + 1 } len)) ∧
    (fail = none → gi.isPart me = true → ¬multi →
      exec i s = .next (pastG s s
        { k1 with grid := k1.grid ++ [op .running k1.gridNum none], nextGrid := k1.nextGrid + 1, gridNum := k1.gridNum + 1 } len)) ∧
    (∀ t : TrapInfo, fail = some t → ¬(gi.isPart me = true ∧ multi) → t.cause ≠ 0x03 →
      exec i s = .next ((s.modBank s.cur.bank (fun k => k.setTrapRegs t k.g.pc)).abortJob s.cur.bank t.cause)) ∧
    (fail = none → gi.isPart me = true → multi → me ≠ (0, 0, 0) →
      ∃ t, exec i s = .next t ∧ (t.bank s.cur.bank).grid = (here s).grid ++ [op .hashed (here s).gridNum none] ∧
        (t.bank s.cur.bank).gridNum = (here s).gridNum + 1 ∧ (t.bank s.cur.bank).g.pc = (here s).g.pc ∧
        t.spindle = s.spindle ++ [⟨s.nextMsg, ((here s).binding.map (·.job)).getD 0, (here s).gridNum, me, s.cur.bank.core, (0, 0, 0),
          .hash 0 (gridDigest w ((here s).getM w.mr) gi.ops) gi.present.length,
          spHeader (.hash 0 (gridDigest w ((here s).getM w.mr) gi.ops) gi.present.length) none (here s).gridNum s.cur.bank.core
            (me.1 = 0 && me.2.1 = 0)⟩] ∧ t.mem = s.mem) ∧
    (me = (0, 0, 0) → gi.isPart me = true → multi → 1 < gi.present.length →
      let id := ((here s).binding.map (·.job)).getD 0
      (∀ r ∈ s.roots, ¬(r.job = id ∧ r.number = (here s).gridNum ∧ r.root = (0, 0, 0))) →
      let digest := gridDigest w ((here s).getM w.mr) gi.ops
      ∃ t, exec i s = .next t ∧
        (t.bank s.cur.bank).grid = (here s).grid ++ [op .hashed (here s).gridNum (fail.map (fun f => ⟨f.cause, f.val, f.aux, 0⟩))] ∧
        (t.bank s.cur.bank).gridNum = (here s).gridNum + 1 ∧ (t.bank s.cur.bank).g.pc = (here s).g.pc ∧
        (t.bank s.cur.bank).g.wait.map (·.tag) = some .gridGo ∧
        t.roots = s.roots ++ [⟨id, (here s).gridNum, (0, 0, 0), true, gi.present.length, (s.job id).elim [] (fun j => gridDies s j gi),
          1 < gi.dims.1 * gi.dims.2.1, digest, [((0, 0, 0), s.cur.bank.core, (fail.map (·.cause)).getD 0, digest)]⟩] ∧
        t.spindle = s.spindle ∧ t.mem = s.mem)

/-- MCHK writes the code of the first check that the instruction would fail on this core, or 0, and changes nothing
else (R165). -/
def Sys2Proof.Claims.CheckedMapping : Prop :=
  ∀ (g : Guard) (kind : GridKind) (rx : Dst) (a : GridArgs) (s : State) (w : GridWhat) (k : Bank), goes g s →
    w = (match kind with
      | .ctr => .ctr a
      | .ctrs => .ctrs a
      | .red => .red a
      | .cvt => .cvt a) →
    Result (here s) rx (match (gridChecks w s s.cur.bank).2 with
      | none => 0
      | some t => BitVec.ofNat 64 t.cause) k →
    exec (.mchk g kind rx a) s = .next (thenPastBy s s k 2)

/-- GRID_ISSUE lets a waiting grid instruction issue again; GRID_COMPLETE ends an operation whose tiles are all written and
whose messages have all arrived: its writes are performed at their home slices, its flags are ORed into FPFLAGS, and the staging
window has no defined content (R111, R139, R141). That a write performed there becomes globally visible later is the model's reading
(log entry 102). -/
def Sys2Proof.Claims.GridCompletes : Prop :=
  (∀ (s : State) (b : BankId) (w : Wait), (s.bank b).g.wait = some w → w.tag = .gridOwner ∨ w.tag = .gridGo ∨ w.tag = .gridPlace →
    exec (.gridIssue b) s = .next { s with turns := .issue ⟨b, .g⟩ :: s.turns }) ∧
  (∀ (s : State) (b : BankId) (o : GridOp), (s.bank b).grid.find? (fun q => q.seq = o.seq) = some o → o.phase = .written → o.todo = [] →
    (∀ m ∈ s.spindle, m.number ≠ o.number) →
    exec (.gridComplete b o.seq) s = .next (((s.homeAll ((s.opWrites b o.seq).map (·.id))).clobber b.core o.spwin o.tile).modBank b (fun k =>
      { k with fpflags := k.fpflags ||| BitVec.ofNat 64 o.flags, grid := k.grid.filter (fun q => q.seq ≠ o.seq) })))

/-- The messages of a contraction (R133, R135): HASH reaches the root's record, GO and STOP the operation that waits,
and OPND, NODE and EXACT the lists of the running operation; each leaves the network. -/
def Sys2Proof.Claims.SpindleMessages : Prop :=
  ∀ (s : State) (m : SpindleMsg) (b : BankId) (o : GridOp), s.spindle.find? (fun q => q.id = m.id) = some m →
    let t := { s with spindle := s.spindle.filter (fun q => q.id ≠ m.id) }
    (∀ st h n, m.body = .hash st h n → exec (.hashMessage m.id) s =
      .next ((t.rootGot m.job m.number m.dst m.src m.core st h).rootDecide m.job m.number m.dst)) ∧
    (s.recipient m = some b → (s.bank b).gridNumbered m.number = some o → m.number < 2 ^ 32 →
      let upd := fun (f : GridOp → GridOp) => t.setBank b { s.bank b with grid := (s.bank b).grid.map (fun q => if q.seq = o.seq then f q else q) }
      (∀ tag, m.body = .go tag → exec (.goMessage m.id) s = .next (upd (fun q => { q with phase := .running, tag := tag }))) ∧
      (∀ aux, m.body = .stop aux → exec (.stopMessage m.id) s =
        .next (upd (fun q => { q with phase := .stopped, stop := q.stop.or (some ⟨0x1B, 0, aux, 0⟩) }))) ∧
      (∀ p, m.body = .opnd p → exec (.opndMessage m.id) s = .next (upd (fun q => { q with opnds := q.opnds ++ [p] }))) ∧
      (∀ p, m.body = .node p → exec (.nodeMessage m.id) s = .next (upd (fun q => { q with nodes := q.nodes ++ [p] }))) ∧
      (∀ p, m.body = .exact p → exec (.exactMessage m.id) s = .next (upd (fun q => { q with exacts := q.exacts ++ [p] }))))

/-- The root's decision (R135): with a hash that differs it sends STOP, reason 0x09, to every other participant and none
goes; ROUTE_TAG_GRANT gives a root that waits for tags the lowest tag that is free on its dies (that it is the lowest, log entry 36),
and GO carries it; while one of its dies has no tag left for the job, nothing happens. -/
def Sys2Proof.Claims.RootDecides : Prop :=
  ∀ (s : State) (r : RootRec) (b : BankId) (o : GridOp), s.roots = [r] → r.ready = true → r.got.length = r.parts →
    (∀ q ∈ r.got, q.2.2.1 = 0) → (s.job r.job).bind (fun j => j.bankOf r.root) = some b → r.number < 2 ^ 32 →
    (s.bank b).gridNumbered r.number = some o → (s.bank b).binding ≠ none →
    let held := fun (d : Nat) => (s.routeTags.filter (fun u => u.job = r.job && u.dies.contains d)).length
    let taken := fun (n : Nat) => ∃ u ∈ s.routeTags, u.job = r.job ∧ u.tag = n ∧ ∃ d ∈ r.dies, d ∈ u.dies
    (r.needTag = true → (∀ q ∈ r.got, q.2.2.2 = r.own) →
      (∀ tag : Nat, tag < 16 → ¬taken tag → (∀ n : Nat, n < tag → taken n) → (∀ d ∈ r.dies, held d < 16) →
        ∃ t, exec (.routeTagGrant r.job) s = .next t ∧ t.roots = [] ∧ t.routeTags = s.routeTags ++ [⟨r.dies, tag, r.job, r.number⟩] ∧
          (∃ q ∈ (t.bank b).grid, q.seq = o.seq ∧ q.phase = .running ∧ q.tag = some tag) ∧
          ∀ c ∈ r.got, c.1 ≠ r.root → ∃ m ∈ t.spindle, m.dst = c.1 ∧ m.number = r.number ∧ m.body = .go (some tag)) ∧
      ((∃ d ∈ r.dies, 16 ≤ held d) → exec (.routeTagGrant r.job) s = .next s)) ∧
    ((∃ q ∈ r.got, q.2.2.2 ≠ r.own) →
      let t := s.rootDecide r.job r.number r.root
      t.roots = [] ∧ t.routeTags = s.routeTags ∧
        (∃ q ∈ (t.bank b).grid, q.seq = o.seq ∧ q.phase = .stopped) ∧
        ∀ c ∈ r.got, c.1 ≠ r.root → ∃ (m : SpindleMsg) (aux : Word), m ∈ t.spindle ∧ m.dst = c.1 ∧ m.body = .stop aux ∧ fieldAt aux.toNat 0 8 = 9)

/-- One round of the pairwise tree of R117. -/
def Sys2Proof.Claims.pairUp (c : Cls) : List Nat → List Nat
  | a :: b :: l => (addCls c a b).1 :: Sys2Proof.Claims.pairUp c l
  | l => l

/-- `n` rounds of it. -/
def Sys2Proof.Claims.rounds (c : Cls) : Nat → List Nat → List Nat
  | 0, l => l
  | n + 1, l => Sys2Proof.Claims.rounds c n (pairUp c l)

/-- R117: the value of the tree that the machine folds, whichever nodes it is given with their own values, is what the rounds of
pairing give: v[i] := add(v[2i], v[2i + 1]), an odd last value kept, until one is left. -/
def Obligations.CanonicalTree : Prop :=
  ∀ (c : Cls) (leaf : Nat → Nat × Nat) (given : Nat × Nat → Option Nat) (nb : Nat), 0 < nb →
    (∀ (h i v : Nat), given (h, i) = some v → v = (treeValue c leaf (fun _ => none) nb h i).1) →
    rounds c nb ((List.range nb).map (fun i => (leaf i).1)) = [(treeValue c leaf given nb (treeTop nb) 0).1]

/-- R118 in the integer class: the value of a block is the exact sum, clamped to s32, and a clamp sets SATINT. R129: two
parts of a block add exactly, in every class. R407: under a lower tag a part keeps its sum, and under a higher one where its sum is a
multiple of that tag's unit. -/
def Obligations.BlockSums : Prop :=
  (∀ (l : List Int) (w : Nat), blockValue .int w (l.map valOfInt) =
    if l.sum < -2 ^ 31 then (0x80000000, 0x40) else if 2 ^ 31 ≤ l.sum then (0x7FFFFFFF, 0x40) else ((l.sum % 2 ^ 32).toNat, 0)) ∧
  (∀ (l m : List Val) (t : Int), l ≠ [] → m ≠ [] →
    let p := partOf (l ++ m)
    let q := (partOf l).add (partOf m)
    p.nanProd = q.nanProd ∧ p.ninf = q.ninf ∧ p.pinf = q.pinf ∧ p.negZero = q.negZero ∧
    (t ≤ p.t → t ≤ q.t → p.v * 2 ^ (p.t - t).toNat = q.v * 2 ^ (q.t - t).toNat)) ∧
  (∀ (l : List Val) (g : Int), g ≤ (partOf l).t →
    ((partOf l).tagged (some g)).t = g ∧ ((partOf l).tagged (some g)).v = (partOf l).v * 2 ^ ((partOf l).t - g).toNat) ∧
  (∀ (l : List Val) (g v : Int), (partOf l).t < g → (partOf l).v = v * 2 ^ (g - (partOf l).t).toNat →
    ((partOf l).tagged (some g)).t = g ∧ ((partOf l).tagged (some g)).v = v)

/-! ### Scalar and control instructions of the G stream -/

/-- R57 under integer use, at width 32. -/
def Sys2Proof.Claims.condition32 (cc : Cond) (a b : Word32) : Prop :=
  match cc with
  | .eq => a = b
  | .ne => a ≠ b
  | .lt => a.toInt < b.toInt
  | .ge => a.toInt ≥ b.toInt
  | .le => a.toInt ≤ b.toInt
  | .gt => a.toInt > b.toInt
  | .lo => a.toNat < b.toNat
  | .hs => a.toNat ≥ b.toNat
  | .ls => a.toNat ≤ b.toNat
  | .hi => a.toNat > b.toNat

/-- The state after a one-word G-stream instruction that leaves its bank as `k`. -/
def Sys2Proof.Claims.gPast (s : State) (k : Bank) : State := pastG s s k 1

/-- The state after a G-stream branch that is taken, with offset `off`. -/
def Sys2Proof.Claims.gJumps (s : State) (k : Bank) (off : BitVec 26) : State :=
  s.setBank s.cur.bank { k with g := { k.g with pc := (here s).g.pc + 8 * off.signExtend 64, wait := none } }

/-- GMOV, GADD, GSUB, GCMP, GQPOP and GQPUSH (R166) act on 32-bit values: what each writes, for every operand form. -/
def Sys2Proof.Claims.GridScalarResults : Prop :=
  (∀ (g : Guard) (rd : GDst) (ra : GSrc) (s : State) (a : Word32) (k1 k2 : Bank), goesG g s → GOperand (here s) ra a k1 →
    GResult k1 rd a k2 → exec (.gmov g rd ra) s = .next (gPast s k2)) ∧
  (∀ (g : Guard) (rd : GDst) (ra rb : GSrc) (s : State) (a b : Word32) (k1 k2 k3 : Bank), goesG g s →
    GOperand (here s) ra a k1 → GOperand k1 rb b k2 →
    (GResult k2 rd (a + b) k3 → exec (.gadd g rd ra rb) s = .next (gPast s k3)) ∧
    (GResult k2 rd (a - b) k3 → exec (.gsub g rd ra rb) s = .next (gPast s k3))) ∧
  (∀ (g : Guard) (cc : Cond) (c : BitVec 3) (ra rb : GSrc) (s : State) (a b : Word32) (k1 k2 : Bank) (v : Bool), goesG g s →
    GOperand (here s) ra a k1 → GOperand k1 rb b k2 → (v = true ↔ condition32 cc a b) →
    exec (.gcmp g cc c ra rb) s = .next (gPast s { k2 with cG := if c = 0 then k2.cG else k2.cG.set c.toNat v c.isLt })) ∧
  (∀ (g : Guard) (rd : BitVec 4) (q : BitVec 3) (peek : Bool) (s : State) (a : Word32) (k1 k2 : Bank), goesG g s →
    GOperand (here s) (.queue q peek) a k1 → GResult k1 (.reg rd) a k2 → exec (.gqpop g rd q peek) s = .next (gPast s k2)) ∧
  (∀ (g : Guard) (q : BitVec 3) (ra : BitVec 4) (s : State) (k : Bank), goesG g s → GResult (here s) (.queue q) ((here s).getY ra) k →
    exec (.gqpush g q ra) s = .next (gPast s k))

/-- GLOOP, GBR and GBC (R167): the count is left at 0 once it is 0, else it goes down by one and the branch is taken while
it is not 0; offsets count words from the branch itself. -/
def Sys2Proof.Claims.GridBranches : Prop :=
  (∀ (g : Guard) (ra : BitVec 4) (off : BitVec 26) (s : State), goesG g s →
    let n := (here s).getY ra
    let k : Bank := { here s with y := (here s).y.set ra.toNat (n - 1) ra.isLt }
    exec (.gloop g ra off) s = .next (if n = 0 then gPast s (here s) else if n = 1 then gPast s k else gJumps s k off)) ∧
  (∀ (g : Guard) (off : BitVec 26) (s : State), goesG g s → exec (.gbr g off) s = .next (gJumps s (here s) off)) ∧
  (∀ (g : Guard) (cc : Cond) (ra rb : GSrc) (off : BitVec 26) (s : State) (a b : Word32) (k1 k2 : Bank), goesG g s →
    GOperand (here s) ra a k1 → GOperand k1 rb b k2 →
    (condition32 cc a b → exec (.gbc g cc ra rb off) s = .next (gJumps s k2 off)) ∧
    (¬ condition32 cc a b → exec (.gbc g cc ra rb off) s = .next (gPast s k2)))

/-- GSIG, GSIG.D, GWAITF, GDRAIN, GIDLE and GEND (R168 to R170): what each does when it completes, and that GSIG.D, GDRAIN
and GEND wait while a grid instruction of the core is open, GWAITF while its flag differs, GIDLE while nothing has come; GIDLE completes
too once a flag write of the C stream has been noted with its wait. GSIG.D's flag hands over
the S-path writes that are not yet globally visible (R210; what it carries, log entry 60); GEND lets the cores go on with other banks once its team is over (R386). -/
def Obligations.GridFlagsAndEnd : Prop :=
  (∀ (g : Guard) (fl : BitVec 4) (v : Bool) (s : State), goesG g s →
    let put := fun (d : List Nat) => { here s with fl := (here s).fl.set fl.toNat true fl.isLt, flD := (here s).flD.set fl.toNat d fl.isLt }
    let waits := fun (tag : WaitTag) (o d : Nat) => s.setBank s.cur.bank { here s with g := (here s).g.waiting s.dtc tag o d [] }
    exec (.gsig g fl) s = .next (gPast s (put [])) ∧
    exec (.gsigD g fl) s = .next (if (here s).grid = [] then gPast s (put (s.gridWrites s.cur.bank)) else waits .gdrain 2 0) ∧
    exec (.gdrain g) s = .next (if (here s).grid = [] then gPast s (here s) else waits .gdrain 2 0) ∧
    exec (.gwaitf g fl v) s = .next (if (here s).getFl fl = v then gPast s (here s) else waits .flag fl.toNat v.toNat)) ∧
  (∀ (g : Guard) (s : State), goesG g s →
    ((∃ q : BitVec 3, q.toNat < 4 ∧ (here s).getQ q ≠ []) → exec (.gidle g) s = .next (gPast s (here s))) ∧
    ((∃ w, (here s).g.wait = some w ∧ w.tag = .gidle ∧ w.vals = [1]) → exec (.gidle g) s = .next (gPast s (here s))) ∧
    ((here s).grid ≠ [] → exec (.gend g) s = .next (s.setBank s.cur.bank
      { here s with g := (here s).g.waiting s.dtc .gdrain 2 0 [] })) ∧
    ((∀ q : BitVec 3, q.toNat < 4 → (here s).getQ q = []) → (here s).g.wait = none →
      exec (.gidle g) s = .next (s.setBank s.cur.bank { here s with g := (here s).g.waiting s.dtc .gidle 0 0 [] })) ∧
    ((here s).grid = [] → exec (.gend g) s = .next (State.endTeam (s.setBank s.cur.bank { here s with
      t := (here s).t.map (fun (t : Tensor) => { t with owner := .c }),
      g := { (here s).g with run := .ended, wait := some ⟨.ended, 0, 0, [], s.dtc⟩ } }) s.cur.bank)))

/-- The events that end a wait: a stream that waits for what the event announces issues its instruction again, which then
decides whether the wait is over (log entry 6). One clause names each event with the causes that it ends. -/
def Sys2Proof.Claims.WaitsWake : Prop :=
  ∀ (s : State) (b : BankId) (kind : StreamKind) (w : Wait), ((s.bank b).stream kind).wait = some w →
    let again := { s with turns := .issue ⟨b, kind⟩ :: s.turns }
    (w.tag = .pop ∨ w.tag = .push → exec (.queueWake ⟨b, kind⟩) s = .next again) ∧
    (w.tag = .flag → exec (.flagWaitWake ⟨b, kind⟩) s = .next again) ∧
    (kind = .g → w.tag = .gidle → exec (.gidleWake b) s = .next again) ∧
    (kind = .c → w.tag ∈ [.hclaim, .hwait, .hbind, .remoteHank] → exec (.hankWaitWake b) s = .next again) ∧
    (kind = .c → w.tag = .cpwait ∨ w.tag = .channel → exec (.cpwaitWake b) s = .next again) ∧
    (kind = .c → w.tag = .aqwait ∨ w.tag = .querySlot → exec (.aqwaitWake b) s = .next again) ∧
    (kind = .c → w.tag = .evwait → exec (.evwaitWake b) s = .next again) ∧
    (kind = .c → w.tag = .launchSlot → exec (.launchSlotWake b) s = .next again)

/-! ### Queues and flags of the C stream -/

/-- QPUSH, QPOP, QPEEK and QPEEK.CNT (R281). -/
def Sys2Proof.Claims.QueueInstructions : Prop :=
  (∀ (g : Guard) (q : BitVec 3) (ra : Src) (s : State) (a : Word) (k1 k2 : Bank), goes g s → Operand (here s) ra a k1 →
    Result k1 (.queue q) a k2 → exec (.qpush g q ra) s = .next (past s k2)) ∧
  (∀ (g : Guard) (rd : BitVec 6) (q : BitVec 3) (s : State) (a : Word) (k1 k2 : Bank), goes g s →
    (Operand (here s) (.queue q false) a k1 → Result k1 (.reg rd) a k2 → exec (.qpop g rd q) s = .next (past s k2)) ∧
    (Operand (here s) (.queue q true) a k1 → Result k1 (.reg rd) a k2 → exec (.qpeek g rd q) s = .next (past s k2))) ∧
  (∀ (g : Guard) (rd : BitVec 6) (q : BitVec 3) (s : State) (k : Bank), goes g s →
    Result (here s) (.reg rd) (BitVec.ofNat 64 ((here s).getQ q).length) k → exec (.qpeekCnt g rd q) s = .next (past s k))

/-- A queue whose direction is not the stream's traps before anything happens, a pop or peek of an empty queue waits, and a
push of a full one waits (R27, R280). -/
def Sys2Proof.Claims.QueueDirections : Prop :=
  ∀ (g : Guard) (q : BitVec 3) (n : BitVec 6) (s : State), goes g s →
    (q.toNat < 4 → Traps (.qpop g n q) s 0x20 0 (BitVec.ofNat 64 q.toNat) ∧ Traps (.qpeek g n q) s 0x20 0 (BitVec.ofNat 64 q.toNat)) ∧
    (4 ≤ q.toNat → Traps (.qpush g q (.reg n)) s 0x20 0 (BitVec.ofNat 64 q.toNat)) ∧
    (4 ≤ q.toNat → (here s).getQ q = [] →
      let t := s.setBank s.cur.bank { here s with c := (here s).c.waiting s.dtc .pop q.toNat 1 [] }
      exec (.qpop g n q) s = .next t ∧ exec (.qpeek g n q) s = .next t) ∧
    (q.toNat < 4 → (if q = 2 ∨ q = 3 then 64 else 16) ≤ ((here s).getQ q).length →
      exec (.qpush g q (.reg n)) s = .next (s.setBank s.cur.bank { here s with c := (here s).c.waiting s.dtc .push q.toNat 0 [] }))

/-- FLSET, FLCLR and FLWAIT (R283, R284): the flag's new value, and FLWAIT's answers 1 at a match, 0 at the deadline; with
x0 for the deadline it waits without one. FLSET and FLCLR let a G stream that waits at GIDLE go on (R170). A match observes the grid
writes that a GSIG.D's flag hands over (R168, R210; what the flag carries, log entry 60). -/
def Sys2Proof.Claims.FlagInstructions : Prop :=
  (∀ (g : Guard) (fl : BitVec 4) (s : State), goes g s → (here s).outLoads = [] →
    let told := (here s).g.wait.map (fun w => if w.tag = .gidle then { w with vals := [1] } else w)
    let put := fun (v : Bool) => { here s with fl := (here s).fl.set fl.toNat v fl.isLt, flD := (here s).flD.set fl.toNat [] fl.isLt,
                                               g := { (here s).g with wait := told } }
    exec (.flset g fl) s = .next (past s (put true)) ∧ exec (.flclr g fl) s = .next (past s (put false))) ∧
  (∀ (g : Guard) (rd ra : BitVec 6) (v : Bool) (fl : BitVec 4) (s : State) (k : Bank), goes g s →
    (let t := s.observe s.cur.bank ((here s).flD[fl.toNat]'(fl.isLt));
      (here s).getFl fl = v → Result (t.bank s.cur.bank) (.reg rd) 1 k → exec (.flwait g rd ra v fl) s = .next (thenPast s t k)) ∧
    ((here s).getFl fl ≠ v → ra ≠ 0 → ((here s).getX ra).toNat ≤ s.dtc → Result (here s) (.reg rd) 0 k →
      exec (.flwait g rd ra v fl) s = .next (past s k)) ∧
    ((here s).getFl fl ≠ v → (ra = 0 ∨ s.dtc < ((here s).getX ra).toNat) →
      exec (.flwait g rd ra v fl) s = .next (s.setBank s.cur.bank { here s with
        c := (here s).c.waiting s.dtc .flag fl.toNat v.toNat (if ra = 0 then [] else [(here s).getX ra]) })))

/-! ### Hanks -/

/-- A trap of HANK_MISUSE on hank `hn` (R293). -/
def Sys2Proof.Claims.Misuses (i : Instr) (s : State) (hn : BitVec 4) (reason : Nat) : Prop :=
  Traps i s 0x21 0 (BitVec.ofNat 64 (hn.toNat + 256 * reason))

/-- Slots filled and free of a hank with `n` slots (R286). -/
def Sys2Proof.Claims.filled (h : Hank) : Nat := (h.tail - h.head).toNat
def Sys2Proof.Claims.freeSlots (h : Hank) (n : Nat) : Nat := n - (h.claimed - h.head).toNat

/-- Slot count of a geometry value (R287). -/
def Sys2Proof.Claims.scnt (g : Word) : Nat := (g.extractLsb' 40 12).toNat + 1

/-- What HCLAIM and HTAKE answer for position `p` (R289): the position, and the offset of its slot above it. -/
def Sys2Proof.Claims.slotAnswer (g : Word) (p : Word32) : Word :=
  BitVec.ofNat 64 (p.toNat + 2 ^ 32 * ((g.extractLsb' 0 19).toNat
    + 64 * ((g.extractLsb' 32 6).toNat + 1) * (p.toNat % scnt g)))

/-- The hank of bank `k` with number `hn`, bound with geometry `g`. -/
abbrev Sys2Proof.Claims.BoundHank (k : Bank) (hn : BitVec 4) (h : Hank) (g : Word) : Prop := k.getH hn = h ∧ h.geo = some g

/-- The reserved bits of a geometry value are 0, and its core number is one (R287). -/
abbrev Sys2Proof.Claims.GeometryFields (g : Word) : Prop :=
  g.extractLsb' 53 5 = 0 ∧ g.extractLsb' 38 2 = 0 ∧ g.extractLsb' 19 13 = 0 ∧ (g.extractLsb' 58 6).toNat < 48 ∧
  (g.getLsbD 52 = false → g.extractLsb' 58 6 = 0)

/-- What a geometry value must meet besides (R287): two slots at least, an aligned base, slots within the scratchpad, and as a remote
producer another core of the team. -/
abbrev Sys2Proof.Claims.GeometryFits (s : State) (b : BankId) (g : Word) : Prop :=
  g.extractLsb' 40 12 ≠ 0 ∧ (g.extractLsb' 0 6) = 0 ∧
  (g.extractLsb' 0 19).toNat + 64 * ((g.extractLsb' 32 6).toNat + 1) * scnt g ≤ 0x80000 ∧
  (g.getLsbD 52 = true → (g.extractLsb' 58 6).toNat ≠ b.core % 64 ∧ (s.teamBank b (g.extractLsb' 58 6).toNat).isSome)

/-- A geometry value that R287 accepts in bank `b`. -/
abbrev Sys2Proof.Claims.GeometryOk (s : State) (b : BankId) (g : Word) : Prop := GeometryFields g ∧ GeometryFits s b g

/-- The instructions of the home core (R288 to R292) where they complete: HBIND, HCLAIM, HCOMMIT, HWAITF, HWAITE, HTAKE and
HDONE. A commit marks its positions, and TAIL moves over the gap-free run of marks (R290). -/
def Sys2Proof.Claims.HankAtHome : Prop :=
  ∀ (g : Guard) (hn : BitVec 4) (rd ra rb : BitVec 6) (s : State) (h : Hank) (geo : Word) (k : Bank), goes g s →
    let n := ((here s).getX ra).toNat
    let b := s.cur.bank
    let put := fun (h' : Hank) => { here s with h := (here s).h.set hn.toNat h' hn.isLt }
    ((here s).getH hn = h → h.claimed = h.tail → h.tail = h.head → s.deliveryOpen b hn = false →
      ((here s).getX ra = 0 → exec (.hbind g hn ra) s = .next (past s (put ⟨none, 0, 0, 0, [], h.claims, []⟩))) ∧
      ((here s).getX ra ≠ 0 → GeometryOk s b ((here s).getX ra) →
        exec (.hbind g hn ra) s = .next (past s (put ⟨some ((here s).getX ra), 0, 0, 0, [], h.claims, []⟩)))) ∧
    (BoundHank (here s) hn h geo → (here s).c.wait = none → geo.getLsbD 52 = false → h.claims = [] → n ≤ freeSlots h (scnt geo) →
      Result (put { h with claimed := h.claimed + BitVec.ofNat 32 n }) (.reg rd) (slotAnswer geo h.claimed) k →
      exec (.hclaim g hn rd ra) s = .next (past s k)) ∧
    (BoundHank (here s) hn h geo → geo.getLsbD 52 = false → h.marks = [] → (here s).outLoads = [] →
      (∀ a ∈ (here s).amons, a.path ≠ 0) →
      let s1 := s.releaseStores b .co
      (s1.bank b).held = [] →
      let p := ((here s).getX ra).setWidth 32
      (∀ c : Nat, ((here s).getX rb).toNat = c → 0 < c → (p - h.tail).toNat + c ≤ (h.claimed - h.tail).toNat →
        ∃ h' : Hank, exec (.hcommit g hn ra rb) s = .next (thenPast s s1
          { s1.bank b with h := (s1.bank b).h.set hn.toNat h' hn.isLt }) ∧
          h'.geo = h.geo ∧ h'.head = h.head ∧ h'.claimed = h.claimed ∧ h'.claims = h.claims ∧
          (p = h.tail → h'.tail = h.tail + BitVec.ofNat 32 c ∧ h'.marks = []) ∧
          (p ≠ h.tail → h'.tail = h.tail ∧ ∀ q : Word32, q ∈ h'.marks ↔ (q - p).toNat < c))) ∧
    (BoundHank (here s) hn h geo →
      let s1 := (s.observe b h.covers).dropL1 b.core .cl
      (n ≤ scnt geo → n ≤ filled h → Result (s1.bank b) (.reg rd) (BitVec.ofNat 64 (filled h)) k →
        exec (.hwaitf g hn rd ra) s = .next (thenPast s s1 k)) ∧
      (n < scnt geo → n < filled h → Result (s1.bank b) (.reg rd) (slotAnswer geo (h.head + BitVec.ofNat 32 n)) k →
        exec (.htake g hn rd ra) s = .next (thenPast s s1 k)) ∧
      (geo.getLsbD 52 = false → n ≤ scnt geo → n ≤ freeSlots h (scnt geo) →
        Result (here s) (.reg rd) (BitVec.ofNat 64 (freeSlots h (scnt geo))) k → exec (.hwaite g hn rd ra) s = .next (past s k)) ∧
      (n ≤ scnt geo → n ≤ filled h → h.claims = [] → (here s).outLoads = [] → (∀ a ∈ (here s).amons, a.path ≠ 0) →
        (∀ p ∈ s.pend, p.bank ≠ b) →
        exec (.hdone g hn ra) s = .next (past s (put { h with head := h.head + BitVec.ofNat 32 n }))))

/-- HANK_MISUSE (R288 to R293): the reasons that the instructions of the home core trap with, each with nothing changed. -/
def Sys2Proof.Claims.HankMisuse : Prop :=
  ∀ (g : Guard) (hn : BitVec 4) (rd ra rb : BitVec 6) (s : State) (h : Hank) (geo : Word), goes g s → (here s).c.wait = none →
    let n := ((here s).getX ra).toNat
    ((here s).getH hn = h → h.geo = none → Misuses (.hclaim g hn rd ra) s hn 1 ∧ Misuses (.hcommit g hn ra rb) s hn 1 ∧
      Misuses (.hwaitf g hn rd ra) s hn 1 ∧ Misuses (.hwaite g hn rd ra) s hn 1 ∧ Misuses (.htake g hn rd ra) s hn 1 ∧
      Misuses (.hdone g hn ra) s hn 1) ∧
    ((here s).getH hn = h → h.claimed = h.tail → h.tail ≠ h.head → s.deliveryOpen s.cur.bank hn = false →
      ((here s).getX ra = 0 ∨ GeometryOk s s.cur.bank ((here s).getX ra)) → Misuses (.hbind g hn ra) s hn 5) ∧
    (BoundHank (here s) hn h geo → geo.getLsbD 52 = true → Misuses (.hclaim g hn rd ra) s hn 7 ∧
      Misuses (.hcommit g hn ra rb) s hn 7 ∧ Misuses (.hwaite g hn rd ra) s hn 7) ∧
    ((here s).getX ra ≠ 0 → GeometryFields ((here s).getX ra) → ¬GeometryFits s s.cur.bank ((here s).getX ra) →
      Misuses (.hbind g hn ra) s hn 6) ∧
    (BoundHank (here s) hn h geo → scnt geo < n →
      (geo.getLsbD 52 = false → Misuses (.hclaim g hn rd ra) s hn 4 ∧ Misuses (.hwaite g hn rd ra) s hn 4) ∧
      Misuses (.hwaitf g hn rd ra) s hn 4 ∧ Misuses (.hdone g hn ra) s hn 4) ∧
    (BoundHank (here s) hn h geo → scnt geo ≤ n → Misuses (.htake g hn rd ra) s hn 4) ∧
    (BoundHank (here s) hn h geo → n ≤ scnt geo → filled h < n → Misuses (.hdone g hn ra) s hn 3) ∧
    (BoundHank (here s) hn h geo → geo.getLsbD 52 = false → ((here s).getX rb) ≠ 0 →
      ((h.claimed - h.tail).toNat < (((here s).getX ra).setWidth 32 - h.tail).toNat + ((here s).getX rb).toNat ∨
        ∃ i : Nat, i < ((here s).getX rb).toNat ∧ ((here s).getX ra).setWidth 32 + BitVec.ofNat 32 i ∈ h.marks) →
      Misuses (.hcommit g hn ra rb) s hn 2)

/-- The `.r` forms (R289, R290): HCLAIM.r and HCOMMIT.r send one message to the home core and wait; the message is dealt with
there by the rules of the local forms, with the answer kept for the producer, which completes with it: a commit marks its positions,
TAIL moves over the gap-free run of marks and those marks go, and what its release covers counts for the consumer (log entry 60). A
message waits while its home's team stands saved.
The home is the core that the form names; where that is the producer's own number, as in R293's example, it is the core of
the team whose hank is bound to that producer (log entry 73).
The message to the home is the model's reading (log entry 61). -/
def Obligations.HankRemote : Prop :=
  (∀ (s : State) (b : BankId) (hn : BitVec 4) (core : BitVec 6),
    (core.toNat ≠ b.core % 64 → s.homeOf b hn core = core.toNat) ∧
    (∀ (c : Binding) (j : Job) (h : BankId), core.toNat = b.core % 64 → (s.bank b).binding = some c → s.job c.job = some j →
      (∃ d, j.banks.find? (fun q => q.2.jd = c.jd && q.2.jc = c.jc && (((s.bank q.1).getH hn).geo.map (fun g =>
        g.getLsbD 52 && (g.extractLsb' 58 6).toNat = core.toNat)).getD false) = some (h, d)) →
      s.homeOf b hn core = h.core % 64)) ∧
  (∀ (g : Guard) (hn : BitVec 4) (rd ra rb core : BitVec 6) (s : State) (c : Binding), goes g s → (here s).binding = some c →
    let b := s.cur.bank
    let sent := fun (t : State) (commit : Bool) (pos : Word32) (n : Word) (ids : List Nat) =>
      let t1 : State := { t with hub := t.hub ++ [⟨t.nextMsg, c.job, c.jd, c.jc, b.core % 64, t.homeOf b hn core, hn, commit, pos, n, ids⟩], nextMsg := t.nextMsg + 1 }
      t1.setBank b { t1.bank b with c := (t1.bank b).c.waiting t1.dtc .remoteHank hn.toNat n.toNat [] }
    ((here s).c.wait = none → exec (.hclaimR g hn rd ra core) s = .next (sent s false 0 ((here s).getX ra) [])) ∧
    ((here s).c.wait = none → (here s).outLoads = [] → (∀ a ∈ (here s).amons, a.path ≠ 0) →
      ((s.releaseStores b .cl).bank b).held = [] → exec (.hcommitR g hn ra rb core) s =
        .next (sent (s.releaseStores b .cl) true (((here s).getX ra).setWidth 32) ((here s).getX rb) (s.coveredBy b))) ∧
    (∀ (o d since : Nat) (r : Word) (k : Bank), (here s).c.wait = some ⟨.remoteHank, o, d, [1, r], since⟩ →
      (Result (here s) (.reg rd) r k → exec (.hclaimR g hn rd ra core) s = .next (past s k)) ∧
      exec (.hcommitR g hn ra rb core) s = .next (past s (here s))) ∧
    (∀ (o d since : Nat) (r : Word), (here s).c.wait = some ⟨.remoteHank, o, d, [2, r], since⟩ →
      Misuses (.hclaimR g hn rd ra core) s hn r.toNat ∧ Misuses (.hcommitR g hn ra rb core) s hn r.toNat)) ∧
  (∀ (s : State) (m : HubMsg) (j : Job) (src home : BankId) (h : Hank) (geo : Word),
    s.hub.find? (fun q => q.id = m.id) = some m → s.job m.job = some j → j.bankAt m.jd m.jc m.src = some src →
    j.bankAt m.jd m.jc m.home = some home → BoundHank (s.bank home) m.hank h geo →
    let gone := { s with hub := s.hub.filter (fun q => q.id ≠ m.id) }
    let put := fun (h' : Hank) => gone.setBank home { s.bank home with h := (s.bank home).h.set m.hank.toNat h' m.hank.isLt }
    (¬(geo.getLsbD 52 = true ∧ (geo.extractLsb' 58 6).toNat = m.src) →
      exec (.hankRemoteMessage m.id) s = .next (gone.answerWait src [2, 7])) ∧
    (geo.getLsbD 52 = true → (geo.extractLsb' 58 6).toNat = m.src → m.commit = false →
      (scnt geo < m.n.toNat → exec (.hankRemoteMessage m.id) s = .next (gone.answerWait src [2, 4])) ∧
      (m.n.toNat ≤ scnt geo → h.claims = [] → m.n.toNat ≤ freeSlots h (scnt geo) →
        exec (.hankRemoteMessage m.id) s = .next
          ((put { h with claimed := h.claimed + BitVec.ofNat 32 m.n.toNat }).answerWait src [1, slotAnswer geo h.claimed])) ∧
      (m.n.toNat ≤ scnt geo → h.claims ≠ [] ∨ freeSlots h (scnt geo) < m.n.toNat →
        exec (.hankRemoteMessage m.id) s = .next (put { h with claims := h.claims ++ [.stream m.src m.n.toNat] }))) ∧
    (geo.getLsbD 52 = true → (geo.extractLsb' 58 6).toNat = m.src → m.commit = true →
      let c := m.n.toNat
      let bad := (h.claimed - h.tail).toNat < (m.pos - h.tail).toNat + c ∨ ∃ i : Nat, i < c ∧ m.pos + BitVec.ofNat 32 i ∈ h.marks
      (c = 0 → exec (.hankRemoteMessage m.id) s = .next ((put h).answerWait src [1, 0])) ∧
      (c ≠ 0 → bad → exec (.hankRemoteMessage m.id) s = .next (gone.answerWait src [2, 2])) ∧
      (c ≠ 0 → ¬bad → ∃ (h' : Hank) (r : Nat), exec (.hankRemoteMessage m.id) s = .next ((put h').answerWait src [1, 0]) ∧
        h'.geo = h.geo ∧ h'.head = h.head ∧ h'.claimed = h.claimed ∧ h'.claims = h.claims ∧
        (∀ i : Nat, i ∈ h'.covers ↔ i ∈ h.covers ∨ i ∈ m.covers) ∧
        let marked := fun (q : Word32) => q ∈ h.marks ∨ (q - m.pos).toNat < c
        h'.tail = h.tail + BitVec.ofNat 32 r ∧ (∀ i : Nat, i < r → marked (h.tail + BitVec.ofNat 32 i)) ∧ h'.tail ∉ h'.marks ∧
        ∀ q : Word32, q ∈ h'.marks ↔ marked q ∧ ∀ i : Nat, i < r → q ≠ h.tail + BitVec.ofNat 32 i))) ∧
  (∀ (s : State) (m : HubMsg) (j : Job) (src : BankId), s.hub.find? (fun q => q.id = m.id) = some m → s.job m.job = some j →
    j.bankAt m.jd m.jc m.src = some src → j.bankAt m.jd m.jc m.home = none →
    ((∃ t ∈ j.saved, t.jd = m.jd ∧ t.jc = m.jc) → exec (.hankRemoteMessage m.id) s = .next s) ∧
    ((∀ t ∈ j.saved, ¬(t.jd = m.jd ∧ t.jc = m.jc)) → exec (.hankRemoteMessage m.id) s =
      .next (State.answerWait { s with hub := s.hub.filter (fun q => q.id ≠ m.id) } src [2, 1])))

/-! ### Rendezvous, YIELD and END -/

/-- The job `id` with one arrival more. -/
def Sys2Proof.Claims.noteArrival (s : State) (id : Nat) (a : Arrival) : State :=
  { s with jobs := s.jobs.map (fun (q : Job) => if q.id = id then { q with arrivals := q.arrivals ++ [a] } else q) }

/-- The scope of a C-stream join's release and acquire (R294). -/
def Sys2Proof.Claims.extentScope (ext : RdvExt) : Scope :=
  match ext with
  | .job => .dv
  | .die => .di
  | .clu => .cl
  | .core => .co

/-- RDV (R294): an arrival is noted under the stream's count for its join, the stream waits, and once the instance is open it
leaves. RDV_OPEN opens the instance when every member that its first arrival names has arrived. -/
def Sys2Proof.Claims.Rendezvous : Prop :=
  (∀ (g : Guard) (cls : RdvCls) (ext : RdvExt) (id : BitVec 6) (s : State) (c : Binding) (j : Job), s.cur.kind = .g → goesG g s →
    (here s).binding = some c → s.job c.job = some j →
    let cnt := (here s).rdvG[id.toNat]'(id.isLt)
    let a : Arrival := ⟨id.toNat, cnt, c.jd, c.jc, c.jk, .g, s.cur.bank.core, cls, ext, [], false⟩
    ((here s).g.wait = none → (∀ e ∈ j.arrivals, e.same a = true → e.ext = ext ∧ e.cls = cls) →
      exec (.rdv g cls ext id) s = .next ((noteArrival s c.job a).setBank s.cur.bank
        { here s with rdvG := (here s).rdvG.set id.toNat (cnt + 1) id.isLt, g := (here s).g.waiting s.dtc .rdv id.toNat 1 [] })) ∧
    (∀ (w : Wait) (e : Arrival), (here s).g.wait = some w → w.tag = .rdv → j.arrivalOf id.toNat (cnt - 1) (c.jd, c.jc, c.jk) .g = some e →
      e.opened = true → exec (.rdv g cls ext id) s = .next (gPast s (here s)))) ∧
  (∀ (g : Guard) (cls : RdvCls) (ext : RdvExt) (id : BitVec 6) (s : State) (c : Binding) (j : Job) (w : Wait) (e : Arrival),
    s.cur.kind = .c → goes g s → (here s).binding = some c → s.job c.job = some j → (here s).c.wait = some w → w.tag = .rdv →
    j.arrivalOf id.toNat ((here s).rdvC[id.toNat]'(id.isLt) - 1) (c.jd, c.jc, c.jk) .c = some e → e.opened = true →
    ∃ ids : List Nat, (∀ i : Nat, i ∈ ids ↔ ∃ q ∈ j.arrivals, q.same e = true ∧ q.kind = .c ∧ i ∈ q.covers) ∧
      exec (.rdv g cls ext id) s = .next (goesOn s ((s.observe s.cur.bank ids).dropL1 s.cur.bank.core (extentScope ext)))) ∧
  (∀ (g : Guard) (cls : RdvCls) (ext : RdvExt) (id : BitVec 6) (s : State) (c : Binding) (j : Job), s.cur.kind = .c → goes g s →
    (here s).binding = some c → s.job c.job = some j → (here s).c.wait = none →
    let cnt := (here s).rdvC[id.toNat]'(id.isLt)
    let a : Arrival := ⟨id.toNat, cnt, c.jd, c.jc, c.jk, .c, s.cur.bank.core, cls, ext, s.coveredBy s.cur.bank, false⟩
    ((∀ e ∈ j.arrivals, e.same a = true → e.ext = ext ∧ e.cls = cls) → (here s).outLoads = [] → (∀ q ∈ (here s).amons, q.path ≠ 0) →
      let s1 := s.releaseStores s.cur.bank (extentScope ext)
      let k := s1.bank s.cur.bank
      k.held = [] →
      exec (.rdv g cls ext id) s = .next ((noteArrival s1 c.job a).setBank s.cur.bank
        { k with rdvC := k.rdvC.set id.toNat (cnt + 1) id.isLt, c := k.c.waiting s1.dtc .rdv id.toNat 1 [] })) ∧
    (∀ e : Arrival, j.arrivals.find? (fun q => q.same a && !(q.ext = ext && q.cls = cls)) = some e →
      Traps (.rdv g cls ext id) s 0x1B 0 (BitVec.ofNat 64 (9 + 255 * 256 + e.core * 65536)))) ∧
  (∀ (s : State) (job id n slot : Nat) (j : Job) (a first : Arrival), s.job job = some j → j.arrivals[slot]? = some a →
    a.id = id → a.n = n → (j.arrivals.filter (fun c => c.same a)).head? = some first →
    ((∀ p ∈ j.coords, inExtent first.ext first.at p = true → ∀ k : StreamKind, clsHas first.cls k = true →
        ∃ c ∈ j.arrivals, c.same a = true ∧ c.at = p ∧ c.kind = k) →
      exec (.rdvOpen job id n slot) s = .next (s.modJob job (fun (q : Job) =>
        { q with arrivals := q.arrivals.map (fun (c : Arrival) => if c.same a then { c with opened := true } else c) }))) ∧
    ((∃ p ∈ j.coords, inExtent first.ext first.at p = true ∧ ∃ k : StreamKind, clsHas first.cls k = true ∧
        ∀ c ∈ j.arrivals, c.same a = true → c.at = p → c.kind ≠ k) →
      exec (.rdvOpen job id n slot) s = .next s))

/-- YIELD marks a boundary of the team's quantum when a team of equal or higher priority waits and does nothing otherwise;
END with no held fault ends the C stream (R295), and once its team is over the cores run their other banks (R386). -/
def Sys2Proof.Claims.YieldAndEnd : Prop :=
  (∀ (g : Guard) (s : State) (c : Binding) (j : Job), goes g s → (here s).binding = some c → s.job c.job = some j →
    exec (.yieldC g) s = .next (goesOn s (if s.teamWaits c.part (j.qrec.lrec.ctrl % 8)
      then s.modTeam c.job c.jd c.jc (fun t => { t with boundary := true }) else s))) ∧
  (∀ (g : Guard) (s : State), goes g s → (here s).outLoads = [] → (∀ a ∈ (here s).amons, a.path ≠ 0) →
    let s1 := s.releaseStores s.cur.bank .dv
    (s1.bank s.cur.bank).held = [] →
    exec (.endC g) s = .next (State.endTeam (s1.setBank s.cur.bank { s1.bank s.cur.bank with
      c := { (s1.bank s.cur.bank).c with run := .ended, wait := some ⟨.ended, 0, 0, [], s1.dtc⟩ } }) s.cur.bank))

/-! ### Copy engines -/

/-- An engine command may use `size` bytes at offset `off` of its span `n` (R237, R238): the span passes its check with the
permission bits `perm`, is not SPANSTORE, T or DEV (a TCOPY takes T), and lies in one of the spaces; the bytes start at `addr`. -/
abbrev Sys2Proof.Claims.EngineSpan (k : Bank) (n : BitVec 4) (off : Word) (size perm : Nat) (spaces : List Nat) (addr : Nat) (r : SpanReg)
    (barred : Nat := pSPANSTORE + pT + pDEV) : Prop :=
  r = k.getB n ∧ spanCheck r n.toNat off.toInt size perm = .ok addr ∧ sPERM r.bits &&& barred = 0 ∧ sSPACE r.bits ∈ spaces

/-- What a command's completion word is (R237): none, or the word `v` at offset 0 of span `fc`, aligned, with its scope. -/
def Sys2Proof.Claims.CompletionWord (k : Bank) (sc : Option Scope) (fc : BitVec 4) (v : Word) (cw : Option (SpanReg × Scope × Word))
    (barred : Nat := pSPANSTORE + pT + pDEV) : Prop :=
  match sc with
  | none => cw = none
  | some c => ∃ (addr : Nat) (r : SpanReg), EngineSpan k fc 0 8 pW [0, 1, 2] addr r barred ∧ addr % 8 = 0 ∧ cw = some (r, c, v)

/-- Transfers of a channel that have not completed. -/
def Sys2Proof.Claims.pending (c : Chan) : Nat := (c.xfers.filter (fun x => !x.finished)).length

/-- The bank once channel `ch` has accepted a command with its next identifier (R234). -/
def Sys2Proof.Claims.accepts (k : Bank) (ch : BitVec 3) (cmd : XferCmd) (cw : Option (SpanReg × Scope × Word)) : Bank :=
  let c := k.getChan ch
  { k with chan := k.chan.set ch.toNat { c with next := c.next + 1, xfers := c.xfers ++ [⟨c.next, cmd, k.asid, cw, 0, 0, false, false, []⟩] } ch.isLt }

/-- COPY, MCAST and TCOPY are accepted once their operands, spans and letters pass (R239, R240, R242), with everything sampled
and the transfer's identifier in the destination; the completion word of a COPY through the system window lies in this device (R243,
log entry 96). CPWAIT answers once CPDONE has reached its operand, and CPSTAT reads the
channel (R244). -/
def Sys2Proof.Claims.CopyCommands : Prop :=
  (∀ (g : Guard) (ch : BitVec 3) (sc : Option Scope) (cvr : BitVec 6) (fa fb fc : BitVec 4) (rx : Dst) (ry rz : Src)
      (n : BitVec 48) (s : State) (o d : Word) (k1 k2 k3 : Bank) (sa da : Nat) (src dst : SpanReg) (cw : Option (SpanReg × Scope × Word)),
    goes g s → Room (here s) rx → Operand (here s) ry o k1 → Operand k1 rz d k2 → pending ((here s).getChan ch) < 16 →
    CompletionWord (here s) sc fc ((here s).getX cvr) cw →
    let id := BitVec.ofNat 64 ((here s).getChan ch).next
    (EngineSpan (here s) fb d n.toNat pW [0, 1, 2, 3] da dst → EngineSpan (here s) fa o n.toNat pR [0, 1, 2, 3] sa src →
      ¬(sSPACE src.bits = 3 ∧ sSPACE dst.bits = 3) →
      (sSPACE src.bits = 3 ∨ sSPACE dst.bits = 3 → ∀ r c v, cw = some (r, c, v) → s.elsewhere r (sBASE r.bits) = false) → Result (accepts k2 ch (.copy src dst o.toNat d.toNat n.toNat) cw) rx id k3 →
      exec (.copy g ch sc cvr fa fb fc rx ry rz n) s = .next (pastBy s k3 2)) ∧
    (EngineSpan (here s) fb d o.toNat pW [2] da dst → EngineSpan (here s) fa 0 o.toNat pR [0, 1, 2] sa src →
      (∀ c : Nat, c < 48 → n.getLsbD c = true → ∃ j, s.jobOf s.cur.bank = some j ∧
        ∃ q ∈ j.banks, q.1.core = s.cur.bank.core / 64 * 64 + c) →
      Result (accepts k2 ch (.mcast src dst 0 d.toNat o.toNat n) cw) rx id k3 →
      exec (.mcast g ch sc cvr fa fb fc rx ry rz n) s = .next (pastBy s k3 2))) ∧
  (∀ (g : Guard) (ch : BitVec 3) (sc : Option Scope) (csb : BitVec 4) (fa fc : BitVec 5) (la lc : Letters) (rx : Dst) (s : State)
      (af cf : Word) (k3 : Bank) (cw : Option (SpanReg × Scope × Word)),
    goes g s → Room (here s) rx → pending ((here s).getChan ch) < 16 →
    let id := BitVec.ofNat 64 ((here s).getChan ch).next
    let a := (here s).getT fa
    let c := (here s).getT fc
    sPERM c.span.bits &&& (pSPANSTORE + pDEV) = 0 → sPERM a.span.bits &&& (pSPANSTORE + pDEV) = 0 →
    checkUse s s.cur.bank c.desc c.span fc.toNat 0 false = .ok cf → checkUse s s.cur.bank a.desc a.span fa.toNat 1 false = .ok af →
    (letterNums lc).length = (Desc.of c.desc).rank → (letterNums la).length = (Desc.of a.desc).rank →
    (∀ i l : Nat, (letterNums la)[i]? = some l → l ∈ letterNums lc ∧
      (Desc.of a.desc).extAt i = (Desc.of c.desc).extAt ((letterNums lc).idxOf l)) →
    CompletionWord (here s) sc csb id cw (pSPANSTORE + pDEV) → Result (accepts (here s) ch (.tcopy a c la lc [af, cf] (here s).roundseed) cw) rx id k3 →
    exec (.tcopy g ch sc csb fa fc la lc rx) s = .next (pastBy s k3 2)) ∧
  (∀ (g : Guard) (ch : BitVec 3) (rd : Dst) (ra : Src) (s : State) (v : Word) (k1 k2 : Bank), goes g s → Room (here s) rd →
    (∀ w, (here s).c.wait = some w → w.tag ≠ .cpwait) → Operand (here s) ra v k1 →
    let c := (here s).getChan ch
    (c.next ≤ v.toNat → Traps (.cpwait g ch rd ra) s 0x03 v 256) ∧
    (v.toNat < c.next → v.toNat ≤ c.cpdone → Result k1 rd (BitVec.ofNat 64 c.cpdone) k2 → exec (.cpwait g ch rd ra) s = .next (past s k2)) ∧
    (v.toNat < c.next → c.cpdone < v.toNat → exec (.cpwait g ch rd ra) s =
      .next (s.setBank s.cur.bank { k1 with c := k1.c.waiting s.dtc .cpwait ch.toNat v.toNat [v] }))) ∧
  (∀ (g : Guard) (ch : BitVec 3) (rd : Dst) (s : State) (k : Bank), goes g s →
    (Result (here s) rd (BitVec.ofNat 64 ((here s).getChan ch).next) k → exec (.cpstatNext g ch rd) s = .next (past s k)) ∧
    (Result (here s) rd (BitVec.ofNat 64 (pending ((here s).getChan ch))) k → exec (.cpstatBusy g ch rd) s = .next (past s k)))

/-- A COPY between two disjoint parts of the issuer's own scratchpad that has moved nothing yet and that no pending write meets,
completed (R235, R239): every byte of the destination
holds what its source byte held, no other byte of memory changes, and CPDONE counts the transfer once no earlier one is left. -/
def Sys2Proof.Claims.CopyMovesBytes : Prop :=
  ∀ (s : State) (b : BankId) (ch : BitVec 3) (x : Xfer) (src dst : SpanReg) (so d n : Nat), memWf s.mem = true →
    (s.bank b).findXfer ch x.id = some x → x.cmd = .copy src dst so d n → x.done = 0 → x.cword = none →
    sSPACE src.bits = 1 → sSPACE dst.bits = 1 → (∀ j, s.jobOf b = some j → j.aborted = none) →
    let sa := spadPlace b.core (sBASE src.bits + so)
    let da := spadPlace b.core (sBASE dst.bits + d)
    (sa + n ≤ da ∨ da + n ≤ sa) → s.eccAt sa n = false →
    (∀ q ∈ s.pend, (q.visible = true → q.meets sa n = false) ∧ (q.home = true → q.meets da n = false) ∧
      ¬(q.bank = b ∧ q.path = 2 ∧ q.op = ch.toNat + 8 * x.id)) →
    (∀ y ∈ ((s.bank b).getChan ch).xfers, y.id = x.id ∨ x.id < y.id) → x.id < ((s.bank b).getChan ch).next →
    ∃ t, exec (.transferComplete b ch x.id) s = .next t ∧
      (∀ i : Nat, i < n → readByte t.mem (da + i) = readByte s.mem (sa + i)) ∧
      (∀ a : Nat, a < da ∨ da + n ≤ a → readByte t.mem a = readByte s.mem a) ∧
      x.id ≤ ((t.bank b).getChan ch).cpdone ∧ (t.bank b).findXfer ch x.id = none

/-! ### Ply -/

/-- PLYSORT (R248): the list is to be replaced by one record for each index, in ascending order of index, the values of equal
indices added in the order of arrival; the destination takes their number, and PLYSTAT 0 the sums that became infinite. The
write goes on path B: it joins the pending ones, whole and over no byte outside the list. It waits while an accepted atomic of path B
acts on bytes of the list (R202). -/
def Sys2Proof.Claims.PlySorts : Prop :=
  ∀ (g : Guard) (fa : BitVec 4) (rx : Dst) (ry rz : Src) (form : PlyForm) (s : State) (o n : Word) (k1 k2 : Bank) (addr : Nat)
      (r : SpanReg), goes g s → Room (here s) rx → Operand (here s) ry o k1 → Operand k1 rz n k2 → n.toNat < 2 ^ 16 →
    EngineSpan (here s) fa o (n.toNat * form.rs) (pR + pW) [1] addr r →
    let b := s.cur.bank
    let p := spadPlace b.core addr
    let len := n.toNat * form.rs
    let s1 := s.settleB b p len
    let recs := (recordsOf form.rs n.toNat (s1.readMem p len)).map form.parse
    s.eccAt p len = false →
    ((here s).behind 3 p len = true → exec (.plysort g fa rx ry rz form) s = .next (s.setBank b
      { here s with c := (here s).c.waiting s.dtc .access 8 0 [] })) ∧
    ((here s).behind 3 p len = false → ∃ (out : List (Nat × List Nat)) (inf : Nat) (data : List Byte), data.length = len ∧
      data.take (out.length * form.rs) = out.flatMap form.record ∧
      (out.map Prod.fst).Pairwise (· < ·) ∧
      (∀ (i : Nat) (vs : List Nat), (i, vs) ∈ out ↔ ∃ (v : List Nat) (rest : List (List Nat)),
        (recs.filter (fun q => q.1 = i)).map Prod.snd = v :: rest ∧ vs = rest.foldl (List.zipWith f32AddRne) v) ∧
      ∀ k3 : Bank, Result { k2 with plystat := k2.plystat.set 0 (k2.plystat[0] + BitVec.ofNat 64 inf) } rx (BitVec.ofNat 64 out.length) k3 →
        exec (.plysort g fa rx ry rz form) s = .next (thenPastBy s (if len = 0 then s1
          else s1.queueWrite ⟨0, b, (here s).part, 3, 0, addr, p, data, true, false, false, [], none⟩) k3 2))

/-- PLYSEND is accepted once its list is in order and the hank of the target, a core of the job whose team is bound or stands saved,
can take its slots (R249, R250); a waiting PLYRED
that GO has answered is accepted, its operands popped only then (R28), and one that STOP has answered takes its trap (R251). -/
def Sys2Proof.Claims.PlyAccepted : Prop :=
  (∀ (g : Guard) (ch : BitVec 3) (fa : BitVec 4) (rx : Dst) (ry rz : Src) (form : PlyForm) (core : BitVec 11) (hn : BitVec 4)
      (s s1 : State) (o n : Word) (k1 k2 k3 : Bank) (addr : Nat) (r : SpanReg) (me : Binding) (c : Coord) (home : Bank) (geo : Word),
    goes g s → Room (here s) rx → Operand (here s) ry o k1 → Operand k1 rz n k2 → n.toNat < 2 ^ 16 →
    EngineSpan (here s) fa o (n.toNat * form.rs) pR [0, 1, 2] addr r → (here s).binding = some me →
    s.plyTarget s.cur.bank core.toNat = some (c, home) → (home.getH hn).geo = some geo →
    geo.getLsbD 52 = false → max (8 + form.rs) (12 + form.d * form.vw) ≤ 64 * ((geo.extractLsb' 32 6).toNat + 1) →
    plyIndices (s.xCtx s.cur.bank 0 (here s).asid r) form.rs none n.toNat s addr 0 none = .ok s1 →
    pending ((here s).getChan ch) < 16 →
    let id := ((here s).getChan ch).next
    Result (accepts k2 ch (.ply s1.nextPly) none) rx (BitVec.ofNat 64 id) k3 →
    let m : PlyMember := ⟨(me.jd, me.jc, me.jk), .running, none, ch.toNat, id, r, addr, n.toNat, (here s).asid, []⟩
    exec (.plysend g ch fa rx ry rz form core hn) s = .next (thenPastBy s { s1 with
      ply := s1.ply ++ [⟨s1.nextPly, me.job, 0, false, form, false, 0, 2 ^ 32, 0, c, hn.toNat, [m.c], [m], none, 0⟩],
      nextPly := s1.nextPly + 1 } k3 2)) ∧
  (∀ (g : Guard) (ch : BitVec 3) (fa fb : BitVec 4) (rx : Dst) (ry rz : Src) (form : PlyForm) (s : State) (c : Binding) (j : Job)
      (o d since : Nat) (number v n : Word) (op : PlyOp) (m : PlyMember) (k1 k2 k : Bank), goes g s → (here s).binding = some c →
    s.job c.job = some j → (here s).c.wait = some ⟨.gridGo, o, d, [number], since⟩ →
    s.ply.find? (fun q => q.red && q.job = j.id && q.number = number.toNat) = some op →
    op.members.find? (fun q => q.c = (c.jd, c.jc, c.jk)) = some m →
    (m.phase = .running → pending ((here s).getChan ch) < 16 → Operand (here s) ry v k1 → Operand k1 rz n k2 →
      let id := ((here s).getChan ch).next
      Result (accepts k2 ch (.ply op.id) none) rx (BitVec.ofNat 64 id) k →
      exec (.plyred g ch fa fb rx ry rz form) s = .next (thenPastBy s { s with ply := s.ply.map (fun (p : PlyOp) =>
        if p.id = op.id then { p with members := p.members.map (fun (e : PlyMember) => if e.c = (c.jd, c.jc, c.jk) then { e with xfer := id } else e) } else p) }
        k 2)) ∧
    (∀ t : Held, m.phase = .stopped → m.stop = some t → ∃ s1 : State, s1.banks = s.banks ∧ exec (.plyred g ch fa fb rx ry rz form) s =
      .next (s1.trapC s.cur.bank ⟨t.cause, t.val, t.aux⟩ (here s).c.pc false)))

/-- PLY_SLOT_COMMIT delivers the next slot of a merged stream (R247, R253): one slot of the owner's hank is claimed, written
with its header and records, and committed, and the operation ends with its last slot. The PLYSTAT reads (R254). -/
def Sys2Proof.Claims.PlyDelivers : Prop :=
  (∀ (s : State) (op : PlyOp) (out : List (Bool × Nat × List Nat)) (j : Job) (home : BankId) (h : Hank) (geo : Word), memWf s.mem = true →
    s.ply.find? (fun q => q.id = op.id) = some op → op.out = some out → out ≠ [] → (∀ m ∈ op.members, m.phase = .written) →
    s.job op.job = some j → j.bankOf op.owner = some home → BoundHank (s.bank home) (BitVec.ofNat 4 op.hank) h geo →
    h.claims = [] → h.marks = [] → h.claimed = h.tail → 1 ≤ freeSlots h (scnt geo) → (∀ e ∈ out, e.1 = false) →
    (∀ q ∈ s.jobs, q.aborted = none) →
    let size := 64 * ((geo.extractLsb' 32 6).toNat + 1)
    let cap := max ((size - 8) / op.form.rs) 1
    let es := out.take cap
    let last := decide (out.length ≤ cap)
    let p := spadPlace home.core ((slotAnswer geo h.claimed).toNat / 2 ^ 32)
    let data := bytesOf 8 (es.length + (if last then 2 ^ 32 else 0)) ++ es.flatMap (fun e => op.form.record (e.2.1, e.2.2))
    ∃ t, exec (.plySlotCommit op.id) s = .next t ∧ t.readMem p data.length = data ∧
      (∀ a : Nat, a < p ∨ p + data.length ≤ a → readByte t.mem a = readByte s.mem a) ∧
      ((t.bank home).getH (BitVec.ofNat 4 op.hank)).tail = h.tail + 1 ∧
      ((t.bank home).getH (BitVec.ofNat 4 op.hank)).claimed = h.claimed + 1 ∧
      ((t.bank home).getH (BitVec.ofNat 4 op.hank)).head = h.head ∧
      t.ply = (if last then s.ply.filter (fun q => q.id ≠ op.id)
        else s.ply.map (fun (q : PlyOp) => if q.id = op.id then { q with out := some (out.drop cap), delivered := q.delivered + es.length } else q))) ∧
  (∀ (g : Guard) (n : BitVec 2) (rd : Dst) (s : State) (k : Bank), goes g s →
    Result (here s) rd ((here s).plystat[n.toNat]'(n.isLt)) k → exec (.plystat g n rd) s = .next (past s k) ∧
    exec (.plystatClr g n rd) s = .next (past s { k with plystat := k.plystat.set n.toNat 0 n.isLt }))

/-! ### Attar -/

/-- An Attar instruction completes with the stack's result: its sources are read now, and its destination takes the result. -/
def Sys2Proof.Claims.AnswerDone (i : Instr) (s : State) (v : Word) (rx : Dst) (k1 : Bank) : Prop :=
  ∀ (o d since : Nat) (k : Bank), (here s).c.wait = some ⟨.attarReply, o, d, [1, v], since⟩ → Result k1 rx v k →
    exec i s = .next (pastBy s k 2)

/-- An Attar instruction asks its stack and waits for the reply. -/
def Sys2Proof.Claims.Asks (i : Instr) (s s1 : State) (q : AttarReq) : Prop :=
  exec i s = .next (s1.setBank s.cur.bank { s1.bank s.cur.bank with
    attarReq := some q, c := (s1.bank s.cur.bank).c.waiting s1.dtc .attarReply 0 0 [] })

/-- AREG, AREG.FREE, AQPOST, AAPPEND and ACOMMIT ask the stack (R269 to R272, R274, R275), AQPOST and AAPPEND a second time once HD is known and their
source is read, complete with its result, and trap with its trap; AQWAIT completes once every unit of its query is committed,
and frees the query's slot (R273).
The order of a stack's checks is the model's reading (log entry 44). -/
def Obligations.AttarInstructions : Prop :=
  ∀ (g : Guard) (fa : BitVec 4) (rx : Dst) (ry rz : Src) (hd : BitVec 8) (lnu : BitVec 3) (rows : BitVec 20) (hr cr : BitVec 6)
      (hank : BitVec 4) (s : State) (o n : Word) (k1 k2 : Bank), goes g s → Room (here s) rx → Operand (here s) ry o k1 →
    let b := s.cur.bank
    let h := ((here s).getX hr).toNat
    (Operand k1 rz n k2 →
      (∀ v, AnswerDone (.areg g fa rx ry rz hd lnu rows) s v rx k2) ∧
      (∀ (addr : Nat) (r : SpanReg) (ps : List (Nat × Bool)) (s1 : State), (here s).c.wait = none →
        EngineSpan (here s) fa o (rows.toNat * rowBlock (hd.toNat + 1)) pATTAR [0] addr r → (sBASE r.bits / 2 ^ 55) % 4 = 0 →
        addr % 4096 = 0 → attarPages s b ((rows.toNat * rowBlock (hd.toNat + 1) + 4095) / 4096) addr = .ok (ps, s1) →
        Asks (.areg g fa rx ry rz hd lnu rows) s s1 ⟨.register, [addr, hd.toNat + 1, lnu.toNat, rows.toNat, n.toNat], [], ps⟩) ∧
      (n.toNat % 2 ^ 32 ≤ n.toNat / 2 ^ 32 →
        (∀ v, AnswerDone (.aqpost g fa rx ry rz hr hank) s v rx k2) ∧
        (∀ (w d since : Nat) (v a : Word), (here s).c.wait = some ⟨.attarReply, w, d, [2, 0x28, v, a], since⟩ →
          Traps (.aqpost g fa rx ry rz hr hank) s 0x28 v a) ∧
        (∀ geo, ((here s).getH hank).geo = some geo → geo.getLsbD 52 = false → (here s).c.wait = none → (here s).queries.length < 16 →
          Asks (.aqpost g fa rx ry rz hr hank) s s ⟨.ask, [h], [], []⟩))) ∧
    (∀ v, AnswerDone (.aappend g fa rx ry hr) s v rx k1 ∧ AnswerDone (.acommit g rx ry hr) s v rx k1) ∧
    ((here s).c.wait = none → Asks (.aappend g fa rx ry hr) s s ⟨.ask, [h], [], []⟩ ∧
      Asks (.aregFree g ry) s s ⟨.free, [o.toNat], [], []⟩) ∧
    (∀ (w d since : Nat), (here s).c.wait = some ⟨.attarReply, w, d, [1, 0], since⟩ → exec (.aregFree g ry) s = .next (pastBy s k1 2)) ∧
    ((here s).c.wait = none → (∀ a ∈ (here s).amons, a.path ≠ 5) → (here s).held = [] →
      Asks (.acommit g rx ry hr) s s ⟨.commit, [h, o.toNat], [], []⟩) ∧
    (∀ (w d since : Nat) (hdim : Word) (addr : Nat) (r : SpanReg) (bs : List Byte) (s1 : State),
      (here s).c.wait = some ⟨.attarReply, w, d, [3, hdim], since⟩ → (sSPACE r.bits = 0 → (sBASE r.bits / 2 ^ 55) % 4 = 0) →
      (EngineSpan (here s) fa o (rowBlock hdim.toNat) pR [0, 1] addr r → addr % 64 = 0 →
        s.engLoad (s.aCtx b r) addr (rowBlock hdim.toNat) = .ok (bs, s1) → (∀ a ∈ (here s).amons, a.path ≠ 5) → (here s).held = [] →
        Asks (.aappend g fa rx ry hr) s s1 ⟨.append, [h], bs, []⟩) ∧
      (∀ geo, Operand k1 rz n k2 → n.toNat % 2 ^ 32 ≤ n.toNat / 2 ^ 32 → EngineSpan (here s) fa o (2 * hdim.toNat) pR [0, 1] addr r →
        addr % 2 = 0 → s.engLoad (s.aCtx b r) addr (2 * hdim.toNat) = .ok (bs, s1) → ((here s).getH hank).geo = some geo →
        geo.getLsbD 52 = false → 48 + 4 * hdim.toNat ≤ 64 * ((geo.extractLsb' 32 6).toNat + 1) →
        Asks (.aqpost g fa rx ry rz hr hank) s s1 ⟨.query, [h, n.toNat % 2 ^ 32, n.toNat / 2 ^ 32, hank.toNat], bs, []⟩)) ∧
    (∀ (w d since : Nat) (v a : Word), (here s).c.wait = some ⟨.attarReply, w, d, [2, 0x28, v, a], since⟩ →
      Traps (.areg g fa rx ry rz hd lnu rows) s 0x28 v a ∧ Traps (.aregFree g ry) s 0x28 v a ∧ Traps (.aappend g fa rx ry hr) s 0x28 v a ∧
      Traps (.acommit g rx ry hr) s 0x28 v a) ∧
    (∀ (q : QuerySlot) (k3 : Bank), (∀ w, (here s).c.wait = some w → w.tag ≠ .aqwait) →
      (here s).queries.find? (fun t => t.id = o.toNat) = some q →
      (q.committed < q.nu → exec (.aqwait g rx cr ry) s = .next (s.setBank b { k1 with
        c := k1.c.waiting s.dtc .aqwait q.slot o.toNat [o] })) ∧
      (q.nu ≤ q.committed → Result { k1 with queries := (here s).queries.filter (fun t => t.id ≠ o.toNat) } rx (BitVec.ofNat 64 q.mask) k3 →
        exec (.aqwait g rx cr ry) s = .next (pastBy s (k3.setX cr (BitVec.ofNat 64 q.nexcl)) 2)))

/-- ATTAR_STACK_REPLY performs the request of a waiting stream at its stack (R259, R260, R270 to R274): what each request changes, and
its answer. An append writes the row's values and zeros up to the end of its row block, at the region's pages, and no other byte, where
writes are not tracked. A handle that names no live region of the job answers ATTAR_REGION reason 5. -/
def Sys2Proof.Claims.AttarStack : Prop :=
  ∀ (s : State) (b : BankId) (w : Wait) (c : Binding) (q : AttarReq), (s.bank b).attarReq = some q → (s.bank b).c.wait = some w →
    w.tag = .attarReply → (s.bank b).binding = some c →
    let answered := fun (t : State) (vals : List Word) =>
      let k := t.bank b
      { t.setBank b { k with attarReq := none, c := { k.c with wait := some { w with vals := vals } } } with turns := .issue ⟨b, .c⟩ :: t.turns }
    let put := fun (r r' : AttarRegion) =>
      { s with regions := s.regions.map (fun (x : AttarRegion) => if x.stack = r.stack ∧ x.index = r.index then r' else x) }
    (∀ (h : Nat) (args : List Nat), q.what ≠ .register → q.args = h :: args → s.region c.job h = none →
      exec (.attarStackReply b) s = .next (answered s [2, 0x28, BitVec.ofNat 64 h, 5])) ∧
    (∀ (h : Nat) (args : List Nat) (r : AttarRegion), q.args = h :: args → s.region c.job h = some r →
      (∀ x ∈ s.regions, x.stack = r.stack → x.index = r.index → x = r) →
      (q.what = .ask → exec (.attarStackReply b) s = .next (answered s [3, BitVec.ofNat 64 r.hd])) ∧
      (q.what = .free → (∀ t ∈ s.scans, ¬(t.stack = r.stack ∧ t.index = r.index)) →
        exec (.attarStackReply b) s = .next (answered (put r { r with live := false, gen := (r.gen + 1) % 2 ^ 16 }) [1, 0])) ∧
      (∀ v : Nat, q.what = .commit → args = [v] →
        (r.rows < v → exec (.attarStackReply b) s = .next (answered s [2, 0x28, BitVec.ofNat 64 h, BitVec.ofNat 64 (7 + 256 * r.rows)])) ∧
        (v ≤ r.rows → exec (.attarStackReply b) s =
          .next (answered (put r { r with valid := max r.valid v }) [1, BitVec.ofNat 64 (max r.valid v)]))) ∧
      (q.what = .append → r.rows ≤ r.valid →
        exec (.attarStackReply b) s = .next (answered s [2, 0x28, BitVec.ofNat 64 h, BitVec.ofNat 64 (6 + 256 * r.rows)])) ∧
      (q.what = .append → r.valid < r.rows → ∃ t : State, exec (.attarStackReply b) s = .next (answered t [1, BitVec.ofNat 64 r.valid]) ∧
        t.regions = (put r { r with valid := r.valid + 1 }).regions ∧ t.banks = s.banks ∧
        (let at' := fun (i : Nat) => r.pages.getD ((rowBlock r.hd * r.valid + i) / 4096) 0 + (rowBlock r.hd * r.valid + i) % 4096;
          memWf s.mem = true → q.data.length = rowBlock r.hd → (∀ p ∈ r.pages, p % 4096 = 0) → r.pages.Nodup →
          rowBlock r.hd * (r.valid + 1) ≤ 4096 * r.pages.length →
          (∀ p : Part, s.part r.part = some p → trackOf s p.record r.asid = none) →
          (∀ i : Nat, i < rowBlock r.hd → readByte t.mem (at' i) = if i < 4 * r.hd then q.data.getD i 0 else 0) ∧
          (∀ a : Nat, (∀ i : Nat, i < rowBlock r.hd → a ≠ at' i) → readByte t.mem a = readByte s.mem a))) ∧
      (∀ lo hi hn : Nat, q.what = .query → args = [lo, hi, hn] →
        let id := (s.bank b).nextQuery
        let t := s.setBank b { s.bank b with nextQuery := id + 1,
                                             queries := (s.bank b).queries ++ [⟨(s.bank b).freeSlot, id, BitVec.ofNat 64 h, hn, 2 ^ r.lnu, 0, 0, 0⟩] }
        exec (.attarStackReply b) s = .next (answered { t with
          scans := s.scans ++ [⟨c.job, (c.jd, c.jc, c.jk), id, r.stack, r.index, r.valid, lo, hi, q.data, hn, 0, []⟩] } [1, BitVec.ofNat 64 id]))) ∧
    (∀ (base hd lnu rows valid pa : Nat) (ps : List (Nat × Bool)), q.what = .register → q.args = [base, hd, lnu, rows, valid] →
      q.pages = (pa, true) :: ps → (∀ p ∈ ps, p.2 = true ∧ p.1 / 2 ^ 36 % 8 = pa / 2 ^ 36 % 8) → valid ≤ rows →
      (∃ i, i < 64 ∧ ∀ x ∈ s.regions, ¬(x.live = true ∧ x.stack = pa / 2 ^ 36 % 8 ∧ x.index = i)) →
      ∃ (r : AttarRegion) (t : State), exec (.attarStackReply b) s = .next (answered t [1, BitVec.ofNat 64 r.handle]) ∧ r ∈ t.regions ∧
        r.live = true ∧ r.stack = pa / 2 ^ 36 % 8 ∧ r.index < 64 ∧ r.job = c.job ∧ r.pages = (q.pages.map Prod.fst) ∧ r.hd = hd ∧
        r.lnu = lnu ∧ r.rows = rows ∧ r.valid = valid ∧ t.banks = s.banks ∧
        (∀ x ∈ s.regions, x.live = true → x ∈ t.regions))

/-- A CANON sum of wide-class terms: blocks of 32, then the rounds of pairing (R117, R118). -/
def Sys2Proof.Claims.canon (w : Nat) (vs : List Val) : Nat :=
  let nb := (vs.length + 31) / 32
  (rounds .wide nb ((List.range nb).map (fun b => (blockValue .wide w ((vs.drop (32 * b)).take 32)).1))).headD 0

/-- M, S and A of R262 over the included row blocks `rows`, for query vector `qs` of `hd` values. -/
def Sys2Proof.Claims.Triple (hd : Nat) (qs : List Byte) (rows : List (List Byte)) (m sm : Nat) (a : Nat → Nat) : Prop :=
  let sc := rows.map (fun r => canon 48 ((List.range hd).map (fun d => (bfAt qs 0 d).mulExact (bfAt r 0 d))))
  match sc with
  | [] => m = 0xFF800000 ∧ sm = 0 ∧ ∀ d : Nat, d < hd → a d = 0
  | c :: cs =>
    let p := sc.map (fun x => (fExp2 (fSub .rne x m).1).1)
    m = cs.foldl f32Max c ∧ sm = canon 72 (p.map fromF32) ∧
      ∀ d : Nat, d < hd → a d = canon 72 (List.zipWith (fun x r => (fromF32 x).mulExact (bfAt r (2 * hd) d)) p rows)

/-- ATTAR_SLOT_COMMIT puts the record of the query's next unit into the querier's hank (R262 to R264): one slot is claimed, written and
committed, the query's slot counts the unit, and the scan ends with its last unit. The record holds the triple of the rows that it
includes: all of the unit's, less those with an uncorrectable granule, and none when these are more than four (R268). A unit's rows are those of its residue
class below the snapshot and the range's end (R261). -/
def Sys2Proof.Claims.AttarScans : Prop :=
  ∀ (s : State) (b : BankId) (q : AttarQuery) (r : AttarRegion) (c : Binding) (h : Hank) (geo : Word), memWf s.mem = true →
    (s.bank b).binding = some c →
    let mine := fun (x : AttarQuery) => decide (x.job = c.job ∧ x.c = (c.jd, c.jc, c.jk) ∧ x.id = q.id)
    s.scans.find? mine = some q →
    s.regions.find? (fun x => x.stack = q.stack && x.index = q.index) = some r →
    BoundHank (s.bank b) (BitVec.ofNat 4 q.hank) h geo → h.claims = [] → h.marks = [] → h.claimed = h.tail →
    1 ≤ freeSlots h (scnt geo) → 48 + 4 * r.hd ≤ 64 * ((geo.extractLsb' 32 6).toNat + 1) →
    let all := q.unitRows (2 ^ r.lnu) q.next
    let bad := all.filter (fun row => (q.rowBytes s r row).isNone)
    let rows := if 4 < bad.length then [] else all.filterMap (q.rowBytes s r)
    ∃ (t : State) (rec : List Byte), exec (.attarSlotCommit b q.id) s = .next t ∧
      t.readMem (spadPlace b.core ((slotAnswer geo h.claimed).toNat / 2 ^ 32)) rec.length = rec ∧
      rec.length = 64 * ((geo.extractLsb' 32 6).toNat + 1) ∧
      (let f := fun (at' n : Nat) => natOfBytes ((rec.drop at').take n);
        Triple r.hd q.query rows (f 0 4) (f 4 4) (fun d => f (48 + 4 * d) 4) ∧ f 8 4 = rows.length % 2 ^ 32 ∧
        f 16 1 = (if bad = [] then 0 else if bad.length ≤ 4 then 1 else 2) ∧ f 18 2 = min bad.length 0xFFFF ∧
        (∀ i : Nat, i < 4 → f (20 + 4 * i) 4 = ((bad[i]?).getD 0xFFFFFFFF) % 2 ^ 32) ∧ f 36 12 = 0) ∧
      natOfBytes ((rec.drop 12).take 4) = q.snap % 2 ^ 32 ∧ natOfBytes ((rec.drop 17).take 1) = q.next % 256 ∧
      ((t.bank b).getH (BitVec.ofNat 4 q.hank)).tail = h.tail + 1 ∧
      (∀ u ∈ (s.bank b).queries, u.id = q.id → ∃ v ∈ (t.bank b).queries, v.id = u.id ∧ v.committed = u.committed + 1) ∧
      t.scans = (if q.next + 1 = 2 ^ r.lnu then s.scans.filter (fun x => !mine x)
        else s.scans.map (fun (x : AttarQuery) => if mine x then { x with next := x.next + 1 } else x)) ∧
      (∀ u row : Nat, u < 2 ^ r.lnu → (row ∈ q.unitRows (2 ^ r.lnu) u ↔
        q.lo ≤ row ∧ row < q.hi ∧ row < q.snap ∧ row % 2 ^ r.lnu = u))

/-! ### Events, Distaff and LAUNCH -/

/-- A queued record that waits in the event order of a context (R307). -/
def Sys2Proof.Claims.Waits (p : Part) (ctx : Nat) (r : QRec) : Prop :=
  r ∈ p.queue ∧ r.ready = false ∧ r.inst = none ∧ r.lrec.ctx = ctx

/-- Every event of a WAIT mask is set in a vector. -/
def Sys2Proof.Claims.Covered (m v : Nat) : Prop := m &&& v = m

/-- One step of the event order (R306, R307): bits are set, then bits are cleared; a bit that stands afterwards was set and not
cleared; no record moves when none is covered, and the first covered record in queue order reaches its dispatch point. -/
def Sys2Proof.Claims.EventOrder : Prop :=
  ∀ (s : State) (part ctx set clr : Nat) (p : Part), s.part part = some p → ctx < 16 → set < 2 ^ 256 →
    let v := s.events part ctx ||| set
    let t := s.eventStep part ctx set clr
    let now := fun (m : Nat) => ∀ i : Nat, m.testBit i = true → v.testBit i = true ∧ clr.testBit i = false
    (∀ i : Nat, (t.events part ctx).testBit i = true → v.testBit i = true ∧ clr.testBit i = false) ∧
    ((∀ r, Waits p ctx r → ¬ now r.lrec.waitM) →
      (∀ i : Nat, (t.events part ctx).testBit i = (v.testBit i && !clr.testBit i)) ∧ ∃ p', t.part part = some p' ∧ p'.queue = p.queue) ∧
    (∀ r, Waits p ctx r → now r.lrec.waitM → (∀ q, Waits p ctx q → now q.lrec.waitM → q = r ∨ r.before q = true) →
      ∃ p' : Part, t.part part = some p' ∧ ∃ q ∈ p'.queue, q.same r = true ∧ q.ready = true)

/-- EVSET, EVCLR and EVWAIT (R320): EVSET is a release at `.dv` and one step of the event order that sets its bit, EVCLR one that
clears it; EVWAIT answers 1 once the bit is set, with an acquire, 0 at its deadline, and waits otherwise. -/
def Sys2Proof.Claims.EventInstructions : Prop :=
  (∀ (g : Guard) (ctx : BitVec 4) (bit : BitVec 8) (s : State) (c : Binding), goes g s → (here s).binding = some c →
    (here s).outLoads = [] → (∀ a ∈ (here s).amons, a.path ≠ 0) →
    let s1 := s.releaseStores s.cur.bank .dv
    (s1.bank s.cur.bank).held = [] → (s1.bank s.cur.bank).binding = some c →
    let e := (ctx.toNat, bit.toNat)
    let s2 := s1.modJob c.job (fun (j : Job) => { j with evbits := j.evbits.filter (fun x => x ≠ e) ++ [e] })
    exec (.evset g ctx bit) s = .next (goesOn s (s2.eventStep c.part ctx.toNat (2 ^ bit.toNat) 0))) ∧
  (∀ (g : Guard) (ctx : BitVec 4) (bit : BitVec 8) (s : State) (c : Binding), goes g s → (here s).binding = some c →
    exec (.evclr g ctx bit) s = .next (goesOn s (s.eventStep c.part ctx.toNat 0 (2 ^ bit.toNat)))) ∧
  (∀ (g : Guard) (rd rb : BitVec 6) (ctx : BitVec 4) (bit : BitVec 8) (s : State) (c : Binding) (k : Bank), goes g s →
    (here s).binding = some c →
    ((s.events c.part ctx.toNat).testBit bit.toNat = true → Result (here s) (.reg rd) 1 k →
      exec (.evwait g rd rb ctx bit) s = .next (goesOn s ((s.setBank s.cur.bank k).dropL1 s.cur.bank.core .dv))) ∧
    ((s.events c.part ctx.toNat).testBit bit.toNat = false → rb ≠ 0 → ((here s).getX rb).toNat ≤ s.dtc → Result (here s) (.reg rd) 0 k →
      exec (.evwait g rd rb ctx bit) s = .next (past s k)) ∧
    ((s.events c.part ctx.toNat).testBit bit.toNat = false → (rb = 0 ∨ s.dtc < ((here s).getX rb).toNat) →
      exec (.evwait g rd rb ctx bit) s = .next (s.setBank s.cur.bank { here s with
        c := (here s).c.waiting s.dtc .evwait ctx.toNat bit.toNat (if rb = 0 then [] else [(here s).getX rb]) })))

/-- DINIT and DCLAIM (R318, R319): DINIT sets a context's range and its parameters; DCLAIM takes the next units, min(left, max(MIN,
⌈left / (D·P)⌉)) of them, and answers their first number and their count. -/
def Sys2Proof.Claims.DistaffInstructions : Prop :=
  ∀ (g : Guard) (die : BitVec 2) (rc : BitVec 6) (s : State) (j : Job) (d : Distaff), goes g s → s.jobOf s.cur.bank = some j →
    die.toNat ∈ j.dies → assocGet j.distaff (die.toNat, rc.toNat) = some d →
    let put := fun (d' : Distaff) => s.modJob j.id (fun (q : Job) => { q with distaff := assocSet q.distaff (die.toNat, rc.toNat) d' })
    (∀ (ra rb : Src) (n p : Word) (k1 k2 : Bank), Operand (here s) ra n k1 → Operand k1 rb p k2 → n.toNat < 2 ^ 32 →
      p.extractLsb' 0 32 ≠ 0 → p.extractLsb' 32 16 ≠ 0 → p.extractLsb' 48 16 ≠ 0 →
      exec (.dinit g die rc ra rb) s = .next (thenPast s
        (put ⟨n.toNat, 0, (p.extractLsb' 0 32).toNat, (p.extractLsb' 32 16).toNat, (p.extractLsb' 48 16).toNat⟩) k2)) ∧
    (∀ (rd : Dst) (k : Bank) (cnt : Nat), cnt = min (d.n - d.next) (max d.min ((d.n - d.next + d.d * d.p - 1) / (d.d * d.p))) →
      Result (here s) rd (BitVec.ofNat 64 (d.next + cnt * 2 ^ 32)) k →
      exec (.dclaim g rd die rc) s = .next (thenPast s (put { d with next := d.next + cnt }) k))

/-- LAUNCH (R321): the record is read and put into the device ring of its context, once the ring has a slot, after a release; the
instruction completes with the arrival number once the record is copied. Context 15 needs privilege. -/
def Sys2Proof.Claims.LaunchInstruction : Prop :=
  ∀ (g : Guard) (rd : BitVec 6) (m : MemRef) (s : State), goes g s →
    (∀ (o d since : Nat) (x y a : Word) (k : Bank), (here s).c.wait = some ⟨.launchSlot, o, d, [x, y, a], since⟩ →
      Result (here s) (.reg rd) a k → exec (.launch g rd m) s = .next (past s k)) ∧
    (∀ (addr : Nat) (r : SpanReg) (bs : List Byte) (s1 : State) (p : Part), (here s).c.wait = none → (here s).outLoads = [] →
      (here s).ea m pR 512 64 true true false = .ok (addr, r) → pathRead s.cur.bank r m.sb.toNat 66 s addr 512 = .ok (bs, s1) →
      let ctx := (bs.getD 4 0).toNat % 16
      (ctx = 15 → (here s).priv = false → exec (.launch g rd m) s =
        .next (s1.deliver s.cur.bank ⟨0x05, 15, 0⟩ (here s).c.pc)) ∧
      (ctx < 15 ∨ (here s).priv = true → (s1.bank s.cur.bank).outLoads = [] → (∀ a ∈ (s1.bank s.cur.bank).amons, a.path ≠ 0) →
        let s2 := s1.releaseStores s.cur.bank .dv
        (s2.bank s.cur.bank).held = [] → s2.part (here s).part = some p →
        let q := p.ring ctx true
        q.tail < q.head + 2 ^ q.qlog2 →
        let s3 := (s2.performWrite none (q.base + 512 * (q.tail % 2 ^ q.qlog2)) bs false).modPart (here s).part
          (fun p => p.setRing ctx true { q with tail := q.tail + 1 })
        let k := s3.bank s.cur.bank
        exec (.launch g rd m) s = .next (s3.setBank s.cur.bank { k with
          c := k.c.waiting s3.dtc .launchSlot ctx 0 [BitVec.ofNat 64 ctx, BitVec.ofNat 64 q.tail] })))

/-! ### Records, graphs, dispatch -/

/-- The jobs of a state, apart from their notes of the event bits that they have set. -/
def Sys2Proof.Claims.noBits (s : State) : List Job := s.jobs.map (fun (j : Job) => { j with evbits := [] })

/-- HOST_DOORBELL, RECORD_COPY, GRAPH_INSTANCE_START and DISPATCH (R301, R302, R305, R307, R309, R316): a doorbell moves a ring's
tail; the record at a ring's head gets the next arrival number and is queued, or is rejected with its reason in the log and at
DONEADDR (for a major version of the record, its image or its graph object the log names both versions, R20, R372), and a read of that
object that an error in a page-table entry stopped is logged (R373); a replay's records join the queue under the lowest unused instance; a record at its dispatch point becomes a job on
the banks that take it, unless a saved team goes before it (R313).
The first arrival number, the order of the checks and the evaluation, and the place of a record in the rotation are the model's
reading (log entries 22, 45, 46, 48 and 108). -/
def Obligations.RecordsAndDispatch : Prop :=
  (∀ (s : State) (part ctx tail : Nat) (p : Part), s.part part = some p →
    (p.ring ctx false).tail ≤ tail → tail ≤ (p.ring ctx false).head + 2 ^ (p.ring ctx false).qlog2 →
    exec (.hostDoorbell part ctx tail) s = .next (s.modPart part (fun q => q.setRing ctx false { p.ring ctx false with tail := tail }))) ∧
  (∀ (s : State) (part ctx : Nat) (dev torn : Bool) (p : Part), s.part part = some p → ctx < 16 → (p.ring ctx dev).head < (p.ring ctx dev).tail →
    let q := p.ring ctx dev
    let r := parseRec (s.readMem (q.base + 512 * (q.head % 2 ^ q.qlog2)) 512)
    let s0 := s.modPart part (fun x => { (x.setRing ctx dev { q with head := q.head + 1 }) with arrival := p.arrival + 1 })
    let s1 := if dev then s0.answerLaunch part ctx q.head (p.arrival + 1) else s0
    let asid := p.record.lcasid.getD (r.ctx % 16) 0
    let s2 := if (torn && !dev) = true ∨ r.vmaj ≠ 1 then s1 else s1.logObject part asid r
    (∀ reason : Nat, recReason p.record (some ctx) (torn && !dev) r (s1.loaded part asid r) = some reason →
      ∃ names : List Nat, (reason = 1 → names = [1, 0, r.vmaj, r.vmin]) ∧ (reason ≠ 1 → reason ≠ 6 → names = []) ∧
        (reason = 6 → ∀ h : List Byte, s1.imageReader part asid r.image 64 = some h →
          (r.kind = 1 → names = if leField h 1 1 = 1 then [] else [1, 0, leField h 1 1, leField h 0 1]) ∧
          (r.kind = 0 → names = if leField h 0 4 = 0x0046494A ∧ leField h 5 1 ≠ 1 then [1, 0, leField h 5 1, leField h 4 1] else [])) ∧
        exec (.recordCopy part ctx dev torn) s = .next
          ((s2.logSched .recordReject ([r.recid, p.arrival + 1, reason] ++ names)).writeDone part ctx r.doneaddr (2 ^ 63 + reason))) ∧
    (recReason p.record (some ctx) (torn && !dev) r (s1.loaded part asid r) = none →
      ∃ (t : State) (p' : Part) (x : QRec), exec (.recordCopy part ctx dev torn) s = .next t ∧ t.part part = some p' ∧ x ∈ p'.queue ∧
        x.arrival = p.arrival + 1 ∧ x.lrec = r ∧ x.priv = decide (ctx = 15) ∧ x.inst = none ∧ p'.arrival = p.arrival + 1 ∧
        p'.queue.length = p.queue.length + 1 ∧ noBits t = noBits s)) ∧
  (∀ (s : State) (part arrival jobid : Nat) (places : List BankId) (p : Part) (r : QRec) (rest : List QRec)
      (l : List (BankId × Nat × Nat × Nat)), s.part part = some p →
    inOrder (p.queue.filter (fun r => r.ready && r.lrec.kind = 0 && !p.recLeaving r)) = r :: rest → r.arrival = arrival →
    shapeFits p.record r.lrec.shape = true → placeCoords r.lrec.shape places = some l → jobid ≠ 0 → s.job jobid = none →
    (∀ b ∈ places, s.bankFree p b = true) →
    (∀ q ∈ s.jobs, q.part = part → ∀ x ∈ q.saved, x.runnable = true → q.qrec.lrec.ctrl % 8 < r.lrec.ctrl % 8 ∨
      (q.qrec.lrec.ctrl % 8 = r.lrec.ctrl % 8 ∧ r.rot ≤ x.rotation)) →
    (∀ d : Nat, d < 4 → (∃ b ∈ places, dieOf b.core = d) → s.distaffUsed d + r.lrec.dcount ≤ Config.distaffPerDie) →
    ∃ (t : State) (j : Job), exec (.dispatch part arrival jobid places) s = .next t ∧ t.jobs = s.jobs ++ [j] ∧ j.id = jobid ∧ j.part = part ∧
      j.qrec = r ∧ j.banks = l.map (fun (b, jd, jc, jk) => (b, ⟨jobid, part, jd, jc, jk⟩)) ∧ j.started = false ∧ j.aborted = none ∧
      (∃ p', t.part part = some p' ∧ p'.queue = p.queue.filter (fun q => !q.same r)) ∧ t.banks = s.banks) ∧
  (∀ (s : State) (part arrival : Nat) (p : Part) (r : QRec) (g : Graph), s.part part = some p →
    p.queue.find? (fun r => r.arrival = arrival && r.ready && r.inst.isNone && r.lrec.kind = 1 && !p.recLeaving r) = some r →
    let asid := p.record.lcasid.getD r.lrec.ctx 0
    let same := fun (q : QRec) => q.lrec.kind = 1 && q.lrec.image = r.lrec.image && p.record.lcasid.getD q.lrec.ctx 0 = asid
    readGraph (s.imageReader part asid) r.lrec.image = some g → g.patchesOk = true →
    (∀ q ∈ p.queue, ¬(q.ready = true ∧ q.inst = none ∧ same q = true ∧ q.arrival < arrival)) →
    (p.graphs.filter (fun i => same i.replay)).length < (if g.reentrant then 4 else 1) →
    (∀ x ∈ (g.patches.foldl (applyPatch r.params) g.recs).map parseRec, recReason p.record none false x (s.loaded part asid x) = none) →
    ∃ (t : State) (p' : Part) (i : GInst), exec (.graphInstanceStart part arrival) s = .next t ∧ t.part part = some p' ∧ i ∈ p'.graphs ∧
      i.id = p.nextInst ∧ p'.nextInst = p.nextInst + 1 ∧ i.replay = r ∧ i.left = List.range g.recs.length ∧ i.failed = none ∧
      (∀ n : Nat, n < g.recs.length → ∃ x ∈ p'.queue, x.inst = some (p.nextInst, n) ∧ x.arrival = arrival ∧ x.lrec.ctx = r.lrec.ctx ∧
        x.lrec.ctrl % 8 = r.lrec.ctrl % 8 ∧ x.priv = r.priv) ∧
      (∀ x ∈ p'.queue, x.same r = false))

/-! ### Teams: bind records, pre-emption, swaps, completion -/

/-- A bind record of operation `op` that passes its form checks and names an exposed core (R311). -/
def Sys2Proof.Claims.GoodBind (s : State) (r : BindRec) (op : Nat) : Prop :=
  r.vmaj = 1 ∧ r.vmin = 0 ∧ r.op = op ∧ r.rsvd = false ∧ r.bank < 2 ∧ ∃ p, s.part r.part = some p ∧ p.record.owns r.vcore = true

/-- BIND gives a bank the state of R278 and R304, without starting it; START starts every bound bank of a job at once; RELEASE frees
a bank whose team is over; PREEMPT makes a running bank drain where R313 gives it a ground (R310). -/
def Sys2Proof.Claims.BindRecords : Prop :=
  ∀ (s : State) (r : BindRec), let b : BankId := ⟨r.vcore, r.bank⟩
    (∀ (p : Part) (j : Job) (i : Image), GoodBind s r 1 → s.part r.part = some p → s.job r.jobid = some j → (s.bank b).binding = none →
      assocGet j.banks b = some ⟨r.jobid, r.part, r.jd, r.jc, r.jk⟩ → j.started = false →
      s.image r.part (p.record.lcasid.getD j.qrec.lrec.ctx 0) j.qrec.lrec.image = some i →
      ∃ t, exec (.bind r) s = .next t ∧
        let k := t.bank b
        k.binding = some ⟨r.jobid, r.part, r.jd, r.jc, r.jk⟩ ∧
        (∀ n : Fin 64, k.x[n] = if 2 ≤ n.val ∧ n.val ≤ 9 then j.qrec.lrec.args.getD (n.val - 2) 0 else 0) ∧
        (∀ n : Fin 16, k.y[n] = 0 ∧ k.fl[n] = false ∧ (k.h[n]).geo = none ∧ (k.h[n]).head = 0 ∧ (k.h[n]).tail = 0 ∧ (k.h[n]).claimed = 0) ∧
        (∀ n : Fin 8, k.q[n] = [] ∧ k.m[n] = 0) ∧ (∀ n : Fin 32, (k.t[n]).owner = .c) ∧ (∀ n : Fin 4, (k.lc[n]).active = false) ∧
        k.spwin = j.qrec.lrec.spwin ∧ k.roundseed = j.qrec.lrec.seed ∧ k.lwait = j.qrec.lrec.lwait ∧ k.stall = j.qrec.lrec.stall ∧
        k.quantum = j.qrec.lrec.quantum ∧ (∀ n : Fin 16, k.bfmt[n] = j.qrec.lrec.bfmt.getD n.val 0) ∧ k.fpflags = 0 ∧ k.plyDense = 0 ∧
        k.c.run = .bound ∧ k.g.run = .bound ∧ (k.status.getLsbD 0 = j.qrec.priv)) ∧
    (∀ (j : Job), r.vmaj = 1 → r.vmin = 0 → r.op = 2 → r.rsvd = false → r.bank = 0 → r.vcore = 0 → r.part = 0 → r.lrec = 0 → r.jd = 0 →
      r.jc = 0 → r.jk = 0 → s.job r.jobid = some j → j.started = false → (∃ q ∈ j.banks, (s.bank q.1).binding = some q.2) →
      ∃ t, exec (.start r) s = .next t ∧
        (∀ q ∈ j.banks, (s.bank q.1).binding = some q.2 → (t.bank q.1).c.run = .running ∧ (t.bank q.1).g.run = .running) ∧
        (∀ b', (∀ q ∈ j.banks, q.1 ≠ b') → t.bank b' = s.bank b') ∧ ∃ j', t.job r.jobid = some j' ∧ j'.started = true) ∧
    (GoodBind s r 5 → ((s.bank b).binding.map (·.job)) = some r.jobid → (∀ j, s.job r.jobid = some j → ∀ q ∈ j.banks, q.1 ≠ b) →
      ∃ t, exec (.release r) s = .next t ∧ (t.bank b).binding = none ∧ (t.bank b).c.run = .unbound ∧ (t.bank b).g.run = .unbound ∧
        ∀ b', b' ≠ b → t.bank b' = s.bank b') ∧
    (∀ (j : Job), GoodBind s r 3 → ((s.bank b).binding.map (·.job)) = some r.jobid → s.job r.jobid = some j → (∃ q ∈ j.banks, q.1 = b) →
      (s.bank b).preemptAt = none → ∀ c : Binding, (s.bank b).binding = some c →
      let prio := j.qrec.lrec.ctrl % 8
      let ground := ((∃ x ∈ j.teams, x.jd = c.jd ∧ x.jc = c.jc ∧ x.boundary = true) ∧ s.teamWaits j.part prio = true) ∨
        s.urgentWaits j.part prio = true
      (ground → exec (.preempt r) s = .next (s.setBank b { s.bank b with
        idleSince := if (s.bank b).drain = .none then s.dtc else (s.bank b).idleSince,
        preemptAt := some s.dtc, drain := if (s.bank b).pendTrap.isSome then .fault else .preempt })) ∧
      (¬ground → exec (.preempt r) s = .next s))

/-- Each bind record that R311 rejects, the restorations of R391 apart, changes no bank: it is logged in its die's dispatch log with the
reason, and for another major version with both versions (R20), and nothing else happens. The reasons are a record of another version
or OP or with a reserved field or a field that its OP does not use, a core that is not the partition's, a bank that is bound, a bank
that holds no team of the job or none that is to be released, and a START of a job that is unknown, bound nowhere or started. R311
numbers none of them: the numbers 1 to 5 are the model's choice (log entry 107). -/
def Sys2Proof.Claims.BindRejected : Prop :=
  ∀ (s : State) (r : BindRec), let b : BankId := ⟨r.vcore, r.bank⟩
    let logged : Nat → Out := fun reason =>
      .next { s with dispatchLog := s.dispatchLog ++ [(r.vcore / 512, ⟨.bindReject, [r.op, r.vcore, r.bank, r.jobid, reason] ++
        (if r.vmaj = 1 then [] else [1, 0, r.vmaj, r.vmin])⟩)] }
    (r.vmaj ≠ 1 ∨ r.vmin ≠ 0 ∨ r.rsvd = true ∨ 2 ≤ r.bank → exec (.bind r) s = logged 1 ∧ exec (.start r) s = logged 1 ∧
      exec (.preempt r) s = logged 1 ∧ exec (.resume r) s = logged 1 ∧ exec (.release r) s = logged 1) ∧
    ((r.op ≠ 1 → exec (.bind r) s = logged 1) ∧ (r.op ≠ 2 → exec (.start r) s = logged 1) ∧ (r.op ≠ 3 → exec (.preempt r) s = logged 1) ∧
      (r.op ≠ 4 → exec (.resume r) s = logged 1) ∧ (r.op ≠ 5 → exec (.release r) s = logged 1)) ∧
    (r.bank ≠ 0 ∨ r.vcore ≠ 0 ∨ r.part ≠ 0 ∨ r.lrec ≠ 0 ∨ r.jd ≠ 0 ∨ r.jc ≠ 0 ∨ r.jk ≠ 0 → exec (.start r) s = logged 1) ∧
    (r.vmaj = 1 → r.vmin = 0 → r.op = 2 → r.rsvd = false → r.bank = 0 → r.vcore = 0 → r.part = 0 → r.lrec = 0 → r.jd = 0 → r.jc = 0 →
      r.jk = 0 → (∀ j, s.job r.jobid = some j → j.started = true ∨ ∀ q ∈ j.banks, (s.bank q.1).binding ≠ some q.2) →
      exec (.start r) s = logged 5) ∧
    (r.vmaj = 1 → r.vmin = 0 → r.rsvd = false → r.bank < 2 → (∀ p, s.part r.part = some p → p.record.owns r.vcore = false) →
      (r.op = 1 → exec (.bind r) s = logged 2) ∧ (r.op = 3 → exec (.preempt r) s = logged 2) ∧ (r.op = 4 → exec (.resume r) s = logged 2) ∧
      (r.op = 5 → exec (.release r) s = logged 2)) ∧
    ((s.bank b).binding ≠ none → (GoodBind s r 1 → exec (.bind r) s = logged 3) ∧ (GoodBind s r 4 → exec (.resume r) s = logged 3)) ∧
    (((s.bank b).binding.map (·.job)) ≠ some r.jobid → (GoodBind s r 3 → exec (.preempt r) s = logged 4) ∧
      (GoodBind s r 5 → exec (.release r) s = logged 4)) ∧
    (let running := ∃ j, s.job r.jobid = some j ∧ ∃ q ∈ j.banks, q.1 = b
     (GoodBind s r 5 → running → exec (.release r) s = logged 4) ∧ (GoodBind s r 3 → ¬running → exec (.preempt r) s = logged 4))

/-- Quanta and completion (R8, R308, R313, R322, R325): QUANTUM_BOUNDARY marks a team that has held its banks for QUANTUM_NS; a job
completes once everything of it is over, leaves the device and writes DONEVAL; a restart of the scheduler changes no bank and
no job; a stall is recorded once, with the bytes of the Sillage record at SILADDR.
The record's codes for some waits are the model's reading (log entry 57). -/
def Obligations.QuantaAndCompletion : Prop :=
  (∀ (s : State) (job jd jc : Nat) (j : Job) (x : TeamRec) (b : BankId), s.job job = some j →
    j.teams.find? (fun x => x.jd = jd && x.jc = jc) = some x → j.leader jd jc = some b →
    (x.start + (s.bank b).quantum.toNat ≤ s.dtc →
      exec (.quantumBoundary job jd jc) s = .next (s.modTeam job jd jc (fun q => { q with boundary := true }))) ∧
    (s.dtc < x.start + (s.bank b).quantum.toNat → exec (.quantumBoundary job jd jc) s = .next s)) ∧
  (∀ (s : State) (j : Job), s.job j.id = some j → s.jobOver j = true → j.qrec.inst = none →
    let r := j.qrec.lrec
    let s1 := (s.writeDone j.part r.ctx r.doneaddr r.doneval.toNat).eventStep j.part r.ctx r.setM 0
    ∃ t, exec (.jobComplete j.id) s = .next t ∧ t.job j.id = none ∧
      (∀ q ∈ s.jobs, q.id ≠ j.id → ∃ q' ∈ t.jobs, { q' with evbits := q.evbits } = q) ∧ t.mem = s1.mem ∧
      t.parts = s1.parts ∧ (∀ b, (∃ q ∈ j.banks, q.1 = b) → (t.bank b).c.run = .unbound ∧ (t.bank b).g.run = .unbound) ∧
      (∀ b, (∀ q ∈ j.banks, q.1 ≠ b) → t.bank b = s.bank b)) ∧
  (∀ s : State, ∃ t, exec .schedulerRestart s = .next t ∧ t.banks = s.banks ∧ noBits t = noBits s ∧ t.mem = s.mem ∧ t.saves = s.saves) ∧
  (∀ (s : State) (j : Job) (x : Nat), s.job j.id = some j → j.started = true →
    let l := s.silCores j
    let ns := (l.head?.map (fun c => c.k.stall.toNat)).getD 0
    s.lastProgress l = some x → ns ≠ 0 → x + ns ≤ s.dtc → j.stalledAt ≠ some x →
    let s1 := (s.modJob j.id (fun (q : Job) => { q with stalledAt := some x })).logPart j.part .stall [j.qrec.lrec.recid, s.dtc]
    (j.qrec.lrec.siladdr = 0 → exec (.sillageRecord j.id) s = .next s1) ∧
    (∀ s2, s1.writeVirt [.mem] j.part (s1.jobAsid j) j.qrec.lrec.siladdr (s.sillage j ns) = .ok s2 →
      j.qrec.lrec.siladdr ≠ 0 → exec (.sillageRecord j.id) s = .next s2))

/-- Saving and restoring teams (R298, R299, R387 to R391): the last bank of a team to drain saves the team, runnable; a team all
of whose streams have waited longer than LWAIT_NS is saved and its banks freed; a fired wake source makes a saved team runnable;
RESUME and TEAM_REBIND give a saved core its registers back, in the bank that they name, when no other team goes before (R313). Where a save is written, the job and its
partition stand as before once the drain is over.
A core record whose sections have grown gives the core back, as far as a save carries it (R390, R391). The form of the bodies and which
waits count as fired are the model's reading (log entries 14, 52 and 53), and so is the rotation (log entry 108). -/
def Obligations.TeamsSavedAndRestored : Prop :=
  (∀ (s : State) (b : BankId) (c : Binding) (j : Job) (x : Nat) (p : Part), (s.bank b).preemptAt = some x → (s.bank b).binding = some c →
    s.jobOf b = some j → (s.bank b).drain ≠ .parked → (s.bank b).pendTrap = none → s.part c.part = some p → p.mig.state = 0 →
    c.part = j.part → (p.drainNs.toNat + x ≤ s.dtc ∨ (s.bank b).grid = []) → (b, c) ∈ j.banks →
    (∀ q ∈ j.banks, q.1 = b ∨ (q.2.jd = c.jd ∧ q.2.jc = c.jc) → q = (b, c)) →
    (s.drainBank b).jobs = s.jobs → (s.drainBank b).part c.part = some p →
    ∃ t, exec (.preemptDrainExpiry b) s = .next t ∧ (t.bank b).binding = some c ∧ (t.bank b).c.run = .unbound ∧
      (∀ j', t.job j.id = some j' → (∀ q ∈ j'.banks, q.1 ≠ b) ∧
        ∃ v ∈ j'.saved, v.jd = c.jd ∧ v.jc = c.jc ∧ v.reason = 0x30 ∧ v.runnable = true)) ∧
  (∀ (s : State) (job jd jc : Nat) (j : Job) (b : BankId), s.job job = some j → j.leader jd jc = some b → (s.bank b).lwait ≠ 0 →
    j.started = true → (∀ q ∈ j.teamBanks jd jc, (s.bank q.1).waitsLong s.dtc (s.bank b).lwait.toNat = true ∧
      (s.bank q.1).preemptAt = none ∧ (s.bank q.1).halted = none ∧ ∀ t, (s.bank q.1).pendTrap = some t → t.seq ≠ none) →
    let s1 := (j.teamBanks jd jc).foldl (fun x q => (x.finishXfers q.1).drainBank q.1) s
    s1.jobs = s.jobs → (∀ p, s1.part j.part = some p → p.mig.state = 0) →
    ∃ t, exec (.longWaitSwap job jd jc) s = .next t ∧ (∀ q ∈ j.teamBanks jd jc, (t.bank q.1).binding = none) ∧
      (∀ j', t.job j.id = some j' → ∃ v ∈ j'.saved, v.jd = jd ∧ v.jc = jc ∧ v.reason = 0x31 ∧
        v.runnable = s1.watchEnded (j.teamBanks jd jc))) ∧
  (∀ (s : State) (job jd jc : Nat) (j : Job) (v : SavedTeam) (w : Save) (jk core : Nat) (k : Bank) (x : Wait), s.job job = some j →
    j.saved.find? (fun t => t.jd = jd && t.jc = jc && !t.runnable && t.reason ≠ 0x40) = some v →
    s.saves.find? (fun u => u.serial = v.serial) = some w → (jk, core, k) ∈ w.cores → k.c.wait = some x →
    s.sourceFired j (w.cores.map (fun c => c.2.1)) (jd, jc, jk) core k .c x = true →
    exec (.wakeSourceFire job jd jc) s = .next { (s.modJob job (fun (j : Job) => { j with saved := j.saved.map (fun (q : SavedTeam) =>
      if q.serial = v.serial then { q with runnable := true, rotation := s.nextSave } else q) })) with nextSave := s.nextSave + 1 }) ∧
  (∀ (s : State) (r : BindRec) (j : Job) (v : SavedTeam) (w : Save) (old : Nat) (k : Bank) (rs : List (List SaveSec)) (h : List Byte), GoodBind s r 4 →
    let b : BankId := ⟨r.vcore, r.bank⟩
    (s.bank b).binding = none → (∀ q ∈ s.jobs, ∀ x ∈ q.banks, x.1 ≠ b) → s.job r.jobid = some j →
    let rd := s.imageReader j.part (s.jobAsid j)
    let va := j.qrec.lrec.savearea + 2 ^ 25 * (8 * r.jd + r.jc)
    rd va 64 = some h → 64 < leField h 24 8 → leField h 24 8 ≤ 2 ^ 25 →
    checkSave h ((rd (va + 64) (leField h 24 8 - 64)).getD []) = .ok rs →
    j.saved.find? (fun t => t.jd = r.jd && t.jc = r.jc) = some v → s.saves.find? (fun u => u.serial = v.serial) = some w →
    w.cores.find? (fun (a, _) => a = r.jk) = some (r.jk, old, k) → rs.length = (shapeOf j.qrec.lrec.shape).2.2 → r.part = j.part →
    placeFits j v r.vcore old = true → (h.drop 32).take 32 = w.digest → s.outranked j v = false → s.leaving j = false →
    k.pendTrap = none →
    ∃ t, exec (.resume r) s = .next t ∧ (t.bank b).binding = some ⟨j.id, j.part, v.jd, v.jc, r.jk⟩ ∧ (t.bank b).x = k.x ∧
      (t.bank b).y = k.y ∧ (t.bank b).q = k.q ∧ (t.bank b).c.pc = k.c.pc ∧ (t.bank b).c.wait = k.c.wait ∧ (t.bank b).c.run = k.c.run ∧ (t.bank b).t = k.t ∧ (t.bank b).b = k.b ∧ (t.bank b).h = k.h ∧
      (∀ b', b' ≠ b → t.bank b' = s.bank b')) ∧
  (∀ (s : State) (job jd jc n : Nat) (j : Job) (v : SavedTeam) (p : Part) (w : Save) (jk old : Nat) (k : Bank), s.job job = some j →
    j.saved.find? (fun t => t.jd = jd && t.jc = jc && t.runnable) = some v → s.part j.part = some p →
    s.saves.find? (fun u => u.serial = v.serial) = some w → w.cores = [(jk, old, k)] → s.outranked j v = false → s.leaving j = false →
    k.pendTrap = none →
    (∃ rs, checkSave (s.saveHead j.part w.asid w.va) (s.saveBody j.part w.asid w.va) = .ok rs ∧ rs.length = (shapeOf j.qrec.lrec.shape).2.2) →
    ((s.saveHead j.part w.asid w.va).drop 32).take 32 = w.digest →
    let b : BankId := ⟨n / 2 * 64 + old % 64, n % 2⟩
    s.bankFree p b = true → placeFits j v b.core old = true →
    ∃ t, exec (.teamRebind job jd jc n) s = .next t ∧ (t.bank b).binding = some ⟨j.id, j.part, v.jd, v.jc, jk⟩ ∧ (t.bank b).x = k.x ∧
      (t.bank b).c.pc = k.c.pc ∧ (t.bank b).c.wait = k.c.wait ∧ (t.bank b).c.run = k.c.run ∧ ∀ b', b' ≠ b → t.bank b' = s.bank b') ∧
  (∀ (x : CoreSave) (extra : Nat → List Byte), readCore (fun tag => x.body tag ++ extra tag) = ⟨x.core, x.bank, x.dirty, x.k.portable⟩)

/-! ### Spans, overlays, span storage -/

/-- A span's fields at full width (R326): base, limit, permissions, space, partition. -/
def Sys2Proof.Claims.base (v : BitVec 256) : Word := v.extractLsb' 0 64
def Sys2Proof.Claims.limit (v : BitVec 256) : Word := v.extractLsb' 64 64
def Sys2Proof.Claims.perms (v : BitVec 256) : BitVec 8 := v.extractLsb' 128 8
def Sys2Proof.Claims.space (v : BitVec 256) : BitVec 3 := v.extractLsb' 136 3
def Sys2Proof.Claims.partOf (v : BitVec 256) : BitVec 4 := v.extractLsb' 176 4
def Sys2Proof.Claims.sealedSpan (v : BitVec 256) : Bool := v.getLsbD 191

/-- Writes span register `n`. -/
def Sys2Proof.Claims.withB (k : Bank) (n : BitVec 4) (r : SpanReg) : Bank := { k with b := k.b.set n.toNat r n.isLt }

/-- The span instructions (R334 to R336): SPMINT mints a well-formed span of the stream's own partition; SPNARROW and SPOFF derive
a smaller one from a valid span that is not sealed; SPGET reads a word or the valid bit, SPMOV copies and clears. -/
def Obligations.SpanInstructions : Prop :=
  (∀ (g : Guard) (bd : BitVec 4) (ra : BitVec 6) (s : State), goes g s →
    let k := here s
    let v : BitVec 256 := k.getX (ra + 3) ++ k.getX (ra + 2) ++ k.getX (ra + 1) ++ k.getX ra
    (spanBad v = none → (partOf v).toNat = k.part → exec (.spmint g bd ra) s = .next (past s (withB k bd ⟨v, true⟩))) ∧
    (spanBad v = none → (partOf v).toNat ≠ k.part → Traps (.spmint g bd ra) s 0x03 (v.extractLsb' 128 64) (256 + 176)) ∧
    (∀ bit : Nat, spanBad v = some bit → Traps (.spmint g bd ra) s 0x03 (v.extractLsb' (bit / 64 * 64) 64) (BitVec.ofNat 64 (256 + bit)))) ∧
  (∀ (g : Guard) (bd ba : BitVec 4) (rb : Src) (mask : BitVec 8) (s : State) (n : Word) (k1 : Bank), goes g s → Operand (here s) rb n k1 →
    let r := (here s).getB ba
    let v := r.bits
    (r.valid = true → sealedSpan v = false → (base v).toNat ≤ (limit v).toNat →
      (∃ v' : BitVec 256, base v' = base v ∧ perms v' = perms v &&& mask ∧
        (limit v').toNat = (base v).toNat + min ((limit v).toNat - (base v).toNat) n.toNat ∧ v'.extractLsb' 136 120 = v.extractLsb' 136 120 ∧
        exec (.spnarrow g bd ba rb mask) s = .next (past s (withB k1 bd ⟨v', true⟩))) ∧
      (n.toNat ≤ (limit v).toNat - (base v).toNat →
        ∃ v' : BitVec 256, (base v').toNat = (base v).toNat + n.toNat ∧ limit v' = limit v ∧ v'.extractLsb' 128 128 = v.extractLsb' 128 128 ∧
        exec (.spoff g bd ba rb) s = .next (past s (withB k1 bd ⟨v', true⟩))) ∧
      ((limit v).toNat - (base v).toNat < n.toNat → Traps (.spoff g bd ba rb) s 0x09 n (ba.setWidth 64))) ∧
    (r.valid = false → Traps (.spnarrow g bd ba rb mask) s 0x08 0 (ba.setWidth 64) ∧ Traps (.spoff g bd ba rb) s 0x08 0 (ba.setWidth 64)) ∧
    (r.valid = true → sealedSpan v = true → Traps (.spnarrow g bd ba rb mask) s 0x0A (base v) (ba.setWidth 64) ∧
      Traps (.spoff g bd ba rb) s 0x0A (base v) (ba.setWidth 64))) ∧
  (∀ (g : Guard) (rd : Dst) (ba bd : BitVec 4) (sel : BitVec 3) (s : State) (k : Bank), goes g s →
    let r := (here s).getB ba
    (sel.toNat < 4 → Result (here s) rd (r.bits.extractLsb' (64 * sel.toNat) 64) k → exec (.spget g rd ba sel) s = .next (past s k)) ∧
    (sel = 4 → Result (here s) rd (if r.valid then 1 else 0) k → exec (.spget g rd ba sel) s = .next (past s k)) ∧
    exec (.spmov g bd ba) s = .next (past s (withB (here s) bd r)) ∧
    exec (.spmovClr g bd) s = .next (past s (withB (here s) bd ⟨0, false⟩)))

/-- The place that an access to span storage through `m` reaches (R337): the span check for 32 bytes, SPANSTORE in span and page,
device memory, 32-byte alignment. -/
def Sys2Proof.Claims.SpanPlace (s : State) (m : MemRef) (perm : Nat) (write : Bool) (addr : Nat) (x : Xlat) (s1 : State) : Prop :=
  let k := here s
  let r := k.getB m.sb
  spanCheck r m.sb.toNat (k.getX m.xi + m.off.signExtend 64).toInt 32 perm = .ok addr ∧ (perms r.bits).getLsbD 6 = true ∧ space r.bits = 0 ∧
  r.bits.extractLsb' 55 2 = 0 ∧ addr % 32 = 0 ∧ s.translate s.cur.bank.core k.part k.asid.toNat addr write = .ok x s1 ∧
  x.spanstore = true ∧ isDevMem x.pa = true

/-- SPST writes a span's bits and its tag, and SPLD reads them back: what is loaded is valid only where the granule's tag is set and the
span is of the stream's own partition; a write of the host clears the tags of the granules that it touches, and stands over every write that was performed before it (R331,
R337). -/
def Sys2Proof.Claims.SpanStorage : Prop :=
  (∀ (g : Guard) (n : BitVec 4) (m : MemRef) (s s1 : State) (addr : Nat) (x : Xlat), goes g s →
    (SpanPlace s m 1 false addr x s1 → s1.eccAt x.pa 32 = false →
      let s2 := s1.noteRead s.cur.bank x.pa 32
      let v := BitVec.ofNat 256 (natOfBytes (s1.readMem x.pa 32))
      exec (.spld g n m) s = .next (thenPast s s2 (withB (s2.bank s.cur.bank) n
        ⟨v, decide (x.pa / 32 ∈ s2.tags) && decide ((partOf v).toNat = (here s).part)⟩))) ∧
    (SpanPlace s m 2 true addr x s1 →
      let r := (here s).getB n
      let s2 := (s1.settle s.cur.bank x.pa 32).performWrite (some s.cur.bank.core) x.pa (bytesOf 32 r.bits.toNat) false
      ∃ tags : List Nat, exec (.spst g n m) s = .next (goesOn s { s2 with tags := tags }) ∧
        ∀ t : Nat, t ∈ tags ↔ (t ≠ x.pa / 32 ∧ t ∈ s2.tags) ∨ (t = x.pa / 32 ∧ r.valid = true))) ∧
  (∀ (s : State) (pa : Nat) (data : List Byte), memWf s.mem = true → data ≠ [] → pa + data.length ≤ Config.devMemEnd →
    (∀ q ∈ s.pend, q.home = true → q.meets pa data.length = false) →
    ∃ t, exec (.hostMemoryWrite pa data) s = .next t ∧ t.readMem pa data.length = data ∧
      (∀ a : Nat, a < pa ∨ pa + data.length ≤ a → readByte t.mem a = readByte s.mem a) ∧
      (∀ n : Nat, n ∈ t.tags ↔ n ∈ s.tags ∧ (32 * n + 32 ≤ pa ∨ pa + data.length ≤ 32 * n)) ∧ t.banks = s.banks)

/-- OVLD and OVLD.g (R344): the named overlay becomes the stream's code and its PC the target; OVLD answers the old overlay and the
next PC, and leaves every loop; OVLD.g acts on a G stream that stands at GIDLE, and waits for it otherwise. -/
def Sys2Proof.Claims.Overlays : Prop :=
  ∀ (g : Guard) (rd : Dst) (ra rb : Src) (s s1 : State) (t n : Word) (k1 k2 k3 : Bank) (o : OvlEntry) (ws : List Nat), goes g s →
    Operand (here s) ra t k1 → Operand k1 rb n k2 → t.toNat % 8 = 0 → n.toNat < 256 → s.fetchOverlay s.cur.bank o = .ok (ws, none, s1) →
    ((here s).ovls.find? (fun e => e.kind = .c && e.num = n.toNat) = some o →
      Result k2 rd (BitVec.ofNat 64 ((here s).c.ovl * 2 ^ 32) + (here s).c.pc + 8) k3 →
      let k := s1.bank s.cur.bank
      exec (.ovld g rd ra rb) s = .next (s1.setBank s.cur.bank { k with
        x := k3.x, q := k3.q, lc := k.lc.map (fun (l : LoopReg) => { l with active := false, order := 0 }),
        c := { k.c with pc := t, wait := none, ovl := o.num, code := ws } })) ∧
    (∀ w : Wait, (here s).ovls.find? (fun e => e.kind = .g && e.num = n.toNat) = some o → (here s).g.run ≠ .ended → (here s).g.wait = some w →
      (w.tag = .gidle → let k := s1.bank s.cur.bank
        exec (.ovldG g ra rb) s = .next (thenPast s s1 { k with
          q := k2.q, g := { k.g with pc := t, wait := none, ovl := o.num, code := ws } })) ∧
      (w.tag ≠ .gidle → exec (.ovldG g ra rb) s =
        .next (s.setBank s.cur.bank { here s with c := (here s).c.waiting s.dtc .ovldG 0 n.toNat [] }))) ∧
    ((∀ e ∈ (here s).ovls, ¬(e.kind = .c ∧ e.num = n.toNat)) → Room (here s) rd → Traps (.ovld g rd ra rb) s 0x0C n 1)

/-! ### Invalidations, windows, partitions and trust -/

/-- TLBINV of a page, an address space or a partition sends one invalidation to every target of the partition, after the stream's
own earlier writes are performed; TLBSYNC waits until all are acknowledged, and DIRTYSYNC is complete at once in an address space
that is not tracked (R361 to R364). -/
def Sys2Proof.Claims.TlbInstructions : Prop :=
  (∀ (g : Guard) (ra : Src) (asid : BitVec 12) (s : State) (p : Part) (v : Word) (k1 : Bank), goes g s → (∀ a ∈ (here s).amons, a.path ≠ 0) →
    let b := s.cur.bank
    let s1 := s.performOwn b
    let sent := fun (t : State) (a va : Option Nat) =>
      { t with invals := t.invals ++ (invTargets p.record).map (fun x => ⟨x, b, p.record.partid, a, va, false⟩) }
    (s1.bank b).held = [] → s1.part (s1.bank b).part = some p →
    (Operand (s1.bank b) ra v k1 → (∀ q peek, ra = .queue q peek → (here s).getQ q ≠ []) →
      exec (.tlbinvPage g ra asid) s = .next (goesOn s (if v.toNat < 2 ^ 55
        then sent (s1.setBank b k1) (some asid.toNat) (some v.toNat) else s1.setBank b k1))) ∧
    exec (.tlbinvAsid g asid) s = .next (goesOn s (sent s1 (some asid.toNat) none)) ∧
    exec (.tlbinvPart g) s = .next (goesOn s (sent s1 none none))) ∧
  (∀ (g : Guard) (asid : BitVec 12) (s : State), goes g s →
    ((∀ v ∈ s.invals, v.bank = s.cur.bank → v.dirtyOnly = true) → exec (.tlbsync g) s = .next (past s (here s))) ∧
    ((∃ v ∈ s.invals, v.bank = s.cur.bank ∧ v.dirtyOnly = false) → exec (.tlbsync g) s =
      .next (s.setBank s.cur.bank { here s with c := (here s).c.waiting s.dtc .tlb 0 0 [] })) ∧
    (∀ p : Part, (here s).c.wait = none → s.part (here s).part = some p →
      (trackOf s p.record asid.toNat = none → exec (.dirtysync g asid) s = .next (past s (here s))) ∧
      (∀ m, trackOf s p.record asid.toNat = some m → ∃ t, exec (.dirtysync g asid) s = .next t ∧
        t.invals = s.invals ++ (invTargets p.record).map (fun x => ⟨x, s.cur.bank, p.record.partid, some asid.toNat, none, true⟩) ∧
        ∃ w, (t.bank s.cur.bank).c.wait = some w ∧ w.tag = .tlb)) ∧
    (∀ (o d since : Nat) (x : Word), (here s).c.wait = some ⟨.tlb, o, d, [x], since⟩ → (∀ v ∈ s.invals, v.bank = s.cur.bank → v.dirtyOnly = false) →
      exec (.dirtysync g asid) s = .next (goesOn s (s.dropL1 s.cur.bank.core .dv))))

/-- TLB_ACKNOWLEDGE (R361, R363): the target's entries that the invalidations name are gone, and every access of the cores it serves
is over, where no bank of the partition has an access under way; entries that no invalidation names stay. PAGE_WALK fills a
TLB or, where it fails, logs an uncorrectable page table (R373); it changes nothing that a program sees (R352). -/
def Sys2Proof.Claims.TlbAcknowledge : Prop :=
  (∀ (s : State) (x : TlbHolder), (∀ b : BankId, (s.bank b).outLoads = [] ∧ (s.bank b).amons = []) → s.pend = [] →
    ∃ t, exec (.tlbAcknowledge x) s = .next t ∧ (∀ v : Inval, v ∈ t.invals ↔ v ∈ s.invals ∧ v.target ≠ x) ∧
      ((∀ v ∈ s.invals, v.target = x → v.dirtyOnly = false) →
        ∀ e : TlbEntry, e ∈ t.tlb ↔ e ∈ s.tlb ∧ ∀ v ∈ s.invals, v.target = x → v.hits e = false) ∧
      t.mem = s.mem ∧ t.banks = s.banks) ∧
  (∀ (s : State) (core part asid va : Nat) (write : Bool), va < 2 ^ 55 →
    ∃ t, exec (.pageWalk core part asid va write) s = .next t ∧ t.banks = s.banks ∧ t.jobs = s.jobs ∧ t.pend = s.pend ∧
      (∀ (x : Xlat) (s1 : State), s.walk (holdersOf core) part asid va write = .ok x s1 → t = s1) ∧
      (∀ (f : XFault) (s1 : State), s.walk (holdersOf core) part asid va write = .fault f s1 → t = s1.logWalk part asid va f))

/-- Accesses that arrive from other devices (R195, R225, R243, R356, R367): nothing is reached while the window is down; else a write
of one word inside it is performed at its home slice where the exported address space puts it, a read answers what stands there, and an atomic
answers the old value and stores the new one in one step; an address outside device memory or in span storage is not touched, and a fault of the exported address space goes back to
the requester, an uncorrectable page table being logged as well (R373). -/
def Sys2Proof.Claims.WindowAccesses : Prop :=
  ∀ (s : State) (off len : Nat) (data : List Byte) (a : RemoteAtomic) (x : Xlat) (f : XFault) (s1 : State),
    let answer := fun (t : State) (n : Nat) (bytes : Option (List Byte)) (flt : Option (Nat × Nat)) =>
      { t with outbox := t.outbox ++ [⟨requester, off, bytes, n, none, flt⟩] }
    ((windowDown s).isSome = true → (∀ r : WindowReq, exec (.domainWindowAccess off r len) s = .next s) ∧
      exec (.ueRmaRequest (.write off data)) s = .next s) ∧
    (windowDown s = none → off < 2 ^ 45 → off % 8 = 0 → data.length = 8 → x.spanstore = false → isDevMem x.pa = true →
      (s.exportXlat off true = .ok x s1 →
        exec (.domainWindowAccess off (.write data) len) s = .next ((s1.landHome x.pa 8).performWrite none x.pa data false) ∧
        exec (.ueRmaRequest (.write off data)) s = .next ((s1.landHome x.pa 8).performWrite none x.pa data false)) ∧
      (s.exportXlat off false = .ok x s1 → s1.eccAt x.pa 8 = false →
        exec (.domainWindowAccess off .read 8) s = .next (answer s1 8 (some (s1.readMem x.pa 8)) none) ∧
        exec (.ueRmaRequest (.read off 8)) s = .next (answer s1 8 (some (s1.readMem x.pa 8)) none)) ∧
      (s.exportXlat off true = .ok x s1 → s1.eccAt x.pa (amoBytes a.ty) = false → a.returns = true → (∀ p ∈ s1.pend, p.visible = false) →
        let n := amoBytes a.ty
        let old := natOfBytes (s1.readMem x.pa n)
        exec (.domainWindowAccess off (.atomic a) len) s = .next (answer
          (s1.performWrite none x.pa (bytesOf n (rmwNew a.op a.ty (a.vals.map (·.toNat)) old)) true) n (some (bytesOf n old)) none))) ∧
    (windowDown s = none → off < 2 ^ 45 → off % 8 = 0 → data.length = 8 →
      (s.exportXlat off true = .ok x s1 → (x.spanstore = true ∨ isDevMem x.pa = false) →
        exec (.domainWindowAccess off (.write data) len) s = .next s1 ∧ exec (.domainWindowAccess off (.atomic a) len) s = .next s1) ∧
      (s.exportXlat off true = .fault f s1 →
        exec (.domainWindowAccess off (.write data) len) s = .next (answer (s1.logExport off f) 8 none (some (f.reason, f.level))) ∧
        exec (.domainWindowAccess off (.atomic a) len) s = .next (answer (s1.logExport off f) (amoBytes a.ty) none (some (f.reason, f.level)))) ∧
      (s.exportXlat off false = .fault f s1 →
        exec (.domainWindowAccess off .read 8) s = .next (answer (s1.logExport off f) 8 none (some (f.reason, f.level)))))

/-- Partitions, the device id, measurements and quotes (R365, R367, R370, R371): a record without fault makes its partition and extends
MEAS3; a faulty one is logged with its lowest byte at fault and changes nothing else; the id is assigned once; MEAS5 to MEAS7 take an
extension as SHAKE256 of the old value and the digest; once the identity counter is at its end every quote fails (R368; the reason's
number is log entry 71); before that a quote takes the next leaf of the attestation key and its body states
nonce, boot count, device and measurements. -/
def Sys2Proof.Claims.PartitionsAndTrust : Prop :=
  (∀ (r : PartRec) (s : State), s.trust.waitingImage = false → r.raw.length = 256 →
    let q := parsePart r.raw
    (s.partFaults q = [] → ∃ t, exec (.partitionCreate r) s = .next t ∧ t.part q.partid = some (Part.created q) ∧
      (∀ n, n ≠ q.partid → t.part n = s.part n) ∧ t.trust.meas = s.trust.meas.set 3 (shake256 (s.trust.meas.getD 3 [] ++ shake256 r.raw 32) 32) ∧
      t.mem = s.mem ∧ t.banks = s.banks) ∧
    (∀ n : Nat, n ∈ s.partFaults q → (∀ m ∈ s.partFaults q, n ≤ m) →
      exec (.partitionCreate r) s = .next { s with deviceLog := s.deviceLog ++ [⟨.partitionRefused, [q.partid, n]⟩] })) ∧
  (∀ (id : Nat) (s : State), s.trust.waitingImage = false → id < 2 ^ 22 →
    (s.trust.deviceId = none → exec (.deviceIdAssign id) s = .next { s with trust := { s.trust with deviceId := some id } }) ∧
    (s.trust.deviceId ≠ none → exec (.deviceIdAssign id) s = .next s)) ∧
  (∀ (part idx : Nat) (d : List Byte) (s : State) (p : Part), s.part part = some p → 5 ≤ idx → idx ≤ 7 → d.length = 32 → p.meas.length = 4 →
    ∃ t p', exec (.measExtend part idx d) s = .next t ∧ t.part part = some p' ∧
      p'.meas = p.meas.set (idx - 4) (shake256 (p.meas.getD (idx - 4) [] ++ d) 32) ∧ t.trust = s.trust ∧ t.banks = s.banks) ∧
  (∀ (part leaf : Nat) (nonce : List Byte) (s : State) (p : Part), s.part part = some p → nonce.length = 32 → s.trust.certLeaf = some leaf →
    (2 ^ 20 ≤ s.trust.identityLeaf → exec (.quoteRequest part nonce) s = .next (s.modPart part (fun q => { q with
      log := q.log ++ [⟨.quoteFailed, [2]⟩] }))) ∧
    (s.trust.identityLeaf < 2 ^ 20 → s.trust.attLeaf < 1024 → ∃ t q, exec (.quoteRequest part nonce) s = .next t ∧ t.trust.attLeaf = s.trust.attLeaf + 1 ∧
      t.trust.quotes = s.trust.quotes ++ [(part, q)] ∧ t.parts = s.parts ∧
      (q.drop 16).take 32 = nonce ∧ natOfBytes ((q.drop 4).take 4) = s.trust.attLeaf ∧
      natOfBytes ((q.drop 80).take 8) = s.trust.bootcount % 2 ^ 64 ∧
      natOfBytes ((q.drop 92).take 4) = s.trust.deviceId.getD 0 % 2 ^ 32 ∧
      (s.trust.meas.length = 4 → (∀ m ∈ s.trust.meas ++ p.meas, m.length = 32) → ∀ i : Nat, i < 4 →
        (q.drop (96 + 32 * i)).take 32 = s.trust.meas.getD i [])) ∧
    (1024 ≤ s.trust.attLeaf → ∃ t, exec (.quoteRequest part nonce) s = .next t ∧ t.trust = s.trust ∧ t.banks = s.banks ∧ t.mem = s.mem))

/-- BOOT and FIRMWARE_RECOVERY_IMAGE (R369, R370, R403): a boot resets the device; with a good image in the slot MEAS0 to MEAS2 are extended
from 0, a raising image lifts the floor, and a new attestation key is certified with the next identity leaf; with none or a bad
one the recovery mailbox opens, which takes a good image and refuses a bad one. -/
def Sys2Proof.Claims.BootAndRecovery : Prop :=
  ∀ (s : State) (mgmt sched : List Byte) (i : FwImage),
    (s.trust.slot = some i → ∃ t, exec (.boot mgmt sched) s = .next t ∧ t.mem = [] ∧ t.jobs = [] ∧ t.parts = [] ∧
      t.trust.deviceId = none ∧ (t.trust.waitingImage = false ↔ s.imageReason i = none) ∧
      (s.imageReason i = none →
        (let z := List.replicate 32 (0 : Byte)
         t.trust.meas = [shake256 (z ++ shake256 (imageBytes i) 32) 32, shake256 (z ++ shake256 mgmt 32) 32, shake256 (z ++ shake256 sched 32) 32, z]) ∧
        t.trust.floor = (if i.raise then i.svn else s.trust.floor) ∧
        (s.trust.identityLeaf < 2 ^ 20 → t.trust.identityLeaf = s.trust.identityLeaf + 1 ∧ t.trust.certLeaf = some s.trust.identityLeaf ∧
          t.trust.bootcount = s.trust.identityLeaf ∧ t.trust.attLeaf = 0)) ∧
      (s.imageReason i ≠ none → t.trust.floor = s.trust.floor ∧ t.trust.identityLeaf = s.trust.identityLeaf)) ∧
    (s.trust.slot = none → ∃ t, exec (.boot mgmt sched) s = .next t ∧
      t.trust.waitingImage = true ∧ t.mem = [] ∧ t.trust.floor = s.trust.floor ∧ t.trust.identityLeaf = s.trust.identityLeaf) ∧
    (s.trust.waitingImage = true → ∃ t, exec (.firmwareRecoveryImage i) s = .next t ∧
      (s.imageReason i = none → t.trust.slot = some i ∧ t.trust.floor = s.trust.floor ∧ t.trust.waitingImage = false) ∧
      (∀ r : Nat, s.imageReason i = some r → t = { s with deviceLog := s.deviceLog ++ [⟨.recoveryRejected, [r]⟩] })) ∧
    (s.trust.waitingImage = false → exec (.firmwareRecoveryImage i) s = .next s) ∧
    (∃ t, exec .powerLoss s = .next t ∧ t.mem = [] ∧ t.jobs = [] ∧ t.trust.slot = s.trust.slot ∧ t.trust.floor = s.trust.floor ∧
      t.trust.identityLeaf = s.trust.identityLeaf)

/-! ### System registers, privilege, traps -/

/-- Instructions that need a privileged stream (R51, R79). -/
def Sys2Proof.Claims.needsPrivilege : Instr → Bool
  | .spmint .. | .tlbinvPage .. | .tlbinvAsid .. | .tlbinvPart .. | .tlbsync .. | .dirtysync .. | .eret .. | .srx .. | .halt .. => true
  | .srd _ _ r => match r with
    | .status | .trapcause | .trappc | .trapval | .trapvec | .trapaux | .asid | .dirtyctl => true
    | _ => false
  | .swr _ r _ => match r with
    | .spwin | .roundseed | .fpflags | .plyDense => false
    | _ => true
  | _ => false

/-- R51: an instruction that is marked privileged traps PRIVILEGED in a stream that does not run privileged, with word 0 as TRAPVAL;
every other instruction of the C stream decodes the same without privilege. -/
def Obligations.PrivilegedInstructions : Prop :=
  ∀ (i : Instr) (w : Nat) (ws rest : List Nat) (pc : Nat), wellFormed i = true → runsIn .c i = true → encode i = some (w :: ws) →
    decode .c false pc ((w :: ws) ++ rest) = if needsPrivilege i then .trap 0x05 w 0 else .ok i (1 + ws.length)

/-- What a register of R79 that stands in the bank reads (R384). -/
def Sys2Proof.Claims.bankReg (k : Bank) (r : SysReg) : Option Word :=
  match r with
  | .status => some k.status
  | .trapcause => some k.trapcause
  | .trappc => some k.trappc
  | .trapval => some k.trapval
  | .trapvec => some k.trapvec
  | .trapaux => some k.trapaux
  | .asid => some (k.asid.setWidth 64)
  | .bfmt n => some (k.bfmt[n.toNat]'(n.isLt))
  | .spwin => some k.spwin
  | .roundseed => some k.roundseed
  | .fpflags => some k.fpflags
  | .lwait => some k.lwait
  | .stall => some k.stall
  | .quantum => some k.quantum
  | .plyDense => some k.plyDense
  | .conflicts e => some (k.conflicts[e.toNat]'(e.isLt))
  | .ctxbank | .partid | .dtc | .corecoord | .cpdone _ | .dirtyctl => none

/-- The check of R385 on a value for such a register. -/
def Sys2Proof.Claims.writable (r : SysReg) (v : Word) : Prop :=
  match r with
  | .status => v.extractLsb' 16 48 = 0 ∧ v.extractLsb' 3 5 = 0
  | .trapcause => v.extractLsb' 8 56 = 0
  | .trapvec => v.extractLsb' 56 6 = 0 ∧ v.extractLsb' 16 32 = 0 ∧ v.extractLsb' 0 3 = 0
  | .asid => v.extractLsb' 12 52 = 0
  | .bfmt _ => lowestOf (bfmtOffences v) = none
  | .spwin => lowestOf (spwinOffences v) = none
  | .fpflags => v.extractLsb' 7 57 = 0
  | .plyDense => v.toNat ≤ 0x10000
  | .quantum => 10000 ≤ v.toNat
  | _ => True

/-- SRD, SWR and SRX (R79, R384, R385): what SRD reads of every register; SWR writes a checked value into its register and changes no
other, SRX answers the old value as well; a value that fails its check traps ILLEGAL_FIELD with its lowest offending bit. -/
def Sys2Proof.Claims.SystemRegisters : Prop :=
  (∀ (g : Guard) (rd : Dst) (r : SysReg) (s : State) (v : Word) (k : Bank), goes g s →
    (bankReg (here s) r = some v ∨ (r = .ctxbank ∧ v = BitVec.ofNat 64 s.cur.bank.bank) ∨ (r = .partid ∧ v = BitVec.ofNat 64 (here s).part) ∨
      (r = .dtc ∧ v = BitVec.ofNat 64 s.dtc) ∨
      (r = .corecoord ∧ v = BitVec.ofNat 64 (s.cur.bank.core % 2 ^ 11 + 2 ^ 32 * s.trust.deviceId.getD 0)) ∨
      (∃ c, r = .cpdone c ∧ v = BitVec.ofNat 64 ((here s).getChan c).cpdone) ∨
      (r = .dirtyctl ∧ v = s.dirtyWord s.cur.bank)) →
    Result (here s) rd v k → exec (.srd g rd r) s = .next (past s k)) ∧
  (∀ (g : Guard) (rd : Dst) (r : SysReg) (ra : Src) (s : State) (v old : Word) (k1 : Bank), goes g s → (here s).c.wait = none →
    Operand (here s) ra v k1 → bankReg (here s) r = some old → writable r v →
    ∃ k2 : Bank, (∀ r', bankReg k2 r' = if r' = r then some v else bankReg k1 r') ∧ k2.x = k1.x ∧ k2.y = k1.y ∧ k2.q = k1.q ∧ k2.c = k1.c ∧
      k2.g = k1.g ∧ k2.t = k1.t ∧ k2.b = k1.b ∧ k2.cC = k1.cC ∧ k2.lc = k1.lc ∧ k2.binding = k1.binding ∧
      exec (.swr g r ra) s = .next (past s k2) ∧
      (∀ k3, Room k1 rd → Result k2 rd old k3 → exec (.srx g rd r ra) s = .next (past s k3))) ∧
  (∀ (g : Guard) (rd : Dst) (r : SysReg) (ra : Src) (s : State) (v : Word) (k1 : Bank) (bit : Nat), goes g s → (here s).c.wait = none →
    Operand (here s) ra v k1 → Room (here s) rd → lowestOf (s.sysOffences s.cur.bank r v) = some bit →
    Traps (.swr g r ra) s 0x03 v (BitVec.ofNat 64 (256 + bit)) ∧ Traps (.srx g rd r ra) s 0x03 v (BitVec.ofNat 64 (256 + bit)))

/-- SWR of CTXBANK and of DIRTYCTL (R357, R386): the other bank's number makes the bank drain where a team is bound there, and does nothing
otherwise; the drained core runs that bank; a write of DIRTYCTL that keeps EN takes effect at once, one that changes it waits for DIRTYCTL_WRITE, which drops the
address space from every TLB and writes the word. -/
def Sys2Proof.Claims.SwitchingRegisters : Prop :=
  (∀ (g : Guard) (n : BitVec 6) (s : State), goes g s →
    let v := (here s).getX n
    let o : BankId := ⟨s.cur.bank.core, 1 - s.cur.bank.bank⟩
    v.toNat < 2 → exec (.swr g .ctxbank (.reg n)) s =
      .next (past s (if v.toNat ≠ s.cur.bank.bank ∧ (s.bank o).binding.isSome = true then
        { here s with drain := .ctxbank, idleSince := if (here s).drain = .none then s.dtc else (here s).idleSince } else here s))) ∧
  (∀ (g : Guard) (n : BitVec 6) (s : State) (p : Nat), goes g s → (here s).c.wait = none → s.dirtyPlace s.cur.bank = some p →
    let v := (here s).getX n
    let old := s.dirtyWord s.cur.bank
    lowestOf (s.dirtyOffences s.cur.bank v) = none →
    (v.getLsbD 0 = old.getLsbD 0 → exec (.swr g .dirtyctl (.reg n)) s =
      .next (goesOn s { (s.setBank s.cur.bank (here s)).performWrite none p (bytesOf 8 v.toNat) true with
        tlb := s.tlb.filter (fun e => !(e.part = (here s).part && e.asid = (here s).asid.toNat)) })) ∧
    (v.getLsbD 0 ≠ old.getLsbD 0 → exec (.swr g .dirtyctl (.reg n)) s =
      .next (s.setBank s.cur.bank { here s with c := (here s).c.waiting s.dtc .dirtyctl 0 0 [v, old] }))) ∧
  (∀ (s : State) (b : BankId) (o d since : Nat) (v old : Word), memWf s.mem = true → (s.bank b).c.wait = some ⟨.dirtyctl, o, d, [v, old], since⟩ →
    (∀ q : BankId, (s.bank q).outLoads = [] ∧ (s.bank q).amons = []) → s.pend = [] → s.dirtyPlace b ≠ none →
    ∃ t, exec (.dirtyctlWrite b) s = .next t ∧
      (∀ e ∈ t.tlb, ¬(e.part = (s.bank b).part ∧ e.asid = (s.bank b).asid.toNat)) ∧
      (∀ p, t.dirtyPlace b = some p → t.readNum p 8 = v.toNat) ∧ t.turns.head? = some (.issue ⟨b, .c⟩) ∧
      ∃ w, (t.bank b).c.wait = some w ∧ w.tag = .dirtyctl ∧ w.vals.head? = some v ∧ w.vals.length = 3) ∧
  (∀ (s : State) (b : BankId), (s.core b.core).running = b.bank → (s.bank b).drain = .ctxbank → (s.bank b).outLoads = [] →
    (∀ o ∈ (s.bank b).grid, o.todo = []) →
    let o : BankId := ⟨b.core, 1 - b.bank⟩
    let t := s.setBank b { s.bank b with drain := .none }
    let u := t.modCore b.core (fun c => { c with running := 1 - b.bank })
    (s.live o = true → exec (.ctxbankWrite b) s = .next u ∧ exec (.bankSwitch b.core) s = .next u) ∧
    ((s.bank o).binding = none → exec (.ctxbankWrite b) s = .next t ∧ exec (.bankSwitch b.core) s = .next t))

/-- Taking a trap (R376, R377): the trap registers are written; with no handler, or inside one, the job is aborted; else STATUS takes POVL and
PPRIV, a privileged handler sets PRIV and INTRAP, an unprivileged one finds the trap in x60 to x63, its overlay is loaded
where it is not current, and the PC goes to the vector. Queues, loops and every other register stay. -/
def Sys2Proof.Claims.TrapDelivery : Prop :=
  ∀ (s : State) (b : BankId) (t : TrapInfo) (pc : Word),
    let k := s.bank b
    let kt : Bank := { k with trapcause := BitVec.ofNat 64 t.cause, trappc := pc, trapval := t.val, trapaux := t.aux, c := { k.c with wait := none } }
    let en := k.trapvec.getLsbD 63
    let ph := k.trapvec.getLsbD 62
    let priv := k.status.getLsbD 0
    let ovl := (k.trapvec.extractLsb' 48 8).toNat
    let status := BitVec.ofNat 64 ((if ph || priv then 1 else 0) + (if priv then 2 else 0) + (if ph then 4 else 0) + 256 * k.c.ovl)
    let x := if ph || priv then k.x else
      (((k.x.set 60 (BitVec.ofNat 64 (t.cause + 256 * k.c.ovl))).set 61 pc).set 62 t.val).set 63 t.aux
    let target := (k.trapvec.extractLsb' 0 16).setWidth 64
    ((en = false ∨ k.status.getLsbD 2 = true) → s.deliver b t pc = (s.setBank b kt).abortJob b t.cause) ∧
    (en = true → k.status.getLsbD 2 = false → ovl = k.c.ovl →
      s.deliver b t pc = s.setBank b { kt with status := status, x := x, c := { kt.c with pc := target } }) ∧
    (∀ (o : OvlEntry) (ws : List Nat) (s1 : State), en = true → k.status.getLsbD 2 = false → ovl ≠ k.c.ovl →
      k.ovls.find? (fun e => e.kind = .c && e.num = ovl) = some o →
      (s.setBank b { kt with status := status, x := x }).fetchOverlay b o = .ok (ws, none, s1) →
      let k1 := s1.bank b
      s.deliver b t pc = s1.setBank b { k1 with c := { k1.c with pc := target, ovl := o.num, code := ws } })

/-- TRAP, BREAK, HALT and ERET (R384, R386): TRAP and an undebugged BREAK are delivered with the next PC and their number; HALT, and BREAK on an
attached core, halt the bank, which then drains; ERET restores the PC, PRIV and INTRAP. -/
def Sys2Proof.Claims.TrapInstructions : Prop :=
  ∀ (g : Guard) (imm : BitVec 15) (s : State), goes g s →
    let b := s.cur.bank
    let k := here s
    let halts := fun (cause : Nat) => past s { k with halted := some ⟨cause, imm.toNat⟩, drain := if k.drain = .none then .halt else k.drain }
    exec (.trap g imm) s = .next (s.deliver b ⟨0x3F, imm.setWidth 64, 0⟩ (k.c.pc + 8)) ∧
    ((s.core b.core).attached = false → exec (.brk g imm) s = .next (s.deliver b ⟨0x3E, imm.setWidth 64, 0⟩ (k.c.pc + 8))) ∧
    ((s.core b.core).attached = true → exec (.brk g imm) s = .next (halts 0x3E)) ∧
    exec (.halt g imm) s = .next (halts 1) ∧
    ((k.status.extractLsb' 8 8).toNat = k.c.ovl → k.trappc.extractLsb' 0 3 = 0 →
      ∃ status : Word, exec (.eret g) s = .next (s.setBank b { k with status := status, c := { k.c with pc := k.trappc, wait := none } }) ∧
        status.getLsbD 0 = k.status.getLsbD 1 ∧ status.getLsbD 1 = k.status.getLsbD 1 ∧ status.getLsbD 2 = false ∧
        status.extractLsb' 8 8 = k.status.extractLsb' 8 8) ∧
    (k.trappc.extractLsb' 0 3 ≠ 0 → Traps (.eret g) s 0x0D k.trappc 0)

/-! ### Fault records, debugging, the register window -/

/-- The fault ring and its answers (R379 to R382): RING_TRAP writes the record of a waiting trap at FRTAIL and moves FRTAIL; RETRY lets the bank
go on at the faulting instruction, DELIVER takes the trap, ABORT aborts the job; an answer that no bank waits for is logged in its
partition with its number, and nothing else happens.
What a ring trap does while the ring is off or full is the model's reading (log entry 19). -/
def Obligations.FaultRing : Prop :=
  (∀ (s : State) (b : BankId) (x : PendTrap) (p : Part), memWf s.mem = true → (s.bank b).pendTrap = some x → x.seq = none →
    s.part (s.bank b).part = some p → p.frctl.getLsbD 63 = true → p.frtail < p.frhead + 2 ^ (p.frctl.toNat % 16) →
    let slot := p.frbase.toNat + 64 * (p.frtail % 2 ^ (p.frctl.toNat % 16))
    ∃ t p', exec (.ringTrap b) s = .next t ∧ t.part (s.bank b).part = some p' ∧ p'.frtail = p.frtail + 1 ∧
      (t.bank b).pendTrap = some { x with seq := some p.frtail } ∧ (t.bank b).c = (s.bank b).c ∧
      t.readNum slot 6 = p.frtail % 2 ^ 48 ∧ t.readNum (slot + 8) 2 = b.core % 2 ^ 16 ∧ t.readNum (slot + 10) 1 = b.bank % 256 ∧
      t.readNum (slot + 11) 1 = x.cause % 256 ∧ t.readNum (slot + 24) 8 = x.pc.toNat ∧ t.readNum (slot + 32) 8 = x.val.toNat ∧
      t.readNum (slot + 40) 8 = x.aux.toNat ∧ (∀ a : Nat, a < slot ∨ slot + 64 ≤ a → readByte t.mem a = readByte s.mem a)) ∧
  (∀ (s : State) (part seq : Nat) (b : BankId) (k : Bank) (x : PendTrap), s.banks.find? (fun q => (q.2.waitsFor part seq).isSome) = some (b, k) →
    k.waitsFor part seq = some x → k.preemptAt = none →
    let s1 := (s.modBank b (fun k => { k with pendTrap := none, drain := .none, idleSince := s.dtc })).comeBack b
    exec (.fanswerRetry part seq) s = .next s1 ∧
    (x.grid = none → exec (.fanswerDeliver part seq) s = .next (s1.deliver b ⟨x.cause, x.val, x.aux⟩ x.pc)) ∧
    exec (.fanswerAbort part seq) s =
      .next ((s1.modBank b (fun k => k.setTrapRegs ⟨x.cause, x.val, x.aux⟩ x.pc)).abortJob b x.cause)) ∧
  (∀ (s : State) (part seq : Nat), (∀ q ∈ s.banks, q.2.waitsFor part seq = none) → (∀ v ∈ s.saves, ∀ c ∈ v.cores, c.2.2.waitsFor part seq = none) →
    let noted := fun (act : Nat) => s.modPart part (fun q => { q with log := q.log ++ [⟨.answerIgnored, [seq, act]⟩] })
    exec (.fanswerRetry part seq) s = .next (noted 0) ∧ exec (.fanswerDeliver part seq) s = .next (noted 1) ∧
    exec (.fanswerAbort part seq) s = .next (noted 2))

/-- DBGCMD and writes of the register window (R379, R386): halt and resume of one's own banks, attach and detach of one's own cores, each
register that takes a valid write of 8 bytes; a write of another size, of a register that takes none, or of a value whose fields break
the register's limits (a ring outside the partition's memory or of fewer than 16 or more than 4,096 slots, a reserved bit, an unknown
operation) changes no register and no bank and is logged.
The halt cause of a debug command is the model's choice (log entries 56 and 64). -/
def Obligations.DebugAndWindow : Prop :=
  (∀ (s : State) (part : Nat) (b : BankId) (p : Part), s.part part = some p →
    (p.record.owns b.core = true →
      ((s.bank b).halted = none → ∃ t, exec (.dbgcmdHalt part b) s = .next t ∧ (t.bank b).halted = some ⟨0, 0⟩ ∧ (t.bank b).drain ≠ .none ∧
        (t.bank b).c = (s.bank b).c ∧ ∀ b', b' ≠ b → t.bank b' = s.bank b') ∧
      ((s.bank b).drain = .halt → ∃ t, exec (.dbgcmdResume part b) s = .next t ∧ (t.bank b).halted = none ∧ (t.bank b).drain = .none ∧
        (t.bank b).c = (s.bank b).c ∧ ∀ b', b' ≠ b → t.bank b' = s.bank b') ∧
      (∃ t, exec (.dbgcmdAttach part b) s = .next t ∧ (t.core b.core).attached = true ∧ t.banks = s.banks) ∧
      (∃ t, exec (.dbgcmdDetach part b) s = .next t ∧ (t.core b.core).attached = false ∧ t.banks = s.banks)) ∧
    (p.record.owns b.core = false → exec (.dbgcmdHalt part b) s = .next s ∧ exec (.dbgcmdResume part b) s = .next s ∧
      exec (.dbgcmdAttach part b) s = .next s ∧ exec (.dbgcmdDetach part b) s = .next s)) ∧
  (∀ (s : State) (part : Nat) (v : Word) (p : Part), s.part part = some p →
    let put := fun (f : Part → Part) => Host.Outcome.next (φ := Fault) (ρ := Refusal) (s.modPart part f)
    (v.extractLsb' 0 12 = 0 → v.extractLsb' 48 16 = 0 → inRanges p.record v.toNat 1 = true →
      exec (.registerWindowWrite part 0x08 8 v) s = put (fun q => { q with frbase := v })) ∧
    (v.extractLsb' 4 59 = 0 → 4 ≤ (v.extractLsb' 0 4).toNat → (v.extractLsb' 0 4).toNat ≤ 12 → p.lost = [] →
      exec (.registerWindowWrite part 0x10 8 v) s = put (fun q => { q with frctl := v })) ∧
    (p.lost = [] → exec (.registerWindowWrite part 0x20 8 v) s = put (fun q => { q with frhead := v.toNat })) ∧
    (∀ off : Nat, (off = 0x08 ∧ (v.extractLsb' 0 12 ≠ 0 ∨ v.extractLsb' 48 16 ≠ 0 ∨ inRanges p.record v.toNat 1 = false)) ∨
        (off = 0x10 ∧ (v.extractLsb' 4 59 ≠ 0 ∨ (v.extractLsb' 0 4).toNat < 4 ∨ 12 < (v.extractLsb' 0 4).toNat)) ∨
        (off = 0x28 ∧ (v.extractLsb' 50 14 ≠ 0 ∨ v.extractLsb' 48 2 = 3)) ∨ (off = 0x38 ∧ v.extractLsb' 14 50 ≠ 0) ∨
        (off = 0x58 ∧ (v.extractLsb' 4 4 ≠ 0 ∨ v.extractLsb' 0 4 = 0 ∨ 4 < (v.extractLsb' 0 4).toNat)) →
      exec (.registerWindowWrite part off 8 v) s = put (fun q => { q with log := q.log ++ [⟨.windowWrite, [off, 8, v.toNat]⟩] })) ∧
    exec (.registerWindowWrite part 0x30 8 v) s = put (fun q => { q with drainNs := v }) ∧
    (∀ off size : Nat, size ≠ 8 ∨ off ∈ [0x00, 0x18, 0x40, 0x48, 0x50, 0x60] →
      ∃ t p', exec (.registerWindowWrite part off size v) s = .next t ∧ t.banks = s.banks ∧ t.cores = s.cores ∧ t.mem = s.mem ∧
        t.part part = some p' ∧ p'.frbase = p.frbase ∧ p'.frctl = p.frctl ∧ p'.frhead = p.frhead ∧ p'.frtail = p.frtail ∧
        p'.drainNs = p.drainNs ∧ p'.mig = p.mig ∧ p'.log.length = p.log.length + 1))

/-! ### Live migration -/

/-- Live migration (R400 to R402): START numbers a new session and names the job; ROUND and STOP count a round, STOP pre-empts every team
and sends at once where every team is saved; CANCEL goes back to idle; every packet of round 0 leaves as an RMA write; a packet whose tag
fails is dropped, one that opens is applied and acknowledged, but not where its address cannot be written, and an older round's is
acknowledged and not applied; the key is taken from the host; the metadata say the same on the target; once they and the saves are
here the target has the job, its teams saved and runnable, its records queued and its event bits set, on dies with room for it (R318);
once STOP is sent and everything is acknowledged the job leaves the source.
That MIGCMD's argument names the job, the numbers of the states, and the form of what is sent are the model's choice (log entries 14,
31, 56 and 70). -/
def Obligations.LiveMigration : Prop :=
  (∀ (s : State) (part arg : Nat) (p : Part) (j : Job), s.part part = some p → s.job arg = some j → j.part = part → p.mig.key ≠ none →
    (p.mig.state = migIdle ∨ p.mig.state = migDone) →
    ∃ t p', exec (.migcmdStart part arg) s = .next t ∧ t.part part = some p' ∧ p'.mig.state = migCopy ∧ p'.mig.round = 0 ∧
      p'.mig.session = p.mig.session + 1 ∧ p'.mig.job = arg ∧ p'.mig.counter = p'.mig.pending.length ∧
      (∀ q ∈ p'.mig.pending, OutMsg.plain migPeer q.addr (some (q.header ++ q.sealed)) (32 + q.sealed.length) ∈ t.outbox) ∧
      ((∀ b, (s.bank b).amons = []) → t.jobs = s.jobs)) ∧
  (∀ (s : State) (part arg : Nat) (p : Part) (j : Job), s.part part = some p → s.job p.mig.job = some j → p.mig.state = migCopy →
    (∃ t, exec (.migcmdRound part arg) s = .next t ∧ ((∀ b, (s.bank b).amons = []) → t.jobs = s.jobs) ∧
      ∃ p', t.part part = some p' ∧ p'.mig.round = p.mig.round + 1 ∧ p'.mig.state = migCopy ∧ p.mig.counter ≤ p'.mig.counter) ∧
    (∃ t p', exec (.migcmdStop part arg) s = .next t ∧ t.part part = some p' ∧ p'.mig.round = p.mig.round + 1 ∧
      (j.banks ≠ [] → p'.mig.state = migStopping ∧ ∀ q ∈ j.banks, (t.bank q.1).preemptAt ≠ none) ∧
      (j.banks = [] → j.part = part → p'.mig.state = migSent)) ∧
    (∃ t p', exec (.migcmdCancel part arg) s = .next t ∧ t.part part = some p' ∧ p'.mig.state = migIdle ∧ p'.mig.pending = [] ∧ t.banks = s.banks)) ∧
  (∀ (s : State) (part : Nat) (x : MigPacket) (p : Part), s.part part = some p →
    let opened := p.mig.key.bind (fun k => Config.gcmOpen k x.iv x.header x.sealed)
    ∃ t, exec (.migrationPacket part x) s = .next t ∧ (opened = none → t = s) ∧
    (∀ bs : List Byte, opened = some bs → bs.length = x.length → x.length ≤ 4096 →
      (x.kind ≠ 0 → t = ((s.modPart part (fun q => { q with
        mig := { q.mig with received := q.mig.received ++ [{ x with sealed := bs }], acks := q.mig.acks ++ [x.counter] } })).migInstall part).getD s) ∧
      (x.kind = 0 → (∃ n, assocGet p.mig.applied x.addr = some n ∧ x.round < n) →
        t = s.modPart part (fun q => { q with mig := { q.mig with acks := q.mig.acks ++ [x.counter] } })) ∧
      (x.kind = 0 → (∀ n, assocGet p.mig.applied x.addr = some n → n ≤ x.round) →
        let dest := p.record.lcasid.getD 0 0
        (∀ s1, writeVA true [.mem] part dest (bs.length / 8 + 2) s x.addr bs = .ok s1 →
          t = s1.modPart part (fun q => { q with
            mig := { q.mig with applied := assocSet q.mig.applied x.addr x.round, acks := q.mig.acks ++ [x.counter] } })) ∧
        (∀ a f, writeVA true [.mem] part dest (bs.length / 8 + 2) s x.addr bs = .error (a, f) → t = s.logAccess part dest a f)))) ∧
  (∀ (s : State) (part : Nat) (p : Part), s.part part = some p →
    let last := (p.mig.received.getLast?.map (fun q => q.session)).getD 0
    let got := fun (kind : Nat) => assemble (p.mig.received.filter (fun q => q.session = last)) kind
      ((p.mig.received.filter (fun q => q.session = last)).length + 1) 0
    (readMig (got 2) = none → s.migInstall part = some s) ∧
    (∀ m : MigJob, readMig (got 2) = some m → (got 1).length = m.bytes → m.id ≠ 0 → s.job m.id = none →
      (s.diesFor p m.qrec.lrec = none → s.migInstall part = none) ∧
      (∀ dies, s.diesFor p m.qrec.lrec = some dies → ∃ (t : State) (j : Job) (p' : Part), s.migInstall part = some t ∧ t.job m.id = some j ∧
        j.part = part ∧ j.qrec = m.qrec ∧ j.dies = dies ∧ j.evbits = m.evbits ∧ j.arrivals = m.arrivals ∧ j.banks = [] ∧ j.started = true ∧
        j.distaff = m.distaff.map (fun ((d, c), x) => ((dies.getD d 0, c), x)) ∧
        j.saved.map (fun v => (v.jd, v.jc, v.runnable)) = m.teams.map (fun (jd, jc, _) => (jd, jc, true)) ∧
        t.part part = some p' ∧ p'.mig.received = [] ∧ p'.mig.state = migDone ∧
        p'.queue.map (fun r => r.lrec) = p.queue.map (fun r => r.lrec) ++ m.queue.map (fun r => r.lrec) ∧
        (∀ e ∈ m.evbits, e.1 < 16 → e.2 < 256 → (t.events part e.1).testBit e.2 = true)))) ∧
  (∀ m : MigJob, readMig (migBytes m) = some m) ∧
  (∀ (s : State) (part : Nat) (key : List Byte), key.length = 32 →
    exec (.migrationKeySupply part key) s = .next (s.modPart part (fun q => { q with mig := { q.mig with key := some key } }))) ∧
  (∀ (s : State) (part : Nat) (counters : List Nat) (p : Part), s.part part = some p →
    let left := p.mig.pending.filter (fun x => !counters.contains x.counter)
    let s1 := s.modPart part (fun q => { q with mig := { q.mig with pending := q.mig.pending.filter (fun x => !counters.contains x.counter) } })
    (p.mig.state ≠ migSent ∨ left ≠ [] → exec (.migrationAcknowledge part counters) s = .next s1) ∧
    (∀ j, p.mig.state = migSent → left = [] → s.job p.mig.job = some j → ∃ t p', exec (.migrationAcknowledge part counters) s = .next t ∧
      t.job j.id = none ∧ t.part part = some p' ∧ p'.mig.state = migDone))

/-! ### Errors, failures, links, power -/

/-- Uncorrectable errors (R393, R394): the place or the piece of state that an error takes; an error in a bank's state raises ECC_UNCORRECTED
with its STRUCT code at the next instruction boundary of the C stream; a write over a lost byte of memory clears it. An error under
bytes that an outstanding load reads is not stated here.
What an error leaves in its place is the model's choice (log entry 72), and that a claim or an arrival that waits is taken back first,
with its instruction unexecuted, is the model's reading (log entry 27). -/
def Obligations.UncorrectableErrors : Prop :=
  (∀ (s : State) (pa : Nat), isDevMem pa = true → (∀ b, (s.bank b).outLoads = []) → ∃ t, exec (.eccError (.memory pa)) s = .next t ∧ t.eccAt pa 1 = true ∧
    (∀ a : Nat, a ≠ pa → t.eccAt a 1 = s.eccAt a 1) ∧ t.mem = s.mem ∧ t.banks = s.banks ∧
    (t.performWrite none pa [0] false).eccAt pa 1 = false) ∧
  (∀ (s : State) (core off : Nat), off < 0x80000 → (∀ b, (s.bank b).outLoads = []) → ∃ t, exec (.eccError (.scratchpad core off)) s = .next t ∧
    t.eccAt (spadPlace core off) 1 = true ∧ t.mem = s.mem ∧ t.banks = s.banks) ∧
  (∀ (s : State) (b : BankId), s.boundaryOf b = true →
    let k := s.bank b
    let raised := fun (k' : Bank) (aux : Nat) => Host.Outcome.next (φ := Fault) (ρ := Refusal)
      (((s.setBank b k').withdraw b).deliver b ⟨0x38, 0, BitVec.ofNat 64 aux⟩ k.c.pc)
    (∀ n : BitVec 4, exec (.eccError (.spanReg b n.toNat)) s =
      raised { k with b := k.b.set n.toNat { k.getB n with valid := false } n.isLt } (7 + 256 * n.toNat)) ∧
    (exec (.eccError (.instrMemory b .c)) s = raised { k with c := { k.c with code := [] } } 8) ∧
    (∀ n : BitVec 6, n ≠ 0 → ∃ v : Word, exec (.eccError (.bankState b 3 n.toNat)) s =
      raised { k with x := k.x.set n.toNat v n.isLt } (3 + 256 * n.toNat)) ∧
    (∀ n : BitVec 4, ∃ v : Bool, exec (.eccError (.bankState b 5 n.toNat)) s =
      raised { k with fl := k.fl.set n.toNat v n.isLt, flD := k.flD.set n.toNat [] n.isLt } (5 + 256 * n.toNat)) ∧
    (∀ n : BitVec 4, ∃ x y z : BitVec 32, exec (.eccError (.bankState b 6 n.toNat)) s =
      raised { k with h := k.h.set n.toNat { k.getH n with head := x, tail := y, claimed := z } n.isLt } (6 + 256 * n.toNat)) ∧
    (∀ n : Nat, n < 16 → ∃ (w : Word) (x y z : Nat), exec (.eccError (.bankState b 10 n)) s =
      raised { k with queries := k.queries.map (fun (q : QuerySlot) =>
        if q.slot = n then { q with handle := w, committed := x, mask := y, nexcl := z } else q) } (10 + 256 * n)) ∧
    (∀ n : BitVec 4, ∃ v : BitVec 32, exec (.eccError (.register b .y n.toNat)) s =
      raised { k with y := k.y.set n.toNat v n.isLt } (3 + 256 * n.toNat)) ∧
    (∀ (n : Nat) (h : n < 4), ∃ l : LoopReg, exec (.eccError (.register b .lc n)) s = raised { k with lc := k.lc.set n l h } (3 + 256 * n))) ∧
  (∀ (s : State) (b : BankId), (∀ w, (s.bank b).c.wait = some w → w.tag ≠ .hclaim ∧ w.tag ≠ .remoteHank ∧ w.tag ≠ .rdv) → s.withdraw b = s) ∧
  (∀ (s : State) (b : BankId) (path chan id addr : Nat), exec (.eccError (.heldAccess b path chan id addr)) s =
    .next (s.setBank b { s.bank b with held := (s.bank b).held ++
      [⟨0x38, BitVec.ofNat 64 addr, BitVec.ofNat 64 (path + chan * 32 + id % 2 ^ 56 * 256), 0⟩] }))

/-- Failed cores and repairs (R397, R398): a failing core is noted, its banks lose their state, and a fifth failure in a cluster retires it;
a row repair counts against its bank, and the last spare row asks for replacement. -/
def Sys2Proof.Claims.CoreFailures : Prop :=
  (∀ (s : State) (core : Nat), core < 2048 → core % 64 < 48 → core / 64 ∉ s.health.retired → core ∉ s.health.failedCores →
    let n := (assocGet s.health.failures (core / 64)).getD 0 + 1
    ∃ t, exec (.coreFailure core) s = .next t ∧ core ∈ t.health.failedCores ∧ assocGet t.health.failures (core / 64) = some n ∧
      (∀ k : Nat, k < 2 → (t.bank ⟨core, k⟩).x = Vector.replicate 64 0 ∧ (t.bank ⟨core, k⟩).c.run = .unbound) ∧
      (n ≤ 4 → t.health.retired = s.health.retired) ∧
      (4 < n → core / 64 ∈ t.health.retired ∧ t.health.replace = true ∧
        ∀ q ∈ t.parts, q.2.record.clumask.getLsbD (core / 64) = false)) ∧
  (∀ (s : State) (stack bank : Nat), stack < 8 →
    let n := (assocGet s.health.rows (stack, bank)).getD 0 + 1
    (n ≤ Config.spareRows → exec (.rowRepair stack bank) s = .next { s with health := { s.health with
      rows := assocSet s.health.rows (stack, bank) n, replace := s.health.replace || decide (n = Config.spareRows) } }) ∧
    (Config.spareRows < n → exec (.rowRepair stack bank) s = .next s))

/-- Links and power (R395, R396, R398, R405): a good flit in order is delivered and acknowledged, one with a wrong CRC or out of
order is answered with NAK and the last good number; an acknowledgement lets the flits up to its number leave the window, and a
NAK is answered by no NAK; training sets version 1.0 with a partner of major 1 and refuses any other; a throttle level is entered
while its trigger holds, and left, for the one below, only once its trigger has not been met for 10 ms; at 115 °C the device shuts
down and its state is lost. -/
def Sys2Proof.Claims.LinksAndPower : Prop :=
  (∀ (s : State) (link : Nat) (f : Flit), link < 16 → (s.link link).version ≠ none →
    (f.crc ≠ crc32 (flitBytes f) ∨ (f.seq ≠ ((s.link link).lastGood + 1) % 65536 ∧ f.ackv = false ∧ f.nak = false) →
      exec (.linkFlit link f) s = .next (s.emitFlit link ⟨0, (s.link link).lastGood, true, true, 0, [], 0⟩)) ∧
    (f.crc = crc32 (flitBytes f) → f.seq ≠ ((s.link link).lastGood + 1) % 65536 → f.ackv = true → f.nak = false →
      (∀ e ∈ (s.link link).window, e.1 ≠ f.ackseq) →
      ∃ t, exec (.linkFlit link f) s = .next t ∧ (t.link link).lastGood = (s.link link).lastGood ∧
        (t.link link).delivered = (s.link link).delivered ∧ (t.link link).window = (s.link link).window) ∧
    (f.crc = crc32 (flitBytes f) → f.seq = ((s.link link).lastGood + 1) % 65536 → f.ackv = true → f.nak = false →
      ∀ l1 e l2, (s.link link).window = l1 ++ e :: l2 → e.1 = f.ackseq → ((l1 ++ e :: l2).map (fun q => q.1)).Nodup →
      ∃ t, exec (.linkFlit link f) s = .next t ∧ (t.link link).lastGood = f.seq ∧ (t.link link).window = l2) ∧
    (f.crc = crc32 (flitBytes f) → f.nak = true → (s.link link).window = [] → f.seq ≠ ((s.link link).lastGood + 1) % 65536 →
      ∃ t, exec (.linkFlit link f) s = .next t ∧ t.outbox = s.outbox ∧ t.link link = s.link link) ∧
    (f.crc = crc32 (flitBytes f) → f.seq = ((s.link link).lastGood + 1) % 65536 → f.ackv = false → f.nak = false →
      exec (.linkFlit link f) s = .next ((s.setLink link { s.link link with
        lastGood := f.seq, delivered := (s.link link).delivered ++ [f.payload] }).emitFlit link ⟨0, f.seq, true, false, 0, [], 0⟩))) ∧
  (∀ (s : State) (link vmaj vmin : Nat), link < 16 → (s.link link).version = none →
    (vmaj = 1 → exec (.linkTraining link vmaj vmin) s = .next (s.setLink link { s.link link with
      version := some (1, 0), sendNext := 0, window := [], parity := [], lastGood := 65535 })) ∧
    (vmaj ≠ 1 → ∃ t, exec (.linkTraining link vmaj vmin) s = .next t ∧ (t.link link).version = none ∧
      t.deviceLog = s.deviceLog ++ [⟨.refuseVersion, [link, 1, 0, vmaj, vmin]⟩])) ∧
  (∀ (s : State) (level power temp : Nat),
    let triggered := fun (n p c : Nat) => (n = 1 ∧ (3000 < p ∨ 950 ≤ c)) ∨ (n = 2 ∧ 1000 ≤ c) ∨ (n = 3 ∧ 1050 ≤ c)
    (triggered level power temp → ∃ t, exec (.throttleEnter level power temp) s = .next t ∧ t.health.level = max s.health.level level ∧
      t.health.power = power ∧ t.health.temp = temp ∧ assocGet t.health.met level = some s.dtc ∧ t.banks = s.banks ∧ t.mem = s.mem) ∧
    (¬ triggered level power temp → exec (.throttleEnter level power temp) s = .next s) ∧
    (level ≠ 0 → s.health.level = level → ¬ triggered level s.health.power s.health.temp →
      (((assocGet s.health.met level).getD 0 + 10000000 ≤ s.dtc →
        ∃ t, exec (.throttleExit level) s = .next t ∧ t.health.level = level - 1 ∧ t.banks = s.banks ∧ t.mem = s.mem) ∧
      (s.dtc < (assocGet s.health.met level).getD 0 + 10000000 → exec (.throttleExit level) s = .next s))) ∧
    (level ≠ 0 → triggered level s.health.power s.health.temp → exec (.throttleExit level) s = .next s) ∧
    (1150 ≤ temp → ∃ t, exec (.thermalShutdown temp) s = .next t ∧ t.health.off = true ∧ t.mem = [] ∧ t.banks = [] ∧ t.jobs = [] ∧
      t.deviceLog = s.deviceLog ++ [⟨.thermal, [temp]⟩]) ∧
    (temp < 1150 → exec (.thermalShutdown temp) s = .next s))

/-! ### Frames -/

/-- What a register instruction of the C stream names: its source slots, its destination slots, the condition register that it writes,
and whether it writes FPFLAGS. None for every other instruction. -/
def Sys2Proof.Claims.names : Instr → Option (List Src × List Dst × Option (BitVec 3) × Bool)
  | .add _ rd ra rb | .sub _ rd ra rb | .mul _ rd ra rb | .mulhS _ rd ra rb | .mulhN _ rd ra rb | .divS _ rd ra rb | .divN _ rd ra rb
  | .remS _ rd ra rb | .remN _ rd ra rb | .and _ rd ra rb | .or _ rd ra rb | .xor _ rd ra rb | .andn _ rd ra rb | .shl _ rd ra rb
  | .shr _ rd ra rb | .sra _ rd ra rb | .rol _ rd ra rb | .minS _ rd ra rb | .minN _ rd ra rb | .maxS _ rd ra rb | .maxN _ rd ra rb
  | .sel _ rd ra rb _ => some ([ra, rb], [rd], none, false)
  | .clz _ rd ra | .ctz _ rd ra | .popc _ rd ra | .bswap _ rd ra | .extr _ rd ra _ _ | .sext _ rd ra _ | .zext _ rd ra _
  | .addi _ rd ra _ | .andi _ rd ra _ | .ori _ rd ra _ | .xori _ rd ra _ | .shli _ rd ra _ | .shri _ rd ra _
  | .srai _ rd ra _ => some ([ra], [rd], none, false)
  | .ins _ rd ra _ _ => some ([ra], [.reg rd], none, false)
  | .movi _ rd _ => some ([], [rd], none, false)
  | .movhi _ rd _ => some ([], [.reg rd], none, false)
  | .cmpi _ _ c ra _ => some ([ra], [], some c, false)
  | .cmp _ _ c ra rb | .fcmp _ _ c ra rb => some ([ra, rb], [], some c, false)
  | .cand _ c _ _ | .cor _ c _ _ | .cnot _ c _ => some ([], [], some c, false)
  | .fadd _ _ rd ra rb | .fsub _ _ rd ra rb | .fmul _ _ rd ra rb => some ([ra, rb], [rd], none, true)
  | .fmin _ rd ra rb | .fmax _ rd ra rb => some ([ra, rb], [rd], none, false)
  | .fma _ _ rd ra rb => some ([ra, rb], [.reg rd], none, true)
  | .fcvt _ _ _ rd ra => some ([ra], [rd], none, true)
  | .qpush _ q ra => some ([ra], [.queue q], none, false)
  | .qpop _ rd q => some ([.queue q false], [.reg rd], none, false)
  | .qpeek _ rd q => some ([.queue q true], [.reg rd], none, false)
  | .qpeekCnt _ rd _ => some ([], [.reg rd], none, false)
  | _ => none

/-- The frame of the register instructions of the C stream (R25, R29, R173, R182): unless it takes the trap of a queue's direction, such an
instruction changes its own bank alone, and in it only the registers and queues that it names, the condition register that it
writes (CMP, FCMP and the condition instructions), FPFLAGS (the floating-point arithmetic), the loop records (loop-back) and the
PC and wait of its stream. No byte of memory, no status or trap register, no span, tensor or mapping register changes. -/
def Obligations.RegisterFrame : Prop :=
  ∀ (i : Instr) (s t : State) (srcs : List Src) (dsts : List Dst) (cd : Option (BitVec 3)) (fp : Bool),
    names i = some (srcs, dsts, cd, fp) → exec i s = .next t →
    (∃ q : BitVec 3, t = s.deliver s.cur.bank ⟨0x20, 0, q.setWidth 64⟩ (here s).c.pc) ∨
    ∃ k : Bank, t = s.setBank s.cur.bank k ∧ t.mem = s.mem ∧ (∀ b, b ≠ s.cur.bank → t.bank b = s.bank b) ∧
      k = { here s with x := k.x, q := k.q, cC := k.cC, fpflags := k.fpflags, lc := k.lc,
                        c := { (here s).c with pc := k.c.pc, wait := k.c.wait } } ∧
      (∀ n : BitVec 6, .reg n ∉ dsts → k.getX n = (here s).getX n) ∧ k.getX 0 = 0 ∧
      (∀ q : BitVec 3, .queue q ∉ dsts → (.queue q false) ∉ srcs → k.getQ q = (here s).getQ q) ∧
      (∀ n : BitVec 3, some n ≠ cd → readC k n = readC (here s) n) ∧ readC k 0 = true ∧
      (fp = false → k.fpflags = (here s).fpflags) ∧ (∀ n : Nat, (here s).fpflags.getLsbD n = true → k.fpflags.getLsbD n = true)

/-- What a walk changes (R352, R358): the AC bit of the leaf entry that it ends at, for a write its D bit, and for a write in a tracked
address space the granule's bit of the dirty bitmap; no other byte of memory, and of the rest of the state only the TLB
entries, the errors that the written words covered, and their release tags. An access of a scratchpad span walks nothing. -/
def Obligations.TranslationFrame : Prop :=
  (∀ (s t : State) (hs : List TlbHolder) (part asid va place e lv : Nat) (write : Bool) (x : Xlat) (p : Part), memWf s.mem = true →
    s.part part = some p → s.walk hs part asid va write = .ok x t →
    walkLevels s p.record va 4 (fieldAt (s.readNum (asEntry p.record asid) 8) 12 36 * 4096) = .ok (place, e, lv) →
    let e' := e ||| 16 ||| (if write then 32 else 0)
    let s1 := if e' = e then s else s.performWrite none place (bytesOf 8 e') true
    let word := fun (m : Nat) => m * 2 ^ 24 + 8 * (x.pa / 4096 / 64)
    (∃ (m : List Host.Cell) (bad : List Nat) (rel : List RelTag) (tlb : List TlbEntry), t = { s with mem := m, bad := bad, released := rel, tlb := tlb }) ∧
    (∀ a : Nat, (a < place ∨ place + 8 ≤ a) →
      (∀ m, write = true → trackOf s1 p.record asid = some m → a < word m ∨ word m + 8 ≤ a) → readByte t.mem a = readByte s.mem a) ∧
    ((write = false ∨ trackOf s1 p.record asid = none) → t.readNum place 8 = e') ∧
    (∀ m, write = true → trackOf s1 p.record asid = some m → isDevMem x.pa = true → inRanges p.record (word m) 8 = true →
      (t.readNum (word m) 8).testBit (x.pa / 4096 % 64) = true)) ∧
  (∀ (s : State) (b : BankId) (asid n addr cause : Nat) (r : SpanReg) (write : Bool),
    (space r.bits = 1 → locate s b asid r n addr write cause = .ok (.place (spadPlace b.core addr) none, s)) ∧
    (space r.bits = 2 → locate s b asid r n addr write cause =
      .ok (.place (spadPlace (b.core / 64 * 64 + (r.bits.extractLsb' 170 6).toNat) addr) none, s)))

/-! ### The whole machine -/

/-- After reset (R95, R367, R370): every block-format register and every measurement is 0, no device id is assigned, the device is
on, no partition, job or translation exists, no stream runs, and memory lists nothing and is in its canonical form. That an
unlisted byte reads 0 is the model's choice (log entry 3).
The values that the spec does not give are the model's choice (log entries 3 and 4). -/
def Obligations.ResetState : Prop :=
  (∀ (b : BankId) (n : Fin 16), ((State.reset.bank b).bfmt[n]) = 0) ∧
  (∀ b : BankId, (State.reset.bank b).c.run = .unbound ∧ (State.reset.bank b).g.run = .unbound ∧ (State.reset.bank b).binding = none) ∧
  State.reset.trust.deviceId = none ∧ State.reset.trust.meas = List.replicate 4 (List.replicate 32 0) ∧ State.reset.health.off = false ∧
  State.reset.parts = [] ∧ State.reset.jobs = [] ∧ State.reset.tlb = [] ∧ State.reset.invals = [] ∧ State.reset.mem = [] ∧
  memWf State.reset.mem = true ∧ (∀ a : Nat, readByte State.reset.mem a = 0) ∧ core.reset = State.reset ∧ core.step = step

/-- Every step keeps memory in its canonical form: places strictly rising, and no entry equal to what an unlisted place reads as.
What an unlisted place reads as is the model's choice (log entry 3). -/
def Obligations.MemoryInvariant : Prop :=
  ∀ s t : State, memWf s.mem = true → step s = .next t → memWf t.mem = true

/-- Every instruction and every event answers a next state in every state: an exception that the spec describes is taken, a wait is a
state, and no meaning stops. So a device that is on never stops (R405 switches it off). -/
def Obligations.EveryInstructionAnswers : Prop :=
  (∀ (i : Instr) (s : State), ∃ t, exec i s = .next t) ∧ (∀ s : State, s.health.off = false → ∃ t, step s = .next t)

/-! ### Statements made of several parts -/

/-- Integer and bit-field instructions: what each writes, for every operand form (R175, R176, R178). -/
def Obligations.IntegerAndBitOperations : Prop := Claims.IntegerResults ∧ Claims.BitResults

/-- Scalar FP32 instructions: what each writes and raises, and the special cases (R182 to R185). That the functions named here are the exact
values rounded once is ScalarRounding. -/
def Obligations.ScalarFloatingPoint : Prop := Claims.FpResults ∧ Claims.FpSpecialCases

/-- Transfers of the C stream and the loops that they leave (R186, R187, R191). -/
def Obligations.TransfersAndLoops : Prop := Claims.ControlTransfers ∧ Claims.LoopsLeft

/-- LOOP and the loop-back at a fall-through (R189, R190). -/
def Obligations.HardwareLoops : Prop := Claims.LoopStarts ∧ Claims.LoopBack

/-- Loads, acquiring loads and WAITA, and LOAD_RETURN (R203, R221, R222, R228).
What an L1 returns is the model's reading (log entry 9). -/
def Obligations.LoadsAndAcquiringReads : Prop := Claims.LoadsComplete ∧ Claims.AcquiringReads

/-- Stores, the release that STL makes, and what performing a weak store writes (R199, R203, R214, R215, R221).
When a weak store is performed is the model's reading (log entries 8 and 60). -/
def Obligations.StoresAndReleases : Prop := Claims.StoresComplete ∧ Claims.StoreRelease ∧ Claims.WeakStorePerformed

/-- The returning atomics and the bytes that an atomic reads and writes (R223 to R226). -/
def Obligations.Atomics : Prop := Claims.AtomicsComplete ∧ Claims.AtomicWrites

/-- The events that end a wait: the stream issues its instruction again (log entry 6).
That a wake event lets the stream issue again is the model's choice (log entry 6). -/
def Obligations.Wakes : Prop := Claims.WaitsWake ∧ Claims.AccessWakes

/-- Tensor, mapping and format registers (R142, R145, R150 to R153). -/
def Obligations.TensorFile : Prop := Claims.TensorRegisters ∧ Claims.TensorOwners

/-- Issue of the grid instructions, MCHK and completion (R111, R136, R139, R141, R142, R165).
Some TRAPAUX values and the order among grid operations are the model's reading (log entries 35, 37 and 38). -/
def Obligations.GridInstructions : Prop := Claims.GridIssues ∧ Claims.CheckedMapping ∧ Claims.GridCompletes

/-- The messages of a contraction and the decision of its root (R133, R135).
The root's behaviour after a failed check is the model's reading (log entries 33, 36 and 39). -/
def Obligations.ContractionMessages : Prop := Claims.SpindleMessages ∧ Claims.RootDecides

/-- Scalar instructions and branches of the G stream (R166, R167). -/
def Obligations.GridScalars : Prop := Claims.GridScalarResults ∧ Claims.GridBranches

/-- Queues and flags of the C stream (R27, R280, R281, R283, R284). -/
def Obligations.QueuesAndFlags : Prop := Claims.QueueInstructions ∧ Claims.QueueDirections ∧ Claims.FlagInstructions

/-- Hanks at their home core: completion and misuse (R288 to R293).
The stores that a commit covers are carried as log entry 60 says. -/
def Obligations.Hanks : Prop := Claims.HankAtHome ∧ Claims.HankMisuse

/-- RDV, YIELD and END (R294, R295).
The stores that an arrival covers are carried as log entry 60 says. -/
def Obligations.JoinsAndEnd : Prop := Claims.Rendezvous ∧ Claims.YieldAndEnd

/-- Copy engines (R234 to R244).
The progress of a transfer and some TRAPAUX values are the model's reading (log entries 40 and 41). -/
def Obligations.Copies : Prop := Claims.CopyCommands ∧ Claims.CopyMovesBytes

/-- Ply (R247 to R254).
The members' protocol and the tail of a sort are the model's reading (log entries 11, 42 and 43). -/
def Obligations.PlyOperations : Prop := Claims.PlySorts ∧ Claims.PlyAccepted ∧ Claims.PlyDelivers

/-- What a stack answers and what a scan delivers (R259 to R264, R270 to R274).
The context that AREG takes is free, and the order of checks is the model's reading (log entry 44). -/
def Obligations.AttarStacksAndScans : Prop := Claims.AttarStack ∧ Claims.AttarScans

/-- The event order and the event instructions (R306, R307, R320). -/
def Obligations.Events : Prop := Claims.EventOrder ∧ Claims.EventInstructions

/-- DINIT, DCLAIM and LAUNCH (R318, R319, R321).
When a LAUNCH completes is the model's reading (log entry 49). -/
def Obligations.DistaffAndLaunch : Prop := Claims.DistaffInstructions ∧ Claims.LaunchInstruction

/-- Bind records that are taken and bind records that are rejected (R310, R311).
A bind that misfits its placement is the model's reading (log entry 50). -/
def Obligations.Binding : Prop := Claims.BindRecords ∧ Claims.BindRejected

/-- SPST, SPLD, HOST_MEMORY_WRITE, OVLD and OVLD.g (R331, R337, R344).
When SPST and SPLD act is the model's reading (log entry 59). -/
def Obligations.SpanStorageAndOverlays : Prop := Claims.SpanStorage ∧ Claims.Overlays

/-- Invalidations, their acknowledgement, the page walk, and accesses from other devices (R243, R352, R356, R361 to R364).
Which translations a TLB keeps, and what a window access answers, is the model's reading (log entries 10 and 12). -/
def Obligations.InvalidationsAndWindows : Prop := Claims.TlbInstructions ∧ Claims.TlbAcknowledge ∧ Claims.WindowAccesses

/-- Partitions, identity, measurements, quotes, boot and recovery (R365, R367, R369 to R371, R403).
The signed bytes, the lengths, the byte that a refusal names and what a reset keeps are the model's reading (log
entries 13, 23, 24 and 25). -/
def Obligations.TrustAndBoot : Prop := Claims.PartitionsAndTrust ∧ Claims.BootAndRecovery

/-- SRD, SWR and SRX, and the registers whose write switches something (R79, R357, R384 to R386).
When SWR CTXBANK and SWR DIRTYCTL act is the model's reading (log entries 16, 20 and 26). -/
def Obligations.SystemRegisterAccess : Prop := Claims.SystemRegisters ∧ Claims.SwitchingRegisters

/-- Taking a trap, and the instructions that raise, halt or return (R376, R377, R384, R386).
The halt cause of a BREAK is the model's choice (log entries 20 and 64). -/
def Obligations.Traps : Prop := Claims.TrapDelivery ∧ Claims.TrapInstructions

/-- Failed cores, repairs, links and power (R395 to R398, R405).
The CRC's start and end values, the sequence numbers after training, the level that THROTTLE_EXIT names and the spare rows are the model's reading (log entries 28, 29
and 30), and so is that a NAK out of sequence is heeded and not answered (log entry 104). -/
def Obligations.FailuresLinksPower : Prop := Claims.CoreFailures ∧ Claims.LinksAndPower

/-! ### FP32 arithmetic -/

/-- The magnitude of the FP32 code `m` without its sign, in units of 2^−149: that of a subnormal, a normal number, or, for the code of
infinity, the value next on the grid above the largest finite one (R83, R104). -/
def Sys2Proof.Claims.f32Mag (m : Nat) : Nat := if m < 2 ^ 23 then m else (2 ^ 23 + m % 2 ^ 23) * 2 ^ (m / 2 ^ 23 - 1)

/-- The value of an FP32 code in those units. -/
def Sys2Proof.Claims.f32Int (c : Nat) : Int := if c < 2 ^ 31 then (f32Mag c : Int) else -(f32Mag (c - 2 ^ 31) : Int)

/-- Rounding in the mode `rnd` goes from `lo` to the next code, for the magnitude n / 2^k (R101): RNE to the nearer, on a tie to the even
code; RTZ never; RDN for a negative value, RUP for a positive one. -/
def Sys2Proof.Claims.f32Up (rnd : Rnd) (neg : Bool) (n k lo : Nat) : Prop :=
  match rnd with
  | .rne => (f32Mag lo + f32Mag (lo + 1)) * 2 ^ k < 2 * n ∨ ((f32Mag lo + f32Mag (lo + 1)) * 2 ^ k = 2 * n ∧ lo % 2 = 1)
  | .rtz | .sr => False
  | .rdn => neg = true
  | .rup => neg = false

/-- `res` is the FP32 code and the flags of (−1)^neg × n / 2^k, in units of 2^−149, rounded once (R101, R104, R105): an exact magnitude
keeps its code without a flag; else one of the two codes around it, with INX, with UNF where the code is below the normal numbers,
and with OVF where it is the code of infinity or the magnitude is not below the first value beyond the largest finite one. -/
def Sys2Proof.Claims.F32Rounds (rnd : Rnd) (neg : Bool) (n k : Nat) (res : Nat × Nat) : Prop :=
  ∃ m fl : Nat, res = (m + (if neg then 2 ^ 31 else 0), fl) ∧
    ((m < 0x7F800000 ∧ f32Mag m * 2 ^ k = n ∧ fl = 0) ∨
      ∃ lo : Nat, lo ≤ 0x7F7FFFFF ∧ f32Mag lo * 2 ^ k < n ∧ (n < f32Mag (lo + 1) * 2 ^ k ∨ lo = 0x7F7FFFFF) ∧
        (f32Up rnd neg n k lo → m = lo + 1) ∧ (¬ f32Up rnd neg n k lo → m = lo) ∧
        fl = 1 + (if m < 2 ^ 23 then 2 else 0) + (if m = 0x7F800000 ∨ f32Mag 0x7F800000 * 2 ^ k ≤ n then 4 else 0))

/-- FADD, FSUB, FMUL, FMA, FCVT from an integer, FMIN, FMAX and FCMP by value (R57, R101, R104, R105, R183 to R185): for finite operands a result is the exact
sum, difference, product or product and sum, rounded once; a zero of operands of opposite sign is +0, and −0 under RDN, and two zeros
of one sign keep it; an infinity and a finite number, or two infinities of one sign, give the infinity, and so does an infinity times a nonzero
number, with the sign of the product; FMIN, FMAX and FCMP order the values, an infinity beyond every finite one, and FCMP answers on a NaN as
R57's table says. The functions are those that the instructions write in ScalarFloatingPoint. -/
def Obligations.ScalarRounding : Prop :=
  (∀ (rnd : Rnd) (a b c : Nat), rnd ≠ .sr → a < 2 ^ 32 → b < 2 ^ 32 → c < 2 ^ 32 →
    a % 2 ^ 31 < 0x7F800000 → b % 2 ^ 31 < 0x7F800000 → c % 2 ^ 31 < 0x7F800000 →
    let zero := fun (x y : Bool) => if x = y then (if x then 2 ^ 31 else 0) else if rnd = .rdn then 2 ^ 31 else 0
    let minus := fun (x : Nat) => decide (2 ^ 31 ≤ x)
    let sum := f32Int a + f32Int b
    let diff := f32Int a - f32Int b
    let prod := f32Int a * f32Int b
    let fused := prod + f32Int c * 2 ^ 149
    (sum ≠ 0 → F32Rounds rnd (decide (sum < 0)) sum.natAbs 0 (fAdd rnd a b)) ∧
    (sum = 0 → fAdd rnd a b = (zero (minus a) (minus b), 0)) ∧
    (diff ≠ 0 → F32Rounds rnd (decide (diff < 0)) diff.natAbs 0 (fSub rnd a b)) ∧
    (diff = 0 → fSub rnd a b = (zero (minus a) (!minus b), 0)) ∧
    F32Rounds rnd (minus a != minus b) prod.natAbs 149 (fMul rnd a b) ∧
    (fused ≠ 0 → F32Rounds rnd (decide (fused < 0)) fused.natAbs 149 (fFma rnd a b c)) ∧
    (fused = 0 → fFma rnd a b c = (zero (minus a != minus b) (minus c), 0))) ∧
  (∀ (rnd : Rnd) (i : Int), rnd ≠ .sr → ∃ r, F32Rounds rnd (decide (i < 0)) (i.natAbs * 2 ^ 149) 0 r ∧ cvtFromInt i rnd = (BitVec.ofNat 64 r.1, r.2)) ∧
  (∀ (rnd : Rnd) (a b : Nat), rnd ≠ .sr → a < 2 ^ 32 → b < 2 ^ 32 → a % 2 ^ 31 = 0x7F800000 →
    (b % 2 ^ 31 < 0x7F800000 ∨ b = a → fAdd rnd a b = (a, 0) ∧ fAdd rnd b a = (a, 0)) ∧
    (b % 2 ^ 31 < 0x7F800000 → fSub rnd a b = (a, 0) ∧ fSub rnd b a = ((a + 2 ^ 31) % 2 ^ 32, 0)) ∧
    (b % 2 ^ 31 ≠ 0 → b % 2 ^ 31 ≤ 0x7F800000 →
      fMul rnd a b = (0x7F800000 + (if decide (2 ^ 31 ≤ a) = decide (2 ^ 31 ≤ b) then 0 else 2 ^ 31), 0) ∧ fMul rnd b a = fMul rnd a b)) ∧
  (∀ (a b : Nat), a < 2 ^ 32 → b < 2 ^ 32 → a % 2 ^ 31 ≤ 0x7F800000 → b % 2 ^ 31 ≤ 0x7F800000 →
    (f32Int a < f32Int b → f32Max a b = b ∧ f32Max b a = b ∧ f32Min a b = a ∧ f32Min b a = a) ∧ f32Max a a = a ∧ f32Min a a = a ∧
    (fcondHolds .eq a b = true ↔ f32Int a = f32Int b) ∧ (fcondHolds .ne a b = true ↔ f32Int a ≠ f32Int b) ∧
    (fcondHolds .lt a b = true ↔ f32Int a < f32Int b) ∧ (fcondHolds .ge a b = true ↔ f32Int a ≥ f32Int b) ∧
    (fcondHolds .le a b = true ↔ f32Int a ≤ f32Int b) ∧ (fcondHolds .gt a b = true ↔ f32Int a > f32Int b) ∧
    fcondHolds .un a b = false ∧ fcondHolds .ord a b = true) ∧
  (∀ (a b : Nat), a < 2 ^ 32 → b < 2 ^ 32 → 0x7F800000 < a % 2 ^ 31 ∨ 0x7F800000 < b % 2 ^ 31 → ∀ cc : FCond,
    fcondHolds cc a b = (cc = .ne || cc = .un))
end

