-- ==== Sys2Proof/Laws/State.lean ====
section
/-! SUPPORT. What each update of a state and of a bank leaves and sets: one lemma per field and update. -/
namespace Sys2Proof.Machine

/-! ### Association lists -/

theorem assocGet_assocSet_self {α β : Type} [DecidableEq α] (l : List (α × β)) (a : α) (v : β) :
    assocGet (assocSet l a v) a = some v := by
  induction l with
  | nil => simp [assocSet, assocGet]
  | cons p l ih =>
    obtain ⟨k, w⟩ := p
    by_cases h : k = a <;> simp [assocSet, assocGet, h, ih]

theorem assocGet_assocSet_ne {α β : Type} [DecidableEq α] (l : List (α × β)) {a c : α} (v : β) (h : a ≠ c) :
    assocGet (assocSet l a v) c = assocGet l c := by
  induction l with
  | nil => simp [assocSet, assocGet, h]
  | cons p l ih =>
    obtain ⟨k, w⟩ := p
    by_cases hk : k = a
    · subst hk; simp [assocSet, assocGet, h]
    · by_cases hc : k = c
      · subst hc; simp [assocSet, assocGet, hk]
      · simp [assocSet, assocGet, hk, hc, ih]

/-! ### Banks of a state -/

@[simp] theorem State.bank_setBank_self (s : State) (b : BankId) (k : Bank) : (s.setBank b k).bank b = k := by
  simp [State.bank, State.setBank, assocGet_assocSet_self]

@[simp] theorem State.bank_setBank_ne (s : State) {b c : BankId} (k : Bank) (h : b ≠ c) : (s.setBank b k).bank c = s.bank c := by
  simp [State.bank, State.setBank, assocGet_assocSet_ne _ _ h]

@[simp] theorem State.bank_modBank_self (s : State) (b : BankId) (f : Bank → Bank) : (s.modBank b f).bank b = f (s.bank b) := by
  simp [State.modBank]

@[simp] theorem State.bank_modBank_ne (s : State) {b c : BankId} (f : Bank → Bank) (h : b ≠ c) :
    (s.modBank b f).bank c = s.bank c := by
  simp [State.modBank, h]

theorem assocSet_assocSet {α β : Type} [DecidableEq α] (l : List (α × β)) (a : α) (v w : β) :
    assocSet (assocSet l a v) a w = assocSet l a w := by
  induction l with
  | nil => simp [assocSet]
  | cons p l ih =>
    obtain ⟨k, u⟩ := p
    by_cases h : k = a <;> simp [assocSet, h, ih]

@[simp] theorem State.setBank_setBank (s : State) (b : BankId) (k q : Bank) : (s.setBank b k).setBank b q = s.setBank b q := by
  simp [State.setBank, assocSet_assocSet]

/-! ### Fields of a state after `setBank` -/

@[simp] theorem State.cores_setBank (s : State) (b : BankId) (k : Bank) : (s.setBank b k).cores = s.cores := rfl
@[simp] theorem State.mem_setBank (s : State) (b : BankId) (k : Bank) : (s.setBank b k).mem = s.mem := rfl
@[simp] theorem State.tags_setBank (s : State) (b : BankId) (k : Bank) : (s.setBank b k).tags = s.tags := rfl
@[simp] theorem State.pend_setBank (s : State) (b : BankId) (k : Bank) : (s.setBank b k).pend = s.pend := rfl
@[simp] theorem State.nextStore_setBank (s : State) (b : BankId) (k : Bank) : (s.setBank b k).nextStore = s.nextStore := rfl
@[simp] theorem State.released_setBank (s : State) (b : BankId) (k : Bank) : (s.setBank b k).released = s.released := rfl
@[simp] theorem State.l1_setBank (s : State) (b : BankId) (k : Bank) : (s.setBank b k).l1 = s.l1 := rfl
@[simp] theorem State.dir_setBank (s : State) (b : BankId) (k : Bank) : (s.setBank b k).dir = s.dir := rfl
@[simp] theorem State.tlb_setBank (s : State) (b : BankId) (k : Bank) : (s.setBank b k).tlb = s.tlb := rfl
@[simp] theorem State.invals_setBank (s : State) (b : BankId) (k : Bank) : (s.setBank b k).invals = s.invals := rfl
@[simp] theorem State.bad_setBank (s : State) (b : BankId) (k : Bank) : (s.setBank b k).bad = s.bad := rfl
@[simp] theorem State.hub_setBank (s : State) (b : BankId) (k : Bank) : (s.setBank b k).hub = s.hub := rfl
@[simp] theorem State.spindle_setBank (s : State) (b : BankId) (k : Bank) : (s.setBank b k).spindle = s.spindle := rfl
@[simp] theorem State.routeTags_setBank (s : State) (b : BankId) (k : Bank) : (s.setBank b k).routeTags = s.routeTags := rfl
@[simp] theorem State.roots_setBank (s : State) (b : BankId) (k : Bank) : (s.setBank b k).roots = s.roots := rfl
@[simp] theorem State.nextMsg_setBank (s : State) (b : BankId) (k : Bank) : (s.setBank b k).nextMsg = s.nextMsg := rfl
@[simp] theorem State.ply_setBank (s : State) (b : BankId) (k : Bank) : (s.setBank b k).ply = s.ply := rfl
@[simp] theorem State.nextPly_setBank (s : State) (b : BankId) (k : Bank) : (s.setBank b k).nextPly = s.nextPly := rfl
@[simp] theorem State.regions_setBank (s : State) (b : BankId) (k : Bank) : (s.setBank b k).regions = s.regions := rfl
@[simp] theorem State.scans_setBank (s : State) (b : BankId) (k : Bank) : (s.setBank b k).scans = s.scans := rfl
@[simp] theorem State.jobs_setBank (s : State) (b : BankId) (k : Bank) : (s.setBank b k).jobs = s.jobs := rfl
@[simp] theorem State.parts_setBank (s : State) (b : BankId) (k : Bank) : (s.setBank b k).parts = s.parts := rfl
@[simp] theorem State.saves_setBank (s : State) (b : BankId) (k : Bank) : (s.setBank b k).saves = s.saves := rfl
@[simp] theorem State.nextSave_setBank (s : State) (b : BankId) (k : Bank) : (s.setBank b k).nextSave = s.nextSave := rfl
@[simp] theorem State.schedLog_setBank (s : State) (b : BankId) (k : Bank) : (s.setBank b k).schedLog = s.schedLog := rfl
@[simp] theorem State.dispatchLog_setBank (s : State) (b : BankId) (k : Bank) : (s.setBank b k).dispatchLog = s.dispatchLog := rfl
@[simp] theorem State.deviceLog_setBank (s : State) (b : BankId) (k : Bank) : (s.setBank b k).deviceLog = s.deviceLog := rfl
@[simp] theorem State.dtc_setBank (s : State) (b : BankId) (k : Bank) : (s.setBank b k).dtc = s.dtc := rfl
@[simp] theorem State.trust_setBank (s : State) (b : BankId) (k : Bank) : (s.setBank b k).trust = s.trust := rfl
@[simp] theorem State.health_setBank (s : State) (b : BankId) (k : Bank) : (s.setBank b k).health = s.health := rfl
@[simp] theorem State.links_setBank (s : State) (b : BankId) (k : Bank) : (s.setBank b k).links = s.links := rfl
@[simp] theorem State.outbox_setBank (s : State) (b : BankId) (k : Bank) : (s.setBank b k).outbox = s.outbox := rfl
@[simp] theorem State.cur_setBank (s : State) (b : BankId) (k : Bank) : (s.setBank b k).cur = s.cur := rfl
@[simp] theorem State.turns_setBank (s : State) (b : BankId) (k : Bank) : (s.setBank b k).turns = s.turns := rfl
@[simp] theorem State.tick_setBank (s : State) (b : BankId) (k : Bank) : (s.setBank b k).tick = s.tick := rfl

/-! ### Fields of a state after `modBank` -/

@[simp] theorem State.cores_modBank (s : State) (b : BankId) (f : Bank → Bank) : (s.modBank b f).cores = s.cores := rfl
@[simp] theorem State.mem_modBank (s : State) (b : BankId) (f : Bank → Bank) : (s.modBank b f).mem = s.mem := rfl
@[simp] theorem State.tags_modBank (s : State) (b : BankId) (f : Bank → Bank) : (s.modBank b f).tags = s.tags := rfl
@[simp] theorem State.pend_modBank (s : State) (b : BankId) (f : Bank → Bank) : (s.modBank b f).pend = s.pend := rfl
@[simp] theorem State.nextStore_modBank (s : State) (b : BankId) (f : Bank → Bank) : (s.modBank b f).nextStore = s.nextStore := rfl
@[simp] theorem State.released_modBank (s : State) (b : BankId) (f : Bank → Bank) : (s.modBank b f).released = s.released := rfl
@[simp] theorem State.l1_modBank (s : State) (b : BankId) (f : Bank → Bank) : (s.modBank b f).l1 = s.l1 := rfl
@[simp] theorem State.dir_modBank (s : State) (b : BankId) (f : Bank → Bank) : (s.modBank b f).dir = s.dir := rfl
@[simp] theorem State.tlb_modBank (s : State) (b : BankId) (f : Bank → Bank) : (s.modBank b f).tlb = s.tlb := rfl
@[simp] theorem State.invals_modBank (s : State) (b : BankId) (f : Bank → Bank) : (s.modBank b f).invals = s.invals := rfl
@[simp] theorem State.bad_modBank (s : State) (b : BankId) (f : Bank → Bank) : (s.modBank b f).bad = s.bad := rfl
@[simp] theorem State.hub_modBank (s : State) (b : BankId) (f : Bank → Bank) : (s.modBank b f).hub = s.hub := rfl
@[simp] theorem State.spindle_modBank (s : State) (b : BankId) (f : Bank → Bank) : (s.modBank b f).spindle = s.spindle := rfl
@[simp] theorem State.routeTags_modBank (s : State) (b : BankId) (f : Bank → Bank) : (s.modBank b f).routeTags = s.routeTags := rfl
@[simp] theorem State.roots_modBank (s : State) (b : BankId) (f : Bank → Bank) : (s.modBank b f).roots = s.roots := rfl
@[simp] theorem State.nextMsg_modBank (s : State) (b : BankId) (f : Bank → Bank) : (s.modBank b f).nextMsg = s.nextMsg := rfl
@[simp] theorem State.ply_modBank (s : State) (b : BankId) (f : Bank → Bank) : (s.modBank b f).ply = s.ply := rfl
@[simp] theorem State.nextPly_modBank (s : State) (b : BankId) (f : Bank → Bank) : (s.modBank b f).nextPly = s.nextPly := rfl
@[simp] theorem State.regions_modBank (s : State) (b : BankId) (f : Bank → Bank) : (s.modBank b f).regions = s.regions := rfl
@[simp] theorem State.scans_modBank (s : State) (b : BankId) (f : Bank → Bank) : (s.modBank b f).scans = s.scans := rfl
@[simp] theorem State.jobs_modBank (s : State) (b : BankId) (f : Bank → Bank) : (s.modBank b f).jobs = s.jobs := rfl
@[simp] theorem State.parts_modBank (s : State) (b : BankId) (f : Bank → Bank) : (s.modBank b f).parts = s.parts := rfl
@[simp] theorem State.saves_modBank (s : State) (b : BankId) (f : Bank → Bank) : (s.modBank b f).saves = s.saves := rfl
@[simp] theorem State.nextSave_modBank (s : State) (b : BankId) (f : Bank → Bank) : (s.modBank b f).nextSave = s.nextSave := rfl
@[simp] theorem State.schedLog_modBank (s : State) (b : BankId) (f : Bank → Bank) : (s.modBank b f).schedLog = s.schedLog := rfl
@[simp] theorem State.dispatchLog_modBank (s : State) (b : BankId) (f : Bank → Bank) : (s.modBank b f).dispatchLog = s.dispatchLog := rfl
@[simp] theorem State.deviceLog_modBank (s : State) (b : BankId) (f : Bank → Bank) : (s.modBank b f).deviceLog = s.deviceLog := rfl
@[simp] theorem State.dtc_modBank (s : State) (b : BankId) (f : Bank → Bank) : (s.modBank b f).dtc = s.dtc := rfl
@[simp] theorem State.trust_modBank (s : State) (b : BankId) (f : Bank → Bank) : (s.modBank b f).trust = s.trust := rfl
@[simp] theorem State.health_modBank (s : State) (b : BankId) (f : Bank → Bank) : (s.modBank b f).health = s.health := rfl
@[simp] theorem State.links_modBank (s : State) (b : BankId) (f : Bank → Bank) : (s.modBank b f).links = s.links := rfl
@[simp] theorem State.outbox_modBank (s : State) (b : BankId) (f : Bank → Bank) : (s.modBank b f).outbox = s.outbox := rfl
@[simp] theorem State.cur_modBank (s : State) (b : BankId) (f : Bank → Bank) : (s.modBank b f).cur = s.cur := rfl
@[simp] theorem State.turns_modBank (s : State) (b : BankId) (f : Bank → Bank) : (s.modBank b f).turns = s.turns := rfl
@[simp] theorem State.tick_modBank (s : State) (b : BankId) (f : Bank → Bank) : (s.modBank b f).tick = s.tick := rfl

/-! ### Fields of a state after `modJob` -/

@[simp] theorem State.banks_modJob (s : State) (n : Nat) (f : Job → Job) : (s.modJob n f).banks = s.banks := rfl
@[simp] theorem State.cores_modJob (s : State) (n : Nat) (f : Job → Job) : (s.modJob n f).cores = s.cores := rfl
@[simp] theorem State.mem_modJob (s : State) (n : Nat) (f : Job → Job) : (s.modJob n f).mem = s.mem := rfl
@[simp] theorem State.tags_modJob (s : State) (n : Nat) (f : Job → Job) : (s.modJob n f).tags = s.tags := rfl
@[simp] theorem State.pend_modJob (s : State) (n : Nat) (f : Job → Job) : (s.modJob n f).pend = s.pend := rfl
@[simp] theorem State.nextStore_modJob (s : State) (n : Nat) (f : Job → Job) : (s.modJob n f).nextStore = s.nextStore := rfl
@[simp] theorem State.released_modJob (s : State) (n : Nat) (f : Job → Job) : (s.modJob n f).released = s.released := rfl
@[simp] theorem State.l1_modJob (s : State) (n : Nat) (f : Job → Job) : (s.modJob n f).l1 = s.l1 := rfl
@[simp] theorem State.dir_modJob (s : State) (n : Nat) (f : Job → Job) : (s.modJob n f).dir = s.dir := rfl
@[simp] theorem State.tlb_modJob (s : State) (n : Nat) (f : Job → Job) : (s.modJob n f).tlb = s.tlb := rfl
@[simp] theorem State.invals_modJob (s : State) (n : Nat) (f : Job → Job) : (s.modJob n f).invals = s.invals := rfl
@[simp] theorem State.bad_modJob (s : State) (n : Nat) (f : Job → Job) : (s.modJob n f).bad = s.bad := rfl
@[simp] theorem State.hub_modJob (s : State) (n : Nat) (f : Job → Job) : (s.modJob n f).hub = s.hub := rfl
@[simp] theorem State.spindle_modJob (s : State) (n : Nat) (f : Job → Job) : (s.modJob n f).spindle = s.spindle := rfl
@[simp] theorem State.routeTags_modJob (s : State) (n : Nat) (f : Job → Job) : (s.modJob n f).routeTags = s.routeTags := rfl
@[simp] theorem State.roots_modJob (s : State) (n : Nat) (f : Job → Job) : (s.modJob n f).roots = s.roots := rfl
@[simp] theorem State.nextMsg_modJob (s : State) (n : Nat) (f : Job → Job) : (s.modJob n f).nextMsg = s.nextMsg := rfl
@[simp] theorem State.ply_modJob (s : State) (n : Nat) (f : Job → Job) : (s.modJob n f).ply = s.ply := rfl
@[simp] theorem State.nextPly_modJob (s : State) (n : Nat) (f : Job → Job) : (s.modJob n f).nextPly = s.nextPly := rfl
@[simp] theorem State.regions_modJob (s : State) (n : Nat) (f : Job → Job) : (s.modJob n f).regions = s.regions := rfl
@[simp] theorem State.scans_modJob (s : State) (n : Nat) (f : Job → Job) : (s.modJob n f).scans = s.scans := rfl
@[simp] theorem State.parts_modJob (s : State) (n : Nat) (f : Job → Job) : (s.modJob n f).parts = s.parts := rfl
@[simp] theorem State.saves_modJob (s : State) (n : Nat) (f : Job → Job) : (s.modJob n f).saves = s.saves := rfl
@[simp] theorem State.nextSave_modJob (s : State) (n : Nat) (f : Job → Job) : (s.modJob n f).nextSave = s.nextSave := rfl
@[simp] theorem State.schedLog_modJob (s : State) (n : Nat) (f : Job → Job) : (s.modJob n f).schedLog = s.schedLog := rfl
@[simp] theorem State.dispatchLog_modJob (s : State) (n : Nat) (f : Job → Job) : (s.modJob n f).dispatchLog = s.dispatchLog := rfl
@[simp] theorem State.deviceLog_modJob (s : State) (n : Nat) (f : Job → Job) : (s.modJob n f).deviceLog = s.deviceLog := rfl
@[simp] theorem State.dtc_modJob (s : State) (n : Nat) (f : Job → Job) : (s.modJob n f).dtc = s.dtc := rfl
@[simp] theorem State.trust_modJob (s : State) (n : Nat) (f : Job → Job) : (s.modJob n f).trust = s.trust := rfl
@[simp] theorem State.health_modJob (s : State) (n : Nat) (f : Job → Job) : (s.modJob n f).health = s.health := rfl
@[simp] theorem State.links_modJob (s : State) (n : Nat) (f : Job → Job) : (s.modJob n f).links = s.links := rfl
@[simp] theorem State.outbox_modJob (s : State) (n : Nat) (f : Job → Job) : (s.modJob n f).outbox = s.outbox := rfl
@[simp] theorem State.cur_modJob (s : State) (n : Nat) (f : Job → Job) : (s.modJob n f).cur = s.cur := rfl
@[simp] theorem State.turns_modJob (s : State) (n : Nat) (f : Job → Job) : (s.modJob n f).turns = s.turns := rfl
@[simp] theorem State.tick_modJob (s : State) (n : Nat) (f : Job → Job) : (s.modJob n f).tick = s.tick := rfl

/-! ### Fields of a state after `modPart` -/

@[simp] theorem State.banks_modPart (s : State) (n : Nat) (f : Part → Part) : (s.modPart n f).banks = s.banks := rfl
@[simp] theorem State.cores_modPart (s : State) (n : Nat) (f : Part → Part) : (s.modPart n f).cores = s.cores := rfl
@[simp] theorem State.mem_modPart (s : State) (n : Nat) (f : Part → Part) : (s.modPart n f).mem = s.mem := rfl
@[simp] theorem State.tags_modPart (s : State) (n : Nat) (f : Part → Part) : (s.modPart n f).tags = s.tags := rfl
@[simp] theorem State.pend_modPart (s : State) (n : Nat) (f : Part → Part) : (s.modPart n f).pend = s.pend := rfl
@[simp] theorem State.nextStore_modPart (s : State) (n : Nat) (f : Part → Part) : (s.modPart n f).nextStore = s.nextStore := rfl
@[simp] theorem State.released_modPart (s : State) (n : Nat) (f : Part → Part) : (s.modPart n f).released = s.released := rfl
@[simp] theorem State.l1_modPart (s : State) (n : Nat) (f : Part → Part) : (s.modPart n f).l1 = s.l1 := rfl
@[simp] theorem State.dir_modPart (s : State) (n : Nat) (f : Part → Part) : (s.modPart n f).dir = s.dir := rfl
@[simp] theorem State.tlb_modPart (s : State) (n : Nat) (f : Part → Part) : (s.modPart n f).tlb = s.tlb := rfl
@[simp] theorem State.invals_modPart (s : State) (n : Nat) (f : Part → Part) : (s.modPart n f).invals = s.invals := rfl
@[simp] theorem State.bad_modPart (s : State) (n : Nat) (f : Part → Part) : (s.modPart n f).bad = s.bad := rfl
@[simp] theorem State.hub_modPart (s : State) (n : Nat) (f : Part → Part) : (s.modPart n f).hub = s.hub := rfl
@[simp] theorem State.spindle_modPart (s : State) (n : Nat) (f : Part → Part) : (s.modPart n f).spindle = s.spindle := rfl
@[simp] theorem State.routeTags_modPart (s : State) (n : Nat) (f : Part → Part) : (s.modPart n f).routeTags = s.routeTags := rfl
@[simp] theorem State.roots_modPart (s : State) (n : Nat) (f : Part → Part) : (s.modPart n f).roots = s.roots := rfl
@[simp] theorem State.nextMsg_modPart (s : State) (n : Nat) (f : Part → Part) : (s.modPart n f).nextMsg = s.nextMsg := rfl
@[simp] theorem State.ply_modPart (s : State) (n : Nat) (f : Part → Part) : (s.modPart n f).ply = s.ply := rfl
@[simp] theorem State.nextPly_modPart (s : State) (n : Nat) (f : Part → Part) : (s.modPart n f).nextPly = s.nextPly := rfl
@[simp] theorem State.regions_modPart (s : State) (n : Nat) (f : Part → Part) : (s.modPart n f).regions = s.regions := rfl
@[simp] theorem State.scans_modPart (s : State) (n : Nat) (f : Part → Part) : (s.modPart n f).scans = s.scans := rfl
@[simp] theorem State.jobs_modPart (s : State) (n : Nat) (f : Part → Part) : (s.modPart n f).jobs = s.jobs := rfl
@[simp] theorem State.saves_modPart (s : State) (n : Nat) (f : Part → Part) : (s.modPart n f).saves = s.saves := rfl
@[simp] theorem State.nextSave_modPart (s : State) (n : Nat) (f : Part → Part) : (s.modPart n f).nextSave = s.nextSave := rfl
@[simp] theorem State.schedLog_modPart (s : State) (n : Nat) (f : Part → Part) : (s.modPart n f).schedLog = s.schedLog := rfl
@[simp] theorem State.dispatchLog_modPart (s : State) (n : Nat) (f : Part → Part) : (s.modPart n f).dispatchLog = s.dispatchLog := rfl
@[simp] theorem State.deviceLog_modPart (s : State) (n : Nat) (f : Part → Part) : (s.modPart n f).deviceLog = s.deviceLog := rfl
@[simp] theorem State.dtc_modPart (s : State) (n : Nat) (f : Part → Part) : (s.modPart n f).dtc = s.dtc := rfl
@[simp] theorem State.trust_modPart (s : State) (n : Nat) (f : Part → Part) : (s.modPart n f).trust = s.trust := rfl
@[simp] theorem State.health_modPart (s : State) (n : Nat) (f : Part → Part) : (s.modPart n f).health = s.health := rfl
@[simp] theorem State.links_modPart (s : State) (n : Nat) (f : Part → Part) : (s.modPart n f).links = s.links := rfl
@[simp] theorem State.outbox_modPart (s : State) (n : Nat) (f : Part → Part) : (s.modPart n f).outbox = s.outbox := rfl
@[simp] theorem State.cur_modPart (s : State) (n : Nat) (f : Part → Part) : (s.modPart n f).cur = s.cur := rfl
@[simp] theorem State.turns_modPart (s : State) (n : Nat) (f : Part → Part) : (s.modPart n f).turns = s.turns := rfl
@[simp] theorem State.tick_modPart (s : State) (n : Nat) (f : Part → Part) : (s.modPart n f).tick = s.tick := rfl

/-! ### Fields of a state after `modCore` -/

@[simp] theorem State.banks_modCore (s : State) (n : Nat) (f : CoreState → CoreState) : (s.modCore n f).banks = s.banks := rfl
@[simp] theorem State.mem_modCore (s : State) (n : Nat) (f : CoreState → CoreState) : (s.modCore n f).mem = s.mem := rfl
@[simp] theorem State.tags_modCore (s : State) (n : Nat) (f : CoreState → CoreState) : (s.modCore n f).tags = s.tags := rfl
@[simp] theorem State.pend_modCore (s : State) (n : Nat) (f : CoreState → CoreState) : (s.modCore n f).pend = s.pend := rfl
@[simp] theorem State.nextStore_modCore (s : State) (n : Nat) (f : CoreState → CoreState) : (s.modCore n f).nextStore = s.nextStore := rfl
@[simp] theorem State.released_modCore (s : State) (n : Nat) (f : CoreState → CoreState) : (s.modCore n f).released = s.released := rfl
@[simp] theorem State.l1_modCore (s : State) (n : Nat) (f : CoreState → CoreState) : (s.modCore n f).l1 = s.l1 := rfl
@[simp] theorem State.dir_modCore (s : State) (n : Nat) (f : CoreState → CoreState) : (s.modCore n f).dir = s.dir := rfl
@[simp] theorem State.tlb_modCore (s : State) (n : Nat) (f : CoreState → CoreState) : (s.modCore n f).tlb = s.tlb := rfl
@[simp] theorem State.invals_modCore (s : State) (n : Nat) (f : CoreState → CoreState) : (s.modCore n f).invals = s.invals := rfl
@[simp] theorem State.bad_modCore (s : State) (n : Nat) (f : CoreState → CoreState) : (s.modCore n f).bad = s.bad := rfl
@[simp] theorem State.hub_modCore (s : State) (n : Nat) (f : CoreState → CoreState) : (s.modCore n f).hub = s.hub := rfl
@[simp] theorem State.spindle_modCore (s : State) (n : Nat) (f : CoreState → CoreState) : (s.modCore n f).spindle = s.spindle := rfl
@[simp] theorem State.routeTags_modCore (s : State) (n : Nat) (f : CoreState → CoreState) : (s.modCore n f).routeTags = s.routeTags := rfl
@[simp] theorem State.roots_modCore (s : State) (n : Nat) (f : CoreState → CoreState) : (s.modCore n f).roots = s.roots := rfl
@[simp] theorem State.nextMsg_modCore (s : State) (n : Nat) (f : CoreState → CoreState) : (s.modCore n f).nextMsg = s.nextMsg := rfl
@[simp] theorem State.ply_modCore (s : State) (n : Nat) (f : CoreState → CoreState) : (s.modCore n f).ply = s.ply := rfl
@[simp] theorem State.nextPly_modCore (s : State) (n : Nat) (f : CoreState → CoreState) : (s.modCore n f).nextPly = s.nextPly := rfl
@[simp] theorem State.regions_modCore (s : State) (n : Nat) (f : CoreState → CoreState) : (s.modCore n f).regions = s.regions := rfl
@[simp] theorem State.scans_modCore (s : State) (n : Nat) (f : CoreState → CoreState) : (s.modCore n f).scans = s.scans := rfl
@[simp] theorem State.jobs_modCore (s : State) (n : Nat) (f : CoreState → CoreState) : (s.modCore n f).jobs = s.jobs := rfl
@[simp] theorem State.parts_modCore (s : State) (n : Nat) (f : CoreState → CoreState) : (s.modCore n f).parts = s.parts := rfl
@[simp] theorem State.saves_modCore (s : State) (n : Nat) (f : CoreState → CoreState) : (s.modCore n f).saves = s.saves := rfl
@[simp] theorem State.nextSave_modCore (s : State) (n : Nat) (f : CoreState → CoreState) : (s.modCore n f).nextSave = s.nextSave := rfl
@[simp] theorem State.schedLog_modCore (s : State) (n : Nat) (f : CoreState → CoreState) : (s.modCore n f).schedLog = s.schedLog := rfl
@[simp] theorem State.dispatchLog_modCore (s : State) (n : Nat) (f : CoreState → CoreState) : (s.modCore n f).dispatchLog = s.dispatchLog := rfl
@[simp] theorem State.deviceLog_modCore (s : State) (n : Nat) (f : CoreState → CoreState) : (s.modCore n f).deviceLog = s.deviceLog := rfl
@[simp] theorem State.dtc_modCore (s : State) (n : Nat) (f : CoreState → CoreState) : (s.modCore n f).dtc = s.dtc := rfl
@[simp] theorem State.trust_modCore (s : State) (n : Nat) (f : CoreState → CoreState) : (s.modCore n f).trust = s.trust := rfl
@[simp] theorem State.health_modCore (s : State) (n : Nat) (f : CoreState → CoreState) : (s.modCore n f).health = s.health := rfl
@[simp] theorem State.links_modCore (s : State) (n : Nat) (f : CoreState → CoreState) : (s.modCore n f).links = s.links := rfl
@[simp] theorem State.outbox_modCore (s : State) (n : Nat) (f : CoreState → CoreState) : (s.modCore n f).outbox = s.outbox := rfl
@[simp] theorem State.cur_modCore (s : State) (n : Nat) (f : CoreState → CoreState) : (s.modCore n f).cur = s.cur := rfl
@[simp] theorem State.turns_modCore (s : State) (n : Nat) (f : CoreState → CoreState) : (s.modCore n f).turns = s.turns := rfl
@[simp] theorem State.tick_modCore (s : State) (n : Nat) (f : CoreState → CoreState) : (s.modCore n f).tick = s.tick := rfl

/-! ### Fields of a bank after `setX` -/

@[simp] theorem Bank.cC_setX (k : Bank) (n : BitVec 6) (v : Word) : (k.setX n v).cC = k.cC := by unfold Bank.setX; split <;> rfl
@[simp] theorem Bank.cG_setX (k : Bank) (n : BitVec 6) (v : Word) : (k.setX n v).cG = k.cG := by unfold Bank.setX; split <;> rfl
@[simp] theorem Bank.lc_setX (k : Bank) (n : BitVec 6) (v : Word) : (k.setX n v).lc = k.lc := by unfold Bank.setX; split <;> rfl
@[simp] theorem Bank.y_setX (k : Bank) (n : BitVec 6) (v : Word) : (k.setX n v).y = k.y := by unfold Bank.setX; split <;> rfl
@[simp] theorem Bank.t_setX (k : Bank) (n : BitVec 6) (v : Word) : (k.setX n v).t = k.t := by unfold Bank.setX; split <;> rfl
@[simp] theorem Bank.m_setX (k : Bank) (n : BitVec 6) (v : Word) : (k.setX n v).m = k.m := by unfold Bank.setX; split <;> rfl
@[simp] theorem Bank.b_setX (k : Bank) (n : BitVec 6) (v : Word) : (k.setX n v).b = k.b := by unfold Bank.setX; split <;> rfl
@[simp] theorem Bank.q_setX (k : Bank) (n : BitVec 6) (v : Word) : (k.setX n v).q = k.q := by unfold Bank.setX; split <;> rfl
@[simp] theorem Bank.fl_setX (k : Bank) (n : BitVec 6) (v : Word) : (k.setX n v).fl = k.fl := by unfold Bank.setX; split <;> rfl
@[simp] theorem Bank.flD_setX (k : Bank) (n : BitVec 6) (v : Word) : (k.setX n v).flD = k.flD := by unfold Bank.setX; split <;> rfl
@[simp] theorem Bank.h_setX (k : Bank) (n : BitVec 6) (v : Word) : (k.setX n v).h = k.h := by unfold Bank.setX; split <;> rfl
@[simp] theorem Bank.chan_setX (k : Bank) (n : BitVec 6) (v : Word) : (k.setX n v).chan = k.chan := by unfold Bank.setX; split <;> rfl
@[simp] theorem Bank.held_setX (k : Bank) (n : BitVec 6) (v : Word) : (k.setX n v).held = k.held := by unfold Bank.setX; split <;> rfl
@[simp] theorem Bank.fpflags_setX (k : Bank) (n : BitVec 6) (v : Word) : (k.setX n v).fpflags = k.fpflags := by unfold Bank.setX; split <;> rfl
@[simp] theorem Bank.roundseed_setX (k : Bank) (n : BitVec 6) (v : Word) : (k.setX n v).roundseed = k.roundseed := by unfold Bank.setX; split <;> rfl
@[simp] theorem Bank.spwin_setX (k : Bank) (n : BitVec 6) (v : Word) : (k.setX n v).spwin = k.spwin := by unfold Bank.setX; split <;> rfl
@[simp] theorem Bank.bfmt_setX (k : Bank) (n : BitVec 6) (v : Word) : (k.setX n v).bfmt = k.bfmt := by unfold Bank.setX; split <;> rfl
@[simp] theorem Bank.plyDense_setX (k : Bank) (n : BitVec 6) (v : Word) : (k.setX n v).plyDense = k.plyDense := by unfold Bank.setX; split <;> rfl
@[simp] theorem Bank.plystat_setX (k : Bank) (n : BitVec 6) (v : Word) : (k.setX n v).plystat = k.plystat := by unfold Bank.setX; split <;> rfl
@[simp] theorem Bank.lwait_setX (k : Bank) (n : BitVec 6) (v : Word) : (k.setX n v).lwait = k.lwait := by unfold Bank.setX; split <;> rfl
@[simp] theorem Bank.stall_setX (k : Bank) (n : BitVec 6) (v : Word) : (k.setX n v).stall = k.stall := by unfold Bank.setX; split <;> rfl
@[simp] theorem Bank.quantum_setX (k : Bank) (n : BitVec 6) (v : Word) : (k.setX n v).quantum = k.quantum := by unfold Bank.setX; split <;> rfl
@[simp] theorem Bank.conflicts_setX (k : Bank) (n : BitVec 6) (v : Word) : (k.setX n v).conflicts = k.conflicts := by unfold Bank.setX; split <;> rfl
@[simp] theorem Bank.status_setX (k : Bank) (n : BitVec 6) (v : Word) : (k.setX n v).status = k.status := by unfold Bank.setX; split <;> rfl
@[simp] theorem Bank.trapcause_setX (k : Bank) (n : BitVec 6) (v : Word) : (k.setX n v).trapcause = k.trapcause := by unfold Bank.setX; split <;> rfl
@[simp] theorem Bank.trappc_setX (k : Bank) (n : BitVec 6) (v : Word) : (k.setX n v).trappc = k.trappc := by unfold Bank.setX; split <;> rfl
@[simp] theorem Bank.trapval_setX (k : Bank) (n : BitVec 6) (v : Word) : (k.setX n v).trapval = k.trapval := by unfold Bank.setX; split <;> rfl
@[simp] theorem Bank.trapvec_setX (k : Bank) (n : BitVec 6) (v : Word) : (k.setX n v).trapvec = k.trapvec := by unfold Bank.setX; split <;> rfl
@[simp] theorem Bank.trapaux_setX (k : Bank) (n : BitVec 6) (v : Word) : (k.setX n v).trapaux = k.trapaux := by unfold Bank.setX; split <;> rfl
@[simp] theorem Bank.asid_setX (k : Bank) (n : BitVec 6) (v : Word) : (k.setX n v).asid = k.asid := by unfold Bank.setX; split <;> rfl
@[simp] theorem Bank.queries_setX (k : Bank) (n : BitVec 6) (v : Word) : (k.setX n v).queries = k.queries := by unfold Bank.setX; split <;> rfl
@[simp] theorem Bank.nextQuery_setX (k : Bank) (n : BitVec 6) (v : Word) : (k.setX n v).nextQuery = k.nextQuery := by unfold Bank.setX; split <;> rfl
@[simp] theorem Bank.attarReq_setX (k : Bank) (n : BitVec 6) (v : Word) : (k.setX n v).attarReq = k.attarReq := by unfold Bank.setX; split <;> rfl
@[simp] theorem Bank.grid_setX (k : Bank) (n : BitVec 6) (v : Word) : (k.setX n v).grid = k.grid := by unfold Bank.setX; split <;> rfl
@[simp] theorem Bank.nextGrid_setX (k : Bank) (n : BitVec 6) (v : Word) : (k.setX n v).nextGrid = k.nextGrid := by unfold Bank.setX; split <;> rfl
@[simp] theorem Bank.gridNum_setX (k : Bank) (n : BitVec 6) (v : Word) : (k.setX n v).gridNum = k.gridNum := by unfold Bank.setX; split <;> rfl
@[simp] theorem Bank.plyNum_setX (k : Bank) (n : BitVec 6) (v : Word) : (k.setX n v).plyNum = k.plyNum := by unfold Bank.setX; split <;> rfl
@[simp] theorem Bank.rdvC_setX (k : Bank) (n : BitVec 6) (v : Word) : (k.setX n v).rdvC = k.rdvC := by unfold Bank.setX; split <;> rfl
@[simp] theorem Bank.rdvG_setX (k : Bank) (n : BitVec 6) (v : Word) : (k.setX n v).rdvG = k.rdvG := by unfold Bank.setX; split <;> rfl
@[simp] theorem Bank.c_setX (k : Bank) (n : BitVec 6) (v : Word) : (k.setX n v).c = k.c := by unfold Bank.setX; split <;> rfl
@[simp] theorem Bank.g_setX (k : Bank) (n : BitVec 6) (v : Word) : (k.setX n v).g = k.g := by unfold Bank.setX; split <;> rfl
@[simp] theorem Bank.outLoads_setX (k : Bank) (n : BitVec 6) (v : Word) : (k.setX n v).outLoads = k.outLoads := by unfold Bank.setX; split <;> rfl
@[simp] theorem Bank.amons_setX (k : Bank) (n : BitVec 6) (v : Word) : (k.setX n v).amons = k.amons := by unfold Bank.setX; split <;> rfl
@[simp] theorem Bank.nextAcc_setX (k : Bank) (n : BitVec 6) (v : Word) : (k.setX n v).nextAcc = k.nextAcc := by unfold Bank.setX; split <;> rfl
@[simp] theorem Bank.observed_setX (k : Bank) (n : BitVec 6) (v : Word) : (k.setX n v).observed = k.observed := by unfold Bank.setX; split <;> rfl
@[simp] theorem Bank.acqPending_setX (k : Bank) (n : BitVec 6) (v : Word) : (k.setX n v).acqPending = k.acqPending := by unfold Bank.setX; split <;> rfl
@[simp] theorem Bank.relFence_setX (k : Bank) (n : BitVec 6) (v : Word) : (k.setX n v).relFence = k.relFence := by unfold Bank.setX; split <;> rfl
@[simp] theorem Bank.pendTrap_setX (k : Bank) (n : BitVec 6) (v : Word) : (k.setX n v).pendTrap = k.pendTrap := by unfold Bank.setX; split <;> rfl
@[simp] theorem Bank.drain_setX (k : Bank) (n : BitVec 6) (v : Word) : (k.setX n v).drain = k.drain := by unfold Bank.setX; split <;> rfl
@[simp] theorem Bank.halted_setX (k : Bank) (n : BitVec 6) (v : Word) : (k.setX n v).halted = k.halted := by unfold Bank.setX; split <;> rfl
@[simp] theorem Bank.preemptAt_setX (k : Bank) (n : BitVec 6) (v : Word) : (k.setX n v).preemptAt = k.preemptAt := by unfold Bank.setX; split <;> rfl
@[simp] theorem Bank.idleSince_setX (k : Bank) (n : BitVec 6) (v : Word) : (k.setX n v).idleSince = k.idleSince := by unfold Bank.setX; split <;> rfl
@[simp] theorem Bank.binding_setX (k : Bank) (n : BitVec 6) (v : Word) : (k.setX n v).binding = k.binding := by unfold Bank.setX; split <;> rfl
@[simp] theorem Bank.image_setX (k : Bank) (n : BitVec 6) (v : Word) : (k.setX n v).image = k.image := by unfold Bank.setX; split <;> rfl
@[simp] theorem Bank.codeC_setX (k : Bank) (n : BitVec 6) (v : Word) : (k.setX n v).codeC = k.codeC := by unfold Bank.setX; split <;> rfl
@[simp] theorem Bank.codeG_setX (k : Bank) (n : BitVec 6) (v : Word) : (k.setX n v).codeG = k.codeG := by unfold Bank.setX; split <;> rfl
@[simp] theorem Bank.ovls_setX (k : Bank) (n : BitVec 6) (v : Word) : (k.setX n v).ovls = k.ovls := by unfold Bank.setX; split <;> rfl

/-! ### Fields of a bank after `setQ` -/

@[simp] theorem Bank.x_setQ (k : Bank) (n : BitVec 3) (v : List Word) : (k.setQ n v).x = k.x := rfl
@[simp] theorem Bank.cC_setQ (k : Bank) (n : BitVec 3) (v : List Word) : (k.setQ n v).cC = k.cC := rfl
@[simp] theorem Bank.cG_setQ (k : Bank) (n : BitVec 3) (v : List Word) : (k.setQ n v).cG = k.cG := rfl
@[simp] theorem Bank.lc_setQ (k : Bank) (n : BitVec 3) (v : List Word) : (k.setQ n v).lc = k.lc := rfl
@[simp] theorem Bank.y_setQ (k : Bank) (n : BitVec 3) (v : List Word) : (k.setQ n v).y = k.y := rfl
@[simp] theorem Bank.t_setQ (k : Bank) (n : BitVec 3) (v : List Word) : (k.setQ n v).t = k.t := rfl
@[simp] theorem Bank.m_setQ (k : Bank) (n : BitVec 3) (v : List Word) : (k.setQ n v).m = k.m := rfl
@[simp] theorem Bank.b_setQ (k : Bank) (n : BitVec 3) (v : List Word) : (k.setQ n v).b = k.b := rfl
@[simp] theorem Bank.fl_setQ (k : Bank) (n : BitVec 3) (v : List Word) : (k.setQ n v).fl = k.fl := rfl
@[simp] theorem Bank.flD_setQ (k : Bank) (n : BitVec 3) (v : List Word) : (k.setQ n v).flD = k.flD := rfl
@[simp] theorem Bank.h_setQ (k : Bank) (n : BitVec 3) (v : List Word) : (k.setQ n v).h = k.h := rfl
@[simp] theorem Bank.chan_setQ (k : Bank) (n : BitVec 3) (v : List Word) : (k.setQ n v).chan = k.chan := rfl
@[simp] theorem Bank.held_setQ (k : Bank) (n : BitVec 3) (v : List Word) : (k.setQ n v).held = k.held := rfl
@[simp] theorem Bank.fpflags_setQ (k : Bank) (n : BitVec 3) (v : List Word) : (k.setQ n v).fpflags = k.fpflags := rfl
@[simp] theorem Bank.roundseed_setQ (k : Bank) (n : BitVec 3) (v : List Word) : (k.setQ n v).roundseed = k.roundseed := rfl
@[simp] theorem Bank.spwin_setQ (k : Bank) (n : BitVec 3) (v : List Word) : (k.setQ n v).spwin = k.spwin := rfl
@[simp] theorem Bank.bfmt_setQ (k : Bank) (n : BitVec 3) (v : List Word) : (k.setQ n v).bfmt = k.bfmt := rfl
@[simp] theorem Bank.plyDense_setQ (k : Bank) (n : BitVec 3) (v : List Word) : (k.setQ n v).plyDense = k.plyDense := rfl
@[simp] theorem Bank.plystat_setQ (k : Bank) (n : BitVec 3) (v : List Word) : (k.setQ n v).plystat = k.plystat := rfl
@[simp] theorem Bank.lwait_setQ (k : Bank) (n : BitVec 3) (v : List Word) : (k.setQ n v).lwait = k.lwait := rfl
@[simp] theorem Bank.stall_setQ (k : Bank) (n : BitVec 3) (v : List Word) : (k.setQ n v).stall = k.stall := rfl
@[simp] theorem Bank.quantum_setQ (k : Bank) (n : BitVec 3) (v : List Word) : (k.setQ n v).quantum = k.quantum := rfl
@[simp] theorem Bank.conflicts_setQ (k : Bank) (n : BitVec 3) (v : List Word) : (k.setQ n v).conflicts = k.conflicts := rfl
@[simp] theorem Bank.status_setQ (k : Bank) (n : BitVec 3) (v : List Word) : (k.setQ n v).status = k.status := rfl
@[simp] theorem Bank.trapcause_setQ (k : Bank) (n : BitVec 3) (v : List Word) : (k.setQ n v).trapcause = k.trapcause := rfl
@[simp] theorem Bank.trappc_setQ (k : Bank) (n : BitVec 3) (v : List Word) : (k.setQ n v).trappc = k.trappc := rfl
@[simp] theorem Bank.trapval_setQ (k : Bank) (n : BitVec 3) (v : List Word) : (k.setQ n v).trapval = k.trapval := rfl
@[simp] theorem Bank.trapvec_setQ (k : Bank) (n : BitVec 3) (v : List Word) : (k.setQ n v).trapvec = k.trapvec := rfl
@[simp] theorem Bank.trapaux_setQ (k : Bank) (n : BitVec 3) (v : List Word) : (k.setQ n v).trapaux = k.trapaux := rfl
@[simp] theorem Bank.asid_setQ (k : Bank) (n : BitVec 3) (v : List Word) : (k.setQ n v).asid = k.asid := rfl
@[simp] theorem Bank.queries_setQ (k : Bank) (n : BitVec 3) (v : List Word) : (k.setQ n v).queries = k.queries := rfl
@[simp] theorem Bank.nextQuery_setQ (k : Bank) (n : BitVec 3) (v : List Word) : (k.setQ n v).nextQuery = k.nextQuery := rfl
@[simp] theorem Bank.attarReq_setQ (k : Bank) (n : BitVec 3) (v : List Word) : (k.setQ n v).attarReq = k.attarReq := rfl
@[simp] theorem Bank.grid_setQ (k : Bank) (n : BitVec 3) (v : List Word) : (k.setQ n v).grid = k.grid := rfl
@[simp] theorem Bank.nextGrid_setQ (k : Bank) (n : BitVec 3) (v : List Word) : (k.setQ n v).nextGrid = k.nextGrid := rfl
@[simp] theorem Bank.gridNum_setQ (k : Bank) (n : BitVec 3) (v : List Word) : (k.setQ n v).gridNum = k.gridNum := rfl
@[simp] theorem Bank.plyNum_setQ (k : Bank) (n : BitVec 3) (v : List Word) : (k.setQ n v).plyNum = k.plyNum := rfl
@[simp] theorem Bank.rdvC_setQ (k : Bank) (n : BitVec 3) (v : List Word) : (k.setQ n v).rdvC = k.rdvC := rfl
@[simp] theorem Bank.rdvG_setQ (k : Bank) (n : BitVec 3) (v : List Word) : (k.setQ n v).rdvG = k.rdvG := rfl
@[simp] theorem Bank.c_setQ (k : Bank) (n : BitVec 3) (v : List Word) : (k.setQ n v).c = k.c := rfl
@[simp] theorem Bank.g_setQ (k : Bank) (n : BitVec 3) (v : List Word) : (k.setQ n v).g = k.g := rfl
@[simp] theorem Bank.outLoads_setQ (k : Bank) (n : BitVec 3) (v : List Word) : (k.setQ n v).outLoads = k.outLoads := rfl
@[simp] theorem Bank.amons_setQ (k : Bank) (n : BitVec 3) (v : List Word) : (k.setQ n v).amons = k.amons := rfl
@[simp] theorem Bank.nextAcc_setQ (k : Bank) (n : BitVec 3) (v : List Word) : (k.setQ n v).nextAcc = k.nextAcc := rfl
@[simp] theorem Bank.observed_setQ (k : Bank) (n : BitVec 3) (v : List Word) : (k.setQ n v).observed = k.observed := rfl
@[simp] theorem Bank.acqPending_setQ (k : Bank) (n : BitVec 3) (v : List Word) : (k.setQ n v).acqPending = k.acqPending := rfl
@[simp] theorem Bank.relFence_setQ (k : Bank) (n : BitVec 3) (v : List Word) : (k.setQ n v).relFence = k.relFence := rfl
@[simp] theorem Bank.pendTrap_setQ (k : Bank) (n : BitVec 3) (v : List Word) : (k.setQ n v).pendTrap = k.pendTrap := rfl
@[simp] theorem Bank.drain_setQ (k : Bank) (n : BitVec 3) (v : List Word) : (k.setQ n v).drain = k.drain := rfl
@[simp] theorem Bank.halted_setQ (k : Bank) (n : BitVec 3) (v : List Word) : (k.setQ n v).halted = k.halted := rfl
@[simp] theorem Bank.preemptAt_setQ (k : Bank) (n : BitVec 3) (v : List Word) : (k.setQ n v).preemptAt = k.preemptAt := rfl
@[simp] theorem Bank.idleSince_setQ (k : Bank) (n : BitVec 3) (v : List Word) : (k.setQ n v).idleSince = k.idleSince := rfl
@[simp] theorem Bank.binding_setQ (k : Bank) (n : BitVec 3) (v : List Word) : (k.setQ n v).binding = k.binding := rfl
@[simp] theorem Bank.image_setQ (k : Bank) (n : BitVec 3) (v : List Word) : (k.setQ n v).image = k.image := rfl
@[simp] theorem Bank.codeC_setQ (k : Bank) (n : BitVec 3) (v : List Word) : (k.setQ n v).codeC = k.codeC := rfl
@[simp] theorem Bank.codeG_setQ (k : Bank) (n : BitVec 3) (v : List Word) : (k.setQ n v).codeG = k.codeG := rfl
@[simp] theorem Bank.ovls_setQ (k : Bank) (n : BitVec 3) (v : List Word) : (k.setQ n v).ovls = k.ovls := rfl

/-! ### Fields of a bank after `setC` -/

@[simp] theorem Bank.x_setC (k : Bank) (n : BitVec 3) (v : Bool) : (k.setC n v).x = k.x := rfl
@[simp] theorem Bank.cG_setC (k : Bank) (n : BitVec 3) (v : Bool) : (k.setC n v).cG = k.cG := rfl
@[simp] theorem Bank.lc_setC (k : Bank) (n : BitVec 3) (v : Bool) : (k.setC n v).lc = k.lc := rfl
@[simp] theorem Bank.y_setC (k : Bank) (n : BitVec 3) (v : Bool) : (k.setC n v).y = k.y := rfl
@[simp] theorem Bank.t_setC (k : Bank) (n : BitVec 3) (v : Bool) : (k.setC n v).t = k.t := rfl
@[simp] theorem Bank.m_setC (k : Bank) (n : BitVec 3) (v : Bool) : (k.setC n v).m = k.m := rfl
@[simp] theorem Bank.b_setC (k : Bank) (n : BitVec 3) (v : Bool) : (k.setC n v).b = k.b := rfl
@[simp] theorem Bank.q_setC (k : Bank) (n : BitVec 3) (v : Bool) : (k.setC n v).q = k.q := rfl
@[simp] theorem Bank.fl_setC (k : Bank) (n : BitVec 3) (v : Bool) : (k.setC n v).fl = k.fl := rfl
@[simp] theorem Bank.flD_setC (k : Bank) (n : BitVec 3) (v : Bool) : (k.setC n v).flD = k.flD := rfl
@[simp] theorem Bank.h_setC (k : Bank) (n : BitVec 3) (v : Bool) : (k.setC n v).h = k.h := rfl
@[simp] theorem Bank.chan_setC (k : Bank) (n : BitVec 3) (v : Bool) : (k.setC n v).chan = k.chan := rfl
@[simp] theorem Bank.held_setC (k : Bank) (n : BitVec 3) (v : Bool) : (k.setC n v).held = k.held := rfl
@[simp] theorem Bank.fpflags_setC (k : Bank) (n : BitVec 3) (v : Bool) : (k.setC n v).fpflags = k.fpflags := rfl
@[simp] theorem Bank.roundseed_setC (k : Bank) (n : BitVec 3) (v : Bool) : (k.setC n v).roundseed = k.roundseed := rfl
@[simp] theorem Bank.spwin_setC (k : Bank) (n : BitVec 3) (v : Bool) : (k.setC n v).spwin = k.spwin := rfl
@[simp] theorem Bank.bfmt_setC (k : Bank) (n : BitVec 3) (v : Bool) : (k.setC n v).bfmt = k.bfmt := rfl
@[simp] theorem Bank.plyDense_setC (k : Bank) (n : BitVec 3) (v : Bool) : (k.setC n v).plyDense = k.plyDense := rfl
@[simp] theorem Bank.plystat_setC (k : Bank) (n : BitVec 3) (v : Bool) : (k.setC n v).plystat = k.plystat := rfl
@[simp] theorem Bank.lwait_setC (k : Bank) (n : BitVec 3) (v : Bool) : (k.setC n v).lwait = k.lwait := rfl
@[simp] theorem Bank.stall_setC (k : Bank) (n : BitVec 3) (v : Bool) : (k.setC n v).stall = k.stall := rfl
@[simp] theorem Bank.quantum_setC (k : Bank) (n : BitVec 3) (v : Bool) : (k.setC n v).quantum = k.quantum := rfl
@[simp] theorem Bank.conflicts_setC (k : Bank) (n : BitVec 3) (v : Bool) : (k.setC n v).conflicts = k.conflicts := rfl
@[simp] theorem Bank.status_setC (k : Bank) (n : BitVec 3) (v : Bool) : (k.setC n v).status = k.status := rfl
@[simp] theorem Bank.trapcause_setC (k : Bank) (n : BitVec 3) (v : Bool) : (k.setC n v).trapcause = k.trapcause := rfl
@[simp] theorem Bank.trappc_setC (k : Bank) (n : BitVec 3) (v : Bool) : (k.setC n v).trappc = k.trappc := rfl
@[simp] theorem Bank.trapval_setC (k : Bank) (n : BitVec 3) (v : Bool) : (k.setC n v).trapval = k.trapval := rfl
@[simp] theorem Bank.trapvec_setC (k : Bank) (n : BitVec 3) (v : Bool) : (k.setC n v).trapvec = k.trapvec := rfl
@[simp] theorem Bank.trapaux_setC (k : Bank) (n : BitVec 3) (v : Bool) : (k.setC n v).trapaux = k.trapaux := rfl
@[simp] theorem Bank.asid_setC (k : Bank) (n : BitVec 3) (v : Bool) : (k.setC n v).asid = k.asid := rfl
@[simp] theorem Bank.queries_setC (k : Bank) (n : BitVec 3) (v : Bool) : (k.setC n v).queries = k.queries := rfl
@[simp] theorem Bank.nextQuery_setC (k : Bank) (n : BitVec 3) (v : Bool) : (k.setC n v).nextQuery = k.nextQuery := rfl
@[simp] theorem Bank.attarReq_setC (k : Bank) (n : BitVec 3) (v : Bool) : (k.setC n v).attarReq = k.attarReq := rfl
@[simp] theorem Bank.grid_setC (k : Bank) (n : BitVec 3) (v : Bool) : (k.setC n v).grid = k.grid := rfl
@[simp] theorem Bank.nextGrid_setC (k : Bank) (n : BitVec 3) (v : Bool) : (k.setC n v).nextGrid = k.nextGrid := rfl
@[simp] theorem Bank.gridNum_setC (k : Bank) (n : BitVec 3) (v : Bool) : (k.setC n v).gridNum = k.gridNum := rfl
@[simp] theorem Bank.plyNum_setC (k : Bank) (n : BitVec 3) (v : Bool) : (k.setC n v).plyNum = k.plyNum := rfl
@[simp] theorem Bank.rdvC_setC (k : Bank) (n : BitVec 3) (v : Bool) : (k.setC n v).rdvC = k.rdvC := rfl
@[simp] theorem Bank.rdvG_setC (k : Bank) (n : BitVec 3) (v : Bool) : (k.setC n v).rdvG = k.rdvG := rfl
@[simp] theorem Bank.c_setC (k : Bank) (n : BitVec 3) (v : Bool) : (k.setC n v).c = k.c := rfl
@[simp] theorem Bank.g_setC (k : Bank) (n : BitVec 3) (v : Bool) : (k.setC n v).g = k.g := rfl
@[simp] theorem Bank.outLoads_setC (k : Bank) (n : BitVec 3) (v : Bool) : (k.setC n v).outLoads = k.outLoads := rfl
@[simp] theorem Bank.amons_setC (k : Bank) (n : BitVec 3) (v : Bool) : (k.setC n v).amons = k.amons := rfl
@[simp] theorem Bank.nextAcc_setC (k : Bank) (n : BitVec 3) (v : Bool) : (k.setC n v).nextAcc = k.nextAcc := rfl
@[simp] theorem Bank.observed_setC (k : Bank) (n : BitVec 3) (v : Bool) : (k.setC n v).observed = k.observed := rfl
@[simp] theorem Bank.acqPending_setC (k : Bank) (n : BitVec 3) (v : Bool) : (k.setC n v).acqPending = k.acqPending := rfl
@[simp] theorem Bank.relFence_setC (k : Bank) (n : BitVec 3) (v : Bool) : (k.setC n v).relFence = k.relFence := rfl
@[simp] theorem Bank.pendTrap_setC (k : Bank) (n : BitVec 3) (v : Bool) : (k.setC n v).pendTrap = k.pendTrap := rfl
@[simp] theorem Bank.drain_setC (k : Bank) (n : BitVec 3) (v : Bool) : (k.setC n v).drain = k.drain := rfl
@[simp] theorem Bank.halted_setC (k : Bank) (n : BitVec 3) (v : Bool) : (k.setC n v).halted = k.halted := rfl
@[simp] theorem Bank.preemptAt_setC (k : Bank) (n : BitVec 3) (v : Bool) : (k.setC n v).preemptAt = k.preemptAt := rfl
@[simp] theorem Bank.idleSince_setC (k : Bank) (n : BitVec 3) (v : Bool) : (k.setC n v).idleSince = k.idleSince := rfl
@[simp] theorem Bank.binding_setC (k : Bank) (n : BitVec 3) (v : Bool) : (k.setC n v).binding = k.binding := rfl
@[simp] theorem Bank.image_setC (k : Bank) (n : BitVec 3) (v : Bool) : (k.setC n v).image = k.image := rfl
@[simp] theorem Bank.codeC_setC (k : Bank) (n : BitVec 3) (v : Bool) : (k.setC n v).codeC = k.codeC := rfl
@[simp] theorem Bank.codeG_setC (k : Bank) (n : BitVec 3) (v : Bool) : (k.setC n v).codeG = k.codeG := rfl
@[simp] theorem Bank.ovls_setC (k : Bank) (n : BitVec 3) (v : Bool) : (k.setC n v).ovls = k.ovls := rfl

/-! ### Fields of a bank after `setB` -/

@[simp] theorem Bank.x_setB (k : Bank) (n : BitVec 4) (v : SpanReg) : (k.setB n v).x = k.x := rfl
@[simp] theorem Bank.cC_setB (k : Bank) (n : BitVec 4) (v : SpanReg) : (k.setB n v).cC = k.cC := rfl
@[simp] theorem Bank.cG_setB (k : Bank) (n : BitVec 4) (v : SpanReg) : (k.setB n v).cG = k.cG := rfl
@[simp] theorem Bank.lc_setB (k : Bank) (n : BitVec 4) (v : SpanReg) : (k.setB n v).lc = k.lc := rfl
@[simp] theorem Bank.y_setB (k : Bank) (n : BitVec 4) (v : SpanReg) : (k.setB n v).y = k.y := rfl
@[simp] theorem Bank.t_setB (k : Bank) (n : BitVec 4) (v : SpanReg) : (k.setB n v).t = k.t := rfl
@[simp] theorem Bank.m_setB (k : Bank) (n : BitVec 4) (v : SpanReg) : (k.setB n v).m = k.m := rfl
@[simp] theorem Bank.q_setB (k : Bank) (n : BitVec 4) (v : SpanReg) : (k.setB n v).q = k.q := rfl
@[simp] theorem Bank.fl_setB (k : Bank) (n : BitVec 4) (v : SpanReg) : (k.setB n v).fl = k.fl := rfl
@[simp] theorem Bank.flD_setB (k : Bank) (n : BitVec 4) (v : SpanReg) : (k.setB n v).flD = k.flD := rfl
@[simp] theorem Bank.h_setB (k : Bank) (n : BitVec 4) (v : SpanReg) : (k.setB n v).h = k.h := rfl
@[simp] theorem Bank.chan_setB (k : Bank) (n : BitVec 4) (v : SpanReg) : (k.setB n v).chan = k.chan := rfl
@[simp] theorem Bank.held_setB (k : Bank) (n : BitVec 4) (v : SpanReg) : (k.setB n v).held = k.held := rfl
@[simp] theorem Bank.fpflags_setB (k : Bank) (n : BitVec 4) (v : SpanReg) : (k.setB n v).fpflags = k.fpflags := rfl
@[simp] theorem Bank.roundseed_setB (k : Bank) (n : BitVec 4) (v : SpanReg) : (k.setB n v).roundseed = k.roundseed := rfl
@[simp] theorem Bank.spwin_setB (k : Bank) (n : BitVec 4) (v : SpanReg) : (k.setB n v).spwin = k.spwin := rfl
@[simp] theorem Bank.bfmt_setB (k : Bank) (n : BitVec 4) (v : SpanReg) : (k.setB n v).bfmt = k.bfmt := rfl
@[simp] theorem Bank.plyDense_setB (k : Bank) (n : BitVec 4) (v : SpanReg) : (k.setB n v).plyDense = k.plyDense := rfl
@[simp] theorem Bank.plystat_setB (k : Bank) (n : BitVec 4) (v : SpanReg) : (k.setB n v).plystat = k.plystat := rfl
@[simp] theorem Bank.lwait_setB (k : Bank) (n : BitVec 4) (v : SpanReg) : (k.setB n v).lwait = k.lwait := rfl
@[simp] theorem Bank.stall_setB (k : Bank) (n : BitVec 4) (v : SpanReg) : (k.setB n v).stall = k.stall := rfl
@[simp] theorem Bank.quantum_setB (k : Bank) (n : BitVec 4) (v : SpanReg) : (k.setB n v).quantum = k.quantum := rfl
@[simp] theorem Bank.conflicts_setB (k : Bank) (n : BitVec 4) (v : SpanReg) : (k.setB n v).conflicts = k.conflicts := rfl
@[simp] theorem Bank.status_setB (k : Bank) (n : BitVec 4) (v : SpanReg) : (k.setB n v).status = k.status := rfl
@[simp] theorem Bank.trapcause_setB (k : Bank) (n : BitVec 4) (v : SpanReg) : (k.setB n v).trapcause = k.trapcause := rfl
@[simp] theorem Bank.trappc_setB (k : Bank) (n : BitVec 4) (v : SpanReg) : (k.setB n v).trappc = k.trappc := rfl
@[simp] theorem Bank.trapval_setB (k : Bank) (n : BitVec 4) (v : SpanReg) : (k.setB n v).trapval = k.trapval := rfl
@[simp] theorem Bank.trapvec_setB (k : Bank) (n : BitVec 4) (v : SpanReg) : (k.setB n v).trapvec = k.trapvec := rfl
@[simp] theorem Bank.trapaux_setB (k : Bank) (n : BitVec 4) (v : SpanReg) : (k.setB n v).trapaux = k.trapaux := rfl
@[simp] theorem Bank.asid_setB (k : Bank) (n : BitVec 4) (v : SpanReg) : (k.setB n v).asid = k.asid := rfl
@[simp] theorem Bank.queries_setB (k : Bank) (n : BitVec 4) (v : SpanReg) : (k.setB n v).queries = k.queries := rfl
@[simp] theorem Bank.nextQuery_setB (k : Bank) (n : BitVec 4) (v : SpanReg) : (k.setB n v).nextQuery = k.nextQuery := rfl
@[simp] theorem Bank.attarReq_setB (k : Bank) (n : BitVec 4) (v : SpanReg) : (k.setB n v).attarReq = k.attarReq := rfl
@[simp] theorem Bank.grid_setB (k : Bank) (n : BitVec 4) (v : SpanReg) : (k.setB n v).grid = k.grid := rfl
@[simp] theorem Bank.nextGrid_setB (k : Bank) (n : BitVec 4) (v : SpanReg) : (k.setB n v).nextGrid = k.nextGrid := rfl
@[simp] theorem Bank.gridNum_setB (k : Bank) (n : BitVec 4) (v : SpanReg) : (k.setB n v).gridNum = k.gridNum := rfl
@[simp] theorem Bank.plyNum_setB (k : Bank) (n : BitVec 4) (v : SpanReg) : (k.setB n v).plyNum = k.plyNum := rfl
@[simp] theorem Bank.rdvC_setB (k : Bank) (n : BitVec 4) (v : SpanReg) : (k.setB n v).rdvC = k.rdvC := rfl
@[simp] theorem Bank.rdvG_setB (k : Bank) (n : BitVec 4) (v : SpanReg) : (k.setB n v).rdvG = k.rdvG := rfl
@[simp] theorem Bank.c_setB (k : Bank) (n : BitVec 4) (v : SpanReg) : (k.setB n v).c = k.c := rfl
@[simp] theorem Bank.g_setB (k : Bank) (n : BitVec 4) (v : SpanReg) : (k.setB n v).g = k.g := rfl
@[simp] theorem Bank.outLoads_setB (k : Bank) (n : BitVec 4) (v : SpanReg) : (k.setB n v).outLoads = k.outLoads := rfl
@[simp] theorem Bank.amons_setB (k : Bank) (n : BitVec 4) (v : SpanReg) : (k.setB n v).amons = k.amons := rfl
@[simp] theorem Bank.nextAcc_setB (k : Bank) (n : BitVec 4) (v : SpanReg) : (k.setB n v).nextAcc = k.nextAcc := rfl
@[simp] theorem Bank.observed_setB (k : Bank) (n : BitVec 4) (v : SpanReg) : (k.setB n v).observed = k.observed := rfl
@[simp] theorem Bank.acqPending_setB (k : Bank) (n : BitVec 4) (v : SpanReg) : (k.setB n v).acqPending = k.acqPending := rfl
@[simp] theorem Bank.relFence_setB (k : Bank) (n : BitVec 4) (v : SpanReg) : (k.setB n v).relFence = k.relFence := rfl
@[simp] theorem Bank.pendTrap_setB (k : Bank) (n : BitVec 4) (v : SpanReg) : (k.setB n v).pendTrap = k.pendTrap := rfl
@[simp] theorem Bank.drain_setB (k : Bank) (n : BitVec 4) (v : SpanReg) : (k.setB n v).drain = k.drain := rfl
@[simp] theorem Bank.halted_setB (k : Bank) (n : BitVec 4) (v : SpanReg) : (k.setB n v).halted = k.halted := rfl
@[simp] theorem Bank.preemptAt_setB (k : Bank) (n : BitVec 4) (v : SpanReg) : (k.setB n v).preemptAt = k.preemptAt := rfl
@[simp] theorem Bank.idleSince_setB (k : Bank) (n : BitVec 4) (v : SpanReg) : (k.setB n v).idleSince = k.idleSince := rfl
@[simp] theorem Bank.binding_setB (k : Bank) (n : BitVec 4) (v : SpanReg) : (k.setB n v).binding = k.binding := rfl
@[simp] theorem Bank.image_setB (k : Bank) (n : BitVec 4) (v : SpanReg) : (k.setB n v).image = k.image := rfl
@[simp] theorem Bank.codeC_setB (k : Bank) (n : BitVec 4) (v : SpanReg) : (k.setB n v).codeC = k.codeC := rfl
@[simp] theorem Bank.codeG_setB (k : Bank) (n : BitVec 4) (v : SpanReg) : (k.setB n v).codeG = k.codeG := rfl
@[simp] theorem Bank.ovls_setB (k : Bank) (n : BitVec 4) (v : SpanReg) : (k.setB n v).ovls = k.ovls := rfl

/-! ### Fields of a bank after `setT` -/

@[simp] theorem Bank.x_setT (k : Bank) (n : BitVec 5) (v : Tensor) : (k.setT n v).x = k.x := rfl
@[simp] theorem Bank.cC_setT (k : Bank) (n : BitVec 5) (v : Tensor) : (k.setT n v).cC = k.cC := rfl
@[simp] theorem Bank.cG_setT (k : Bank) (n : BitVec 5) (v : Tensor) : (k.setT n v).cG = k.cG := rfl
@[simp] theorem Bank.lc_setT (k : Bank) (n : BitVec 5) (v : Tensor) : (k.setT n v).lc = k.lc := rfl
@[simp] theorem Bank.y_setT (k : Bank) (n : BitVec 5) (v : Tensor) : (k.setT n v).y = k.y := rfl
@[simp] theorem Bank.m_setT (k : Bank) (n : BitVec 5) (v : Tensor) : (k.setT n v).m = k.m := rfl
@[simp] theorem Bank.b_setT (k : Bank) (n : BitVec 5) (v : Tensor) : (k.setT n v).b = k.b := rfl
@[simp] theorem Bank.q_setT (k : Bank) (n : BitVec 5) (v : Tensor) : (k.setT n v).q = k.q := rfl
@[simp] theorem Bank.fl_setT (k : Bank) (n : BitVec 5) (v : Tensor) : (k.setT n v).fl = k.fl := rfl
@[simp] theorem Bank.flD_setT (k : Bank) (n : BitVec 5) (v : Tensor) : (k.setT n v).flD = k.flD := rfl
@[simp] theorem Bank.h_setT (k : Bank) (n : BitVec 5) (v : Tensor) : (k.setT n v).h = k.h := rfl
@[simp] theorem Bank.chan_setT (k : Bank) (n : BitVec 5) (v : Tensor) : (k.setT n v).chan = k.chan := rfl
@[simp] theorem Bank.held_setT (k : Bank) (n : BitVec 5) (v : Tensor) : (k.setT n v).held = k.held := rfl
@[simp] theorem Bank.fpflags_setT (k : Bank) (n : BitVec 5) (v : Tensor) : (k.setT n v).fpflags = k.fpflags := rfl
@[simp] theorem Bank.roundseed_setT (k : Bank) (n : BitVec 5) (v : Tensor) : (k.setT n v).roundseed = k.roundseed := rfl
@[simp] theorem Bank.spwin_setT (k : Bank) (n : BitVec 5) (v : Tensor) : (k.setT n v).spwin = k.spwin := rfl
@[simp] theorem Bank.bfmt_setT (k : Bank) (n : BitVec 5) (v : Tensor) : (k.setT n v).bfmt = k.bfmt := rfl
@[simp] theorem Bank.plyDense_setT (k : Bank) (n : BitVec 5) (v : Tensor) : (k.setT n v).plyDense = k.plyDense := rfl
@[simp] theorem Bank.plystat_setT (k : Bank) (n : BitVec 5) (v : Tensor) : (k.setT n v).plystat = k.plystat := rfl
@[simp] theorem Bank.lwait_setT (k : Bank) (n : BitVec 5) (v : Tensor) : (k.setT n v).lwait = k.lwait := rfl
@[simp] theorem Bank.stall_setT (k : Bank) (n : BitVec 5) (v : Tensor) : (k.setT n v).stall = k.stall := rfl
@[simp] theorem Bank.quantum_setT (k : Bank) (n : BitVec 5) (v : Tensor) : (k.setT n v).quantum = k.quantum := rfl
@[simp] theorem Bank.conflicts_setT (k : Bank) (n : BitVec 5) (v : Tensor) : (k.setT n v).conflicts = k.conflicts := rfl
@[simp] theorem Bank.status_setT (k : Bank) (n : BitVec 5) (v : Tensor) : (k.setT n v).status = k.status := rfl
@[simp] theorem Bank.trapcause_setT (k : Bank) (n : BitVec 5) (v : Tensor) : (k.setT n v).trapcause = k.trapcause := rfl
@[simp] theorem Bank.trappc_setT (k : Bank) (n : BitVec 5) (v : Tensor) : (k.setT n v).trappc = k.trappc := rfl
@[simp] theorem Bank.trapval_setT (k : Bank) (n : BitVec 5) (v : Tensor) : (k.setT n v).trapval = k.trapval := rfl
@[simp] theorem Bank.trapvec_setT (k : Bank) (n : BitVec 5) (v : Tensor) : (k.setT n v).trapvec = k.trapvec := rfl
@[simp] theorem Bank.trapaux_setT (k : Bank) (n : BitVec 5) (v : Tensor) : (k.setT n v).trapaux = k.trapaux := rfl
@[simp] theorem Bank.asid_setT (k : Bank) (n : BitVec 5) (v : Tensor) : (k.setT n v).asid = k.asid := rfl
@[simp] theorem Bank.queries_setT (k : Bank) (n : BitVec 5) (v : Tensor) : (k.setT n v).queries = k.queries := rfl
@[simp] theorem Bank.nextQuery_setT (k : Bank) (n : BitVec 5) (v : Tensor) : (k.setT n v).nextQuery = k.nextQuery := rfl
@[simp] theorem Bank.attarReq_setT (k : Bank) (n : BitVec 5) (v : Tensor) : (k.setT n v).attarReq = k.attarReq := rfl
@[simp] theorem Bank.grid_setT (k : Bank) (n : BitVec 5) (v : Tensor) : (k.setT n v).grid = k.grid := rfl
@[simp] theorem Bank.nextGrid_setT (k : Bank) (n : BitVec 5) (v : Tensor) : (k.setT n v).nextGrid = k.nextGrid := rfl
@[simp] theorem Bank.gridNum_setT (k : Bank) (n : BitVec 5) (v : Tensor) : (k.setT n v).gridNum = k.gridNum := rfl
@[simp] theorem Bank.plyNum_setT (k : Bank) (n : BitVec 5) (v : Tensor) : (k.setT n v).plyNum = k.plyNum := rfl
@[simp] theorem Bank.rdvC_setT (k : Bank) (n : BitVec 5) (v : Tensor) : (k.setT n v).rdvC = k.rdvC := rfl
@[simp] theorem Bank.rdvG_setT (k : Bank) (n : BitVec 5) (v : Tensor) : (k.setT n v).rdvG = k.rdvG := rfl
@[simp] theorem Bank.c_setT (k : Bank) (n : BitVec 5) (v : Tensor) : (k.setT n v).c = k.c := rfl
@[simp] theorem Bank.g_setT (k : Bank) (n : BitVec 5) (v : Tensor) : (k.setT n v).g = k.g := rfl
@[simp] theorem Bank.outLoads_setT (k : Bank) (n : BitVec 5) (v : Tensor) : (k.setT n v).outLoads = k.outLoads := rfl
@[simp] theorem Bank.amons_setT (k : Bank) (n : BitVec 5) (v : Tensor) : (k.setT n v).amons = k.amons := rfl
@[simp] theorem Bank.nextAcc_setT (k : Bank) (n : BitVec 5) (v : Tensor) : (k.setT n v).nextAcc = k.nextAcc := rfl
@[simp] theorem Bank.observed_setT (k : Bank) (n : BitVec 5) (v : Tensor) : (k.setT n v).observed = k.observed := rfl
@[simp] theorem Bank.acqPending_setT (k : Bank) (n : BitVec 5) (v : Tensor) : (k.setT n v).acqPending = k.acqPending := rfl
@[simp] theorem Bank.relFence_setT (k : Bank) (n : BitVec 5) (v : Tensor) : (k.setT n v).relFence = k.relFence := rfl
@[simp] theorem Bank.pendTrap_setT (k : Bank) (n : BitVec 5) (v : Tensor) : (k.setT n v).pendTrap = k.pendTrap := rfl
@[simp] theorem Bank.drain_setT (k : Bank) (n : BitVec 5) (v : Tensor) : (k.setT n v).drain = k.drain := rfl
@[simp] theorem Bank.halted_setT (k : Bank) (n : BitVec 5) (v : Tensor) : (k.setT n v).halted = k.halted := rfl
@[simp] theorem Bank.preemptAt_setT (k : Bank) (n : BitVec 5) (v : Tensor) : (k.setT n v).preemptAt = k.preemptAt := rfl
@[simp] theorem Bank.idleSince_setT (k : Bank) (n : BitVec 5) (v : Tensor) : (k.setT n v).idleSince = k.idleSince := rfl
@[simp] theorem Bank.binding_setT (k : Bank) (n : BitVec 5) (v : Tensor) : (k.setT n v).binding = k.binding := rfl
@[simp] theorem Bank.image_setT (k : Bank) (n : BitVec 5) (v : Tensor) : (k.setT n v).image = k.image := rfl
@[simp] theorem Bank.codeC_setT (k : Bank) (n : BitVec 5) (v : Tensor) : (k.setT n v).codeC = k.codeC := rfl
@[simp] theorem Bank.codeG_setT (k : Bank) (n : BitVec 5) (v : Tensor) : (k.setT n v).codeG = k.codeG := rfl
@[simp] theorem Bank.ovls_setT (k : Bank) (n : BitVec 5) (v : Tensor) : (k.setT n v).ovls = k.ovls := rfl

/-! ### Fields of a bank after `setFl` -/

@[simp] theorem Bank.x_setFl (k : Bank) (n : BitVec 4) (v : Bool) (d : List Nat) : (k.setFl n v d).x = k.x := rfl
@[simp] theorem Bank.cC_setFl (k : Bank) (n : BitVec 4) (v : Bool) (d : List Nat) : (k.setFl n v d).cC = k.cC := rfl
@[simp] theorem Bank.cG_setFl (k : Bank) (n : BitVec 4) (v : Bool) (d : List Nat) : (k.setFl n v d).cG = k.cG := rfl
@[simp] theorem Bank.lc_setFl (k : Bank) (n : BitVec 4) (v : Bool) (d : List Nat) : (k.setFl n v d).lc = k.lc := rfl
@[simp] theorem Bank.y_setFl (k : Bank) (n : BitVec 4) (v : Bool) (d : List Nat) : (k.setFl n v d).y = k.y := rfl
@[simp] theorem Bank.t_setFl (k : Bank) (n : BitVec 4) (v : Bool) (d : List Nat) : (k.setFl n v d).t = k.t := rfl
@[simp] theorem Bank.m_setFl (k : Bank) (n : BitVec 4) (v : Bool) (d : List Nat) : (k.setFl n v d).m = k.m := rfl
@[simp] theorem Bank.b_setFl (k : Bank) (n : BitVec 4) (v : Bool) (d : List Nat) : (k.setFl n v d).b = k.b := rfl
@[simp] theorem Bank.q_setFl (k : Bank) (n : BitVec 4) (v : Bool) (d : List Nat) : (k.setFl n v d).q = k.q := rfl
@[simp] theorem Bank.h_setFl (k : Bank) (n : BitVec 4) (v : Bool) (d : List Nat) : (k.setFl n v d).h = k.h := rfl
@[simp] theorem Bank.chan_setFl (k : Bank) (n : BitVec 4) (v : Bool) (d : List Nat) : (k.setFl n v d).chan = k.chan := rfl
@[simp] theorem Bank.held_setFl (k : Bank) (n : BitVec 4) (v : Bool) (d : List Nat) : (k.setFl n v d).held = k.held := rfl
@[simp] theorem Bank.fpflags_setFl (k : Bank) (n : BitVec 4) (v : Bool) (d : List Nat) : (k.setFl n v d).fpflags = k.fpflags := rfl
@[simp] theorem Bank.roundseed_setFl (k : Bank) (n : BitVec 4) (v : Bool) (d : List Nat) : (k.setFl n v d).roundseed = k.roundseed := rfl
@[simp] theorem Bank.spwin_setFl (k : Bank) (n : BitVec 4) (v : Bool) (d : List Nat) : (k.setFl n v d).spwin = k.spwin := rfl
@[simp] theorem Bank.bfmt_setFl (k : Bank) (n : BitVec 4) (v : Bool) (d : List Nat) : (k.setFl n v d).bfmt = k.bfmt := rfl
@[simp] theorem Bank.plyDense_setFl (k : Bank) (n : BitVec 4) (v : Bool) (d : List Nat) : (k.setFl n v d).plyDense = k.plyDense := rfl
@[simp] theorem Bank.plystat_setFl (k : Bank) (n : BitVec 4) (v : Bool) (d : List Nat) : (k.setFl n v d).plystat = k.plystat := rfl
@[simp] theorem Bank.lwait_setFl (k : Bank) (n : BitVec 4) (v : Bool) (d : List Nat) : (k.setFl n v d).lwait = k.lwait := rfl
@[simp] theorem Bank.stall_setFl (k : Bank) (n : BitVec 4) (v : Bool) (d : List Nat) : (k.setFl n v d).stall = k.stall := rfl
@[simp] theorem Bank.quantum_setFl (k : Bank) (n : BitVec 4) (v : Bool) (d : List Nat) : (k.setFl n v d).quantum = k.quantum := rfl
@[simp] theorem Bank.conflicts_setFl (k : Bank) (n : BitVec 4) (v : Bool) (d : List Nat) : (k.setFl n v d).conflicts = k.conflicts := rfl
@[simp] theorem Bank.status_setFl (k : Bank) (n : BitVec 4) (v : Bool) (d : List Nat) : (k.setFl n v d).status = k.status := rfl
@[simp] theorem Bank.trapcause_setFl (k : Bank) (n : BitVec 4) (v : Bool) (d : List Nat) : (k.setFl n v d).trapcause = k.trapcause := rfl
@[simp] theorem Bank.trappc_setFl (k : Bank) (n : BitVec 4) (v : Bool) (d : List Nat) : (k.setFl n v d).trappc = k.trappc := rfl
@[simp] theorem Bank.trapval_setFl (k : Bank) (n : BitVec 4) (v : Bool) (d : List Nat) : (k.setFl n v d).trapval = k.trapval := rfl
@[simp] theorem Bank.trapvec_setFl (k : Bank) (n : BitVec 4) (v : Bool) (d : List Nat) : (k.setFl n v d).trapvec = k.trapvec := rfl
@[simp] theorem Bank.trapaux_setFl (k : Bank) (n : BitVec 4) (v : Bool) (d : List Nat) : (k.setFl n v d).trapaux = k.trapaux := rfl
@[simp] theorem Bank.asid_setFl (k : Bank) (n : BitVec 4) (v : Bool) (d : List Nat) : (k.setFl n v d).asid = k.asid := rfl
@[simp] theorem Bank.queries_setFl (k : Bank) (n : BitVec 4) (v : Bool) (d : List Nat) : (k.setFl n v d).queries = k.queries := rfl
@[simp] theorem Bank.nextQuery_setFl (k : Bank) (n : BitVec 4) (v : Bool) (d : List Nat) : (k.setFl n v d).nextQuery = k.nextQuery := rfl
@[simp] theorem Bank.attarReq_setFl (k : Bank) (n : BitVec 4) (v : Bool) (d : List Nat) : (k.setFl n v d).attarReq = k.attarReq := rfl
@[simp] theorem Bank.grid_setFl (k : Bank) (n : BitVec 4) (v : Bool) (d : List Nat) : (k.setFl n v d).grid = k.grid := rfl
@[simp] theorem Bank.nextGrid_setFl (k : Bank) (n : BitVec 4) (v : Bool) (d : List Nat) : (k.setFl n v d).nextGrid = k.nextGrid := rfl
@[simp] theorem Bank.gridNum_setFl (k : Bank) (n : BitVec 4) (v : Bool) (d : List Nat) : (k.setFl n v d).gridNum = k.gridNum := rfl
@[simp] theorem Bank.plyNum_setFl (k : Bank) (n : BitVec 4) (v : Bool) (d : List Nat) : (k.setFl n v d).plyNum = k.plyNum := rfl
@[simp] theorem Bank.rdvC_setFl (k : Bank) (n : BitVec 4) (v : Bool) (d : List Nat) : (k.setFl n v d).rdvC = k.rdvC := rfl
@[simp] theorem Bank.rdvG_setFl (k : Bank) (n : BitVec 4) (v : Bool) (d : List Nat) : (k.setFl n v d).rdvG = k.rdvG := rfl
@[simp] theorem Bank.c_setFl (k : Bank) (n : BitVec 4) (v : Bool) (d : List Nat) : (k.setFl n v d).c = k.c := rfl
@[simp] theorem Bank.g_setFl (k : Bank) (n : BitVec 4) (v : Bool) (d : List Nat) : (k.setFl n v d).g = k.g := rfl
@[simp] theorem Bank.outLoads_setFl (k : Bank) (n : BitVec 4) (v : Bool) (d : List Nat) : (k.setFl n v d).outLoads = k.outLoads := rfl
@[simp] theorem Bank.amons_setFl (k : Bank) (n : BitVec 4) (v : Bool) (d : List Nat) : (k.setFl n v d).amons = k.amons := rfl
@[simp] theorem Bank.nextAcc_setFl (k : Bank) (n : BitVec 4) (v : Bool) (d : List Nat) : (k.setFl n v d).nextAcc = k.nextAcc := rfl
@[simp] theorem Bank.observed_setFl (k : Bank) (n : BitVec 4) (v : Bool) (d : List Nat) : (k.setFl n v d).observed = k.observed := rfl
@[simp] theorem Bank.acqPending_setFl (k : Bank) (n : BitVec 4) (v : Bool) (d : List Nat) : (k.setFl n v d).acqPending = k.acqPending := rfl
@[simp] theorem Bank.relFence_setFl (k : Bank) (n : BitVec 4) (v : Bool) (d : List Nat) : (k.setFl n v d).relFence = k.relFence := rfl
@[simp] theorem Bank.pendTrap_setFl (k : Bank) (n : BitVec 4) (v : Bool) (d : List Nat) : (k.setFl n v d).pendTrap = k.pendTrap := rfl
@[simp] theorem Bank.drain_setFl (k : Bank) (n : BitVec 4) (v : Bool) (d : List Nat) : (k.setFl n v d).drain = k.drain := rfl
@[simp] theorem Bank.halted_setFl (k : Bank) (n : BitVec 4) (v : Bool) (d : List Nat) : (k.setFl n v d).halted = k.halted := rfl
@[simp] theorem Bank.preemptAt_setFl (k : Bank) (n : BitVec 4) (v : Bool) (d : List Nat) : (k.setFl n v d).preemptAt = k.preemptAt := rfl
@[simp] theorem Bank.idleSince_setFl (k : Bank) (n : BitVec 4) (v : Bool) (d : List Nat) : (k.setFl n v d).idleSince = k.idleSince := rfl
@[simp] theorem Bank.binding_setFl (k : Bank) (n : BitVec 4) (v : Bool) (d : List Nat) : (k.setFl n v d).binding = k.binding := rfl
@[simp] theorem Bank.image_setFl (k : Bank) (n : BitVec 4) (v : Bool) (d : List Nat) : (k.setFl n v d).image = k.image := rfl
@[simp] theorem Bank.codeC_setFl (k : Bank) (n : BitVec 4) (v : Bool) (d : List Nat) : (k.setFl n v d).codeC = k.codeC := rfl
@[simp] theorem Bank.codeG_setFl (k : Bank) (n : BitVec 4) (v : Bool) (d : List Nat) : (k.setFl n v d).codeG = k.codeG := rfl
@[simp] theorem Bank.ovls_setFl (k : Bank) (n : BitVec 4) (v : Bool) (d : List Nat) : (k.setFl n v d).ovls = k.ovls := rfl

/-! ### Fields of a bank after `setH` -/

@[simp] theorem Bank.x_setH (k : Bank) (n : BitVec 4) (v : Hank) : (k.setH n v).x = k.x := rfl
@[simp] theorem Bank.cC_setH (k : Bank) (n : BitVec 4) (v : Hank) : (k.setH n v).cC = k.cC := rfl
@[simp] theorem Bank.cG_setH (k : Bank) (n : BitVec 4) (v : Hank) : (k.setH n v).cG = k.cG := rfl
@[simp] theorem Bank.lc_setH (k : Bank) (n : BitVec 4) (v : Hank) : (k.setH n v).lc = k.lc := rfl
@[simp] theorem Bank.y_setH (k : Bank) (n : BitVec 4) (v : Hank) : (k.setH n v).y = k.y := rfl
@[simp] theorem Bank.t_setH (k : Bank) (n : BitVec 4) (v : Hank) : (k.setH n v).t = k.t := rfl
@[simp] theorem Bank.m_setH (k : Bank) (n : BitVec 4) (v : Hank) : (k.setH n v).m = k.m := rfl
@[simp] theorem Bank.b_setH (k : Bank) (n : BitVec 4) (v : Hank) : (k.setH n v).b = k.b := rfl
@[simp] theorem Bank.q_setH (k : Bank) (n : BitVec 4) (v : Hank) : (k.setH n v).q = k.q := rfl
@[simp] theorem Bank.fl_setH (k : Bank) (n : BitVec 4) (v : Hank) : (k.setH n v).fl = k.fl := rfl
@[simp] theorem Bank.flD_setH (k : Bank) (n : BitVec 4) (v : Hank) : (k.setH n v).flD = k.flD := rfl
@[simp] theorem Bank.chan_setH (k : Bank) (n : BitVec 4) (v : Hank) : (k.setH n v).chan = k.chan := rfl
@[simp] theorem Bank.held_setH (k : Bank) (n : BitVec 4) (v : Hank) : (k.setH n v).held = k.held := rfl
@[simp] theorem Bank.fpflags_setH (k : Bank) (n : BitVec 4) (v : Hank) : (k.setH n v).fpflags = k.fpflags := rfl
@[simp] theorem Bank.roundseed_setH (k : Bank) (n : BitVec 4) (v : Hank) : (k.setH n v).roundseed = k.roundseed := rfl
@[simp] theorem Bank.spwin_setH (k : Bank) (n : BitVec 4) (v : Hank) : (k.setH n v).spwin = k.spwin := rfl
@[simp] theorem Bank.bfmt_setH (k : Bank) (n : BitVec 4) (v : Hank) : (k.setH n v).bfmt = k.bfmt := rfl
@[simp] theorem Bank.plyDense_setH (k : Bank) (n : BitVec 4) (v : Hank) : (k.setH n v).plyDense = k.plyDense := rfl
@[simp] theorem Bank.plystat_setH (k : Bank) (n : BitVec 4) (v : Hank) : (k.setH n v).plystat = k.plystat := rfl
@[simp] theorem Bank.lwait_setH (k : Bank) (n : BitVec 4) (v : Hank) : (k.setH n v).lwait = k.lwait := rfl
@[simp] theorem Bank.stall_setH (k : Bank) (n : BitVec 4) (v : Hank) : (k.setH n v).stall = k.stall := rfl
@[simp] theorem Bank.quantum_setH (k : Bank) (n : BitVec 4) (v : Hank) : (k.setH n v).quantum = k.quantum := rfl
@[simp] theorem Bank.conflicts_setH (k : Bank) (n : BitVec 4) (v : Hank) : (k.setH n v).conflicts = k.conflicts := rfl
@[simp] theorem Bank.status_setH (k : Bank) (n : BitVec 4) (v : Hank) : (k.setH n v).status = k.status := rfl
@[simp] theorem Bank.trapcause_setH (k : Bank) (n : BitVec 4) (v : Hank) : (k.setH n v).trapcause = k.trapcause := rfl
@[simp] theorem Bank.trappc_setH (k : Bank) (n : BitVec 4) (v : Hank) : (k.setH n v).trappc = k.trappc := rfl
@[simp] theorem Bank.trapval_setH (k : Bank) (n : BitVec 4) (v : Hank) : (k.setH n v).trapval = k.trapval := rfl
@[simp] theorem Bank.trapvec_setH (k : Bank) (n : BitVec 4) (v : Hank) : (k.setH n v).trapvec = k.trapvec := rfl
@[simp] theorem Bank.trapaux_setH (k : Bank) (n : BitVec 4) (v : Hank) : (k.setH n v).trapaux = k.trapaux := rfl
@[simp] theorem Bank.asid_setH (k : Bank) (n : BitVec 4) (v : Hank) : (k.setH n v).asid = k.asid := rfl
@[simp] theorem Bank.queries_setH (k : Bank) (n : BitVec 4) (v : Hank) : (k.setH n v).queries = k.queries := rfl
@[simp] theorem Bank.nextQuery_setH (k : Bank) (n : BitVec 4) (v : Hank) : (k.setH n v).nextQuery = k.nextQuery := rfl
@[simp] theorem Bank.attarReq_setH (k : Bank) (n : BitVec 4) (v : Hank) : (k.setH n v).attarReq = k.attarReq := rfl
@[simp] theorem Bank.grid_setH (k : Bank) (n : BitVec 4) (v : Hank) : (k.setH n v).grid = k.grid := rfl
@[simp] theorem Bank.nextGrid_setH (k : Bank) (n : BitVec 4) (v : Hank) : (k.setH n v).nextGrid = k.nextGrid := rfl
@[simp] theorem Bank.gridNum_setH (k : Bank) (n : BitVec 4) (v : Hank) : (k.setH n v).gridNum = k.gridNum := rfl
@[simp] theorem Bank.plyNum_setH (k : Bank) (n : BitVec 4) (v : Hank) : (k.setH n v).plyNum = k.plyNum := rfl
@[simp] theorem Bank.rdvC_setH (k : Bank) (n : BitVec 4) (v : Hank) : (k.setH n v).rdvC = k.rdvC := rfl
@[simp] theorem Bank.rdvG_setH (k : Bank) (n : BitVec 4) (v : Hank) : (k.setH n v).rdvG = k.rdvG := rfl
@[simp] theorem Bank.c_setH (k : Bank) (n : BitVec 4) (v : Hank) : (k.setH n v).c = k.c := rfl
@[simp] theorem Bank.g_setH (k : Bank) (n : BitVec 4) (v : Hank) : (k.setH n v).g = k.g := rfl
@[simp] theorem Bank.outLoads_setH (k : Bank) (n : BitVec 4) (v : Hank) : (k.setH n v).outLoads = k.outLoads := rfl
@[simp] theorem Bank.amons_setH (k : Bank) (n : BitVec 4) (v : Hank) : (k.setH n v).amons = k.amons := rfl
@[simp] theorem Bank.nextAcc_setH (k : Bank) (n : BitVec 4) (v : Hank) : (k.setH n v).nextAcc = k.nextAcc := rfl
@[simp] theorem Bank.observed_setH (k : Bank) (n : BitVec 4) (v : Hank) : (k.setH n v).observed = k.observed := rfl
@[simp] theorem Bank.acqPending_setH (k : Bank) (n : BitVec 4) (v : Hank) : (k.setH n v).acqPending = k.acqPending := rfl
@[simp] theorem Bank.relFence_setH (k : Bank) (n : BitVec 4) (v : Hank) : (k.setH n v).relFence = k.relFence := rfl
@[simp] theorem Bank.pendTrap_setH (k : Bank) (n : BitVec 4) (v : Hank) : (k.setH n v).pendTrap = k.pendTrap := rfl
@[simp] theorem Bank.drain_setH (k : Bank) (n : BitVec 4) (v : Hank) : (k.setH n v).drain = k.drain := rfl
@[simp] theorem Bank.halted_setH (k : Bank) (n : BitVec 4) (v : Hank) : (k.setH n v).halted = k.halted := rfl
@[simp] theorem Bank.preemptAt_setH (k : Bank) (n : BitVec 4) (v : Hank) : (k.setH n v).preemptAt = k.preemptAt := rfl
@[simp] theorem Bank.idleSince_setH (k : Bank) (n : BitVec 4) (v : Hank) : (k.setH n v).idleSince = k.idleSince := rfl
@[simp] theorem Bank.binding_setH (k : Bank) (n : BitVec 4) (v : Hank) : (k.setH n v).binding = k.binding := rfl
@[simp] theorem Bank.image_setH (k : Bank) (n : BitVec 4) (v : Hank) : (k.setH n v).image = k.image := rfl
@[simp] theorem Bank.codeC_setH (k : Bank) (n : BitVec 4) (v : Hank) : (k.setH n v).codeC = k.codeC := rfl
@[simp] theorem Bank.codeG_setH (k : Bank) (n : BitVec 4) (v : Hank) : (k.setH n v).codeG = k.codeG := rfl
@[simp] theorem Bank.ovls_setH (k : Bank) (n : BitVec 4) (v : Hank) : (k.setH n v).ovls = k.ovls := rfl

/-! ### Fields of a bank after `fallC` -/

@[simp] theorem Bank.x_fallC (k : Bank) (npc : Word) : (k.fallC npc).x = k.x := rfl
@[simp] theorem Bank.cC_fallC (k : Bank) (npc : Word) : (k.fallC npc).cC = k.cC := rfl
@[simp] theorem Bank.cG_fallC (k : Bank) (npc : Word) : (k.fallC npc).cG = k.cG := rfl
@[simp] theorem Bank.y_fallC (k : Bank) (npc : Word) : (k.fallC npc).y = k.y := rfl
@[simp] theorem Bank.t_fallC (k : Bank) (npc : Word) : (k.fallC npc).t = k.t := rfl
@[simp] theorem Bank.m_fallC (k : Bank) (npc : Word) : (k.fallC npc).m = k.m := rfl
@[simp] theorem Bank.b_fallC (k : Bank) (npc : Word) : (k.fallC npc).b = k.b := rfl
@[simp] theorem Bank.q_fallC (k : Bank) (npc : Word) : (k.fallC npc).q = k.q := rfl
@[simp] theorem Bank.fl_fallC (k : Bank) (npc : Word) : (k.fallC npc).fl = k.fl := rfl
@[simp] theorem Bank.flD_fallC (k : Bank) (npc : Word) : (k.fallC npc).flD = k.flD := rfl
@[simp] theorem Bank.h_fallC (k : Bank) (npc : Word) : (k.fallC npc).h = k.h := rfl
@[simp] theorem Bank.chan_fallC (k : Bank) (npc : Word) : (k.fallC npc).chan = k.chan := rfl
@[simp] theorem Bank.held_fallC (k : Bank) (npc : Word) : (k.fallC npc).held = k.held := rfl
@[simp] theorem Bank.fpflags_fallC (k : Bank) (npc : Word) : (k.fallC npc).fpflags = k.fpflags := rfl
@[simp] theorem Bank.roundseed_fallC (k : Bank) (npc : Word) : (k.fallC npc).roundseed = k.roundseed := rfl
@[simp] theorem Bank.spwin_fallC (k : Bank) (npc : Word) : (k.fallC npc).spwin = k.spwin := rfl
@[simp] theorem Bank.bfmt_fallC (k : Bank) (npc : Word) : (k.fallC npc).bfmt = k.bfmt := rfl
@[simp] theorem Bank.plyDense_fallC (k : Bank) (npc : Word) : (k.fallC npc).plyDense = k.plyDense := rfl
@[simp] theorem Bank.plystat_fallC (k : Bank) (npc : Word) : (k.fallC npc).plystat = k.plystat := rfl
@[simp] theorem Bank.lwait_fallC (k : Bank) (npc : Word) : (k.fallC npc).lwait = k.lwait := rfl
@[simp] theorem Bank.stall_fallC (k : Bank) (npc : Word) : (k.fallC npc).stall = k.stall := rfl
@[simp] theorem Bank.quantum_fallC (k : Bank) (npc : Word) : (k.fallC npc).quantum = k.quantum := rfl
@[simp] theorem Bank.conflicts_fallC (k : Bank) (npc : Word) : (k.fallC npc).conflicts = k.conflicts := rfl
@[simp] theorem Bank.status_fallC (k : Bank) (npc : Word) : (k.fallC npc).status = k.status := rfl
@[simp] theorem Bank.trapcause_fallC (k : Bank) (npc : Word) : (k.fallC npc).trapcause = k.trapcause := rfl
@[simp] theorem Bank.trappc_fallC (k : Bank) (npc : Word) : (k.fallC npc).trappc = k.trappc := rfl
@[simp] theorem Bank.trapval_fallC (k : Bank) (npc : Word) : (k.fallC npc).trapval = k.trapval := rfl
@[simp] theorem Bank.trapvec_fallC (k : Bank) (npc : Word) : (k.fallC npc).trapvec = k.trapvec := rfl
@[simp] theorem Bank.trapaux_fallC (k : Bank) (npc : Word) : (k.fallC npc).trapaux = k.trapaux := rfl
@[simp] theorem Bank.asid_fallC (k : Bank) (npc : Word) : (k.fallC npc).asid = k.asid := rfl
@[simp] theorem Bank.queries_fallC (k : Bank) (npc : Word) : (k.fallC npc).queries = k.queries := rfl
@[simp] theorem Bank.nextQuery_fallC (k : Bank) (npc : Word) : (k.fallC npc).nextQuery = k.nextQuery := rfl
@[simp] theorem Bank.attarReq_fallC (k : Bank) (npc : Word) : (k.fallC npc).attarReq = k.attarReq := rfl
@[simp] theorem Bank.grid_fallC (k : Bank) (npc : Word) : (k.fallC npc).grid = k.grid := rfl
@[simp] theorem Bank.nextGrid_fallC (k : Bank) (npc : Word) : (k.fallC npc).nextGrid = k.nextGrid := rfl
@[simp] theorem Bank.gridNum_fallC (k : Bank) (npc : Word) : (k.fallC npc).gridNum = k.gridNum := rfl
@[simp] theorem Bank.plyNum_fallC (k : Bank) (npc : Word) : (k.fallC npc).plyNum = k.plyNum := rfl
@[simp] theorem Bank.rdvC_fallC (k : Bank) (npc : Word) : (k.fallC npc).rdvC = k.rdvC := rfl
@[simp] theorem Bank.rdvG_fallC (k : Bank) (npc : Word) : (k.fallC npc).rdvG = k.rdvG := rfl
@[simp] theorem Bank.g_fallC (k : Bank) (npc : Word) : (k.fallC npc).g = k.g := rfl
@[simp] theorem Bank.outLoads_fallC (k : Bank) (npc : Word) : (k.fallC npc).outLoads = k.outLoads := rfl
@[simp] theorem Bank.amons_fallC (k : Bank) (npc : Word) : (k.fallC npc).amons = k.amons := rfl
@[simp] theorem Bank.nextAcc_fallC (k : Bank) (npc : Word) : (k.fallC npc).nextAcc = k.nextAcc := rfl
@[simp] theorem Bank.observed_fallC (k : Bank) (npc : Word) : (k.fallC npc).observed = k.observed := rfl
@[simp] theorem Bank.acqPending_fallC (k : Bank) (npc : Word) : (k.fallC npc).acqPending = k.acqPending := rfl
@[simp] theorem Bank.relFence_fallC (k : Bank) (npc : Word) : (k.fallC npc).relFence = k.relFence := rfl
@[simp] theorem Bank.pendTrap_fallC (k : Bank) (npc : Word) : (k.fallC npc).pendTrap = k.pendTrap := rfl
@[simp] theorem Bank.drain_fallC (k : Bank) (npc : Word) : (k.fallC npc).drain = k.drain := rfl
@[simp] theorem Bank.halted_fallC (k : Bank) (npc : Word) : (k.fallC npc).halted = k.halted := rfl
@[simp] theorem Bank.preemptAt_fallC (k : Bank) (npc : Word) : (k.fallC npc).preemptAt = k.preemptAt := rfl
@[simp] theorem Bank.idleSince_fallC (k : Bank) (npc : Word) : (k.fallC npc).idleSince = k.idleSince := rfl
@[simp] theorem Bank.binding_fallC (k : Bank) (npc : Word) : (k.fallC npc).binding = k.binding := rfl
@[simp] theorem Bank.image_fallC (k : Bank) (npc : Word) : (k.fallC npc).image = k.image := rfl
@[simp] theorem Bank.codeC_fallC (k : Bank) (npc : Word) : (k.fallC npc).codeC = k.codeC := rfl
@[simp] theorem Bank.codeG_fallC (k : Bank) (npc : Word) : (k.fallC npc).codeG = k.codeG := rfl
@[simp] theorem Bank.ovls_fallC (k : Bank) (npc : Word) : (k.fallC npc).ovls = k.ovls := rfl

/-! ### Registers read after they are written (R29) -/

@[simp] theorem Bank.getX_zero (k : Bank) : k.getX 0 = 0 := by simp [Bank.getX]

theorem Bank.setX_x (k : Bank) (n : BitVec 6) (v : Word) (h : n ≠ 0) : (k.setX n v).x = k.x.set n.toNat v n.isLt := by
  rw [Bank.setX, if_neg h]

theorem Bank.getX_setX_self (k : Bank) (n : BitVec 6) (v : Word) (h : n ≠ 0) : (k.setX n v).getX n = v := by
  rw [Bank.getX, if_neg h]
  simp [Bank.setX_x k n v h]

theorem Bank.getX_setX_ne (k : Bank) {n m : BitVec 6} (v : Word) (h : n ≠ m) : (k.setX n v).getX m = k.getX m := by
  have hn : n.toNat ≠ m.toNat := fun e => h (BitVec.eq_of_toNat_eq e)
  by_cases h0 : n = 0
  · rw [Bank.setX, if_pos h0]
  · simp only [Bank.getX, Bank.setX_x k n v h0]
    split
    · rfl
    · exact Vector.getElem_set_ne _ _ hn

@[simp] theorem Bank.setX_zero (k : Bank) (v : Word) : k.setX 0 v = k := by simp [Bank.setX]

end Sys2Proof.Machine
end

