-- ==== Sys2Proof/Laws/Memory.lean ====
section
/-! SUPPORT. Memory: read after write, writes elsewhere, and the canonical form, which every operation on memory keeps. -/
namespace Sys2Proof.Machine

/-! ### One byte -/

theorem readByte_putByte_self (m : List Host.Cell) (a : Nat) (v : Byte) (h : memWf m = true) : readByte (putByte m a v) a = v := by
  induction m with
  | nil => by_cases hv : v = unlisted <;> simp [putByte, readByte, hv]
  | cons p l ih =>
    obtain ⟨k, w⟩ := p
    have below : ∀ (q : List Host.Cell) (j : Nat) (u : Byte), memWf ((j, u) :: q) = true → ∀ c, c ≤ j → readByte q c = unlisted := by
      intro q
      induction q with
      | nil => intros; rfl
      | cons r q ih =>
        intro j u hw c hc
        obtain ⟨r1, r2⟩ := r
        simp only [memWf, Bool.and_eq_true, decide_eq_true_eq] at hw
        have : r1 ≠ c := by omega
        simp only [readByte, if_neg this]
        exact ih r1 r2 hw.2 c (by omega)
    have tail : memWf l = true := by
      cases l with
      | nil => rfl
      | cons q l => simp only [memWf, Bool.and_eq_true] at h; exact h.2
    simp only [putByte]
    by_cases h1 : a < k
    · by_cases hv : v = unlisted
      · have : k ≠ a := by omega
        simp [h1, hv, readByte, this]
        exact below l k w h a (by omega)
      · simp [h1, hv, readByte]
    · by_cases h2 : a = k
      · subst h2
        by_cases hv : v = unlisted
        · simp [hv]; exact below l a w h a (Nat.le_refl a)
        · simp [hv, readByte]
      · have : k ≠ a := fun e => h2 e.symm
        simp [h1, h2, readByte, this, ih tail]

theorem readByte_putByte_ne (m : List Host.Cell) {a c : Nat} (v : Byte) (h : a ≠ c) : readByte (putByte m a v) c = readByte m c := by
  induction m with
  | nil => by_cases hv : v = unlisted <;> simp [putByte, readByte, hv, h]
  | cons p l ih =>
    obtain ⟨k, w⟩ := p
    simp only [putByte]
    by_cases h1 : a < k
    · by_cases hv : v = unlisted <;> simp [h1, hv, readByte, h]
    · by_cases h2 : a = k
      · subst h2
        by_cases hv : v = unlisted <;> simp [hv, readByte, h]
      · simp [h1, h2, readByte, ih]

/-- A head below every place of a canonical memory. -/
def startsAbove (a : Nat) : List Host.Cell → Prop
  | [] => True
  | (k, _) :: _ => a < k

theorem memWf_cons (k : Nat) (w : Byte) (l : List Host.Cell) :
    memWf ((k, w) :: l) = true ↔ w ≠ unlisted ∧ startsAbove k l ∧ memWf l = true := by
  cases l with
  | nil => simp [memWf, startsAbove]
  | cons q l => simp [memWf, startsAbove, and_assoc]

theorem memWf_putByte (m : List Host.Cell) (a : Nat) (v : Byte) (h : memWf m = true) : memWf (putByte m a v) = true := by
  have key : ∀ m : List Host.Cell, memWf m = true → memWf (putByte m a v) = true ∧ ∀ j, j < a → startsAbove j m → startsAbove j (putByte m a v) := by
    intro m
    induction m with
    | nil =>
      intro _
      by_cases hv : v = unlisted <;> simp [putByte, hv, memWf, startsAbove]
    | cons p l ih =>
      intro hw
      obtain ⟨k, w⟩ := p
      obtain ⟨hwk, hs, hl⟩ := (memWf_cons k w l).1 hw
      simp only [putByte]
      by_cases h1 : a < k
      · by_cases hv : v = unlisted
        · simp only [h1, hv, if_true]; exact ⟨hw, fun j _ hj => hj⟩
        · simp only [h1, hv, if_true, if_false]
          exact ⟨(memWf_cons a v _).2 ⟨hv, h1, hw⟩, fun j hj _ => hj⟩
      · by_cases h2 : a = k
        · subst h2
          by_cases hv : v = unlisted
          · simp only [Nat.lt_irrefl, hv, if_true, if_false]
            refine ⟨hl, fun j hj _ => ?_⟩
            cases l with
            | nil => trivial
            | cons q l => exact Nat.lt_trans hj hs
          · simp only [Nat.lt_irrefl, hv, if_true, if_false]
            exact ⟨(memWf_cons a v l).2 ⟨hv, hs, hl⟩, fun j hj _ => hj⟩
        · simp only [h1, h2, if_false]
          have := ih hl
          exact ⟨(memWf_cons k w _).2 ⟨hwk, this.2 k (by omega) hs, this.1⟩, fun j _ hj => hj⟩
  exact (key m h).1

/-! ### Byte strings -/

theorem memWf_putBytes (bs : List Byte) : ∀ (m : List Host.Cell) (a : Nat), memWf m = true → memWf (putBytes m a bs) = true := by
  induction bs with
  | nil => intro m a h; exact h
  | cons v bs ih => intro m a h; exact ih _ _ (memWf_putByte m a v h)

theorem readByte_putBytes_out (bs : List Byte) : ∀ (m : List Host.Cell) (a c : Nat), (c < a ∨ a + bs.length ≤ c) →
    readByte (putBytes m a bs) c = readByte m c := by
  induction bs with
  | nil => intro m a c _; rfl
  | cons v bs ih =>
    intro m a c h
    simp only [List.length_cons] at h
    rw [putBytes, ih _ _ _ (by omega), readByte_putByte_ne _ _ (by omega)]

theorem readByte_putBytes_in (bs : List Byte) : ∀ (m : List Host.Cell) (a i : Nat), memWf m = true → i < bs.length →
    readByte (putBytes m a bs) (a + i) = bs.getD i 0 := by
  induction bs with
  | nil => intro m a i _ h; simp at h
  | cons v bs ih =>
    intro m a i hm h
    cases i with
    | zero =>
      rw [putBytes, readByte_putBytes_out _ _ _ _ (by omega), Nat.add_zero, readByte_putByte_self _ _ _ hm]; rfl
    | succ i =>
      have := ih (putByte m a v) (a + 1) i (memWf_putByte m a v hm) (by simpa using h)
      rw [putBytes, show a + (i + 1) = a + 1 + i by omega, this]; rfl

theorem length_getBytes (m : List Host.Cell) (n : Nat) : ∀ a, (getBytes m a n).length = n := by
  induction n with
  | zero => intro a; rfl
  | succ n ih => intro a; simp [getBytes, ih]

/-- Reading back what was written. -/
theorem getBytes_putBytes_self (bs : List Byte) : ∀ (m : List Host.Cell) (a : Nat), memWf m = true →
    getBytes (putBytes m a bs) a bs.length = bs := by
  induction bs with
  | nil => intros; rfl
  | cons v bs ih =>
    intro m a h
    simp only [putBytes, List.length_cons, getBytes]
    rw [ih _ _ (memWf_putByte m a v h), readByte_putBytes_out _ _ _ _ (by omega), readByte_putByte_self _ _ _ h]

theorem getBytes_congr (m m' : List Host.Cell) (n : Nat) : ∀ a, (∀ c, a ≤ c → c < a + n → readByte m c = readByte m' c) →
    getBytes m a n = getBytes m' a n := by
  induction n with
  | zero => intros; rfl
  | succ n ih =>
    intro a h
    rw [getBytes, getBytes, h a (by omega) (by omega), ih (a + 1) (fun c h1 h2 => h c (by omega) (by omega))]

theorem getBytes_putBytes_out (bs : List Byte) (m : List Host.Cell) (a c n : Nat) (h : c + n ≤ a ∨ a + bs.length ≤ c) :
    getBytes (putBytes m a bs) c n = getBytes m c n :=
  getBytes_congr _ _ n c (fun d h1 h2 => readByte_putBytes_out bs m a d (by omega))

theorem length_bytesOf (n : Nat) : ∀ v, (bytesOf n v).length = n := by
  induction n with
  | zero => intro v; rfl
  | succ n ih => intro v; simp [bytesOf, ih]

theorem natOfBytes_bytesOf (n : Nat) : ∀ v, natOfBytes (bytesOf n v) = v % 256 ^ n := by
  induction n with
  | zero => intro v; simp [bytesOf, natOfBytes, Nat.mod_one]
  | succ n ih =>
    intro v
    simp only [bytesOf, natOfBytes, ih, BitVec.toNat_ofNat]
    have h : v % 256 ^ (n + 1) = v % 256 + 256 * (v / 256 % 256 ^ n) := by
      rw [Nat.pow_succ, Nat.mul_comm, Nat.mod_mul]
    rw [h]

/-! ### Performed writes -/

theorem State.mem_performWrite (s : State) (core : Option Nat) (place : Nat) (bs : List Byte) (rmw : Bool) :
    (s.performWrite core place bs rmw).mem = putBytes s.mem place bs := by
  unfold State.performWrite
  cases core <;> rfl

/-- A performed write keeps the canonical form. -/
theorem State.performWrite_wf (s : State) (core : Option Nat) (place : Nat) (bs : List Byte) (rmw : Bool)
    (h : memWf s.mem = true) : memWf (s.performWrite core place bs rmw).mem = true := by
  rw [State.mem_performWrite]; exact memWf_putBytes bs s.mem place h

/-- A performed write changes no byte outside what it writes. -/
theorem State.readByte_performWrite (s : State) (core : Option Nat) (place : Nat) (bs : List Byte) (rmw : Bool) (c : Nat)
    (h : c < place ∨ place + bs.length ≤ c) : readByte (s.performWrite core place bs rmw).mem c = readByte s.mem c := by
  rw [State.mem_performWrite]; exact readByte_putBytes_out bs s.mem place c h

theorem State.readMem_performWrite (s : State) (core : Option Nat) (place : Nat) (bs : List Byte) (rmw : Bool)
    (h : memWf s.mem = true) : (s.performWrite core place bs rmw).readMem place bs.length = bs := by
  rw [State.readMem, State.mem_performWrite, getBytes_putBytes_self bs s.mem place h]

theorem State.orBitmap_wf (s : State) (bmap g : Nat) (h : memWf s.mem = true) : memWf (s.orBitmap bmap g).mem = true :=
  s.performWrite_wf _ _ _ _ h

theorem State.mem_dirWrite (s : State) (cluster place n : Nat) : (s.dirWrite cluster place n).mem = s.mem := by
  simp only [State.dirWrite]
  split <;> rfl

/-- Making one pending write globally visible changes memory by its bytes at most. -/
theorem State.mem_landStore (s : State) (p : PendStore) :
    (s.landStore p).mem = s.mem ∨ (s.landStore p).mem = putBytes s.mem p.place p.data := by
  simp only [State.landStore]
  split
  · exact .inl rfl
  · right
    repeat' split
    all_goals first
      | exact State.mem_performWrite ..
      | exact (State.mem_dirWrite ..).trans (State.mem_performWrite ..)

theorem State.landStore_wf (s : State) (p : PendStore) (h : memWf s.mem = true) : memWf (s.landStore p).mem = true := by
  rcases s.mem_landStore p with e | e <;> rw [e]
  · exact h
  · exact memWf_putBytes p.data s.mem p.place h

theorem foldl_wf {α : Type} (f : State → α → State) (hf : ∀ s a, memWf s.mem = true → memWf (f s a).mem = true) (l : List α) :
    ∀ s : State, memWf s.mem = true → memWf (l.foldl f s).mem = true := by
  induction l with
  | nil => intro s h; exact h
  | cons a l ih => intro s h; exact ih _ (hf s a h)

theorem State.landHome_wf (s : State) (place n : Nat) (h : memWf s.mem = true) : memWf (s.landHome place n).mem = true :=
  foldl_wf _ (fun s p => s.landStore_wf p) _ _ h

theorem State.applyStore_wf (s : State) (p : PendStore) (h : memWf s.mem = true) : memWf (s.applyStore p).mem = true := by
  simp only [State.applyStore]
  split
  · exact s.landStore_wf p h
  · exact State.landStore_wf _ p (s.landHome_wf _ _ h)

theorem State.performStore_wf (s : State) (id : Nat) (h : memWf s.mem = true) : memWf (s.performStore id).mem = true := by
  simp only [State.performStore]
  split
  · exact h
  · exact foldl_wf _ (fun s p => s.applyStore_wf p) _ _ h

theorem State.mem_foldl {α : Type} (f : State → α → State) (hf : ∀ s a, (f s a).mem = s.mem) (l : List α) :
    ∀ s : State, (l.foldl f s).mem = s.mem := by
  induction l with
  | nil => exact fun _ => rfl
  | cons a l ih => exact fun s => (ih _).trans (hf s a)

theorem State.mem_reachStore (s : State) (id : Nat) : (s.reachStore id).mem = s.mem := by
  simp only [State.reachStore]
  split
  · rfl
  · split
    · rfl
    · exact State.mem_foldl (fun s (q : PendStore) =>
        (s.l1Update q.bank.core q.place q.data).l1Note q.bank.core q.place q.data.length [q.id] q.relTags false) (fun _ _ => rfl) _ _

/-! ### Translation -/

/-- The state that a translation answers. -/
def Tr.state (t : Tr) (s : State) : State :=
  match t with
  | .ok _ s | .fault _ s => s
  | .window .. => s

theorem State.markGranule_wf (s : State) (part bmap g : Nat) (h : memWf s.mem = true) :
    memWf (s.markGranule part bmap g).mem = true := by
  simp only [State.markGranule]
  split
  · exact State.orBitmap_wf s _ _ h
  · exact h

theorem State.dirtyNote_wf (s : State) (hs : List TlbHolder) (e : TlbEntry) (va : Nat) (h : memWf s.mem = true) :
    memWf (s.dirtyNote hs e va).mem = true := by
  simp only [State.dirtyNote]
  split
  · exact h
  · split
    · exact h
    · exact State.markGranule_wf s _ _ _ h

theorem State.walk_wf (s : State) (hs : List TlbHolder) (part asid va : Nat) (write : Bool) (h : memWf s.mem = true) :
    memWf ((s.walk hs part asid va write).state s).mem = true := by
  simp only [State.walk]
  repeat' split
  all_goals first
    | exact h
    | (simp only [Tr.state]
       first
         | exact State.dirtyNote_wf _ _ _ _ (by first | exact h | exact State.performWrite_wf _ _ _ _ _ h)
         | exact State.performWrite_wf _ _ _ _ _ h)

theorem State.translateFor_wf (s : State) (hs : List TlbHolder) (part asid va : Nat) (write : Bool) (h : memWf s.mem = true) :
    memWf ((s.translateFor hs part asid va write).state s).mem = true := by
  simp only [State.translateFor]
  repeat' split
  all_goals first
    | exact h
    | exact State.walk_wf s _ _ _ _ _ h
    | exact State.dirtyNote_wf _ _ _ _ h

theorem State.translateFor_ok_wf {s t : State} {hs : List TlbHolder} {part asid va : Nat} {write : Bool} {x : Xlat}
    (e : s.translateFor hs part asid va write = .ok x t) (h : memWf s.mem = true) : memWf t.mem = true := by
  have := s.translateFor_wf hs part asid va write h
  rwa [e] at this

theorem State.exportXlat_wf (s : State) (off : Nat) (write : Bool) (h : memWf s.mem = true) :
    memWf ((s.exportXlat off write).state s).mem = true := by
  simp only [State.exportXlat]
  split
  · exact h
  · rename_i p _
    have h' := s.translateFor_wf [.mem] p.record.partid p.record.expAsid off write h
    split
    · rename_i f t e
      rw [e] at h'
      exact h'
    · exact h'

theorem State.reachVA_ok_wf {s t : State} {hs : List TlbHolder} {part asid va : Nat} {write : Bool} {w : Where}
    (e : s.reachVA hs part asid va write = .ok (w, t)) (h : memWf s.mem = true) : memWf t.mem = true := by
  simp only [State.reachVA] at e
  split at e
  · next d o hx =>
    split at e
    · cases e
    · split at e
      · have hq := s.exportXlat_wf o write h
        revert e hq
        generalize s.exportXlat o write = q
        cases q <;> intro e hq <;> simp only [Tr.looped] at e <;> cases e
        exact hq
      · split at e <;> cases e
        exact h
  · next t' hx =>
    have hq := s.translateFor_wf hs part asid va write h
    revert e hq
    generalize s.translateFor hs part asid va write = q
    cases q <;> intro e hq <;> cases e
    exact hq

theorem writeVA_wf (spans : Bool) (hs : List TlbHolder) (part asid : Nat) (n : Nat) : ∀ (s t : State) (va : Nat) (bs : List Byte),
    memWf s.mem = true → writeVA spans hs part asid n s va bs = .ok t → memWf t.mem = true := by
  induction n with
  | zero => intro s t va bs h e; cases e; exact h
  | succ n ih =>
    intro s t va bs h e
    simp only [writeVA] at e
    split at e
    · cases e; exact h
    · split at e
      · cases e
      · rename_i p x s' hx
        split at e
        · cases e
        · exact ih _ t _ _ (State.performWrite_wf _ _ _ _ _ (State.landHome_wf _ _ _ (State.reachVA_ok_wf hx h))) e
      · rename_i d o s' hx
        have h' : memWf s'.mem = true := State.reachVA_ok_wf hx h
        refine ih _ t _ _ ?_ e
        exact h'
      · rename_i r s' hx
        cases e
        exact State.reachVA_ok_wf hx h

theorem State.writeVirt_wf {s t : State} {hs : List TlbHolder} {part asid va : Nat} {bs : List Byte}
    (h : memWf s.mem = true) (e : s.writeVirt hs part asid va bs = .ok t) : memWf t.mem = true :=
  writeVA_wf false hs part asid _ s t va bs h e

end Sys2Proof.Machine
end

