-- ==== Sys2Proof/Laws/Codec.lean ====
section
/-! SUPPORT. What the bytes of a save give back: the words of a body, whatever follows them, and a value from its own words (R390, R391). -/
namespace Sys2Proof.Machine

theorem bytesOfWords_length (ws : List Word) : (bytesOfWords ws).length = 8 * ws.length := by
  induction ws with
  | nil => rfl
  | cons w ws ih =>
    rw [bytesOfWords, List.flatMap_cons, List.length_append, length_bytesOf, ← bytesOfWords, ih, List.length_cons]; omega

/-- The words of a body come back, and words of what follows come after them. -/
theorem bodyWords_append (ws : List Word) (n : Nat) (l : List Byte) :
    bodyWords (ws.length + n) (bytesOfWords ws ++ l) = ws ++ bodyWords n l := by
  induction ws with
  | nil => simp [bytesOfWords]
  | cons w ws ih =>
    have h : natOfBytes (bytesOf 8 w.toNat) = w.toNat := by
      rw [natOfBytes_bytesOf, Nat.mod_eq_of_lt (by have := w.isLt; omega)]
    have hl := length_bytesOf 8 w.toNat
    rw [List.length_cons, Nat.add_right_comm, bodyWords, bytesOfWords, List.flatMap_cons, List.append_assoc,
      List.take_append_of_le_length (by omega), List.take_of_length_le (by omega), h,
      List.drop_append_of_le_length (by omega), List.drop_of_length_le (by omega)]
    simpa [bytesOfWords] using ih

theorem masked_masked_append (t : Nat) (ws r : List Word) :
    ∃ r', masked t (masked t ws ++ r) = ws ++ r' := by
  refine ⟨(masked t (masked t ws ++ r)).drop ws.length, ?_⟩
  apply List.ext_getElem
  · simp [masked]
  · intro i h1 h2
    by_cases h : i < ws.length
    · simp [masked, h, BitVec.xor_assoc]
    · simp [List.getElem_append, h, Nat.add_sub_cancel' (Nat.le_of_not_lt h)]

/-- A body read back, with whatever a later minor version has appended to it (R391). -/
theorem secWords_append (t : Nat) (ws : List Word) (extra : List Byte) :
    ∃ r, secWords t (secBody t ws ++ extra) = ws ++ r := by
  have hl : (secBody t ws ++ extra).length / 8 = (masked t ws).length + extra.length / 8 := by
    rw [List.length_append, secBody, bytesOfWords_length]; omega
  rw [secWords, hl, secBody, bodyWords_append]
  exact masked_masked_append t ws _

theorem masked_masked (t : Nat) (ws : List Word) : masked t (masked t ws) = ws := by
  apply List.ext_getElem <;> simp [masked, BitVec.xor_assoc]

/-- A body read back. -/
theorem secWords_secBody (t : Nat) (ws : List Word) : secWords t (secBody t ws) = ws := by
  have h := bodyWords_append (masked t ws) 0 []
  rw [List.append_nil, Nat.add_zero] at h
  rw [secWords, secBody, bytesOfWords_length, Nat.mul_div_cancel_left _ (by omega), h, bodyWords, List.append_nil, masked_masked]

theorem Codec.dec_enc_append {α : Type} (c : Codec α) (a : α) (r : List Word) : (c.dec (c.enc a ++ r)).1 = a := by rw [c.law]

/-- What the metadata of a job say is that job (R402). -/
theorem readMig_migBytes (m : MigJob) : readMig (migBytes m) = some m := by
  have hn : ∀ n : Nat, natWords n n ≠ [] := by
    intro n
    cases n with
    | zero => simp [natWords]
    | succ n => rw [natWords]; split <;> simp
  have h0 : migBytes m ≠ [] := by
    intro e
    have h1 := congrArg List.length e
    simp only [migBytes, secBody, bytesOfWords_length, masked, Codec.nat, List.length_mapIdx, List.length_append, List.length_nil] at h1
    exact hn (Codec.migJob.enc m).length (List.length_eq_zero_iff.mp (by omega))
  simp only [readMig, h0, false_or]
  simp only [migBytes, secWords_secBody, Codec.nat.law, ne_eq, not_true_eq_false, if_false]
  rw [← List.append_nil (Codec.migJob.enc m), Codec.dec_enc_append]

end Sys2Proof.Machine
end

