-- ==== Sys2Proof/Laws/Frame.lean ====
section
/-! SUPPORT. What translation and performed writes leave of the state: everything but memory, its errors, its release tags, the L1 lines, the directories and the TLB entries. -/
namespace Sys2Proof.Machine

/-- `t` differs from `s` at most in memory, errors, release tags, L1 lines, directories and TLB entries. -/
def OnlyMemory (s t : State) : Prop :=
  ∃ m bad rel l1 dir tlb, t = { s with mem := m, bad := bad, released := rel, l1 := l1, dir := dir, tlb := tlb }

theorem OnlyMemory.refl (s : State) : OnlyMemory s s := ⟨_, _, _, _, _, _, rfl⟩

theorem OnlyMemory.trans {s t u : State} (h : OnlyMemory s t) (h' : OnlyMemory t u) : OnlyMemory s u := by
  obtain ⟨_, _, _, _, _, _, rfl⟩ := h
  obtain ⟨_, _, _, _, _, _, rfl⟩ := h'
  exact ⟨_, _, _, _, _, _, rfl⟩

theorem OnlyMemory.banks {s t : State} (h : OnlyMemory s t) : t.banks = s.banks := by
  obtain ⟨_, _, _, _, _, _, rfl⟩ := h; rfl
theorem OnlyMemory.bank {s t : State} (h : OnlyMemory s t) (b : BankId) : t.bank b = s.bank b := by
  simp [State.bank, h.banks]
theorem OnlyMemory.cur {s t : State} (h : OnlyMemory s t) : t.cur = s.cur := by
  obtain ⟨_, _, _, _, _, _, rfl⟩ := h; rfl
theorem OnlyMemory.parts {s t : State} (h : OnlyMemory s t) : t.parts = s.parts := by
  obtain ⟨_, _, _, _, _, _, rfl⟩ := h; rfl
theorem OnlyMemory.pend {s t : State} (h : OnlyMemory s t) : t.pend = s.pend := by
  obtain ⟨_, _, _, _, _, _, rfl⟩ := h; rfl
theorem OnlyMemory.dtc {s t : State} (h : OnlyMemory s t) : t.dtc = s.dtc := by
  obtain ⟨_, _, _, _, _, _, rfl⟩ := h; rfl
theorem OnlyMemory.tick {s t : State} (h : OnlyMemory s t) : t.tick = s.tick := by
  obtain ⟨_, _, _, _, _, _, rfl⟩ := h; rfl

theorem OnlyMemory.performWrite (s : State) (core : Option Nat) (place : Nat) (bs : List Byte) (rmw : Bool) :
    OnlyMemory s (s.performWrite core place bs rmw) := by
  cases core <;> exact ⟨_, _, _, _, _, _, rfl⟩

theorem OnlyMemory.markGranule (s : State) (part bmap g : Nat) : OnlyMemory s (s.markGranule part bmap g) := by
  simp only [State.markGranule]
  split
  · exact OnlyMemory.performWrite s none _ _ true
  · exact .refl s

theorem OnlyMemory.dirtyNote (s : State) (hs : List TlbHolder) (e : TlbEntry) (va : Nat) : OnlyMemory s (s.dirtyNote hs e va) := by
  simp only [State.dirtyNote]
  split
  · exact .refl s
  · split
    · exact .refl s
    · exact (OnlyMemory.markGranule s _ _ _).trans ⟨_, _, _, _, _, _, rfl⟩

theorem OnlyMemory.walk (s : State) (hs : List TlbHolder) (part asid va : Nat) (write : Bool) :
    OnlyMemory s ((s.walk hs part asid va write).state s) := by
  simp only [State.walk]
  repeat' split
  all_goals first
    | exact .refl s
    | (simp only [Tr.state]
       first
         | exact OnlyMemory.trans (t := State.performWrite s none _ _ true) (.performWrite ..) (.trans ⟨_, _, _, _, _, _, rfl⟩ (.dirtyNote ..))
         | exact OnlyMemory.trans (t := State.performWrite s none _ _ true) (.performWrite ..) ⟨_, _, _, _, _, _, rfl⟩
         | exact .trans ⟨_, _, _, _, _, _, rfl⟩ (.dirtyNote ..)
         | exact ⟨_, _, _, _, _, _, rfl⟩)

theorem OnlyMemory.translateFor (s : State) (hs : List TlbHolder) (part asid va : Nat) (write : Bool) :
    OnlyMemory s ((s.translateFor hs part asid va write).state s) := by
  simp only [State.translateFor]
  repeat' split
  all_goals first
    | exact .walk ..
    | exact .refl s
    | exact .dirtyNote ..

theorem OnlyMemory.exportXlat (s : State) (off : Nat) (write : Bool) : OnlyMemory s ((s.exportXlat off write).state s) := by
  simp only [State.exportXlat]
  split
  · exact .refl s
  · rename_i p _
    have h := OnlyMemory.translateFor s [.mem] p.record.partid p.record.expAsid off write
    split
    · rename_i f t e
      rw [e] at h
      exact h
    · exact h

theorem OnlyMemory.looped {s : State} {q : Tr} (h : OnlyMemory s (q.state s)) : OnlyMemory s (q.looped.state s) := by
  cases q <;> exact h

/-- A place of an access changes the state only through its translation. -/
theorem locate_onlyMemory {s t : State} {b : BankId} {asid : Nat} {r : SpanReg} {n addr : Nat} {write : Bool} {cause : Nat} {w : Where}
    (h : locate s b asid r n addr write cause = .ok (w, t)) : OnlyMemory s t := by
  have ht := OnlyMemory.translateFor s (holdersOf b.core) (s.bank b).part asid addr write
  simp only [locate] at h
  split at h
  · simp only [Except.ok.injEq, Prod.mk.injEq] at h; exact h.2 ▸ .refl s
  · simp only [Except.ok.injEq, Prod.mk.injEq] at h; exact h.2 ▸ .refl s
  · split at h
    · simp at h
    · have fin : ∀ (q : Tr), OnlyMemory s (q.state s) →
          (match q with
            | .fault f _ => Except.error ⟨cause, BitVec.ofNat 64 addr, f.aux⟩
            | .window d o =>
              match (windowDown s).or (s.remoteFault d o write) with
              | some f => .error ⟨cause, BitVec.ofNat 64 addr, f.aux⟩
              | none => .ok (Where.remote d o, s)
            | .ok x u =>
              if x.spanstore then .error ⟨cSPAN_STORE, BitVec.ofNat 64 addr, 0⟩
              else if decide (sPERM r.bits &&& pDEV ≠ 0) ≠ !isDevMem x.pa then
                .error ⟨cSPAN_PERM, BitVec.ofNat 64 (addr - sBASE r.bits), BitVec.ofNat 64 n⟩
              else if decide (sPERM r.bits &&& pDEV ≠ 0) then .ok (.reg (x.pa - regWindow (s.bank b).part), u)
              else .ok (.place x.pa (some x), u) : Except TrapInfo (Where × State)) = .ok (w, t) → OnlyMemory s t := by
        intro q hq e
        cases q with
        | fault f u => simp at e
        | window d o =>
          simp only at e
          split at e
          · simp at e
          · simp only [Except.ok.injEq, Prod.mk.injEq] at e; exact e.2 ▸ .refl s
        | ok x u =>
          simp only at e
          split at e
          · simp at e
          split at e
          · simp at e
          split at e <;> (simp only [Except.ok.injEq, Prod.mk.injEq] at e; exact e.2 ▸ hq)
      split at h
      · split at h
        · exact fin _ (.looped (.exportXlat ..)) h
        · exact fin (.window _ _) (.refl s) h
      · exact fin _ ht h

end Sys2Proof.Machine
end

