-- ==== Sys2Proof/Laws/Ops.lean ====
section
/-! SUPPORT. What the shared operations of a meaning can do: running under a guard, ending an instruction, a trap's route, delivery, return, a release, and an engine's order of writes. -/
namespace Sys2Proof.Machine

/-! ### Running under a guard -/

theorem runC_runs {g : Guard} {len : Nat} {f : State → BankId → Res} {s : State}
    (h : guardHolds (s.bank s.cur.bank).cC g = true) :
    runC g len f s = .next (finishC s.cur.bank len (s.bank s.cur.bank).c.pc (f s s.cur.bank)) := by
  simp [runC, h]

theorem runC_skips {g : Guard} {len : Nat} {f : State → BankId → Res} {s : State}
    (h : guardHolds (s.bank s.cur.bank).cC g = false) :
    runC g len f s = .next (finishC s.cur.bank len (s.bank s.cur.bank).c.pc (.done s)) := by
  simp [runC, h]

theorem runG_runs {g : Guard} {len : Nat} {f : State → BankId → Res} {s : State}
    (h : guardHolds (s.bank s.cur.bank).cG g = true) :
    runG g len f s = .next (finishG s.cur.bank len (s.bank s.cur.bank).g.pc (f s s.cur.bank)) := by
  simp [runG, h]

theorem runG_skips {g : Guard} {len : Nat} {f : State → BankId → Res} {s : State}
    (h : guardHolds (s.bank s.cur.bank).cG g = false) :
    runG g len f s = .next (finishG s.cur.bank len (s.bank s.cur.bank).g.pc (.done s)) := by
  simp [runG, h]

/-- A meaning of the C stream answers the end of what it did, or of nothing under a failed guard. -/
theorem runC_cases {g : Guard} {len : Nat} {f : State → BankId → Res} {s t : State} (h : runC g len f s = .next t) :
    (guardHolds (s.bank s.cur.bank).cC g = true ∧ t = finishC s.cur.bank len (s.bank s.cur.bank).c.pc (f s s.cur.bank)) ∨
    (guardHolds (s.bank s.cur.bank).cC g = false ∧ t = finishC s.cur.bank len (s.bank s.cur.bank).c.pc (.done s)) := by
  cases hg : guardHolds (s.bank s.cur.bank).cC g
  · rw [runC_skips hg] at h
    exact .inr ⟨rfl, by injection h with h; exact h.symm⟩
  · rw [runC_runs hg] at h
    exact .inl ⟨rfl, by injection h with h; exact h.symm⟩

theorem runG_cases {g : Guard} {len : Nat} {f : State → BankId → Res} {s t : State} (h : runG g len f s = .next t) :
    (guardHolds (s.bank s.cur.bank).cG g = true ∧ t = finishG s.cur.bank len (s.bank s.cur.bank).g.pc (f s s.cur.bank)) ∨
    (guardHolds (s.bank s.cur.bank).cG g = false ∧ t = finishG s.cur.bank len (s.bank s.cur.bank).g.pc (.done s)) := by
  cases hg : guardHolds (s.bank s.cur.bank).cG g
  · rw [runG_skips hg] at h
    exact .inr ⟨rfl, by injection h with h; exact h.symm⟩
  · rw [runG_runs hg] at h
    exact .inl ⟨rfl, by injection h with h; exact h.symm⟩

theorem pureC_done {g : Guard} {len : Nat} {f : Bank → Ev Bank} {s : State} {k : Bank}
    (hg : guardHolds (s.bank s.cur.bank).cC g = true) (h : f (s.bank s.cur.bank) = .ok k) :
    pureC g len f s = .next (finishC s.cur.bank len (s.bank s.cur.bank).c.pc (.done (s.setBank s.cur.bank k))) := by
  simp [pureC, runC_runs hg, ofBank, h]

theorem pureC_trap {g : Guard} {len : Nat} {f : Bank → Ev Bank} {s : State} {t : TrapInfo}
    (hg : guardHolds (s.bank s.cur.bank).cC g = true) (h : f (s.bank s.cur.bank) = .error (.trap t)) :
    pureC g len f s = .next (s.trapC s.cur.bank t (s.bank s.cur.bank).c.pc false) := by
  simp [pureC, runC_runs hg, ofBank, h, finishC]

theorem pureG_done {g : Guard} {len : Nat} {f : Bank → Ev Bank} {s : State} {k : Bank}
    (hg : guardHolds (s.bank s.cur.bank).cG g = true) (h : f (s.bank s.cur.bank) = .ok k) :
    pureG g len f s = .next (finishG s.cur.bank len (s.bank s.cur.bank).g.pc (.done (s.setBank s.cur.bank k))) := by
  simp [pureG, runG_runs hg, ofBank, h]

/-! ### Ending an instruction -/

theorem finishC_done_setBank (b : BankId) (len : Nat) (pc : Word) (s : State) (k : Bank) :
    finishC b len pc (.done (s.setBank b k)) = s.setBank b (k.fallC (pc + BitVec.ofNat 64 (8 * len))) := by
  simp [finishC, State.modBank]

theorem finishG_done_setBank (b : BankId) (len : Nat) (pc : Word) (s : State) (k : Bank) :
    finishG b len pc (.done (s.setBank b k)) =
      s.setBank b { k with g := { k.g with pc := pc + BitVec.ofNat 64 (8 * len), wait := none } } := by
  simp [finishG, State.modBank]

/-- A C-stream instruction that does not trap leaves every other bank, and memory, as its meaning left them. -/
theorem finishC_rest {b c : BankId} (len : Nat) (pc : Word) {r : Res} {s : State}
    (h : r = .done s ∨ r = .jumped s ∨ ∃ tag o d vals, r = .wait s tag o d vals) :
    (finishC b len pc r).mem = s.mem ∧ (c ≠ b → (finishC b len pc r).bank c = s.bank c) := by
  rcases h with rfl | rfl | ⟨_, _, _, _, rfl⟩ <;> exact ⟨rfl, fun h => State.bank_modBank_ne _ _ (Ne.symm h)⟩

theorem finishG_rest {b c : BankId} (len : Nat) (pc : Word) {r : Res} {s : State}
    (h : r = .done s ∨ r = .jumped s ∨ ∃ tag o d vals, r = .wait s tag o d vals) :
    (finishG b len pc r).mem = s.mem ∧ (c ≠ b → (finishG b len pc r).bank c = s.bank c) := by
  rcases h with rfl | rfl | ⟨_, _, _, _, rfl⟩ <;> exact ⟨rfl, fun h => State.bank_modBank_ne _ _ (Ne.symm h)⟩

/-! ### Traps -/

theorem trapC_delivered {s : State} {b : BankId} {t : TrapInfo} {pc : Word} {held : Bool} (h : ringRoute t.cause = false) :
    s.trapC b t pc held = s.deliver b t pc := by
  simp [State.trapC, State.logTrap, h]

/-- Logging the fault of an access changes the device log at most (R373). -/
theorem State.logAccess_only (s : State) (part asid va : Nat) (f : XFault) : ∃ l, s.logAccess part asid va f = { s with deviceLog := l } := by
  simp only [State.logAccess, State.logExport, State.logWalk, State.logDevice]
  repeat' split
  all_goals exact ⟨_, rfl⟩

/-- So does logging what caused one. -/
theorem State.logFault_only (s : State) (part asid va : Nat) : ∃ l, s.logFault part asid va = { s with deviceLog := l } := by
  simp only [State.logFault, State.logWalk, State.logDevice]
  repeat' split
  all_goals first
    | exact ⟨_, rfl⟩
    | exact s.logAccess_only ..

theorem State.logTrap_only (s : State) (b : BankId) (t : TrapInfo) : ∃ l, s.logTrap b t = { s with deviceLog := l } := by
  simp only [State.logTrap]
  split
  · exact s.logFault_only ..
  · exact ⟨_, rfl⟩

/-- A trap of the C stream waits for its record in the partition's ring, or is delivered (R376, R380). -/
theorem trapC_cases (s : State) (b : BankId) (t : TrapInfo) (pc : Word) (held : Bool) :
    ∃ l, s.trapC b t pc held = { s with deviceLog := l }.deliver b t pc ∨
    (ringRoute t.cause = true ∧ (∃ p, s.part (s.bank b).part = some p ∧ fieldAt p.frctl.toNat 63 1 = 1) ∧
      s.trapC b t pc held = { s with deviceLog := l }.modBank b (fun k => { k with
        c := { k.c with wait := none }, pendTrap := some ⟨t.cause, pc, t.val, t.aux, s.dtc, none, held, none, none⟩, drain := .fault })) := by
  obtain ⟨l, hl⟩ : ∃ l, (if held then s else s.logTrap b t) = { s with deviceLog := l } := by
    split
    · exact ⟨_, rfl⟩
    · exact s.logTrap_only b t
  refine ⟨l, ?_⟩
  simp only [State.trapC, hl]
  by_cases hr : ringRoute t.cause = true
  · rw [if_pos hr]
    split
    · next p hp =>
      split
      · next hf => exact .inr ⟨hr, ⟨p, hp, hf⟩, rfl⟩
      · exact .inl rfl
    · exact .inl rfl
  · rw [if_neg hr]
    exact .inl rfl

/-- A delivery without an enabled handler, or inside a privileged one, aborts the job (R376). -/
theorem deliver_aborts {s : State} {b : BankId} {t : TrapInfo} {pc : Word}
    (h : tvEN (s.bank b).trapvec = false ∨ stINTRAP (s.bank b).status = 1) :
    s.deliver b t pc =
      (s.modBank b (fun k => { k.setTrapRegs t pc with c := { k.c with wait := none } })).abortJob b t.cause := by
  simp only [State.deliver, State.bank_modBank_self]
  exact if_pos (h.imp_left (by simp [Bank.setTrapRegs]))

theorem Bank.trapvec_enterHandler (k : Bank) (t : TrapInfo) (pc : Word) : (k.enterHandler t pc).trapvec = k.trapvec := by
  simp only [Bank.enterHandler]
  repeat' split
  all_goals first
    | rw [Bank.trapvec_setX, Bank.trapvec_setX, Bank.trapvec_setX, Bank.trapvec_setX]
    | rfl

/-- A delivery to a handler in the loaded overlay (R376). -/
theorem deliver_enters {s : State} {b : BankId} {t : TrapInfo} {pc : Word} {k : Bank}
    (hk : k = { (s.bank b).setTrapRegs t pc with c := { (s.bank b).c with wait := none } })
    (he : tvEN (s.bank b).trapvec = true) (hi : stINTRAP (s.bank b).status ≠ 1)
    (ho : tvOVL (s.bank b).trapvec = (s.bank b).c.ovl) :
    s.deliver b t pc = s.setBank b { k.enterHandler t pc with
      c := { (k.enterHandler t pc).c with pc := BitVec.ofNat 64 (tvPC (s.bank b).trapvec) } } := by
  subst hk
  simp only [State.deliver, State.bank_modBank_self]
  rw [if_neg (by simp [Bank.setTrapRegs, he, hi]), if_pos (by rw [Bank.trapvec_enterHandler]; exact ho)]
  simp only [State.modBank, State.setBank_setBank, Bank.trapvec_enterHandler]
  rfl

/-- A return to a saved PC that is no multiple of 8 traps (R384). -/
theorem trapReturn_misaligned {s : State} {b : BankId} (h : (s.bank b).trappc.toNat % 8 ≠ 0) :
    s.trapReturn b = .trap s ⟨cMISALIGNED, (s.bank b).trappc, 0⟩ := by
  simp [State.trapReturn, h]

/-- A return into the loaded overlay brings back the PC, PRIV and INTRAP (R384). -/
theorem trapReturn_returns {s : State} {b : BankId} (h : (s.bank b).trappc.toNat % 8 = 0)
    (ho : stPOVL (s.bank b).status = (s.bank b).c.ovl) :
    s.trapReturn b = .jumped (s.setBank b { s.bank b with
      status := mkStatus (stPPRIV (s.bank b).status) (stPPRIV (s.bank b).status) 0 (stPOVL (s.bank b).status),
      c := { (s.bank b).c with pc := (s.bank b).trappc } }) := by
  simp [State.trapReturn, h, ho]

/-! ### Transfers and span accesses -/

theorem transferTo_misaligned {s : State} {b : BankId} {target : Word} {leave : Bool} {k : Bank → Bank}
    (h : target.toNat % 8 ≠ 0) : transferTo s b target leave k = .trap s ⟨cMISALIGNED, target, 0⟩ := if_pos h

theorem transferTo_goes {s : State} {b : BankId} {target : Word} {leave : Bool} {k : Bank → Bank}
    (h : target.toNat % 8 = 0) : transferTo s b target leave k = goTo s b target leave k := if_neg (by simp [h])

/-- An access that passes the checks of R217, R218 and R220 goes to the address that the span check gives, which is aligned, in
a span without T and SPANSTORE. -/
theorem ea_ok {k : Bank} {m : MemRef} {perm size align : Nat} {mem spad dev : Bool} {addr : Nat} {r : SpanReg}
    (h : k.ea m perm size align mem spad dev = .ok (addr, r)) :
    r = k.getB m.sb ∧ spanCheck r m.sb.toNat (k.getX m.xi + m.off.signExtend 64).toInt size perm = .ok addr ∧ addr % align = 0 ∧
      sPERM r.bits &&& pSPANSTORE = 0 ∧ sPERM r.bits &&& pT = 0 := by
  simp only [Bank.ea, raise] at h
  split at h
  · split at h <;> cases h
  · next a ha =>
    repeat' split at h
    all_goals first
      | (cases h; done)
      | (injection h with h; obtain ⟨rfl, rfl⟩ := Prod.mk.inj h
         exact ⟨rfl, ha, by simp_all, by simp_all, by simp_all⟩)

/-! ### Releases -/

/-- What a release of the C stream does before its effect (R203, R215). -/
theorem releaseC_cases (s : State) (b : BankId) (sc : Scope) (f : State → List Nat → Res) :
    ((s.bank b).outLoads ≠ [] ∧ releaseC s b sc f = .wait s .loads 1 0 []) ∨
    ((s.bank b).outLoads = [] ∧ (∃ a ∈ (s.bank b).amons, a.path = 0) ∧ releaseC s b sc f = .wait s .access 1 0 []) ∨
    ((s.bank b).outLoads = [] ∧ (∀ a ∈ (s.bank b).amons, a.path ≠ 0) ∧
      ((∃ h l, ((s.releaseStores b sc).bank b).held = h :: l ∧ releaseC s b sc f =
          .heldTrap ((s.releaseStores b sc).setBank b { (s.releaseStores b sc).bank b with held := l }) ⟨h.cause, h.val, h.aux⟩) ∨
        (((s.releaseStores b sc).bank b).held = [] ∧ releaseC s b sc f = f (s.releaseStores b sc) (s.coveredBy b)))) := by
  by_cases hl : (s.bank b).outLoads = []
  · by_cases ha : ∃ a ∈ (s.bank b).amons, a.path = 0
    · have : (s.bank b).amons.any (fun a => a.path = 0) = true := by simpa using ha
      exact .inr (.inl ⟨hl, ha, by simp [releaseC, hl, this]⟩)
    · have ha' : ∀ a ∈ (s.bank b).amons, a.path ≠ 0 := fun a h h0 => ha ⟨a, h, h0⟩
      have : (s.bank b).amons.any (fun a => a.path = 0) = false := by simpa using ha'
      refine .inr (.inr ⟨hl, ha', ?_⟩)
      cases hh : ((s.releaseStores b sc).bank b).held with
      | nil => exact .inr ⟨rfl, by simp [releaseC, hl, this, Bank.reportHeld, hh]⟩
      | cons h l => exact .inl ⟨h, l, rfl, by simp [releaseC, hl, this, Bank.reportHeld, hh]⟩
  · exact .inl ⟨hl, by simp [releaseC, hl]⟩

/-! ### Orders of free choice (R207) -/

theorem eraseIdx_perm {α : Type} : ∀ (l : List α) (i : Nat) (h : i < l.length), (l[i] :: l.eraseIdx i).Perm l
  | _ :: _, 0, _ => List.Perm.refl _
  | x :: l, i + 1, h => (List.Perm.swap x _ _).trans ((eraseIdx_perm l i (Nat.lt_of_succ_lt_succ h)).cons x)

/-- A free order takes every element once. -/
theorem freeOrder_perm {α : Type} (choose : Nat → Nat) (n : Nat) (l : List α) : (freeOrder choose n l).Perm l := by
  induction n generalizing l with
  | zero => exact List.Perm.refl l
  | succ n ih =>
    match l with
    | [] => exact List.Perm.refl _
    | [x] => exact List.Perm.refl _
    | x :: y :: l =>
      have h : choose n % (l.length + 2) < (x :: y :: l).length := Nat.mod_lt _ (Nat.succ_pos _)
      simp only [freeOrder, List.getElem?_eq_getElem h, Option.toList_some]
      exact ((ih _).cons _).trans (eraseIdx_perm _ _ h)

/-- The writes of a unit are all made, each once, whatever their order. -/
theorem anyOrder_perm (s : State) {α : Type} (l : List α) : (s.anyOrder l).Perm l := freeOrder_perm _ _ l

end Sys2Proof.Machine
end

