-- ==== Sys2Proof/Safety.lean ====
section
/-! DEFINITION. What counts as a safe run: a run that never stops, and whose memory keeps its canonical form. -/
namespace Sys2Proof

/-- Every one of the first `n` steps from `s` answers a next state. -/
def runsFor : Nat → Machine.State → Prop
  | 0, _ => True
  | n + 1, s => ∃ t, Machine.step s = .next t ∧ runsFor n t

/-- A state whose memory is canonical. -/
def goodMemory (s : Machine.State) : Prop := Machine.memWf s.mem = true

end Sys2Proof
end

