-- ==== Sys2Proof/Tests/Slice0.lean ====
section
/-! SUPPORT. Tests: words of the spec's encodings and what they decode to, ill-formed terms that WellFormed refuses, witnesses that meet the hypotheses of the statements, and single steps whose results come from the spec's own examples. -/
namespace Sys2Proof.Tests
open Machine Claims

set_option Elab.async false


/-! ### Decoding: every constructor by a word built from its encoding tables -/

/-- The words are built from the field tables of the formats (R24 to R31) and of the family's entries. -/
theorem test_decode_integer :
    decode .c false 0 [0x0000028040402C10] = .ok (.add ⟨3, true⟩ (.reg 1) (.reg 2) (.reg 40)) 1 ∧
    decode .c false 0 [0x0000029060806C10] = .ok (.sub ⟨3, true⟩ (.reg 2) (.reg 3) (.reg 41)) 1 ∧
    decode .c false 0 [0x000002A080C0AC10] = .ok (.mul ⟨3, true⟩ (.reg 3) (.reg 4) (.reg 42)) 1 ∧
    decode .c false 0 [0x000002B0A100EC10] = .ok (.mulhS ⟨3, true⟩ (.reg 4) (.reg 5) (.reg 43)) 1 ∧
    decode .c false 0 [0x000002C0C1412C10] = .ok (.mulhN ⟨3, true⟩ (.reg 5) (.reg 6) (.reg 44)) 1 ∧
    decode .c false 0 [0x000002D0E1816C10] = .ok (.divS ⟨3, true⟩ (.reg 6) (.reg 7) (.reg 45)) 1 ∧
    decode .c false 0 [0x000002E101C1AC10] = .ok (.divN ⟨3, true⟩ (.reg 7) (.reg 8) (.reg 46)) 1 ∧
    decode .c false 0 [0x000002F12201EC10] = .ok (.remS ⟨3, true⟩ (.reg 8) (.reg 9) (.reg 47)) 1 ∧
    decode .c false 0 [0x0000030142422C10] = .ok (.remN ⟨3, true⟩ (.reg 9) (.reg 10) (.reg 48)) 1 ∧
    decode .c false 0 [0x0000031162826C10] = .ok (.and ⟨3, true⟩ (.reg 10) (.reg 11) (.reg 49)) 1 ∧
    decode .c false 0 [0x0000032182C2AC10] = .ok (.or ⟨3, true⟩ (.reg 11) (.reg 12) (.reg 50)) 1 ∧
    decode .c false 0 [0x00000331A302EC10] = .ok (.xor ⟨3, true⟩ (.reg 12) (.reg 13) (.reg 51)) 1 ∧
    decode .c false 0 [0x00000341C3432C10] = .ok (.andn ⟨3, true⟩ (.reg 13) (.reg 14) (.reg 52)) 1 ∧
    decode .c false 0 [0x00000351E3836C10] = .ok (.shl ⟨3, true⟩ (.reg 14) (.reg 15) (.reg 53)) 1 ∧
    decode .c false 0 [0x0000036203C3AC10] = .ok (.shr ⟨3, true⟩ (.reg 15) (.reg 16) (.reg 54)) 1 ∧
    decode .c false 0 [0x000003722403EC10] = .ok (.sra ⟨3, true⟩ (.reg 16) (.reg 17) (.reg 55)) 1 ∧
    decode .c false 0 [0x0000038244442C10] = .ok (.rol ⟨3, true⟩ (.reg 17) (.reg 18) (.reg 56)) 1 ∧
    decode .c false 0 [0x0000039264846C10] = .ok (.minS ⟨3, true⟩ (.reg 18) (.reg 19) (.reg 57)) 1 ∧
    decode .c false 0 [0x000003A284C4AC10] = .ok (.minN ⟨3, true⟩ (.reg 19) (.reg 20) (.reg 58)) 1 ∧
    decode .c false 0 [0x000003B2A504EC10] = .ok (.maxS ⟨3, true⟩ (.reg 20) (.reg 21) (.reg 59)) 1 ∧
    decode .c false 0 [0x000003C2C5452C10] = .ok (.maxN ⟨3, true⟩ (.reg 21) (.reg 22) (.reg 60)) 1 ∧
    decode .c false 0 [0x00000808B0854010] = .ok (.clz ⟨0, false⟩ (.queue 2) (.queue 5 true)) 1 ∧
    decode .c false 0 [0x00000808B0858010] = .ok (.ctz ⟨0, false⟩ (.queue 2) (.queue 5 true)) 1 ∧
    decode .c false 0 [0x00000808B085C010] = .ok (.popc ⟨0, false⟩ (.queue 2) (.queue 5 true)) 1 ∧
    decode .c false 0 [0x00000808B0860010] = .ok (.bswap ⟨0, false⟩ (.queue 2) (.queue 5 true)) 1 ∧
    decode .c false 0 [0x0000147890C00010] = .ok (.add ⟨0, false⟩ (.queue 3) (.queue 4 false) (.queue 7 true)) 1 := by
  decide

/-- The words are built from the field tables of the formats (R24 to R31) and of the family's entries. -/
theorem test_decode_bits :
    decode .c false 0 [0x00A16000C1464010] = .ok (.extr ⟨0, false⟩ (.reg 5) (.reg 6) 20 11) 1 ∧
    decode .c false 0 [0x00A56808C1468010] = .ok (.ins ⟨0, false⟩ 5 (.queue 6 true) 20 43) 1 ∧
    decode .c false 0 [0x0000E000D046C010] = .ok (.sext ⟨0, false⟩ (.queue 1) (.reg 6) 7) 1 ∧
    decode .c false 0 [0x0003E007CFC70010] = .ok (.zext ⟨0, false⟩ (.reg 63) (.reg 62) 31) 1 := by
  decide

/-- The words are built from the field tables of the formats (R24 to R31) and of the family's entries. -/
theorem test_decode_immediate :
    decode .c false 0 [0x80000000881E0014] = .ok (.addi ⟨0, false⟩ (.reg 7) (.queue 4 true) 2147483648) 1 ∧
    decode .c false 0 [0x80000001881E4014] = .ok (.andi ⟨0, false⟩ (.reg 7) (.queue 4 true) 2147483649) 1 ∧
    decode .c false 0 [0x80000002881E8014] = .ok (.ori ⟨0, false⟩ (.reg 7) (.queue 4 true) 2147483650) 1 ∧
    decode .c false 0 [0x80000003881EC014] = .ok (.xori ⟨0, false⟩ (.reg 7) (.queue 4 true) 2147483651) 1 ∧
    decode .c false 0 [0x0000002813010014] = .ok (.shli ⟨0, false⟩ (.queue 0) (.reg 9) 40) 1 ∧
    decode .c false 0 [0x0000002913014014] = .ok (.shri ⟨0, false⟩ (.queue 0) (.reg 9) 41) 1 ∧
    decode .c false 0 [0x0000002A13018014] = .ok (.srai ⟨0, false⟩ (.queue 0) (.reg 9) 42) 1 ∧
    decode .c false 0 [0xFFFFFFFF0E1C0014] = .ok (.addi ⟨0, false⟩ (.reg 7) (.reg 7) 0xFFFFFFFF) 1 ∧
    decode .c false 0 [0x9ABCDEF000140018] = .ok (.movi ⟨0, false⟩ (.reg 5) 0x9ABCDEF0) 1 ∧
    decode .c false 0 [0x1234567800144018] = .ok (.movhi ⟨0, false⟩ 5 0x12345678) 1 := by
  decide

/-- The words are built from the field tables of the formats (R24 to R31) and of the family's entries. -/
theorem test_decode_condition :
    decode .c false 0 [0xFFFFFFFF0E0C4020] = .ok (.cmpi ⟨0, false⟩ .hi 3 (.reg 7) 0xFFFFFFFF) 1 ∧
    decode .c false 0 [0x000000050E0C801C] = .ok (.cmpi ⟨0, false⟩ .lt 3 (.reg 7) 5) 1 ∧
    decode .c false 0 [0x0000E45080800024] = .ok (.cmp ⟨0, false⟩ .hs 2 (.reg 4) (.queue 5 false)) 1 ∧
    decode .c false 0 [0x0000A06090C04024] = .ok (.sel ⟨0, false⟩ (.queue 3) (.reg 4) (.reg 6) 5) 1 ∧
    decode .c false 0 [0x0000003040408024] = .ok (.cand ⟨0, false⟩ 1 2 3) 1 ∧
    decode .c false 0 [0x00000060A100C024] = .ok (.cor ⟨0, false⟩ 4 5 6) 1 ∧
    decode .c false 0 [0x00000000C1C10024] = .ok (.cnot ⟨0, false⟩ 7 6) 1 := by
  decide

/-- The words are built from the field tables of the formats (R24 to R31) and of the family's entries. -/
theorem test_decode_float :
    decode .c false 0 [0x0000005080C00028] = .ok (.fadd ⟨0, false⟩ .rne (.reg 3) (.reg 4) (.reg 5)) 1 ∧
    decode .c false 0 [0x0000205080C04028] = .ok (.fsub ⟨0, false⟩ .rtz (.reg 3) (.reg 4) (.reg 5)) 1 ∧
    decode .c false 0 [0x0000405080C08028] = .ok (.fmul ⟨0, false⟩ .rdn (.reg 3) (.reg 4) (.reg 5)) 1 ∧
    decode .c false 0 [0x0000205080C0C028] = .ok (.fma ⟨0, false⟩ .rtz 3 (.reg 4) (.reg 5)) 1 ∧
    decode .c false 0 [0x0000005080C10028] = .ok (.fmin ⟨0, false⟩ (.reg 3) (.reg 4) (.reg 5)) 1 ∧
    decode .c false 0 [0x0000005080C14028] = .ok (.fmax ⟨0, false⟩ (.reg 3) (.reg 4) (.reg 5)) 1 ∧
    decode .c false 0 [0x0001405080C18028] = .ok (.fcmp ⟨0, false⟩ .un 3 (.reg 4) (.reg 5)) 1 ∧
    decode .c false 0 [0x00002000A101C028] = .ok (.fcvt ⟨0, false⟩ .toS32 .rtz (.reg 4) (.reg 5)) 1 ∧
    decode .c false 0 [0x000A6000A101C028] = .ok (.fcvt ⟨0, false⟩ .toF16 .rup (.reg 4) (.reg 5)) 1 := by
  decide

/-- The words are built from the field tables of the formats (R24 to R31) and of the family's entries. -/
theorem test_decode_control :
    decode .c false 0 [0xFFFFFF4000000030] = .ok (.br ⟨0, false⟩ (-3)) 1 ∧
    decode .c false 0 [0x000001E488104030] = .ok (.bc ⟨0, false⟩ .hi (.reg 4) (.queue 4 false) 7) 1 ∧
    decode .c false 0 [0x0000190002008030] = .ok (.call ⟨0, false⟩ 1 100) 1 ∧
    decode .c false 0 [0x000001010C14C030] = .ok (.loop ⟨0, false⟩ 1 (.reg 5) (.reg 6) 4) 1 ∧
    decode .c false 0 [0x0000000000250030] = .ok (.jr ⟨0, false⟩ (.reg 9)) 1 ∧
    decode .c false 0 [0x0000000004254030] = .ok (.callr ⟨0, false⟩ (.reg 9) 2) 1 ∧
    decode .c false 0 [0x0000000000058030] = .ok (.ret ⟨0, false⟩ (.reg 1)) 1 := by
  decide

/-- The words are built from the field tables of the formats (R24 to R31) and of the family's entries. -/
theorem test_decode_memory :
    decode .c false 0 [0xFFFE004498500040] = .ok (.ld ⟨0, false⟩ 2 (.reg 5) ⟨3, 9, 0x3FFF8⟩) 1 ∧
    decode .c false 0 [0xFFFE00249C204040] = .ok (.ldSigned ⟨0, false⟩ 1 (.queue 2) ⟨3, 9, 0x3FFF8⟩) 1 ∧
    decode .c false 0 [0xFFFE20649C508040] = .ok (.st ⟨0, false⟩ 3 (.queue 5 true) ⟨3, 9, 0x3FFF8⟩) 1 ∧
    decode .c false 0 [0x00200C600850C040] = .ok (.lda ⟨0, false⟩ 3 .dv (.reg 5) ⟨1, 0, 128⟩) 1 ∧
    decode .c false 0 [0xFFFE120498510040] = .ok (.stl ⟨0, false⟩ 0 .cl (.reg 5) ⟨3, 9, 0x3FFF8⟩) 1 ∧
    decode .c false 0 [0xFFFE008498614040] = .ok (.ldp ⟨0, false⟩ 6 ⟨3, 9, 0x3FFF8⟩) 1 ∧
    decode .c false 0 [0xFFFE008498818040] = .ok (.stp ⟨0, false⟩ 8 ⟨3, 9, 0x3FFF8⟩) 1 ∧
    decode .c false 0 [0xFFFE00E49801C040] = .ok (.pref ⟨0, false⟩ ⟨3, 9, 0x3FFF8⟩) 1 ∧
    decode .c false 0 [0xFFFE05E498020040] = .ok (.flush ⟨0, false⟩ .dm ⟨3, 9, 0x3FFF8⟩) 1 ∧
    decode .c false 0 [0x0000190000024040] = .ok (.fence ⟨0, false⟩ .ar .co) 1 ∧
    decode .c false 0 [0x0008C00000028040] = .ok (.fenceP ⟨0, false⟩ 0b100011) 1 ∧
    decode .c false 0 [0x00000C601862C041, 0x0000000000070007] = .ok (.waita ⟨0, false⟩ .hs true (some .dv) (.reg 6) ⟨3, 0, 0⟩ (.reg 7) (.reg 0)) 2 := by
  decide

/-- The words are built from the field tables of the formats (R24 to R31) and of the family's entries. -/
theorem test_decode_atomic :
    decode .c false 0 [0xFFFE0B4498540041, 0x000000000001000C] = .ok (.amo ⟨0, false⟩ .add .n32 .acq .di (.reg 5) ⟨3, 9, 0x3FFF8⟩ (.reg 12)) 2 ∧
    decode .c false 0 [0xFFFE026498544041, 0x0000000000424044] = .ok (.amoB ⟨0, false⟩ .min .s64 .none .cl (.reg 5) ⟨3, 9, 0x3FFF8⟩ (.queue 4 true)) 2 ∧
    decode .c false 0 [0xFFFE1D649C148041, 0x000000000063000C] = .ok (.amoN ⟨0, false⟩ .swap .n64 .ar .dm (.queue 1) ⟨3, 9, 0x3FFF8⟩ (.reg 12)) 2 ∧
    decode .c false 0 [0xFFFE14449804C041, 0x000000000094000C] = .ok (.amon ⟨0, false⟩ .fmax .f32 true .dv ⟨3, 9, 0x3FFF8⟩ (.reg 12)) 2 ∧
    decode .c false 0 [0xFFFE012498050041, 0x000000000075000C] = .ok (.amonB ⟨0, false⟩ .fadd .bf16 false .co ⟨3, 9, 0x3FFF8⟩ (.reg 12)) 2 ∧
    decode .c false 0 [0x00040444A0054041, 0x000000000074000C] = .ok (.amonN ⟨0, false⟩ .fadd .f32 false .dv ⟨4, 9, 16⟩ (.reg 12)) 2 ∧
    decode .c false 0 [0xFFFE1C6498558041, 0x000000000003068C] = .ok (.cas ⟨0, false⟩ true .ar .dv (.reg 5) ⟨3, 9, 0x3FFF8⟩ (.reg 12) (.reg 13)) 2 ∧
    decode .c false 0 [0xFFFE11449855C041, 0x000000000001A30C] = .ok (.casB ⟨0, false⟩ false .rel .co (.reg 5) ⟨3, 9, 0x3FFF8⟩ (.reg 12) (.queue 6 true)) 2 := by
  decide

/-- The words are built from the field tables of the formats (R24 to R31) and of the family's entries. -/
theorem test_decode_tensor :
    decode .c false 0 [0xFFFE00C499F00044] = .ok (.tdef ⟨0, false⟩ 31 ⟨3, 9, 0x3FFF8⟩) 1 ∧
    decode .c false 0 [0xFFFE00C499E04044] = .ok (.tld ⟨0, false⟩ 30 ⟨3, 9, 0x3FFF8⟩) 1 ∧
    decode .c false 0 [0xFFFE00C499D08044] = .ok (.tst ⟨0, false⟩ 29 ⟨3, 9, 0x3FFF8⟩) 1 ∧
    decode .c false 0 [0xFFFE00C49870C044] = .ok (.mld ⟨0, false⟩ 7 ⟨3, 9, 0x3FFF8⟩) 1 ∧
    decode .c false 0 [0xFFFE00C498610044] = .ok (.mst ⟨0, false⟩ 6 ⟨3, 9, 0x3FFF8⟩) 1 ∧
    decode .c false 0 [0x0000A000C4400060] = .ok (.tset ⟨0, false⟩ 17 (.reg 6) 5) 1 ∧
    decode .c false 0 [0x0000A00221804060] = .ok (.tget ⟨0, false⟩ (.reg 6) 17 5) 1 ∧
    decode .c false 0 [0x0000000220008060] = .ok (.thand ⟨0, false⟩ 17) 1 ∧
    decode .c false 0 [0x000120088000C060] = .ok (.bfset ⟨0, false⟩ 9 (.queue 4 false)) 1 ∧
    decode .c false 0 [0x0002C000C1410060] = .ok (.map ⟨0, false⟩ 5 (.reg 6) 6 2) 1 ∧
    decode .c false 0 [0x00040000C1410060] = .ok (.mapTile ⟨0, false⟩ 5 (.reg 6)) 1 ∧
    decode .c false 0 [0x0000000001414060] = .ok (.mclr ⟨0, false⟩ 5) 1 ∧
    decode .c false 0 [0x0096634A62C00065, 0x2000210001480010] = .ok (.mchk ⟨0, false⟩ .ctrs (.reg 9) ⟨11, 12, 10, 2, [0, 2], [2, 1], [0, 1], true, false, .rup, 3⟩) 2 := by
  decide

/-- The words are built from the field tables of the formats (R24 to R31) and of the family's entries. -/
theorem test_decode_grid :
    decode .g false 0 [0x0000000208000081, 0x2000210001480010] = .ok (.ctr ⟨0, false⟩ ⟨0, 1, 2, 0, [0, 2], [2, 1], [0, 1], false, false, .rne, 0⟩) 2 ∧
    decode .g false 0 [0x0001202728C00081, 0x2000210001480010] = .ok (.ctr ⟨0, false⟩ ⟨3, 5, 7, 1, [0, 2], [2, 1], [0, 1], false, true, .rtz, 0⟩) 2 ∧
    decode .g false 0 [0x0002062728C04081, 0x2000210001480010] = .ok (.ctrs ⟨0, false⟩ ⟨3, 5, 7, 1, [0, 2], [2, 1], [0, 1], true, false, .rne, 6⟩) 2 ∧
    decode .g false 0 [0x0000402700C08081, 0x10000400000C01C8] = .ok (.red ⟨0, false⟩ ⟨3, 0, 7, 1, [0, 1, 7], [], [1], false, false, .rdn, 0⟩) 2 ∧
    decode .g false 0 [0x0000602700C0C081, 0x401EB00000100D63] = .ok (.cvt ⟨0, false⟩ ⟨3, 0, 7, 1, [3, 4, 5, 6], [], [4, 5, 6, 3], false, false, .rup, 0⟩) 2 ∧
    decode .g false 0 [0x0020000009400086, 0x0000000000680008, 0xBF80400000B6A541] = .ok (.ewr ⟨0, false⟩ ⟨5, 1, 0, 0, 0, .rne, false, .neg, .reg 2, 3, 0, 0, [0, 1], 0x4000, 0xBF80, .a, .k0, .k1, .fma, .x, .max, .stop, .stop⟩) 3 := by
  decide

/-- The words are built from the field tables of the formats (R24 to R31) and of the family's entries. -/
theorem test_decode_gscalar :
    decode .g false 0 [0x0000080831000094] = .ok (.gmov ⟨0, false⟩ (.queue 4) (.queue 1 true)) 1 ∧
    decode .g false 0 [0x000000F040406C94] = .ok (.gadd ⟨3, true⟩ (.reg 1) (.reg 2) (.reg 15)) 1 ∧
    decode .g false 0 [0x000000F040408094] = .ok (.gsub ⟨0, false⟩ (.reg 1) (.reg 2) (.reg 15)) 1 ∧
    decode .g false 0 [0x000100F04140C094] = .ok (.gcmp ⟨0, false⟩ .ls 5 (.reg 2) (.reg 15)) 1 ∧
    decode .g false 0 [0x0000000861410094] = .ok (.gqpop ⟨0, false⟩ 5 3 false) 1 ∧
    decode .g false 0 [0x00000000B1814094] = .ok (.gqpush ⟨0, false⟩ 6 5) 1 ∧
    decode .g false 0 [0x0001200000018094] = .ok (.gsig ⟨0, false⟩ 9) 1 ∧
    decode .g false 0 [0x0003200000018094] = .ok (.gsigD ⟨0, false⟩ 9) 1 ∧
    decode .g false 0 [0x000260000001C094] = .ok (.gwaitf ⟨0, false⟩ 3 true) 1 ∧
    decode .g false 0 [0x0000000000020094] = .ok (.gdrain ⟨0, false⟩) 1 ∧
    decode .g false 0 [0x0000000000024094] = .ok (.gidle ⟨0, false⟩) 1 ∧
    decode .g false 0 [0x0000000000028094] = .ok (.gend ⟨0, false⟩) 1 ∧
    decode .g false 0 [0x0003A0000002C094] = .ok (.gthand ⟨0, false⟩ 29) 1 ∧
    decode .g false 0 [0xFFFFFF8000180090] = .ok (.gloop ⟨0, false⟩ 6 (-2)) 1 ∧
    decode .g false 0 [0x0000014000004090] = .ok (.gbr ⟨0, false⟩ 5) 1 ∧
    decode .g false 0 [0xFFFFFFD084188090] = .ok (.gbc ⟨0, false⟩ .le (.reg 6) (.queue 2 false) (-1)) 1 := by
  decide

/-- The words are built from the field tables of the formats (R24 to R31) and of the family's entries. -/
theorem test_decode_copy :
    decode .c false 0 [0x00526104188000A1, 0x0000000010000386] = .ok (.copy ⟨0, false⟩ 1 (some .dv) 9 2 3 4 (.reg 5) (.reg 6) (.reg 7) 4096) 2 ∧
    decode .c false 0 [0x00572E0400C040A1, 0x2000040000080008] = .ok (.tcopy ⟨0, false⟩ 6 (some .dm) 7 3 4 [0, 1] [1, 0] (.reg 5)) 2 ∧
    decode .c false 0 [0x04100200188080A1, 0x800000000001A206] = .ok (.mcast ⟨0, false⟩ 2 none 0 2 3 0 (.queue 1) (.reg 6) (.queue 4 true) 0x800000000001) 2 ∧
    decode .c false 0 [0x00006000E18000A4] = .ok (.cpwait ⟨0, false⟩ 3 (.reg 6) (.reg 7)) 1 ∧
    decode .c false 0 [0x00006000018040A4] = .ok (.cpstatNext ⟨0, false⟩ 3 (.reg 6)) 1 ∧
    decode .c false 0 [0x00016000018040A4] = .ok (.cpstatBusy ⟨0, false⟩ 3 (.reg 6)) 1 := by
  decide

/-- The words are built from the field tables of the formats (R24 to R31) and of the family's entries. -/
theorem test_decode_ply :
    decode .c false 0 [0x00500000008100A1, 0x0000000001FF0386] = .ok (.plysort ⟨0, false⟩ 2 (.reg 5) (.reg 6) (.reg 7) ⟨true, 255⟩) 2 ∧
    decode .c false 0 [0x00500300008140A1, 0x00004C45003F0386] = .ok (.plysend ⟨0, false⟩ 3 2 (.reg 5) (.reg 6) (.reg 7) ⟨false, 63⟩ 1093 9) 2 ∧
    decode .c false 0 [0x00500300588180A1, 0x00000000003F0386] = .ok (.plyred ⟨0, false⟩ 3 2 11 (.reg 5) (.reg 6) (.reg 7) ⟨false, 63⟩) 2 ∧
    decode .c false 0 [0x00004000018080A4] = .ok (.plystat ⟨0, false⟩ 2 (.reg 6)) 1 ∧
    decode .c false 0 [0x00026000018080A4] = .ok (.plystatClr ⟨0, false⟩ 3 (.reg 6)) 1 := by
  decide

/-- The words are built from the field tables of the formats (R24 to R31) and of the family's entries. -/
theorem test_decode_attar :
    decode .c false 0 [0x00500000008000B1, 0x0000003E837F0386] = .ok (.areg ⟨0, false⟩ 2 (.reg 5) (.reg 6) (.reg 7) 127 3 1000) 2 ∧
    decode .c false 0 [0x00000100000000B1, 0x0000000000000006] = .ok (.aregFree ⟨0, false⟩ (.reg 6)) 2 ∧
    decode .c false 0 [0x0051C300008040B1, 0x0000000000000406] = .ok (.aqpost ⟨0, false⟩ 2 (.reg 5) (.reg 6) (.reg 8) 7 3) 2 ∧
    decode .c false 0 [0x00520000000080B1, 0x0000000000000006] = .ok (.aqwait ⟨0, false⟩ (.reg 5) 8 (.reg 6)) 2 ∧
    decode .c false 0 [0x005200000080C0B1, 0x0000000000000006] = .ok (.aappend ⟨0, false⟩ 2 (.reg 5) (.reg 6) 8) 2 ∧
    decode .c false 0 [0x00520000000100B1, 0x0000000000000006] = .ok (.acommit ⟨0, false⟩ (.reg 5) (.reg 6) 8) 2 := by
  decide

/-- The words are built from the field tables of the formats (R24 to R31) and of the family's entries. -/
theorem test_decode_streams :
    decode .c false 0 [0x0000A000000000C0] = .ok (.rdv ⟨0, false⟩ .both .job 5) 1 ∧
    decode .g false 0 [0x0050E000000000C0] = .ok (.rdv ⟨0, false⟩ .gonly .clu 7) 1 ∧
    decode .c false 0 [0x0000080890C000C4] = .ok (.qpush ⟨0, false⟩ 3 (.queue 4 true)) 1 ∧
    decode .c false 0 [0x00000008C14040C4] = .ok (.qpop ⟨0, false⟩ 5 6) 1 ∧
    decode .c false 0 [0x00000808C14080C4] = .ok (.qpeek ⟨0, false⟩ 5 6) 1 ∧
    decode .c false 0 [0x00002808C14080C4] = .ok (.qpeekCnt ⟨0, false⟩ 5 6) 1 ∧
    decode .c false 0 [0x000160000000C0C4] = .ok (.flset ⟨0, false⟩ 11) 1 ∧
    decode .c false 0 [0x00016000000100C4] = .ok (.flclr ⟨0, false⟩ 11) 1 ∧
    decode .c false 0 [0x00036000C14140C4] = .ok (.flwait ⟨0, false⟩ 5 6 true 11) 1 ∧
    decode .c false 0 [0x00000000000340C4] = .ok (.yieldC ⟨0, false⟩) 1 ∧
    decode .c false 0 [0x00000000000380C4] = .ok (.endC ⟨0, false⟩) 1 := by
  decide

/-- The words are built from the field tables of the formats (R24 to R31) and of the family's entries. -/
theorem test_decode_hank :
    decode .c false 0 [0x00008000C00180C4] = .ok (.hbind ⟨0, false⟩ 4 6) 1 ∧
    decode .c false 0 [0x00008000C141C0C4] = .ok (.hclaim ⟨0, false⟩ 4 5 6) 1 ∧
    decode .c false 0 [0x00264000C141C0C4] = .ok (.hclaimR ⟨0, false⟩ 2 5 6 9) 1 ∧
    decode .c false 0 [0x00008070C00200C4] = .ok (.hcommit ⟨0, false⟩ 4 6 7) 1 ∧
    decode .c false 0 [0x00BE8070C00200C4] = .ok (.hcommitR ⟨0, false⟩ 4 6 7 47) 1 ∧
    decode .c false 0 [0x00008000C14240C4] = .ok (.hwaitf ⟨0, false⟩ 4 5 6) 1 ∧
    decode .c false 0 [0x00008000C14280C4] = .ok (.hwaite ⟨0, false⟩ 4 5 6) 1 ∧
    decode .c false 0 [0x00008000C142C0C4] = .ok (.htake ⟨0, false⟩ 4 5 6) 1 ∧
    decode .c false 0 [0x00008000C00300C4] = .ok (.hdone ⟨0, false⟩ 4 6) 1 := by
  decide

/-- The words are built from the field tables of the formats (R24 to R31) and of the family's entries. -/
theorem test_decode_launch :
    decode .c false 0 [0x00622000000000D0] = .ok (.evset ⟨0, false⟩ 3 17) 1 ∧
    decode .c false 0 [0x01FFE000000040D0] = .ok (.evclr ⟨0, false⟩ 15 255) 1 ∧
    decode .c false 0 [0x00622060014080D0] = .ok (.evwait ⟨0, false⟩ 5 6 3 17) 1 ∧
    decode .c false 0 [0x000001930000D0D0] = .ok (.dinit ⟨4, false⟩ 0 0 (.reg 24) (.reg 25)) 1 ∧
    decode .c false 0 [0x00000000038110D0] = .ok (.dclaim ⟨4, false⟩ (.reg 14) 0 0) 1 ∧
    decode .c false 0 [0x0017F450C000C0D0] = .ok (.dinit ⟨0, false⟩ 2 63 (.reg 6) (.queue 5 true)) 1 ∧
    decode .c false 0 [0x00198000100100D0] = .ok (.dclaim ⟨0, false⟩ (.queue 0) 3 12) 1 ∧
    decode .c false 0 [0x008000003050004C] = .ok (.launch ⟨0, false⟩ 5 ⟨6, 0, 512⟩) 1 := by
  decide

/-- The words are built from the field tables of the formats (R24 to R31) and of the family's entries. -/
theorem test_decode_span :
    decode .c true 0 [0x0000000101400050] = .ok (.spmint ⟨0, false⟩ 5 8) 1 ∧
    decode .c false 0 [0x0010606061404050] = .ok (.spnarrow ⟨0, false⟩ 5 3 (.reg 6) 0x83) 1 ∧
    decode .c false 0 [0x0000044061408050] = .ok (.spoff ⟨0, false⟩ 5 3 (.queue 4 false)) 1 ∧
    decode .c false 0 [0x000080006180C050] = .ok (.spget ⟨0, false⟩ (.reg 6) 3 4) 1 ∧
    decode .c false 0 [0x0000000061410050] = .ok (.spmov ⟨0, false⟩ 5 3) 1 ∧
    decode .c false 0 [0x0000200001410050] = .ok (.spmovClr ⟨0, false⟩ 5) 1 ∧
    decode .c false 0 [0x0000206061004050] = .ok (.spnarrow ⟨0, false⟩ 4 3 (.reg 6) 1) 1 ∧
    decode .c false 0 [0x000800A030300048] = .ok (.spld ⟨0, false⟩ 3 ⟨6, 0, 32⟩) 1 ∧
    decode .c false 0 [0xFFF800A498500048] = .ok (.spld ⟨0, false⟩ 5 ⟨3, 9, 0x3FFE0⟩) 1 ∧
    decode .c false 0 [0xFFF800A498504048] = .ok (.spst ⟨0, false⟩ 5 ⟨3, 9, 0x3FFE0⟩) 1 ∧
    decode .c false 0 [0x00000060A0414050] = .ok (.ovld ⟨0, false⟩ (.reg 1) (.reg 5) (.reg 6)) 1 ∧
    decode .c false 0 [0x00002060A0014050] = .ok (.ovldG ⟨0, false⟩ (.reg 5) (.reg 6)) 1 := by
  decide

/-- The words are built from the field tables of the formats (R24 to R31) and of the family's entries. -/
theorem test_decode_translation :
    decode .c true 0 [0x02460000A00000E0] = .ok (.tlbinvPage ⟨0, false⟩ (.reg 5) 0x123) 1 ∧
    decode .c true 0 [0x22460000000000E0] = .ok (.tlbinvAsid ⟨0, false⟩ 0x123) 1 ∧
    decode .c true 0 [0x40000000000000E0] = .ok (.tlbinvPart ⟨0, false⟩) 1 ∧
    decode .c true 0 [0x00000000000040E0] = .ok (.tlbsync ⟨0, false⟩) 1 ∧
    decode .c true 0 [0x02460000000080E0] = .ok (.dirtysync ⟨0, false⟩ 0x123) 1 := by
  decide

/-- The words are built from the field tables of the formats (R24 to R31) and of the family's entries. -/
theorem test_decode_system :
    decode .c false 0 [0x000E0000000000F0] = .ok (.trap ⟨0, false⟩ 7) 1 ∧
    decode .c true 0 [0x00000000000040F0] = .ok (.eret ⟨0, false⟩) 1 ∧
    decode .c false 0 [0x00000200014080F0] = .ok (.srd ⟨0, false⟩ (.reg 5) .dtc) 1 ∧
    decode .c false 0 [0x000006212000C0F0] = .ok (.swr ⟨0, false⟩ .roundseed (.reg 9)) 1 ∧
    decode .c true 0 [0x00000561214100F0] = .ok (.srx ⟨0, false⟩ (.reg 5) (.bfmt 11) (.reg 9)) 1 ∧
    decode .c false 0 [0x02580000000140F0] = .ok (.brk ⟨0, false⟩ 300) 1 ∧
    decode .c true 0 [0x00040000000180F0] = .ok (.halt ⟨0, false⟩ 2) 1 := by
  decide


/-! ### Small states -/

def g0 : Guard := ⟨0, false⟩
def b0 : BankId := ⟨0, 0⟩
def runs (pc : Word) : Stream := { Stream.reset with run := .running, pc := pc }
/-- A bank whose streams run at 16. -/
def bk : Bank := { Bank.reset with c := runs 16, g := runs 16 }
def withX (k : Bank) (l : List (BitVec 6 × Word)) : Bank := l.foldl (fun k p => k.setX p.1 p.2) k
/-- The machine with one bank, whose C stream runs. -/
def st (k : Bank) : State := { State.reset with banks := [(b0, k)] }
/-- The same, with its G stream running. -/
def stG (k : Bank) : State := { st k with cur := ⟨b0, .g⟩ }
/-- x1 = 7, x2 = −3, x3 = −2^63, x4 = −1, x5 = 64, x6 = 24, x7 = 4; q0 is empty, q4 holds 9 and 5. -/
def kInt : Bank :=
  (withX bk [(1, 7), (2, -3), (3, BitVec.intMin 64), (4, -1), (5, 64), (6, 24), (7, 4)]).setQ 4 [9, 5]

theorem opReg (k : Bank) (n : BitVec 6) : Operand k (.reg n) (k.getX n) k := And.intro rfl rfl
theorem opPop (k : Bank) (q : BitVec 3) (v : Word) (l : List Word) (hq : 4 ≤ q.toNat) (h : k.getQ q = v :: l) :
    Operand k (.queue q false) v (k.setQ q l) := And.intro hq ⟨l, h, rfl⟩
theorem opPeek (k : Bank) (q : BitVec 3) (v : Word) (l : List Word) (hq : 4 ≤ q.toNat) (h : k.getQ q = v :: l) :
    Operand k (.queue q true) v k := And.intro hq ⟨l, h, rfl⟩
theorem resReg (k : Bank) (n : BitVec 6) (v : Word) : Result k (.reg n) v (k.setX n v) := rfl
theorem resIs {k k' : Bank} {n : BitVec 6} {v : Word} (h : k.setX n v = k') : Result k (.reg n) v k' := h ▸ rfl
theorem resPush (k : Bank) (q : BitVec 3) (v : Word) (hq : q.toNat < 4) (h : (k.getQ q).length < (if q = 2 ∨ q = 3 then 64 else 16)) :
    Result k (.queue q) v (k.setQ q (k.getQ q ++ [v])) := And.intro hq ⟨h, rfl⟩
def okIs {α ε : Type} [DecidableEq α] (e : Except ε α) (a : α) : Bool :=
  match e with
  | .ok b => decide (b = a)
  | .error _ => false
def errIs {α : Type} (e : Except TrapInfo α) (t : TrapInfo) : Bool :=
  match e with
  | .ok _ => false
  | .error u => decide (u = t)
theorem okIs_eq {α ε : Type} [DecidableEq α] {e : Except ε α} {a : α} (h : okIs e a = true) : e = .ok a := by
  unfold okIs at h; split at h <;> simp_all
theorem errIs_eq {α : Type} {e : Except TrapInfo α} {t : TrapInfo} (h : errIs e t = true) : e = .error t := by
  unfold errIs at h; split at h <;> simp_all
/-- The state of an answer. -/
def stateOf {α ε : Type} (e : Except ε (α × State)) : State :=
  match e with
  | .ok p => p.2
  | .error _ => State.reset
def okFst {α ε : Type} [DecidableEq α] (e : Except ε (α × State)) (a : α) : Bool :=
  match e with
  | .ok p => decide (p.1 = a)
  | .error _ => false
theorem okFst_eq {α ε : Type} [DecidableEq α] {e : Except ε (α × State)} {a : α} (h : okFst e a = true) : e = .ok (a, stateOf e) := by
  unfold okFst at h; unfold stateOf; split at h <;> simp_all [Prod.ext_iff]
theorem roomReg (k : Bank) (n : BitVec 6) : Room k (.reg n) := trivial

/-! ### Witnesses: the hypotheses of each clause of each statement hold together somewhere -/

/-- StepRunsDecoded: a running stream at the ADD of R25's example; an event turn. -/
theorem test_witness_StepRunsDecoded :
    let s := State.reset.withFetchWord 64 0x00001440C1400810
    s.turns = [.issue ⟨b0, .c⟩] ∧ s.health.off = false ∧
      ({ s with turns := [], tick := 1 } : State).issues b0 = true ∧ (s.bank b0).c.run = .running ∧ (s.bank b0).c.pc.toNat % 8 = 0 ∧
      decode .c true 0 (s.bank b0).c.code = .ok (.add ⟨2, false⟩ (.reg 5) (.reg 6) (.queue 4 true)) 1 ∧
      (s.bank b0).outLoads = [] ∧ encode .schedulerRestart = none := by decide

/-- DecodeEncode: an instruction of three words. -/
theorem test_witness_DecodeEncode :
    let i : Instr := .ewr g0 ⟨5, 1, 0, 0, 0, .rne, false, .neg, .reg 2, 3, 0, 0, [0, 1], 0x4000, 0xBF80, .a, .k0, .k1, .fma, .x, .max, .stop, .stop⟩
    wellFormed i = true ∧ runsIn .g i = true ∧ encode i = some [0x0020000009400086, 0x680008, 0xBF80400000B6A541] := by decide

/-- ReservedMajor: the first and the last reserved values. -/
theorem test_witness_ReservedMajor : ∀ w ∈ [0x0, 0x3FC], fieldAt w 0 2 ≠ 3 ∧ fieldAt w 0 2 ≤ ([] : List Nat).length ∧
    fieldAt w 2 8 ∉ [0x04, 0x05, 0x06, 0x07, 0x08, 0x09, 0x0A, 0x0C, 0x10, 0x11, 0x12, 0x13, 0x14, 0x18, 0x19, 0x20, 0x21,
      0x24, 0x25, 0x28, 0x29, 0x2C, 0x30, 0x31, 0x34, 0x38, 0x3C] := by decide

/-- IntegerAndBitOperations, ImmediateResults: two registers into a register, a register and a popped entry into a queue, a peeked
entry into x0; the widest field; INS. -/
theorem test_witness_IntegerAndBitOperations :
    goes g0 (st kInt) ∧ Operand (here (st kInt)) (.reg 1) 7 kInt ∧ Operand kInt (.queue 4 false) 9 (kInt.setQ 4 [5]) ∧
      Operand kInt (.queue 4 true) 9 kInt ∧ Result kInt (.reg 9) 16 (kInt.setX 9 16) ∧ Result kInt (.reg 0) 16 kInt ∧
      Result kInt (.queue 0) 16 (kInt.setQ 0 [16]) ∧ (0 : BitVec 6).toNat + (63 : BitVec 6).toNat < 64 ∧
      (∀ i < 64, (0x7F0 : Word).getLsbD i = if 4 ≤ i ∧ i ≤ 4 + 6 then (0x7F : Word).getLsbD (i - 4) else (kInt.getX 9).getLsbD i) :=
  ⟨rfl, opReg kInt 1, opPop _ 4 9 [5] (by decide) rfl, opPeek _ 4 9 [5] (by decide) rfl, resReg .., resReg kInt 0 16,
    resPush kInt 0 16 (by decide) (by decide), by decide, by decide⟩

/-- DivisionResults: a zero divisor, −2^63 by −1, and −7 by 2 (R177). -/
theorem test_witness_DivisionResults : Operand kInt (.reg 0) 0 kInt ∧ Operand kInt (.reg 3) (BitVec.intMin 64) kInt ∧ Operand kInt (.reg 4) (-1) kInt ∧
    (2 : Word) ≠ 0 ∧ ¬((-7 : Word) = BitVec.intMin 64 ∧ (2 : Word) = -1) := ⟨opReg kInt 0, opReg kInt 3, opReg kInt 4, by decide, by decide⟩

/-- ImmediateResults: MOVI and MOVHI of R179's example. -/
theorem test_witness_ImmediateResults : goes g0 (st kInt) ∧
    Result (here (st kInt)) (.reg 5) ((0x9ABCDEF0 : BitVec 32).signExtend 64) (kInt.setX 5 0xFFFFFFFF9ABCDEF0) ∧
    Result (here (st kInt)) (.reg 5) ((0x12345678 : BitVec 32) ++ (kInt.getX 5).setWidth 32) (kInt.setX 5 0x1234567800000040) := by
  exact ⟨rfl, resIs (by decide +kernel), resIs (by decide +kernel)⟩

/-- ConditionResults: both outcomes, and SEL. -/
theorem test_witness_ConditionResults : goes g0 (st kInt) ∧ Operand kInt (.reg 2) (-3) kInt ∧ Operand kInt (.reg 1) 7 kInt ∧
    (true = true ↔ condition .lt (-3) 7) ∧ (false = true ↔ condition .lo (-3) 7) ∧
    Result kInt (.reg 9) (if readC (here (st kInt)) 1 then 7 else -3) (kInt.setX 9 (-3)) :=
  ⟨rfl, opReg kInt 2, opReg kInt 1, by simp [condition], by simp [condition], rfl⟩

/-- GuardFails: an ADD whose guard is the sense of c0, in the C stream, and a GADD in the G stream. -/
theorem test_witness_GuardFails :
    (wellFormed (.add ⟨0, true⟩ (.reg 1) (.reg 2) (.reg 3)) = true ∧ runsIn .c (.add ⟨0, true⟩ (.reg 1) (.reg 2) (.reg 3)) = true ∧
      encode (.add ⟨0, true⟩ (.reg 1) (.reg 2) (.reg 3)) = some [0x3040402010] ∧
      guardHolds (here (st kInt)).cC ⟨BitVec.ofNat 3 (fieldAt 0x3040402010 10 3), fieldAt 0x3040402010 13 1 = 1⟩ = false) ∧
    (wellFormed (.gidle ⟨0, true⟩) = true ∧ runsIn .g (.gidle ⟨0, true⟩) = true ∧ encode (.gidle ⟨0, true⟩) = some [0x26094] ∧
      guardHolds (here (stG kInt)).cG ⟨BitVec.ofNat 3 (fieldAt 0x26094 10 3), fieldAt 0x26094 13 1 = 1⟩ = false) := by decide

/-- ScalarFloatingPoint: 1.5 + 2.5, an FMA whose addend is RD, and operands of each special case. -/
theorem test_witness_ScalarFloatingPoint :
    let k := withX bk [(1, 0x3FC00000), (2, 0x40200000), (3, 0x3F800000)]
    goes g0 (st k) ∧ Operand (here (st k)) (.reg 1) 0x3FC00000 k ∧ Operand k (.reg 2) 0x40200000 k ∧
      Result k (.reg 3) (BitVec.ofNat 64 (fAdd .rne 0x3FC00000 0x40200000).1) (k.setX 3 0x40800000) ∧
      Result k (.reg 3) (BitVec.ofNat 64 (fFma .rne 0x3FC00000 0x40200000 ((here (st k)).getX 3).toNat).1) (k.setX 3 0x40980000) ∧
      Result k (.reg 3) (fcvtValue .toS32 .rtz 0x3FC00000).1 (k.setX 3 1) ∧
      (Rnd.rne ≠ .sr ∧ 0xFFC00000 % 2 ^ 31 > 0x7F800000 ∧ 0xFFC00000 < 2 ^ 32 ∧ 0x7F7FFFFF < 0x7F800000) := by
  exact ⟨rfl, opReg .., opReg .., resIs (by decide +kernel), resIs (by decide +kernel), resIs (by decide +kernel), by decide⟩

/-- TransfersAndLoops, MisalignedTargets: an aligned target in x6, a misaligned one in x7, a BC either way. -/
theorem test_witness_TransfersAndLoops : goes g0 (st kInt) ∧ Result kInt (.reg 1) (16 + 8) (kInt.setX 1 24) ∧ condition .lt (-3) 7 ∧ ¬condition .lt 7 (-3) ∧
    Operand kInt (.reg 6) 24 kInt ∧ (24 : Word).toNat % 8 = 0 ∧ Operand kInt (.reg 7) 4 kInt ∧ (4 : Word).toNat % 8 ≠ 0 :=
  ⟨rfl, rfl, by simp [condition], by simp [condition], opReg kInt 6, rfl, opReg kInt 7, by decide⟩

/-- HardwareLoops: bound 7 with step 4 (2 iterations), bound −3 with step 4 (0), the step 0, a bound and a step outside s32; and
two loops that end at 40, the inner with one iteration left. -/
theorem test_witness_HardwareLoops :
    goes g0 (st kInt) ∧ Operand kInt (.reg 1) 7 kInt ∧ Operand kInt (.reg 7) 4 kInt ∧
    ((7 : Word).toInt < 2 ^ 31 ∧ (4 : Word) ≠ 0 ∧ (4 : Word).toInt.natAbs * (2 - 1) < (7 : Word).toInt.natAbs ∧
      (7 : Word).toInt.natAbs ≤ (4 : Word).toInt.natAbs * 2) ∧
    ¬((0 < (-3 : Word).toInt ∧ 0 < (4 : Word).toInt) ∨ ((-3 : Word).toInt < 0 ∧ (4 : Word).toInt < 0)) ∧ Operand kInt (.reg 0) 0 kInt ∧
    (Operand kInt (.reg 3) (BitVec.intMin 64) kInt ∧ (BitVec.intMin 64).getLsbD 63 ≠ (BitVec.intMin 64).getLsbD 31 ∧
      ∀ i < 63, 32 ≤ i → (BitVec.intMin 64).getLsbD i = (BitVec.intMin 64).getLsbD 31) ∧
    (let o : LoopReg := ⟨0, true, 8, 40, 2, 1, 1⟩
     let i : LoopReg := ⟨3, true, 24, 40, 1, 1, 2⟩
     let k : Bank := { bk with lc := #v[o, i, LoopReg.reset, LoopReg.reset] }
     (k.lc[1]).active = true ∧ (k.lc[1]).stop = 40 ∧ (k.lc[1]).rem ≤ 1 ∧
      (∀ j : Fin 4, j ≠ 1 → (k.lc[j]).active = true → (k.lc[j]).stop = 40 → (k.lc[j]).order < (k.lc[1]).order) ∧
      (∀ j : Fin 4, (k.lc[j]).active = true → (k.lc[j]).stop ≠ 48)) :=
  ⟨rfl, opReg kInt 1, opReg kInt 7, by decide, by decide, opReg kInt 0, ⟨opReg kInt 3, by decide, by decide⟩, by decide⟩

/-! ### Memory -/

/-- b1: a scratchpad span; b2: a device-memory span at 0x10000; b3: a scratchpad span that grants A; b4: read only; b5: invalid; x1 = 8,
x2 = 0x1122, x3 = −1, x4 = 5. -/
def kMem : Bank :=
  let k := withX bk [(1, 8), (2, 0x1122), (3, -1), (4, 5)]
  let k := k.setB 1 ⟨mkSpan 0x100 0x1100 3 1 0 0 0 false 0, true⟩
  let k := k.setB 2 ⟨mkSpan 0x10000 0x20000 11 0 0 0 0 false 0, true⟩
  let k := k.setB 3 ⟨mkSpan 0 0x1000 11 1 0 0 0 false 0, true⟩
  k.setB 4 ⟨mkSpan 0x100 0x1100 1 1 0 0 0 false 0, true⟩

/-- Partitions 0 and 1, each with memory [0, 0x10000000). -/
def partRec : PartRec := ⟨0, 1, 1, 0, 1, 0, false, List.replicate 16 0, 0, [(0, 0x10000000)], []⟩
def ring0 : Ring := ⟨0x40000, 4, 0, 1⟩
def part1 : Part :=
  ⟨partRec, Vector.replicate 16 0, Vector.replicate 16 ring0, Vector.replicate 16 ring0, 1, [], [], 5, 0, 0, 0, 0, [], 0, none,
    ⟨0, 0, [], 0, 0, none, 0, [], [], [], [], []⟩, List.replicate 8 (List.replicate 32 0), [], []⟩
def parts2 : List (Nat × Part) := [(0, { part1 with record := { partRec with partid := 0 } }), (1, part1)]
/-- A cached translation of [0x10000, 0x20000) to [0x30000, 0x40000) in address space 0 of partition 0. -/
def tlbE : TlbEntry := ⟨.mem, 0, 0, 0x10000, 0x10000, 0x30000, 1, true, true, 0, 0, false, false, none, [], (0x10000, 0x10000)⟩
def sMem : State := { st kMem with parts := parts2, tlb := [tlbE], mem := [(0x30008, 0x34), (0x30009, 0x92)] }

theorem reaches {s : State} {k : Bank} {m : MemRef} {perm n addr cause : Nat} {mem spad dev write : Bool} {w : Where} {s1 : State} (r : SpanReg)
    (h : k.ea m perm n n mem spad dev = .ok (addr, r))
    (h' : locate s s.cur.bank (here s).asid.toNat r m.sb.toNat addr write cause = .ok (w, s1)) :
    Reaches s k m perm n mem spad dev write cause addr w s1 := ⟨r, h, h'⟩

/-- LoadsAndAcquiringReads: a sign-extending load of two bytes of device memory that an L1 line holds as an older copy, and one whose
L1 line holds what stands there; the same from scratchpad, into a queue; LDP, and one that misses the L1; a miss; a LOAD_RETURN of a hit and of a miss; LDA past
the L1 and LDA at `.co` on both L1 lines; a WAITA whose condition holds and one whose deadline has passed. -/
theorem test_witness_LoadsAndAcquiringReads :
    let x := tlbE.xlat 0x10008
    let hit : State := { sMem with l1 := [⟨0, 0x600, List.replicate 128 0, [], []⟩] }
    let same : State := { sMem with l1 := [⟨0, 0x600, List.replicate 8 0 ++ [0x34, 0x92] ++ List.replicate 118 0, [], []⟩] }
    let l : OutLoad := ⟨3, .reg 9, 0x30008, 2, true, false, 16, 24, 0x10008⟩
    let out := fun (s : State) => { s with banks := [(b0, { kMem with outLoads := [l] })] }
    (goes g0 sMem ∧ Room (here sMem) (.queue 2) ∧ (here sMem).c.wait = none ∧ Scope.cl ≠ .co) ∧
    (Reaches hit kMem ⟨2, 1, 0⟩ 1 2 true true true false 0x10 0x10008 (.place 0x30008 (some x)) hit ∧
      NothingOver hit 0x30008 2 ∧ hit.eccAt 0x30008 2 = false ∧ uncachedAt 0x30008 (some x) = false ∧ hit.l1Hit 0 0x30008 2 = some [0, 0] ∧
      L1Answers hit b0 0x30008 2 [0, 0] [0, 0] hit) ∧
    (Reaches same kMem ⟨2, 1, 0⟩ 1 2 true true true false 0x10 0x10008 (.place 0x30008 (some x)) same ∧
      same.l1Hit 0 0x30008 2 = some [0x34, 0x92] ∧ L1Answers same b0 0x30008 2 [0x34, 0x92] [0x34, 0x92] (same.noteRead b0 0x30008 2)) ∧
    (Reaches sMem kMem ⟨1, 1, 0⟩ 1 2 true true true false 0x10 0x108 (.place (spadPlace 0 0x108) none) sMem ∧
      NothingOver sMem (spadPlace 0 0x108) 2 ∧ uncachedAt (spadPlace 0 0x108) none = true) ∧
    (Reaches sMem kMem ⟨1, 1, 8⟩ 1 16 true true false false 0x10 0x110 (.place (spadPlace 0 0x110) none) sMem ∧
      Reaches sMem kMem ⟨2, 1, 8⟩ 1 16 true true false false 0x10 0x10010 (.place 0x30010 (some (tlbE.xlat 0x10010))) sMem ∧ sMem.l1Hit 0 0x30010 16 = none) ∧
    (Reaches sMem kMem ⟨2, 1, 0⟩ 1 2 true true true false 0x10 0x10008 (.place 0x30008 (some x)) sMem ∧ sMem.l1Hit 0 0x30008 2 = none) ∧
    (((out sMem).bank b0).outLoads.find? (fun q => q.id = 3) = some l ∧
      (∀ q ∈ ((out sMem).bank b0).outLoads.takeWhile (fun q => q.id ≠ l.id), overlap q.place q.size l.place l.size = false) ∧
      (out sMem).eccAt l.place l.size = false ∧ (out sMem).l1Hit 0 l.place l.size = none ∧
      (out hit).l1Hit 0 l.place l.size = some [0, 0] ∧ L1Answers (out hit) b0 l.place l.size [0, 0] [0, 0] (out hit) ∧ l.pair = false) ∧
    Reaches sMem kMem ⟨2, 1, 0⟩ 1 8 true true false false 0x10 0x10008 (.place 0x30008 (some x)) sMem ∧
    (waitaHolds .eq true (loaded false (sMem.viewC b0 0x30008 8)) 0x9234 = true ∧ NothingOver sMem 0x30008 8 ∧ sMem.eccAt 0x30008 8 = false) ∧
    ((4 : BitVec 6) ≠ 0 ∧ (kMem.getX 4).toNat ≤ ({ sMem with dtc := 5 } : State).dtc) := by
  refine ⟨⟨rfl, ⟨by decide, by decide⟩, rfl, by decide⟩, ⟨reaches _ rfl rfl, by decide, by decide, by decide, by decide, by decide, rfl⟩,
    ⟨reaches _ rfl rfl, by decide, by decide, rfl⟩, ⟨reaches _ rfl rfl, by decide⟩, ⟨reaches _ rfl rfl, reaches _ rfl rfl, by decide⟩, ⟨reaches _ rfl rfl, by decide⟩,
    ⟨by decide, by decide, by decide, by decide, by decide, ⟨by decide, rfl⟩, rfl⟩, reaches _ rfl rfl, by decide, by decide⟩


/-- SpanTraps: an invalid span, offsets below and at the end, a missing permission, a misaligned address. -/
theorem test_witness_SpanTraps :
    goes g0 sMem ∧ (kMem.getB 5).valid = false ∧ (kMem.getB 1).valid = true ∧
    ((kMem.getX 3) + (0 : BitVec 18).signExtend 64).toInt < 0 ∧
    (((kMem.getB 1).bits.extractLsb' 64 64).toNat : Int) - ((kMem.getB 1).bits.extractLsb' 0 64).toNat <
      ((kMem.getX 1) + (0xFF1 : BitVec 18).signExtend 64).toInt + 2 ^ (3 : BitVec 2).toNat ∧
    (0 ≤ ((kMem.getX 1) + (0xFF0 : BitVec 18).signExtend 64).toInt ∧
      ((kMem.getX 1) + (0xFF0 : BitVec 18).signExtend 64).toInt + 2 ^ (3 : BitVec 2).toNat ≤
        (((kMem.getB 1).bits.extractLsb' 64 64).toNat : Int) - ((kMem.getB 1).bits.extractLsb' 0 64).toNat) ∧
    ((kMem.getB 4).bits.extractLsb' 128 8).getLsbD 1 = false ∧
    ((kMem.getB 1).bits.extractLsb' 128 8 = 3 ∧ (kMem.getB 1).bits.extractLsb' 136 3 ∈ ([0, 1, 2] : List (BitVec 3)) ∧
      (((kMem.getB 1).bits.extractLsb' 0 64).toNat + 5) % 2 ^ (3 : BitVec 2).toNat ≠ 0) := by decide +kernel

/-- StoresAndReleases: a store to device memory and to scratchpad, one whose page is not mapped, STP, STL with nothing outstanding, and a
pending store with no fault. -/
theorem test_witness_StoresAndReleases :
    let x := tlbE.xlat 0x10008
    let p : PendStore := ⟨4, b0, 0, 0, 0, 0x10008, 0x30008, [1, 2], false, false, false, [], none⟩
    goes g0 sMem ∧ Operand (here sMem) (.reg 2) 0x1122 kMem ∧
    Reaches sMem kMem ⟨2, 1, 0⟩ 2 2 true true true true 0x12 0x10008 (.place 0x30008 (some x)) sMem ∧ NothingOver sMem 0x30008 2 ∧
    Reaches sMem kMem ⟨1, 1, 8⟩ 2 16 true true false true 0x12 0x110 (.place (spadPlace 0 0x110) none) sMem ∧ NothingOver sMem (spadPlace 0 0x110) 16 ∧
    (kMem.ea ⟨2, 1, 0⟩ 2 2 2 true true true = .ok (0x10008, kMem.getB 2) ∧
      locate (st kMem) b0 0 (kMem.getB 2) 2 0x10008 true 0x12 = .error ⟨0x12, 0x10008, 0x56⟩) ∧
    (Reaches sMem kMem ⟨2, 1, 0⟩ 2 2 true true true true 0x11 0x10008 (.place 0x30008 (some x)) sMem ∧ (sMem.bank b0).outLoads = [] ∧
      (∀ a ∈ (sMem.bank b0).amons, a.path ≠ 0) ∧ ((sMem.releaseStores b0 .cl).bank b0).held = [] ∧
      (sMem.releaseStores b0 .cl).eccAt 0x30008 2 = false) ∧
    (memWf sMem.mem = true ∧ ({ sMem with pend := [p] } : State).pend.find? (fun q => q.id = p.id) = some p ∧ p.fault = none ∧
      ({ sMem with pend := [p] } : State).eccAt p.place p.data.length = false ∧
      (∀ q ∈ (({ sMem with pend := [p] } : State).orderOf p).takeWhile (fun q => q.id ≠ p.id), q.meets p.place p.data.length = false) ∧
      (p.home = false ∧ ∀ q ∈ ({ sMem with pend := [p] } : State).pend, q.home = true → q.meets p.place p.data.length = false)) := by
  refine ⟨rfl, opReg kMem 2, reaches _ rfl rfl, by decide, reaches _ rfl rfl, by decide, ⟨rfl, rfl⟩, ⟨reaches _ rfl rfl, by decide⟩, by decide⟩

/-- Atomics: AMO.ADD.n32 on device memory with a register operand, AMO.B on scratchpad, and no pending write that meets the bytes. -/
theorem test_witness_Atomics :
    let x := tlbE.xlat 0x10008
    let p : PendStore := ⟨4, b0, 0, 0, 0, 0x10010, 0x30010, [1, 2], false, true, false, [], none⟩
    goes g0 sMem ∧ Room (here sMem) (.reg 9) ∧ Order.acq ≠ .rel ∧ Order.acq ≠ .ar ∧ memWf sMem.mem = true ∧
    (∀ q ∈ ({ sMem with pend := [p] } : State).pend, q.meets 0x30008 4 = false) ∧
    (kMem.behind 0 0x30008 4 = false ∧ kMem.behind 4 0x30008 8 = false ∧ kMem.behind 3 (spadPlace 0 8) 8 = false) ∧
    AtomicAt sMem kMem ⟨2, 1, 0⟩ 0 11 4 0x10008 0x30008 (some x) sMem ∧ AtomicAt sMem kMem ⟨2, 1, 0⟩ 4 11 8 0x10008 0x30008 (some x) sMem ∧
    AtomicAt sMem kMem ⟨3, 1, 0⟩ 3 11 8 8 (spadPlace 0 8) none sMem := by
  refine ⟨rfl, trivial, by decide, by decide, rfl, by decide, by decide, ⟨reaches _ rfl rfl, by decide⟩, ⟨reaches _ rfl rfl, by decide⟩, ⟨reaches _ rfl rfl, by decide⟩⟩

/-- ReturnFreeAtomics: each of the three paths, with nothing accepted and nothing held; an accepted operation that is performed, one that
meets an error, and one behind an earlier one to the same bytes. -/
theorem test_witness_ReturnFreeAtomics :
    let x := tlbE.xlat 0x10008
    let a : Amon := ⟨7, 4, .fadd, .f32, 0x3F800000, 0x30008, 0x10008, 2, []⟩
    let s : State := { sMem with banks := [(b0, { kMem with amons := [a, { a with id := 8 }] })] }
    let late := fun (n : Nat) => ({ s.bank b0 with amons := (s.bank b0).amons.takeWhile (fun q => q.id ≠ n) } : Bank).behind 4 0x30008 4
    (goes g0 sMem ∧ Operand (here sMem) (.reg 2) 0x1122 kMem ∧ AtomicAt sMem kMem ⟨2, 1, 0⟩ 0 10 4 0x10008 0x30008 (some x) sMem ∧
      AtomicAt sMem kMem ⟨3, 1, 0⟩ 3 10 8 8 (spadPlace 0 8) none sMem ∧ AtomicAt sMem kMem ⟨2, 1, 0⟩ 4 10 4 0x10008 0x30008 (some x) sMem) ∧
    ((here sMem).outLoads = [] ∧ (∀ q ∈ (here sMem).amons, q.path ≠ 0 ∧ q.path ≠ 3 ∧ q.path ≠ 4) ∧ (here sMem).held = [] ∧
      ((sMem.releaseStores b0 .dv).bank b0).held = [] ∧ ((sMem.performAll (sMem.bankAlu b0)).bank b0).held = []) ∧
    ((s.bank b0).amons.find? (fun q => q.id = 7) = some a ∧ late 7 = false ∧ s.eccAt a.place 4 = false ∧ (s.bank b0).binding = none) ∧
    ((s.bank b0).amons.find? (fun q => q.id = 8) = some { a with id := 8 } ∧ late 8 = true) ∧
    ({ s with bad := [0x30008] } : State).eccAt a.place 4 = true := by
  refine ⟨⟨rfl, opReg kMem 2, ⟨reaches _ rfl rfl, by decide⟩, ⟨reaches _ rfl rfl, by decide⟩, ⟨reaches _ rfl rfl, by decide⟩⟩, by decide, by decide,
    by decide, by decide⟩

/-- FencesComplete: nothing outstanding and nothing held; FENCE.P N with an accepted AMON.N, and with none; a PREF of device memory. -/
theorem test_witness_FencesComplete :
    let x := tlbE.xlat 0x10008
    let s : State := { sMem with banks := [(b0, { kMem with amons := [⟨7, 4, .fadd, .f32, 0x3F800000, 0x30008, 0x10008, 0, []⟩] })] }
    goes g0 sMem ∧ (here sMem).outLoads = [] ∧ (here sMem).held = [] ∧ (∀ a ∈ (here sMem).amons, a.path ≠ 0) ∧
    ((sMem.releaseStores b0 .dv).bank b0).held = [] ∧ sMem.pathsOpen b0 0b010001 = false ∧
    (((sMem.performEngines b0 0b010001).performCovered b0).bank b0).held = [] ∧ s.pathsOpen b0 0b010000 = true ∧
    Reaches sMem kMem ⟨2, 1, 0⟩ 1 1 true true false false 0x10 0x10008 (.place 0x30008 (some x)) sMem := by
  refine ⟨rfl, rfl, rfl, by decide, by decide, by decide, by decide, by decide, reaches _ rfl rfl⟩

/-- Wakes: for each cause a stream that waits for it; a deadline that has come. -/
theorem test_witness_Wakes :
    (∀ t ∈ ([.fenceP, .access, .waita, .pop, .push, .flag, .hclaim, .hwait, .hbind, .remoteHank, .cpwait, .channel, .aqwait, .querySlot, .evwait,
        .launchSlot] : List WaitTag),
      ((st { bk with c := { runs 16 with wait := some ⟨t, 0, 0, [], 0⟩ } }).bank b0).c.wait = some ⟨t, 0, 0, [], 0⟩) ∧
    ((st { bk with g := { runs 16 with wait := some ⟨.gidle, 0, 0, [], 0⟩ } }).bank b0).g.wait = some ⟨.gidle, 0, 0, [], 0⟩ ∧
    (WaitTag.waita = .waita ∧ ([7, 5] : List Word) = [7] ++ [5] ∧ (5 : Word).toNat ≤ ({ sMem with dtc := 5 } : State).dtc) := by decide

/-! ### Tensors and grid instructions -/

/-- Fields of a record of 512 bits: place and value. -/
def fields (l : List (Nat × Nat)) : BitVec 512 := BitVec.ofNat 512 (l.foldl (fun v p => v + p.2 * 2 ^ p.1) 0)
/-- A rank-1 f32 tensor of `n` elements in device-memory span b2, and one of rank 0 (R144). -/
def vecDesc (base n : Nat) : BitVec 512 := fields [(0, base), (59, 2), (64, n), (256, 1), (474, 8), (479, 1)]
def numDesc (base : Nat) : BitVec 512 := fields [(0, base), (59, 2), (474, 8)]
/-- TN = 1, and letter a four times in sequence (R124, R126). -/
def seqMap : BitVec 512 := fields [(480, 1), (0, 0x4003)]
/-- TN = 1, and letter a over two cores. -/
def coreMap : BitVec 512 := fields [(480, 1), (0, 0x3001)]

/-- t0 a number, t1 and t2 vectors of four, all owned by G; m1 = seqMap, m2 = coreMap; a staging window of 2048 bytes; q0 holds 7 and 8. -/
def kGrid : Bank :=
  let sp := kMem.getB 2
  let k := { kMem with spwin := BitVec.ofNat 64 (0x2000 + 2048 * 2 ^ 32) }
  let k := ((k.setT 0 ⟨numDesc 0x10000, .g, sp⟩).setT 1 ⟨vecDesc 0x10100 4, .g, sp⟩).setT 2 ⟨vecDesc 0x10200 4, .g, sp⟩
  ({ k with m := #v[0, seqMap, coreMap, 0, 0, 0, 0, 0] } : Bank).setQ 0 [7, 8]
/-- A record of one job, of `n` cores. -/
def recOf (n : Nat) : LaunchRec :=
  ⟨0, 1, 0, 0, 0, 0, 0, 0, 0, 0, 0, 1 + 0x100 + n * 2 ^ 16, 0, 0, [], 0, 0, 0, 0, 0, 0, List.replicate 16 0, 0, 0, []⟩
def qrecOf (n : Nat) : QRec := ⟨0, recOf n, false, [], true, none, 0⟩
/-- Job 7 of partition 1 with a bank in each of two cores. -/
def job7 : Job := ⟨7, 1, qrecOf 2, [0], [], [(b0, ⟨7, 1, 0, 0, 0⟩), (⟨1, 0⟩, ⟨7, 1, 0, 0, 1⟩)], true, none, [], [], [], [], none⟩
def sGrid : State := { stG kGrid with parts := parts2, tlb := [tlbE] }
/-- The same with job 7, the bank standing in its core `jk`. -/
def sGridJob (jk : Nat) : State :=
  { sGrid with jobs := [job7], banks := [(⟨jk, 0⟩, { kGrid with binding := some ⟨7, 1, 0, 0, jk⟩ })], cur := ⟨⟨jk, 0⟩, .g⟩ }

def gRed (m : BitVec 3) : GridArgs := ⟨1, 0, 0, m, [0], [], [], false, false, .rne, 0⟩
def gCtr (m : BitVec 3) : GridArgs := ⟨1, 2, 0, m, [0], [0], [], false, false, .rne, 0⟩
def gEwr (m : BitVec 3) : EwrArgs := ⟨1, 2, 0, 0, m, .rne, false, .neg, .queue 0 false, 1, 0, 0, [0], 0x3F80, 0, .a, .x, .mul, .stop, .stop, .stop, .stop, .stop⟩

/-- TensorMoves: 64 bytes of zeros, which are a well-formed descriptor of an int8 tensor of rank 0, and a place for 64 bytes. -/
theorem test_witness_TensorMoves :
    (goes g0 sMem ∧ Reads512 sMem ⟨1, 1, 56⟩ 0 (sMem.readPast b0 (spadPlace 0 0x140) 64) ∧ wellFormedDesc 0 = .ok () ∧ ((here sMem).getT 3).owner = .c) ∧
    (let s : State := { st (kMem.setB 0 ⟨mkSpan 0 0x1000 3 0 0 0 0 false 0, true⟩) with parts := parts2, tlb := [tlbE] }
     checkUse s b0 0 (named (s.bank b0) 0) 3 (if grants (named (s.bank b0) 0).bits 2 then 0 else 1) false = .ok 0) ∧
    (Reaches sMem kMem ⟨1, 1, 56⟩ 2 64 true true false true 0x12 0x140 (.place (spadPlace 0 0x140) none) sMem ∧ NothingOver sMem (spadPlace 0 0x140) 64) := by
  have h : Reads512 sMem ⟨1, 1, 56⟩ 0 (sMem.readPast b0 (spadPlace 0 0x140) 64) := by
    refine ⟨0x140, spadPlace 0 0x140, none, sMem, reaches _ rfl rfl, by decide, by decide, List.replicate 64 0, by decide +kernel, ?_⟩
    rw [if_pos (by decide)]
    exact ⟨by decide +kernel, rfl⟩
  exact ⟨⟨rfl, h, okIs_eq (by decide +kernel), rfl⟩, okIs_eq (by decide +kernel), reaches _ rfl rfl, by decide⟩

/-- TensorFile: TSET of word 0 of a register that C owns, a format, a mapping pair and a tile of their widths, a register that G owns, for TSET and for
TLD and TDEF, and a TSET that would leave a descriptor with bit 63 set. -/
theorem test_witness_TensorFile :
    (goes g0 (st kGrid) ∧ Operand kGrid (.reg 1) 8 kGrid ∧ (kGrid.getT 3).owner = .c ∧ wellFormedDesc 8 = .ok () ∧
      (∀ i < 512, (8 : BitVec 512).getLsbD i = if 64 * 0 ≤ i ∧ i < 64 * 0 + 64 then (8 : Word).getLsbD (i - 64 * 0) else (kGrid.getT 3).desc.getLsbD i)) ∧
    goesG g0 (stG kGrid) ∧ lowestOf (bfmtOffences 8) = none ∧
    (∀ i < 512, (8 * 2 ^ 75 : BitVec 512).getLsbD i = if 60 * 1 + 15 * 1 ≤ i ∧ i < 60 * 1 + 15 * 1 + 15 then (8 : Word).getLsbD (i - (60 * 1 + 15 * 1)) else (kGrid.getM 5).getLsbD i) ∧
    (kGrid.getT 1).owner = .g ∧ ((st { kGrid with c := { runs 16 with wait := some ⟨.tensorOwner, 1, 0, [], 0⟩ } }).bank b0).c.wait = some ⟨.tensorOwner, 1, 0, [], 0⟩ ∧
    kGrid.ea ⟨1, 1, 56⟩ 1 64 64 true true false = .ok (0x140, kGrid.getB 1) ∧
    (Operand kGrid (.reg 3) (-1) kGrid ∧ wellFormedDesc (setField512 (kGrid.getT 3).desc 0 64 (-1 : Word).toNat) = .error ⟨0x1B, 0, shapeAux 1 255 57⟩) := by
  refine ⟨⟨rfl, opReg kGrid 1, rfl, okIs_eq (by decide +kernel), by decide +kernel⟩, rfl, rfl, by decide +kernel, rfl, rfl, rfl, opReg kGrid 3, errIs_eq (by decide +kernel)⟩

/-- GridInstructions: RED and EWR alone in their core with every check passed (EWR pops q0), the same in a job whose other core takes no
part or one of whose two cores issues, the other than the root and the root; a failed check; MCHK; a stream that waits at issue, and an operation whose tiles are written. -/
theorem test_witness_GridInstructions :
    (goesG g0 sGrid ∧ GridForm g0 (.red g0 (gRed 1)) (.red (gRed 1)) 2 kGrid kGrid ∧ kGrid.g.wait = none ∧
      kGrid.notOwned (.red (gRed 1)) = none ∧ kGrid.grid.length < 4 ∧ gridChecks (.red (gRed 1)) sGrid b0 = ([(0, 0), (1, 0)], none) ∧
      (gridSeen sGrid (.red (gRed 1)) [(0, 0), (1, 0)]).isPart (sGrid.gridPlace b0).2 = true ∧
      ¬(1 < (gridSeen sGrid (.red (gRed 1)) [(0, 0), (1, 0)]).dims.2.2)) ∧
    (GridForm g0 (.ewr g0 { gEwr 1 with fd := 1, fa := 2 }) (.ewr { gEwr 1 with fd := 1, fa := 2 } 7) 3 kGrid (kGrid.setQ 0 [8]) ∧
      gridChecks (.ewr { gEwr 1 with fd := 1, fa := 2 } 7) sGrid b0 = ([(0, 0), (1, 0)], none)) ∧
    (gridChecks (.ctr (gCtr 1)) sGrid b0 = ([(0, 0), (1, 0), (2, 0)], none) ∧
      gridChecks (.ctr (gCtr 1)) (sGridJob 1) ⟨1, 0⟩ = ([(0, 0), (1, 0), (2, 0)], none) ∧
      (gridSeen (sGridJob 1) (.ctr (gCtr 1)) [(0, 0), (1, 0), (2, 0)]).isPart ((sGridJob 1).gridPlace ⟨1, 0⟩).2 = false) ∧
    (gridChecks (.cvt { gRed 0 with fa := 2, fc := 1, lsc := [0] }) sGrid b0 = ([(0, 0), (1, 0)], some ⟨0x1B, 0, shapeAux 1 255 480⟩) ∧
      ¬(1 < (gridSeen sGrid (.cvt { gRed 0 with fa := 2, fc := 1, lsc := [0] }) [(0, 0), (1, 0)]).dims.2.2)) ∧
    (let m : BitVec 512 := fields [(480, 1), (0, 0x3001), (15, 0x4001)]
     let s : State := { sGridJob 1 with banks := [(⟨1, 0⟩, { kGrid with binding := some ⟨7, 1, 0, 0, 1⟩, m := #v[0, 0, 0, m, 0, 0, 0, 0] })] }
     let w : GridWhat := .cvt { gRed 3 with fa := 2, fc := 1, lsc := [0] }
     gridChecks w s ⟨1, 0⟩ = ([(0, 0), (1, 0)], none) ∧ (gridSeen s w [(0, 0), (1, 0)]).isPart (s.gridPlace ⟨1, 0⟩).2 = true ∧
      1 < (gridSeen s w [(0, 0), (1, 0)]).dims.2.2 ∧ (s.gridPlace ⟨1, 0⟩).2 ≠ (0, 0, 0)) ∧
    (let m : BitVec 512 := fields [(480, 1), (0, 0x3001), (15, 0x4001)]
     let s : State := { sGridJob 0 with banks := [(b0, { kGrid with binding := some ⟨7, 1, 0, 0, 0⟩, m := #v[0, 0, 0, m, 0, 0, 0, 0] })] }
     let w : GridWhat := .cvt { gRed 3 with fa := 2, fc := 1, lsc := [0] }
     gridChecks w s b0 = ([(0, 0), (1, 0)], none) ∧ (gridSeen s w [(0, 0), (1, 0)]).isPart (s.gridPlace b0).2 = true ∧
      1 < (gridSeen s w [(0, 0), (1, 0)]).dims.2.2 ∧ (s.gridPlace b0).2 = (0, 0, 0) ∧ 1 < (gridSeen s w [(0, 0), (1, 0)]).present.length ∧ s.roots = []) ∧
    (goes g0 (st kGrid) ∧ Result kGrid (.reg 9) 0 (kGrid.setX 9 0) ∧ (gridChecks (.red (gRed 1)) { st kGrid with parts := parts2, tlb := [tlbE] } b0).2 = none) ∧
    ((stG { bk with g := { runs 16 with wait := some ⟨.gridOwner, 1, 0, [], 0⟩ } }).bank b0).g.wait = some ⟨.gridOwner, 1, 0, [], 0⟩ ∧
    (let o := { newGridOp kGrid (.red (gRed 1)) [] .written 0 none with tile := 1 }
     (({ sGrid with banks := [(b0, { kGrid with grid := [o] })] } : State).bank b0).grid.find? (fun q => q.seq = o.seq) = some o ∧ o.phase = .written ∧ o.todo = [] ∧ sGrid.spindle = []) := by
  refine ⟨⟨rfl, .inl ⟨_, rfl, rfl, .inr (.inr (.inl ⟨rfl, rfl⟩))⟩, rfl, by decide +kernel, by decide, by decide +kernel, by decide +kernel, by decide +kernel⟩,
    ⟨.inr ⟨_, 7, rfl, rfl, rfl, by decide, 7, [8], rfl, by decide, rfl⟩, by decide +kernel⟩, ?_, ?_, ?_, ?_, ⟨rfl, resReg .., by decide +kernel⟩, rfl, by decide +kernel⟩ <;>
  decide +kernel

/-- An operation of contraction 0 that waits for GO in the first core of job 7, and the record of its root, whose digest is `h`. -/
def opHash : GridOp := newGridOp kGrid (.red (gRed 2)) [] .hashed 0 none
def rootRec (h : List Byte) : RootRec := ⟨7, 0, (0, 0, 0), true, 2, [0], true, [1], [((0, 0, 0), 0, 0, [1]), ((0, 0, 1), 1, 0, h)]⟩
def spMsg (body : SpMsg) : SpindleMsg := ⟨3, 7, 0, (0, 0, 1), 1, (0, 0, 0), body, 0⟩
def partZ : GridPart := ⟨(0, 0, 1), 0, 0, 0, 0, [5], false, [], []⟩
def sRoot (h : List Byte) (l : List SpindleMsg) : State :=
  { sGridJob 0 with banks := [(b0, { kGrid with binding := some ⟨7, 1, 0, 0, 0⟩, grid := [opHash] })], roots := [rootRec h], spindle := l }

/-- ContractionMessages: a message of each class, a root with two hashes that agree or differ, and a tag in use, one free, and none free. -/
theorem test_witness_ContractionMessages :
    (∀ body ∈ ([.hash 0 [1] 2, .go none, .stop 9, .opnd partZ, .node partZ, .exact partZ] : List SpMsg),
      (sRoot [1] [spMsg body]).spindle.find? (fun q => q.id = (spMsg body).id) = some (spMsg body) ∧ (sRoot [1] []).recipient (spMsg body) = some b0 ∧
      ((sRoot [1] []).bank b0).gridNumbered (spMsg body).number = some opHash ∧ (spMsg body).number < 2 ^ 32) ∧
    (∀ h ∈ ([[1], [2]] : List (List Byte)), (sRoot h []).roots = [rootRec h] ∧ (rootRec h).ready = true ∧ (rootRec h).got.length = (rootRec h).parts ∧
      (∀ q ∈ (rootRec h).got, q.2.2.1 = 0) ∧ ((sRoot h []).job 7).bind (fun j => j.bankOf (0, 0, 0)) = some b0 ∧
      ((sRoot h []).bank b0).gridNumbered 0 = some opHash ∧ ((sRoot h []).bank b0).binding ≠ none ∧ (rootRec h).needTag = true) ∧
    (let used : List TagUse := [⟨[0], 0, 7, 5⟩]
     (∃ u ∈ used, u.job = 7 ∧ u.tag = 0 ∧ ∃ d ∈ (rootRec [1]).dies, d ∈ u.dies) ∧ (¬∃ u ∈ used, u.job = 7 ∧ u.tag = 1 ∧ ∃ d ∈ (rootRec [1]).dies, d ∈ u.dies) ∧
      (used.filter (fun u => u.job = 7 && u.dies.contains 0)).length < 16) ∧
    16 ≤ (((List.range 16).map (fun n => (⟨[0], n, 7, n⟩ : TagUse))).filter (fun u => u.job = 7 && u.dies.contains 0)).length ∧
    (∀ q ∈ (rootRec [1]).got, q.2.2.2 = (rootRec [1]).own) ∧ (∃ q ∈ (rootRec [2]).got, q.2.2.2 ≠ (rootRec [2]).own) := by decide +kernel

/-- CanonicalTree, BlockSums: three blocks, and the node of two of them given; two parts of a block, a lower scale, and a higher one. -/
theorem test_witness_BlockSums : 0 < 3 ∧ [valOfInt 5] ≠ [] ∧ [valOfInt 7] ≠ [] ∧
    (treeValue .int (fun i => (i + 5, 0)) (fun q => if q = (1, 0) then some 11 else none) 3 1 0).1 = (treeValue .int (fun i => (i + 5, 0)) (fun _ => none) 3 1 0).1 ∧
    ((partOf [valOfInt 4]).t < 2 ∧ (partOf [valOfInt 4]).v = 1 * 2 ^ (2 - (partOf [valOfInt 4]).t).toNat) ∧
    -200 ≤ (partOf ([valOfInt 5] ++ [valOfInt 7])).t ∧ (-200 : Int) ≤ ((partOf [valOfInt 5]).add (partOf [valOfInt 7])).t := by decide

/-- The partials of the worked run: the sums of die 1 for columns 0, 1 and 2 to 31, in the form of R407 (R409). -/
theorem test_workedPartials :
    (((partOf [.num false 1 16, .num false 1 (-8), .num false 1 (-18)]).tagged (some (-18))).pack 0 = 0x0000FFEE000000000000000400000401) ∧
    (((partOf [.num false 1 (-8)]).tagged (some (-18))).pack 0 = 0x0000FFEE000000000000000000000400) ∧
    (((partOf [.num false 257 0, .num false 0x4200 (-18)]).tagged (some (-18))).pack 0 = 0x0000FFEE000000000000000004044200) ∧
    (fineExp 0x0B).bind (fun a => (fineExp 0x0B).map (a + ·)) = some (-18) := by decide +kernel

/-! ### Scalars of the G stream, queues, flags -/

/-- y1 = 7, y2 = 1; q0 holds 9 and 5, q4 is empty, q5 holds 3; q2 is full. -/
def kG : Bank := ((({ bk with y := (bk.y.set 1 7).set 2 1 } : Bank).setQ 0 [9, 5]).setQ 5 [3]).setQ 2 (List.replicate 64 1)

/-- GridScalars: registers, a popped and a peeked entry, a register and a pushed entry; both outcomes of a compare. -/
theorem test_witness_GridScalars :
    goesG g0 (stG kG) ∧ GOperand (here (stG kG)) (.reg 1) 7 kG ∧ GOperand kG (.queue 0 false) 9 (kG.setQ 0 [5]) ∧ GOperand kG (.queue 0 true) 9 kG ∧
      GResult kG (.reg 3) 16 { kG with y := kG.y.set 3 16 } ∧ GResult kG (.queue 4) 16 (kG.setQ 4 [16]) ∧
      (true = true ↔ condition32 .lt (-3) 7) ∧ (false = true ↔ condition32 .lo (-3) 7) :=
  ⟨rfl, ⟨rfl, rfl⟩, ⟨by decide, 9, [5], rfl, by decide, rfl⟩, ⟨by decide, 9, [5], rfl, by decide, rfl⟩, rfl, ⟨by decide, by decide, rfl⟩,
    by simp [condition32], by simp [condition32]⟩

/-- GridFlagsAndEnd: an empty and a full set of queues to wait for; a bank with a grid instruction open, and one whose wait at GIDLE has noted
a flag write. -/
theorem test_witness_GridFlagsAndEnd :
    goesG g0 (stG kG) ∧ (∃ q : BitVec 3, q.toNat < 4 ∧ (here (stG kG)).getQ q ≠ []) ∧ (here (stG kG)).grid = [] ∧
    goesG g0 (stG bk) ∧ (∀ q : BitVec 3, q.toNat < 4 → (here (stG bk)).getQ q = []) ∧ (here (stG bk)).g.wait = none ∧
    (here (stG { bk with grid := [newGridOp bk (.red (gRed 1)) [] .running 0 none] })).grid ≠ [] ∧
    (∃ w, (here (stG { bk with g := { runs 16 with wait := some ⟨.gidle, 0, 0, [1], 0⟩ } })).g.wait = some w ∧ w.tag = .gidle ∧ w.vals = [1]) :=
  ⟨rfl, ⟨0, by decide, by decide⟩, rfl, rfl, by decide, rfl, by decide, ⟨_, rfl, rfl, rfl⟩⟩

/-- QueuesAndFlags: a push, a pop, a peek; queues of either direction, an empty and a full one; a flag with no deadline, with one that has
passed and with one to come. -/
theorem test_witness_QueuesAndFlags :
    let s : State := { st { kG with x := (kG.x.set 1 5).set 2 50 } with dtc := 9 }
    goes g0 s ∧ Operand (here s) (.reg 1) 5 (here s) ∧ Result (here s) (.queue 0) 5 ((here s).setQ 0 [9, 5, 5]) ∧
    Operand (here s) (.queue 5 false) 3 ((here s).setQ 5 []) ∧ Operand (here s) (.queue 5 true) 3 (here s) ∧
    Result (here s) (.reg 3) 1 ((here s).setX 3 1) ∧ Result (here s) (.reg 3) 0 ((here s).setX 3 0) ∧ (here s).getQ 4 = [] ∧
    (if (2 : BitVec 3) = 2 ∨ (2 : BitVec 3) = 3 then 64 else 16) ≤ ((here s).getQ 2).length ∧ (here s).outLoads = [] ∧
    (∀ w, (here s).g.wait = some w → w.tag ≠ .gidle) ∧ (here s).getFl 1 = false ∧ (here s).getFl 1 ≠ true ∧
    ((1 : BitVec 6) ≠ 0 ∧ ((here s).getX 1).toNat ≤ s.dtc) ∧ s.dtc < ((here s).getX 2).toNat :=
  ⟨rfl, opReg .., resPush _ 0 5 (by decide) (by decide), opPop _ 5 3 [] (by decide) rfl, opPeek _ 5 3 [] (by decide) rfl, resReg .., resReg ..,
    by decide, by decide, rfl, by decide, by decide, by decide, by decide, by decide⟩

/-! ### Hanks and joins -/

/-- A hank of four slots of 64 bytes at 0x1000, the same with core 1 for its producer, and one whose geometry is refused. -/
def geoL : Word := 0x30000001000
def geoR : Word := 0x410030000001000
/-- h1: HEAD 4, TAIL 6, CLAIMED 7; h2: nothing filled or claimed; h3: the same as h1 with producer core 1; h4: two filled, none claimed. -/
def hk (g : Option Word) (hd tl cl : Word32) : Hank := ⟨g, hd, tl, cl, [], [], []⟩
def kH : Bank :=
  { withX bk [(1, 1), (2, 2), (3, 6), (4, geoL), (5, 5), (6, geoR), (7, 9)] with
    binding := some ⟨7, 1, 0, 0, 0⟩,
    h := ((((bk.h.set 1 (hk (some geoL) 4 6 7)).set 2 (hk (some geoL) 5 5 5)).set 3 (hk (some geoR) 4 6 7)).set 4 (hk (some geoL) 4 6 6)) }
/-- A hank with a claim of core 1 that waits. -/
def hkClaim : Hank := { hk (some geoR) 4 6 7 with claims := [.stream 1 2] }
def sH : State := { st kH with jobs := [job7] }
def hubMsg (src : Nat) (hank : BitVec 4) (commit : Bool) (n : Word) : HubMsg := ⟨3, 7, 0, 0, src, 0, hank, commit, 6, n, []⟩

/-- Hanks: HBIND with 0, a local and a remote geometry; HCLAIM of one of the three free slots; HCOMMIT of the one claimed position, and of a
position behind the first of two; what HWAITF, HTAKE, HWAITE and HDONE ask for; and for each misuse a hank, a
value of a misaligned base, and a marked position. -/
theorem test_witness_Hanks :
    goes g0 sH ∧ (here sH).c.wait = none ∧
    ((here sH).getH 2 = hk (some geoL) 5 5 5 ∧ sH.deliveryOpen b0 2 = false ∧ (here sH).getX 0 = 0 ∧ (here sH).getX 4 ≠ 0 ∧ GeometryOk sH b0 ((here sH).getX 4) ∧
      GeometryOk sH b0 ((here sH).getX 6)) ∧
    (BoundHank (here sH) 1 (hk (some geoL) 4 6 7) geoL ∧ geoL.getLsbD 52 = false ∧ ((here sH).getX 1).toNat ≤ freeSlots (hk (some geoL) 4 6 7) (scnt geoL) ∧
      (here sH).outLoads = [] ∧ (∀ a ∈ (here sH).amons, a.path ≠ 0) ∧ ((sH.releaseStores b0 .co).bank b0).held = [] ∧
      (((((here sH).getX 3).setWidth 32 : Word32) - 6).toNat + 1 ≤ ((7 : Word32) - 6).toNat) ∧
      ((((((here sH).getX 7).setWidth 32 : Word32) - 8).toNat + 1 ≤ ((10 : Word32) - 8).toNat)) ∧
      ((here sH).getX 2).toNat ≤ filled (hk (some geoL) 4 6 7) ∧ ((here sH).getX 1).toNat < filled (hk (some geoL) 4 6 7) ∧ (∀ p ∈ sH.pend, p.bank ≠ b0)) ∧
    ((here sH).getH 5 = Hank.reset ∧ Hank.reset.geo = none) ∧
    ((here sH).getH 4 = hk (some geoL) 4 6 6 ∧ sH.deliveryOpen b0 4 = false) ∧ BoundHank (here sH) 3 (hk (some geoR) 4 6 7) geoR ∧ geoR.getLsbD 52 = true ∧
    scnt geoL < ((here sH).getX 5).toNat ∧ (((here sH).getX 3).toNat ≠ 0 ∧ filled (hk (some geoL) 4 4 4) < ((here sH).getX 1).toNat) ∧
    ((7 : Word32) - 6).toNat < ((((here sH).getX 3).setWidth 32 : Word32) - 6).toNat + ((here sH).getX 2).toNat ∧
    (GeometryFields 0x30000001001 ∧ ¬GeometryFits sH b0 0x30000001001) ∧
    (∃ i : Nat, i < 1 ∧ (6 : Word32) + BitVec.ofNat 32 i ∈ ([6] : List Word32)) := by
  refine ⟨?_, ?_, ?_, ?_, ?_, ?_, ?_, ?_, ?_, ?_, ?_, ?_, 0, ?_⟩ <;> decide +kernel
theorem test_witness_Hanks_result :
    Result ({ here sH with h := (here sH).h.set 1 { hk (some geoL) 4 6 7 with claimed := 8 } } : Bank) (.reg 9) (slotAnswer geoL 7)
      (({ here sH with h := (here sH).h.set 1 { hk (some geoL) 4 6 7 with claimed := 8 } } : Bank).setX 9 0x10C000000007) :=
  resIs (by decide +kernel)

/-- HankRemote, the home: core 1 names itself, and h3 of the team's core 0 is bound to core 1. -/
def sH2 : State := { sH with banks := [(b0, kH), (⟨1, 0⟩, { bk with binding := some ⟨7, 1, 0, 0, 1⟩ })] }
theorem test_witness_HankRemote_home :
    ((1 : BitVec 6).toNat = (⟨1, 0⟩ : BankId).core % 64 ∧ (sH2.bank ⟨1, 0⟩).binding = some ⟨7, 1, 0, 0, 1⟩ ∧ sH2.job 7 = some job7 ∧
      ∃ d, job7.banks.find? (fun q => q.2.jd = 0 && q.2.jc = 0 && (((sH2.bank q.1).getH 3).geo.map (fun g =>
        g.getLsbD 52 && (g.extractLsb' 58 6).toNat = (1 : BitVec 6).toNat)).getD false) = some (b0, d)) ∧
    (2 : BitVec 6).toNat ≠ b0.core % 64 ∧ sH2.homeOf ⟨1, 0⟩ 3 1 = 0 := by
  refine ⟨⟨?_, ?_, ?_, ⟨7, 1, 0, 0, 0⟩, ?_⟩, ?_, ?_⟩ <;> decide +kernel

/-- HankRemote: nothing sent, an answer, a reason; a message from the wrong core, a claim past the slots, one that is granted, two
that wait; a commit of none, of the claimed position, and of one too many; a home that is saved, and one that is nowhere. -/
theorem test_witness_HankRemote :
    (goes g0 sH ∧ (here sH).binding = some ⟨7, 1, 0, 0, 0⟩ ∧ ((sH.releaseStores b0 .cl).bank b0).held = []) ∧
    (∀ r ∈ ([1, 2] : List Word), (here (st { kH with c := { runs 16 with wait := some ⟨.remoteHank, 3, 1, [r, 4], 0⟩ } })).c.wait = some ⟨.remoteHank, 3, 1, [r, 4], 0⟩) ∧
    (∀ m ∈ [hubMsg 0 3 false 1, hubMsg 1 3 false 5, hubMsg 1 3 false 1, hubMsg 1 3 false 2],
      ({ sH with hub := [m] } : State).hub.find? (fun q => q.id = m.id) = some m ∧ sH.job m.job = some job7 ∧ job7.bankAt m.jd m.jc m.home = some b0 ∧
      (job7.bankAt m.jd m.jc m.src).isSome ∧ BoundHank (sH.bank b0) m.hank (hk (some geoR) 4 6 7) geoR) ∧
    (geoR.extractLsb' 58 6).toNat = (hubMsg 1 3 false 1).src ∧ (hubMsg 0 3 false 1).src ≠ 1 ∧ scnt geoR < (5 : Word).toNat ∧
    (1 : Word).toNat ≤ freeSlots (hk (some geoR) 4 6 7) (scnt geoR) ∧ freeSlots (hk (some geoR) 4 6 7) (scnt geoR) < (2 : Word).toNat ∧ hkClaim.claims ≠ [] ∧
    (∀ m ∈ [hubMsg 1 3 true 0, hubMsg 1 3 true 1, hubMsg 1 3 true 2],
      ({ sH with hub := [m] } : State).hub.find? (fun q => q.id = m.id) = some m ∧ sH.job m.job = some job7 ∧ job7.bankAt m.jd m.jc m.home = some b0 ∧
      BoundHank (sH.bank b0) m.hank (hk (some geoR) 4 6 7) geoR ∧ m.commit = true) ∧
    ((7 : Word32) - 6).toNat < ((6 : Word32) - 6).toNat + 2 ∧
    (let j : Job := { job7 with banks := [(⟨1, 0⟩, ⟨7, 1, 0, 0, 1⟩)], saved := [⟨0, 0, 0x40, 3, false, 3⟩] }
     j.bankAt 0 0 1 = some ⟨1, 0⟩ ∧ j.bankAt 0 0 0 = none ∧ (∃ t ∈ j.saved, t.jd = 0 ∧ t.jc = 0) ∧ (∀ t ∈ { j with saved := [] }.saved, ¬(t.jd = 0 ∧ t.jc = 0))) := by
  refine ⟨?_, ?_, ?_, ?_, ?_, ?_, ?_, ?_, ?_, ?_, ?_, ?_⟩
  · decide +kernel
  · exact fun r _ => rfl
  all_goals decide +kernel

/-- An arrival at join 2 of the first core's streams, with count 0. -/
def arr (kind : StreamKind) (ext : RdvExt) (opened : Bool) : Arrival := ⟨2, 0, 0, 0, 0, kind, 0, .both, ext, [11], opened⟩
def jobArr (l : List Arrival) : Job := { job7 with qrec := qrecOf 1, arrivals := l }
def sArr (k : Bank) (l : List Arrival) : State := { st k with jobs := [jobArr l] }
/-- A bank whose streams wait at join 2. -/
def kRdv : Bank :=
  { kH with rdvC := bk.rdvC.set 2 1, rdvG := bk.rdvG.set 2 1, c := { runs 16 with wait := some ⟨.rdv, 2, 1, [], 0⟩ }, g := { runs 16 with wait := some ⟨.rdv, 2, 1, [], 0⟩ } }

/-- JoinsAndEnd: a first arrival of either stream, one whose extent differs, one that leaves, an instance that is complete and one that
is not; YIELD and END in a bound bank. -/
theorem test_witness_JoinsAndEnd :
    (goes g0 (sArr kH []) ∧ goesG g0 { sArr kH [] with cur := ⟨b0, .g⟩ } ∧ (here (sArr kH [])).binding = some ⟨7, 1, 0, 0, 0⟩ ∧
      (sArr kH []).job 7 = some (jobArr []) ∧ (here (sArr kH [])).c.wait = none ∧ (here (sArr kH [])).g.wait = none ∧
      (here (sArr kH [])).outLoads = [] ∧ ((sArr kH []).releaseStores b0 .co |>.bank b0).held = []) ∧
    (∀ kind ∈ [StreamKind.c, .g], (here (sArr kRdv [arr kind .core true])).c.wait = some ⟨.rdv, 2, 1, [], 0⟩ ∧
      (here (sArr kRdv [arr kind .core true])).g.wait = some ⟨.rdv, 2, 1, [], 0⟩ ∧
      (jobArr [arr kind .core true]).arrivalOf 2 ((here (sArr kRdv [])).rdvC[2] - 1) (0, 0, 0) kind = some (arr kind .core true)) ∧
    ((jobArr [arr .g .job false]).arrivals.find? (fun q => q.same (arr .c .core false) && !(q.ext = .core && q.cls = .both)) = some (arr .g .job false)) ∧
    ((jobArr [arr .c .core false, arr .g .core false]).arrivals[1]? = some (arr .g .core false) ∧
      ((jobArr [arr .c .core false, arr .g .core false]).arrivals.filter (fun c => c.same (arr .g .core false))).head? = some (arr .c .core false)) ∧
    (∀ p ∈ (jobArr []).coords, inExtent RdvExt.core (arr .c .core false).at p = true → ∀ k ∈ [StreamKind.c, .g], clsHas .both k = true →
      ∃ c ∈ [arr .c .core false, arr .g .core false], c.same (arr .g .core false) = true ∧ c.at = p ∧ c.kind = k) ∧
    (∃ p ∈ (jobArr []).coords, inExtent RdvExt.core (arr .c .core false).at p = true ∧ ∃ k ∈ [StreamKind.c, .g], clsHas .both k = true ∧
      ∀ c ∈ [arr .c .core false], c.same (arr .c .core false) = true → c.at = p → c.kind ≠ k) := by
  refine ⟨?_, ?_, ?_, ?_, ?_, ?_⟩ <;> decide +kernel

/-! ### Copies and Ply -/

/-- Four slots of 128 bytes. -/
def geoS : Word := 0x30100001000
/-- b0: scratchpad [0, 0x4000) for reading and writing; b6: the scratchpad of core 1; b7: another device. x1 = 0x40, x2 = 0x80, x3 = 16, x4 = 2,
x5 = 3; h1 of the bank takes slots of 128 bytes. -/
def kCopy : Bank :=
  let k := withX { kMem with spwin := 0 } [(1, 0x40), (2, 0x80), (3, 16), (4, 2), (5, 3)]
  let k := (k.setB 0 ⟨mkSpan 0 0x4000 3 1 0 0 0 false 0, true⟩).setB 6 ⟨mkSpan 0 0x1000 3 2 0 1 0 false 0, true⟩
  let k := k.setB 7 ⟨mkSpan 0 0x1000 3 3 0 0 0 false 5, true⟩
  { k with binding := some ⟨7, 1, 0, 0, 0⟩, h := k.h.set 1 (hk (some geoS) 4 6 6) }
def sCopy : State := { st kCopy with jobs := [job7], parts := parts2, tlb := [{ tlbE with part := 1 }] }
def spanC (n : BitVec 4) : SpanReg := kCopy.getB n
def form1 : PlyForm := ⟨false, 0⟩
/-- Two records of one FP32 value in descending order of index, and two in ascending order. -/
def plyMem : List Host.Cell := putBytes (putBytes [] (spadPlace 0 0x40) (bytesOf 8 0x3F80000000000005 ++ bytesOf 8 0x3F80000000000002))
  (spadPlace 0 0x80) (bytesOf 8 0x3F80000000000002 ++ bytesOf 8 0x3F80000000000005)

/-- Copies: COPY within the scratchpad with a completion word, MCAST to core 1, TCOPY of a vector, what CPWAIT and CPSTAT ask. -/
theorem test_witness_Copies :
    (goes g0 sCopy ∧ Room (here sCopy) (.reg 9) ∧ Operand (here sCopy) (.reg 1) 0x40 kCopy ∧ Operand kCopy (.reg 2) 0x80 kCopy ∧
      pending ((here sCopy).getChan 1) < 16 ∧ CompletionWord (here sCopy) (some .cl) 0 ((here sCopy).getX 3) (some (spanC 0, .cl, 16)) ∧
      EngineSpan (here sCopy) 0 0x80 16 pW [0, 1, 2, 3] 0x80 (spanC 0) ∧ EngineSpan (here sCopy) 0 0x40 16 pR [0, 1, 2, 3] 0x40 (spanC 0) ∧
      EngineSpan (here sCopy) 7 0x40 16 pR [0, 1, 2, 3] 0x40 (spanC 7) ∧ ¬(sSPACE (spanC 0).bits = 3 ∧ sSPACE (spanC 0).bits = 3) ∧
      sSPACE (spanC 7).bits = 3 ∧ sCopy.elsewhere (spanC 0) (sBASE (spanC 0).bits) = false) ∧
    (EngineSpan (here sCopy) 6 0x80 0x40 pW [2] 0x80 (spanC 6) ∧ EngineSpan (here sCopy) 0 0 0x40 pR [0, 1, 2] 0 (spanC 0) ∧
      (∀ c : Nat, c < 48 → (2 : BitVec 48).getLsbD c = true → sCopy.jobOf b0 = some job7 ∧ ∃ q ∈ job7.banks, q.1.core = 0 / 64 * 64 + c)) ∧
    (Operand kCopy (.reg 4) 2 kCopy ∧ (∀ w, (here sCopy).c.wait = some w → w.tag ≠ .cpwait) ∧ (kCopy.getChan 0).next ≤ (2 : Word).toNat ∧
      ({ kCopy with chan := kCopy.chan.set 0 ⟨4, 2, []⟩ } : Bank).getChan 0 = ⟨4, 2, []⟩ ∧ (2 : Word).toNat < 4 ∧ 2 < (3 : Word).toNat) := by
  refine ⟨⟨rfl, trivial, opReg .., opReg .., by decide, ⟨0, spanC 0, ⟨rfl, okIs_eq (by decide +kernel), by decide +kernel, by decide +kernel⟩, rfl, rfl⟩,
      ⟨rfl, okIs_eq (by decide +kernel), by decide +kernel, by decide +kernel⟩, ⟨rfl, okIs_eq (by decide +kernel), by decide +kernel, by decide +kernel⟩,
      ⟨rfl, okIs_eq (by decide +kernel), by decide +kernel, by decide +kernel⟩, by decide +kernel, by decide +kernel, by decide +kernel⟩,
    ⟨⟨rfl, okIs_eq (by decide +kernel), by decide +kernel, by decide +kernel⟩, ⟨rfl, okIs_eq (by decide +kernel), by decide +kernel, by decide +kernel⟩, by decide +kernel⟩,
    opReg .., by decide, by decide, rfl, by decide, by decide⟩

/-- A vector of four in span b0's scratchpad, with bank 0 formatted as f32. -/
def tVec (base : Nat) : Tensor := ⟨fields [(0, base), (57, 1), (64, 4), (256, 1), (474, 8), (479, 1)], .c, spanC 0⟩
def sTcopy : State := { sCopy with banks := [(b0, { (kCopy.setT 1 (tVec 0x40)).setT 2 (tVec 0x80) with bfmt := kCopy.bfmt.set 0 8 })] }

theorem test_witness_Copies_tcopy :
    (checkUse sTcopy b0 (tVec 0x80).desc (spanC 0) 2 0 false = .ok 8 ∧ checkUse sTcopy b0 (tVec 0x40).desc (spanC 0) 1 1 false = .ok 8) ∧
    ((letterNums [0]).length = (Desc.of (tVec 0x80).desc).rank ∧
      (∀ i l : Nat, (letterNums [0])[i]? = some l → l ∈ letterNums [0] ∧
        (Desc.of (tVec 0x40).desc).extAt i = (Desc.of (tVec 0x80).desc).extAt ((letterNums [0]).idxOf l))) ∧
    (sPERM (spanC 0).bits &&& (pSPANSTORE + pDEV) = 0 ∧ CompletionWord (here sTcopy) none 0 1 none (pSPANSTORE + pDEV)) := by
  refine ⟨⟨okIs_eq (by decide +kernel), okIs_eq (by decide +kernel)⟩, ⟨by decide +kernel, ?_⟩, by decide +kernel, rfl⟩
  intro i l h
  match i, h with
  | 0, h => obtain rfl : 0 = l := by simpa [letterNums] using h
            exact ⟨by decide, by decide +kernel⟩

/-- A COPY of 16 bytes that has moved nothing. -/
def xCopy : Xfer := ⟨1, .copy (spanC 0) (spanC 0) 0x40 0x80 16, 0, none, 0, 0, false, false, []⟩
def sXfer : State := { sCopy with banks := [(b0, { kCopy with chan := kCopy.chan.set 1 ⟨2, 0, [xCopy]⟩ })], mem := plyMem }

theorem test_witness_Copies_moves : memWf sXfer.mem = true ∧ (sXfer.bank b0).findXfer 1 xCopy.id = some xCopy ∧ sSPACE (spanC 0).bits = 1 ∧
    sXfer.jobOf b0 = some job7 ∧ job7.aborted = none ∧
    spadPlace 0 (sBASE (spanC 0).bits + 0x40) + 16 ≤ spadPlace 0 (sBASE (spanC 0).bits + 0x80) ∧ sXfer.eccAt (spadPlace 0 0x40) 16 = false ∧ (∀ q ∈ sXfer.pend, (q.visible = true → q.meets (spadPlace 0 0x40) 16 = false) ∧ (q.home = true → q.meets (spadPlace 0 0x80) 16 = false) ∧
      ¬(q.bank = b0 ∧ q.path = 2 ∧ q.op = 1 + 8 * xCopy.id)) ∧
    (∀ y ∈ ((sXfer.bank b0).getChan 1).xfers, y.id = xCopy.id ∨ xCopy.id < y.id) ∧ xCopy.id < ((sXfer.bank b0).getChan 1).next := by decide +kernel

def sPly : State := { sCopy with mem := plyMem }
/-- A PLYRED of job 7 whose two members have reached `ph`, and what is to be delivered. -/
def plyMem1 (ph : GridPhase) (stop : Option Held) : PlyMember := ⟨(0, 0, 0), ph, stop, 1, 0, spanC 0, 0x80, 2, 0, []⟩
def plyOp (ph : GridPhase) (stop : Option Held) (out : Option (List (Bool × Nat × List Nat))) : PlyOp :=
  ⟨0, 7, 2 ^ 32, true, form1, false, 0, 100, 0, (0, 0, 0), 1, [(0, 0, 0)], [plyMem1 ph stop], out, 0⟩
def sRed (ph : GridPhase) (stop : Option Held) (out : Option (List (Bool × Nat × List Nat))) : State :=
  { sPly with ply := [plyOp ph stop out], banks := [(b0, { kCopy with c := { runs 16 with wait := some ⟨.gridGo, 0, 0, [0x100000000], 0⟩ } })] }

/-- PlyOperations: PLYSORT of two records, with an accepted AMON.B on them and without, PLYSEND of two to the bank's own h1, a PLYRED after GO and after STOP, a stream of one entry
and of many that is ready for delivery. -/
theorem test_witness_PlyOperations :
    (goes g0 sPly ∧ Operand (here sPly) (.reg 1) 0x40 kCopy ∧ Operand kCopy (.reg 4) 2 kCopy ∧ (2 : Word).toNat < 2 ^ 16 ∧
      EngineSpan (here sPly) 0 0x40 ((2 : Word).toNat * form1.rs) (pR + pW) [1] 0x40 (spanC 0) ∧ memWf sPly.mem = true ∧
      sPly.eccAt (spadPlace 0 0x40) ((2 : Word).toNat * form1.rs) = false ∧ (here sPly).behind 3 (spadPlace 0 0x40) 16 = false ∧
      ({ kCopy with amons := [⟨7, 3, .fadd, .f32, 0, spadPlace 0 0x44, 0x44, 0, []⟩] } : Bank).behind 3 (spadPlace 0 0x40) 16 = true) ∧
    (Operand (here sPly) (.reg 2) 0x80 kCopy ∧ EngineSpan (here sPly) 0 0x80 ((2 : Word).toNat * form1.rs) pR [0, 1, 2] 0x80 (spanC 0) ∧
      (here sPly).binding = some ⟨7, 1, 0, 0, 0⟩ ∧ sPly.plyTarget b0 (0 : BitVec 11).toNat = some ((0, 0, 0), kCopy) ∧ (kCopy.getH 1).geo = some geoS ∧ geoS.getLsbD 52 = false ∧
      max (8 + form1.rs) (12 + form1.d * form1.vw) ≤ 64 * ((geoS.extractLsb' 32 6).toNat + 1) ∧
      plyIndices (sPly.xCtx b0 0 (here sPly).asid (spanC 0)) form1.rs none 2 sPly 0x80 0 none = .ok sPly) ∧
    (∀ ph ∈ [GridPhase.running, .stopped], (here (sRed ph (some ⟨0x1B, 0, 9, 0⟩) none)).c.wait = some ⟨.gridGo, 0, 0, [0x100000000], 0⟩ ∧
      (here (sRed ph (some ⟨0x1B, 0, 9, 0⟩) none)).getX 1 = 0x40 ∧
      pending ((here (sRed ph (some ⟨0x1B, 0, 9, 0⟩) none)).getChan 1) < 16 ∧
      (sRed ph (some ⟨0x1B, 0, 9, 0⟩) none).ply.find? (fun q => q.red && q.job = job7.id && q.number = (0x100000000 : Word).toNat) = some (plyOp ph (some ⟨0x1B, 0, 9, 0⟩) none) ∧
      (plyOp ph (some ⟨0x1B, 0, 9, 0⟩) none).members.find? (fun q => q.c = (0, 0, 0)) = some (plyMem1 ph (some ⟨0x1B, 0, 9, 0⟩))) ∧
    (let s := sRed .written none (some [(false, 3, [0x40000000])])
     s.ply.find? (fun q => q.id = 0) = some (plyOp .written none (some [(false, 3, [0x40000000])])) ∧ job7.bankOf (0, 0, 0) = some b0 ∧
      BoundHank (s.bank b0) (BitVec.ofNat 4 1) (hk (some geoS) 4 6 6) geoS ∧
      1 ≤ freeSlots (hk (some geoS) 4 6 6) (scnt geoS) ∧ (∀ q ∈ s.jobs, q.aborted = none)) := by
  refine ⟨⟨rfl, opReg .., opReg .., by decide, ⟨rfl, okIs_eq (by decide +kernel), by decide +kernel, by decide +kernel⟩, by decide +kernel, by decide +kernel, by decide +kernel, by decide +kernel⟩,
    ⟨opReg .., ⟨rfl, okIs_eq (by decide +kernel), by decide +kernel, by decide +kernel⟩, rfl, by decide +kernel, by decide +kernel, by decide +kernel, by decide +kernel, okIs_eq (by decide +kernel)⟩,
    by decide +kernel, by decide +kernel⟩

/-! ### Attar -/

/-- b8: a region's span at 0x10000; b0: scratchpad. x1 = 0, x2 = 0x40, x3 = rows [0, 2), x4 = 1, x5 = the region's handle. h2 takes slots of
256 bytes. -/
def kAttar : Bank :=
  let k := withX kMem [(1, 0), (2, 0x40), (3, 0x200000000), (4, 1), (5, 0xC3)]
  let k := (k.setB 0 ⟨mkSpan 0 0x4000 3 1 0 0 0 false 0, true⟩).setB 8 ⟨mkSpan 0x10000 0x20000 (pATTAR + 1) 0 0 0 0 false 0, true⟩
  { k with binding := some ⟨7, 1, 0, 0, 0⟩, h := k.h.set 2 (hk (some 0x30300001000) 4 6 6) }
/-- The region of handle 0xC3: stack 3, context 3, HD 32, one unit, rows 2, VALID 1. -/
def reg3 : AttarRegion := ⟨3, 3, 0, true, 1, 0, 7, 0x10000, [0x3000030000], 32, 0, 2, 1⟩
def scan3 : AttarQuery := ⟨7, (0, 0, 0), 5, 3, 3, 1, 0, 2, List.replicate 64 0, 2, 0, []⟩
def slot3 : QuerySlot := ⟨0, 5, 0xC3, 2, 1, 0, 0, 0⟩
def sAttar : State :=
  { st kAttar with jobs := [job7], parts := parts2, tlb := [{ tlbE with part := 1, attar := true }], regions := [reg3] }
/-- The same, its stream waiting for a reply with `vals`, and the request under way. -/
def sReply (vals : List Word) (q : Option AttarReq) : State :=
  { sAttar with banks := [(b0, { kAttar with attarReq := q, c := { runs 16 with wait := some ⟨.attarReply, 0, 0, vals, 0⟩ } })] }

/-- AttarInstructions: what each asks for, each kind of reply, a query that is over and one that is not. -/
theorem test_witness_AttarInstructions :
    (goes g0 sAttar ∧ Room (here sAttar) (.reg 9) ∧ Operand (here sAttar) (.reg 1) 0 kAttar ∧ Operand kAttar (.reg 4) 1 kAttar ∧
      EngineSpan (here sAttar) 8 0 ((2 : BitVec 20).toNat * rowBlock ((31 : BitVec 8).toNat + 1)) pATTAR [0] 0x10000 (kAttar.getB 8) ∧
      (sBASE (kAttar.getB 8).bits / 2 ^ 55) % 4 = 0 ∧
      attarPages sAttar b0 (((2 : BitVec 20).toNat * rowBlock ((31 : BitVec 8).toNat + 1) + 4095) / 4096) 0x10000 = .ok ([(0x30000, true)], sAttar)) ∧
    (Operand kAttar (.reg 3) 0x200000000 kAttar ∧ (0x200000000 : Word).toNat % 2 ^ 32 ≤ (0x200000000 : Word).toNat / 2 ^ 32 ∧
      ((here sAttar).getH 2).geo = some 0x30300001000 ∧ (0x30300001000 : Word).getLsbD 52 = false ∧ (here sAttar).queries.length < 16 ∧ (here sAttar).held = []) ∧
    (∀ vals ∈ ([[1, 0], [3, 32], [2, 0x28, 5, 6]] : List (List Word)), (here (sReply vals none)).c.wait = some ⟨.attarReply, 0, 0, vals, 0⟩) ∧
    (EngineSpan (here sAttar) 0 0x40 (rowBlock (32 : Word).toNat) pR [0, 1] 0x40 (kAttar.getB 0) ∧
      sAttar.engLoad (sAttar.aCtx b0 (kAttar.getB 0)) 0x40 (rowBlock (32 : Word).toNat) = .ok (List.replicate 128 0, sAttar) ∧
      EngineSpan (here sAttar) 0 0x40 (2 * (32 : Word).toNat) pR [0, 1] 0x40 (kAttar.getB 0) ∧
      sAttar.engLoad (sAttar.aCtx b0 (kAttar.getB 0)) 0x40 (2 * (32 : Word).toNat) = .ok (List.replicate 64 0, sAttar) ∧
      48 + 4 * (32 : Word).toNat ≤ 64 * (((0x30300001000 : Word).extractLsb' 32 6).toNat + 1)) ∧
    ([slot3].find? (fun t => t.id = 5) = some slot3 ∧ slot3.committed < slot3.nu ∧ ({ slot3 with committed := 1 } : QuerySlot).nu ≤ 1) := by
  refine ⟨⟨rfl, trivial, opReg .., opReg .., ⟨rfl, okIs_eq (by decide +kernel), by decide +kernel, by decide +kernel⟩, by decide +kernel, okIs_eq (by decide +kernel)⟩,
    ⟨opReg .., by decide, by decide, by decide, by decide, rfl⟩, fun v _ => rfl,
    ⟨⟨rfl, okIs_eq (by decide +kernel), by decide +kernel, by decide +kernel⟩, ?_, ⟨rfl, okIs_eq (by decide +kernel), by decide +kernel, by decide +kernel⟩, ?_, by decide⟩, by decide⟩ <;>
  rfl

def reqOf (w : AttarWhat) (args : List Nat) (pages : List (Nat × Bool)) : AttarReq := ⟨w, args, [], pages⟩

/-- AttarStacksAndScans: a handle of no region; each request on the region of handle 0xC3, with a row count past its rows, a full region and
one with room; a registration; a query's next unit. -/
theorem test_witness_AttarStacksAndScans :
    (∀ q ∈ [reqOf .ask [0xC4] [], reqOf .ask [0xC3] [], reqOf .free [0xC3] [], reqOf .commit [0xC3, 3] [], reqOf .commit [0xC3, 2] [], reqOf .append [0xC3] [],
        reqOf .query [0xC3, 0, 2, 2] [], reqOf .register [0x10000, 32, 0, 2, 1] [(0x30000, true), (0x31000, true)]],
      ((sReply [] (some q)).bank b0).attarReq = some q ∧ ((sReply [] (some q)).bank b0).c.wait = some ⟨.attarReply, 0, 0, [], 0⟩ ∧
      ((sReply [] (some q)).bank b0).binding = some ⟨7, 1, 0, 0, 0⟩) ∧
    sAttar.region 7 0xC4 = none ∧ sAttar.region 7 0xC3 = some reg3 ∧ (∀ x ∈ sAttar.regions, x.stack = reg3.stack → x.index = reg3.index → x = reg3) ∧
    (∀ t ∈ sAttar.scans, ¬(t.stack = reg3.stack ∧ t.index = reg3.index)) ∧ reg3.rows < 3 ∧ 2 ≤ reg3.rows ∧ reg3.valid < reg3.rows ∧
    ({ reg3 with valid := 2 } : AttarRegion).rows ≤ 2 ∧
    (memWf sAttar.mem = true ∧ (List.replicate 128 (1 : Byte)).length = rowBlock reg3.hd ∧ (∀ p ∈ reg3.pages, p % 4096 = 0) ∧ reg3.pages.Nodup ∧
      rowBlock reg3.hd * (reg3.valid + 1) ≤ 4096 * reg3.pages.length ∧ sAttar.part reg3.part = some part1 ∧ trackOf sAttar part1.record reg3.asid = none) ∧
    (∀ p ∈ [(0x31000, true)], p.2 = true ∧ p.1 / 2 ^ 36 % 8 = 0x30000 / 2 ^ 36 % 8) ∧
    (∃ i, i < 64 ∧ ∀ x ∈ sAttar.regions, ¬(x.live = true ∧ x.stack = 0x30000 / 2 ^ 36 % 8 ∧ x.index = i)) ∧
    (let s : State := { sAttar with scans := [scan3], banks := [(b0, { kAttar with queries := [slot3] })] }
     memWf s.mem = true ∧ s.scans.find? (fun x => decide (x.job = 7 ∧ x.c = (0, 0, 0) ∧ x.id = 5)) = some scan3 ∧
      s.regions.find? (fun x => x.stack = scan3.stack && x.index = scan3.index) = some reg3 ∧
      BoundHank (s.bank b0) (BitVec.ofNat 4 2) (hk (some 0x30300001000) 4 6 6) 0x30300001000 ∧ 1 ≤ freeSlots (hk (some 0x30300001000) 4 6 6) (scnt 0x30300001000) ∧
      48 + 4 * reg3.hd ≤ 64 * (((0x30300001000 : Word).extractLsb' 32 6).toNat + 1)) := by
  refine ⟨by decide +kernel, by decide +kernel, by decide +kernel, by decide +kernel, by decide +kernel, by decide, by decide, by decide, by decide, by decide +kernel, by decide,
    ⟨0, by decide, by decide⟩, by decide +kernel⟩

/-! ### Events, launch records, images -/

/-- Numbers laid into memory: place, bytes, value. -/
def lay (l : List (Nat × Nat × Nat)) : List Host.Cell := l.foldl (fun m p => putBytes m p.1 (bytesOf p.2.1 p.2.2)) []
/-- A placed image at 0x10000, physical 0x30000, with one word of code for each stream (R338 to R342): header, section table, code, entries,
overlays. -/
def imgMem : List (Nat × Nat × Nat) :=
  [(0x30000, 8, 0x000101000046494A), (0x30008, 8, 4096), (0x30010, 8, 64), (0x30018, 8, 4), (0x30040, 8, 0x0301), (0x30048, 8, 0x200), (0x30050, 8, 8),
    (0x30058, 8, 8), (0x30060, 8, 0x0302), (0x30068, 8, 0x208), (0x30070, 8, 8), (0x30078, 8, 8), (0x30080, 8, 0x0307), (0x30088, 8, 0x210),
    (0x30090, 8, 16), (0x30098, 8, 16), (0x300A0, 8, 0x0308), (0x300A8, 8, 0x220), (0x300B0, 8, 32), (0x300B8, 8, 32),
    (0x30200, 8, 0x000000009000010C), (0x30208, 8, 0x9C), (0x30210, 8, 0), (0x30218, 8, 1), (0x30220, 8, 8 * 2 ^ 32), (0x30228, 8, 0x200),
    (0x30230, 8, 1 + 8 * 2 ^ 32), (0x30238, 8, 0x208)]
/-- A record in slot 0 of a ring: kind `kind`, object at 0x10000, one core, quantum 10000, entry 1 for G. -/
def recMem (kind : Nat) : List (Nat × Nat × Nat) :=
  [(0x40000, 8, 0x100 + kind * 2 ^ 16), (0x40070, 8, 0x10000), (0x40078, 8, if kind = 0 then 0x100 else 0), (0x40080, 8, 0x10101),
    (0x400F0, 8, 10000), (0x400F8, 8, 0x10FF8)]
def sSched (mem : List (Nat × Nat × Nat)) : State :=
  { sH with parts := [(1, part1)], tlb := [{ tlbE with part := 1 }], mem := lay mem }
/-- A queued record that waits for bit 3, and one for bits 3 and 4. -/
def waitRec (arrival m : Nat) : QRec := ⟨arrival, { recOf 1 with waitM := m }, false, [], false, none, 0⟩
def sEv : State := { sSched [] with parts := [(1, { part1 with queue := [waitRec 4 24, waitRec 5 8] })] }

/-- Events: one step that sets bit 3 reaches the second of two records, or no record at all; EVSET, EVCLR and EVWAIT with the bit set, with
no deadline, a deadline that has passed and one to come. -/
theorem test_witness_Events :
    (sEv.part 1 = some { part1 with queue := [waitRec 4 24, waitRec 5 8] } ∧
      Waits { part1 with queue := [waitRec 4 24, waitRec 5 8] } 0 (waitRec 5 8) ∧
      (∀ i : Nat, (waitRec 5 8).lrec.waitM.testBit i = true → (sEv.events 1 0 ||| 8).testBit i = true ∧ (0 : Nat).testBit i = false) ∧
      (∀ q, Waits { part1 with queue := [waitRec 4 24, waitRec 5 8] } 0 q →
        (∀ i : Nat, q.lrec.waitM.testBit i = true → (sEv.events 1 0 ||| 8).testBit i = true ∧ (0 : Nat).testBit i = false) →
        q = waitRec 5 8 ∨ (waitRec 5 8).before q = true)) ∧
    (∀ r, Waits { part1 with queue := [waitRec 4 24, waitRec 5 8] } 0 r →
      ¬∀ i : Nat, r.lrec.waitM.testBit i = true → (sEv.events 1 0 ||| 1).testBit i = true ∧ (0 : Nat).testBit i = false) ∧
    (goes g0 sEv ∧ (here sEv).binding = some ⟨7, 1, 0, 0, 0⟩ ∧ (here sEv).outLoads = [] ∧ ((sEv.releaseStores b0 .dv).bank b0).held = [] ∧
      ((sEv.releaseStores b0 .dv).bank b0).binding = some ⟨7, 1, 0, 0, 0⟩ ∧ (sEv.events 1 0).testBit 3 = false ∧
      ((sEv.setEvents 1 0 8).events 1 0).testBit 3 = true ∧ (1 : BitVec 6) ≠ 0 ∧ ((here sEv).getX 1).toNat ≤ ({ sEv with dtc := 1 } : State).dtc ∧
      sEv.dtc < ((here sEv).getX 1).toNat) := by
  have h0 : sEv.events 1 0 = 0 := by decide +kernel
  have b8 : ∀ i : Nat, (8 : Nat).testBit i = true → i = 3 := by
    intro i h
    have := Nat.testBit_two_pow (n := 3) (m := i)
    simp_all
  refine ⟨⟨rfl, ⟨by simp, rfl, rfl, rfl⟩, ?_, ?_⟩, ?_, by decide +kernel⟩
  · intro i h; rw [h0]; simp only [Nat.zero_or, Nat.zero_testBit, and_true]; exact h
  · intro q h n
    have hq : q = waitRec 4 24 ∨ q = waitRec 5 8 := by simpa using h.1
    rcases hq with rfl | rfl
    · have := (n 4 (by decide)).1
      rw [h0] at this
      exact absurd this (by decide)
    · exact .inl rfl
  · intro r h n
    rw [h0] at n
    have hq : r = waitRec 4 24 ∨ r = waitRec 5 8 := by simpa using h.1
    rcases hq with rfl | rfl <;> exact absurd (n 3 (by decide)).1 (by decide)

/-- Job 7 with a Distaff context of 100 units. -/
def jobD : Job := { job7 with distaff := [((0, 2), ⟨100, 10, 8, 2, 4⟩)] }
def sDist : State := { sSched [] with jobs := [jobD], banks := [(b0, kH.setX 8 0x0004000200000008)] }
/-- A LAUNCH from scratchpad span b3 at offset 64 of a record of zeros, in a partition whose device rings have room. -/
def sLaunch : State := { sSched [] with banks := [(b0, (kMem.setB 3 ⟨mkSpan 0 0x1000 11 1 0 0 0 false 0, true⟩).setX 1 64 |> fun k => { k with binding := some ⟨7, 1, 0, 0, 0⟩ })] }

theorem test_witness_DistaffAndLaunch :
    (goes g0 sDist ∧ sDist.jobOf b0 = some jobD ∧ (0 : BitVec 2).toNat ∈ jobD.dies ∧ assocGet jobD.distaff ((0 : BitVec 2).toNat, (2 : BitVec 6).toNat) = some ⟨100, 10, 8, 2, 4⟩ ∧
      Operand (here sDist) (.reg 5) 5 (here sDist) ∧ Operand (here sDist) (.reg 8) 0x0004000200000008 (here sDist) ∧
      (0x0004000200000008 : Word).extractLsb' 0 32 ≠ 0 ∧ (0x0004000200000008 : Word).extractLsb' 32 16 ≠ 0 ∧ (0x0004000200000008 : Word).extractLsb' 48 16 ≠ 0) ∧
    (here { sDist with banks := [(b0, { kH with c := { runs 16 with wait := some ⟨.launchSlot, 0, 0, [0, 0, 6], 0⟩ } })] }).c.wait = some ⟨.launchSlot, 0, 0, [0, 0, 6], 0⟩ ∧
    (goes g0 sLaunch ∧ (here sLaunch).c.wait = none ∧ (here sLaunch).outLoads = [] ∧ (here sLaunch).ea ⟨3, 1, 0⟩ pR 512 64 true true false = .ok (64, (here sLaunch).getB 3) ∧
      pathRead b0 ((here sLaunch).getB 3) 3 66 sLaunch 64 512 = .ok (List.replicate 512 0, stateOf (pathRead b0 ((here sLaunch).getB 3) 3 66 sLaunch 64 512)) ∧
      (List.replicate 512 (0 : Byte)).getD 4 0 = 0 ∧ sLaunch.part (here sLaunch).part = some part1 ∧
      (part1.ring 0 true).tail < (part1.ring 0 true).head + 2 ^ (part1.ring 0 true).qlog2 ∧ (15 : Byte).toNat % 16 = 15 ∧ (here sLaunch).priv = false) := by
  exact ⟨⟨rfl, rfl, by decide, rfl, opReg .., opReg .., by decide, by decide, by decide⟩, rfl,
    ⟨rfl, rfl, rfl, okIs_eq (by decide +kernel), okFst_eq (by decide +kernel), rfl, by decide, by decide, by decide, rfl⟩⟩

/-- A graph object at 0x12000 with one record of the image at 0x10000 (R315). -/
def graphMem : List (Nat × Nat × Nat) :=
  [(0x32000, 8, 0x100 + 2 ^ 32), (0x32040, 8, 0x100), (0x320B0, 8, 0x10000), (0x320B8, 8, 0x100), (0x320C0, 8, 0x10101), (0x32130, 8, 10000)]
def replayRec : QRec := ⟨4, { recOf 1 with kind := 1, image := 0x12000 }, false, [], true, none, 0⟩
def readyRec : QRec := ⟨4, { recOf 1 with dcount := 2 }, false, [], true, none, 0⟩
def sRec (l : List QRec) (mem : List (Nat × Nat × Nat)) : State :=
  { State.reset with parts := [(1, { part1 with queue := l })], tlb := [{ tlbE with part := 1 }], mem := lay mem }
/-- The record in slot 0 of the ring of context 0. -/
def slot0 (s : State) : LaunchRec := parseRec (s.readMem (0x40000 + 512 * (0 % 2 ^ 4)) 512)
/-- Job 6 of the same partition and priority, with a team that saved itself at its turn `rot` of the rotation. -/
def savedJob (rot : Nat) : Job := { job7 with id := 6, banks := [], saved := [⟨0, 0, 0x31, 3, true, rot⟩] }
def afterHead (s : State) : State :=
  s.modPart 1 (fun x => { (x.setRing 0 false { ring0 with head := 1 }) with arrival := 2 })

/-- RecordsAndDispatch: a doorbell, a record of zeros, one of kind 3, a record of an image, one of another major
version, one whose image lacks, a placement of one core with a saved team behind it, a replay of a graph of one record. -/
theorem test_witness_RecordsAndDispatch_records :
    ((sRec [] []).part 1 = some part1 ∧ (part1.ring 0 false).tail ≤ 3 ∧ 3 ≤ (part1.ring 0 false).head + 2 ^ (part1.ring 0 false).qlog2 ∧
      (part1.ring 0 false).head < (part1.ring 0 false).tail) ∧
    recReason partRec (some 0) false (slot0 (sRec [] [])) ((afterHead (sRec [] [])).loaded 1 0 (slot0 (sRec [] []))) = some 1 ∧
    recReason partRec (some 0) false (slot0 (sRec [] (recMem 3))) ((afterHead (sRec [] (recMem 3))).loaded 1 0 (slot0 (sRec [] (recMem 3)))) = some 3 ∧
    recReason partRec (some 0) false (slot0 (sRec [] (imgMem ++ recMem 0)))
      ((afterHead (sRec [] (imgMem ++ recMem 0))).loaded 1 0 (slot0 (sRec [] (imgMem ++ recMem 0)))) = none ∧
    (let s := sRec [] ((0x30000, 8, 0x000201000046494A) :: imgMem.tail ++ recMem 0)
     recReason partRec (some 0) false (slot0 s) ((afterHead s).loaded 1 0 (slot0 s)) = some 6 ∧
      (afterHead s).imageReader 1 0 (slot0 s).image 64 ≠ none ∧ (slot0 s).kind = 0) := by
  refine ⟨by decide +kernel, by decide +kernel, by decide +kernel, by decide +kernel, by decide +kernel⟩
theorem test_witness_RecordsAndDispatch_dispatch :
    (sRec [readyRec] []).part 1 = some { part1 with queue := [readyRec] } ∧
    (let p : Part := { part1 with queue := [readyRec] }
     inOrder (p.queue.filter (fun r => r.ready && r.lrec.kind = 0 && !p.recLeaving r)) = [readyRec]) ∧
    shapeFits partRec readyRec.lrec.shape = true ∧ placeCoords readyRec.lrec.shape [b0] = some [(b0, 0, 0, 0)] ∧ (sRec [readyRec] []).job 9 = none ∧
    (∀ b ∈ [b0], (sRec [readyRec] []).bankFree { part1 with queue := [readyRec] } b = true) ∧
    (∀ q ∈ ({ sRec [readyRec] [] with jobs := [savedJob 4] } : State).jobs, q.part = 1 → ∀ x ∈ q.saved, x.runnable = true →
      q.qrec.lrec.ctrl % 8 < readyRec.lrec.ctrl % 8 ∨ (q.qrec.lrec.ctrl % 8 = readyRec.lrec.ctrl % 8 ∧ readyRec.rot ≤ x.rotation)) ∧
    (∀ d : Nat, d < 4 → (∃ b ∈ [b0], dieOf b.core = d) → (sRec [readyRec] []).distaffUsed d + readyRec.lrec.dcount ≤ Config.distaffPerDie) := by decide +kernel
theorem test_witness_RecordsAndDispatch_graph :
    let s := sRec [replayRec] (imgMem ++ graphMem)
    let p : Part := { part1 with queue := [replayRec] }
    p.queue.find? (fun r => r.arrival = 4 && r.ready && r.inst.isNone && r.lrec.kind = 1 && !p.recLeaving r) = some replayRec ∧
    ((readGraph (s.imageReader 1 0) 0x12000).map (fun g => (g.patchesOk, g.recs.length)) = some (true, 1)) ∧
    (∀ q ∈ p.queue, ¬(q.ready = true ∧ q.inst = none ∧ (q.lrec.kind = 1 && q.lrec.image = replayRec.lrec.image && partRec.lcasid.getD q.lrec.ctx 0 = 0) = true ∧ q.arrival < 4)) ∧
    (p.graphs.filter (fun i => i.replay.lrec.kind = 1)).length < 1 ∧
    (match readGraph (s.imageReader 1 0) 0x12000 with
      | some g => ((g.patches.foldl (applyPatch []) g.recs).map parseRec).all (fun x => (recReason partRec none false x (s.loaded 1 0 x)).isNone)
      | none => false) = true := by
  refine ⟨by decide +kernel, by decide +kernel, by decide +kernel, by decide +kernel, by decide +kernel⟩

/-! ### Teams -/

def bindRec (op core bank : Nat) : BindRec := ⟨0, 1, op, bank, core, 1, 7, 0, 0, 0, 0, false⟩
def startRec : BindRec := { bindRec 2 0 0 with part := 0 }
/-- Job 7 of one core, whose record names the image at 0x10000 and a save area there. -/
def jobOne : Job :=
  { job7 with qrec := { qrecOf 1 with lrec := { recOf 1 with image := 0x10000, entry := 0x100, savearea := 0x10000 } }, banks := [(b0, ⟨7, 1, 0, 0, 0⟩)], started := false }
def sBind (j : Job) (k : Bank) : State := { sRec [] imgMem with jobs := [j], banks := [(b0, k)] }

/-- Binding: a free bank of a job that has not started, its START; PREEMPT of a bound team at a boundary with an equal one that waits, of one
that an urgent one outranks, and of one with no ground; RELEASE of one whose job is gone; records of
each rejection: a version, an OP, a field that START leaves, a job that is unknown or started, a foreign core, a bank that is bound,
one that is not of the job, a team that runs, and one whose job is gone. -/
theorem test_witness_Binding :
    ((sBind jobOne Bank.reset).part 1 = some part1 ∧ partRec.owns 0 = true ∧ (sBind jobOne Bank.reset).job 7 = some jobOne ∧
      ((sBind jobOne Bank.reset).bank b0).binding = none ∧ assocGet jobOne.banks b0 = some ⟨7, 1, 0, 0, 0⟩ ∧ jobOne.started = false ∧
      ((sBind jobOne Bank.reset).image 1 (partRec.lcasid.getD jobOne.qrec.lrec.ctx 0) jobOne.qrec.lrec.image).isSome = true) ∧
    (∃ q ∈ jobOne.banks, ((sBind jobOne kH).bank q.1).binding = some q.2) ∧
    (((sBind jobOne kH).bank b0).binding.map (·.job) = some 7 ∧ ((sBind jobOne kH).bank b0).preemptAt = none ∧ (∃ q ∈ jobOne.banks, q.1 = b0) ∧
      ((sBind jobOne kH).bank b0).binding = some ⟨7, 1, 0, 0, 0⟩ ∧ (sBind jobOne kH).teamWaits 1 0 = false ∧ (sBind jobOne kH).urgentWaits 1 0 = false) ∧
    (let j : Job := { jobOne with teams := [⟨0, 0, 5, true⟩] }
     (∃ x ∈ j.teams, x.jd = 0 ∧ x.jc = 0 ∧ x.boundary = true) ∧ ({ sRec [readyRec] imgMem with jobs := [j], banks := [(b0, kH)] } : State).teamWaits 1 0 = true) ∧
    ({ sRec [{ readyRec with lrec := { readyRec.lrec with ctrl := 9 } }] imgMem with jobs := [jobOne], banks := [(b0, kH)] } : State).urgentWaits 1 0 = true ∧
    (∀ j, ({ sBind jobOne kH with jobs := [] } : State).job 7 = some j → ∀ q ∈ j.banks, q.1 ≠ b0) ∧
    (({ bindRec 1 0 0 with vmaj := 2 } : BindRec).vmaj ≠ 1) ∧ partRec.owns 64 = false ∧ ((sBind jobOne kH).bank b0).binding ≠ none ∧
    ((sBind jobOne Bank.reset).bank b0).binding.map (·.job) ≠ some 7 ∧
    ((bindRec 2 0 0).op ≠ 1 ∧ ({ startRec with vcore := 5 } : BindRec).vcore ≠ 0 ∧ (sBind jobOne kH).job startRec.jobid = some jobOne ∧
      (startRec.vmaj = 1 ∧ startRec.vmin = 0 ∧ startRec.op = 2 ∧ startRec.rsvd = false ∧ startRec.bank = 0 ∧ startRec.part = 0 ∧ startRec.lrec = 0)) ∧
    (∀ j, State.reset.job startRec.jobid = some j → j.started = true ∨ ∀ q ∈ j.banks, (State.reset.bank q.1).binding ≠ some q.2) ∧
    (∀ j, (sBind { jobOne with started := true } kH).job startRec.jobid = some j → j.started = true) ∧
    (∃ j, (sBind jobOne kH).job 7 = some j ∧ ∃ q ∈ j.banks, q.1 = b0) ∧
    ¬(∃ j, ({ sBind jobOne kH with jobs := [] } : State).job 7 = some j ∧ ∃ q ∈ j.banks, q.1 = b0) := by
  refine ⟨by decide +kernel, by decide, by decide, by decide, by decide, ?_, by decide, by decide, by decide, by decide, by decide, ?_, ?_,
    ⟨jobOne, rfl, by decide⟩, ?_⟩
  · intro j h
    cases h
  · intro j h
    cases h
  · intro j h
    cases h; rfl
  · rintro ⟨j, h, -⟩
    cases h

def jobRun : Job := { jobOne with started := true, teams := [⟨0, 0, 5, false⟩] }
/-- A bank whose streams have ended. -/
def kOver : Bank := { kH with quantum := 10, stall := 4, c := { runs 16 with run := .ended }, g := { runs 16 with run := .ended } }
/-- A bank whose streams have waited since 0. -/
def kStill : Bank := { kOver with c := { runs 16 with wait := some ⟨.flag, 1, 0, [], 0⟩ }, g := { runs 16 with wait := some ⟨.flag, 1, 0, [], 0⟩ } }

/-- QuantaAndCompletion: a team that has held its bank for 10 ns and one that has not, a job that is over, one that has stalled with no
record and with one at 0x11000. -/
theorem test_witness_QuantaAndCompletion :
    ((sBind jobRun kOver).job 7 = some jobRun ∧ jobRun.teams.find? (fun x => x.jd = 0 && x.jc = 0) = some ⟨0, 0, 5, false⟩ ∧ jobRun.leader 0 0 = some b0 ∧
      5 + ((sBind jobRun kOver).bank b0).quantum.toNat ≤ ({ sBind jobRun kOver with dtc := 15 } : State).dtc ∧
      (sBind jobRun kOver).dtc < 5 + ((sBind jobRun kOver).bank b0).quantum.toNat) ∧
    ((sBind jobRun kOver).jobOver jobRun = true ∧ jobRun.qrec.inst = none) ∧
    (let s : State := { sBind jobRun kStill with dtc := 9 }
     jobRun.started = true ∧ s.lastProgress (s.silCores jobRun) = some 0 ∧ ((s.silCores jobRun).head?.map (fun c => c.k.stall.toNat)).getD 0 = 4 ∧
      jobRun.stalledAt ≠ some 0 ∧ jobRun.qrec.lrec.siladdr = 0) := by decide +kernel
theorem test_witness_QuantaAndCompletion_record :
    let j : Job := { jobRun with qrec := { jobRun.qrec with lrec := { jobRun.qrec.lrec with siladdr := 0x11000 } } }
    let s : State := { sBind j kStill with dtc := 9 }
    let s1 := (s.modJob 7 (fun (q : Job) => { q with stalledAt := some 0 })).logPart 1 .stall [0, 9]
    (match s1.writeVirt [.mem] 1 (s1.jobAsid j) 0x11000 (s.sillage j 4) with
      | .ok _ => true
      | .error _ => false) = true := by decide +kernel

/-- The bytes of a context save of one core with no body in any section, its digest, and the save as the device holds it. -/
def saveBody1 : List Byte := ((List.range 17).flatMap (fun t => bytesOf 2 (t + 1) ++ bytesOf 1 1 ++ bytesOf 1 0 ++ bytesOf 1 1 ++ bytesOf 11 0)) ++ List.replicate 16 0
def saveDig : List Byte :=
  bytesOf 16 0xD91C78A49F26120586E86197E890DF2F ++ bytesOf 16 0x7CF021E388E40DFBC31A7943365D71F7
def saveHead : List Byte := [0x4A, 0x53, 0x41, 0x56, 0, 1, 0x30, 1] ++ bytesOf 8 7 ++ bytesOf 8 0 ++ bytesOf 8 352 ++ saveDig
def kSaved : Bank := { kH with c := { runs 24 with wait := some ⟨.cpwait, 0, 0, [], 0⟩ } }
def save3 : Save := ⟨3, 0x10000, 1, 0, 7, 0x30, [(0, 0, kSaved)], saveDig⟩
def jobOut (runnable : Bool) : Job := { jobRun with banks := [], saved := [⟨0, 0, 0x31, 3, runnable, 3⟩] }
def sOut (runnable : Bool) (mem : List Host.Cell) : State :=
  { sRec [] [] with jobs := [jobOut runnable], saves := [save3], mem := mem }

/-- TeamsSavedAndRestored: a bank that drains for a pre-emption, a team that has waited for long, a saved team whose wake source has fired,
its rebinding, and the save that a RESUME reads. -/
theorem test_witness_TeamsSavedAndRestored :
    (let s := sBind jobRun { kOver with preemptAt := some 3, drain := .preempt }
     (s.bank b0).preemptAt = some 3 ∧ s.jobOf b0 = some jobRun ∧ (s.bank b0).drain ≠ .parked ∧ (s.bank b0).pendTrap = none ∧ s.part 1 = some part1 ∧
      part1.mig.state = 0 ∧ (s.bank b0).grid = [] ∧ (∀ q ∈ jobRun.banks, q.1 = b0 ∨ (q.2.jd = 0 ∧ q.2.jc = 0) → q = (b0, ⟨7, 1, 0, 0, 0⟩)) ∧
      (s.drainBank b0).jobs = s.jobs ∧ (s.drainBank b0).part 1 = some part1) ∧
    (let s : State := { sBind jobRun { kStill with lwait := 5 } with dtc := 9 }
     (s.bank b0).lwait ≠ 0 ∧ (∀ q ∈ jobRun.teamBanks 0 0, (s.bank q.1).waitsLong s.dtc 5 = true ∧ (s.bank q.1).preemptAt = none ∧ (s.bank q.1).halted = none ∧
        (s.bank q.1).pendTrap = none) ∧
      ((jobRun.teamBanks 0 0).foldl (fun x q => (x.finishXfers q.1).drainBank q.1) s).watchEnded (jobRun.teamBanks 0 0) = false ∧
      ((jobRun.teamBanks 0 0).foldl (fun x q => (x.finishXfers q.1).drainBank q.1) s).jobs = s.jobs ∧
      ((jobRun.teamBanks 0 0).foldl (fun x q => (x.finishXfers q.1).drainBank q.1) s).part 1 = some part1) ∧
    ((sOut false []).job 7 = some (jobOut false) ∧ (jobOut false).saved.find? (fun t => t.jd = 0 && t.jc = 0 && !t.runnable && t.reason ≠ 0x40) = some ⟨0, 0, 0x31, 3, false, 3⟩ ∧
      (sOut false []).saves.find? (fun u => u.serial = 3) = some save3 ∧ (sOut false []).sourceFired (jobOut false) [0] (0, 0, 0) 0 kSaved .c ⟨.cpwait, 0, 0, [], 0⟩ = true) ∧
    ((jobOut true).saved.find? (fun t => t.jd = 0 && t.jc = 0 && t.runnable) = some ⟨0, 0, 0x31, 3, true, 3⟩ ∧ (sOut true []).outranked (jobOut true) ⟨0, 0, 0x31, 3, true, 3⟩ = false ∧
      (sOut true []).bankFree part1 b0 = true ∧ placeFits (jobOut true) ⟨0, 0, 0x31, 3, true, 3⟩ 0 0 = true ∧
      (sOut true []).leaving (jobOut true) = false ∧ kSaved.pendTrap = none) := by
  refine ⟨by decide +kernel, by decide +kernel, by decide +kernel, by decide +kernel⟩
theorem test_witness_TeamsSavedAndRestored_resume :
    let s := sOut true (putBytes [] 0x30000 (saveHead ++ saveBody1))
    (s.imageReader 1 0 0x10000 64 = some saveHead ∧ leField saveHead 24 8 = 352 ∧ (s.imageReader 1 0 0x10040 288) = some saveBody1) ∧
    (match checkSave saveHead saveBody1 with
      | .ok rs => decide (rs.length = (shapeOf jobOne.qrec.lrec.shape).2.2)
      | .error _ => false) = true ∧ (saveHead.drop 32).take 32 = save3.digest ∧ s.outranked (jobOut true) ⟨0, 0, 0x31, 3, true, 3⟩ = false ∧
    s.leaving (jobOut true) = false ∧ (s.bank b0).binding = none ∧ (∀ q ∈ s.jobs, ∀ x ∈ q.banks, x.1 ≠ b0) ∧
    save3.cores.find? (fun (a, _) => a = 0) = some (0, 0, kSaved) ∧
    (s.saveHead 1 save3.asid save3.va = saveHead ∧ s.saveBody 1 save3.asid save3.va = saveBody1) := by
  refine ⟨by decide +kernel, by decide +kernel, by decide +kernel, by decide +kernel, by decide +kernel, by decide +kernel, by decide +kernel, by decide +kernel⟩

/-! ### Spans and overlays -/

/-- x8 to x11 hold a virtual span of [0x10000, 0x20000) of partition 0, x12 to x15 the same for partition 1, x16 to x19 one that ends
before it begins; b1 is a valid span, b5 an invalid one and b6 a sealed one; x1 = 0x10. -/
def kSpan : Bank :=
  (withX kMem [(8, 0x10000), (9, 0x20000), (10, 3), (12, 0x10000), (13, 0x20000), (14, 0x0001000000000003), (16, 0x20000), (17, 0x10000), (18, 3),
    (2, 0x1001)]).setB 6 ⟨mkSpan 0x10000 0x20000 3 0 0 0 0 true 0, true⟩
theorem test_witness_SpanInstructions :
    goes g0 (st kSpan) ∧
    (let v : BitVec 256 := kSpan.getX 11 ++ kSpan.getX 10 ++ kSpan.getX 9 ++ kSpan.getX 8
     spanBad v = none ∧ (partOf v).toNat = kSpan.part) ∧
    (let v : BitVec 256 := kSpan.getX 15 ++ kSpan.getX 14 ++ kSpan.getX 13 ++ kSpan.getX 12
     spanBad v = none ∧ (partOf v).toNat ≠ kSpan.part) ∧
    (let v : BitVec 256 := kSpan.getX 19 ++ kSpan.getX 18 ++ kSpan.getX 17 ++ kSpan.getX 16
     spanBad v = some 64) ∧
    ((kSpan.getB 1).valid = true ∧ sealedSpan (kSpan.getB 1).bits = false ∧ (base (kSpan.getB 1).bits).toNat ≤ (limit (kSpan.getB 1).bits).toNat ∧
      (kSpan.getX 1).toNat ≤ (limit (kSpan.getB 1).bits).toNat - (base (kSpan.getB 1).bits).toNat ∧
      (limit (kSpan.getB 1).bits).toNat - (base (kSpan.getB 1).bits).toNat < (kSpan.getX 2).toNat) ∧
    (kSpan.getB 5).valid = false ∧ ((kSpan.getB 6).valid = true ∧ sealedSpan (kSpan.getB 6).bits = true) ∧ (2 : BitVec 3).toNat < 4 := by decide +kernel
theorem test_witness_SpanInstructions_operand : Operand (here (st kSpan)) (.reg 1) (kSpan.getX 1) kSpan ∧ Operand (here (st kSpan)) (.reg 2) 0x1001 kSpan ∧
    Result (here (st kSpan)) (.reg 9) 1 (kSpan.setX 9 1) := ⟨opReg .., opReg kSpan 2, rfl⟩

/-- A span of 64 bytes with SPANSTORE whose page holds spans; the granule at 0x30020 is tagged and holds a span of partition 0. -/
def sStore : State :=
  { sMem with
    banks := [(b0, (kMem.setB 7 ⟨mkSpan 0x10000 0x10040 0x43 0 0 0 0 false 0, true⟩).setX 1 0x20)]
    tlb := [{ tlbE with spanstore := true }]
    tags := [0x1801]
    mem := lay [(0x30020, 8, 0x100), (0x30028, 8, 0x1100), (0x30030, 8, 0x103)] }
def xStore : Xlat := { tlbE.xlat 0x10020 with spanstore := true }
theorem test_witness_SpanStorage :
    goes g0 sStore ∧ SpanPlace sStore ⟨7, 1, 0⟩ 1 false 0x10020 xStore sStore ∧ sStore.eccAt xStore.pa 32 = false ∧
    SpanPlace sStore ⟨7, 1, 0⟩ 2 true 0x10020 xStore sStore ∧ memWf sStore.mem = true ∧ ([1, 2] : List Byte) ≠ [] ∧ 0x3003F + 2 ≤ Config.devMemEnd ∧
    (∀ q ∈ sStore.pend, q.home = true → q.meets 0x3003F 2 = false) := by
  refine ⟨rfl, ⟨okIs_eq (by decide +kernel), by decide +kernel, by decide +kernel, by decide +kernel, by decide +kernel, rfl, rfl, by decide +kernel⟩, by decide +kernel,
    ⟨okIs_eq (by decide +kernel), by decide +kernel, by decide +kernel, by decide +kernel, by decide +kernel, rfl, rfl, by decide +kernel⟩, by decide +kernel, by decide, by decide, by decide⟩

/-- Overlay 3 of the C stream and 2 of the G stream, one word each; a G stream at GIDLE, and one that waits at a flag. -/
def kOvl (w : Wait) : Bank :=
  { kMem.setX 8 3 with image := 0x10000, ovls := [⟨.c, 3, 8, 0x200⟩, ⟨.g, 2, 8, 0x208⟩], g := { runs 32 with wait := some w } }
def sOvl (w : Wait) : State := { st ((kOvl w).setX 9 2) with parts := parts2, tlb := [tlbE], mem := lay imgMem }
def gidleW : Wait := ⟨.gidle, 0, 0, [], 0⟩
theorem test_witness_Overlays :
    goes g0 (sOvl gidleW) ∧ Operand (here (sOvl gidleW)) (.reg 0) 0 (here (sOvl gidleW)) ∧ Operand (here (sOvl gidleW)) (.reg 8) 3 (here (sOvl gidleW)) ∧
    Operand (here (sOvl gidleW)) (.reg 9) 2 (here (sOvl gidleW)) ∧ (0 : Word).toNat % 8 = 0 ∧ (3 : Word).toNat < 256 ∧
    (sOvl gidleW).fetchOverlay b0 ⟨.c, 3, 8, 0x200⟩ = .ok ([0x000000009000010C], none, sOvl gidleW) ∧
    (sOvl gidleW).fetchOverlay b0 ⟨.g, 2, 8, 0x208⟩ = .ok ([0x9C], none, sOvl gidleW) ∧
    (here (sOvl gidleW)).ovls.find? (fun e => e.kind = .c && e.num = (3 : Word).toNat) = some ⟨.c, 3, 8, 0x200⟩ ∧
    (here (sOvl gidleW)).ovls.find? (fun e => e.kind = .g && e.num = (2 : Word).toNat) = some ⟨.g, 2, 8, 0x208⟩ ∧
    (here (sOvl gidleW)).g.run ≠ .ended ∧ (here (sOvl gidleW)).g.wait = some gidleW ∧
    (here (sOvl ⟨.flag, 1, 0, [], 0⟩)).g.wait = some ⟨.flag, 1, 0, [], 0⟩ ∧ Wait.tag ⟨.flag, 1, 0, [], 0⟩ ≠ .gidle ∧
    (∀ e ∈ (here (sOvl gidleW)).ovls, ¬(e.kind = .c ∧ e.num = (2 : Word).toNat)) ∧ Room (here (sOvl gidleW)) (.reg 5) ∧
    Result (here (sOvl gidleW)) (.reg 5) (BitVec.ofNat 64 ((here (sOvl gidleW)).c.ovl * 2 ^ 32) + (here (sOvl gidleW)).c.pc + 8) ((here (sOvl gidleW)).setX 5 24) :=
  ⟨rfl, opReg _ 0, opReg _ 8, opReg _ 9, rfl, by decide, okIs_eq (by decide +kernel), okIs_eq (by decide +kernel), rfl, rfl, by decide, rfl, rfl, by decide, by decide, trivial,
    resIs (by decide +kernel)⟩

/-! ### Invalidations, windows, trust -/

/-- Whether an answer is the next state `t`. -/
def isNext (o : Out) (t : State) : Bool :=
  match o with
  | .next u => decide (u = t)
  | _ => false
theorem isNext_eq {o : Out} {t : State} (h : isNext o t = true) : o = .next t := by
  unfold isNext at h; split at h <;> simp_all

theorem opIs {k : Bank} {n : BitVec 6} {v : Word} (h : k.getX n = v) : Operand k (.reg n) v k := h ▸ opReg k n
/-- Partition 1, which exports; the DIRTY word of its address space 0 is `dirty`. -/
def part1c : Part := { part1 with record := { partRec with expEn := true, astab := 0x20000 } }
def sTlb (dirty : Nat) (k : Bank) : State :=
  { sSched [(0x20008, 8, dirty)] with parts := [(1, part1c)], banks := [(b0, k)] }
def inv1 (d : Bool) : Inval := ⟨.mem, b0, 1, some 0, some 0x10008, d⟩
def kTlb : Bank := kH.setX 1 0x10008
/-- InvalidationsAndWindows, TLBINV, TLBSYNC and DIRTYSYNC: nothing under way; an invalidation that waits and none; an address space that
is tracked, one that is not, and a DIRTYSYNC that has been acknowledged. -/
theorem test_witness_TlbInstructions :
    let s := sTlb 0 kTlb
    goes g0 s ∧ (∀ a ∈ (here s).amons, a.path ≠ 0) ∧ ((s.performOwn b0).bank b0).held = [] ∧ (s.performOwn b0).part ((s.performOwn b0).bank b0).part = some part1c ∧ Operand ((s.performOwn b0).bank b0) (.reg 1) 0x10008 ((s.performOwn b0).bank b0) ∧
    (∀ v ∈ s.invals, v.bank = s.cur.bank → v.dirtyOnly = true) ∧
    (∃ v ∈ ({ s with invals := [inv1 false] } : State).invals, v.bank = s.cur.bank ∧ v.dirtyOnly = false) ∧
    (here s).c.wait = none ∧ trackOf s part1c.record 0 = none ∧ trackOf (sTlb (2 ^ 24 * 5 + 1) kTlb) part1c.record 0 = some 5 ∧
    (here (sTlb 0 { kTlb with c := { runs 16 with wait := some ⟨.tlb, 0, 0, [1], 0⟩ } })).c.wait = some ⟨.tlb, 0, 0, [1], 0⟩ :=
  ⟨rfl, by decide, by decide +kernel, rfl, opIs (by decide +kernel), by decide, by decide, rfl, by decide +kernel, by decide +kernel, rfl⟩

/-- TLB_ACKNOWLEDGE with an invalidation of the page and an entry of another address space; a walk of a mapped page. -/
def sAck : State := { sTlb 0 kTlb with invals := [inv1 false], tlb := [{ tlbE with part := 1 }, { tlbE with part := 1, asid := 3 }] }
/-- Tables at 0x40000 to 0x44000 of address space 0 at 0x20000: page 0x10000 at 0x30000, writable, AC and D clear. -/
def sWalk (track : Nat) : State :=
  { sTlb 0 kTlb with
    tlb := []
    mem := lay [(0x20000, 8, 0x40001), (0x20008, 8, track), (0x40000, 8, 0x41001), (0x41000, 8, 0x42001), (0x42000, 8, 0x43001), (0x43000, 8, 0x44001),
      (0x44080, 8, 0x30007)] }
/-- The same with an error under the first table. -/
def sBadWalk : State := { sWalk 0 with bad := [0x40000] }
theorem test_witness_TlbAcknowledge :
    (∀ b ∈ sAck.banks, b.2.outLoads = [] ∧ b.2.amons = []) ∧ sAck.pend = [] ∧ (∀ v ∈ sAck.invals, v.target = .mem → v.dirtyOnly = false) ∧
    (0x10008 < 2 ^ 55 ∧ (match (sWalk 0).walk (holdersOf 0) 1 0 0x10008 true with
      | .ok x _ => decide (x = ⟨0x30008, 0, 0, false, false⟩)
      | _ => false) = true) ∧
    (match sBadWalk.walk (holdersOf 0) 1 0 0x10008 true with
      | .fault f _ => decide (f.reason = 1)
      | _ => false) = true := by decide +kernel

/-- A device whose window is down, and one whose export address space maps 0x10008, and not 0x80000. -/
def sWin : State := { sTlb 0 kTlb with trust := { Trust.reset with deviceId := some 5 } }
theorem test_witness_WindowAccesses :
    (windowDown (sTlb 0 kTlb)).isSome = true ∧ windowDown sWin = none ∧ (0x10008 < 2 ^ 45) ∧ 0x10008 % 8 = 0 ∧
    (List.replicate 8 (1 : Byte)).length = 8 ∧ (tlbE.xlat 0x10008).spanstore = false ∧ isDevMem (tlbE.xlat 0x10008).pa = true ∧
    sWin.exportXlat 0x10008 true = .ok (tlbE.xlat 0x10008) sWin ∧ sWin.exportXlat 0x10008 false = .ok (tlbE.xlat 0x10008) sWin ∧
    sWin.eccAt 0x30008 8 = false ∧ (let a : RemoteAtomic := ⟨0, some .add, .n64, [5], true⟩; sWin.eccAt 0x30008 (amoBytes a.ty) = false ∧ a.returns = true) ∧
    (∀ p ∈ sWin.pend, p.visible = false) ∧
    (let x : Xlat := { tlbE.xlat 0x10008 with spanstore := true }
     ({ sWin with tlb := [{ tlbE with part := 1, spanstore := true }] } : State).exportXlat 0x10008 true = .ok x { sWin with tlb := [{ tlbE with part := 1, spanstore := true }] } ∧
      x.spanstore = true) ∧
    sWin.exportXlat 0x80000 true = .fault ⟨6, 5, true⟩ sWin ∧ sWin.exportXlat 0x80000 false = .fault ⟨6, 5, true⟩ sWin := by
  refine ⟨by decide, by decide, by decide, by decide, by decide, by decide, by decide, rfl, rfl, by decide +kernel, by decide +kernel, by decide, ⟨rfl, rfl⟩, rfl, rfl⟩

/-- A partition record: partition 2, VF 2, cluster 1, an address-space table and one range of memory at 2 MiB. -/
def goodRec : List Byte :=
  bytesOf 1 0 ++ bytesOf 1 1 ++ bytesOf 1 2 ++ bytesOf 1 2 ++ bytesOf 4 2 ++ bytesOf 8 0 ++ bytesOf 32 0 ++ bytesOf 8 0x200000 ++ bytesOf 8 0
    ++ bytesOf 8 0x200000 ++ bytesOf 8 0x400000 ++ bytesOf 112 0 ++ bytesOf 64 0
def part1q : Part := { part1 with record := { partRec with ranges := [(0, 0x100000)] }, meas := List.replicate 4 (List.replicate 32 0) }
def sTrust : State := { sSched [] with parts := [(1, part1q)], trust := { Trust.reset with certLeaf := some 4, attLeaf := 3 } }
theorem test_witness_PartitionsAndTrust :
    sTrust.trust.waitingImage = false ∧ goodRec.length = 256 ∧ sTrust.partFaults (parsePart goodRec) = [] ∧
    (let r := (goodRec.set 1 0).set 192 1
     r.length = 256 ∧ 1 ∈ sTrust.partFaults (parsePart r) ∧ ∀ m ∈ sTrust.partFaults (parsePart r), 1 ≤ m) ∧
    (5 < 2 ^ 22 ∧ sTrust.trust.deviceId = none ∧ sWin.trust.deviceId ≠ none ∧ sWin.trust.waitingImage = false) ∧
    (sTrust.part 1 = some part1q ∧ part1q.meas.length = 4 ∧ (List.replicate 32 (7 : Byte)).length = 32) ∧
    (sTrust.trust.certLeaf = some 4 ∧ sTrust.trust.identityLeaf < 2 ^ 20 ∧
      2 ^ 20 ≤ ({ sTrust with trust := { sTrust.trust with identityLeaf := 2 ^ 20 } } : State).trust.identityLeaf ∧ sTrust.trust.attLeaf < 1024 ∧ sTrust.trust.meas.length = 4 ∧
      1024 ≤ ({ sTrust with trust := { sTrust.trust with attLeaf := 1024 } } : State).trust.attLeaf) := by decide +kernel

/-- BootAndRecovery: a slot that holds an image and one that holds none; a recovery mailbox that is open, and one that is not. -/
def fw : FwImage := ⟨[1], 3, true, [2], [3, 4]⟩
theorem test_witness_BootAndRecovery :
    ({ Trust.reset with slot := some fw } : Trust).slot = some fw ∧ Trust.reset.slot = none ∧ ({ Trust.reset with waitingImage := true } : Trust).waitingImage = true ∧
    Trust.reset.waitingImage = false ∧ Trust.reset.identityLeaf < 2 ^ 20 := by decide

/-! ### System registers and traps -/

/-- PrivilegedInstructions: SPMINT and ADD. -/
theorem test_witness_PrivilegedInstructions :
    (wellFormed (.spmint g0 1 8) = true ∧ runsIn .c (.spmint g0 1 8) = true ∧ (encode (.spmint g0 1 8)).isSome = true) ∧
    (wellFormed (.add g0 (.reg 1) (.reg 2) (.reg 3)) = true ∧ runsIn .c (.add g0 (.reg 1) (.reg 2) (.reg 3)) = true ∧
      (encode (.add g0 (.reg 1) (.reg 2) (.reg 3))).isSome = true) := by decide

/-- SystemRegisterAccess: the reads; a QUANTUM of 10000 and one of 9999; CTXBANK with a team bound in the other bank; DIRTYCTL that keeps EN and that changes
it; the event with a write that waits; a bank that drains to switch. -/
def kSys : Bank := { kH with quantum := 20000 }
def sSys (dirty : Nat) (k : Bank) : State :=
  { sTlb dirty ((k.setX 8 10000).setX 9 9999) with banks := [(b0, (k.setX 8 10000).setX 9 9999), (⟨0, 1⟩, { kH with c := runs 16 })] }
theorem test_witness_SystemRegisters :
    let s := sSys 0 kSys
    goes g0 s ∧ (here s).c.wait = none ∧ Operand (here s) (.reg 8) 10000 (here s) ∧ bankReg (here s) .quantum = some 20000 ∧ writable .quantum 10000 ∧
    Result (here s) (.reg 5) 20000 ((here s).setX 5 20000) ∧ Room (here s) (.reg 5) ∧ Operand (here s) (.reg 9) 9999 (here s) ∧
    lowestOf (s.sysOffences s.cur.bank .quantum 9999) = some 0 :=
  ⟨rfl, rfl, opIs (by decide +kernel), rfl, by simp [writable], rfl, trivial, opIs (by decide +kernel), by decide +kernel⟩
def dirtyWait : Wait := ⟨.dirtyctl, 0, 0, [0x5000001, 0], 0⟩
theorem test_witness_SwitchingRegisters :
    (goes g0 (sSys 0 kSys) ∧ ((here (sSys 0 kSys)).getX 1).toNat < 2 ∧ ((sSys 0 kSys).bank ⟨0, 1⟩).binding.isSome = true) ∧
    ((here (sSys 0 kSys)).c.wait = none ∧ (sSys 0 kSys).dirtyPlace b0 = some 0x20008 ∧
      lowestOf ((sSys 0 kSys).dirtyOffences b0 ((here (sSys 0 kSys)).getX 0)) = none ∧
      ((here (sSys 0 kSys)).getX 0).getLsbD 0 = ((sSys 0 kSys).dirtyWord b0).getLsbD 0 ∧
      ((here (sSys 0 kSys)).getX 0).getLsbD 0 ≠ ((sSys (2 ^ 24 * 5 + 1) kSys).dirtyWord b0).getLsbD 0) ∧
    (let s := sSys 0 { kSys with c := { runs 16 with wait := some dirtyWait } }
     memWf s.mem = true ∧ (s.bank b0).c.wait = some dirtyWait ∧ (∀ q ∈ s.banks, q.2.outLoads = [] ∧ q.2.amons = []) ∧ s.pend = [] ∧ s.dirtyPlace b0 ≠ none) ∧
    (let s := sSys 0 { kSys with drain := .ctxbank }
     (s.core 0).running = 0 ∧ (s.bank b0).drain = .ctxbank ∧ (s.bank b0).outLoads = [] ∧ (∀ o ∈ (s.bank b0).grid, o.todo = []) ∧ s.live ⟨0, 1⟩ = true) ∧
    ((sTlb 0 { kSys with drain := .ctxbank }).bank ⟨0, 1⟩).binding = none := by decide +kernel

/-- Traps: no handler; a handler inside the current overlay, for a privileged and an unprivileged stream; one in overlay 3, whose word is
loaded; a debugged core and one that is not; an ERET to 24, and one to 4. -/
def kTrap (tv status : Word) : Bank := { (kOvl gidleW) with trapvec := tv, status := status, trappc := 24 }
def sTrap (tv status : Word) : State := { sOvl gidleW with banks := [(b0, kTrap tv status)] }
def tvHere : Word := 0x8000000000000040
def tvPriv : Word := 0xC000000000000040
def tvOvl : Word := 0x8003000000000008
theorem test_witness_Traps :
    ((kTrap 0 0).trapvec.getLsbD 63 = false ∧ (kTrap tvPriv 4).status.getLsbD 2 = true) ∧
    ((kTrap tvHere 0).trapvec.getLsbD 63 = true ∧ (kTrap tvHere 0).status.getLsbD 2 = false ∧
      ((kTrap tvHere 0).trapvec.extractLsb' 48 8).toNat = (kTrap tvHere 0).c.ovl) ∧
    ((kTrap tvPriv 0).trapvec.getLsbD 63 = true ∧ ((kTrap tvPriv 0).trapvec.extractLsb' 48 8).toNat = (kTrap tvPriv 0).c.ovl) ∧
    (((kTrap tvOvl 0).trapvec.extractLsb' 48 8).toNat ≠ (kTrap tvOvl 0).c.ovl ∧
      (kTrap tvOvl 0).ovls.find? (fun e => e.kind = .c && e.num = ((kTrap tvOvl 0).trapvec.extractLsb' 48 8).toNat) = some ⟨.c, 3, 8, 0x200⟩) ∧
    (goes g0 (sTrap tvHere 2) ∧ ((sTrap tvHere 2).core 0).attached = false ∧ (({ sTrap tvHere 2 with cores := [(0, ⟨0, true⟩)] } : State).core 0).attached = true ∧
      ((here (sTrap tvHere 2)).status.extractLsb' 8 8).toNat = (here (sTrap tvHere 2)).c.ovl ∧ (here (sTrap tvHere 2)).trappc.extractLsb' 0 3 = 0 ∧
      (4 : Word).extractLsb' 0 3 ≠ 0) := by
  refine ⟨⟨?_, ?_⟩, ⟨?_, ?_, ?_⟩, ⟨?_, ?_⟩, ⟨?_, ?_⟩, ?_, ?_, ?_, ?_, ?_, ?_⟩ <;> decide +kernel
def kHandler (t : TrapInfo) (pc : Word) : Bank :=
  { kTrap tvOvl 0 with
    trapcause := BitVec.ofNat 64 t.cause, trappc := pc, trapval := t.val, trapaux := t.aux, c := { (kTrap tvOvl 0).c with wait := none },
    status := 0, x := ((((kTrap tvOvl 0).x.set 60 (BitVec.ofNat 64 t.cause)).set 61 pc).set 62 t.val).set 63 t.aux }
theorem test_witness_Traps_overlay :
    let s : State := (sTrap tvOvl 0).setBank b0 (kHandler ⟨0x3F, 5, 0⟩ 24)
    s.fetchOverlay b0 ⟨.c, 3, 8, 0x200⟩ = .ok ([0x000000009000010C], none, s) := okIs_eq (by decide +kernel)

/-! ### Fault records, migration, failures -/

/-- A fault ring of 16 records at 0x50000 with one record written. -/
def partFr : Part := { part1c with frbase := 0x50000, frctl := 0x8000000000000004, frtail := 1 }
def trapX (seq : Option Nat) : PendTrap := ⟨0x10, 24, 0x77, 0x56, 9, seq, false, none, none⟩
def sFr (seq : Option Nat) : State := { sTlb 0 { kTlb with pendTrap := some (trapX seq) } with parts := [(1, partFr)] }
theorem test_witness_FaultRing :
    (memWf (sFr none).mem = true ∧ ((sFr none).bank b0).pendTrap = some (trapX none) ∧ (trapX none).seq = none ∧
      (sFr none).part ((sFr none).bank b0).part = some partFr ∧ partFr.frctl.getLsbD 63 = true ∧ partFr.frtail < partFr.frhead + 2 ^ (partFr.frctl.toNat % 16)) ∧
    ((sFr (some 4)).banks.find? (fun q => (q.2.waitsFor 1 4).isSome) = some (b0, { kTlb with pendTrap := some (trapX (some 4)) }) ∧
      ({ kTlb with pendTrap := some (trapX (some 4)) } : Bank).waitsFor 1 4 = some (trapX (some 4)) ∧ kTlb.preemptAt = none ∧ (trapX (some 4)).grid = none) ∧
    ((∀ q ∈ (sFr (some 4)).banks, q.2.waitsFor 1 5 = none) ∧ (∀ v ∈ (sFr (some 4)).saves, ∀ c ∈ v.cores, c.2.2.waitsFor 1 5 = none)) := by decide +kernel

/-- DebugAndWindow: a core of the partition and one of another; a bank that is halted; FRBASE 0x50000, FRCTL 4, a write of 4 bytes; values that each register refuses. -/
theorem test_witness_DebugAndWindow :
    (sTlb 0 kTlb).part 1 = some part1c ∧ part1c.record.owns 0 = true ∧ part1c.record.owns 64 = false ∧ ((sTlb 0 kTlb).bank b0).halted = none ∧
    ((sTlb 0 { kTlb with drain := .halt, halted := some ⟨1, 5⟩ }).bank b0).drain = .halt ∧
    ((0x50000 : Word).extractLsb' 0 12 = 0 ∧ (0x50000 : Word).extractLsb' 48 16 = 0 ∧ inRanges part1c.record (0x50000 : Word).toNat 1 = true) ∧
    ((0x8000000000000004 : Word).extractLsb' 4 59 = 0 ∧ 4 ≤ ((0x8000000000000004 : Word).extractLsb' 0 4).toNat ∧ ((0x8000000000000004 : Word).extractLsb' 0 4).toNat ≤ 12) ∧
    part1c.lost = [] ∧
    ((0x50001 : Word).extractLsb' 0 12 ≠ 0 ∧ inRanges part1c.record (0x20000000 : Word).toNat 1 = false ∧ ((3 : Word).extractLsb' 0 4).toNat < 4 ∧
      12 < ((13 : Word).extractLsb' 0 4).toNat ∧ (0x20 : Word).extractLsb' 4 59 ≠ 0 ∧ (0x3000000000000 : Word).extractLsb' 48 2 = 3 ∧
      (0x4000 : Word).extractLsb' 14 50 ≠ 0 ∧ (5 : Word).extractLsb' 0 4 = 5 ∧ (0x10 : Word).extractLsb' 4 4 ≠ 0) ∧
    ((4 : Nat) ≠ 8 ∨ 0x30 ∈ [0x00, 0x18, 0x40, 0x48, 0x50, 0x60]) ∧ ((8 : Nat) ≠ 8 ∨ 0x60 ∈ [0x00, 0x18, 0x40, 0x48, 0x50, 0x60]) := by decide +kernel

/-- LiveMigration: idle with a key; copying with job 7; a packet with no key; everything sent. A packet that opens is not among them: what opens
is free (log entry 13). -/
def migOf (state : Nat) (pending : List MigPacket) : Migration := ⟨state, 2, pending, 5, 1, some (List.replicate 32 7), 7, [], [], [], [], []⟩
def packet (kind counter : Nat) : MigPacket := ⟨1, counter, kind, 2, 0x10000, 8, [1, 2]⟩
def sMig (m : Migration) : State := { sTlb 0 kTlb with parts := [(1, { part1c with mig := m })], jobs := [job7] }
theorem test_witness_LiveMigration :
    ((sMig (migOf migIdle [])).part 1 = some { part1c with mig := migOf migIdle [] } ∧ (sMig (migOf migIdle [])).job 7 = some job7 ∧ job7.part = 1 ∧
      (migOf migIdle []).key ≠ none ∧ (migOf migIdle []).state = migIdle) ∧
    ((sMig (migOf migCopy [])).job (migOf migCopy []).job = some job7 ∧ (migOf migCopy []).state = migCopy ∧ job7.banks ≠ [] ∧
      ({ job7 with banks := [] } : Job).part = 1) ∧
    (part1c.mig.key.bind (fun k => Config.gcmOpen k (packet 0 3).iv (packet 0 3).header (packet 0 3).sealed)) = none ∧
    (List.replicate 32 (7 : Byte)).length = 32 ∧
    ((migOf migSent [packet 0 3]).state = migSent ∧ (migOf migSent [packet 0 3]).pending.filter (fun x => !([3] : List Nat).contains x.counter) = [] ∧
      (migOf migSent [packet 0 3]).pending.filter (fun x => !([] : List Nat).contains x.counter) ≠ [] ∧ (migOf migCopy [packet 0 3]).state ≠ migSent) := by
  refine ⟨⟨rfl, rfl, rfl, ?_, rfl⟩, ⟨rfl, rfl, by decide, rfl⟩, rfl, rfl, rfl, ?_, ?_, ?_⟩ <;> decide

def migMeta (r : QRec) : MigJob := ⟨9, r, [(0, 3)], [], [], [], [], [], 0, [], [], [], [], [], [], []⟩
/-- A partition that has the metadata of a job in one packet. -/
def partMig (bs : List Byte) : Part :=
  { part1c with mig := { migOf migIdle [] with received := [⟨0, 0, 2, 0, 0, 1, bs⟩], applied := [(0x10000, 3)] } }
/-- LiveMigration at the target: nothing has come; the metadata of a job that fits on die 0, and of one that wants too many Distaff contexts;
a granule that is older than what stands there, and one that is not. -/
theorem partMig_got (bs : List Byte) : let here := (partMig bs).mig.received.filter (fun q => q.session = 0)
    assemble here 2 2 0 = bs ∧ assemble here 1 2 0 = [] := by
  simp [partMig, assemble]
theorem test_witness_LiveMigration_target :
    readMig (assemble ((migOf migIdle []).received.filter (fun q => q.session = 0)) 2 1 0) = none ∧
    (let m := migMeta (qrecOf 1)
     let here := (partMig (migBytes m)).mig.received.filter (fun q => q.session = 0)
     readMig (assemble here 2 2 0) = some m ∧ (assemble here 1 2 0).length = m.bytes ∧ m.id ≠ 0 ∧ (sMig (migOf migIdle [])).job m.id = none ∧
      (sMig (migOf migIdle [])).diesFor part1c m.qrec.lrec = some [0]) ∧
    (sMig (migOf migIdle [])).diesFor part1c { recOf 1 with dcount := 65 } = none ∧
    (assocGet (partMig []).mig.applied (packet 0 3).addr = some 3 ∧ (packet 0 3).round < 3) := by
  refine ⟨?_, ?_, by decide, by decide⟩
  · simp [migOf, assemble, readMig]
  · intro m here
    obtain ⟨h2, h1⟩ := partMig_got (migBytes m)
    exact ⟨by rw [h2]; exact readMig_migBytes m, by rw [h1]; rfl, by decide, rfl, by decide⟩

theorem test_witness_UncorrectableErrors :
    isDevMem 0x30000 = true ∧ (∀ b ∈ (sTlb 0 kTlb).banks, b.2.outLoads = []) ∧ (5 < 0x80000) ∧ (sTlb 0 kTlb).boundaryOf b0 = true ∧ (3 : BitVec 6) ≠ 0 ∧
    (∀ w, ((sTlb 0 { kTlb with c := { runs 16 with wait := some ⟨.flag, 1, 0, [], 0⟩ } }).bank b0).c.wait = some w →
      w.tag ≠ .hclaim ∧ w.tag ≠ .remoteHank ∧ w.tag ≠ .rdv) := by
  refine ⟨by decide +kernel, by decide, by decide, by decide +kernel, by decide, ?_⟩
  rintro w ⟨⟩
  decide

/-- FailuresLinksPower: a healthy core, a fifth failure of its cluster; a good flit in order and one out of order; partners of major 1 and 2;
each throttle trigger. -/
def goodFlit : Flit :=
  let f : Flit := ⟨0, 0, false, false, 0, [5], 0⟩
  { f with crc := crc32 (flitBytes f) }
def linkUp : LinkState := ⟨some (1, 0), 0, [], [], 65535, [], []⟩
/-- A good flit in order that acknowledges flit 3, one that acknowledges nothing sent, and a NAK out of order. -/
def ackFlit (seq ackseq : Nat) (nak : Bool) : Flit :=
  let f : Flit := ⟨seq, ackseq, true, nak, 0, [5], 0⟩
  { f with crc := crc32 (flitBytes f) }
def sLink : State := { sTlb 0 kTlb with links := [(2, linkUp)] }
theorem test_witness_CoreFailures :
    (0 < 2048 ∧ 0 % 64 < 48 ∧ 0 / 64 ∉ (sTlb 0 kTlb).health.retired ∧ 0 ∉ (sTlb 0 kTlb).health.failedCores) ∧
    (assocGet (sTlb 0 kTlb).health.failures (0 / 64)).getD 0 + 1 ≤ 4 ∧ 4 < (assocGet ([(0, 4)] : List (Nat × Nat)) (0 / 64)).getD 0 + 1 := by decide +kernel
theorem test_witness_LinksAndPower :
    (2 < 16 ∧ (sLink.link 2).version ≠ none ∧ goodFlit.crc = crc32 (flitBytes goodFlit) ∧ goodFlit.seq = ((sLink.link 2).lastGood + 1) % 65536 ∧
      goodFlit.ackv = false ∧ goodFlit.nak = false ∧ ({ goodFlit with seq := 7 } : Flit).seq ≠ ((sLink.link 2).lastGood + 1) % 65536) ∧
    ((ackFlit 0 3 false).crc = crc32 (flitBytes (ackFlit 0 3 false)) ∧ (ackFlit 7 3 false).crc = crc32 (flitBytes (ackFlit 7 3 false)) ∧
      (ackFlit 7 3 true).crc = crc32 (flitBytes (ackFlit 7 3 true)) ∧ (ackFlit 7 3 true).seq ≠ ((sLink.link 2).lastGood + 1) % 65536 ∧
      (∀ e ∈ (sLink.link 2).window, e.1 ≠ 3) ∧ (sLink.link 2).window = [] ∧
      (let w : List (Nat × List Byte × Option Carried) := [(2, [1], none), (3, [2], none), (4, [3], none)]
       w = [(2, [1], none)] ++ (3, [2], none) :: [(4, [3], none)] ∧ (w.map (fun q => q.1)).Nodup)) ∧
    ((sTlb 0 kTlb).link 2).version = none ∧ (let q : State := { sLink with dtc := 10000000, health := { sLink.health with level := 2, met := [(2, 0)], temp := 999 } }
     q.health.level = 2 ∧ (assocGet q.health.met 2).getD 0 + 10000000 ≤ q.dtc ∧ q.health.temp < 1000 ∧
      (assocGet ({ q.health with met := [(2, 1)] } : Health).met 2).getD 0 + 10000000 > q.dtc) ∧ 1000 ≤ ({ sLink.health with temp := 1000 } : Health).temp := by
  decide +kernel

/-! ### Frames and invariants -/

/-- RegisterFrame, EveryInstructionAnswers: an ADD whose next state exists. -/
theorem test_witness_RegisterFrame :
    names (.add g0 (.reg 5) (.reg 1) (.queue 4 false)) = some ([.reg 1, .queue 4 false], [.reg 5], none, false) ∧
    exec (.add g0 (.reg 5) (.reg 1) (.queue 4 false)) (st kInt) = .next (past (st kInt) ((kInt.setQ 4 [5]).setX 5 16)) := by
  exact ⟨rfl, isNext_eq (by decide +kernel)⟩

/-- TranslationFrame: the walk of a page that is written, in a tracked address space. -/
theorem test_witness_TranslationFrame :
    let s := sWalk 0x5000001
    memWf s.mem = true ∧ s.part 1 = some part1c ∧ (match s.walk (holdersOf 0) 1 0 0x10008 true with
      | .ok x _ => decide (x.pa = 0x30008)
      | _ => false) = true ∧
    (match walkLevels s part1c.record 0x10008 4 (fieldAt (s.readNum (asEntry part1c.record 0) 8) 12 36 * 4096) with
      | .ok r => decide (r = (0x44080, 0x30007, 0))
      | .error _ => false) = true ∧ trackOf s part1c.record 0 = some 5 ∧ isDevMem 0x30008 = true ∧
    inRanges part1c.record (5 * 2 ^ 24 + 8 * (0x30008 / 4096 / 64)) 8 = true ∧
    space (kSpan.getB 1).bits = 1 ∧ space (BitVec.ofNat 256 (2 ^ 137)) = 2 := by decide +kernel

/-- MemoryInvariant: a step of a state whose memory is in its canonical form. -/
theorem test_witness_MemoryInvariant :
    memWf sMem.mem = true ∧ sMem.health.off = false ∧ step { sMem with turns := [.elapse 5] } = .next { sMem with dtc := 5, tick := 1 } :=
  ⟨by decide +kernel, rfl, isNext_eq (by decide +kernel)⟩

/-- ScalarRounding: finite operands whose sum, difference and product and sum are nonzero, and such that are 0; an infinity beside a finite
number, beside itself and times a nonzero number; two values in order; a NaN; a value with codes on both sides of it. -/
theorem test_witness_ScalarRounding :
    ((0x3F800000 : Nat) % 2 ^ 31 < 0x7F800000 ∧ (0x80000001 : Nat) % 2 ^ 31 < 0x7F800000 ∧ f32Int 0x3F800000 + f32Int 0x80000001 ≠ 0 ∧
      f32Int 0x3F800000 + f32Int 0xBF800000 = 0 ∧ f32Int 0x3F800000 - f32Int 0x80000001 ≠ 0 ∧ f32Int 0x3F800000 - f32Int 0x3F800000 = 0 ∧
      f32Int 0x3F800000 * f32Int 0x40000000 + f32Int 0x3F800000 * 2 ^ 149 ≠ 0 ∧ f32Int 0x3F800000 * f32Int 0x40000000 + f32Int 0xC0000000 * 2 ^ 149 = 0) ∧
    (Rnd.rne ≠ .sr ∧ (0xFF800000 : Nat) % 2 ^ 31 = 0x7F800000 ∧ (0x40000000 : Nat) % 2 ^ 31 < 0x7F800000 ∧ (0x40000000 : Nat) % 2 ^ 31 ≠ 0) ∧
    (f32Int 0xFF800000 < f32Int 0x80000000 ∧ f32Int 0x80000000 = f32Int 0) ∧ 0x7F800000 < (0xFFC00000 : Nat) % 2 ^ 31 ∧
    (f32Mag 0x4B800000 < 2 ^ 173 + 2 ^ 149 ∧ 2 ^ 173 + 2 ^ 149 < f32Mag 0x4B800001 ∧ f32Up .rup false (2 ^ 173 + 2 ^ 149) 0 0x4B800000) := by
  refine ⟨by decide +kernel, by decide +kernel, by decide +kernel, by decide +kernel, by decide +kernel, by decide +kernel, rfl⟩

/-! ### Ill-formed terms: one for each check of WellFormed -/

def gArgs : GridArgs := ⟨0, 1, 2, 0, [0, 2], [2, 1], [0, 1], false, false, .rne, 0⟩
def eArgs : EwrArgs := ⟨5, 1, 0, 0, 0, .rne, false, .neg, .reg 2, 3, 0, 0, [0, 1], 0x4000, 0xBF80, .a, .k0, .k1, .fma, .x, .max, .stop, .stop⟩
theorem test_illFormed_fields : [
    .extr g0 (.reg 1) (.reg 2) 60 4, .ins g0 1 (.reg 2) 1 63, .fadd g0 .sr (.reg 1) (.reg 2) (.reg 3), .fsub g0 .sr (.reg 1) (.reg 2) (.reg 3),
    .fmul g0 .sr (.reg 1) (.reg 2) (.reg 3), .fma g0 .sr 1 (.reg 2) (.reg 3), .fcvt g0 .fromBf16 .rtz (.reg 1) (.reg 2), .fcvt g0 .toS32 .sr (.reg 1) (.reg 2),
    .bc g0 .eq (.queue 4 true) (.reg 1) 1, .bc g0 .eq (.reg 1) (.queue 4 true) 1, .loop g0 0 (.queue 4 true) (.reg 1) 4, .loop g0 0 (.reg 1) (.reg 2) 1,
    .loop g0 0 (.reg 1) (.reg 2) 0x2000000, .jr g0 (.queue 4 true), .callr g0 (.queue 4 true) 1, .ret g0 (.queue 4 true), .ldp g0 3 ⟨0, 0, 0⟩,
    .stp g0 3 ⟨0, 0, 0⟩, .flush g0 .co ⟨0, 0, 0⟩, .fence g0 .none .dv, .fenceP g0 0].all (fun i => !wellFormed i) = true := by decide
theorem test_illFormed_atomics : [
    .amo g0 .and .s32 .none .dv (.reg 1) ⟨0, 0, 0⟩ (.reg 2), .amoB g0 .and .s32 .none .cl (.reg 1) ⟨0, 0, 0⟩ (.reg 2), .amoB g0 .add .n64 .none .dv (.reg 1) ⟨0, 0, 0⟩ (.reg 2),
    .amoN g0 .fadd .s32 .none .dv (.reg 1) ⟨0, 0, 0⟩ (.reg 2), .amoN g0 .add .n64 .none .cl (.reg 1) ⟨0, 0, 0⟩ (.reg 2), .amon g0 .and .s32 false .dv ⟨0, 0, 0⟩ (.reg 2),
    .amonB g0 .and .s32 false .cl ⟨0, 0, 0⟩ (.reg 2), .amonB g0 .add .n64 false .dm ⟨0, 0, 0⟩ (.reg 2), .amonN g0 .fadd .s32 false .dv ⟨0, 0, 0⟩ (.reg 2),
    .amonN g0 .add .n64 false .co ⟨0, 0, 0⟩ (.reg 2), .casB g0 true .none .dv (.reg 1) ⟨0, 0, 0⟩ (.reg 2) (.reg 3)].all (fun i => !wellFormed i) = true := by decide
theorem test_illFormed_grid : [
    .ctr g0 { gArgs with lsa := [0, 0] }, .ctr g0 { gArgs with lsb := [0, 1, 2, 3, 4, 5, 6] }, .ctr g0 { gArgs with lsc := [1, 1] }, .ctr g0 { gArgs with shape := 1 },
    .ctrs g0 { gArgs with shape := 8 }, .red g0 gArgs, .red g0 { gArgs with lsb := [], fb := 1 }, .red g0 { gArgs with lsb := [], fb := 0, shape := 1 },
    .cvt g0 { gArgs with lsb := [], fb := 0, acc := true }, .mchk g0 .cvt (.reg 1) { gArgs with lsb := [], fb := 0, shape := 1 },
    .gbc g0 .eq (.queue 0 true) (.reg 1) 1].all (fun i => !wellFormed i) = true := by decide
theorem test_illFormed_ewr : wellFormed (.ewr g0 eArgs) = true ∧ [
    { eArgs with lsd := [0, 0] }, { eArgs with n0 := .add }, { eArgs with n5 := .stop }, { eArgs with n7 := .a }, { eArgs with ma := 4 }, { eArgs with mb := 1 },
    { eArgs with mc := 1 }, { eArgs with fb := 1 }, { eArgs with fc := 1 }, { eArgs with fn := .abs }, { eArgs with n4 := .k0 },
    { eArgs with n0 := .k0 }].all (fun a => !wellFormed (.ewr g0 a)) = true := by decide
theorem test_illFormed_rest : [
    .copy g0 0 none 1 0 0 0 (.reg 1) (.reg 2) (.reg 3) 8, .copy g0 0 none 0 0 0 1 (.reg 1) (.reg 2) (.reg 3) 8, .mcast g0 0 none 1 0 0 0 (.reg 1) (.reg 2) (.reg 3) 1,
    .tcopy g0 0 none 1 0 1 [0] [0] (.reg 1), .tcopy g0 0 none 0 0 1 [0, 0] [0] (.reg 1), .tcopy g0 0 none 0 0 1 [0] [0, 0] (.reg 1),
    .areg g0 0 (.reg 1) (.reg 2) (.reg 3) 1 7 1, .areg g0 0 (.reg 1) (.reg 2) (.reg 3) 1 1 0, .hclaimR g0 1 1 2 48, .hcommitR g0 1 1 2 48, .spmint g0 1 2,
    .spget g0 (.reg 1) 1 5, .tlbinvPage g0 (.queue 4 true) 0, .swr g0 .dtc (.reg 1), .srx g0 (.reg 1) .partid (.reg 2)].all (fun i => !wellFormed i) = true := by decide

/-! ### Words that the decoder refuses -/

/-- Each word with the cause and the detail that its rule names (R33, R49 to R79). -/
def refuses (k : StreamKind) (ws : List Nat) (cause aux : Nat) : Bool :=
  match decode k true 0 ws with
  | .trap c v a => decide (c = cause ∧ v = ws.getD 0 0 ∧ a = aux)
  | _ => false

/-- LEN 3, no second word, a reserved minor of major 0x04, ADD in the G stream, ADD with LEN 1, a reserved bit of ADD; AMON.N with ORD = acq, with
SIZE 3 for f32, at .cl, and with AND on path N; LDP of x5; WAITA with a condition code 0xA. -/
theorem test_decode_refused :
    refuses .c [3] 0x01 0 = true ∧ decode .c true 16 [0x00040444A0054041] = .trap 0x0C 24 0 ∧ refuses .c [0x3FC010] 0x03 14 = true ∧
    refuses .g [0x10] 0x04 0 = true ∧ refuses .c [0x11, 0] 0x01 0 = true ∧ refuses .c [0x8000000000000010] 0x03 57 = true ∧
    refuses .c [0x00040C44A0054041, 0x74000C] 0x03 43 = true ∧ refuses .c [0x00040464A0054041, 0x74000C] 0x03 37 = true ∧
    refuses .c [0x00040144A0054041, 0x74000C] 0x03 40 = true ∧ refuses .c [0x00040444A0054041, 0x14000C] 0x03 80 = true ∧
    refuses .c [0x0000008000514040] 0x03 20 = true ∧ refuses .c [0x00000C601862C041, 0x0A0007] 0x03 80 = true := by decide

/-! ### Words that the spec's examples write out -/

theorem test_decode_examples :
    decode .g false 0 [0x0000000208000081, 0x2000210001480010] = .ok (.ctr g0 gArgs) 2 ∧
    decode .g false 0 [0x0020000009400086, 0x680008, 0xBF80400000B6A541] = .ok (.ewr g0 eArgs) 3 ∧
    decode .c false 0 [0xFFFFFFFF0E1C0014] = .ok (.addi g0 (.reg 7) (.reg 7) 0xFFFFFFFF) 1 ∧
    decode .c false 0 [0x000001010C14C030] = .ok (.loop g0 1 (.reg 5) (.reg 6) 4) 1 ∧
    decode .c false 0 [0x00200C600850C040] = .ok (.lda g0 3 .dv (.reg 5) ⟨1, 0, 128⟩) 1 ∧
    decode .c false 0 [0x00000C601862C041, 0x070007] = .ok (.waita g0 .hs true (some .dv) (.reg 6) ⟨3, 0, 0⟩ (.reg 7) (.reg 0)) 2 ∧
    decode .c false 0 [0x00526104188000A1, 0x10000386] = .ok (.copy g0 1 (some .dv) 9 2 3 4 (.reg 5) (.reg 6) (.reg 7) 4096) 2 ∧
    decode .c false 0 [0x0051C300008040B1, 0x406] = .ok (.aqpost g0 2 (.reg 5) (.reg 6) (.reg 8) 7 3) 2 ∧
    decode .c false 0 [0x00264000C141C0C4] = .ok (.hclaimR g0 2 5 6 9) 1 ∧
    (∀ k, decode k false 0 [0x0000A000000000C0] = .ok (.rdv g0 .both .job 5) 1) ∧
    decode .c false 0 [0x00622000000000D0] = .ok (.evset g0 3 17) 1 ∧ decode .c false 0 [0x008000003050004C] = .ok (.launch g0 5 ⟨6, 0, 512⟩) 1 := by
  refine ⟨by decide, by decide, by decide, by decide, by decide, by decide, by decide, by decide, by decide, fun k => ?_, by decide, by decide⟩
  cases k <;> decide

/-! ### Values and single steps of the spec's examples -/

/-- R104: 300.0 and 500.0 into e4m3 under RNE with both settings of sat, and 500.0 under RTZ. -/
theorem test_e4m3 :
    toFmt 0x0B Alt.none .rne false 0 false (fromF32 0x43960000) = (0x79, 1) ∧ toFmt 0x0B Alt.none .rne false 0 false (fromF32 0x43FA0000) = (0x7F, 5) ∧
    toFmt 0x0B Alt.none .rne true 0 false (fromF32 0x43FA0000) = (0x7E, 5) ∧ toFmt 0x0B Alt.none .rtz false 0 false (fromF32 0x43FA0000) = (0x7E, 5) := by decide +kernel
/-- R103: 1.3 into e2m1 under SR, below and at the bound 0x99999800. -/
theorem test_e2m1_sr :
    toFmt 0x0F Alt.none .sr false 0x999997FF false (fromF32 0x3FA66666) = (3, 1) ∧
    toFmt 0x0F Alt.none .sr false 0x99999800 false (fromF32 0x3FA66666) = (2, 1) := by decide +kernel
/-- R108: 20, −3 and 0.7 in a block of mxe2m1. -/
theorem test_mxe2m1 :
    toMx 0x14 ⟨0, true⟩ .rne [] ([fromF32 0x41A00000, fromF32 0xC0400000, fromF32 0x3F333333] ++ List.replicate 29 (fromF32 0)) =
      (0x81, [6, 10, 0] ++ List.replicate 29 0, 3) := by decide +kernel
/-- R185's conversions: −0.7 and 3.0 × 10^9 into s32, a tie into bf16, 65,520.0 into f16 under RNE and RTZ. -/
theorem test_fcvt :
    fcvtValue .toS32 .rtz 0xBF333333 = (0, 1) ∧ fcvtValue .toS32 .rne 0x4F32D05E = (0x7FFFFFFF, 16) ∧ fcvtValue .toBf16 .rne 0x3F808000 = (0x3F80, 1) ∧
    fcvtValue .toF16 .rne 0x477FF000 = (0x7C00, 5) ∧ fcvtValue .toF16 .rtz 0x477FF000 = (0x7BFF, 1) := by decide +kernel
/-- FADD.rdn of 1.0 and −1.0 writes −0 and raises nothing. -/
theorem test_fadd_rdn :
    isNext (exec (.fadd g0 .rdn (.reg 5) (.reg 1) (.reg 2)) (st (withX bk [(1, 0x3F800000), (2, 0xBF800000)])))
      (st ({ (withX bk [(1, 0x3F800000), (2, 0xBF800000)]).setX 5 0x80000000 with c := runs 24 })) = true := by decide +kernel
/-- R177: DIV.s and REM.s of −7 by 2, DIV.n and REM.n of the same patterns. -/
theorem test_division :
    let k := withX bk [(1, -7), (2, 2)]
    isNext (exec (.divS g0 (.reg 5) (.reg 1) (.reg 2)) (st k)) (st { k.setX 5 (-3) with c := runs 24 }) = true ∧
    isNext (exec (.remS g0 (.reg 5) (.reg 1) (.reg 2)) (st k)) (st { k.setX 5 (-1) with c := runs 24 }) = true ∧
    isNext (exec (.divN g0 (.reg 5) (.reg 1) (.reg 2)) (st k)) (st { k.setX 5 0x7FFFFFFFFFFFFFFC with c := runs 24 }) = true ∧
    isNext (exec (.remN g0 (.reg 5) (.reg 1) (.reg 2)) (st k)) (st { k.setX 5 1 with c := runs 24 }) = true := by decide +kernel
/-- R179: MOVI and MOVHI build 0x123456789ABCDEF0. -/
theorem test_constants :
    isNext (exec (.movi g0 (.reg 5) 0x9ABCDEF0) (st bk)) (st { bk.setX 5 0xFFFFFFFF9ABCDEF0 with c := runs 24 }) = true ∧
    isNext (exec (.movhi g0 5 0x12345678) (st (bk.setX 5 0xFFFFFFFF9ABCDEF0))) (st { bk.setX 5 0x123456789ABCDEF0 with c := runs 24 }) = true := by decide +kernel
/-- R58: CMPI.hi of anything with −1 writes 0. -/
theorem test_cmpi : isNext (exec (.cmpi g0 .hi 3 (.reg 7) 0xFFFFFFFF) (st { bk with cC := Vector.replicate 8 true }))
    (st { bk with cC := (Vector.replicate 8 true).set 3 false, c := runs 24 }) = true := by decide +kernel
/-- R190's nest: the inner LOOP of bound −10 and step −3 runs four times; the ADDI falls through and loops back with lc1 = −3. -/
theorem test_loop_nest :
    let k := withX bk [(12, -10), (13, -3), (20, 0)]
    let l : LoopReg := ⟨0, true, 24, 32, 4, -3, 1⟩
    isNext (exec (.loop g0 1 (.reg 12) (.reg 13) 2) (st k)) (st { k with lc := k.lc.set 1 l, c := runs 24 }) = true ∧
    isNext (exec (.addi g0 (.reg 20) (.reg 20) 1) (st { k with lc := k.lc.set 1 l, c := runs 24 }))
      (st { k.setX 20 1 with lc := k.lc.set 1 { l with lc := -3, rem := 3 }, c := runs 24 }) = true := by decide +kernel
/-- R318: the first and the last claim of the example context. -/
theorem test_distaff :
    (let s : State := { sDist with jobs := [{ job7 with distaff := [((0, 2), ⟨96, 0, 8, 2, 3⟩)] }] }
     isNext (exec (.dclaim g0 (.reg 5) 0 2) s) (goesOn s ({ s with jobs := [{ job7 with distaff := [((0, 2), ⟨96, 16, 8, 2, 3⟩)] }] }.setBank b0 ((here s).setX 5 (0 + 16 * 0x100000000)))) = true)
     ∧ (let s : State := { sDist with jobs := [{ job7 with distaff := [((0, 2), ⟨96, 91, 8, 2, 3⟩)] }] }
     isNext (exec (.dclaim g0 (.reg 5) 0 2) s) (goesOn s ({ s with jobs := [{ job7 with distaff := [((0, 2), ⟨96, 96, 8, 2, 3⟩)] }] }.setBank b0 ((here s).setX 5 (91 + 5 * 0x100000000)))) = true) := by decide +kernel
/-- R263: the triples of the two units of the example. -/
theorem test_attar_triples :
    let row := fun (k0 k1 v0 v1 : Nat) => bytesOf 2 k0 ++ bytesOf 2 k1 ++ bytesOf 2 v0 ++ bytesOf 2 v1
    let q := bytesOf 2 0x3F80 ++ bytesOf 2 0x3F80
    unitTriple 2 q [row 0x3F80 0 0x4080 0x4100, row 0x4000 0x3F80 0x4000 0, row 0 0x3F80 0xC080 0x4080] = (0x40400000, 0x3FC00000, [0x40000000, 0x40400000]) ∧
    unitTriple 2 q [row 0x3F80 0x4000 0 0x4080, row 0x4000 0 0x4100 0] = (0x40400000, 0x3FC00000, [0x40800000, 0x40800000]) := by decide +kernel

end Sys2Proof.Tests
end

/-! ### Accesses through a span that carries SPANSTORE, and the refutation of `SpanTraps`. -/
namespace Sys2Proof.Machine
open Claims

/-- The span check of an access within bounds that the span does not grant (R18). -/
theorem spanCheck_ungranted {r : SpanReg} (n : Nat) {off : Int} {size perm : Nat} (hv : r.valid = true)
    (hb : ¬(off < 0 ∨ (sLIMIT r.bits : Int) - sBASE r.bits < off + size)) (hg : grants r.bits perm = false) :
    spanCheck r n off size perm = .error ⟨cSPAN_PERM, wordOfInt off, BitVec.ofNat 64 n⟩ := by
  rw [spanCheck, if_neg (by rw [hv]; decide), if_neg hb, if_pos (by rw [hg]; decide)]

/-- A span with SPANSTORE that does not grant what the access needs traps SPAN_STORE with the address, not SPAN_PERM (R218). -/
theorem ea_spanStore_ungranted {k : Bank} {m : MemRef} {perm size align : Nat} {mem spad dev : Bool} {v a : Word}
    (hc : spanCheck (k.getB m.sb) m.sb.toNat (k.getX m.xi + m.off.signExtend 64).toInt size perm = .error ⟨cSPAN_PERM, v, a⟩)
    (hs : sPERM (k.getB m.sb).bits &&& pSPANSTORE ≠ 0) :
    k.ea m perm size align mem spad dev =
      raise cSPAN_STORE (BitVec.ofNat 64 (sBASE (k.getB m.sb).bits) + (k.getX m.xi + m.off.signExtend 64)) 0 := by
  simp only [Bank.ea, hc]
  exact if_pos ⟨trivial, hs⟩

/-- A load to a register whose address stops in a trap takes that trap. -/
theorem ld_of_ea_trap {g : Guard} {sz : BitVec 2} {n : BitVec 6} {m : MemRef} {s : State} {t : TrapInfo} (hg : goes g s)
    (he : (here s).ea m pR (sizeOf2 sz) (sizeOf2 sz) true true true = .error (.trap t)) :
    exec (.ld g sz (.reg n) m) s = .next (s.trapC s.cur.bank t (here s).c.pc false) := by
  have hr : weakLoad (.reg n) m (sizeOf2 sz) false false s s.cur.bank = .trap s t := by
    have hd : (do dirs [] [.reg n]; (here s).roomFor (.reg n); (here s).ea m pR (sizeOf2 sz) (sizeOf2 sz) true true true) =
        .error (.trap t) := he
    simp only [weakLoad, Bool.not_false]
    exact congrArg (Ev.andThen · s _) hd
  exact (runC_runs hg).trans (by rw [hr]; rfl)

/-- A stop of a bank that no job holds ends its streams alone (R378). -/
theorem abortJob_unbound {s : State} {b : BankId} (cause : Nat) (hj : s.jobOf b = none) :
    s.abortJob b cause =
      s.modBank b (fun k => { k with c := k.c.stopped, g := k.g.stopped, pendTrap := none, drain := .none, grid := [] }) := by
  simp only [State.abortJob, hj]

/-- A trap whose delivery stops a bank that no job holds leaves its cause in TRAPCAUSE (R377). -/
theorem trapcause_deliver_unbound {s : State} {b : BankId} {t : TrapInfo} {pc : Word} (hv : tvEN (s.bank b).trapvec = false)
    (hb : (s.bank b).binding = none) : ((s.deliver b t pc).bank b).trapcause = BitVec.ofNat 64 t.cause := by
  rw [deliver_aborts (.inl hv), abortJob_unbound]
  · rw [State.bank_modBank_self, State.bank_modBank_self]
    rfl
  · rw [State.jobOf, State.bank_modBank_self]
    simp [Bank.setTrapRegs, hb]

end Sys2Proof.Machine

namespace Sys2Proof.Claims
open Machine

/-- A bank whose b1 is a span of 32 bytes of span storage at 0x1000 that grants W alone: an SPST span (R327, R328). -/
def spstBank : Bank := Bank.reset.setB 1 ⟨mkSpan 0x1000 0x1020 0x42 0 0 0 0 false 0, true⟩

/-- The device after reset, with that bank. -/
def spstState : State := State.reset.setBank State.reset.cur.bank spstBank

/-- `LD.u8 x1, [b1]` there traps SPAN_STORE. -/
theorem ld_spstState :
    exec (.ld ⟨0, false⟩ 0 (.reg 1) ⟨1, 0, 0⟩) spstState =
      .next (spstState.deliver spstState.cur.bank ⟨cSPAN_STORE, 0x1000, 0⟩ (here spstState).c.pc) := by
  have hc := spanCheck_ungranted (r := (here spstState).getB 1) 1
    (off := ((here spstState).getX 0 + (0 : BitVec 18).signExtend 64).toInt) (size := 1) (perm := pR) rfl (by decide) (by decide)
  rw [ld_of_ea_trap (by decide) (ea_spanStore_ungranted hc (by decide)), trapC_delivered (by decide)]
  rfl

/-- Refutes O10: a span with SPANSTORE that lacks R traps SPAN_STORE, where the statement has every load through a span
without R trap SPAN_PERM. -/
theorem not_spanTraps : ¬ Obligations.SpanTraps := by
  unfold Obligations.SpanTraps
  intro h
  obtain ⟨-, -, hperm⟩ := h ⟨0, false⟩ 0 1 0 ⟨1, 0, 0⟩ spstState (by decide)
  have hld := (hperm (by decide) (by decide) (by decide)).1 (by decide)
  rw [Traps, ld_spstState] at hld
  have hcause := congrArg (fun t => (t.bank spstState.cur.bank).trapcause) (Host.Outcome.next.inj hld)
  simp only [trapcause_deliver_unbound (s := spstState) (b := spstState.cur.bank) rfl rfl] at hcause
  exact absurd hcause (by decide)

end Sys2Proof.Claims

/-! ### What the device's own writes by virtual address leave of the state. -/
namespace Sys2Proof.Machine

/-- `t` differs from `s` at most in memory, its errors and release tags, L1 lines, directories, TLB entries, pending writes, what
leaves the device, and the device log. -/
def OnlyWrites (s t : State) : Prop :=
  ∃ pend out log u, OnlyMemory s u ∧ t = { u with pend := pend, outbox := out, deviceLog := log }

theorem OnlyMemory.writes {s t : State} (h : OnlyMemory s t) : OnlyWrites s t := ⟨_, _, _, t, h, rfl⟩

theorem OnlyWrites.refl (s : State) : OnlyWrites s s := (OnlyMemory.refl s).writes

theorem OnlyWrites.trans {s t u : State} (h : OnlyWrites s t) (h' : OnlyWrites t u) : OnlyWrites s u := by
  obtain ⟨_, _, _, _, ⟨_, _, _, _, _, _, rfl⟩, rfl⟩ := h
  obtain ⟨_, _, _, _, ⟨_, _, _, _, _, _, rfl⟩, rfl⟩ := h'
  exact ⟨_, _, _, _, ⟨_, _, _, _, _, _, rfl⟩, rfl⟩

theorem OnlyWrites.banks {s t : State} (h : OnlyWrites s t) : t.banks = s.banks := by
  obtain ⟨_, _, _, _, hu, rfl⟩ := h; exact hu.banks
theorem OnlyWrites.jobs {s t : State} (h : OnlyWrites s t) : t.jobs = s.jobs := by
  obtain ⟨_, _, _, _, ⟨_, _, _, _, _, _, rfl⟩, rfl⟩ := h; rfl

/-- Where a virtual address lies is found with no change but the translation's. -/
theorem State.reachVA_onlyMemory {s t : State} {hs : List TlbHolder} {part asid va : Nat} {write : Bool} {w : Where}
    (h : s.reachVA hs part asid va write = .ok (w, t)) : OnlyMemory s t := by
  simp only [State.reachVA] at h
  split at h
  · next d o _ =>
    split at h
    · cases h
    split at h
    · have hq := (OnlyMemory.exportXlat s o write).looped
      revert h hq
      cases (s.exportXlat o write).looped <;> intro h hq <;> cases h
      exact hq
    · split at h <;> cases h
      exact .refl s
  · have hq := OnlyMemory.translateFor s hs part asid va write
    revert h hq
    cases s.translateFor hs part asid va write <;> intro h hq <;> cases h
    exact hq

theorem OnlyMemory.dirWrite (s : State) (cluster place n : Nat) : OnlyMemory s (s.dirWrite cluster place n) := by
  rw [State.dirWrite]
  split
  · exact ⟨_, _, _, _, _, _, rfl⟩
  · exact .refl s

/-- The copies of a write in its core's L1 change that L1 alone. -/
theorem OnlyMemory.l1Noted (s : State) (c own : Prop) [Decidable c] [Decidable own] (core place n : Nat) (tags : List RelTag) :
    OnlyMemory s (if c then (if own then s.l1Note core place n [] tags false else s) else s.l1Drop core place n) := by
  split
  · split
    · exact ⟨_, _, _, _, _, _, rfl⟩
    · exact .refl s
  · exact ⟨_, _, _, _, _, _, rfl⟩

/-- A write that is performed at its home slice has no fault to be held, so that no bank changes (R215). -/
theorem OnlyWrites.landStore_home (s : State) {p : PendStore} (hp : p.home = true) : OnlyWrites s (s.landStore p) := by
  simp only [State.landStore, hp, if_true]
  have hpend : OnlyWrites s { s with pend := s.pend.filter (fun q => q.id ≠ p.id) } := ⟨_, _, _, s, .refl s, rfl⟩
  have hdir (u : State) : OnlyMemory u (if p.uncached = true then u else u.dirWrite (clusterOf p.bank.core) p.place p.data.length) := by
    split
    · exact .refl u
    · exact .dirWrite ..
  exact hpend.trans ((OnlyMemory.performWrite ..).trans ((OnlyMemory.l1Noted ..).trans ((hdir _).trans ⟨_, _, _, _, _, _, rfl⟩))).writes

theorem OnlyWrites.landHome (s : State) (place n : Nat) : OnlyWrites s (s.landHome place n) := by
  refine List.foldlRecOn _ _ (.refl s) fun t ht p hp => ht.trans (.landStore_home t ?_)
  have hmeets := (List.mem_filter.mp hp).2
  simp only [Bool.and_eq_true] at hmeets
  exact hmeets.1

/-- Logging the fault of an access is no more than a line of the device log (R373). -/
theorem OnlyWrites.logAccess (s : State) (part asid va : Nat) (f : XFault) : OnlyWrites s (s.logAccess part asid va f) := by
  obtain ⟨l, hl⟩ := s.logAccess_only part asid va f
  exact hl ▸ ⟨_, _, _, s, .refl s, rfl⟩

/-- A completion word changes no bank, no job and no partition (R305). -/
theorem OnlyWrites.writeDone (s : State) (part ctx addr v : Nat) : OnlyWrites s (s.writeDone part ctx addr v) := by
  simp only [State.writeDone]
  split
  · exact .refl s
  split
  · exact .refl s
  split
  case h_1 pa x t hr =>
    have ht := (State.reachVA_onlyMemory hr).writes
    split
    · exact ht
    · exact ht.trans ((OnlyWrites.landHome t pa 8).trans ((OnlyMemory.performWrite ..).trans ⟨_, _, _, _, _, _, rfl⟩).writes)
  case h_2 d o t hr => exact (State.reachVA_onlyMemory hr).writes.trans ⟨_, _, _, t, .refl t, rfl⟩
  case h_3 off t hr => exact (State.reachVA_onlyMemory hr).writes
  case h_4 f hr => exact .logAccess ..

end Sys2Proof.Machine

/-! ### What a step of the event order and an evaluation of waiting records leave of the state (R307, R325). -/
namespace Sys2Proof.Machine
open Claims

/-- `t` differs from `s` at most in the event bits that jobs note, in partitions, and in the place of the rotation. -/
def OnlyEvents (s t : State) : Prop :=
  ∃ js ps n, t = { s with jobs := js, parts := ps, nextSave := n } ∧ noBits t = noBits s

theorem OnlyEvents.refl (s : State) : OnlyEvents s s := ⟨_, _, _, rfl, rfl⟩

theorem OnlyEvents.trans {s t u : State} (h : OnlyEvents s t) (h' : OnlyEvents t u) : OnlyEvents s u := by
  obtain ⟨_, _, _, rfl, hn⟩ := h
  obtain ⟨_, _, _, rfl, hn'⟩ := h'
  exact ⟨_, _, _, rfl, hn'.trans hn⟩

theorem OnlyEvents.banks {s t : State} (h : OnlyEvents s t) : t.banks = s.banks := by obtain ⟨_, _, _, rfl, _⟩ := h; rfl
theorem OnlyEvents.mem {s t : State} (h : OnlyEvents s t) : t.mem = s.mem := by obtain ⟨_, _, _, rfl, _⟩ := h; rfl
theorem OnlyEvents.saves {s t : State} (h : OnlyEvents s t) : t.saves = s.saves := by obtain ⟨_, _, _, rfl, _⟩ := h; rfl
theorem OnlyEvents.noBits {s t : State} (h : OnlyEvents s t) : Claims.noBits t = Claims.noBits s := by
  obtain ⟨_, _, _, _, hn⟩ := h; exact hn

/-- A job stands as before, but for its event bits. -/
theorem OnlyEvents.job {s t : State} (h : OnlyEvents s t) {q : Job} (hq : q ∈ s.jobs) :
    ∃ q' ∈ t.jobs, { q' with evbits := q.evbits } = q := by
  have hmem : { q with evbits := [] } ∈ Claims.noBits t := h.noBits ▸ List.mem_map_of_mem hq
  obtain ⟨q', hq', he⟩ := List.mem_map.mp hmem
  exact ⟨q', hq', congrArg (fun (j : Job) => { j with evbits := q.evbits }) he⟩

theorem OnlyEvents.modPart (s : State) (part : Nat) (f : Part → Part) : OnlyEvents s (s.modPart part f) := ⟨_, _, _, rfl, rfl⟩

theorem OnlyEvents.noteEvents (s : State) (part : Nat) : OnlyEvents s (s.noteEvents part) := by
  refine ⟨_, _, _, rfl, ?_⟩
  simp only [Claims.noBits, State.noteEvents, List.map_map]
  refine List.map_congr_left fun j _ => ?_
  simp only [Function.comp_apply]
  split <;> rfl

theorem OnlyEvents.evaluate (s : State) (part ctx : Nat) (which : QRec → Bool) : OnlyEvents s (s.evaluate part ctx which) := by
  simp only [State.evaluate]
  split
  · exact .refl s
  · exact (OnlyEvents.modPart ..).trans ((OnlyEvents.noteEvents ..).trans ((OnlyEvents.modPart ..).trans ⟨_, _, _, rfl, rfl⟩))

theorem OnlyEvents.eventStep (s : State) (part ctx set clr : Nat) : OnlyEvents s (s.eventStep part ctx set clr) :=
  (OnlyEvents.modPart ..).trans (.evaluate ..)

theorem OnlyEvents.evaluateInst (s : State) (part inst : Nat) : OnlyEvents s (s.evaluateInst part inst) := by
  simp only [State.evaluateInst]
  split
  · split
    · exact .refl s
    · exact (OnlyEvents.modPart ..).trans ⟨_, _, _, rfl, rfl⟩
  · exact .refl s

theorem OnlyEvents.foldl {α : Type} {f : State → α → State} (hf : ∀ s a, OnlyEvents s (f s a)) (l : List α) (s : State) :
    OnlyEvents s (l.foldl f s) :=
  List.foldlRecOn l f (.refl s) fun t ht a _ => ht.trans (hf t a)

/-- A restart of the scheduler evaluates records, and does nothing else (R325). -/
theorem schedulerRestart_onlyEvents (s : State) : ∃ t, execSchedulerRestart s = .next t ∧ OnlyEvents s t := by
  refine ⟨_, rfl, .foldl (fun t (n, p) => ?_) s.parts s⟩
  exact (OnlyEvents.foldl (fun t c => .evaluate t n c _) _ t).trans
    (OnlyEvents.foldl (fun t (g : GInst) => .evaluateInst t n g.id) p.graphs _)

end Sys2Proof.Machine

/-! ### The end of a job: the completion word, the event bits, and the job's leaving the device (R308, R310). -/
namespace Sys2Proof.Machine

/-- Choosing the bank that a core runs changes that core alone. -/
theorem State.pickBank_only (s : State) (core : Nat) : ∃ cs, s.pickBank core = { s with cores := cs } := by
  simp only [State.pickBank]
  split
  · exact ⟨_, rfl⟩
  split <;> exact ⟨_, rfl⟩

/-- A bank whose streams no longer run. -/
def Bank.unbound (k : Bank) : Bank := { k with c := k.c.stopped, g := k.g.stopped }

/-- The bank's streams stop, and its core turns to a bank that can run. -/
def State.stopBank (s : State) (b : BankId) : State := (s.modBank b Bank.unbound).pickBank b.core

theorem State.stopBank_only (s : State) (b : BankId) :
    ∃ cs bs, s.stopBank b = { s with cores := cs, banks := bs } := by
  obtain ⟨cs, h⟩ := (s.modBank b Bank.unbound).pickBank_only b.core
  exact ⟨cs, _, h⟩

theorem State.bank_stopBank (s : State) (b c : BankId) :
    (s.stopBank b).bank c = if b = c then (s.bank c).unbound else s.bank c := by
  obtain ⟨cs, h⟩ := (s.modBank b Bank.unbound).pickBank_only b.core
  rw [State.stopBank, h]
  change (s.modBank b Bank.unbound).bank c = _
  split
  · next hb => rw [hb, State.bank_modBank_self]
  · next hb => rw [State.bank_modBank_ne _ _ hb]

/-- The banks of a list stop, and no other bank changes. -/
theorem State.bank_stopBanks (l : List BankId) (c : BankId) : ∀ s : State,
    (l.foldl State.stopBank s).bank c = if c ∈ l then (s.bank c).unbound else s.bank c := by
  induction l with
  | nil => intro s; rfl
  | cons b l ih =>
    intro s
    have hidem : (s.bank c).unbound.unbound = (s.bank c).unbound := rfl
    rw [List.foldl_cons, ih, State.bank_stopBank]
    by_cases hb : b = c
    · subst hb
      simp [hidem]
    · simp [hb, Ne.symm hb]

theorem State.stopBanks_only (l : List BankId) (s : State) :
    ∃ cs bs, l.foldl State.stopBank s = { s with cores := cs, banks := bs } := by
  induction l generalizing s with
  | nil => exact ⟨_, _, rfl⟩
  | cons b l ih =>
    obtain ⟨_, _, hb⟩ := s.stopBank_only b
    rw [List.foldl_cons, hb]
    obtain ⟨_, _, hl⟩ := ih { s with cores := _, banks := _ }
    exact ⟨_, _, hl⟩

/-- A job that leaves the device stops its banks, once everything that is the job's has gone. -/
theorem State.retireJob_stops (s : State) (j : Job) :
    ∃ u : State, s.retireJob j = (j.banks.map Prod.fst).foldl State.stopBank u ∧ u.banks = s.banks ∧ u.mem = s.mem ∧
      u.parts = s.parts ∧ u.jobs = s.jobs.filter (fun q => q.id ≠ j.id) := by
  simp only [List.foldl_map]
  exact ⟨_, rfl, rfl, rfl, rfl, rfl⟩

theorem State.bank_retireJob (s : State) (j : Job) (b : BankId) :
    (s.retireJob j).bank b = if b ∈ j.banks.map Prod.fst then (s.bank b).unbound else s.bank b := by
  obtain ⟨u, hr, hbanks, -⟩ := s.retireJob_stops j
  rw [hr, State.bank_stopBanks]
  simp only [State.bank, hbanks]

theorem State.retireJob_keeps (s : State) (j : Job) : (s.retireJob j).mem = s.mem ∧ (s.retireJob j).parts = s.parts ∧
    (s.retireJob j).jobs = s.jobs.filter (fun q => q.id ≠ j.id) := by
  obtain ⟨u, hr, -, hmem, hparts, hjobs⟩ := s.retireJob_stops j
  obtain ⟨_, _, hu⟩ := State.stopBanks_only (j.banks.map Prod.fst) u
  rw [hr, hu]
  exact ⟨hmem, hparts, hjobs⟩

/-- A job that is over, and that no graph placed, writes its completion word, sets its event bits, and leaves (R308). -/
theorem jobComplete_over {s : State} {j : Job} (hj : s.job j.id = some j) (ho : s.jobOver j = true) (hi : j.qrec.inst = none) :
    execJobComplete j.id s = .next (((s.writeDone j.part j.qrec.lrec.ctx j.qrec.lrec.doneaddr j.qrec.lrec.doneval.toNat).eventStep
      j.part j.qrec.lrec.ctx j.qrec.lrec.setM 0).retireJob j) := by
  simp only [execJobComplete, hj, ho, hi]
  rfl

/-- A stall that no record shows yet is recorded (R322): it is logged, and the record written when an address is given. -/
theorem sillageRecord_records {s : State} {j : Job} {x ns : Nat} (hj : s.job j.id = some j) (hstart : j.started = true)
    (hns : ((s.silCores j).head?.map (fun c => c.k.stall.toNat)).getD 0 = ns)
    (hx : s.lastProgress (s.silCores j) = some x) (h0 : ns ≠ 0) (ht : x + ns ≤ s.dtc) (hnew : j.stalledAt ≠ some x) :
    let s1 := (s.modJob j.id (fun (q : Job) => { q with stalledAt := some x })).logPart j.part .stall [j.qrec.lrec.recid, s.dtc]
    execSillageRecord j.id s = if j.qrec.lrec.siladdr = 0 then .next s1
      else .next (s1.writeOrLog [.mem] j.part (s1.jobAsid j) j.qrec.lrec.siladdr (s.sillage j ns)) := by
  have hgo : ¬(ns = 0 ∨ (!j.started) = true ∨ s.dtc < x + ns ∨ j.stalledAt = some x) := by
    simp [h0, hstart, hnew, ht]
  simp only [execSillageRecord, hj, hns, hx]
  exact if_neg hgo

/-- QUANTUM_BOUNDARY marks a team once QUANTUM_NS has passed since its start, and does nothing before (R313). -/
theorem quantumBoundary_marks {s : State} {job jd jc : Nat} {j : Job} {x : TeamRec} {b : BankId} (hj : s.job job = some j)
    (hx : j.teams.find? (fun x => x.jd = jd && x.jc = jc) = some x) (hb : j.leader jd jc = some b) :
    execQuantumBoundary job jd jc s = if x.start + (s.bank b).quantum.toNat ≤ s.dtc
      then .next (s.modTeam job jd jc (fun q => { q with boundary := true })) else .next s := by
  simp only [execQuantumBoundary, hj, hx, hb]

/-- What JOB_COMPLETE leaves of a job that is over (R8, R308). -/
theorem jobComplete_leaves {s : State} {j : Job} (hj : s.job j.id = some j) (ho : s.jobOver j = true) (hi : j.qrec.inst = none) :
    let r := j.qrec.lrec
    let s1 := (s.writeDone j.part r.ctx r.doneaddr r.doneval.toNat).eventStep j.part r.ctx r.setM 0
    ∃ t, exec (.jobComplete j.id) s = .next t ∧ t.job j.id = none ∧
      (∀ q ∈ s.jobs, q.id ≠ j.id → ∃ q' ∈ t.jobs, { q' with evbits := q.evbits } = q) ∧ t.mem = s1.mem ∧
      t.parts = s1.parts ∧ (∀ b, (∃ q ∈ j.banks, q.1 = b) → (t.bank b).c.run = .unbound ∧ (t.bank b).g.run = .unbound) ∧
      (∀ b, (∀ q ∈ j.banks, q.1 ≠ b) → t.bank b = s.bank b) := by
  intro r s1
  have hw : OnlyWrites s (s.writeDone j.part r.ctx r.doneaddr r.doneval.toNat) := .writeDone ..
  have he : OnlyEvents (s.writeDone j.part r.ctx r.doneaddr r.doneval.toNat) s1 := .eventStep ..
  obtain ⟨hmem, hparts, hjobs⟩ := s1.retireJob_keeps j
  refine ⟨s1.retireJob j, jobComplete_over hj ho hi, ?_, fun q hq hne => ?_, hmem, hparts, fun b hb => ?_, fun b hb => ?_⟩
  · simp [State.job, hjobs]
  · obtain ⟨q', hq', heq⟩ := he.job (hw.jobs ▸ hq)
    have hid : q'.id = q.id := (congrArg Job.id heq :)
    exact ⟨q', by rw [hjobs]; simpa [hid, hne] using hq', heq⟩
  · rw [State.bank_retireJob, if_pos (List.mem_map.mpr hb)]
    exact ⟨rfl, rfl⟩
  · have hout : b ∉ j.banks.map Prod.fst := fun h => by
      obtain ⟨q, hq, rfl⟩ := List.mem_map.mp h
      exact hb q hq rfl
    rw [State.bank_retireJob, if_neg hout]
    simp only [State.bank, he.banks, hw.banks]

end Sys2Proof.Machine

namespace Sys2Proof.Claims
open Machine

/-- Settles O20: the four events, each by the lemma that says what it does. -/
theorem quantaAndCompletion : Obligations.QuantaAndCompletion := by
  unfold Obligations.QuantaAndCompletion
  refine ⟨fun s job jd jc j x b hj hx hb => ?_, fun s j => jobComplete_leaves, fun s => ?_, fun s j x hj hstart => ?_⟩
  · have hq := quantumBoundary_marks hj hx hb
    exact ⟨fun h => hq.trans (if_pos h), fun h => hq.trans (if_neg (Nat.not_le.mpr h))⟩
  · obtain ⟨t, ht, he⟩ := schedulerRestart_onlyEvents s
    exact ⟨t, ht, he.banks, he.noBits, he.mem, he.saves⟩
  · intro l ns hx h0 ht hnew s1
    have hs := sillageRecord_records hj hstart rfl hx h0 ht hnew
    refine ⟨fun ha => hs.trans (if_pos ha), fun s2 hw ha => (hs.trans (if_neg ha)).trans ?_⟩
    rw [State.writeOrLog, hw]

end Sys2Proof.Claims

/-! ### The state after reset. -/
namespace Sys2Proof.Claims
open Machine

/-- Settles O30: reset lists no bank, so every bank reads as `Bank.reset`, and every list of the state is empty. -/
theorem resetState : Obligations.ResetState := by
  have hbank (b : BankId) : State.reset.bank b = Bank.reset := rfl
  refine ⟨fun b n => ?_, fun b => ?_, rfl, rfl, rfl, rfl, rfl, rfl, rfl, rfl, rfl, fun a => rfl, rfl, rfl⟩
  · rw [hbank]
    exact Vector.getElem_replicate n.isLt
  · rw [hbank]
    exact ⟨rfl, rfl, rfl⟩

end Sys2Proof.Claims

/-! ### What a stream that waits keeps, and the record of a root that lacks hashes. -/
namespace Sys2Proof.Machine

@[simp] theorem Stream.pc_waiting (t : Stream) (now : Nat) (tag : WaitTag) (obj detail : Nat) (vals : List Word) :
    (t.waiting now tag obj detail vals).pc = t.pc := by
  simp only [Stream.waiting]
  repeat' split
  all_goals rfl

@[simp] theorem Stream.tag_waiting (t : Stream) (now : Nat) (tag : WaitTag) (obj detail : Nat) (vals : List Word) :
    (t.waiting now tag obj detail vals).wait.map (·.tag) = some tag := by
  simp only [Stream.waiting]
  repeat' split
  all_goals rfl

/-- A wake event lets a stream issue that waits for what the event ends. -/
theorem State.wake_waits {s : State} {i : StreamId} {tags : List WaitTag} {w : Wait}
    (hw : ((s.bank i.bank).stream i.kind).wait = some w) (ht : w.tag ∈ tags) : s.wake i tags = { s with turns := .issue i :: s.turns } := by
  simp [State.wake, hw, ht]

theorem RootRec.names_iff {r : RootRec} {job number : Nat} {root : Coord} :
    r.names job number root = true ↔ r.job = job ∧ r.number = number ∧ r.root = root := by
  simp [RootRec.names, and_assoc]

/-- A root that lacks a result decides nothing (R135). -/
theorem State.rootDecide_partial {s : State} {job number : Nat} {root : Coord} {r : RootRec}
    (hfind : s.roots.find? (fun r => r.names job number root) = some r) (hfull : r.full = false) :
    s.rootDecide job number root = s := by
  simp only [State.rootDecide, hfind]
  cases (s.job job).bind (fun j => j.bankOf root) with
  | none => rfl
  | some b => exact if_pos (congrArg not hfull)

section
variable {s : State} {job number : Nat} {root : Coord} (hnew : ∀ r ∈ s.roots, r.names job number root = false)
include hnew

/-- The result of a root whose record no HASH has made yet makes it (R135). -/
theorem State.rootReady_new (core status parts : Nat) (dies : List Nat) (needTag : Bool) (h : List Byte) :
    s.rootReady job number root core status parts dies needTag h =
      { s with roots := s.roots ++ [⟨job, number, root, true, parts, dies, needTag, h, [(root, core, status, h)]⟩] } := by
  have hfind : s.roots.find? (fun r => r.names job number root) = none := by simpa using hnew
  have hmap : s.roots.map (fun r => if r.names job number root then
      { r with ready := true, parts := parts, dies := dies, needTag := needTag, own := h } else r) = s.roots :=
    (List.map_congr_left fun r hr => if_neg (by simp [hnew r hr])).trans s.roots.map_id
  have hgot : s.rootGot job number root root core status h =
      { s with roots := s.roots ++ [⟨job, number, root, false, 0, [], false, [], [(root, core, status, h)]⟩] } := by
    simp only [State.rootGot, hfind]
  have hname : RootRec.names ⟨job, number, root, false, 0, [], false, [], [(root, core, status, h)]⟩ job number root = true :=
    RootRec.names_iff.mpr ⟨rfl, rfl, rfl⟩
  simp only [State.rootReady, hgot, List.map_append, hmap, List.map_cons, List.map_nil, if_pos hname]

/-- A root with its own result and none of the other participants' decides nothing yet (R135). -/
theorem State.rootDecide_rootReady_new (core status : Nat) {parts : Nat} (dies : List Nat) (needTag : Bool) (h : List Byte)
    (hparts : 1 < parts) :
    (s.rootReady job number root core status parts dies needTag h).rootDecide job number root =
      s.rootReady job number root core status parts dies needTag h := by
  have hfind : s.roots.find? (fun r => r.names job number root) = none := by simpa using hnew
  rw [State.rootReady_new hnew]
  refine State.rootDecide_partial (r := ⟨job, number, root, true, parts, dies, needTag, h, [(root, core, status, h)]⟩) ?_ ?_
  · simp [hfind, RootRec.names_iff.mpr]
  · simp [RootRec.full, Nat.ne_of_lt hparts]

end

end Sys2Proof.Machine

/-! ### Issue of a grid instruction: what the checks decide (R136). -/
namespace Sys2Proof.Machine
open Claims

/-- Whether an operation has several participants. -/
abbrev GridIn.shared (g : GridIn) : Prop := 1 < g.dims.1 * g.dims.2.1 * g.dims.2.2

/-- The job of the running bank, as its messages name it. -/
abbrev jobHere (s : State) : Nat := ((here s).binding.map (·.job)).getD 0

/-- The digest that the running bank's contraction sends to its root (R135). -/
abbrev digestSeen (s : State) (w : GridWhat) (fs : List (Nat × Word)) : List Byte :=
  gridDigest w ((here s).getM w.mr) (gridSeen s w fs).ops

/-- The contraction counted, whatever comes of it. -/
abbrev Bank.counted (k : Bank) : Bank := { k with gridNum := k.gridNum + 1 }

/-- The bank with an operation that it has counted and started. -/
abbrev Bank.started (k : Bank) (o : GridOp) : Bank :=
  { k with grid := k.grid ++ [o], nextGrid := k.nextGrid + 1, gridNum := k.gridNum + 1 }

section
variable {w : GridWhat} {s : State} {fs : List (Nat × Word)} {fail : Option TrapInfo}

/-! The tests of `gridStart`, as it writes them. -/

theorem GridIn.not_isPart_ne_true {g : GridIn} {c : Coord} (h : g.isPart c = true) : ¬(!g.isPart c) = true := by simp [h]
theorem GridIn.not_shared_eq_true {g : GridIn} (h : ¬g.shared) : (!decide g.shared) = true := by simp [h]
theorem GridIn.not_shared_ne_true {g : GridIn} (h : g.shared) : ¬(!decide g.shared) = true := by simp [h]

theorem addGrid_counted (s : State) (b : BankId) (o : GridOp) :
    (s.modBank b Bank.counted).addGrid b o = s.modBank b (·.started o) := by
  simp [State.addGrid, State.modBank]

/-- A failed check traps where no other core waits for this one's result. -/
theorem gridStart_traps {t : TrapInfo} (hc : gridChecks w s s.cur.bank = (fs, some t))
    (hp : ¬((gridSeen s w fs).isPart (s.gridPlace s.cur.bank).2 = true ∧ (gridSeen s w fs).shared)) :
    gridStart w s s.cur.bank = .trap s t := by
  simp only [gridStart, hc]
  by_cases hpart : (gridSeen s w fs).isPart (s.gridPlace s.cur.bank).2 = true
  · exact (if_neg (GridIn.not_isPart_ne_true hpart)).trans (if_pos (GridIn.not_shared_eq_true fun h => hp ⟨hpart, h⟩))
  · exact if_pos (congrArg not (eq_false_of_ne_true hpart))

/-- A core outside the participants counts the contraction, and is done. -/
theorem gridStart_outside (hc : gridChecks w s s.cur.bank = (fs, none))
    (hp : (gridSeen s w fs).isPart (s.gridPlace s.cur.bank).2 = false) :
    gridStart w s s.cur.bank = .done (s.modBank s.cur.bank Bank.counted) := by
  simp only [gridStart, hc]
  exact if_pos (congrArg not hp)

/-- The lone participant starts its operation. -/
theorem gridStart_alone (hc : gridChecks w s s.cur.bank = (fs, none))
    (hp : (gridSeen s w fs).isPart (s.gridPlace s.cur.bank).2 = true) (hm : ¬(gridSeen s w fs).shared) :
    gridStart w s s.cur.bank =
      .done (s.modBank s.cur.bank (·.started (newGridOp (here s) w fs .running (here s).gridNum none))) := by
  simp only [gridStart, hc]
  refine (if_neg (GridIn.not_isPart_ne_true hp)).trans ((if_pos (GridIn.not_shared_eq_true hm)).trans ?_)
  exact congrArg Res.done (addGrid_counted ..)

/-- A participant other than the root sends its hash and waits for GO. -/
theorem gridStart_member (hc : gridChecks w s s.cur.bank = (fs, none))
    (hp : (gridSeen s w fs).isPart (s.gridPlace s.cur.bank).2 = true) (hm : (gridSeen s w fs).shared)
    (hme : (s.gridPlace s.cur.bank).2 ≠ (0, 0, 0)) :
    gridStart w s s.cur.bank =
      .wait ((s.modBank s.cur.bank (·.started (newGridOp (here s) w fs .hashed (here s).gridNum none))).sendSpindle (jobHere s)
          (here s).gridNum none (s.gridPlace s.cur.bank).2 s.cur.bank.core (0, 0, 0)
            (.hash 0 (digestSeen s w fs) (gridSeen s w fs).present.length))
        .gridGo 0 s.cur.bank.core [BitVec.ofNat 64 (here s).nextGrid] := by
  simp only [gridStart, hc]
  refine (if_neg (GridIn.not_isPart_ne_true hp)).trans ((if_neg (GridIn.not_shared_ne_true hm)).trans ((if_neg hme).trans ?_))
  rw [← addGrid_counted]
  rfl

/-- The root adds its own result, whether its checks failed or not, and waits for the decision. -/
theorem gridStart_root (hc : gridChecks w s s.cur.bank = (fs, fail))
    (hp : (gridSeen s w fs).isPart (s.gridPlace s.cur.bank).2 = true) (hm : (gridSeen s w fs).shared)
    (hme : (s.gridPlace s.cur.bank).2 = (0, 0, 0)) :
    gridStart w s s.cur.bank =
      .wait ((((s.modBank s.cur.bank (·.started (newGridOp (here s) w fs .hashed (here s).gridNum (fail.map TrapInfo.held)))).rootReady
          (jobHere s) (here s).gridNum (0, 0, 0) s.cur.bank.core ((fail.map (·.cause)).getD 0) (gridSeen s w fs).present.length
          ((s.job (jobHere s)).elim [] (fun j => gridDies s j (gridSeen s w fs)))
          (1 < (gridSeen s w fs).dims.1 * (gridSeen s w fs).dims.2.1) (digestSeen s w fs))).rootDecide
            (jobHere s) (here s).gridNum (0, 0, 0))
        .gridGo 0 s.cur.bank.core [BitVec.ofNat 64 (here s).nextGrid] := by
  simp only [gridStart, hc]
  refine (if_neg (GridIn.not_isPart_ne_true hp)).trans ((if_neg (GridIn.not_shared_ne_true hm)).trans ((if_pos hme).trans ?_))
  rw [← addGrid_counted]
  rfl

end

end Sys2Proof.Machine

/-! ### Issue of a grid instruction: what the stream does with the answer (R28, R141, R142). -/
namespace Sys2Proof.Machine
open Claims

/-- An answer with the queues as the read of X left them (R28). -/
def Res.popping (b : BankId) (k1 : Bank) : Res → Res
  | .done t => .done (t.modBank b (fun k => { k with q := k1.q }))
  | r => r

/-- A read of a G source slot that its operand describes (R29). -/
theorem readGSrc_of_operand {k k1 : Bank} {src : GSrc} {x : Word32} (h : GOperand k src x k1) :
    gsrcDir src = .ok () ∧ k.readGSrc src = .ok (x, k1) := by
  cases src with
  | reg n => obtain ⟨rfl, rfl⟩ := h; exact ⟨rfl, rfl⟩
  | queue q peek =>
    obtain ⟨hq, v, l, hl, rfl, rfl⟩ := h
    refine ⟨?_, ?_⟩
    · simp [gsrcDir, popDir, poppedBy, hq]
    · simp only [Bank.readGSrc, Bank.take, hl]
      rfl

/-- Reading X changes the queues alone. -/
theorem gridForm_queues {g : Guard} {i : Instr} {w : GridWhat} {len : Nat} {k k1 : Bank} (h : GridForm g i w len k k1) :
    ∃ q, k1 = { k with q := q } := by
  obtain ⟨_, -, rfl, -⟩ | ⟨a, x, -, -, -, hx⟩ := h
  · exact ⟨_, rfl⟩
  · revert hx
    cases a.x with
    | reg n => rintro ⟨-, rfl⟩; exact ⟨_, rfl⟩
    | queue q peek =>
      rintro ⟨-, v, l, -, -, rfl⟩
      split <;> exact ⟨_, rfl⟩

section
variable {g : Guard} {i : Instr} {w : GridWhat} {len : Nat} {s : State} {k1 : Bank}
  (hg : goesG g s) (hw : (here s).g.wait = none) (ho : (here s).notOwned w = none) (hl : (here s).grid.length < 4)

include hw ho hl in
/-- A stream that owns the registers and has a free place makes the checks. -/
theorem gridRun_starts : gridRun w s s.cur.bank = gridStart w s s.cur.bank := by
  have hw' : (s.bank s.cur.bank).g.wait = none := hw
  have ho' : (s.bank s.cur.bank).notOwned w = none := ho
  simp only [gridRun, hw', ho']
  exact if_neg (Nat.not_le.mpr hl)

include hg hw ho hl in
/-- EWR reads X before its checks, and pops it only when they answer that it is done (R28, R160). -/
theorem ewr_issues {a : EwrArgs} {x : Word32} (hwx : w = .ewr a x) (hx : GOperand (here s) a.x x k1) :
    exec (.ewr g a) s = .next (finishG s.cur.bank 3 (here s).g.pc ((gridStart w s s.cur.bank).popping s.cur.bank k1)) := by
  subst hwx
  obtain ⟨hdir, hread⟩ := readGSrc_of_operand hx
  have hrun := gridRun_starts hw ho hl
  simp only [here] at hw ho hl hread
  have ho' : (s.bank s.cur.bank).notOwned (.ewr a 0) = none := ho
  change execEwr g a s = _
  rw [execEwr, runG_runs hg]
  refine congrArg (fun r => Host.Outcome.next (finishG _ 3 _ r)) ?_
  simp only [hdir, hw, ho', if_neg (Nat.not_le.mpr hl), hread, bind, Except.bind, Ev.andThen, hrun]
  cases gridStart (.ewr a x) s s.cur.bank <;> rfl

include hg hw ho hl in
/-- An instruction that makes its checks ends by their answer: as it stands, with word 0 in a field trap, or with X popped. -/
theorem gridForm_issues (hf : GridForm g i w len (here s) k1) :
    ∃ f : Res → Res, exec i s = .next (finishG s.cur.bank len (here s).g.pc (f (gridStart w s s.cur.bank))) ∧
      (k1 = here s ∧ (f = id ∨ f = fillWord0 s.cur.bank) ∨ f = Res.popping s.cur.bank k1) := by
  have hrun := gridRun_starts hw ho hl
  obtain ⟨a, rfl, rfl, ⟨rfl, rfl⟩ | ⟨rfl, rfl⟩ | ⟨rfl, rfl⟩ | ⟨rfl, rfl⟩⟩ | ⟨a, x, rfl, rfl, hwx, hx⟩ := hf
  · exact ⟨id, (runG_runs hg).trans (by rw [hrun]; rfl), .inl ⟨rfl, .inl rfl⟩⟩
  · have hctrs := runG_runs (len := 2) (f := fun s b => fillWord0 b (gridRun (.ctrs a) s b)) hg
    exact ⟨fillWord0 s.cur.bank, hctrs.trans (by rw [hrun]; rfl), .inl ⟨rfl, .inr rfl⟩⟩
  · exact ⟨id, (runG_runs hg).trans (by rw [hrun]; rfl), .inl ⟨rfl, .inl rfl⟩⟩
  · exact ⟨id, (runG_runs hg).trans (by rw [hrun]; rfl), .inl ⟨rfl, .inl rfl⟩⟩
  · exact ⟨_, ewr_issues hg hw ho hl hwx hx, .inr rfl⟩

include hg hw ho hl in
/-- An instruction that is done at issue leaves what its checks changed in the bank, and X popped. -/
theorem gridForm_done (hf : GridForm g i w len (here s) k1) {f : Bank → Bank} (hq : (f (here s)).q = (here s).q)
    (hd : gridStart w s s.cur.bank = .done (s.modBank s.cur.bank f)) :
    exec i s = .next (pastG s s { f (here s) with q := k1.q } len) := by
  obtain ⟨r, hr, ⟨rfl, hr'⟩ | rfl⟩ := gridForm_issues hg hw ho hl hf <;> rw [hr, hd]
  · have hkeep (t : State) : r (.done t) = .done t := by rcases hr' with rfl | rfl <;> rfl
    rw [hkeep, ← hq]
    exact congrArg Host.Outcome.next (finishG_done_setBank ..)
  · simp only [Res.popping, State.modBank, State.bank_setBank_self, State.setBank_setBank]
    exact congrArg Host.Outcome.next (finishG_done_setBank ..)

include hg hw ho hl in
/-- An instruction that waits at issue pops nothing (R28). -/
theorem gridForm_waits (hf : GridForm g i w len (here s) k1) {t : State} {tag : WaitTag} {obj detail : Nat} {vals : List Word}
    (hd : gridStart w s s.cur.bank = .wait t tag obj detail vals) :
    exec i s = .next (t.modBank s.cur.bank (fun k => { k with g := k.g.waiting t.dtc tag obj detail vals })) := by
  obtain ⟨r, hr, ⟨-, rfl | rfl⟩ | rfl⟩ := gridForm_issues hg hw ho hl hf <;> rw [hr, hd] <;> rfl

include hg hw ho hl in
/-- An instruction that waits at the operation that it has started. -/
theorem gridForm_starts (hf : GridForm g i w len (here s) k1) {t : State} {o : GridOp} {tag : WaitTag} {obj detail : Nat}
    {vals : List Word} (hd : gridStart w s s.cur.bank = .wait t tag obj detail vals)
    (ht : t.banks = (s.modBank s.cur.bank (·.started o)).banks) :
    ∃ u, exec i s = .next u ∧ (u.bank s.cur.bank).grid = (here s).grid ++ [o] ∧
      (u.bank s.cur.bank).gridNum = (here s).gridNum + 1 ∧ (u.bank s.cur.bank).g.pc = (here s).g.pc ∧
      (u.bank s.cur.bank).g.wait.map (·.tag) = some tag ∧ u.spindle = t.spindle ∧ u.roots = t.roots ∧ u.mem = t.mem := by
  have hbank : t.bank s.cur.bank = (here s).started o := by
    rw [State.bank, ht]
    exact State.bank_modBank_self ..
  exact ⟨_, gridForm_waits hg hw ho hl hf hd, by simp [hbank]⟩

include hg hw ho hl in
/-- A trap at issue aborts the job (R376). -/
theorem gridForm_traps (hf : GridForm g i w len (here s) k1) {t : TrapInfo} (ht : t.cause ≠ cILLEGAL_FIELD)
    (hd : gridStart w s s.cur.bank = .trap s t) :
    exec i s = .next ((s.modBank s.cur.bank (fun k => k.setTrapRegs t k.g.pc)).abortJob s.cur.bank t.cause) := by
  obtain ⟨r, hr, ⟨-, rfl | rfl⟩ | rfl⟩ := gridForm_issues hg hw ho hl hf <;> rw [hr, hd]
  · rfl
  · rw [fillWord0, if_neg (fun h => ht h.1)]
    rfl
  · rfl

end

end Sys2Proof.Machine

/-! ### What MCHK writes, and the turns of an operation whose tiles are written (R134, R165). -/
namespace Sys2Proof.Machine
open Claims

/-- A result that is written as its slot describes it (R26, R27). -/
theorem writeDst_of_result {k k1 : Bank} {dst : Dst} {v : Word} (h : Result k dst v k1) :
    dstDir .c dst = .ok () ∧ k.writeDst dst v = .ok k1 := by
  cases dst with
  | reg n => obtain rfl := h; exact ⟨rfl, rfl⟩
  | queue q =>
    obtain ⟨hq, hlen, rfl⟩ := h
    exact ⟨by simp [dstDir, pushDir, pushedBy, hq], if_pos hlen⟩

/-- A turn of an operation whose tiles are all written does nothing. -/
theorem State.gridTurn_written {s : State} {b : BankId} {seq : Nat} {o : GridOp} (hfind : s.gridOp b seq = some o)
    (hp : o.phase = .written) (htodo : o.todo = []) (n : Nat) : s.gridTurn b seq n = s := by
  simp [State.gridTurn, hfind, hp, htodo]

theorem State.gridTurns_written {s : State} {b : BankId} {seq : Nat} {o : GridOp} (hfind : s.gridOp b seq = some o)
    (hp : o.phase = .written) (htodo : o.todo = []) (n : Nat) : State.gridTurns n s b seq = s := by
  induction n with
  | zero => rfl
  | succ n ih => rw [State.gridTurns, State.gridTurn_written hfind hp htodo, ih]

end Sys2Proof.Machine

namespace Sys2Proof.Claims
open Machine

/-- Issue: each clause by what the checks decide and by what the stream does with it. -/
theorem gridIssues : GridIssues := by
  intro g i w len s k1 fs fail hg hf hw ho hl hc gi me multi op
  obtain ⟨q, hk1⟩ := gridForm_queues hf
  refine ⟨?_, ?_, ?_, ?_, ?_⟩
  · rintro rfl hpart
    rw [gridForm_done hg hw ho hl hf rfl (gridStart_outside hc hpart), hk1]
  · rintro rfl hpart hm
    rw [gridForm_done hg hw ho hl hf rfl (gridStart_alone hc hpart hm), hk1]
  · rintro t rfl hp ht
    exact gridForm_traps hg hw ho hl hf ht (gridStart_traps hc hp)
  · rintro rfl hpart hm hme
    obtain ⟨u, hu, hgrid, hnum, hpc, -, hspindle, -, hmem⟩ :=
      gridForm_starts hg hw ho hl hf (gridStart_member hc hpart hm hme) rfl
    exact ⟨u, hu, hgrid, hnum, hpc, hspindle, hmem⟩
  · intro hme hpart hm hmany id hnew digest
    have hnames : ∀ r ∈ (s.modBank s.cur.bank (·.started (op .hashed (here s).gridNum (fail.map TrapInfo.held)))).roots,
        r.names id (here s).gridNum (0, 0, 0) = false := fun r hr =>
      eq_false_of_ne_true fun h => hnew r hr (RootRec.names_iff.mp h)
    have hstart := gridStart_root hc hpart hm hme
    rw [State.rootDecide_rootReady_new hnames _ _ _ _ _ hmany, State.rootReady_new hnames] at hstart
    obtain ⟨u, hu, hgrid, hnum, hpc, htag, hspindle, hroots, hmem⟩ :=
      gridForm_starts hg hw ho hl hf hstart rfl
    exact ⟨u, hu, hgrid, hnum, hpc, htag, hroots, hspindle, hmem⟩

/-- MCHK writes the code of the check that fails, by its destination slot. -/
theorem checkedMapping : CheckedMapping := by
  intro g kind rx a s w k hg hw hr
  have hr' : Result (here s) rx (BitVec.ofNat 64 (((gridChecks w s s.cur.bank).2.map (·.cause)).getD 0)) k := by
    revert hr
    cases (gridChecks w s s.cur.bank).2 <;> exact id
  obtain ⟨hdir, hwrite⟩ := writeDst_of_result hr'
  have hrun : exec (.mchk g kind rx a) s = .next (finishC s.cur.bank 2 (here s).c.pc
      ((dstDir .c rx >>= fun _ => (here s).writeDst rx
        (BitVec.ofNat 64 (((gridChecks w s s.cur.bank).2.map (·.cause)).getD 0))).andThen s (fun k => .done (s.setBank s.cur.bank k)))) := by
    change execMchk g kind rx a s = _
    unfold execMchk
    rw [runC_runs hg]
    subst hw
    rfl
  rw [hrun, hdir]
  change Host.Outcome.next (finishC _ _ _ (Ev.andThen ((here s).writeDst _ _) s _)) = _
  rw [hwrite]
  exact congrArg Host.Outcome.next (finishC_done_setBank ..)

/-- A waiting instruction issues again; an operation whose tiles are written ends with no turn left to make. -/
theorem gridCompletes : GridCompletes := by
  refine ⟨fun s b w hw ht => ?_, fun s b o hfind hp htodo hsp => ?_⟩
  · exact congrArg Host.Outcome.next (State.wake_waits (i := ⟨b, .g⟩) hw (by simpa using ht))
  · have hop : s.gridOp b o.seq = some o := hfind
    change execGridComplete b o.seq s = _
    simp only [execGridComplete, hop, State.gridTurns_written hop hp htodo]
    refine if_neg (not_or.mpr ⟨fun hne => hne hp, fun hany => ?_⟩)
    obtain ⟨m, hm, hm'⟩ := List.any_eq_true.mp hany
    exact hsp m hm (by simp_all)

/-- Settles O42: issue, MCHK and completion. -/
theorem gridInstructions : Obligations.GridInstructions := ⟨gridIssues, checkedMapping, gridCompletes⟩

end Sys2Proof.Claims

/-! ### The folded tree against the rounds of pairing (R117). -/
namespace Sys2Proof.Machine
open Claims

/-- The value of node `i` of height `h`, folded from the leaves. -/
def nodeValue (c : Cls) (leaf : Nat → Nat × Nat) (nb h i : Nat) : Nat := (treeValue c leaf (fun _ => none) nb h i).1

/-- The number of nodes of height `h` over `nb` blocks: a round halves it, rounding up. -/
def levelWidth (nb : Nat) : Nat → Nat
  | 0 => nb
  | h + 1 => (levelWidth nb h + 1) / 2

/-- The values of the nodes of height `h`. -/
def treeLevel (c : Cls) (leaf : Nat → Nat × Nat) (nb h : Nat) : List Nat :=
  (List.range (levelWidth nb h)).map (nodeValue c leaf nb h)

/-- A node stands at its height where its first block does. -/
theorem lt_levelWidth {nb : Nat} (h j : Nat) : j < levelWidth nb h ↔ j * 2 ^ h < nb := by
  induction h generalizing j with
  | zero => rw [levelWidth, Nat.pow_zero, Nat.mul_one]
  | succ h ih =>
    have hdouble : j * 2 ^ (h + 1) = 2 * j * 2 ^ h := by rw [Nat.pow_succ', ← Nat.mul_assoc, Nat.mul_comm j 2]
    rw [hdouble, ← ih, levelWidth]
    omega

section
variable {c : Cls} {leaf : Nat → Nat × Nat} {nb : Nat}

theorem nodeValue_zero (i : Nat) : nodeValue c leaf nb 0 i = (leaf i).1 := by simp only [nodeValue, treeValue]

/-- A node adds its two halves where blocks lie right of the middle, and keeps the left one elsewhere. -/
theorem nodeValue_succ (h i : Nat) : nodeValue c leaf nb (h + 1) i =
    if (2 * i + 1) * 2 ^ h < nb then (addCls c (nodeValue c leaf nb h (2 * i)) (nodeValue c leaf nb h (2 * i + 1))).1
    else nodeValue c leaf nb h (2 * i) := by
  simp only [nodeValue, treeValue, ← Nat.not_le, ite_not]
  exact apply_ite Prod.fst ..

/-- Nodes that are given with their own values leave every value of the tree as it is. -/
theorem treeValue_given {given : Nat × Nat → Option Nat} (hg : ∀ h i v, given (h, i) = some v → v = nodeValue c leaf nb h i) (h i : Nat) :
    (treeValue c leaf given nb h i).1 = nodeValue c leaf nb h i := by
  induction h generalizing i with
  | zero =>
    cases hi : given (0, i) with
    | some v => simp only [treeValue, hi, hg 0 i v hi]
    | none => simp only [treeValue, hi, nodeValue_zero]
  | succ h ih =>
    cases hi : given (h + 1, i) with
    | some v => simp only [treeValue, hi, hg (h + 1) i v hi]
    | none =>
      rw [nodeValue_succ, ← ih (2 * i), ← ih (2 * i + 1)]
      simp only [treeValue, hi, ← Nat.not_le, ite_not]
      exact apply_ite Prod.fst ..

/-- Above the blocks the tree only passes its value on. -/
theorem nodeValue_above {h n : Nat} (hh : nb ≤ 2 ^ h) (hn : h ≤ n) : nodeValue c leaf nb n 0 = nodeValue c leaf nb h 0 := by
  induction hn with
  | refl => rfl
  | @step n hn ih =>
    have hpow : 2 ^ h ≤ 2 ^ n := Nat.pow_le_pow_right (by decide) hn
    rw [nodeValue_succ, if_neg (by omega)]
    exact ih

/-- A round pairs the values at 2i and 2i + 1, and keeps an odd last one. -/
theorem pairUp_map_range (c : Cls) : ∀ (n : Nat) (f : Nat → Nat), pairUp c ((List.range n).map f) =
    (List.range ((n + 1) / 2)).map (fun i => if 2 * i + 1 < n then (addCls c (f (2 * i)) (f (2 * i + 1))).1 else f (2 * i))
  | 0, _ => rfl
  | 1, _ => rfl
  | n + 2, f => by
    have hlen : (n + 2 + 1) / 2 = (n + 1) / 2 + 1 := by omega
    have hlt (i : Nat) : 2 * (i + 1) + 1 < n + 2 ↔ 2 * i + 1 < n := by omega
    rw [hlen, List.range_succ_eq_map (n := n + 1), List.range_succ_eq_map (n := n), List.range_succ_eq_map (n := (n + 1) / 2)]
    simp only [List.map_cons, List.map_map, pairUp, Function.comp_def, pairUp_map_range c n, Nat.succ_eq_add_one, hlt]
    rw [if_pos (show 2 * 0 + 1 < n + 2 by omega)]
    rfl

/-- A round takes the values of one height to those of the next. -/
theorem pairUp_treeLevel (h : Nat) : pairUp c (treeLevel c leaf nb h) = treeLevel c leaf nb (h + 1) := by
  rw [treeLevel, pairUp_map_range]
  refine List.map_congr_left fun i _ => ?_
  simp only [nodeValue_succ, lt_levelWidth]

theorem rounds_treeLevel (n h : Nat) : rounds c n (treeLevel c leaf nb h) = treeLevel c leaf nb (h + n) := by
  induction n generalizing h with
  | zero => rfl
  | succ n ih => rw [rounds, pairUp_treeLevel, ih, Nat.add_right_comm, Nat.add_assoc]

/-- One value is left at every height that the blocks do not exceed. -/
theorem treeLevel_top (hnb : 0 < nb) {h : Nat} (hh : nb ≤ 2 ^ h) : treeLevel c leaf nb h = [nodeValue c leaf nb h 0] := by
  have hsome : 0 < levelWidth nb h := (lt_levelWidth h 0).mpr (by omega)
  have hsingle : ¬1 < levelWidth nb h := fun hlt => absurd ((lt_levelWidth h 1).mp hlt) (by omega)
  have hone : levelWidth nb h = 1 := by omega
  rw [treeLevel, hone]
  rfl

end

end Sys2Proof.Machine

namespace Sys2Proof.Claims
open Machine

/-- Settles O14: each round of pairing makes the next height of the tree, and the top is reached within `nb` rounds. -/
theorem canonicalTree : Obligations.CanonicalTree := by
  intro c leaf given nb hnb hg
  have hleaves : (List.range nb).map (fun i => (leaf i).1) = treeLevel c leaf nb 0 :=
    List.map_congr_left fun i _ => (nodeValue_zero i).symm
  have htop : nb ≤ 2 ^ treeTop nb := Nat.le_of_lt Nat.lt_log2_self
  have hwithin : treeTop nb ≤ nb := (Nat.log2_lt (Nat.ne_of_gt hnb)).mpr Nat.lt_two_pow_self
  calc rounds c nb ((List.range nb).map (fun i => (leaf i).1))
      = treeLevel c leaf nb (0 + nb) := by rw [hleaves, rounds_treeLevel]
    _ = [nodeValue c leaf nb nb 0] := by rw [Nat.zero_add, treeLevel_top hnb (Nat.le_of_lt Nat.lt_two_pow_self)]
    _ = [nodeValue c leaf nb (treeTop nb) 0] := by rw [nodeValue_above htop hwithin]
    _ = [(treeValue c leaf given nb (treeTop nb) 0).1] := by rw [treeValue_given hg]

end Sys2Proof.Claims

/-! ### Exact sums of terms under a tag (R118, R129, R407). -/
namespace Sys2Proof.Machine

/-- The sum of finite terms in units of 2 ^ t. -/
def exactAt (fs : List (Bool × Nat × Int)) (t : Int) : Int := (fs.map (fun f => scaledInt f.1 f.2.1 f.2.2 t)).sum

theorem exactAt_append (fs gs : List (Bool × Nat × Int)) (t : Int) : exactAt (fs ++ gs) t = exactAt fs t + exactAt gs t := by
  rw [exactAt, List.map_append, List.sum_append_int]
  rfl

theorem finites_append (l m : List Val) : finites (l ++ m) = finites l ++ finites m := by
  induction l with
  | nil => rfl
  | cons x l ih =>
    cases x with
    | nan => exact ih
    | inf n => exact ih
    | num n k e =>
      simp only [List.cons_append, finites, ih]
      split <;> rfl

/-- A term in units of a smaller power of two. -/
theorem scaledInt_mul {e t u : Int} (neg : Bool) (m : Nat) (htu : t ≤ u) (hue : u ≤ e) :
    scaledInt neg m e u * 2 ^ (u - t).toNat = scaledInt neg m e t := by
  have hexp : (e - t).toNat = (e - u).toNat + (u - t).toNat := by omega
  have hscale : (m : Int) * 2 ^ (e - u).toNat * 2 ^ (u - t).toNat = m * 2 ^ (e - t).toNat := by
    rw [hexp, Int.pow_add, Int.mul_assoc]
  cases neg with
  | false => exact hscale
  | true => exact (Int.neg_mul ..).trans (congrArg Neg.neg hscale)

theorem exactAt_mul {fs : List (Bool × Nat × Int)} {t u : Int} (htu : t ≤ u) (hu : ∀ f ∈ fs, u ≤ f.2.2) :
    exactAt fs u * 2 ^ (u - t).toNat = exactAt fs t := by
  induction fs with
  | nil => exact Int.zero_mul _
  | cons f fs ih =>
    obtain ⟨hf, hfs⟩ := List.forall_mem_cons.mp hu
    have hcons (w : Int) : exactAt (f :: fs) w = scaledInt f.1 f.2.1 f.2.2 w + exactAt fs w := List.sum_cons
    rw [hcons, hcons, Int.add_mul, scaledInt_mul f.1 f.2.1 htu hf, ih hfs]

theorem le_foldl_min_iff {l : List Int} {a t : Int} : t ≤ l.foldl min a ↔ t ≤ a ∧ ∀ x ∈ l, t ≤ x := by
  induction l generalizing a with
  | nil => simp only [List.foldl_nil, List.not_mem_nil, false_implies, implies_true, and_true]
  | cons y l ih => rw [List.foldl_cons, ih, Int.le_min, List.forall_mem_cons, and_assoc]

theorem partOf_v (l : List Val) : (partOf l).v = exactAt (finites l) (partOf l).t := List.sum_eq_foldl.symm

/-- The tag of a part is at most every exponent of its terms. -/
theorem partOf_t_le {l : List Val} {f : Bool × Nat × Int} (hf : f ∈ finites l) : (partOf l).t ≤ f.2.2 :=
  (le_foldl_min_iff.mp (Int.le_refl _)).2 _ (List.mem_map_of_mem hf)

/-- A part keeps its sum in units of any smaller power of two. -/
theorem partOf_scaled {l : List Val} {t : Int} (ht : t ≤ (partOf l).t) :
    (partOf l).v * 2 ^ ((partOf l).t - t).toNat = exactAt (finites l) t := by
  rw [partOf_v]
  exact exactAt_mul ht fun _ => partOf_t_le

/-- Two parts of a block hold its exact sum (R129). -/
theorem add_partOf_scaled {l m : List Val} {t : Int} (ht : t ≤ ((partOf l).add (partOf m)).t) :
    ((partOf l).add (partOf m)).v * 2 ^ (((partOf l).add (partOf m)).t - t).toNat = exactAt (finites (l ++ m)) t := by
  have hl : ((partOf l).add (partOf m)).t ≤ (partOf l).t := Int.min_le_left ..
  have hm : ((partOf l).add (partOf m)).t ≤ (partOf m).t := Int.min_le_right ..
  have hv : ((partOf l).add (partOf m)).v = exactAt (finites (l ++ m)) ((partOf l).add (partOf m)).t := by
    rw [finites_append, exactAt_append, ← partOf_scaled hl, ← partOf_scaled hm]
    rfl
  rw [hv]
  refine exactAt_mul ht fun f hf => ?_
  rw [finites_append, List.mem_append] at hf
  exact hf.elim (fun h => Int.le_trans hl (partOf_t_le h)) (fun h => Int.le_trans hm (partOf_t_le h))

/-! Integer blocks. -/

theorem finites_valOfInt_cons (i : Int) (l : List Int) : finites ((i :: l).map valOfInt) =
    if i = 0 then finites (l.map valOfInt) else (decide (i < 0), i.natAbs, 0) :: finites (l.map valOfInt) := by
  simp only [List.map_cons, valOfInt, finites, Int.natAbs_eq_zero]

/-- The term of an integer has exponent 0. -/
theorem exp_of_mem_ints {l : List Int} {f : Bool × Nat × Int} (hf : f ∈ finites (l.map valOfInt)) : f.2.2 = 0 := by
  induction l with
  | nil => exact absurd hf List.not_mem_nil
  | cons i l ih =>
    rw [finites_valOfInt_cons] at hf
    split at hf
    · exact ih hf
    · rcases List.mem_cons.mp hf with rfl | hf
      · rfl
      · exact ih hf

theorem foldl_min_zero {l : List Int} (hl : ∀ x ∈ l, x = 0) : l.foldl min 0 = 0 := by
  induction l with
  | nil => rfl
  | cons x l ih =>
    obtain ⟨rfl, hrest⟩ := List.forall_mem_cons.mp hl
    exact ih hrest

theorem partOf_ints_t (l : List Int) : (partOf (l.map valOfInt)).t = 0 := by
  have hexp {f : Bool × Nat × Int} : f ∈ finites (l.map valOfInt) → f.2.2 = 0 := exp_of_mem_ints
  have hhead : ((finites (l.map valOfInt)).headD (false, 0, 0)).2.2 = 0 := by
    revert hexp
    cases finites (l.map valOfInt) with
    | nil => exact fun _ => rfl
    | cons f fs => exact fun hexp => hexp List.mem_cons_self
  rw [partOf, hhead]
  refine foldl_min_zero fun x hx => ?_
  obtain ⟨f, hf, rfl⟩ := List.mem_map.mp hx
  exact hexp hf

theorem scaledInt_natAbs (i : Int) : scaledInt (decide (i < 0)) i.natAbs 0 0 = i := by
  have habs : scaledInt (decide (i < 0)) i.natAbs 0 0 = if i < 0 then -(i.natAbs : Int) else i.natAbs := by
    simp only [scaledInt, Int.sub_self, Int.toNat_zero, Int.pow_zero, Int.mul_one, decide_eq_true_eq]
  rw [habs]
  split <;> omega

theorem partOf_ints_v (l : List Int) : (partOf (l.map valOfInt)).v = l.sum := by
  rw [partOf_v, partOf_ints_t]
  induction l with
  | nil => rfl
  | cons i l ih =>
    rw [finites_valOfInt_cons, List.sum_cons, ← ih]
    split
    next hi => rw [hi, Int.zero_add]
    next => exact List.sum_cons.trans (congrArg (· + exactAt (finites (l.map valOfInt)) 0) (scaledInt_natAbs i))

/-- The clamp to s32, and its flag (R118). -/
theorem clampS32_eq (i : Int) : clampS32 i =
    if i < -2 ^ 31 then (0x80000000, 0x40) else if 2 ^ 31 ≤ i then (0x7FFFFFFF, 0x40) else ((i % 2 ^ 32).toNat, 0) := by
  have hmin : intMin true 32 = -2 ^ 31 := rfl
  have hmax : intMax true 32 = 2 ^ 31 - 1 := rfl
  rw [clampS32, clampInt, hmin, hmax, codeOfInt, fSATINT]
  by_cases hlo : i < -2 ^ 31
  · rw [if_pos hlo, if_pos hlo, if_neg (by omega)]
    rfl
  · rw [if_neg hlo, if_neg hlo]
    by_cases hhi : 2 ^ 31 ≤ i
    · rw [if_pos (by omega), if_pos hhi, if_neg (by omega)]
      rfl
    · rw [if_neg (by omega), if_neg hhi, if_pos rfl]

theorem any_ints {p : Val → Bool} (hp : ∀ i, p (valOfInt i) = false) (l : List Int) : (l.map valOfInt).any p = false := by
  rw [List.any_map]
  exact List.any_eq_false.mpr fun i _ => Bool.eq_false_iff.mp (hp i)

/-- The value of a block of integers is its sum, clamped (R118). -/
theorem blockValue_ints (l : List Int) (w : Nat) : blockValue .int w (l.map valOfInt) = clampS32 l.sum := by
  have hnan : (partOf (l.map valOfInt)).nanProd = false := any_ints (fun _ => rfl) l
  have hninf : (partOf (l.map valOfInt)).ninf = false := any_ints (fun _ => rfl) l
  have hpinf : (partOf (l.map valOfInt)).pinf = false := any_ints (fun _ => rfl) l
  have htag : (if 0 ≤ (partOf (l.map valOfInt)).t then (partOf (l.map valOfInt)).v * 2 ^ (partOf (l.map valOfInt)).t.toNat
      else (partOf (l.map valOfInt)).v) = l.sum := by
    rw [partOf_ints_t, partOf_ints_v, if_pos (Int.le_refl 0)]
    exact Int.mul_one _
  change Part128.finish .int (partOf (l.map valOfInt)) = _
  rw [Part128.finish, hnan, hninf, hpinf, htag]
  rfl

/-- A lower tag keeps the sum of a part (R407). -/
theorem tagged_of_le {p : Part128} {g : Int} (hg : g ≤ p.t) :
    p.tagged (some g) = { p with t := g, v := p.v * 2 ^ (p.t - g).toNat } := if_pos hg

/-- A higher tag keeps it where it is a multiple of the tag's unit (R407). -/
theorem tagged_of_lt {p : Part128} {g v : Int} (hg : p.t < g) (hv : p.v = v * 2 ^ (g - p.t).toNat) :
    p.tagged (some g) = { p with t := g, v := v } := by
  have hunit : (2 : Int) ^ (g - p.t).toNat ≠ 0 := Int.pow_ne_zero (by decide)
  simp only [Part128.tagged, if_neg (Int.not_le.mpr hg), hv, Int.mul_emod_left, Int.mul_ediv_cancel _ hunit, if_true]

end Sys2Proof.Machine

namespace Sys2Proof.Claims
open Machine

/-- Settles O15: integers have tag 0 and add up before the clamp; a part and the sum of two parts both hold the exact sum of
their terms; a new tag scales the sum. -/
theorem blockSums : Obligations.BlockSums := by
  refine ⟨fun l w => (blockValue_ints l w).trans (clampS32_eq _), fun l m t _ _ => ⟨?_, ?_, ?_, ?_, fun hp hq => ?_⟩,
    fun l g hg => ?_, fun l g v hg hv => ?_⟩
  · exact List.any_append
  · exact List.any_append
  · exact List.any_append
  · exact List.all_append
  · rw [partOf_scaled hp, add_partOf_scaled hq]
  · rw [tagged_of_le hg]
    exact ⟨rfl, rfl⟩
  · rw [tagged_of_lt hg hv]
    exact ⟨rfl, rfl⟩

end Sys2Proof.Claims

/-! ### Answers of a contraction's root, and how they reach their operation (R133, R135). -/
namespace Sys2Proof.Machine
open Claims

/-- What GO or STOP makes of the operation that waits for it (R135). -/
def SpMsg.answer : SpMsg → Option (GridOp → GridOp)
  | .go tag => some (fun o => { o with phase := .running, tag := tag })
  | .stop aux => some (fun o => { o with phase := .stopped, stop := o.stop.or (some ⟨cSHAPE_MISMATCH, 0, aux, 0⟩) })
  | _ => none

section
variable {s : State} {b : BankId} {number : Nat} {body : SpMsg} {o : GridOp} {f : GridOp → GridOp}

/-- An answer to a contraction changes the operation of its number. -/
theorem State.gridAnswer_answer (hnum : number < 2 ^ 32) (ho : (s.bank b).gridNumbered number = some o) (hf : body.answer = some f) :
    s.gridAnswer b number body = s.modGrid b o.seq f := by
  have hply : plyNumber number = false := decide_eq_false (Nat.not_le_of_lt hnum)
  have hgroup : s.gridAnswer b number body = s.groupAnswer b number body := by
    simp only [State.gridAnswer, hply]
    cases (s.bank b).binding <;> rfl
  rw [hgroup, State.groupAnswer, ho]
  cases body with
  | go tag => cases hf; rfl
  | stop aux => cases hf; rfl
  | hash | opnd | node | exact => cases hf

theorem State.mem_grid_modGrid {n : Nat} (ho : (s.bank b).gridNumbered n = some o) :
    f o ∈ ((s.modGrid b o.seq f).bank b).grid := by
  rw [State.modGrid, State.bank_modBank_self]
  exact List.mem_map.mpr ⟨o, List.mem_of_find?_eq_some ho, if_pos rfl⟩

/-- A piece joins the operation of its number, and leaves the network. -/
theorem State.deliverPart_reaches {m : SpindleMsg} {g : SpMsg → Option (GridOp → GridOp)} (hm : s.spindleMsg m.id = some m)
    (hrec : s.recipient m = some b) (ho : (s.bank b).gridNumbered m.number = some o) (hg : g m.body = some f) :
    s.deliverPart m.id g = (s.dropSpindle m.id).modGrid b o.seq f := by
  simp only [State.deliverPart, hm, hrec, hg, ho]

end

/-- The state whose network holds some more messages. -/
def State.sending (s : State) (sent : List SpindleMsg) (next : Nat) : State :=
  { s with spindle := s.spindle ++ sent, nextMsg := next }

theorem State.sending_sending (s : State) (l sent : List SpindleMsg) (n next : Nat) :
    (s.sending l n).sending sent next = s.sending (l ++ sent) next := by
  simp only [State.sending, List.append_assoc]

section
variable (r : RootRec) (root : BankId) (body : SpMsg)

/-- What a root sends to one participant: its decision, unless the participant is the root itself. -/
def State.rootTell (s : State) (q : Coord × Nat × Nat × List Byte) : State :=
  if q.1 = r.root then s else s.sendSpindle r.job r.number body.granted r.root root.core q.1 body

/-- A root's messages join the network, one to every other participant. -/
theorem State.foldl_rootTell (l : List (Coord × Nat × Nat × List Byte)) (s : State) :
    ∃ sent next, l.foldl (State.rootTell r root body) s = s.sending sent next ∧
      ∀ c ∈ l, c.1 ≠ r.root → ∃ m ∈ sent, m.dst = c.1 ∧ m.number = r.number ∧ m.body = body := by
  induction l generalizing s with
  | nil => exact ⟨[], s.nextMsg, by simp [State.sending], by simp⟩
  | cons c l ih =>
    obtain ⟨sent, next, hfold, hsent⟩ := ih (s.rootTell r root body c)
    by_cases hc : c.1 = r.root
    · have htell : s.rootTell r root body c = s := if_pos hc
      rw [htell] at hfold
      refine ⟨sent, next, by rw [List.foldl_cons, htell, hfold], List.forall_mem_cons.mpr ⟨fun hne => absurd hc hne, hsent⟩⟩
    · obtain ⟨m, n, htell, hm⟩ : ∃ m n, s.rootTell r root body c = s.sending [m] n ∧ m.dst = c.1 ∧ m.number = r.number ∧ m.body = body :=
        ⟨_, _, if_neg hc, rfl, rfl, rfl⟩
      rw [htell, State.sending_sending] at hfold
      refine ⟨[m] ++ sent, next, by rw [List.foldl_cons, htell, hfold],
        List.forall_mem_cons.mpr ⟨fun _ => ⟨m, List.mem_cons_self, hm⟩, fun d hd hne => ?_⟩⟩
      obtain ⟨m', hm', hd'⟩ := hsent d hd hne
      exact ⟨m', List.mem_cons_of_mem _ hm', hd'⟩

end

/-- The lowest route tag that a root's contraction finds free on its dies (log entry 36), 0 where it finds none. -/
def State.freeTag (s : State) (r : RootRec) : Nat :=
  ((List.range Config.routeTags).find? (fun t =>
    !s.routeTags.any (fun u => u.job = r.job && u.tag = t && u.dies.any (fun d => r.dies.contains d)))).getD 0

/-- A root's contraction holds that tag. -/
def State.grantTag (s : State) (r : RootRec) : State :=
  { s with routeTags := s.routeTags ++ [⟨r.dies, s.freeTag r, r.job, r.number⟩] }

/-- The participants whose hash differs from the root's. -/
def RootRec.differing (r : RootRec) : List (Coord × Nat × Nat × List Byte) := r.got.filter (fun q => q.2.2.2 ≠ r.own)

theorem RootRec.differing_eq_nil {r : RootRec} : r.differing = [] ↔ ∀ q ∈ r.got, q.2.2.2 = r.own := by
  simp [RootRec.differing]

section
variable {s : State} {r : RootRec} {b : BankId} (hroots : s.roots = [r])
include hroots

/-- The decision of the only root: its record goes, every other participant is told, and its own operation gets the answer (R135). -/
theorem State.rootSend_answers {body : SpMsg} {o : GridOp} {f : GridOp → GridOp} (hnum : r.number < 2 ^ 32)
    (ho : (s.bank b).gridNumbered r.number = some o) (hf : body.answer = some f) :
    (s.rootSend r b body).roots = [] ∧ (s.rootSend r b body).routeTags = s.routeTags ∧ f o ∈ ((s.rootSend r b body).bank b).grid ∧
      ∀ c ∈ r.got, c.1 ≠ r.root → ∃ m ∈ (s.rootSend r b body).spindle, m.dst = c.1 ∧ m.number = r.number ∧ m.body = body := by
  have hdrop : s.roots.filter (fun q => !q.names r.job r.number r.root) = [] := by simp [hroots, RootRec.names]
  obtain ⟨sent, next, hfold, hsent⟩ := State.foldl_rootTell r b body r.got
    { s with roots := s.roots.filter (fun q => !q.names r.job r.number r.root) }
  have hsend : s.rootSend r b body =
      (State.sending { s with roots := s.roots.filter (fun q => !q.names r.job r.number r.root) } sent next).modGrid b o.seq f :=
    (congrArg (fun t => State.gridAnswer t b r.number body) hfold).trans (State.gridAnswer_answer hnum ho hf)
  rw [hsend]
  refine ⟨hdrop, rfl, State.mem_grid_modGrid ho, fun c hc hne => ?_⟩
  obtain ⟨m, hm, hm'⟩ := hsent c hc hne
  exact ⟨m, List.mem_append_right _ hm, hm'⟩

variable (hready : r.ready = true) (hgot : r.got.length = r.parts)
include hready hgot

/-- A root that holds every result, none of them a failed check, stops its contraction over a hash that differs; else it waits
for tags, or goes (R135). -/
theorem State.rootDecide_passed (hstatus : ∀ q ∈ r.got, q.2.2.1 = 0) (hb : (s.job r.job).bind (fun j => j.bankOf r.root) = some b) :
    s.rootDecide r.job r.number r.root =
      if r.differing ≠ [] then s.rootSend r b (.stop (shapeAux 0x09 255 (minCore r.differing)))
      else if !r.needTag then s.rootSend r b (.go none)
      else if r.dies.any (fun d => Config.routeTags ≤ s.tagsOn r.job d) then s
      else (s.grantTag r).rootSend r b (.go (some (s.freeTag r))) := by
  have hname : r.names r.job r.number r.root = true := RootRec.names_iff.mpr ⟨rfl, rfl, rfl⟩
  have hfind : s.roots.find? (fun r' => r'.names r.job r.number r.root) = some r := by simp [hroots, hname]
  have hfull : (!r.full) = false := by simp [RootRec.full, hready, hgot]
  have hfailed : r.got.filter (fun q => q.2.2.1 ≠ 0) = [] := by simpa using hstatus
  have halone : s.roots.any (fun q => q.job = r.job && q.root = r.root && plyNumber q.number = plyNumber r.number &&
      q.number < r.number && q.waitsTag) = false := by simp [hroots]
  simp only [State.rootDecide, hfind, hb, hfull, hfailed, halone]
  rfl

/-- ROUTE_TAG_GRANT lets the only root decide, where its hashes agree and it wants tags. -/
theorem routeTagGrant_decides (hstatus : ∀ q ∈ r.got, q.2.2.1 = 0) (hagree : r.differing = []) (hneed : r.needTag = true) :
    exec (.routeTagGrant r.job) s = .next (s.rootDecide r.job r.number r.root) := by
  have hown := RootRec.differing_eq_nil.mp hagree
  have hagrees : r.agrees = true := List.all_eq_true.mpr fun q hq => by simp [hstatus q hq, hown q hq]
  have hwaits : r.waitsTag = true := by simp [RootRec.waitsTag, RootRec.full, hready, hgot, hagrees, hneed]
  change execRouteTagGrant r.job s = _
  simp [execRouteTagGrant, hroots, hwaits]

end

/-- The free tag is the lowest that no contraction of the job holds on a die of the root's. -/
theorem State.freeTag_eq {s : State} {r : RootRec} {tag : Nat} (htag : tag < 16)
    (hfree : ¬∃ u ∈ s.routeTags, u.job = r.job ∧ u.tag = tag ∧ ∃ d ∈ r.dies, d ∈ u.dies)
    (hlow : ∀ n < tag, ∃ u ∈ s.routeTags, u.job = r.job ∧ u.tag = n ∧ ∃ d ∈ r.dies, d ∈ u.dies) : s.freeTag r = tag := by
  have htaken (n : Nat) : s.routeTags.any (fun u => u.job = r.job && u.tag = n && u.dies.any (fun d => r.dies.contains d)) = true ↔
      ∃ u ∈ s.routeTags, u.job = r.job ∧ u.tag = n ∧ ∃ d ∈ r.dies, d ∈ u.dies := by
    simp [and_assoc, and_comm (a := _ ∈ r.dies)]
  refine Option.getD_eq_iff.mpr (.inl (List.find?_range_eq_some.mpr ⟨?_, List.mem_range.mpr htag, fun n hn => ?_⟩))
  · simpa only [Bool.not_eq_true', Bool.eq_false_iff, ne_eq, htaken] using hfree
  · simpa only [Bool.not_not, htaken] using hlow n hn

/-- The reason is the lowest byte of TRAPAUX of SHAPE_MISMATCH (R137). -/
theorem fieldAt_shapeAux {reason : Nat} (hr : reason < 256) (letter detail : Nat) : fieldAt (shapeAux reason letter detail).toNat 0 8 = reason := by
  simp only [fieldAt, shapeAux, BitVec.toNat_ofNat]
  omega

end Sys2Proof.Machine

namespace Sys2Proof.Claims
open Machine

/-- Each message of a contraction reaches its root's record or its recipient's operation. -/
theorem spindleMessages : SpindleMessages := by
  intro s m b o hm t
  have hmsg : s.spindleMsg m.id = some m := hm
  constructor
  · intro st h n hbody
    obtain ⟨id, job, number, src, core, dst, body, head⟩ := m
    cases hbody
    change execHashMessage id s = _
    simp only [execHashMessage, hmsg]
    rfl
  intro hrec ho hnum upd
  have hpiece {g : SpMsg → Option (GridOp → GridOp)} {f : GridOp → GridOp} (hg : g m.body = some f) :
      (.next (s.deliverPart m.id g) : Out) = .next (upd f) := congrArg Host.Outcome.next (State.deliverPart_reaches hmsg hrec ho hg)
  refine ⟨fun tag hbody => ?_, fun aux hbody => ?_, fun p hbody => hpiece (by rw [hbody]), fun p hbody => hpiece (by rw [hbody]),
    fun p hbody => hpiece (by rw [hbody])⟩
  · change execGoMessage m.id s = _
    simp only [execGoMessage, hmsg, hrec, hbody]
    exact congrArg Host.Outcome.next (State.gridAnswer_answer hnum ho rfl)
  · change execStopMessage m.id s = _
    simp only [execStopMessage, hmsg, hrec, hbody]
    exact congrArg Host.Outcome.next (State.gridAnswer_answer hnum ho rfl)

/-- The decision of a root that holds every result: a grant of the lowest free tag, a wait, or a stop. -/
theorem rootDecides : RootDecides := by
  intro s r b o hroots hready hgot hstatus hb hnum ho _ held taken
  have hdecide := State.rootDecide_passed hroots hready hgot hstatus hb
  refine ⟨fun hneed hown => ?_, fun ⟨q, hq, hne⟩ => ?_⟩
  · have hagree := RootRec.differing_eq_nil.mpr hown
    rw [routeTagGrant_decides hroots hready hgot hstatus hagree hneed, hdecide, if_neg (fun h => h hagree), hneed, if_neg (by decide)]
    refine ⟨fun tag htag hfree hlow hroom => ?_, fun ⟨d, hd, hfull⟩ => ?_⟩
    · have hdies : ¬r.dies.any (fun d => Config.routeTags ≤ s.tagsOn r.job d) = true := fun h => by
        obtain ⟨d, hd, hfull⟩ := List.any_eq_true.mp h
        exact Nat.not_le_of_lt (hroom d hd) (of_decide_eq_true hfull)
      rw [if_neg hdies]
      obtain ⟨hgone, htags, hop, hsent⟩ := State.rootSend_answers (s := s.grantTag r) hroots hnum ho
        (body := .go (some (s.freeTag r))) rfl
      rw [← State.freeTag_eq htag hfree hlow]
      exact ⟨_, rfl, hgone, htags, ⟨_, hop, rfl, rfl, rfl⟩, hsent⟩
    · exact congrArg Host.Outcome.next (if_pos (List.any_eq_true.mpr ⟨d, hd, decide_eq_true hfull⟩))
  · have hdiffer : r.differing ≠ [] := fun h => hne (RootRec.differing_eq_nil.mp h q hq)
    rw [hdecide, if_pos hdiffer]
    obtain ⟨hgone, htags, hop, hsent⟩ := State.rootSend_answers hroots hnum ho
      (body := .stop (shapeAux 0x09 255 (minCore r.differing))) rfl
    refine ⟨hgone, htags, ⟨_, hop, rfl, rfl⟩, fun c hc hne => ?_⟩
    obtain ⟨m, hm, hdst, -, hbody⟩ := hsent c hc hne
    exact ⟨m, _, hm, hdst, hbody, fieldAt_shapeAux (by decide) ..⟩

/-- Settles O43: delivery of each message, and the root's decision. -/
theorem contractionMessages : Obligations.ContractionMessages := ⟨spindleMessages, rootDecides⟩

end Sys2Proof.Claims

/-! ### How an instruction that acts on its bank alone ends, and how it reads and writes its slots (R26 to R29). -/
namespace Sys2Proof.Machine
open Claims

theorem pureC_past {g : Guard} {f : Bank → Ev Bank} {s : State} {k : Bank} (hg : goes g s) (h : f (here s) = .ok k) :
    pureC g 1 f s = .next (past s k) :=
  (pureC_done hg h).trans (congrArg Host.Outcome.next (finishC_done_setBank ..))

theorem pureC_waits {g : Guard} {f : Bank → Ev Bank} {s : State} {tag : WaitTag} {obj detail : Nat} (hg : goes g s)
    (h : f (here s) = .error (.wait tag obj detail)) :
    pureC g 1 f s = .next (s.setBank s.cur.bank { here s with c := (here s).c.waiting s.dtc tag obj detail [] }) := by
  rw [pureC, runC_runs hg, ofBank, show f (s.bank s.cur.bank) = _ from h]
  rfl

theorem pureC_traps {g : Guard} {f : Bank → Ev Bank} {s : State} {t : TrapInfo} (hg : goes g s)
    (h : f (here s) = .error (.trap t)) : pureC g 1 f s = .next (s.trapC s.cur.bank t (here s).c.pc false) :=
  pureC_trap hg h

theorem pureG_past {g : Guard} {f : Bank → Ev Bank} {s : State} {k : Bank} (hg : goesG g s) (h : f (here s) = .ok k) :
    pureG g 1 f s = .next (gPast s k) :=
  (pureG_done hg h).trans (congrArg Host.Outcome.next (finishG_done_setBank ..))

/-- A read of a C source slot that its operand describes (R26, R27). -/
theorem readSrc_of_operand {k k1 : Bank} {src : Src} {v : Word} (h : Operand k src v k1) :
    srcDir .c src = .ok () ∧ k.readSrc src = .ok (v, k1) := by
  cases src with
  | reg n => obtain ⟨rfl, rfl⟩ := h; exact ⟨rfl, rfl⟩
  | queue q peek =>
    obtain ⟨hq, l, hl, rfl⟩ := h
    exact ⟨if_pos (if_neg (Nat.not_lt.mpr hq)), by simp only [Bank.readSrc, Bank.take, hl]⟩

theorem dirs_of_operand {k k1 : Bank} {src : Src} {v : Word} (h : Operand k src v k1) : dirs [src] [] = .ok () := by
  simp only [dirs, List.forM_eq_forM, List.forM_cons, List.forM_nil, (readSrc_of_operand h).1]
  rfl

/-- Reading a source slot changes the queues alone. -/
theorem operand_queues {k k1 : Bank} {src : Src} {v : Word} (h : Operand k src v k1) : ∃ q, k1 = { k with q := q } := by
  cases src with
  | reg n => obtain ⟨-, rfl⟩ := h; exact ⟨_, rfl⟩
  | queue q peek => obtain ⟨-, l, -, rfl⟩ := h; cases peek <;> exact ⟨_, rfl⟩

theorem gOperand_g {k k1 : Bank} {src : GSrc} {v : Word32} (h : GOperand k src v k1) : k1.g = k.g := by
  cases src with
  | reg n => obtain ⟨-, rfl⟩ := h; rfl
  | queue q peek => obtain ⟨-, w, l, -, -, rfl⟩ := h; cases peek <;> rfl

end Sys2Proof.Machine

/-! ### Scalar instructions and branches of the G stream (R166, R167). -/
namespace Sys2Proof.Machine
open Claims

/-- A result that is written as its slot of the G stream describes it (R27, R29). -/
theorem writeGDst_of_result {k k1 : Bank} {dst : GDst} {v : Word32} (h : GResult k dst v k1) :
    gdstDir dst = .ok () ∧ k.writeGDst dst v = .ok k1 := by
  cases dst with
  | reg n => obtain rfl := h; exact ⟨rfl, rfl⟩
  | queue q =>
    obtain ⟨hq, hlen, rfl⟩ := h
    have hpush : pushedBy q = .g := if_neg (Nat.not_lt.mpr hq)
    have hdepth : (k.getQ q).length < queueDepth q := Nat.lt_of_lt_of_le hlen (by unfold queueDepth; split <;> decide)
    exact ⟨if_pos hpush, if_pos hdepth⟩

theorem gop2_of_operands {k k1 k2 k3 : Bank} {rd : GDst} {ra rb : GSrc} {a b : Word32} {f : Word32 → Word32 → Word32}
    (ha : GOperand k ra a k1) (hb : GOperand k1 rb b k2) (hr : GResult k2 rd (f a b) k3) : k.gop2 rd ra rb f = .ok k3 := by
  obtain ⟨hda, hreada⟩ := readGSrc_of_operand ha
  obtain ⟨hdb, hreadb⟩ := readGSrc_of_operand hb
  obtain ⟨hdr, hwrite⟩ := writeGDst_of_result hr
  simp only [Bank.gop2, hda, hdb, hdr, hreada, hreadb, hwrite, bind, Except.bind]

/-- The sign extension keeps the signed order and the zero extension the unsigned one (R57). -/
theorem condHolds32_iff (cc : Cond) (a b : Word32) : condHolds32 cc a b = true ↔ condition32 cc a b := by
  have hs (x : Word32) : (x.signExtend 64).toInt = x.toInt := BitVec.toInt_signExtend_of_le (by decide)
  have hu (x : Word32) : (x.setWidth 64).toNat = x.toNat := BitVec.toNat_setWidth_of_le (by decide)
  have heq : a.signExtend 64 = b.signExtend 64 ↔ a = b := by rw [← BitVec.toInt_inj, hs, hs, BitVec.toInt_inj]
  cases cc <;> simp [condHolds32, condHolds, condition32, hs, hu, heq]

/-- A branch goes from its own PC, which the reads before it have left as it was (R167). -/
theorem finishG_jumped {s : State} {k : Bank} (off : BitVec 26) (hk : k.g.pc = (here s).g.pc) :
    finishG s.cur.bank 1 (here s).g.pc (.jumped (s.setBank s.cur.bank (k.gJump off))) = gJumps s k off := by
  simp only [finishG, State.modBank, State.bank_setBank_self, State.setBank_setBank, Bank.gJump, gTarget, hk, gJumps]

end Sys2Proof.Machine

namespace Sys2Proof.Claims
open Machine

/-- Each instruction reads its operands and writes its result as their slots describe it. -/
theorem gridScalarResults : GridScalarResults := by
  refine ⟨fun g rd ra s a k1 k2 hg ha hr => ?_, fun g rd ra rb s a b k1 k2 k3 hg ha hb => ⟨fun hr => ?_, fun hr => ?_⟩,
    fun g cc c ra rb s a b k1 k2 v hg ha hb hv => ?_, fun g rd q peek s a k1 k2 hg ha hr => ?_, fun g q ra s k hg hr => ?_⟩
  · obtain ⟨hda, hread⟩ := readGSrc_of_operand ha
    obtain ⟨hdr, hwrite⟩ := writeGDst_of_result hr
    exact pureG_past hg (by simp only [hda, hdr, hread, hwrite, bind, Except.bind])
  · exact pureG_past hg (gop2_of_operands ha hb hr)
  · exact pureG_past hg (gop2_of_operands ha hb hr)
  · obtain ⟨hda, hreada⟩ := readGSrc_of_operand ha
    obtain ⟨hdb, hreadb⟩ := readGSrc_of_operand hb
    have hcond : condHolds32 cc a b = v := Bool.eq_iff_iff.mpr ((condHolds32_iff cc a b).trans hv.symm)
    refine pureG_past hg ?_
    simp only [hda, hdb, hreada, hreadb, hcond, bind, Except.bind]
    rfl
  · obtain ⟨hq, w, l, hl, rfl, rfl⟩ := ha
    obtain rfl := hr
    have hdir : popDir .g q = .ok () := if_pos (if_pos hq)
    have htake : (here s).take q peek = .ok (w, if peek then here s else (here s).setQ q l) := by simp only [Bank.take, hl]
    exact pureG_past hg (by simp only [hdir, htake, bind, Except.bind]; rfl)
  · obtain ⟨hdir, hpush⟩ := writeGDst_of_result hr
    have hpushDir : pushDir .g q = .ok () := hdir
    exact pureG_past hg (by simp only [hpushDir, bind, Except.bind]; exact hpush)

/-- GLOOP counts down to 0, and goes back until it is there (R167). -/
theorem gloop_counts {g : Guard} {ra : BitVec 4} {s : State} {n : Word32} {k : Bank} (off : BitVec 26) (hg : goesG g s)
    (hn : (here s).getY ra = n) (hk : (here s).setY ra (n - 1) = k) :
    exec (.gloop g ra off) s = .next (if n = 0 then gPast s (here s) else if n = 1 then gPast s k else gJumps s k off) := by
  have hpc : k.g.pc = (here s).g.pc := hk ▸ rfl
  have hrun : exec (.gloop g ra off) s = .next (finishG s.cur.bank 1 (here s).g.pc
      (if n = 0 then .done s else if n - 1 ≠ 0 then .jumped (s.setBank s.cur.bank (k.gJump off))
        else .done (s.setBank s.cur.bank k))) := by
    subst hn hk
    change execGloop g ra off s = _
    exact runG_runs hg
  rw [hrun]
  by_cases h0 : n = 0
  · rw [if_pos h0, if_pos h0]
    rfl
  by_cases h1 : n = 1
  · have hlast : ¬n - 1 ≠ 0 := by simp [h1]
    rw [if_neg h0, if_neg h0, if_pos h1, if_neg hlast, finishG_done_setBank]
    rfl
  · have hmore : n - 1 ≠ 0 := fun h => h1 (by bv_omega)
    rw [if_neg h0, if_neg h0, if_neg h1, if_pos hmore, finishG_jumped off hpc]

/-- GBC branches or falls through by its condition, from the bank that its reads leave (R167). -/
theorem gbc_decides {g : Guard} {cc : Cond} {ra rb : GSrc} {off : BitVec 26} {s : State} {a b : Word32} {k1 k2 : Bank}
    (hg : goesG g s) (ha : GOperand (here s) ra a k1) (hb : GOperand k1 rb b k2) :
    exec (.gbc g cc ra rb off) s = .next (if condHolds32 cc a b then gJumps s k2 off else gPast s k2) := by
  obtain ⟨hda, hreada⟩ := readGSrc_of_operand ha
  obtain ⟨hdb, hreadb⟩ := readGSrc_of_operand hb
  have hpc : k2.g.pc = (here s).g.pc := by rw [gOperand_g hb, gOperand_g ha]
  change execGbc g cc ra rb off s = _
  rw [execGbc, runG_runs hg]
  simp only [here] at hreada
  simp only [hda, hdb, hreada, hreadb, bind, Except.bind, Ev.andThen]
  split
  · exact congrArg Host.Outcome.next (finishG_jumped off hpc)
  · exact congrArg Host.Outcome.next (finishG_done_setBank ..)

/-- GLOOP by its count, and the branches by their target. -/
theorem gridBranches : GridBranches := by
  refine ⟨fun g ra off s hg => gloop_counts off hg rfl rfl, fun g off s hg => ?_, fun g cc ra rb off s a b k1 k2 hg ha hb => ?_⟩
  · have hrun : exec (.gbr g off) s = .next (finishG s.cur.bank 1 (here s).g.pc
        (.jumped (s.setBank s.cur.bank ((here s).gJump off)))) := by
      change execGbr g off s = _
      exact runG_runs hg
    rw [hrun, finishG_jumped off rfl]
  · have hcond := condHolds32_iff cc a b
    rw [gbc_decides hg ha hb]
    exact ⟨fun h => congrArg Host.Outcome.next (if_pos (hcond.mpr h)),
      fun h => congrArg Host.Outcome.next (if_neg fun hc => h (hcond.mp hc))⟩

/-- Settles O44: the scalar instructions and the branches. -/
theorem gridScalars : Obligations.GridScalars := ⟨gridScalarResults, gridBranches⟩

end Sys2Proof.Claims

/-! ### Signals, waits and the end of the G stream (R168 to R170). -/
namespace Sys2Proof.Machine
open Claims

/-- The state in which the running G stream waits at its instruction (R296). -/
def gWaits (s : State) (tag : WaitTag) (obj detail : Nat) : State :=
  s.setBank s.cur.bank { here s with g := (here s).g.waiting s.dtc tag obj detail [] }

theorem pastG_setBank (s : State) (k : Bank) :
    pastG s (s.setBank s.cur.bank k) ((s.setBank s.cur.bank k).bank s.cur.bank) 1 = gPast s k := by
  simp only [pastG, gPast, State.bank_setBank_self, State.setBank_setBank]

theorem afterGrid_done {s : State} {b : BankId} (q : Bank → Bank) (h : (s.bank b).grid = []) :
    afterGrid q s b = .done (s.modBank b q) := if_neg (fun hne => hne h)

theorem afterGrid_waits {s : State} {b : BankId} (q : Bank → Bank) (h : (s.bank b).grid ≠ []) :
    afterGrid q s b = .wait s .gdrain 2 0 [] := if_pos h

section
variable {g : Guard} {f : State → BankId → Res} {s t : State} {tag : WaitTag} {obj detail : Nat} (hg : goesG g s)
include hg

theorem runG_done (h : f s s.cur.bank = .done t) : runG g 1 f s = .next (pastG s t (t.bank s.cur.bank) 1) := by
  rw [runG_runs hg, h]
  rfl

theorem runG_waits (h : f s s.cur.bank = .wait s tag obj detail []) : runG g 1 f s = .next (gWaits s tag obj detail) := by
  rw [runG_runs hg, h]
  rfl

/-- An instruction waits for the core's grid instructions, and then changes its bank. -/
theorem runG_afterGrid {q : Bank → Bank} (hf : f s s.cur.bank = afterGrid q s s.cur.bank) :
    runG g 1 f s = .next (if (here s).grid = [] then gPast s (q (here s)) else gWaits s .gdrain 2 0) := by
  split
  case isTrue h => rw [runG_done hg (hf.trans (afterGrid_done q h)), State.modBank, pastG_setBank]; rfl
  case isFalse h => exact runG_waits hg (hf.trans (afterGrid_waits q h))

/-- An entry of a queue that G pops, or a flag write noted with the wait, ends GIDLE (R170). -/
theorem gidle_goes (h : (∃ q : BitVec 3, q.toNat < 4 ∧ (here s).getQ q ≠ []) ∨
    ∃ w, (here s).g.wait = some w ∧ w.tag = .gidle ∧ w.vals = [1]) : exec (.gidle g) s = .next (gPast s (here s)) := by
  change execGidle g s = _
  refine runG_done hg (if_pos (Bool.or_eq_true_iff.mpr ?_))
  rcases h with ⟨q, hq, hne⟩ | ⟨⟨tag, obj, detail, vals, since⟩, hw, rfl, rfl⟩
  · have hmem : ∀ q : BitVec 3, q.toNat < 4 → q ∈ ([0, 1, 2, 3] : List (BitVec 3)) := by decide
    exact .inr (List.any_eq_true.mpr ⟨q, hmem q hq, decide_eq_true hne⟩)
  · simp only [here] at hw
    exact .inl (by rw [hw]; rfl)

/-- With no entry and no wait that a flag write could have been noted with, GIDLE waits (R170). -/
theorem gidle_waits (hq : ∀ q : BitVec 3, q.toNat < 4 → (here s).getQ q = []) (hw : (here s).g.wait = none) :
    exec (.gidle g) s = .next (gWaits s .gidle 0 0) := by
  change execGidle g s = _
  refine runG_waits hg (if_neg ?_)
  simp only [here] at hq hw
  simp [hw, hq]

/-- GEND waits as GDRAIN does (R169). -/
theorem gend_waits (h : (here s).grid ≠ []) : exec (.gend g) s = .next (gWaits s .gdrain 2 0) := by
  change execGend g s = _
  refine (if_pos hg).trans ?_
  rw [afterGrid_waits _ h]
  rfl

/-- GEND gives the tensor registers back and ends its stream, which may end its team (R169, R386). -/
theorem gend_ends (h : (here s).grid = []) : exec (.gend g) s =
    .next (State.endTeam (s.setBank s.cur.bank { (here s).passAll with g := (here s).g.finish s.dtc }) s.cur.bank) := by
  change execGend g s = _
  refine (if_pos hg).trans ?_
  rw [afterGrid_done _ h]
  simp only [State.modBank, State.bank_setBank_self, State.setBank_setBank, State.dtc_setBank]
  rfl

end

end Sys2Proof.Machine

namespace Sys2Proof.Claims
open Machine

/-- Settles O16: each instruction by what it waits for. -/
theorem gridFlagsAndEnd : Obligations.GridFlagsAndEnd := by
  refine ⟨fun g fl v s hg => ?_, fun g s hg => ?_⟩
  · refine ⟨pureG_past hg rfl, ?_, ?_, ?_⟩
    · change execGsigD g fl s = _
      exact runG_afterGrid hg rfl
    · change execGdrain g s = _
      exact runG_afterGrid hg rfl
    · change execGwaitf g fl v s = _
      split
      case isTrue h => exact runG_done hg (if_pos h)
      case isFalse h => exact runG_waits hg (if_neg h)
  · exact ⟨fun h => gidle_goes hg (.inl h), fun h => gidle_goes hg (.inr h), gend_waits hg, gidle_waits hg, gend_ends hg⟩

end Sys2Proof.Claims

/-! ### One field of a 512-bit register (R144, R150, R153). -/
namespace Sys2Proof.Machine

/-- A field takes the low bits of what is written, and every other bit stays. -/
theorem getLsbD_setField512 (v : BitVec 512) {lo n : Nat} (w i : Nat) (h : lo + n ≤ 512) :
    (setField512 v lo n w).getLsbD i = if lo ≤ i ∧ i < lo + n then w.testBit (i - lo) else v.getLsbD i := by
  have hsplit : v.toNat % 2 ^ lo + w % 2 ^ n * 2 ^ lo + v.toNat / 2 ^ (lo + n) * 2 ^ (lo + n) =
      2 ^ lo * (2 ^ n * (v.toNat / 2 ^ (lo + n)) + w % 2 ^ n) + v.toNat % 2 ^ lo := by
    rw [Nat.mul_add, Nat.pow_add]
    ac_rfl
  have hlow : v.toNat % 2 ^ lo < 2 ^ lo := Nat.mod_lt _ (Nat.two_pow_pos lo)
  have hmid : w % 2 ^ n < 2 ^ n := Nat.mod_lt _ (Nat.two_pow_pos n)
  have hout : 512 ≤ i → v.toNat.testBit i = false := fun hi => BitVec.getLsbD_of_ge v i hi
  simp only [setField512, BitVec.getLsbD, BitVec.toNat_ofNat, hsplit, Nat.testBit_mod_two_pow,
    Nat.testBit_two_pow_mul_add _ hlow, Nat.testBit_two_pow_mul_add _ hmid, Nat.testBit_div_two_pow]
  by_cases hi : i < 512
  · by_cases hbelow : i < lo
    · simp [hi, hbelow, Nat.not_le.mpr hbelow]
    by_cases hin : i < lo + n
    · have hoff : i - lo < n := by omega
      simp [hi, hbelow, hin, hoff, Nat.not_lt.mp hbelow]
    · have hoff : ¬i - lo < n := by omega
      have hback : i - lo - n + (lo + n) = i := by omega
      simp [hi, hbelow, hin, hoff, hback]
  · have hin : ¬i < lo + n := by omega
    simp [hi, hin, hout (Nat.not_lt.mp hi)]

/-- A value that differs in one field alone is what the write of that field gives. -/
theorem setField512_eq {v u : BitVec 512} {lo n : Nat} {a : Word} (h : lo + n ≤ 512)
    (hu : ∀ i : Nat, u.getLsbD i = if lo ≤ i ∧ i < lo + n then a.getLsbD (i - lo) else v.getLsbD i) :
    setField512 v lo n a.toNat = u :=
  BitVec.eq_of_getLsbD_eq fun i _ => by rw [getLsbD_setField512 v _ i h, hu]; rfl

theorem ofNat_field512 (v : BitVec 512) (lo n : Nat) : BitVec.ofNat n (field512 v lo n) = v.extractLsb' lo n := by
  apply BitVec.eq_of_toNat_eq
  simp [field512, fieldAt, Nat.shiftRight_eq_div_pow]

end Sys2Proof.Machine

/-! ### The instructions that write tensor, mapping and format registers (R150 to R153). -/
namespace Sys2Proof.Machine
open Claims

theorem dirs_of_result {k k1 : Bank} {dst : Dst} {v : Word} (h : Result k dst v k1) : dirs [] [dst] = .ok () := by
  simp only [dirs, List.forM_eq_forM, List.forM_cons, List.forM_nil, (writeDst_of_result h).1]
  rfl

theorem r143_ok {v : Word} {offs : List (Option Nat)} (h : lowestOf offs = none) : r143 v offs = .ok () := by
  unfold lowestOf at h
  unfold r143
  cases hl : offs.filterMap id with
  | nil => rfl
  | cons b bs => rw [hl] at h; cases h

theorem forbid_of_lt {v lo : Nat} (n : Nat) (h : v < 2 ^ lo) : forbid v lo n = none :=
  if_pos (by rw [fieldAt, Nat.div_eq_of_lt h, Nat.zero_mod])

theorem spanFor_eq_named (k : Bank) (v : BitVec 512) : k.spanFor v = named k v :=
  congrArg k.getB (ofNat_field512 v 59 4)

theorem defT_of_c {k : Bank} {t : BitVec 5} (v : BitVec 512) (r : SpanReg) (ho : (k.getT t).owner = .c) :
    k.defT t v r = { k with t := k.t.set t.toNat ⟨v, .c, r⟩ t.isLt } := by
  rw [Bank.defT, ho]
  rfl

/-- The only trap of the descriptor check (R145). -/
theorem wellFormedDesc_error {v : BitVec 512} {e : TrapInfo} (h : wellFormedDesc v = .error e) : e.cause = 0x1B := by
  unfold wellFormedDesc at h
  split at h
  · cases h
  · obtain rfl := Except.error.inj h; rfl

theorem operand_getT {k k1 : Bank} {src : Src} {v : Word} (h : Operand k src v k1) (t : BitVec 5) : k1.getT t = k.getT t := by
  obtain ⟨q, rfl⟩ := operand_queues h; rfl

theorem operand_getM {k k1 : Bank} {src : Src} {v : Word} (h : Operand k src v k1) (n : BitVec 3) : k1.getM n = k.getM n := by
  obtain ⟨q, rfl⟩ := operand_queues h; rfl

section
variable {g : Guard} {t : BitVec 5} {ra : Src} {n : BitVec 3} {s : State} {a : Word} {k1 : Bank} (hg : goes g s)
  (ha : Operand (here s) ra a k1)
include hg ha

/-- A word of a register that C owns is written when the descriptor stays well-formed, with the span that it names (R150). -/
theorem tset_writes {v : BitVec 512} (ho : ((here s).getT t).owner = .c)
    (hv : setField512 ((here s).getT t).desc (64 * n.toNat) 64 a.toNat = v) (hwf : wellFormedDesc v = .ok ()) :
    exec (.tset g t ra n) s = .next (past s { k1 with t := k1.t.set t.toNat ⟨v, .c, named k1 v⟩ t.isLt }) := by
  have hown : (k1.getT t).owner = .c := operand_getT ha t ▸ ho
  refine pureC_past hg ?_
  simp only [dirs_of_operand ha, ho, reduceCtorEq, if_false, (readSrc_of_operand ha).2, operand_getT ha, hv, hwf, spanFor_eq_named,
    defT_of_c v _ hown, bind, Except.bind]

/-- Otherwise TSET traps by the check, and writes nothing (R145). -/
theorem tset_traps {e : TrapInfo} (ho : ((here s).getT t).owner = .c)
    (hwf : wellFormedDesc (setField512 ((here s).getT t).desc (64 * n.toNat) 64 a.toNat) = .error e) :
    exec (.tset g t ra n) s = .next (s.trapC s.cur.bank e (here s).c.pc false) := by
  refine pureC_traps hg ?_
  simp only [dirs_of_operand ha, ho, reduceCtorEq, if_false, (readSrc_of_operand ha).2, operand_getT ha, hwf, bind, Except.bind]

/-- TSET of a register that G owns waits before it reads (R142). -/
theorem tset_waits (ho : ((here s).getT t).owner = .g) :
    exec (.tset g t ra n) s =
      .next (s.setBank s.cur.bank { here s with c := (here s).c.waiting s.dtc .tensorOwner t.toNat 0 [] }) := by
  refine pureC_waits hg ?_
  simp only [dirs_of_operand ha, ho, if_true, bind, Except.bind]

/-- MAP writes one pair, in bits that R124 gives to its letter (R153). -/
theorem map_writes {mr slot : BitVec 3} {pos : BitVec 2} {v : BitVec 512} (hlt : a.toNat < 2 ^ 15)
    (hv : setField512 ((here s).getM mr) (60 * slot.toNat + 15 * pos.toNat) 15 a.toNat = v) :
    exec (.map g mr ra slot pos) s = .next (past s (k1.setM mr v)) := by
  have hoff : lowestOf [forbid a.toNat 15 49] = none := by rw [forbid_of_lt 49 hlt]; rfl
  refine pureC_past hg ?_
  simp only [dirs_of_operand ha, (readSrc_of_operand ha).2, r143_ok hoff, operand_getM ha, hv, bind, Except.bind]

theorem mapTile_writes {mr : BitVec 3} {v : BitVec 512} (hlt : a.toNat < 2 ^ 10)
    (hv : setField512 ((here s).getM mr) 480 10 a.toNat = v) :
    exec (.mapTile g mr ra) s = .next (past s (k1.setM mr v)) := by
  have hoff : lowestOf [forbid a.toNat 10 54] = none := by rw [forbid_of_lt 54 hlt]; rfl
  refine pureC_past hg ?_
  simp only [dirs_of_operand ha, (readSrc_of_operand ha).2, r143_ok hoff, operand_getM ha, hv, bind, Except.bind]

theorem bfset_writes {bank : BitVec 4} (hoff : lowestOf (bfmtOffences a) = none) :
    exec (.bfset g bank ra) s = .next (past s (k1.setBfmt bank a)) := by
  refine pureC_past hg ?_
  simp only [dirs_of_operand ha, (readSrc_of_operand ha).2, r143_ok hoff, bind, Except.bind]

end

end Sys2Proof.Machine

/-! ### Moves of 512 bits between memory and a register (R148). -/
namespace Sys2Proof.Machine
open Claims

theorem inOrder_of_nothingOver {s : State} {p n : Nat} (h : NothingOver s p n) : (here s).inOrder p n = none := by
  obtain ⟨hload, hamon⟩ := h
  have hloads : (here s).outLoads.any (fun l => overlap l.place l.size p n) = false := by simpa using hload
  have hbehind : (here s).behind 0 p n = false := by simpa [Bank.behind] using hamon
  simp [Bank.inOrder, hloads, hbehind]

section
variable {s s2 : State} {m : MemRef} {v : BitVec 512}

/-- A register of G's waits once the span is checked (R142). -/
theorem load512_waits {addr : Nat} {r : SpanReg} {t : BitVec 5} (f : State → BitVec 512 → Res)
    (hea : (here s).ea m 1 64 64 true true false = .ok (addr, r)) (ho : ((here s).getT t).owner = .g) :
    load512 m (some t) s s.cur.bank f = .wait s .tensorOwner t.toNat 0 [] := by
  have hea' : (s.bank s.cur.bank).ea m pR 64 64 true true false = .ok (addr, r) := hea
  have ho' : ((s.bank s.cur.bank).getT t).owner = .g := ho
  simp only [load512, hea', Ev.andThen, ho']
  rfl

theorem load512_stops {g : Guard} {addr : Nat} {r : SpanReg} {t : BitVec 5} (hg : goes g s) (f : BankId → State → BitVec 512 → Res)
    (hea : (here s).ea m 1 64 64 true true false = .ok (addr, r)) (ho : ((here s).getT t).owner = .g) :
    runC g 1 (fun s b => load512 m (some t) s b (f b)) s =
      .next (s.setBank s.cur.bank { here s with c := (here s).c.waiting s.dtc .tensorOwner t.toNat 0 [] }) := by
  rw [runC_runs hg, load512_waits _ hea ho]
  rfl

/-- What the L1 or memory answers, as `Reads512` describes it, is what the instruction takes (R198). -/
theorem l1Read_getD {s1 : State} {b : BankId} {p n : Nat} {bs : List Byte} {uncached : Bool}
    (h : match (if uncached then none else s1.l1Hit b.core p n) with
      | some l => L1Answers s1 b p n l bs s2
      | none => bs = s1.viewC b p n ∧ s2 = s1.readPast b p n) :
    (if uncached then none else s1.l1Read b p n).getD (s1.viewC b p n, s1.readPast b p n) = (bs, s2) := by
  cases uncached with
  | true => obtain ⟨rfl, rfl⟩ := h; rfl
  | false =>
    simp only [Bool.false_eq_true, if_false, State.l1Read] at h ⊢
    cases hhit : s1.l1Hit b.core p n with
    | none => rw [hhit] at h; obtain ⟨rfl, rfl⟩ := h; rfl
    | some l => rw [hhit] at h; obtain ⟨rfl, rfl⟩ := h; rfl

/-- The bytes that the access reads are what the instruction goes on with. -/
theorem load512_reads {owned : Option (BitVec 5)} (f : State → BitVec 512 → Res) (h : Reads512 s m v s2)
    (ho : ∀ t ∈ owned, ((here s).getT t).owner = .c) : load512 m owned s s.cur.bank f = f s2 v := by
  obtain ⟨addr, p, x, s1, ⟨r, hea, hloc⟩, hover, hecc, bs, rfl, hbytes⟩ := h
  have hea' : (s.bank s.cur.bank).ea m pR 64 64 true true false = .ok (addr, r) := hea
  have hloc' : locate s s.cur.bank (s.bank s.cur.bank).asid.toNat r m.sb.toNat addr false cFAULT_READ = .ok (.place p x, s1) := hloc
  have horder : (s.bank s.cur.bank).inOrder p 64 = none := inOrder_of_nothingOver hover
  have hread := l1Read_getD hbytes
  have hown : ∀ t ∈ owned, ((s.bank s.cur.bank).getT t).owner = .c := ho
  cases owned with
  | none => simp only [load512, hea', Ev.andThen, hloc', horder, hecc, hread, Bool.false_eq_true, if_false]
  | some t =>
    simp only [load512, hea', Ev.andThen, hown t rfl, reduceCtorEq, decide_false, hloc', horder, hecc, hread, Bool.false_eq_true,
      if_false]

/-- A read notes what it observes, and leaves the tensor registers as they were. -/
theorem reads512_getT (h : Reads512 s m v s2) (t : BitVec 5) : (s2.bank s.cur.bank).getT t = (here s).getT t := by
  obtain ⟨addr, p, x, s1, ⟨r, -, hloc⟩, -, -, bs, -, hbytes⟩ := h
  have hs1 : s1.bank s.cur.bank = here s := (locate_onlyMemory hloc).bank _
  have hseen (ids : List Nat) (tags : List RelTag) : ((s1.noteSeen s.cur.bank ids tags).bank s.cur.bank).getT t = (here s).getT t := by
    rw [State.noteSeen, State.bank_modBank_self, hs1]
    rfl
  split at hbytes
  · obtain ⟨-, rfl⟩ := hbytes
    split
    · exact hseen ..
    · exact hseen ..
  · obtain ⟨-, rfl⟩ := hbytes
    exact hseen ..

/-- A load completes with the bank that it makes of the bytes. -/
theorem load512_completes {g : Guard} {owned : Option (BitVec 5)} {f : BankId → State → BitVec 512 → Res} {k : Bank} (hg : goes g s)
    (h : Reads512 s m v s2) (ho : ∀ t ∈ owned, ((here s).getT t).owner = .c)
    (hf : f s.cur.bank s2 v = .done (s2.setBank s.cur.bank k)) :
    runC g 1 (fun s b => load512 m owned s b (f b)) s = .next (thenPast s s2 k) := by
  rw [runC_runs hg, load512_reads _ h ho, hf]
  exact congrArg Host.Outcome.next (finishC_done_setBank ..)

/-- A weak store of 64 bytes to a place of this device is queued (R199). -/
theorem weakStore_queues {g : Guard} {s1 : State} {data : Bank → Ev (List Byte × Bank)} {bs : List Byte} {addr p : Nat}
    {x : Option Xlat} (hg : goes g s) (hd : data (here s) = .ok (bs, here s))
    (hr : Reaches s (here s) m 2 64 true true false true 0x12 addr (.place p x) s1) (hover : NothingOver s p 64) :
    runC g 1 (weakStore m 64 false data) s = .next (goesOn s
      ((s1.setBank s.cur.bank (here s)).queueStore s.cur.bank addr p bs (uncachedAt p x) none none)) := by
  obtain ⟨r, hea, hloc⟩ := hr
  have hd' : data (s.bank s.cur.bank) = .ok (bs, here s) := hd
  have hea' : (s.bank s.cur.bank).ea m pW 64 64 true true false = .ok (addr, r) := hea
  have hloc' : locate s s.cur.bank (s.bank s.cur.bank).asid.toNat r m.sb.toNat addr true cFAULT_WRITE_WEAK = .ok (.place p x, s1) := hloc
  have horder : (s.bank s.cur.bank).inOrder p 64 = none := inOrder_of_nothingOver hover
  rw [runC_runs hg]
  simp only [weakStore, hd', hea', bind, Except.bind, Ev.andThen, hloc', horder]
  rfl

end

end Sys2Proof.Machine

namespace Sys2Proof.Claims
open Machine

/-- Each instruction writes its word, field or owner. -/
theorem tensorRegisters : TensorRegisters := by
  refine ⟨fun g t ra n s a k1 v hg ha ho hwf hv => ?_, fun g rd t n s k hg hr => ?_, fun g t s hg => pureC_past hg rfl,
    fun g t s hg => ?_, fun g n ra s v k1 hg ha hoff => bfset_writes hg ha hoff, ?_, fun g n s hg => pureC_past hg rfl⟩
  · exact tset_writes hg ha ho (setField512_eq (by omega) hv) hwf
  · obtain ⟨-, hwrite⟩ := writeDst_of_result hr
    refine pureC_past hg ?_
    simp only [dirs_of_result hr, ofNat_field512, hwrite, bind, Except.bind]
  · have hgive : exec (.gthand g t) s = .next (gPast s ((here s).give t .c)) := pureG_past hg rfl
    exact hgive
  · intro g n slot pos ra s a k1 v hg ha put
    exact ⟨fun hlt hv => map_writes hg ha hlt (setField512_eq (by omega) hv),
      fun hlt hv => mapTile_writes hg ha hlt (setField512_eq (by decide) hv)⟩

/-- The waits at a register that G owns, their end, and the trap of TSET. -/
theorem tensorOwners : TensorOwners := by
  refine ⟨fun g t ra n s a k1 hg ha ho => tset_waits hg ha ho, fun g t m s addr r hg hea ho => ?_, fun s b w hw ht => ?_,
    fun g t ra n s a k1 e hg ha ho hwf => ?_⟩
  · refine ⟨?_, ?_⟩
    · change execTld g t m s = _
      exact load512_stops hg _ hea ho
    · change execTdef g t m s = _
      exact load512_stops hg _ hea ho
  · exact congrArg Host.Outcome.next (State.wake_waits (i := ⟨b, .c⟩) hw (by simp [ht]))
  · have hcause := wellFormedDesc_error hwf
    refine ⟨hcause, (tset_traps hg ha ho hwf).trans ?_⟩
    rw [trapC_delivered (by rw [hcause]; rfl), ← hcause]

/-- Settles O41: what each instruction writes, and the owners. -/
theorem tensorFile : Obligations.TensorFile := ⟨tensorRegisters, tensorOwners⟩

/-- Settles O13: the loads go on with the bytes that they read, and the stores are weak stores of 64 bytes. -/
theorem tensorMoves : Obligations.TensorMoves := by
  refine ⟨fun g t m s s2 v hg hread hwf ho => ?_, fun g n m s s2 v hg hread => ?_, fun g t n m s s1 addr p x hg hr hover => ?_⟩
  · have howner : ∀ u ∈ some t, ((here s).getT u).owner = .c := fun u hu => Option.mem_some.mp hu ▸ ho
    have hdef := defT_of_c v (named (s2.bank s.cur.bank) v) (reads512_getT hread t ▸ ho)
    refine ⟨?_, fun ⟨w, hw⟩ => ?_⟩
    · change execTld g t m s = _
      refine load512_completes hg hread howner ?_
      simp only [hwf, State.modBank, spanFor_eq_named, hdef]
    · change execTdef g t m s = _
      refine load512_completes hg hread howner ?_
      simp only [spanFor_eq_named, pW, hw, State.modBank, hdef]
  · change execMld g n m s = _
    exact load512_completes hg hread (by simp) rfl
  · refine ⟨?_, ?_⟩
    · change execTst g t m s = _
      exact weakStore_queues hg rfl hr hover
    · change execMst g n m s = _
      exact weakStore_queues hg rfl hr hover

end Sys2Proof.Claims

/-! ### Fences, PREF and FLUSH (R204, R209, R230 to R232). -/
namespace Sys2Proof.Machine
open Claims

/-- An instruction of one word whose meaning is done goes on (R190). -/
theorem runC_goesOn {g : Guard} {f : State → BankId → Res} {s t : State} (hg : goes g s) (h : f s s.cur.bank = .done t) :
    runC g 1 f s = .next (goesOn s t) := by
  rw [runC_runs hg, h]
  rfl

/-- A wait of the running stream is a state of its bank alone (R296). -/
theorem runC_waits {g : Guard} {len : Nat} {f : State → BankId → Res} {s : State} {tag : WaitTag} {obj detail : Nat} {vals : List Word}
    (hg : goes g s) (h : f s s.cur.bank = .wait s tag obj detail vals) :
    runC g len f s = .next (s.setBank s.cur.bank { here s with c := (here s).c.waiting s.dtc tag obj detail vals }) := by
  rw [runC_runs hg, h]
  rfl

theorem reportHeld_of_nil {k : Bank} (h : k.held = []) : k.reportHeld = none := by
  rw [Bank.reportHeld, h]

/-- A release with nothing outstanding and no fault to report takes its effect (R203, R215). -/
theorem releaseC_takes {s : State} {b : BankId} {sc : Scope} (f : State → List Nat → Res) (hl : (s.bank b).outLoads = [])
    (ha : ∀ a ∈ (s.bank b).amons, a.path ≠ 0) (hh : ((s.releaseStores b sc).bank b).held = []) :
    releaseC s b sc f = f (s.releaseStores b sc) (s.coveredBy b) := by
  rcases releaseC_cases s b sc f with ⟨hne, -⟩ | ⟨-, ⟨a, hmem, h0⟩, -⟩ | ⟨-, -, ⟨h, l, hcons, -⟩ | ⟨-, he⟩⟩
  · exact absurd hl hne
  · exact absurd h0 (ha a hmem)
  · rw [hh] at hcons; cases hcons
  · exact he

/-- The checks and the translation of an access that reaches `w`, as the meanings of the C path write them (R217, R352). -/
theorem ea_of_reaches {s s1 : State} {m : MemRef} {perm n cause addr : Nat} {mem spad dev write : Bool} {w : Where}
    (h : Reaches s (here s) m perm n mem spad dev write cause addr w s1) :
    ∃ r, (s.bank s.cur.bank).ea m perm n n mem spad dev = .ok (addr, r) ∧
      locate s s.cur.bank (s.bank s.cur.bank).asid.toNat r m.sb.toNat addr write cause = .ok (w, s1) := h

end Sys2Proof.Machine

namespace Sys2Proof.Claims
open Machine

section
variable {g : Guard} {s : State} (hg : goes g s)
include hg

theorem fence_acquires {sc : Scope} (hl : (here s).outLoads = []) (hh : (here s).held = []) :
    exec (.fence g .acq sc) s = .next (goesOn s (s.fenceAcquire s.cur.bank sc)) := by
  have hl' : (s.bank s.cur.bank).outLoads = [] := hl
  change execFence g .acq sc s = _
  refine runC_goesOn hg ?_
  simp only [ordRel, ordAcq, hl', reportHeld_of_nil (k := s.bank s.cur.bank) hh]
  rfl

/-- A releasing FENCE performs what it covers, and leaves its release for every later write; `.ar` acquires too (R204). -/
theorem fence_releases {sc : Scope} (hl : (here s).outLoads = []) (ha : ∀ a ∈ (here s).amons, a.path ≠ 0)
    (hh : ((s.releaseStores s.cur.bank sc).bank s.cur.bank).held = []) (o : Order) (ho : ordRel o = true) :
    exec (.fence g o sc) s = .next (goesOn s
      (let t := (s.releaseStores s.cur.bank sc).modBank s.cur.bank (fun k => k.fenceRelease sc (s.coveredBy s.cur.bank))
       if ordAcq o then t.fenceAcquire s.cur.bank sc else t)) := by
  change execFence g o sc s = _
  refine runC_goesOn hg ?_
  simp only [ho, if_true]
  exact releaseC_takes _ hl ha hh

/-- FENCE.P with nothing of its paths open performs what the engines and, on path C, the stream have written (R209). -/
theorem fenceP_completes {mask : BitVec 6} (ho : s.pathsOpen s.cur.bank mask = false) :
    let s0 := s.performEngines s.cur.bank mask
    let s1 := if mask.getLsbD 0 then s0.performCovered s.cur.bank else s0
    (s1.bank s.cur.bank).held = [] → exec (.fenceP g mask) s = .next (goesOn s
      (if mask.getLsbD 0 ∧ (mask.getLsbD 4 ∨ mask.getLsbD 5) then s1.dropL1 s.cur.bank.core .cl else s1)) := by
  intro s0 s1 hh
  change execFenceP g mask s = _
  refine runC_goesOn hg ?_
  simp only [ho, Bool.false_eq_true, if_false, Bool.and_eq_true, Bool.or_eq_true]
  change (match (s1.bank s.cur.bank).reportHeld with
    | some (t, k) => Res.heldTrap (s1.setBank s.cur.bank k) t
    | none => _) = _
  rw [reportHeld_of_nil hh]

theorem fenceP_waits {mask : BitVec 6} (ho : s.pathsOpen s.cur.bank mask = true) :
    exec (.fenceP g mask) s = .next (s.setBank s.cur.bank
      { here s with c := (here s).c.waiting s.dtc .fenceP mask.toNat 0 [] }) := by
  change execFenceP g mask s = _
  exact runC_waits hg (by simp only [ho, if_true])

variable {m : MemRef} {s1 : State} {addr p : Nat} {x : Option Xlat}
  (hr : Reaches s (here s) m 1 1 true true false false 0x10 addr (.place p x) s1)
include hr

theorem pref_fills : exec (.pref g m) s = .next (goesOn s (if uncachedAt p x then s1 else s1.l1Fill s.cur.bank p)) := by
  obtain ⟨r, hea, hloc⟩ := ea_of_reaches hr
  change execPref g m s = _
  refine runC_goesOn hg ?_
  simp only [pR, hea, Ev.andThen, cFAULT_READ, hloc]

theorem flush_moves (sc : Scope) :
    exec (.flush g sc m) s = .next (goesOn s (if uncachedAt p x then s1 else s1.flushLine s.cur.bank p sc)) := by
  obtain ⟨r, hea, hloc⟩ := ea_of_reaches hr
  change execFlush g sc m s = _
  refine runC_goesOn hg ?_
  simp only [pR, hea, Ev.andThen, cFAULT_READ, hloc]

end

/-- Settles O12: each instruction by what it waits for and by the state that it goes on with. -/
theorem fencesComplete : Obligations.FencesComplete := by
  unfold Obligations.FencesComplete
  refine ⟨fun g sc s hg hl hh => fence_acquires hg hl hh, fun g sc s hg hl ha => ?_, fun g mask s hg => ?_,
    fun g sc m s s1 addr p x hg hr => ⟨pref_fills hg hr, flush_moves hg hr sc⟩⟩
  · intro s1 hh
    exact ⟨fence_releases hg hl ha hh .rel rfl, fence_releases hg hl ha hh .ar rfl⟩
  · exact ⟨fun ho => fenceP_completes hg ho, fun ho => fenceP_waits hg ho⟩

end Sys2Proof.Claims

/-! ### A store whose translation meets an uncorrectable error in a page-table entry, and the refutation of `StoresAndReleases`. -/
namespace Sys2Proof.Machine
open Claims

/-- A store whose translation faults queues its fault, and logs the walk that met an error in an entry (R214, R373). -/
theorem st_of_fault {g : Guard} {sz : BitVec 2} {rs : Src} {m : MemRef} {s : State} {v : Word} {k1 : Bank} {addr : Nat} {r : SpanReg}
    {f : TrapInfo} (hg : guardHolds (here s).cC g = true) (hv : Operand (here s) rs v k1)
    (hea : (here s).ea m pW (sizeOf2 sz) (sizeOf2 sz) true true true = .ok (addr, r))
    (hloc : locate s s.cur.bank (here s).asid.toNat r m.sb.toNat addr true cFAULT_WRITE_WEAK = .error f)
    (hf : f.cause = cFAULT_WRITE_WEAK) :
    exec (.st g sz rs m) s = .next (goesOn s
      (((s.logFault (here s).part (here s).asid.toNat addr).setBank s.cur.bank k1).queueStore s.cur.bank addr 0 [] true none
        (some ⟨cFAULT_WRITE_WEAK, BitVec.ofNat 64 addr, 0, 0⟩))) := by
  have hdata : (here s).storeData rs (sizeOf2 sz) = .ok (bytesOf (sizeOf2 sz) v.toNat, k1) := by
    simp only [Bank.storeData, dirs_of_operand hv, (readSrc_of_operand hv).2, bind, Except.bind]
  change runC g 1 (weakStore m (sizeOf2 sz) true (fun k => k.storeData rs (sizeOf2 sz))) s = _
  rw [runC_runs hg]
  simp only [here] at hdata hea hloc
  simp only [weakStore, hdata, hea, bind, Except.bind, Ev.andThen, hloc, hf, if_true]
  rfl

end Sys2Proof.Machine

namespace Sys2Proof.Claims
open Machine

/-- Partition 0, whose address-space table stands at 0x1000 (R351). -/
def eccPart : Part :=
  ⟨⟨0, 1, 0, 0, 1, 0, false, List.replicate 16 0, 0x1000, [(0, 0x10000000)], []⟩, Vector.replicate 16 0,
    Vector.replicate 16 ⟨0, 4, 0, 1⟩, Vector.replicate 16 ⟨0, 4, 0, 1⟩, 1, [], [], 0, 0, 0, 0, 0, [], 0, none,
    ⟨0, 0, [], 0, 0, none, 0, [], [], [], [], []⟩, List.replicate 8 (List.replicate 32 0), [], []⟩

/-- A bank whose b1 is a span of device memory at 0x10000 that may be written. -/
def eccBank : Bank := Bank.reset.setB 1 ⟨mkSpan 0x10000 0x20000 3 0 0 0 0 false 0, true⟩

/-- The device after reset, with that bank, address space 0 with its root table at 0x2000, and an uncorrectable error in the root's
first entry. -/
def eccState : State :=
  { State.reset.setBank State.reset.cur.bank eccBank with
    parts := [(0, eccPart)], mem := [(0x1000, 0x01), (0x1001, 0x20)], bad := [0x2000] }

/-- The translation of a store there faults with the reason of a malformed entry at level 4 (R352, R373). -/
theorem locate_eccState : locate eccState eccState.cur.bank (here eccState).asid.toNat ((here eccState).getB 1) 1 0x10000 true 0x12 =
    .error ⟨0x12, 0x10000, 0x41⟩ := by
  rfl

/-- Refutes O38: a store whose translation faults at an error in a page-table entry is logged as well (R373), where the statement
has it change no more than its bank and the queue of stores. -/
theorem not_storesAndReleases : ¬ Obligations.StoresAndReleases := by
  rintro ⟨⟨-, -, hfault⟩, -, -⟩
  have hv : Operand (here eccState) (.reg 0) 0 (here eccState) := ⟨rfl, rfl⟩
  have hea : (here eccState).ea ⟨1, 0, 0⟩ 2 1 1 true true true = .ok (0x10000, (here eccState).getB 1) := by rfl
  have hclaim := hfault ⟨0, false⟩ 0 (.reg 0) ⟨1, 0, 0⟩ eccState 0 _ 0x10000 _ _ (by decide) hv hea locate_eccState rfl
  rw [st_of_fault (sz := 0) (by decide) hv hea locate_eccState rfl] at hclaim
  have hlog : (eccState.logFault (here eccState).part (here eccState).asid.toNat 0x10000).deviceLog = eccState.deviceLog :=
    (congrArg State.deviceLog (Host.Outcome.next.inj hclaim) :)
  exact absurd hlog (by decide)

end Sys2Proof.Claims

/-! ### What a load writes, and what it reads at its place (R198, R221, R222). -/
namespace Sys2Proof.Machine
open Claims

theorem natOfBytes_lt : ∀ bs : List Byte, natOfBytes bs < 2 ^ (8 * bs.length)
  | [] => Nat.one_pos
  | b :: bs => by
    have ih := natOfBytes_lt bs
    have hb := b.isLt
    have hpow : 2 ^ (8 * (bs.length + 1)) = 256 * 2 ^ (8 * bs.length) := by rw [Nat.mul_add, Nat.pow_add]; omega
    simp only [natOfBytes, List.length_cons, hpow]
    omega

/-- The two readings of a loaded value: two's complement by doubling, and by its top bit. -/
theorem extendLoad_eq_loaded (sign : Bool) (bs : List Byte) : extendLoad sign bs = loaded sign bs := by
  have hlt := natOfBytes_lt bs
  cases sign with
  | false => rfl
  | true =>
    simp only [extendLoad, loaded, if_true, wordOfInt, sextNat, Nat.mod_eq_of_lt hlt]
    congr 1
    cases hn : bs.length with
    | zero =>
      rw [hn] at hlt
      have h0 : natOfBytes bs = 0 := by simpa using hlt
      simp [h0]
    | succ n =>
      have hpow : 2 ^ (8 * (n + 1)) = 2 * 2 ^ (8 * (n + 1) - 1) := by
        rw [← Nat.pow_succ']
        congr 1
      have hiff : 2 * natOfBytes bs < 2 ^ (8 * (n + 1)) ↔ natOfBytes bs < 2 ^ (8 * (n + 1) - 1) := by omega
      simp only [hiff]

theorem loadDone_of_result {s : State} {b : BankId} {rd : Dst} {sign : Bool} {bs : List Byte} {k : Bank}
    (h : Result (s.bank b) rd (loaded sign bs) k) : s.loadDone b rd sign false bs = .done (s.setBank b k) := by
  rw [← extendLoad_eq_loaded] at h
  simp only [State.loadDone, Bank.loadInto, Bool.false_eq_true, if_false, (writeDst_of_result h).2, Ev.andThen]

theorem loadDone_pair (s : State) (b : BankId) (n : BitVec 6) (bs : List Byte) : s.loadDone b (.reg n) false true bs =
    .done (s.setBank b (((s.bank b).setX n (loaded false (bs.take 8))).setX (n + 1) (loaded false (bs.drop 8)))) := rfl

/-- An instruction whose meaning is done with a bank that it has written falls through with that bank. -/
theorem runC_thenPast {g : Guard} {len : Nat} {f : State → BankId → Res} {s t : State} {k : Bank} (hg : goes g s)
    (h : f s s.cur.bank = .done (t.setBank s.cur.bank k)) : runC g len f s = .next (thenPastBy s t k len) := by
  rw [runC_runs hg, h]
  exact congrArg Host.Outcome.next (finishC_done_setBank ..)

/-- A destination with room passes the checks before an instruction acts (R27, R28). -/
theorem roomFor_of_room {k : Bank} {rd : Dst} (h : Room k rd) : dirs [] [rd] = .ok () ∧ k.roomFor rd = .ok () := by
  cases rd with
  | reg n => exact ⟨rfl, rfl⟩
  | queue q =>
    obtain ⟨hq, hlen⟩ := h
    have hdir : dstDir .c (.queue q) = .ok () := if_pos (if_pos hq)
    refine ⟨?_, if_pos hlen⟩
    simp only [dirs, List.forM_eq_forM, List.forM_cons, List.forM_nil, hdir]
    rfl

/-- What a held line answers is what the L1 reads (R198). -/
theorem l1Read_of_hit {s s2 : State} {b : BankId} {p n : Nat} {l bs : List Byte} (hhit : s.l1Hit b.core p n = some l)
    (h : L1Answers s b p n l bs s2) : s.l1Read b p n = some (bs, s2) := by
  obtain ⟨rfl, rfl⟩ := h
  simp only [State.l1Read, hhit]
  rfl

theorem l1Read_of_miss {s : State} {b : BankId} {p n : Nat} (hhit : s.l1Hit b.core p n = none) : s.l1Read b p n = none := by
  simp only [State.l1Read, hhit]
  rfl

section
variable {s s1 : State} {m : MemRef} {rd : Dst} {n addr : Nat} {sign pair : Bool}

/-- A load whose bytes are at hand ends with them (R221). -/
theorem weakLoad_answers {w : Where} {s2 : State} {bs : List Byte} (hroom : Room (here s) rd)
    (hr : Reaches s (here s) m 1 n true true (!pair) false 0x10 addr w s1) (h : LoadAnswers s n w s1 s2 bs) :
    weakLoad rd m n sign pair s s.cur.bank = s2.loadDone s.cur.bank rd sign pair bs := by
  obtain ⟨r, hea, hloc⟩ := ea_of_reaches hr
  obtain ⟨hdirs, hfree⟩ := roomFor_of_room hroom
  simp only [here] at hfree
  simp only [weakLoad, hdirs, hfree, pR, hea, bind, Except.bind, Ev.andThen, cFAULT_READ, hloc]
  cases w with
  | reg off => obtain ⟨rfl, rfl⟩ := h; rfl
  | remote d o => obtain ⟨rfl, rfl⟩ := h; rfl
  | place p x =>
    obtain ⟨hover, hecc, hbytes⟩ := h
    have horder : (s.bank s.cur.bank).inOrder p n = none := inOrder_of_nothingOver hover
    simp only [horder, hecc, Bool.false_eq_true, if_false]
    split at hbytes
    · next hu => obtain ⟨rfl, rfl⟩ := hbytes; rw [if_pos hu]
    · next hu =>
      obtain ⟨l, hhit, hl⟩ := hbytes
      simp only [if_neg hu, l1Read_of_hit hhit hl]

/-- A load that misses the L1 completes and stays outstanding (R221). -/
theorem weakLoad_misses {p : Nat} {x : Option Xlat} (hroom : Room (here s) rd)
    (hr : Reaches s (here s) m 1 n true true (!pair) false 0x10 addr (.place p x) s1) (hover : NothingOver s p n)
    (hecc : s1.eccAt p n = false) (hu : uncachedAt p x = false) (hhit : s1.l1Hit s.cur.bank.core p n = none) :
    let k := s1.bank s.cur.bank
    weakLoad rd m n sign pair s s.cur.bank = .done (s1.setBank s.cur.bank
      { k with outLoads := k.outLoads ++ [⟨k.nextAcc, rd, p, n, sign, pair, (here s).c.pc, (here s).nextPc, addr⟩],
               nextAcc := k.nextAcc + 1 }) := by
  obtain ⟨r, hea, hloc⟩ := ea_of_reaches hr
  obtain ⟨hdirs, hfree⟩ := roomFor_of_room hroom
  have horder : (s.bank s.cur.bank).inOrder p n = none := inOrder_of_nothingOver hover
  have hsame : s1.bank s.cur.bank = s.bank s.cur.bank := (locate_onlyMemory hloc).bank _
  simp only [here] at hfree
  simp only [weakLoad, hdirs, hfree, pR, hea, bind, Except.bind, Ev.andThen, cFAULT_READ, hloc, horder, hecc, hu, Bool.false_eq_true,
    if_false, l1Read_of_miss hhit, State.modBank, hsame]
  rfl

end

/-! ### LOAD_RETURN (R202, R228, R233). -/

theorem loadsEcc_none {s : State} {b : BankId} : ∀ l : List OutLoad, (∀ q ∈ l, s.eccAt q.place q.size = false) → s.loadsEcc b l = none
  | [], _ => rfl
  | q :: l, h => by
    have hq := h q (List.mem_cons_self ..)
    simp [State.loadsEcc, State.loadEcc, hq, loadsEcc_none l fun q' hq' => h q' (List.mem_cons_of_mem _ hq')]

theorem missRead_reads (s : State) (b : BankId) (p n : Nat) : MissReads s b p n (s.missRead b p n).1 (s.missRead b p n).2 := by
  rw [State.missRead]
  split
  · next h => exact .inr ⟨h.1, rfl⟩
  · exact .inl ⟨rfl, rfl⟩

/-- What LOAD_RETURN reads: the held line, or what a miss reads. -/
theorem loadReturn_reads (s : State) (b : BankId) (p n : Nat) :
    match s.l1Hit b.core p n with
    | some h => L1Answers s b p n h ((s.l1Read b p n).getD (s.missRead b p n)).1 ((s.l1Read b p n).getD (s.missRead b p n)).2
    | none => MissReads s b p n ((s.l1Read b p n).getD (s.missRead b p n)).1 ((s.l1Read b p n).getD (s.missRead b p n)).2 := by
  cases hhit : s.l1Hit b.core p n with
  | none =>
    rw [l1Read_of_miss hhit]
    exact missRead_reads s b p n
  | some h =>
    rw [l1Read_of_hit hhit ⟨rfl, rfl⟩]
    exact ⟨rfl, rfl⟩

/-- An outstanding load that nothing holds back, and under which no error stands, is read and leaves the bank (R221). -/
theorem loadReturn_writes {s : State} {b : BankId} {l : OutLoad} {k : Bank}
    (hfind : (s.bank b).outLoads.find? (fun q => q.id = l.id) = some l)
    (holder : ∀ q ∈ (s.bank b).outLoads.takeWhile (fun q => q.id ≠ l.id), overlap q.place q.size l.place l.size = false)
    (hecc : ∀ q ∈ (s.bank b).outLoads, s.eccAt q.place q.size = false)
    (hk : let r := (s.l1Read b l.place l.size).getD (s.missRead b l.place l.size)
      (r.2.bank b).loadInto l.dst l.sign l.pair r.1 = .ok k) :
    exec (.loadReturn b l.id) s = .next (((s.l1Read b l.place l.size).getD (s.missRead b l.place l.size)).2.setBank b
      { k with outLoads := k.outLoads.filter (fun q => q.id ≠ l.id) }) := by
  have hself : s.eccAt l.place l.size = false := hecc l (List.mem_of_find?_eq_some hfind)
  have hfree : ((s.bank b).outLoads.takeWhile (fun q => q.id ≠ l.id)).any (fun q => overlap q.place q.size l.place l.size) = false := by
    simpa using holder
  change execLoadReturn b l.id s = _
  simp only [execLoadReturn, hfind, loadsEcc_none _ hecc, hfree, State.holdEcc, hself, Bool.false_eq_true, if_false]
  simp only at hk
  rw [hk]

end Sys2Proof.Machine

/-! ### LDA and WAITA (R203, R221, R228). -/
namespace Sys2Proof.Machine
open Claims

/-- A change that leaves a bank as it was written leaves the state. -/
theorem State.modBank_written {s t : State} {b : BankId} {k : Bank} {f : Bank → Bank} (ht : t.banks = (s.setBank b k).banks)
    (hf : f k = k) : t.modBank b f = t := by
  have hbank : t.bank b = k := by rw [State.bank, ht]; exact State.bank_setBank_self s b k
  have hbanks : assocSet t.banks b k = t.banks := by rw [ht]; exact assocSet_assocSet ..
  rw [State.modBank, hbank, hf, State.setBank, hbanks]

theorem State.banks_readPlace (s : State) (b : BankId) (p n : Nat) (x : Option Xlat) :
    (s.readPlace b p n x).banks = (s.noteRead b p n).banks := by
  simp only [State.readPlace, State.dirRead]
  repeat' split
  all_goals rfl

theorem State.dtc_readPlace (s : State) (b : BankId) (p n : Nat) (x : Option Xlat) : (s.readPlace b p n x).dtc = s.dtc := by
  simp only [State.readPlace, State.dirRead]
  repeat' split
  all_goals rfl

section
variable {g : Guard} {s s1 : State} {m : MemRef} {rd : Dst} {addr : Nat} {k : Bank} (hg : goes g s) (hroom : Room (here s) rd)
include hg hroom

section
variable {sz : BitVec 2} {sc : Scope} {p : Nat} {x : Option Xlat}
  (hr : Reaches s (here s) m 1 (2 ^ sz.toNat) true true true false 0x10 addr (.place p x) s1) (hover : NothingOver s p (2 ^ sz.toNat))
  (hecc : s1.eccAt p (2 ^ sz.toNat) = false)
include hr hover hecc

/-- LDA that the L1 may not answer, or cannot, reads what stands there, and acquires (R203, R221). -/
theorem lda_reads (hmiss : sc = .co → uncachedAt p x = false → s1.l1Hit s.cur.bank.core p (2 ^ sz.toNat) = none) :
    let b := s.cur.bank
    let s2 := (s1.readPlace b p (2 ^ sz.toNat) x).acquire b sc p (2 ^ sz.toNat)
    Result (s2.bank b) rd (loaded false (s1.viewC b p (2 ^ sz.toNat))) k → exec (.lda g sz sc rd m) s = .next (thenPast s s2 k) := by
  intro b s2 hres
  obtain ⟨r, hea, hloc⟩ := ea_of_reaches hr
  obtain ⟨hdirs, hfree⟩ := roomFor_of_room hroom
  have horder : (s.bank s.cur.bank).inOrder p (2 ^ sz.toNat) = none := inOrder_of_nothingOver hover
  have hl1 : (if sc = .co ∧ (!uncachedAt p x) = true then s1.l1Read s.cur.bank p (2 ^ sz.toNat) else none) = none := by
    split
    · next h => exact l1Read_of_miss (hmiss h.1 (by simpa using h.2))
    · rfl
  change execLda g sz sc rd m s = _
  refine runC_thenPast hg ?_
  simp only [here] at hfree
  simp only [sizeOf2, hdirs, hfree, pR, hea, bind, Except.bind, Ev.andThen, cFAULT_READ, hloc, horder, hecc, hl1, Bool.false_eq_true,
    if_false]
  exact loadDone_of_result hres

/-- LDA at `.co` that a held line answers (R198): an older copy answers with its own releases. -/
theorem lda_hits {s2 : State} {l bs : List Byte} (hu : uncachedAt p x = false) :
    let b := s.cur.bank
    s1.l1Hit b.core p (2 ^ sz.toNat) = some l → L1Answers s1 b p (2 ^ sz.toNat) l bs s2 →
    let s3 := if bs = s1.viewC b p (2 ^ sz.toNat) then s2.acquire b .co p (2 ^ sz.toNat)
      else s2.acquireTags b .co (s1.copyTags b.core p (2 ^ sz.toNat))
    Result (s3.bank b) rd (loaded false bs) k → exec (.lda g sz .co rd m) s = .next (thenPast s s3 k) := by
  intro b hhit hans s3 hres
  obtain ⟨r, hea, hloc⟩ := ea_of_reaches hr
  obtain ⟨hdirs, hfree⟩ := roomFor_of_room hroom
  have horder : (s.bank s.cur.bank).inOrder p (2 ^ sz.toNat) = none := inOrder_of_nothingOver hover
  have hcopy : s2.copyTags b.core p (2 ^ sz.toNat) = s1.copyTags b.core p (2 ^ sz.toNat) := by
    obtain ⟨-, rfl⟩ := hans
    split <;> rfl
  have hl1 := l1Read_of_hit hhit hans
  change execLda g sz .co rd m s = _
  refine runC_thenPast hg ?_
  simp only [here] at hfree
  simp only [sizeOf2, hdirs, hfree, pR, hea, bind, Except.bind, Ev.andThen, cFAULT_READ, hloc, horder, hecc, hu, Bool.not_false, and_self,
    if_true, b, hl1, hcopy, Bool.false_eq_true, if_false]
  exact loadDone_of_result hres

end

/-- LDA of a device register or of another device (R220, R356). -/
theorem lda_elsewhere {sz : BitVec 2} {sc : Scope} {w : Where} {s2 : State} {bs : List Byte}
    (hr : Reaches s (here s) m 1 (2 ^ sz.toNat) true true true false 0x10 addr w s1) (hw : ∀ p x, w ≠ .place p x)
    (hans : LoadAnswers s (2 ^ sz.toNat) w s1 s2 bs) :
    let s3 := s2.dropL1 s.cur.bank.core sc
    Result (s3.bank s.cur.bank) rd (loaded false bs) k → exec (.lda g sz sc rd m) s = .next (thenPast s s3 k) := by
  intro s3 hres
  obtain ⟨r, hea, hloc⟩ := ea_of_reaches hr
  obtain ⟨hdirs, hfree⟩ := roomFor_of_room hroom
  change execLda g sz sc rd m s = _
  refine runC_thenPast hg ?_
  simp only [here] at hfree
  simp only [sizeOf2, hdirs, hfree, pR, hea, bind, Except.bind, Ev.andThen, cFAULT_READ, hloc]
  cases w with
  | place p x => exact absurd rfl (hw p x)
  | reg off => obtain ⟨rfl, rfl⟩ := hans; exact loadDone_of_result hres
  | remote d o => obtain ⟨rfl, rfl⟩ := hans; exact loadDone_of_result hres

/-- A WAITA that is not yet waiting, with its operands in registers, completes when its condition holds or its deadline has passed
(R228). -/
theorem waita_completes {cc : Cond} {wide : Bool} {sc : Option Scope} {n2 n3 : BitVec 6} {n p : Nat} {x : Option Xlat}
    (hn : (if wide then 8 else 4) = n) (hwait : (here s).c.wait = none)
    (hr : Reaches s (here s) m 1 n true true false false 0x10 addr (.place p x) s1) (hover : NothingOver s p n)
    (hecc : s1.eccAt p n = false)
    (hends : waitaHolds cc wide (loaded false (s1.viewC s.cur.bank p n)) ((here s).getX n2) = true ∨
      n3 ≠ 0 ∧ ((here s).getX n3).toNat ≤ s1.dtc) :
    let s2 := s1.readPlace s.cur.bank p n x
    let s3 := match sc with
      | some c => s2.acquire s.cur.bank c p n
      | none => s2
    Result (s3.bank s.cur.bank) rd (loaded false (s1.viewC s.cur.bank p n)) k →
    exec (.waita g cc wide sc rd m (.reg n2) (.reg n3)) s = .next (thenPastBy s s3 k 2) := by
  intro s2 s3 hres
  obtain ⟨r, hea, hloc⟩ := ea_of_reaches hr
  obtain ⟨hdirs, hfree⟩ := roomFor_of_room hroom
  replace hdirs : dirs [.reg n2, .reg n3] [rd] = .ok () := hdirs
  have hwait' : (s.bank s.cur.bank).c.wait = none := hwait
  have horder : (s.bank s.cur.bank).inOrder p n = none := inOrder_of_nothingOver hover
  have hops : (s.bank s.cur.bank).waitaOperands (.reg n2) (.reg n3) =
      .ok ((s.bank s.cur.bank).getX n2, (s.bank s.cur.bank).getX n3, s.bank s.cur.bank) := by
    rw [Bank.waitaOperands, hwait']
    rfl
  have hqueues : s2.modBank s.cur.bank (fun k => { k with q := (s.bank s.cur.bank).q }) = s2 := by
    refine State.modBank_written (State.banks_readPlace ..) ?_
    rw [(locate_onlyMemory hloc).bank]
  have hdtc : s2.dtc = s1.dtc := State.dtc_readPlace ..
  have hgo : (waitaHolds cc wide (BitVec.ofNat 64 (natOfBytes (s1.viewC s.cur.bank p n))) ((s.bank s.cur.bank).getX n2) ||
      (!decide (Src.reg n3 = .reg 0) && decide (((s.bank s.cur.bank).getX n3).toNat ≤ s2.dtc))) = true := by
    rw [hdtc]
    simpa [loaded, here] using hends
  change execWaita g cc wide sc rd m (.reg n2) (.reg n3) s = _
  refine runC_thenPast hg ?_
  simp only [here] at hfree
  simp only [hdirs, hfree, hops, pR, hn, hea, bind, Except.bind, Ev.andThen, cFAULT_READ, hloc, hecc, hwait', Option.map_none,
    Option.getD_none, horder, Bool.false_eq_true, if_false, s2, hqueues, ne_eq, decide_not, hgo, if_true]
  have hdone := loadDone_of_result hres
  cases sc <;> exact hdone

end

end Sys2Proof.Machine

namespace Sys2Proof.Claims
open Machine

/-- Loads that answer at once, loads that miss, and LOAD_RETURN. -/
theorem loadsComplete : LoadsComplete := by
  refine ⟨fun g sz sign rd m s s1 s2 addr w bs k hg hroom hr hans hres => ?_, fun g n m s s1 s2 addr w bs hg hr hans => ?_,
    fun g sz sign rd m s s1 addr p x hg hroom hr hover hecc hu hhit => ?_,
    fun g n m s s1 addr p x hg hr hover hecc hu hhit => ?_, fun s b l hfind holder hecc => ?_⟩
  · have hdone := (weakLoad_answers (sign := sign) (pair := false) hroom hr hans).trans (loadDone_of_result hres)
    cases sign with
    | true => exact runC_thenPast hg hdone
    | false => exact runC_thenPast hg hdone
  · have hdone := (weakLoad_answers (sign := false) (pair := true) (rd := .reg n) trivial hr hans).trans (loadDone_pair ..)
    exact runC_thenPast hg hdone
  · have hmiss := weakLoad_misses (sign := sign) (pair := false) hroom hr hover hecc hu hhit
    cases sign with
    | true => exact runC_thenPast hg hmiss
    | false => exact runC_thenPast hg hmiss
  · exact runC_thenPast hg (weakLoad_misses (sign := false) (pair := true) (rd := .reg n) trivial hr hover hecc hu hhit)
  · refine ⟨_, _, loadReturn_reads s b l.place l.size, fun k hk => ?_⟩
    refine loadReturn_writes hfind holder hecc ?_
    simp only [Bank.loadInto]
    split at hk
    · next hp =>
      obtain ⟨n, hdst, rfl⟩ := hk
      simp only [hp, if_true, hdst]
      rfl
    · next hp =>
      rw [if_neg hp, extendLoad_eq_loaded]
      exact (writeDst_of_result hk).2

/-- LDA past the L1, from a held line, and elsewhere; WAITA. -/
theorem acquiringReads : AcquiringReads :=
  ⟨fun _ _ _ _ _ _ _ _ _ _ _ hg hroom hr hover hecc hmiss => lda_reads hg hroom hr hover hecc hmiss,
    fun _ _ _ _ _ _ _ _ _ _ _ _ _ hg hroom hr hover hecc hu => lda_hits hg hroom hr hover hecc hu,
    fun _ _ _ _ _ _ _ _ _ _ _ _ hg hroom hr hw hans => lda_elsewhere hg hroom hr hw hans,
    fun _ _ _ _ _ _ _ _ _ _ _ _ _ _ hg hwait hroom hr hover hecc hends => waita_completes hg hroom rfl hwait hr hover hecc hends⟩

/-- Settles O37: the loads, and the reads that acquire. -/
theorem loadsAndAcquiringReads : Obligations.LoadsAndAcquiringReads := ⟨loadsComplete, acquiringReads⟩

end Sys2Proof.Claims

/-! ### What an answer holds, and that a state's memory is canonical after each operation on memory (R199 to R205). -/
namespace Sys2Proof.Machine

/-- The state in a meaning's answer. -/
def Res.state : Res → State
  | .done s | .jumped s | .wait s _ _ _ _ | .trap s _ | .heldTrap s _ => s

@[simp] theorem Res.state_done (s : State) : (Res.done s).state = s := rfl
@[simp] theorem Res.state_jumped (s : State) : (Res.jumped s).state = s := rfl
@[simp] theorem Res.state_wait (s : State) (tag : WaitTag) (o d : Nat) (vals : List Word) : (Res.wait s tag o d vals).state = s := rfl
@[simp] theorem Res.state_trap (s : State) (t : TrapInfo) : (Res.trap s t).state = s := rfl
@[simp] theorem Res.state_heldTrap (s : State) (t : TrapInfo) : (Res.heldTrap s t).state = s := rfl

/-- The next state of an answer, if it has one, has canonical memory. -/
def Canonical (o : Out) : Prop := ∀ t, o = .next t → memWf t.mem = true

@[simp] theorem canonical_next {t : State} : Canonical (.next t) ↔ memWf t.mem = true :=
  ⟨fun h => h t rfl, fun h u hu => by injection hu with hu; exact hu ▸ h⟩

/-! The operations of the memory system, as rules for `simp`. -/

section
variable {s : State} (h : memWf s.mem = true)
include h

@[simp] theorem State.wf_performWrite (core : Option Nat) (place : Nat) (bs : List Byte) (rmw : Bool) :
    memWf (s.performWrite core place bs rmw).mem = true := s.performWrite_wf core place bs rmw h
@[simp] theorem State.wf_landHome (place n : Nat) : memWf (s.landHome place n).mem = true := s.landHome_wf place n h
@[simp] theorem State.wf_performStore (id : Nat) : memWf (s.performStore id).mem = true := s.performStore_wf id h

/-- A write that reaches its home slice makes earlier ones of its bytes globally visible, and writes nothing of its own (R197). -/
@[simp] theorem State.wf_homeStore (id : Nat) : memWf (s.homeStore id).mem = true := by
  simp only [State.homeStore]
  split
  · exact h
  · split
    · exact h
    · exact State.landHome_wf _ _ _ (foldl_wf _ (fun t q => t.applyStore_wf q) _ _ h)

@[simp] theorem State.wf_homeAll (ids : List Nat) : memWf (s.homeAll ids).mem = true :=
  foldl_wf _ (fun _ id ht => State.wf_homeStore ht id) _ _ h

@[simp] theorem State.wf_performAll (l : List PendStore) : memWf (s.performAll l).mem = true :=
  foldl_wf _ (fun t (p : PendStore) ht => t.performStore_wf p.id ht) _ _ h

@[simp] theorem State.wf_settle (b : BankId) (place n : Nat) : memWf (s.settle b place n).mem = true :=
  State.landHome_wf _ _ _ (State.wf_performAll h _)

@[simp] theorem State.wf_settleB (b : BankId) (place n : Nat) : memWf (s.settleB b place n).mem = true := State.wf_performAll h _

end

@[simp] theorem State.mem_l1Update (s : State) (core place : Nat) (bs : List Byte) : (s.l1Update core place bs).mem = s.mem := rfl
@[simp] theorem State.mem_l1Note (s : State) (core place n : Nat) (ids : List Nat) (tags : List RelTag) (rmw : Bool) :
    (s.l1Note core place n ids tags rmw).mem = s.mem := rfl
@[simp] theorem State.mem_l1Drop (s : State) (core place n : Nat) : (s.l1Drop core place n).mem = s.mem := rfl

@[simp] theorem State.mem_dirRead (s : State) (cluster place : Nat) : (s.dirRead cluster place).mem = s.mem := by
  simp only [State.dirRead]
  split <;> rfl

@[simp] theorem State.mem_dirLeave (s : State) (cluster place : Nat) : (s.dirLeave cluster place).mem = s.mem := by
  simp only [State.dirLeave]
  split <;> rfl

@[simp] theorem State.mem_reach (s : State) (id : Nat) : (s.reachStore id).mem = s.mem := s.mem_reachStore id

@[simp] theorem State.mem_noteSeen (s : State) (b : BankId) (ids : List Nat) (tags : List RelTag) : (s.noteSeen b ids tags).mem = s.mem := rfl
@[simp] theorem State.mem_noteRead (s : State) (b : BankId) (place n : Nat) : (s.noteRead b place n).mem = s.mem := rfl
@[simp] theorem State.mem_readPast (s : State) (b : BankId) (place n : Nat) : (s.readPast b place n).mem = s.mem := rfl

@[simp] theorem State.mem_dropL1 (s : State) (core : Nat) (sc : Scope) : (s.dropL1 core sc).mem = s.mem := by
  simp only [State.dropL1]
  split <;> rfl

@[simp] theorem State.mem_observe (s : State) (b : BankId) (ids : List Nat) : (s.observe b ids).mem = s.mem :=
  State.mem_foldl (fun (t : State) (p : PendStore) => t.l1Drop b.core p.place p.data.length) (fun _ _ => rfl) _ _

@[simp] theorem State.mem_acquireTags (s : State) (b : BankId) (sc : Scope) (tags : List RelTag) : (s.acquireTags b sc tags).mem = s.mem := by
  simp only [State.acquireTags, State.mem_dropL1, State.mem_observe]

@[simp] theorem State.mem_acquire (s : State) (b : BankId) (sc : Scope) (place n : Nat) : (s.acquire b sc place n).mem = s.mem :=
  State.mem_acquireTags ..

@[simp] theorem State.mem_queueWrite (s : State) (p : PendStore) : (s.queueWrite p).mem = s.mem := rfl
@[simp] theorem State.mem_queueStore (s : State) (b : BankId) (va place : Nat) (bs : List Byte) (uncached : Bool)
    (rel : Option (Scope × List Nat)) (fault : Option Held) : (s.queueStore b va place bs uncached rel fault).mem = s.mem := rfl

@[simp] theorem State.mem_l1Fill (s : State) (b : BankId) (place : Nat) : (s.l1Fill b place).mem = s.mem := State.mem_dirRead ..

@[simp] theorem State.mem_readEarly (s : State) (b : BankId) (place n : Nat) : (s.readEarly b place n).2.mem = s.mem := rfl

/-- What a release covers is performed, or only reaches its cluster's cache (R203). -/
@[simp] theorem State.wf_showWrites {s : State} (h : memWf s.mem = true) (core : Nat) (sc : Scope) (ids : List Nat) :
    memWf (s.showWrites core sc ids).mem = true := by
  refine foldl_wf _ (fun t id ht => ?_) _ _ h
  split
  · exact ht
  · split
    · rwa [State.mem_reach]
    · exact State.wf_performStore ht _

@[simp] theorem State.wf_releaseStores {s : State} (h : memWf s.mem = true) (b : BankId) (sc : Scope) :
    memWf (s.releaseStores b sc).mem = true := State.wf_showWrites h ..

/-! ### Logs, and the end of a job (R373, R378). -/

@[simp] theorem State.mem_logAccess (s : State) (part asid va : Nat) (f : XFault) : (s.logAccess part asid va f).mem = s.mem := by
  obtain ⟨l, hl⟩ := s.logAccess_only part asid va f
  rw [hl]

@[simp] theorem State.mem_logFault (s : State) (part asid va : Nat) : (s.logFault part asid va).mem = s.mem := by
  obtain ⟨l, hl⟩ := s.logFault_only part asid va
  rw [hl]

@[simp] theorem State.mem_logTrap (s : State) (b : BankId) (t : TrapInfo) : (s.logTrap b t).mem = s.mem := by
  obtain ⟨l, hl⟩ := s.logTrap_only b t
  rw [hl]

@[simp] theorem State.mem_logDevice (s : State) (k : LogKind) (args : List Nat) : (s.logDevice k args).mem = s.mem := rfl
@[simp] theorem State.mem_logSched (s : State) (k : LogKind) (args : List Nat) : (s.logSched k args).mem = s.mem := rfl
@[simp] theorem State.mem_logPart (s : State) (p : Nat) (k : LogKind) (args : List Nat) : (s.logPart p k args).mem = s.mem := rfl
@[simp] theorem State.mem_hold (s : State) (b : BankId) (f : Held) : (s.hold b f).mem = s.mem := rfl

@[simp] theorem State.mem_pickBank (s : State) (core : Nat) : (s.pickBank core).mem = s.mem := by
  obtain ⟨cs, hc⟩ := s.pickBank_only core
  rw [hc]

@[simp] theorem State.mem_freeBank (s : State) (b : BankId) : (s.freeBank b).mem = s.mem := State.mem_pickBank ..

@[simp] theorem State.mem_releaseBanks (s : State) (j : Job) : (s.releaseBanks j).mem = s.mem :=
  State.mem_foldl _ (fun _ _ => State.mem_freeBank ..) _ _

@[simp] theorem State.mem_endTeam (s : State) (b : BankId) : (s.endTeam b).mem = s.mem := by
  simp only [State.endTeam]
  split
  · rfl
  · split
    · exact State.mem_foldl (fun (t : State) (q : BankId × Bank) => t.pickBank q.1.core) (fun _ _ => State.mem_pickBank ..) _ _
    · rfl

section
variable {s : State} (h : memWf s.mem = true)
include h

/-- What can be written is; the walk that stopped the rest is logged (R373). -/
@[simp] theorem State.wf_writeOrLog (hs : List TlbHolder) (part asid va : Nat) (bs : List Byte) :
    memWf (s.writeOrLog hs part asid va bs).mem = true := by
  simp only [State.writeOrLog]
  split
  · next t ht => exact State.writeVirt_wf h ht
  · simpa using h

@[simp] theorem State.wf_logReads (part asid : Nat) (l : List (Nat × Nat)) : memWf (s.logReads part asid l).mem = true := by
  refine foldl_wf _ (fun t q ht => ?_) _ _ h
  dsimp only
  split <;> simpa using ht

/-- A completion word is a write like another (R305). -/
@[simp] theorem State.wf_writeDone (part ctx addr v : Nat) : memWf (s.writeDone part ctx addr v).mem = true := by
  simp only [State.writeDone]
  split
  · exact h
  split
  · exact h
  split
  case h_1 pa x t hr =>
    have ht := State.reachVA_ok_wf hr h
    split <;> simp [ht]
  case h_2 d o t hr => exact (State.reachVA_ok_wf hr h :)
  case h_3 off t hr => exact State.reachVA_ok_wf hr h
  case h_4 f hr => simpa using h

@[simp] theorem State.wf_finishAbort (id : Nat) : memWf (s.finishAbort id).mem = true := by
  simp only [State.finishAbort]
  split
  · exact h
  split
  · exact h
  split
  · exact State.wf_writeDone (by simpa using h) ..
  · exact h

/-- Aborting a job writes its completion word at most (R378). -/
@[simp] theorem State.wf_abortJob (b : BankId) (cause : Nat) : memWf (s.abortJob b cause).mem = true := by
  simp only [State.abortJob]
  split
  · simpa using h
  · refine State.wf_finishAbort ?_ _
    simp only [State.mem_logPart, State.mem_modJob]
    refine foldl_wf _ (fun t q ht => ?_) _ _ h
    exact ht

end

/-! ### Traps and completion (R376, R384). -/

/-- Finding the words of an overlay translates, and does no more (R343). -/
theorem overlayPlaces_wf {hs : List TlbHolder} {part asid : Nat} (n : Nat) : ∀ {s t : State} {va : Nat} {l : List (Nat × Where)},
    memWf s.mem = true → overlayPlaces hs part asid n s va = .ok (l, t) → memWf t.mem = true := by
  induction n with
  | zero => intro s t va l h e; cases e; exact h
  | succ n ih =>
    intro s t va l h e
    simp only [overlayPlaces] at e
    split at e
    · cases e
    next w u hu =>
    have hu' := State.reachVA_ok_wf hu h
    split at e
    · cases e
    split at e
    · cases e
    next l' v hv =>
    cases e
    exact ih hu' hv

theorem State.fetchOverlay_wf {s t : State} {b : BankId} {o : OvlEntry} {ws : List Nat} {e : Option TrapInfo}
    (h : memWf s.mem = true) (hf : s.fetchOverlay b o = .ok (ws, e, t)) : memWf t.mem = true := by
  simp only [State.fetchOverlay] at hf
  split at hf
  · cases hf
  next l u hu =>
  cases hf
  refine foldl_wf _ (fun v q hv => ?_) _ _ (overlayPlaces_wf _ h hu)
  split <;> simpa using hv

section
variable {s : State} (h : memWf s.mem = true)
include h

/-- A delivery reads an overlay, or aborts the job (R376). -/
@[simp] theorem State.wf_deliver (b : BankId) (t : TrapInfo) (pc : Word) : memWf (s.deliver b t pc).mem = true := by
  simp only [State.deliver]
  split
  · exact State.wf_abortJob (by simpa using h) ..
  split
  · simpa using h
  split
  · exact State.wf_abortJob (by simpa using h) ..
  split
  · exact State.wf_abortJob (by simpa using h) ..
  · next hf =>
    have hu := State.fetchOverlay_wf (by simpa using h) hf
    split <;> simp [hu]
  · next hf =>
    have hu := State.fetchOverlay_wf (by simpa using h) hf
    simp [hu]

@[simp] theorem State.wf_trapC (b : BankId) (t : TrapInfo) (pc : Word) (held : Bool) : memWf (s.trapC b t pc held).mem = true := by
  obtain ⟨l, he | ⟨-, -, he⟩⟩ := trapC_cases s b t pc held
  · rw [he]
    exact State.wf_deliver (by exact h) ..
  · rw [he]
    exact h

end

/-- The end of a C-stream instruction keeps what its meaning kept. -/
theorem finishC_wf {r : Res} (h : memWf r.state.mem = true) (b : BankId) (len : Nat) (pc : Word) :
    memWf (finishC b len pc r).mem = true := by
  cases r with
  | done s => exact h
  | jumped s => exact h
  | wait s tag obj detail vals => exact h
  | trap s t => exact State.wf_trapC h ..
  | heldTrap s t => exact State.wf_trapC h ..

theorem finishG_wf {r : Res} (h : memWf r.state.mem = true) (b : BankId) (len : Nat) (pc : Word) :
    memWf (finishG b len pc r).mem = true := by
  cases r with
  | done s => exact h
  | jumped s => exact h
  | wait s tag obj detail vals => exact h
  | trap s t => exact State.wf_abortJob (by simpa using h) ..
  | heldTrap s t => exact State.wf_abortJob (by simpa using h) ..

theorem runC_canonical {g : Guard} {len : Nat} {f : State → BankId → Res} {s : State} (h : memWf s.mem = true)
    (hf : ∀ b, memWf (f s b).state.mem = true) : Canonical (runC g len f s) := by
  refine canonical_next.mpr (finishC_wf ?_ ..)
  split
  · exact hf _
  · exact h

theorem runG_canonical {g : Guard} {len : Nat} {f : State → BankId → Res} {s : State} (h : memWf s.mem = true)
    (hf : ∀ b, memWf (f s b).state.mem = true) : Canonical (runG g len f s) := by
  refine canonical_next.mpr (finishG_wf ?_ ..)
  split
  · exact hf _
  · exact h

/-- A meaning that acts on its bank alone leaves memory as it stands. -/
@[simp] theorem mem_ofBank (f : Bank → Ev Bank) (s : State) (b : BankId) : (ofBank f s b).state.mem = s.mem := by
  simp only [ofBank]
  split <;> rfl

theorem pureC_canonical {g : Guard} {len : Nat} {f : Bank → Ev Bank} {s : State} (h : memWf s.mem = true) : Canonical (pureC g len f s) :=
  runC_canonical h fun b => by rwa [mem_ofBank]

theorem pureG_canonical {g : Guard} {len : Nat} {f : Bank → Ev Bank} {s : State} (h : memWf s.mem = true) : Canonical (pureG g len f s) :=
  runG_canonical h fun b => by rwa [mem_ofBank]

@[simp] theorem Stop.mem_res (s : State) (st : Stop) : (st.res s).state.mem = s.mem := by
  cases st <;> rfl

/-- An evaluation that stops leaves the state; one that does not goes on. -/
theorem Ev.andThen_wf {α : Type} {e : Ev α} {s : State} {f : α → Res} (h : memWf s.mem = true)
    (hf : ∀ a, e = .ok a → memWf (f a).state.mem = true) : memWf (e.andThen s f).state.mem = true := by
  cases e with
  | ok a => exact hf a rfl
  | error st => rwa [Ev.andThen, Stop.mem_res]

@[simp] theorem mem_goTo (s : State) (b : BankId) (target : Word) (leave : Bool) (k : Bank → Bank) :
    (goTo s b target leave k).state.mem = s.mem := rfl

@[simp] theorem mem_transferTo (s : State) (b : BankId) (target : Word) (leave : Bool) (k : Bank → Bank) :
    (transferTo s b target leave k).state.mem = s.mem := by
  simp only [transferTo]
  split <;> rfl

@[simp] theorem State.wf_trapReturn {s : State} (h : memWf s.mem = true) (b : BankId) : memWf (s.trapReturn b).state.mem = true := by
  simp only [State.trapReturn]
  split
  · exact h
  split
  · exact h
  split
  · exact h
  split
  · exact h
  · next hf => exact (State.fetchOverlay_wf h hf :)
  · next hf => exact (State.fetchOverlay_wf h hf :)

/-- A release of the C path performs what it covers before its effect (R203). -/
theorem releaseC_wf {s : State} {b : BankId} {sc : Scope} {f : State → List Nat → Res} (h : memWf s.mem = true)
    (hf : ∀ t ids, memWf t.mem = true → memWf (f t ids).state.mem = true) : memWf (releaseC s b sc f).state.mem = true := by
  have hr := State.wf_releaseStores h b sc
  rcases releaseC_cases s b sc f with ⟨-, he⟩ | ⟨-, -, he⟩ | ⟨-, -, ⟨_, _, -, he⟩ | ⟨-, he⟩⟩ <;> rw [he]
  · exact h
  · exact h
  · exact hr
  · exact hf _ _ hr

end Sys2Proof.Machine

/-! ### Atomics, answers, fault records and migration: what they write (R223 to R227, R380, R382, R400 to R402). -/
namespace Sys2Proof.Machine

@[simp] theorem State.mem_tagWrite (s : State) (place n core : Nat) (rels : List (Scope × List Nat)) :
    (s.tagWrite place n core rels).mem = s.mem := rfl

@[simp] theorem State.mem_comeBack (s : State) (b : BankId) : (s.comeBack b).mem = s.mem := by
  simp only [State.comeBack]
  split
  · exact State.mem_pickBank ..
  · rfl

section
variable {s : State} (h : memWf s.mem = true)
include h

@[simp] theorem State.wf_rmw (b : BankId) (path place n : Nat) (f : Nat → Nat) : memWf (s.rmw b path place n f).2.mem = true := by
  refine State.wf_performWrite ?_ ..
  split
  · exact State.wf_settle h ..
  split
  · exact State.wf_performAll h _
  · exact State.wf_settleB h ..

@[simp] theorem State.wf_performAmon (b : BankId) (a : Amon) : memWf (s.performAmon b a).mem = true := by
  simp only [State.performAmon]
  split
  · exact h
  · refine State.wf_rmw ?_ ..
    split <;> exact h

@[simp] theorem State.wf_performAmons (b : BankId) : memWf (s.performAmons b).mem = true := by
  have hall : memWf ((s.bank b).amons.foldl (fun t a => t.performAmon b a) s).mem = true :=
    foldl_wf _ (fun t a ht => State.wf_performAmon ht b a) _ _ h
  simp only [State.performAmons]
  split
  · exact State.wf_finishAbort hall _
  · exact hall

@[simp] theorem State.wf_applyAnswer (b : BankId) (t : PendTrap) (act : Nat) : memWf (s.applyAnswer b t act).mem = true := by
  have hs : memWf ((s.modBank b (fun k => { k with pendTrap := none, drain := .none, idleSince := s.dtc })).comeBack b).mem = true := by
    simpa using h
  simp only [State.applyAnswer]
  split
  · exact hs
  split
  · exact State.wf_deliver hs ..
  · exact State.wf_abortJob (by simpa using hs) ..

@[simp] theorem State.wf_answer (part seq act : Nat) : memWf (s.answer part seq act).mem = true := by
  simp only [State.answer]
  split
  · split
    · split
      · exact h
      · exact State.wf_applyAnswer h ..
    · exact h
  · split <;> exact h

/-- A fault record is a write at its slot (R380). -/
@[simp] theorem State.wf_putRecord (part : Nat) (p : Part) (rec : List Byte) : memWf (s.putRecord part p rec).mem = true := by
  simp only [State.putRecord]
  split <;> simp [h]

@[simp] theorem State.wf_flushLost (part n : Nat) : memWf (s.flushLost part n).mem = true := by
  induction n generalizing s with
  | zero => exact h
  | succ n ih =>
    simp only [State.flushLost]
    split
    · exact h
    split
    · split
      · exact h
      · exact ih (by simpa using State.wf_putRecord h ..)
    · exact h

end

/-! Debug commands and pre-emption (R386, R387). -/

@[simp] theorem State.mem_haltBank (s : State) (b : BankId) (f : Halt) : (s.haltBank b f).mem = s.mem := rfl
@[simp] theorem State.mem_markPreempt (s : State) (b : BankId) : (s.markPreempt b).mem = s.mem := rfl

@[simp] theorem State.mem_debug (s : State) (part : Nat) (b : BankId) (op : Nat) : (s.debug part b op).mem = s.mem := by
  simp only [State.debug]
  repeat' split
  all_goals simp

/-! The source of a migration (R400 to R402). -/

@[simp] theorem State.mem_emitPackets (s : State) (l : List MigPacket) : (s.emitPackets l).mem = s.mem := rfl

@[simp] theorem State.mem_emitFrom (s : State) (part counter : Nat) : (s.emitFrom part counter).mem = s.mem := by
  simp only [State.emitFrom]
  split <;> rfl

@[simp] theorem State.mem_modMig (s : State) (part : Nat) (f : Migration → Migration) : (s.modMig part f).mem = s.mem := rfl

section
variable {s : State} (h : memWf s.mem = true)
include h

/-- DIRTY.EN is set in its entry (R357). -/
@[simp] theorem State.wf_trackOn (r : PartRec) (asid : Nat) : memWf (s.trackOn r asid).mem = true := State.wf_performWrite h ..

@[simp] theorem State.wf_performPart (part : Nat) : memWf (s.performPart part).mem = true :=
  State.wf_performAll (foldl_wf _ (fun _ b ht => State.wf_performAmons ht b) _ _ h) _

/-- A harvest exchanges the bitmap's words for 0 (R360). -/
@[simp] theorem State.wf_harvest (r : PartRec) (asid : Nat) : memWf (s.harvest r asid).2.mem = true := by
  simp only [State.harvest]
  split
  · exact h
  · refine foldl_wf _ (fun t q ht => ?_) _ _ (State.wf_performPart h _)
    exact State.wf_performWrite ht ..

@[simp] theorem State.wf_migHarvest (part : Nat) (j : Job) : memWf (s.migHarvest part j).mem = true := by
  simp only [State.migHarvest]
  split
  · exact h
  · rw [State.mem_emitFrom]
    refine foldl_wf _ (fun t a ht => ?_) _ _ h
    exact State.wf_harvest ht ..

@[simp] theorem State.wf_migFinish (job : Nat) : memWf (s.migFinish job).mem = true := by
  simp only [State.migFinish]
  repeat' split
  all_goals simp [h]

@[simp] theorem State.wf_migStart (part arg : Nat) : memWf (s.migStart part arg).mem = true := by
  simp only [State.migStart]
  split
  · split
    · exact h
    · rw [State.mem_emitFrom]
      refine foldl_wf _ (fun t a ht => ?_) _ _ ?_
      · exact ht
      · rw [State.mem_modPart]
        exact foldl_wf _ (fun t a ht => State.wf_trackOn ht ..) _ _ (State.wf_performPart h _)
  · exact h

@[simp] theorem State.wf_migRound (part : Nat) : memWf (s.migRound part).mem = true := by
  simp only [State.migRound]
  repeat' split
  all_goals simp [h]

@[simp] theorem State.wf_migStop (part : Nat) : memWf (s.migStop part).mem = true := by
  simp only [State.migStop]
  split
  · exact h
  split
  · exact h
  split
  · exact h
  · refine State.wf_migFinish (foldl_wf _ (fun t q ht => ?_) _ _ ?_) _
    · exact ht
    · exact h

@[simp] theorem State.wf_takeAnswer (b : BankId) : memWf (s.takeAnswer b).mem = true := by
  simp only [State.takeAnswer]
  repeat' split
  all_goals simp [h]

@[simp] theorem State.wf_migCancel (part : Nat) : memWf (s.migCancel part).mem = true := by
  simp only [State.migCancel]
  split
  · exact h
  split
  · exact h
  split
  · exact h
  split
  · exact h
  · rw [State.mem_modJob]
    refine foldl_wf _ (fun t q ht => ?_) _ _ (by exact h)
    exact State.wf_takeAnswer (by simpa using ht) _

@[simp] theorem State.wf_migrate (part op arg : Nat) : memWf (s.migrate part op arg).mem = true := by
  simp only [State.migrate]
  repeat' split
  all_goals simp [h]

/-- What a write of the partition's register window does to memory (R379). -/
@[simp] theorem State.wf_windowWrite (part off size : Nat) (v : Word) : memWf (s.windowWrite part off size v).mem = true := by
  simp only [State.windowWrite]
  repeat' split
  all_goals simp [h]

end

end Sys2Proof.Machine

/-! ### Loads, stores, atomics, waits and fences: what they write (R217 to R232). -/
namespace Sys2Proof.Machine

theorem Tr.state_looped (t : Tr) (s : State) : t.looped.state s = t.state s := by
  cases t <;> rfl

/-- Finding where an access lies changes memory by its translation alone, which keeps it canonical. -/
theorem locate_wf {s t : State} {b : BankId} {asid : Nat} {r : SpanReg} {n addr : Nat} {write : Bool} {cause : Nat} {w : Where}
    (h : memWf s.mem = true) (hl : locate s b asid r n addr write cause = .ok (w, t)) : memWf t.mem = true := by
  have answers : ∀ q : Tr, memWf (q.state s).mem = true → ∀ x u, q = .ok x u → memWf u.mem = true := by
    rintro _ hq x u rfl
    exact hq
  have ht := answers _ (s.translateFor_wf (holdersOf b.core) (s.bank b).part asid addr write h)
  have hx := fun off => answers (s.exportXlat off write).looped (by rw [Tr.state_looped]; exact s.exportXlat_wf off write h)
  simp only [locate, State.translate] at hl
  repeat' split at hl
  all_goals grind

/-! Loads (R221, R222). -/

@[simp] theorem State.mem_remoteWrite (s : State) (dev off : Nat) (bs : List Byte) : (s.remoteWrite dev off bs).mem = s.mem := rfl
@[simp] theorem State.mem_remoteRead (s : State) (dev off n : Nat) : (s.remoteRead dev off n).2.mem = s.mem := rfl

@[simp] theorem State.mem_loadDone (s : State) (b : BankId) (rd : Dst) (sign pair : Bool) (bs : List Byte) :
    (s.loadDone b rd sign pair bs).state.mem = s.mem := by
  simp only [State.loadDone, Ev.andThen]
  split <;> simp

theorem State.mem_l1Read {s t : State} {b : BankId} {place n : Nat} {bs : List Byte} (hr : s.l1Read b place n = some (bs, t)) :
    t.mem = s.mem := by
  simp only [State.l1Read, Option.map_eq_some_iff, Prod.mk.injEq] at hr
  obtain ⟨l, -, -, rfl⟩ := hr
  split <;> rfl

theorem State.mem_l1Read_if {s t : State} {b : BankId} {place n : Nat} {bs : List Byte} {c : Prop} [Decidable c]
    (hr : (if c then s.l1Read b place n else none) = some (bs, t)) : t.mem = s.mem := by
  split at hr
  · exact State.mem_l1Read hr
  · cases hr

@[simp] theorem State.mem_readPlace (s : State) (b : BankId) (p n : Nat) (x : Option Xlat) : (s.readPlace b p n x).mem = s.mem := by
  simp only [State.readPlace]
  split <;> simp

@[simp] theorem State.mem_missRead (s : State) (b : BankId) (place n : Nat) : (s.missRead b place n).2.mem = s.mem := by
  simp only [State.missRead]
  split <;> simp

@[simp] theorem State.mem_holdEcc (s : State) (b : BankId) (l : OutLoad) : (s.holdEcc b l).mem = s.mem := by
  simp only [State.holdEcc]
  split <;> rfl

section
variable {s : State} (h : memWf s.mem = true)
include h

/-- A load writes no byte: memory changes by its translation at most. -/
theorem weakLoad_wf (rd : Dst) (m : MemRef) (n : Nat) (sign pair : Bool) (b : BankId) :
    memWf (weakLoad rd m n sign pair s b).state.mem = true := by
  refine Ev.andThen_wf h ?_
  rintro ⟨addr, r⟩ -
  dsimp only
  split
  · exact h
  · next hl => simpa using locate_wf h hl
  · next hl => simpa using locate_wf h hl
  · next hl =>
    have ht := locate_wf h hl
    split
    · exact ht
    split
    · exact ht
    split
    · simpa using ht
    split
    · next hr => simpa [State.mem_l1Read hr] using ht
    · exact ht

theorem State.loadEcc_wf {t : State} {b : BankId} {l : OutLoad} {younger : List OutLoad} (he : s.loadEcc b l younger = some t) :
    memWf t.mem = true := by
  simp only [State.loadEcc] at he
  split at he
  · cases he
    exact State.wf_trapC (by exact h) ..
  · cases he

theorem State.loadsEcc_wf {t : State} {b : BankId} {l : List OutLoad} (he : s.loadsEcc b l = some t) : memWf t.mem = true := by
  induction l with
  | nil => cases he
  | cons q l ih =>
    rcases Option.or_eq_some_iff.mp he with he | ⟨-, he⟩
    · exact State.loadEcc_wf h he
    · exact ih he

theorem execLoadReturn_canonical (b : BankId) (id : Nat) : Canonical (execLoadReturn b id s) := by
  simp only [execLoadReturn]
  split
  · simpa using h
  split
  · next he => simpa using State.loadsEcc_wf h he
  split
  · simpa using h
  · next l _ _ _ _ =>
    have hr : (((s.holdEcc b l).l1Read b l.place l.size).getD ((s.holdEcc b l).missRead b l.place l.size)).2.mem = s.mem := by
      cases hl : (s.holdEcc b l).l1Read b l.place l.size with
      | none => simp
      | some q => simpa using State.mem_l1Read hl
    split <;> simp [hr, h]

/-! Stores (R199, R221). -/

theorem weakStore_wf (m : MemRef) (n : Nat) (dev : Bool) (data : Bank → Ev (List Byte × Bank)) (b : BankId) :
    memWf (weakStore m n dev data s b).state.mem = true := by
  refine Ev.andThen_wf h ?_
  rintro ⟨bs, q, addr, r⟩ -
  dsimp only
  split
  · split <;> simp [h]
  · next hl => simp [locate_wf h hl]
  · next hl => simp [locate_wf h hl]
  · next hl => split <;> simp [locate_wf h hl]

theorem execLda_canonical (g : Guard) (sz : BitVec 2) (sc : Scope) (rd : Dst) (m : MemRef) : Canonical (execLda g sz sc rd m s) := by
  refine runC_canonical h fun b => Ev.andThen_wf h ?_
  rintro ⟨addr, r⟩ -
  dsimp only
  split
  · exact h
  · next hl => simpa using locate_wf h hl
  · next hl => simpa using locate_wf h hl
  · next hl =>
    have ht := locate_wf h hl
    split
    · exact ht
    split
    · exact ht
    split
    · next hr =>
      rw [State.mem_loadDone]
      split <;> simp [State.mem_l1Read_if hr, ht]
    · simpa using ht

theorem execStl_canonical (g : Guard) (sz : BitVec 2) (sc : Scope) (rs : Src) (m : MemRef) : Canonical (execStl g sz sc rs m s) := by
  refine runC_canonical h fun b => Ev.andThen_wf h ?_
  rintro ⟨bs, q, addr, r⟩ -
  dsimp only
  split
  · exact h
  · next hl =>
    refine releaseC_wf (locate_wf h hl) fun t ids ht => Ev.andThen_wf ht ?_
    rintro ⟨_, q⟩ -
    dsimp only
    split
    · simp [ht]
    · simp [ht]
    · split <;> simp [ht]

/-! Atomics (R223 to R227). -/

theorem releaseOn_wf {b : BankId} {path : Nat} {sc : Scope} {f : State → List Nat → Res}
    (hf : ∀ t ids, memWf t.mem = true → memWf (f t ids).state.mem = true) : memWf (releaseOn s b path sc f).state.mem = true := by
  simp only [releaseOn]
  split
  · exact releaseC_wf h hf
  split
  · exact h
  have hp : memWf (if path = 3 then s.performAll (s.bankAlu b) else s).mem = true := by
    split <;> simp [h]
  split
  · exact hp
  · exact hf _ _ hp

theorem atomicSetup_wf {returns : Bool} {srcs : List Src} {dsts : List Dst} {path perm : Nat} {m : MemRef} {n : Nat} {b : BankId}
    {f : State → List Word → Bank → Where → Nat → Res} (hf : ∀ t vs q w addr, memWf t.mem = true → memWf (f t vs q w addr).state.mem = true) :
    memWf (atomicSetup returns srcs dsts path perm m n s b f).state.mem = true := by
  refine Ev.andThen_wf h ?_
  rintro ⟨vs, q, addr, r⟩ -
  dsimp only
  split
  · exact h
  · next hl =>
    have ht := locate_wf h hl
    split
    · repeat' split
      · exact ht
      · exact ht
      · exact ht
      · exact hf _ _ _ _ _ ht
    · exact hf _ _ _ _ _ ht

end

@[simp] theorem State.mem_acquireOn (s : State) (b : BankId) (path : Nat) (sc : Scope) (place n : Nat) :
    (s.acquireOn b path sc place n).mem = s.mem := by
  simp only [State.acquireOn]
  split <;> simp

@[simp] theorem State.mem_remoteAtomic (s : State) (dev off : Nat) (a : RemoteAtomic) : (s.remoteAtomic dev off a).mem = s.mem := rfl

section
variable {s : State} (h : memWf s.mem = true)
include h

/-- An evaluation whose value changes no more than banks. -/
theorem Ev.andThen_done_wf {α : Type} {e : Ev α} {f : α → State} (hf : ∀ a, (f a).mem = s.mem) :
    memWf (e.andThen s (fun a => .done (f a))).state.mem = true :=
  Ev.andThen_wf h fun a _ => (hf a).symm ▸ h

/-- An effect that a release precedes, or not. -/
theorem releaseIf_wf {b : BankId} {path : Nat} {sc : Scope} {rel : Prop} [Decidable rel] {f : State → List Nat → Res}
    (hf : ∀ t ids, memWf t.mem = true → memWf (f t ids).state.mem = true) :
    memWf (if rel then releaseOn s b path sc f else f s []).state.mem = true := by
  split
  · exact releaseOn_wf h hf
  · exact hf _ _ h

/-- An atomic that returns its old value writes the new one at its place (R223). -/
theorem atomicReturn_wf (path : Nat) (op : Option AmoOp) (ty : AmoTy) (ord : Order) (sc : Scope) (rd : Dst) (m : MemRef)
    (srcs : List Src) (b : BankId) : memWf (atomicReturn path op ty ord sc rd m srcs s b).state.mem = true := by
  rw [atomicReturn]
  refine atomicSetup_wf h fun t vs q w addr ht => ?_
  refine releaseIf_wf ht fun u ids hu => ?_
  split
  · refine Ev.andThen_done_wf (State.wf_rmw ?_ ..) fun k => rfl
    repeat' split
    all_goals simpa using hu
  · refine Ev.andThen_done_wf ?_ fun k => rfl
    split <;> simpa using hu
  · exact hu

/-- A return-free atomic only joins the accepted ones (R227). -/
theorem atomicAccept_wf (path : Nat) (op : AmoOp) (ty : AmoTy) (rel : Bool) (sc : Scope) (m : MemRef) (src : Src) (b : BankId) :
    memWf (atomicAccept path op ty rel sc m src s b).state.mem = true := by
  rw [atomicAccept]
  refine atomicSetup_wf h fun t vs q w addr ht => ?_
  refine releaseIf_wf ht fun u ids hu => ?_
  split <;> exact hu

theorem execAmonPerform_canonical (b : BankId) (id : Nat) : Canonical (execAmonPerform b id s) := by
  simp only [execAmonPerform]
  repeat' split
  all_goals simp [h]

end

/-! WAITA, fences, PREF and FLUSH (R204, R209, R228 to R232). -/

@[simp] theorem mem_waitaTrap (rs2 rs3 : Src) (s : State) (b : BankId) (t : TrapInfo) : (waitaTrap rs2 rs3 s b t).state.mem = s.mem := by
  simp only [waitaTrap]
  split <;> rfl

@[simp] theorem State.mem_fenceAcquire (s : State) (b : BankId) (sc : Scope) : (s.fenceAcquire b sc).mem = s.mem := by
  simp [State.fenceAcquire]

@[simp] theorem State.mem_wake (s : State) (i : StreamId) (tags : List WaitTag) : (s.wake i tags).mem = s.mem := by
  simp only [State.wake]
  repeat' split
  all_goals rfl

section
variable {s : State} (h : memWf s.mem = true)
include h

theorem execWaita_canonical (g : Guard) (cc : Cond) (wide : Bool) (sc : Option Scope) (rd : Dst) (m : MemRef) (rs2 rs3 : Src) :
    Canonical (execWaita g cc wide sc rd m rs2 rs3 s) := by
  refine runC_canonical h fun b => Ev.andThen_wf h ?_
  rintro ⟨c, dl, q, addr, r⟩ -
  dsimp only
  split
  · simpa using h
  next w t hl =>
  have ht := locate_wf h hl
  generalize (if wide = true then 8 else 4) = n
  split
  · next r hr =>
    cases w with
    | place p x =>
      dsimp only at hr
      split at hr
      · cases hr
        simpa using ht
      split at hr
      · cases hr
      · obtain ⟨tag, -, rfl⟩ := Option.map_eq_some_iff.mp hr
        exact ht
    | reg off => cases hr
    | remote d o => cases hr
  · cases w <;> cases sc
    all_goals
      dsimp only
      split
      · exact Ev.andThen_done_wf (by simpa using ht) fun k => rfl
      · simpa using ht

theorem execFence_canonical (g : Guard) (o : Order) (sc : Scope) : Canonical (execFence g o sc s) := by
  refine runC_canonical h fun b => ?_
  split
  · refine releaseC_wf h fun t ids ht => ?_
    dsimp only
    split <;> simpa using ht
  dsimp only
  split
  · exact h
  split <;> simpa using h

theorem State.wf_performCovered (b : BankId) : memWf (s.performCovered b).mem = true :=
  foldl_wf _ (fun _ id ht => State.wf_performStore ht id) _ _ h

theorem execFenceP_canonical (g : Guard) (mask : BitVec 6) : Canonical (execFenceP g mask s) := by
  refine runC_canonical h fun b => ?_
  have he : memWf (s.performEngines b mask).mem = true := State.wf_performAll h _
  have hp : memWf (if mask.getLsbD 0 then (s.performEngines b mask).performCovered b else s.performEngines b mask).mem = true := by
    split
    · exact State.wf_performCovered he b
    · exact he
  split
  · exact h
  dsimp only
  generalize (if mask.getLsbD 0 then (s.performEngines b mask).performCovered b else s.performEngines b mask) = t at hp ⊢
  split
  · exact hp
  · dsimp only [Res.state_done]
    split
    · simpa using hp
    · exact hp

theorem execPref_canonical (g : Guard) (m : MemRef) : Canonical (execPref g m s) := by
  refine runC_canonical h fun b => Ev.andThen_wf h ?_
  rintro ⟨addr, r⟩ -
  dsimp only
  split
  · split <;> exact h
  · next hl => split <;> simpa using locate_wf h hl
  · next hl => exact (locate_wf h hl :)

/-- FLUSH writes back what stands in the cluster's cache, at `.di` and wider (R232). -/
@[simp] theorem State.wf_flushLine (b : BankId) (place : Nat) (sc : Scope) : memWf (s.flushLine b place sc).mem = true := by
  simp only [State.flushLine]
  split
  · exact h
  · rw [State.mem_dirLeave]
    exact State.wf_performAll (by exact h) _

theorem execFlush_canonical (g : Guard) (sc : Scope) (m : MemRef) : Canonical (execFlush g sc m s) := by
  refine runC_canonical h fun b => Ev.andThen_wf h ?_
  rintro ⟨addr, r⟩ -
  dsimp only
  split
  · split <;> exact h
  · next hl => split <;> simp [locate_wf h hl]
  · next hl => exact (locate_wf h hl :)

theorem execWaitDeadline_canonical (b : BankId) : Canonical (execWaitDeadline b s) := by
  simp only [execWaitDeadline]
  repeat' split
  all_goals simpa using h

end
end Sys2Proof.Machine

/-! ### Control, queues, flags, hanks and rendezvous: what they write (R186 to R191, R280 to R295). -/
namespace Sys2Proof.Machine

section
variable {s : State} (h : memWf s.mem = true)
include h

theorem execBr_canonical (g : Guard) (off : BitVec 26) : Canonical (execBr g off s) := runC_canonical h fun _ => h
theorem execCall_canonical (g : Guard) (l : BitVec 6) (off : BitVec 26) : Canonical (execCall g l off s) := runC_canonical h fun _ => h

theorem execBc_canonical (g : Guard) (cc : Cond) (ra rb : Src) (off : BitVec 26) : Canonical (execBc g cc ra rb off s) := by
  refine runC_canonical h fun b => Ev.andThen_wf h ?_
  rintro ⟨u, v, q⟩ -
  dsimp only
  split <;> exact h

theorem jumpTo_wf (ra : Src) (link : Option (BitVec 6)) (b : BankId) : memWf (jumpTo ra link s b).state.mem = true := by
  refine Ev.andThen_wf h ?_
  rintro ⟨t, q⟩ -
  simpa using h

theorem execLoop_canonical (g : Guard) (lcn : BitVec 2) (ra rb : Src) (off : BitVec 26) : Canonical (execLoop g lcn ra rb off s) := by
  refine runC_canonical h fun b => Ev.andThen_wf h ?_
  rintro ⟨q, stop, enter⟩ -
  exact h

/-! Flags (R283, R284). -/

theorem flagWrite_wf (fl : BitVec 4) (v : Bool) (b : BankId) : memWf (flagWrite fl v s b).state.mem = true := by
  rw [flagWrite]
  split <;> exact h

theorem execFlwait_canonical (g : Guard) (rd ra : BitVec 6) (v : Bool) (fl : BitVec 4) : Canonical (execFlwait g rd ra v fl s) := by
  refine runC_canonical h fun b => ?_
  dsimp only
  repeat' split
  all_goals simpa using h

end

/-! Hanks (R286 to R293). -/

@[simp] theorem State.mem_answerWait (s : State) (b : BankId) (vals : List Word) : (s.answerWait b vals).mem = s.mem := rfl

@[simp] theorem mem_grantSteps (n : Nat) (s : State) (home : BankId) (hn : BitVec 4) : (grantSteps n s home hn).mem = s.mem := by
  induction n generalizing s with
  | zero => rfl
  | succ n ih =>
    simp only [grantSteps]
    repeat' split
    · rw [ih, State.mem_answerWait, State.mem_modBank]
    all_goals rfl

@[simp] theorem State.mem_grantClaims (s : State) (home : BankId) (hn : BitVec 4) : (s.grantClaims home hn).mem = s.mem :=
  mem_grantSteps ..

@[simp] theorem mem_sendHub (s : State) (b : BankId) (core : BitVec 6) (hn : BitVec 4) (commit : Bool) (pos : Word32) (n : Word)
    (ids : List Nat) : (sendHub s b core hn commit pos n ids).state.mem = s.mem := rfl

@[simp] theorem mem_hubArrive (s : State) (m : HubMsg) (home : BankId) : (hubArrive s m home).1.mem = s.mem := by
  simp only [hubArrive]
  repeat' split
  all_goals rfl

@[simp] theorem State.mem_hankAcquire (s : State) (b : BankId) (hn : BitVec 4) : (s.hankAcquire b hn).mem = s.mem := by
  simp [State.hankAcquire]

section
variable {s : State} (h : memWf s.mem = true)
include h

theorem remoteHank_wf {hn : BitVec 4} {send : State → Res} {fin : State → Word → Res} {b : BankId}
    (hs : memWf (send s).state.mem = true) (hf : ∀ r, memWf (fin s r).state.mem = true) :
    memWf (remoteHank hn send fin s b).state.mem = true := by
  simp only [remoteHank]
  split
  · exact hf _
  · exact h
  · exact h
  · exact hs

theorem execHbind_canonical (g : Guard) (hn : BitVec 4) (ra : BitVec 6) : Canonical (execHbind g hn ra s) := by
  refine runC_canonical h fun b => Ev.andThen_wf h fun _ _ => ?_
  repeat' split
  all_goals exact h

theorem execHclaim_canonical (g : Guard) (hn : BitVec 4) (rd ra : BitVec 6) : Canonical (execHclaim g hn rd ra s) := by
  refine runC_canonical h fun b => ?_
  dsimp only
  repeat' split
  all_goals simpa using h

theorem execHclaimR_canonical (g : Guard) (hn : BitVec 4) (rd ra core : BitVec 6) : Canonical (execHclaimR g hn rd ra core s) :=
  runC_canonical h fun _ => remoteHank_wf h h fun _ => h

theorem execHcommit_canonical (g : Guard) (hn : BitVec 4) (ra rb : BitVec 6) : Canonical (execHcommit g hn ra rb s) := by
  refine runC_canonical h fun b => ?_
  dsimp only
  split
  · exact h
  split
  · exact h
  refine releaseC_wf h fun t ids ht => ?_
  split <;> exact ht

theorem execHcommitR_canonical (g : Guard) (hn : BitVec 4) (ra rb core : BitVec 6) : Canonical (execHcommitR g hn ra rb core s) :=
  runC_canonical h fun _ => remoteHank_wf h (releaseC_wf h fun _ _ ht => ht) fun _ => h

theorem execHankRemoteMessage_canonical (id : Nat) : Canonical (execHankRemoteMessage id s) := by
  simp only [execHankRemoteMessage]
  repeat' split
  all_goals simp [h]

theorem execHwaitf_canonical (g : Guard) (hn : BitVec 4) (rd ra : BitVec 6) : Canonical (execHwaitf g hn rd ra s) := by
  refine runC_canonical h fun b => Ev.andThen_wf h ?_
  rintro ⟨k, geo⟩ -
  dsimp only
  repeat' split
  all_goals simpa using h

theorem execHwaite_canonical (g : Guard) (hn : BitVec 4) (rd ra : BitVec 6) : Canonical (execHwaite g hn rd ra s) := by
  refine runC_canonical h fun b => Ev.andThen_wf h ?_
  rintro ⟨k, geo⟩ -
  dsimp only
  repeat' split
  all_goals exact h

theorem execHtake_canonical (g : Guard) (hn : BitVec 4) (rd ra : BitVec 6) : Canonical (execHtake g hn rd ra s) := by
  refine runC_canonical h fun b => Ev.andThen_wf h ?_
  rintro ⟨k, geo⟩ -
  dsimp only
  repeat' split
  all_goals simpa using h

/-- HDONE performs the stream's own stores (R292). -/
theorem execHdone_canonical (g : Guard) (hn : BitVec 4) (ra : BitVec 6) : Canonical (execHdone g hn ra s) := by
  have hown (b : BankId) : memWf (s.performOwn b).mem = true := State.wf_performAll h _
  refine runC_canonical h fun b => Ev.andThen_wf h ?_
  rintro ⟨k, geo⟩ -
  dsimp only
  repeat' split
  all_goals simp [h, hown]

/-! Rendezvous (R294). -/

theorem rdvLeave_wf (kind : StreamKind) (ext : RdvExt) (j : Job) (a : Arrival) (b : BankId) :
    memWf (rdvLeave kind ext j a s b).state.mem = true := by
  cases kind with
  | c => simpa [rdvLeave] using h
  | g => exact h

/-- A C stream that arrives releases first (R294). -/
theorem rdvRun_wf (cls : RdvCls) (ext : RdvExt) (id : BitVec 6) (kind : StreamKind) (b : BankId) :
    memWf (rdvRun cls ext id kind s b).state.mem = true := by
  have hleave (j : Job) (a : Arrival) := rdvLeave_wf h kind ext j a b
  have harrive (a : Arrival) (job : Nat) : memWf (rdvArrive a id job s b).state.mem = true := h
  have hrelease (a : List Nat → Arrival) (job : Nat) :
      memWf (releaseC s b (rdvScope ext) (fun t ids => rdvArrive (a ids) id job t b)).state.mem = true :=
    releaseC_wf h fun _ _ ht => ht
  simp only [rdvRun]
  repeat' split
  all_goals simp [h, hleave, harrive, hrelease]

theorem execRdv_canonical (g : Guard) (cls : RdvCls) (ext : RdvExt) (id : BitVec 6) : Canonical (execRdv g cls ext id s) := by
  rw [execRdv]
  split
  · exact runC_canonical h fun b => rdvRun_wf h ..
  · exact runG_canonical h fun b => rdvRun_wf h ..

/-! The end of a C stream (R295). -/

theorem execYieldC_canonical (g : Guard) : Canonical (execYieldC g s) := by
  refine runC_canonical h fun b => ?_
  repeat' split
  all_goals exact h

/-- END performs what the stream's last release covers (R214). -/
theorem execEndC_canonical (g : Guard) : Canonical (execEndC g s) := by
  have hr : memWf (releaseC s s.cur.bank .dv (fun t _ => .done t)).state.mem = true := releaseC_wf h fun _ _ ht => ht
  simp only [execEndC]
  split
  · rw [canonical_next]
    split
    · next he =>
      rw [he] at hr
      simpa using hr
    · exact finishC_wf hr ..
  · exact canonical_next.mpr (finishC_wf (r := .done s) h ..)

theorem execRdvOpen_canonical (job id n slot : Nat) : Canonical (execRdvOpen job id n slot s) := by
  simp only [execRdvOpen]
  repeat' split
  all_goals simpa using h

end
end Sys2Proof.Machine

/-! ### Span storage, overlays, images and moves of 512 bits: what they write (R148, R331, R337, R343). -/
namespace Sys2Proof.Machine

theorem Res.wf_ite {c : Prop} [Decidable c] {r q : Res} (hr : memWf r.state.mem = true) (hq : memWf q.state.mem = true) :
    memWf (if c then r else q).state.mem = true := by
  split
  · exact hr
  · exact hq

section
variable {s : State} (h : memWf s.mem = true)
include h

theorem spanStorePlace_wf {t : State} {m : MemRef} {write : Bool} {b : BankId} {pa addr : Nat}
    (he : spanStorePlace m write s b = .ok (pa, addr, t)) : memWf t.mem = true := by
  simp only [spanStorePlace] at he
  split at he
  · cases he
  split at he
  · cases he
  split at he
  · cases he
  split at he
  · cases he
  · cases he
  · next hx =>
    have ht := State.translateFor_ok_wf hx h
    split at he
    · cases he
    split at he
    · cases he
    · cases he
      exact ht

theorem execSpld_canonical (g : Guard) (bd : BitVec 4) (m : MemRef) : Canonical (execSpld g bd m s) := by
  refine runC_canonical h fun b => ?_
  split
  · exact h
  · next he =>
    have ht := spanStorePlace_wf h he
    split <;> exact ht

theorem execSpst_canonical (g : Guard) (bs : BitVec 4) (m : MemRef) : Canonical (execSpst g bs m s) := by
  refine runC_canonical h fun b => ?_
  split
  · exact h
  · next pa addr t he =>
    have ht := State.wf_settle (spanStorePlace_wf h he) b pa 32
    dsimp only [Res.state_done]
    exact State.wf_performWrite ht ..

theorem execHostMemoryWrite_canonical (pa : Nat) (data : List Byte) : Canonical (execHostMemoryWrite pa data s) := by
  rw [execHostMemoryWrite]
  split
  · simpa using h
  · exact canonical_next.mpr (State.wf_performWrite (State.wf_landHome h ..) ..)

theorem execOvld_canonical (g : Guard) (rd : Dst) (ra rb : Src) : Canonical (execOvld g rd ra rb s) := by
  refine runC_canonical h fun b => Ev.andThen_wf h ?_
  rintro ⟨t, o, q⟩ -
  dsimp only
  split
  · exact h
  · next hf => exact (State.fetchOverlay_wf h hf :)
  · next hf => exact (State.fetchOverlay_wf h hf :)

theorem execOvldG_canonical (g : Guard) (ra rb : Src) : Canonical (execOvldG g ra rb s) := by
  refine runC_canonical h fun b => Ev.andThen_wf h ?_
  rintro ⟨t, n, o, q⟩ -
  dsimp only
  split
  · split
    · split
      · exact h
      · next hf => exact (State.fetchOverlay_wf h hf :)
      · next hf => exact (State.fetchOverlay_wf h hf :)
    · exact h
  · exact h

@[simp] theorem State.wf_logImage (part asid va : Nat) : memWf (s.logImage part asid va).mem = true := by
  simp only [State.logImage]
  repeat' split
  all_goals simp [h]

/-- A move of 512 bits into a register reads, and goes on (R148). -/
theorem load512_wf {m : MemRef} {owned : Option (BitVec 5)} {b : BankId} {f : State → BitVec 512 → Res}
    (hf : ∀ t v, memWf t.mem = true → memWf (f t v).state.mem = true) : memWf (load512 m owned s b f).state.mem = true := by
  refine Ev.andThen_wf h ?_
  rintro ⟨addr, r⟩ -
  dsimp only
  refine Res.wf_ite h ?_
  split
  · exact h
  · next p x t hl =>
    have ht := locate_wf h hl
    split
    · exact ht
    refine Res.wf_ite ht (hf _ _ ?_)
    cases hr : (if uncachedAt p x then none else t.l1Read b p 64) with
    | none => exact ht
    | some q =>
      split at hr
      · cases hr
      · simpa [State.mem_l1Read hr] using ht
  · next hl => exact hf _ _ (by simpa using locate_wf h hl)
  · next hl => exact hf _ _ (locate_wf h hl)

theorem execTdef_canonical (g : Guard) (t : BitVec 5) (m : MemRef) : Canonical (execTdef g t m s) := by
  refine runC_canonical h fun b => load512_wf h fun t v ht => ?_
  dsimp only
  split <;> exact ht

theorem execTld_canonical (g : Guard) (t : BitVec 5) (m : MemRef) : Canonical (execTld g t m s) := by
  refine runC_canonical h fun b => load512_wf h fun t v ht => ?_
  split <;> exact ht

theorem execMld_canonical (g : Guard) (mr : BitVec 3) (m : MemRef) : Canonical (execMld g mr m s) :=
  runC_canonical h fun _ => load512_wf h fun _ _ ht => ht

end
end Sys2Proof.Machine

/-! ### Accesses of the engines: what they write (R199, R207). -/
namespace Sys2Proof.Machine

@[simp] theorem EngCtx.mem_share (c : EngCtx) (s : State) (place : Nat) (x : Option Xlat) : (c.share s place x).mem = s.mem := by
  simp only [EngCtx.share]
  split
  · rfl
  · simp

@[simp] theorem EngCtx.mem_noteFault (c : EngCtx) (s : State) (addr : Nat) (f : EFault) : (c.noteFault s addr f).mem = s.mem := by
  cases f <;> simp [EngCtx.noteFault]

section
variable {s : State} (h : memWf s.mem = true)
include h

theorem engPlace_wf {t : State} {c : EngCtx} {addr : Nat} {write : Bool} {w : Where} (he : engPlace s c addr write = .ok (w, t)) :
    memWf t.mem = true := by
  have answers : ∀ q : Tr, memWf (q.state s).mem = true → ∀ x u, q = .ok x u → memWf u.mem = true := by
    rintro _ hq x u rfl
    exact hq
  have ht := answers _ (s.translateFor_wf c.hs c.part c.asid addr write h)
  have hx := fun off => answers (s.exportXlat off write).looped (by rw [Tr.state_looped]; exact s.exportXlat_wf off write h)
  simp only [engPlace] at he
  repeat' split at he
  all_goals grind

@[simp] theorem EngCtx.wf_write (c : EngCtx) (va place : Nat) (x : Option Xlat) (bs : List Byte) (rels : List (Scope × List Nat)) :
    memWf (c.write s va place x bs rels).mem = true := by
  simp only [EngCtx.write]
  split <;> simp [h]

end

theorem engRead_wf {c : EngCtx} (fuel : Nat) : ∀ {s t : State} {addr n : Nat} {bs : List Byte},
    memWf s.mem = true → engRead c fuel s addr n = .ok (bs, t) → memWf t.mem = true := by
  induction fuel with
  | zero => intro s t addr n bs h e; cases e; exact h
  | succ fuel ih =>
    intro s t addr n bs h e
    simp only [engRead] at e
    split at e
    · cases e; exact h
    split at e
    · cases e
    next w u hu =>
    have hu' := engPlace_wf h hu
    split at e
    · cases e
    next bs' v hv =>
    have hv' : memWf v.mem = true := by
      repeat' split at hv
      all_goals cases hv
      · simpa using hu'
      · exact hu'
    split at e
    · cases e
    next hr =>
    cases e
    exact ih hv' hr

theorem State.engLoad_wf {s t : State} {c : EngCtx} {addr n : Nat} {bs : List Byte} (h : memWf s.mem = true)
    (he : s.engLoad c addr n = .ok (bs, t)) : memWf t.mem = true := engRead_wf _ h he

theorem engWrite_wf (c : EngCtx) (fuel : Nat) : ∀ {s : State} (addr : Nat) (bs : List Byte),
    memWf s.mem = true → memWf (engWrite c fuel s addr bs).1.mem = true := by
  induction fuel with
  | zero => intro s addr bs h; exact h
  | succ fuel ih =>
    intro s addr bs h
    simp only [engWrite]
    split
    · exact h
    split
    · simpa using h
    next w u hu =>
    have hu' := engPlace_wf h hu
    apply ih
    split
    · exact EngCtx.wf_write hu' ..
    · exact hu'
    · exact hu'

section
variable {s : State} (h : memWf s.mem = true)
include h

@[simp] theorem State.wf_engStore (c : EngCtx) (addr : Nat) (bs : List Byte) : memWf (s.engStore c addr bs).1.mem = true :=
  engWrite_wf c _ addr bs h

@[simp] theorem State.wf_engStoreUnit (c : EngCtx) (addr : Nat) (bs : List Byte) :
    memWf (s.engStoreUnit c addr bs).1.mem = true := by
  simp only [State.engStoreUnit]
  split
  · split
    · simpa using h
    · next hp => exact EngCtx.wf_write (engPlace_wf h hp) ..
    · next hp => exact State.wf_engStore (engPlace_wf h hp) ..
  · exact State.wf_engStore h ..

theorem State.engStore_wf {c : EngCtx} {addr : Nat} {bs : List Byte} {t : State} {e : Option (Nat × EFault)}
    (he : s.engStore c addr bs = (t, e)) : memWf t.mem = true := by
  have ht := State.wf_engStore h c addr bs
  rwa [he] at ht

theorem State.engStoreUnit_wf {c : EngCtx} {addr : Nat} {bs : List Byte} {t : State} {e : Option (Nat × EFault)}
    (he : s.engStoreUnit c addr bs = (t, e)) : memWf t.mem = true := by
  have ht := State.wf_engStoreUnit h c addr bs
  rwa [he] at ht

theorem readElem_wf {t : State} {c : EngCtx} {d : Desc} {bf : Word} {x : List Nat} {v : Nat × Nat}
    (he : readElem c d bf s x = .ok (v, t)) : memWf t.mem = true := by
  simp only [readElem] at he
  split at he
  · cases he
  next hl =>
  have hu := State.engLoad_wf h hl
  split at he
  · split at he
    · cases he
    · next hl' =>
      cases he
      exact State.engLoad_wf hu hl'
  · cases he
    exact hu

end

theorem readElems_wf {c : EngCtx} {d : Desc} {bf : Word} (xs : List (List Nat)) : ∀ {s t : State} {vs : List (Nat × Nat)},
    memWf s.mem = true → readElems c d bf s xs = .ok (vs, t) → memWf t.mem = true := by
  induction xs with
  | nil => intro s t vs h e; cases e; exact h
  | cons x xs ih =>
    intro s t vs h e
    simp only [readElems] at e
    split at e
    · cases e
    next hx =>
    split at e
    · cases e
    next hxs =>
    cases e
    exact ih (readElem_wf h hx) hxs

@[simp] theorem writeUnits_wf (c : EngCtx) (cause : Nat) (l : List (Nat × List Nat)) : ∀ {s : State} (low : Option (Nat × Nat)),
    memWf s.mem = true → memWf (writeUnits c cause l s low).1.mem = true := by
  induction l with
  | nil => intro s low h; exact h
  | cons x l ih =>
    intro s low h
    exact ih _ (State.wf_engStoreUnit h ..)

end Sys2Proof.Machine

/-! ### Grid operations: issue, messages and the root's decision (R135, R141): none of them writes memory. -/
namespace Sys2Proof.Machine

@[simp] theorem State.mem_sendSpindle (s : State) (job number : Nat) (tag : Option Nat) (src : Coord) (core : Nat) (dst : Coord)
    (body : SpMsg) : (s.sendSpindle job number tag src core dst body).mem = s.mem := rfl
@[simp] theorem State.mem_dropSpindle (s : State) (id : Nat) : (s.dropSpindle id).mem = s.mem := rfl
@[simp] theorem State.mem_modGrid (s : State) (b : BankId) (seq : Nat) (f : GridOp → GridOp) : (s.modGrid b seq f).mem = s.mem := rfl
@[simp] theorem State.mem_plyAnswer (s : State) (job number : Nat) (c : Coord) (r : SpMsg) :
    (s.plyAnswer job number c r).mem = s.mem := rfl

@[simp] theorem State.mem_groupAnswer (s : State) (b : BankId) (number : Nat) (r : SpMsg) :
    (s.groupAnswer b number r).mem = s.mem := by
  simp only [State.groupAnswer]
  split
  · rfl
  · split <;> rfl

@[simp] theorem State.mem_gridAnswer (s : State) (b : BankId) (number : Nat) (r : SpMsg) :
    (s.gridAnswer b number r).mem = s.mem := by
  simp only [State.gridAnswer]
  split
  · split <;> simp
  · simp

@[simp] theorem State.mem_rootSend (s : State) (r : RootRec) (root : BankId) (body : SpMsg) :
    (s.rootSend r root body).mem = s.mem := by
  simp only [State.rootSend, State.mem_gridAnswer]
  refine State.mem_foldl _ (fun t q => ?_) _ _
  split <;> rfl

@[simp] theorem State.mem_rootDecide (s : State) (job number : Nat) (root : Coord) : (s.rootDecide job number root).mem = s.mem := by
  simp only [State.rootDecide]
  repeat' split
  all_goals simp

@[simp] theorem State.mem_rootGot (s : State) (job number : Nat) (root c : Coord) (core status : Nat) (h : List Byte) :
    (s.rootGot job number root c core status h).mem = s.mem := by
  simp only [State.rootGot]
  split <;> rfl

@[simp] theorem State.mem_rootReady (s : State) (job number : Nat) (root : Coord) (core status parts : Nat) (dies : List Nat)
    (needTag : Bool) (h : List Byte) : (s.rootReady job number root core status parts dies needTag h).mem = s.mem :=
  State.mem_rootGot ..

@[simp] theorem State.mem_addGrid (s : State) (b : BankId) (o : GridOp) : (s.addGrid b o).mem = s.mem := rfl

@[simp] theorem mem_gridStart (w : GridWhat) (s : State) (b : BankId) : (gridStart w s b).state.mem = s.mem := by
  simp only [gridStart]
  repeat' split
  all_goals simp

@[simp] theorem State.mem_rootAgain (s : State) (b : BankId) (number : Nat) : (s.rootAgain b number).mem = s.mem := by
  simp only [State.rootAgain]
  split <;> simp

@[simp] theorem mem_gridRun (w : GridWhat) (s : State) (b : BankId) : (gridRun w s b).state.mem = s.mem := by
  simp only [gridRun]
  repeat' split
  all_goals simp

@[simp] theorem mem_fillWord0 (b : BankId) (r : Res) : (fillWord0 b r).state = r.state := by
  simp only [fillWord0]
  split
  · split <;> rfl
  · rfl

/-- A piece delivered to its operation changes that operation alone. -/
@[simp] theorem State.mem_deliverPart (s : State) (id : Nat) (f : SpMsg → Option (GridOp → GridOp)) : (s.deliverPart id f).mem = s.mem := by
  simp only [State.deliverPart]
  repeat' split
  all_goals rfl

section
variable {s : State} (h : memWf s.mem = true)
include h

theorem gridRun_wf (w : GridWhat) (b : BankId) : memWf (gridRun w s b).state.mem = true := by
  rwa [mem_gridRun]

theorem execCtr_canonical (g : Guard) (a : GridArgs) : Canonical (execCtr g a s) := runG_canonical h fun _ => gridRun_wf h ..
theorem execRed_canonical (g : Guard) (a : GridArgs) : Canonical (execRed g a s) := runG_canonical h fun _ => gridRun_wf h ..
theorem execCvt_canonical (g : Guard) (a : GridArgs) : Canonical (execCvt g a s) := runG_canonical h fun _ => gridRun_wf h ..
theorem execCtrs_canonical (g : Guard) (a : GridArgs) : Canonical (execCtrs g a s) :=
  runG_canonical h fun _ => by rw [mem_fillWord0]; exact gridRun_wf h ..

theorem execEwr_canonical (g : Guard) (a : EwrArgs) : Canonical (execEwr g a s) := by
  refine runG_canonical h fun b => Ev.andThen_wf h ?_
  rintro ⟨x, q⟩ -
  have hr := gridRun_wf h (.ewr a x) b
  dsimp only
  split
  · next t ht =>
    rw [ht] at hr
    exact hr
  · exact hr

theorem execGridIssue_canonical (b : BankId) : Canonical (execGridIssue b s) :=
  canonical_next.mpr (by simpa using h)

theorem execMchk_canonical (g : Guard) (kind : GridKind) (rx : Dst) (a : GridArgs) : Canonical (execMchk g kind rx a s) :=
  runC_canonical h fun _ => Ev.andThen_done_wf h fun _ => rfl

theorem execHashMessage_canonical (id : Nat) : Canonical (execHashMessage id s) := by
  simp only [execHashMessage]
  split <;> simp [h]

theorem execRouteTagGrant_canonical (job : Nat) : Canonical (execRouteTagGrant job s) := by
  refine canonical_next.mpr ?_
  rw [State.mem_foldl _ (fun _ _ => State.mem_rootDecide ..)]
  exact h

theorem execGoMessage_canonical (id : Nat) : Canonical (execGoMessage id s) := by
  simp only [execGoMessage]
  repeat' split
  all_goals simp [h]

theorem execStopMessage_canonical (id : Nat) : Canonical (execStopMessage id s) := by
  simp only [execStopMessage]
  repeat' split
  all_goals simp [h]

theorem execOpndMessage_canonical (id : Nat) : Canonical (execOpndMessage id s) := canonical_next.mpr (by simpa using h)
theorem execNodeMessage_canonical (id : Nat) : Canonical (execNodeMessage id s) := canonical_next.mpr (by simpa using h)
theorem execExactMessage_canonical (id : Nat) : Canonical (execExactMessage id s) := canonical_next.mpr (by simpa using h)

end
end Sys2Proof.Machine

/-! ### Grid operations: the work of a tile (R131 to R134, R164), and the G stream's own instructions (R166 to R170). -/
namespace Sys2Proof.Machine

theorem State.wf_ite {c : Prop} [Decidable c] {s t : State} (hs : memWf s.mem = true) (ht : memWf t.mem = true) :
    memWf (if c then s else t).mem = true := by
  split
  · exact hs
  · exact ht

theorem Canonical.ite {c : Prop} [Decidable c] {o q : Out} (ho : Canonical o) (hq : Canonical q) : Canonical (if c then o else q) := by
  split
  · exact ho
  · exact hq

@[simp] theorem State.mem_sendValues (o : GridOp) (b : BankId) (job : Nat) (g : GridIn) (per : Nat) (mk : GridPart → SpMsg)
    (vals counts : List Nat) (terms : List (List (Nat × Val))) (lost : Bool) (s : State) :
    (sendValues o b job g per mk vals counts terms lost s).mem = s.mem := by
  simp only [sendValues]
  exact State.mem_foldl _ (fun _ _ => State.mem_sendSpindle ..) _ _

@[simp] theorem State.mem_gridSend (o : GridOp) (b : BankId) (g : GridIn) (job : Nat) (xs : List (List Nat)) (vs : OpVals)
    (lost : Bool) (s : State) : (gridSend o b g job xs vs lost s).mem = s.mem := by
  simp only [gridSend]
  repeat' split
  all_goals simp

@[simp] theorem State.mem_writeTile (o : GridOp) (b : BankId) (g : GridIn) (fromInt : Bool) (vals : List (List Nat × OutVal))
    (s : State) : (writeTile o b g fromInt vals s).mem = s.mem := rfl

@[simp] theorem State.mem_nextTile (s : State) (b : BankId) (seq : Nat) (g : GridIn) (job : Nat) :
    (s.nextTile b seq g job).mem = s.mem := by
  simp only [State.nextTile]
  repeat' split
  all_goals rfl

section
variable {s : State} (h : memWf s.mem = true)
include h

theorem readBlock_wf {o : GridOp} {b : BankId} {x : Opnd} {xs : List (List Nat)} {es : List (Nat × Nat)} {ecc : Option Nat} {t : State}
    (he : readBlock o b x xs s = .ok (es, ecc, t)) : memWf t.mem = true := by
  simp only [readBlock] at he
  split at he
  · next hr =>
    cases he
    exact readElems_wf xs h hr
  · cases he
    exact h
  · cases he

theorem opndStep_wf {o : GridOp} {b : BankId} {g : GridIn} {x : Opnd} {st : Nat} {vs : List (List Nat × GridElem)} {lost : Bool}
    {t : State} (he : opndStep o b g x st s = .ok vs lost t) : memWf t.mem = true := by
  simp only [opndStep] at he
  split at he
  · cases he
    exact h
  split at he
  · split at he
    · next hr =>
      have hu := readBlock_wf h hr
      cases he
      repeat' split
      all_goals exact hu
    · cases he
  · split at he
    · cases he
    · cases he
      exact h

end

theorem opndTile_wf {o : GridOp} {b : BankId} {g : GridIn} {x : Opnd} (n : Nat) :
    ∀ {s t : State} {vs : List (List Nat × GridElem)} {lost : Bool},
      memWf s.mem = true → opndTile o b g x n s = .ok vs lost t → memWf t.mem = true := by
  induction n with
  | zero => intro s t vs lost h e; cases e; exact h
  | succ n ih =>
    intro s t vs lost h e
    simp only [opndTile] at e
    split at e
    · next hn =>
      split at e
      · next hs =>
        cases e
        exact opndStep_wf (ih h hn) hs
      · next hno => exact absurd e (hno _ _ _)
    · next hno => exact absurd e (hno _ _ _)

theorem opndsTile_wf {o : GridOp} {b : BankId} {g : GridIn} (l : List Opnd) : ∀ {s t : State} {vs : OpVals} {lost : Bool},
    memWf s.mem = true → opndsTile o b g l s = .ok (vs, lost, t) → memWf t.mem = true := by
  induction l with
  | nil => intro s t vs lost h e; cases e; exact h
  | cons x l ih =>
    intro s t vs lost h e
    simp only [opndsTile] at e
    split at e
    · cases e
    · cases e
    next ho =>
    split at e
    · cases e
    next hl =>
    cases e
    exact ih (opndTile_wf _ h ho) hl

theorem sendBlock_wf {s t : State} {o : GridOp} {b : BankId} {job : Nat} {g : GridIn} {x : Opnd} {st : Nat} {e : Option Nat}
    (h : memWf s.mem = true) (he : sendBlock o b job g x st s = .ok (t, e)) : memWf t.mem = true := by
  simp only [sendBlock] at he
  split at he
  · cases he
    exact h
  split at he
  · cases he
  next hr =>
  have hu := readBlock_wf h hr
  cases he
  refine foldl_wf _ (fun _ _ hv => ?_) _ _ hu
  refine foldl_wf _ (fun _ _ hw => ?_) _ _ hv
  exact hw

theorem sendBlocks_wf {o : GridOp} {b : BankId} {job : Nat} {g : GridIn} (l : List (Opnd × Nat)) : ∀ {s t : State} {e : Option Nat},
    memWf s.mem = true → sendBlocks o b job g l s = .ok (t, e) → memWf t.mem = true := by
  induction l with
  | nil => intro s t e h he; cases he; exact h
  | cons x l ih =>
    intro s t e h he
    simp only [sendBlocks] at he
    split at he
    · cases he
    next hb =>
    split at he
    · cases he
    next hl =>
    cases he
    exact ih (sendBlock_wf h hb) hl

section
variable {s : State} (h : memWf s.mem = true)
include h

@[simp] theorem State.wf_clobber (core : Nat) (spwin : Word) (key : Nat) : memWf (s.clobber core spwin key).mem = true :=
  State.wf_performWrite h ..

@[simp] theorem State.wf_gridReadFault (b : BankId) (o : GridOp) (addr : Nat) : memWf (s.gridReadFault b o addr).mem = true := by
  rw [State.gridReadFault]
  refine State.wf_ite h ?_
  exact State.wf_abortJob (by exact h) ..

@[simp] theorem State.wf_gridFail (b : BankId) (o : GridOp) (g : GridIn) (job addr : Nat) (f : EFault) :
    memWf (s.gridFail b o g job addr f).mem = true := by
  cases f <;> simp [State.gridFail, h]

theorem readAccs_wf {o : GridOp} {b : BankId} {g : GridIn} {xs : List (List Nat)} {vs : List Val} {ecc : Option Nat} {t : State}
    (he : readAccs o b g xs s = .ok (vs, ecc, t)) : memWf t.mem = true := by
  simp only [readAccs] at he
  split at he
  · split at he
    · next hr =>
      cases he
      exact readBlock_wf h hr
    · cases he
  · cases he
    exact h

@[simp] theorem State.wf_writeSome (b : BankId) (o : GridOp) (n : Nat) : memWf (s.writeSome b o n).mem = true := by
  have hu := writeUnits_wf (o.ctx s b 0) cFAULT_WRITE_WEAK (o.todo.take n) o.low h
  simp only [State.writeSome]
  split
  · exact hu
  · rw [State.mem_nextTile]
    split <;> exact hu

@[simp] theorem State.wf_endTiles (b : BankId) : memWf (s.endTiles b).mem = true :=
  foldl_wf _ (fun _ _ ht => State.wf_writeSome ht ..) _ _ h

theorem gridOwn_wf {o : GridOp} {b : BankId} {g : GridIn} {job : Nat} {xs : List (List Nat)} {vs : OpVals} {lost : Bool} {t : State}
    (he : gridOwn o b g job xs vs lost s = some t) : memWf t.mem = true := by
  simp only [gridOwn] at he
  split at he
  · cases he
  split at he
  · cases he
    exact State.wf_gridFail h ..
  next u hr =>
  have hu := readAccs_wf h hr
  have hc : ∀ v : State, v.mem = u.mem → memWf (v.clobber b.core o.spwin o.tile).mem = true :=
    fun v hv => State.wf_clobber (by rwa [hv]) ..
  split at he
  all_goals
    cases he
    repeat' split
    all_goals
      simp only [State.mem_nextTile, State.mem_writeTile, State.mem_modGrid]
      exact hc _ rfl

@[simp] theorem State.wf_gridTurn (b : BankId) (seq n : Nat) : memWf (s.gridTurn b seq n).mem = true := by
  simp only [State.gridTurn]
  split
  · exact h
  split
  · split
    · exact State.wf_writeSome h ..
    · exact h
  split
  · exact h
  split
  · split
    · exact State.wf_gridFail h ..
    · next hb =>
      have hu := sendBlocks_wf _ h hb
      split <;> exact hu
  split
  · simpa using h
  split
  · exact h
  · exact State.wf_gridFail h ..
  · next t ho =>
    have hu := opndsTile_wf _ h ho
    split
    · simpa using hu
    · cases hg : gridOwn _ _ _ _ _ _ _ t with
      | none => exact h
      | some v => exact gridOwn_wf hu hg

end

@[simp] theorem State.wf_gridTurns (n : Nat) : ∀ {s : State} (b : BankId) (seq : Nat), memWf s.mem = true →
    memWf (State.gridTurns n s b seq).mem = true := by
  induction n with
  | zero => intro s b seq h; exact h
  | succ n ih => intro s b seq h; exact ih b seq (State.wf_gridTurn h ..)

@[simp] theorem mem_afterGrid (f : Bank → Bank) (s : State) (b : BankId) : (afterGrid f s b).state.mem = s.mem := by
  simp only [afterGrid]
  split <;> rfl

section
variable {s : State} (h : memWf s.mem = true)
include h

theorem execGridComplete_canonical (b : BankId) (seq : Nat) : Canonical (execGridComplete b seq s) := by
  simp only [execGridComplete]
  split
  · exact canonical_next.mpr h
  next o ho =>
  have ht := State.wf_gridTurns (3 * ((o.input s b).tiles - o.tile)) b seq h
  repeat' split
  · exact canonical_next.mpr ht
  · exact canonical_next.mpr ht
  · rw [canonical_next, State.mem_modBank]
    exact State.wf_clobber (State.wf_homeAll ht _) ..

theorem execGloop_canonical (g : Guard) (ra : BitVec 4) (off : BitVec 26) : Canonical (execGloop g ra off s) := by
  refine runG_canonical h fun b => ?_
  dsimp only
  split
  · exact h
  · split <;> exact h

theorem execGbr_canonical (g : Guard) (off : BitVec 26) : Canonical (execGbr g off s) := runG_canonical h fun _ => h

theorem execGbc_canonical (g : Guard) (cc : Cond) (ra rb : GSrc) (off : BitVec 26) : Canonical (execGbc g cc ra rb off s) := by
  refine runG_canonical h fun b => Ev.andThen_wf h ?_
  rintro ⟨a, c, k⟩ -
  dsimp only
  split <;> exact h

theorem execGsigD_canonical (g : Guard) (fl : BitVec 4) : Canonical (execGsigD g fl s) :=
  runG_canonical h fun _ => by rwa [mem_afterGrid]

theorem execGdrain_canonical (g : Guard) : Canonical (execGdrain g s) := runG_canonical h fun _ => by rwa [mem_afterGrid]

theorem execGwaitf_canonical (g : Guard) (fl : BitVec 4) (v : Bool) : Canonical (execGwaitf g fl v s) :=
  runG_canonical h fun _ => Res.wf_ite h h

theorem execGidle_canonical (g : Guard) : Canonical (execGidle g s) := runG_canonical h fun _ => Res.wf_ite h h

theorem execGend_canonical (g : Guard) : Canonical (execGend g s) := by
  have ha : memWf (afterGrid Bank.passAll s s.cur.bank).state.mem = true := by rwa [mem_afterGrid]
  simp only [execGend]
  split
  · rw [canonical_next]
    split
    · next t ht =>
      rw [ht] at ha
      rw [State.mem_endTeam]
      exact ha
    · exact finishG_wf ha ..
  · exact canonical_next.mpr (finishG_wf (r := .done s) h ..)

end
end Sys2Proof.Machine

/-! ### Copy engines: what a transfer writes (R234 to R244). -/
namespace Sys2Proof.Machine

section
variable {s : State} (h : memWf s.mem = true)
include h

@[simp] theorem State.wf_endTransfer (b : BankId) (ch : BitVec 3) (id : Nat) : memWf (s.endTransfer b ch id).mem = true := by
  have ht := State.wf_homeAll h (s.payload b (xferOp ch id))
  simp only [State.endTransfer]
  split
  · exact State.wf_finishAbort (by exact ht) _
  · exact ht

@[simp] theorem State.wf_failTransfer (b : BankId) (ch : BitVec 3) (id addr : Nat) (f : EFault) :
    memWf (s.failTransfer b ch id addr f).mem = true :=
  State.wf_endTransfer (by exact h) ..

theorem execCopy_canonical (g : Guard) (ch : BitVec 3) (sc : Option Scope) (cvr : BitVec 6) (fa fb fc : BitVec 4) (rx : Dst)
    (ry rz : Src) (len : BitVec 48) : Canonical (execCopy g ch sc cvr fa fb fc rx ry rz len s) :=
  runC_canonical h fun b => by rwa [mem_ofBank]

theorem execMcast_canonical (g : Guard) (ch : BitVec 3) (sc : Option Scope) (cvr : BitVec 6) (fa fb fc : BitVec 4) (rx : Dst)
    (ry rz : Src) (mask : BitVec 48) : Canonical (execMcast g ch sc cvr fa fb fc rx ry rz mask s) :=
  runC_canonical h fun _ => Ev.andThen_done_wf h fun _ => rfl

theorem execTcopy_canonical (g : Guard) (ch : BitVec 3) (sc : Option Scope) (csb : BitVec 4) (fa fc : BitVec 5) (lsa lsc : Letters)
    (rx : Dst) : Canonical (execTcopy g ch sc csb fa fc lsa lsc rx s) :=
  runC_canonical h fun _ => Ev.andThen_done_wf h fun _ => rfl

@[simp] theorem copyWord_wf (b : BankId) (ch : BitVec 3) (x : Xfer) (src dst : SpanReg) (so d len : Nat) :
    memWf (copyWord s b ch x src dst so d len).mem = true := by
  simp only [copyWord]
  split
  · exact State.wf_failTransfer h ..
  split
  · exact State.wf_failTransfer (by simpa using h) ..
  next bs t hl =>
  split
  · next hs => exact State.wf_failTransfer (State.engStore_wf (State.engLoad_wf h hl) hs) ..
  · next hs => exact (State.engStore_wf (State.engLoad_wf h hl) hs :)

@[simp] theorem mcastWord_wf (b : BankId) (ch : BitVec 3) (x : Xfer) (src dst : SpanReg) (so d len : Nat) (mask : BitVec 48) :
    memWf (mcastWord s b ch x src dst so d len mask).mem = true := by
  simp only [mcastWord]
  split
  · exact State.wf_failTransfer (by simpa using h) ..
  next bs t hl =>
  rw [State.mem_modBank]
  refine foldl_wf _ (fun v c hv => ?_) _ _ (State.engLoad_wf h hl)
  split
  · exact State.wf_performWrite hv ..
  · exact hv

@[simp] theorem tcopyUnit_wf (b : BankId) (ch : BitVec 3) (x : Xfer) (a c : Tensor) (lsa lsc : Letters) (fmts : List Word) (seed : Word) :
    memWf (tcopyUnit s b ch x a c lsa lsc fmts seed).mem = true := by
  unfold tcopyUnit
  dsimp only
  split
  · exact State.wf_failTransfer (by simpa using h) ..
  · next hr =>
    rw [State.mem_modBank]
    exact readElems_wf _ h hr

@[simp] theorem tcopyWrite_wf (b : BankId) (ch : BitVec 3) (x : Xfer) (c : Tensor) (u : Nat × List Nat) (left : List (Nat × List Nat)) :
    memWf (tcopyWrite s b ch x c u left).mem = true := by
  simp only [tcopyWrite]
  split
  · next hs => exact State.wf_failTransfer (State.engStoreUnit_wf h hs) ..
  · next hs => exact (State.engStoreUnit_wf h hs :)

@[simp] theorem State.wf_xferStep (b : BankId) (ch : BitVec 3) (id : Nat) : memWf (s.xferStep b ch id).mem = true := by
  simp only [State.xferStep]
  repeat' split
  all_goals simp [h]

end

@[simp] theorem State.wf_xferSteps (n : Nat) : ∀ {s : State} (b : BankId) (ch : BitVec 3) (id : Nat), memWf s.mem = true →
    memWf (State.xferSteps n s b ch id).mem = true := by
  induction n with
  | zero => intro s b ch id h; exact h
  | succ n ih => intro s b ch id h; exact ih b ch id (State.wf_xferStep h ..)

section
variable {s : State} (h : memWf s.mem = true)
include h

@[simp] theorem State.wf_complete (b : BankId) (ch : BitVec 3) (x : Xfer) : memWf (s.complete b ch x).mem = true := by
  simp only [State.complete]
  split
  · exact State.wf_endTransfer (by exact h) ..
  split
  · exact State.wf_failTransfer (by simpa using h) ..
  next w t hp =>
  have ht := fun sc ids => State.wf_showWrites (engPlace_wf (by exact h) hp) b.core sc ids
  refine State.wf_endTransfer ?_ ..
  split
  · exact EngCtx.wf_write (ht _ _) ..
  · exact ht _ _
  · exact ht _ _

theorem execTransferComplete_canonical (b : BankId) (ch : BitVec 3) (id : Nat) : Canonical (execTransferComplete b ch id s) := by
  simp only [execTransferComplete]
  repeat' split
  all_goals simp [h]

theorem execCpwait_canonical (g : Guard) (ch : BitVec 3) (rd : Dst) (ra : Src) : Canonical (execCpwait g ch rd ra s) := by
  refine runC_canonical h fun b => Ev.andThen_wf h ?_
  rintro ⟨v, q⟩ -
  dsimp only
  split
  · exact h
  split
  · exact Ev.andThen_done_wf h fun _ => rfl
  · exact h

theorem execCpwaitWake_canonical (b : BankId) : Canonical (execCpwaitWake b s) := canonical_next.mpr (by simpa using h)

end
end Sys2Proof.Machine

/-! ### Ply: what sorting, sending and delivering lists write (R246 to R256). -/
namespace Sys2Proof.Machine

theorem plyIndices_wf {c : EngCtx} {rs : Nat} {range : Option (Nat × Nat)} (n : Nat) :
    ∀ {s t : State} {addr pos : Nat} {last : Option Nat},
      memWf s.mem = true → plyIndices c rs range n s addr pos last = .ok t → memWf t.mem = true := by
  induction n with
  | zero => intro s t addr pos last h e; cases e; exact h
  | succ n ih =>
    intro s t addr pos last h e
    simp only [plyIndices] at e
    split at e
    · split at e
      · cases e
        exact h
      · cases e
    · next hl =>
      split at e
      · cases e
      split at e
      · cases e
      · exact ih (State.engLoad_wf h hl) e

theorem pathRead_wf {b : BankId} {r : SpanReg} {m : Nat} (fuel : Nat) : ∀ {s t : State} {addr len : Nat} {bs : List Byte},
    memWf s.mem = true → pathRead b r m fuel s addr len = .ok (bs, t) → memWf t.mem = true := by
  induction fuel with
  | zero => intro s t addr len bs h e; cases e; exact h
  | succ fuel ih =>
    intro s t addr len bs h e
    simp only [pathRead] at e
    split at e
    · cases e
      exact h
    split at e
    · cases e
    next w u hu =>
    have hu' := locate_wf h hu
    split at e
    · cases e
    next bs' v hv =>
    have hv' : memWf v.mem = true := by
      repeat' split at hv
      all_goals cases hv
      all_goals exact hu'
    split at e
    · cases e
    next hr =>
    cases e
    exact ih hv' hr

theorem plyRead_wf (c : EngCtx) (f : PlyForm) (range : Option (Nat × Nat)) (n : Nat) : ∀ {s : State} (addr : Nat) (last : Option Nat),
    memWf s.mem = true → memWf (plyRead c f range n s addr last).2.2.mem = true := by
  induction n with
  | zero => intro s addr last h; exact h
  | succ n ih =>
    intro s addr last h
    simp only [plyRead]
    split
    · exact h
    · next hl =>
      split
      · exact State.engLoad_wf h hl
      · exact ih _ _ (State.engLoad_wf h hl)

@[simp] theorem State.mem_joinPly (s : State) (job number : Nat) (form : PlyForm) (v : Nat) (owner : Coord) (parts : List Coord)
    (frac : Nat) (m : PlyMember) : (s.joinPly job number form v owner parts frac m).mem = s.mem := by
  simp only [State.joinPly]
  split <;> rfl

@[simp] theorem State.mem_leavePly (s : State) (job number : Nat) (c : Coord) : (s.leavePly job number c).mem = s.mem := rfl

@[simp] theorem State.mem_modMember (s : State) (job : Nat) (c : Coord) (f : Bank → Bank) : (s.modMember job c f).mem = s.mem := by
  simp only [State.modMember]
  split <;> rfl

@[simp] theorem State.mem_plyMergeAll (s : State) (id : Nat) : (s.plyMergeAll id).mem = s.mem := by
  simp only [State.plyMergeAll]
  repeat' split
  all_goals simp

section
variable {s : State} (h : memWf s.mem = true)
include h

theorem execPlysort_canonical (g : Guard) (fa : BitVec 4) (rx : Dst) (ry rz : Src) (form : PlyForm) :
    Canonical (execPlysort g fa rx ry rz form s) := by
  refine runC_canonical h fun b => Ev.andThen_wf h ?_
  rintro ⟨addr, n, r, q⟩ -
  have hb := State.wf_settleB h b (spadPlace b.core addr) (n * form.rs)
  dsimp only
  repeat' split
  · exact h
  · exact h
  · exact Ev.andThen_done_wf hb fun _ => rfl
  · exact Ev.andThen_done_wf (by rwa [State.mem_queueWrite]) fun _ => rfl

theorem execPlysend_canonical (g : Guard) (ch : BitVec 3) (fa : BitVec 4) (rx : Dst) (ry rz : Src) (form : PlyForm) (core : BitVec 11)
    (hank : BitVec 4) : Canonical (execPlysend g ch fa rx ry rz form core hank s) := by
  refine runC_canonical h fun b => Ev.andThen_wf h ?_
  rintro ⟨addr, n, r, q⟩ -
  dsimp only
  split
  · split
    · exact h
    split
    · exact h
    · next hp => exact Ev.andThen_done_wf (plyIndices_wf _ h hp) fun _ => rfl
  · exact h

theorem plyChecks_wf {b : BankId} {v : Nat} {ms : List (Coord × Nat)} {form : PlyForm} {addr n : Nat} {r : SpanReg}
    {fail : Option TrapInfo} {t : State} (he : plyChecks s b v ms form addr n r = .ok (fail, t)) : memWf t.mem = true := by
  simp only [plyChecks] at he
  split at he
  · cases he
    exact h
  split at he
  · cases he
  next hp =>
  have ht := plyIndices_wf _ h hp
  split at he <;> cases he <;> exact ht

theorem plyStart_wf (ch : BitVec 3) (form : PlyForm) (b : BankId) (j : Job) (me : Coord) (v addr n : Nat) (r : SpanReg) (q : Bank) :
    memWf (plyStart ch form s b j me v addr n r q).state.mem = true := by
  simp only [plyStart]
  split
  · exact h
  next hc =>
  have ht := plyChecks_wf h hc
  repeat' split
  all_goals simp [ht]

theorem plyGo_wf (ch : BitVec 3) (rx : Dst) (ry rz : Src) (b : BankId) (j : Job) (me : Coord) (o d : Nat) (number : Word) :
    memWf (plyGo ch rx ry rz s b j me o d number).state.mem = true := by
  simp only [plyGo]
  split
  · exact h
  split
  · exact h
  split
  · simpa using h
  · simpa using h
  · exact Ev.andThen_done_wf h fun _ => rfl

theorem execPlyred_canonical (g : Guard) (ch : BitVec 3) (fa fb : BitVec 4) (rx : Dst) (ry rz : Src) (form : PlyForm) :
    Canonical (execPlyred g ch fa fb rx ry rz form s) := by
  refine runC_canonical h fun b => ?_
  dsimp only
  split
  · exact plyGo_wf h ..
  refine Ev.andThen_wf h ?_
  rintro ⟨addr, n, r, q, ga, gr⟩ -
  dsimp only
  split
  · exact h
  next hp =>
  have ht := pathRead_wf _ h hp
  split
  · split
    · split
      · exact ht
      · next hi => exact Ev.andThen_done_wf (plyIndices_wf _ ht hi) fun _ => rfl
    · exact plyStart_wf ht ..
  · exact ht

@[simp] theorem State.wf_endMember (job : Nat) (m : PlyMember) : memWf (s.endMember job m).mem = true :=
  State.wf_finishAbort (by simpa using h) _

@[simp] theorem plySendList_wf (o : PlyOp) (m : PlyMember) : memWf (plySendList s o m).mem = true := by
  simp only [plySendList]
  split
  · exact h
  next b hb =>
  have ht := plyRead_wf (s.xCtx b 0 m.asid m.span) o.form (if o.red then some (o.lo, o.hi) else none) m.count m.addr none h
  generalize plyRead (s.xCtx b 0 m.asid m.span) o.form (if o.red then some (o.lo, o.hi) else none) m.count s m.addr none = p at ht ⊢
  obtain ⟨l, e, t⟩ := p
  split
  all_goals
    cases e <;> simp [ht]

@[simp] theorem State.wf_plySendAll (id : Nat) : memWf (s.plySendAll id).mem = true := by
  simp only [State.plySendAll]
  split
  · exact h
  · exact foldl_wf _ (fun _ _ ht => plySendList_wf ht ..) _ _ h

/-- A delivered slot is written into its place of the hank (R247). -/
@[simp] theorem State.wf_deliverSlot (home : BankId) (hn : BitVec 4) (who : Claimant) (data : List Byte) :
    memWf (s.deliverSlot home hn who data).1.mem = true := by
  simp only [State.deliverSlot]
  repeat' split
  all_goals simp [h]

theorem State.deliverSlot_wf {home : BankId} {hn : BitVec 4} {who : Claimant} {data : List Byte} {t : State} {done : Bool}
    (he : s.deliverSlot home hn who data = (t, done)) : memWf t.mem = true := by
  have ht := State.wf_deliverSlot h home hn who data
  rwa [he] at ht

@[simp] theorem State.wf_plyDeliver (id : Nat) : memWf (s.plyDeliver id).mem = true := by
  simp only [State.plyDeliver]
  split
  · exact h
  split
  · split
    · exact h
    split
    · next hd => exact State.deliverSlot_wf h hd
    · next hd =>
      have ht := State.deliverSlot_wf h hd
      repeat' split
      all_goals simp [ht]
  · exact h

theorem execPlySlotCommit_canonical (op : Nat) : Canonical (execPlySlotCommit op s) :=
  canonical_next.mpr (by simp [h])

end
end Sys2Proof.Machine

/-! ### Attar, event vectors and Distaff: what they write (R259 to R276, R306, R318, R320). -/
namespace Sys2Proof.Machine

@[simp] theorem State.mem_modRegion (s : State) (stack index : Nat) (f : AttarRegion → AttarRegion) :
    (s.modRegion stack index f).mem = s.mem := rfl
@[simp] theorem State.mem_attarScan (s : State) (b : BankId) (qid row n : Nat) : (s.attarScan b qid row n).mem = s.mem := rfl
@[simp] theorem askStack_state_mem (s : State) (b : BankId) (q : AttarReq) : (askStack s b q).state.mem = s.mem := rfl
@[simp] theorem State.mem_setDistaff (s : State) (job die rc : Nat) (d : Distaff) : (s.setDistaff job die rc d).mem = s.mem := rfl
@[simp] theorem State.mem_evaluate (s : State) (part ctx : Nat) (which : QRec → Bool) : (s.evaluate part ctx which).mem = s.mem :=
  (OnlyEvents.evaluate ..).mem
@[simp] theorem State.mem_eventStep (s : State) (part ctx set clr : Nat) : (s.eventStep part ctx set clr).mem = s.mem :=
  (OnlyEvents.eventStep ..).mem
@[simp] theorem State.mem_evaluateInst (s : State) (part inst : Nat) : (s.evaluateInst part inst).mem = s.mem :=
  (OnlyEvents.evaluateInst ..).mem
@[simp] theorem State.mem_noteEvents (s : State) (part : Nat) : (s.noteEvents part).mem = s.mem := rfl
@[simp] theorem State.mem_setEvents (s : State) (part ctx v : Nat) : (s.setEvents part ctx v).mem = s.mem := rfl

/-- The state in a stack's answer is the one that a request's result names. -/
def AttarReply.Wf : AttarReply → Prop
  | .done s _ => memWf s.mem = true
  | _ => True

section
variable {s : State} (h : memWf s.mem = true)
include h

theorem execAttarSlotCommit_canonical (b : BankId) (qid : Nat) : Canonical (execAttarSlotCommit b qid s) := by
  simp only [execAttarSlotCommit]
  split
  · exact canonical_next.mpr h
  split
  · split
    · next hd => exact canonical_next.mpr (State.deliverSlot_wf h hd)
    · next hd => exact canonical_next.mpr (State.deliverSlot_wf h hd :)
  · exact canonical_next.mpr h

@[simp] theorem appendRow_wf (r : AttarRegion) (row : List Byte) : memWf (appendRow s r row).mem = true := by
  refine foldl_wf _ (fun t n ht => ?_) _ _ h
  refine State.wf_performWrite ?_ ..
  split
  · next q hq =>
    cases trackOf t q.record r.asid with
    | none => exact ht
    | some m => exact State.markGranule_wf t _ _ _ ht
  · exact ht

theorem stackRegister_wf (b : BankId) (job base hd lnu rows valid : Nat) (pages : List (Nat × Bool)) :
    (stackRegister s b job base hd lnu rows valid pages).Wf := by
  simp only [stackRegister]
  repeat' split
  · trivial
  · trivial
  · trivial
  · trivial
  · exact h

theorem stackReply_wf (b : BankId) (q : AttarReq) : (stackReply s b q).Wf := by
  simp only [stackReply]
  split
  · exact stackRegister_wf h ..
  split
  · trivial
  split
  · split
    · trivial
    · exact h
  · trivial
  · split
    · trivial
    · exact h
  · split
    · trivial
    · exact appendRow_wf h ..
  · split
    · trivial
    · exact h

theorem execAttarStackReply_canonical (b : BankId) : Canonical (execAttarStackReply b s) := by
  have ht := fun q => stackReply_wf h b q
  simp only [execAttarStackReply]
  split
  · next q w _ _ =>
    have hs := ht q
    split
    · exact canonical_next.mpr h
    split
    · exact canonical_next.mpr h
    · next hr =>
      rw [hr] at hs
      rw [canonical_next, State.mem_wake]
      exact hs
    · rw [canonical_next, State.mem_wake]
      exact h
    · rw [canonical_next, State.mem_wake]
      exact h
  · exact canonical_next.mpr h

theorem attarRun_wf {send : State → Res} {more : State → Nat → Res} {fin : State → Word → Res} {b : BankId}
    (hs : memWf (send s).state.mem = true) (hm : ∀ n, memWf (more s n).state.mem = true)
    (hf : ∀ v, memWf (fin s v).state.mem = true) : memWf (attarRun send more fin s b).state.mem = true := by
  simp only [attarRun]
  split
  · exact hf _
  · exact h
  · exact hm _
  · exact h
  · exact hs

theorem attarDone_wf (rx : Option Dst) (srcs : List Src) (b : BankId) (v : Word) :
    memWf (attarDone rx srcs s b v).state.mem = true :=
  Ev.andThen_done_wf h fun _ => rfl

theorem attarSource_wf {b : BankId} {n : BitVec 4} {off : Word} {len align : Nat} {chk : Option TrapInfo} {f : State → List Byte → Res}
    (hf : ∀ t bs, memWf t.mem = true → memWf (f t bs).state.mem = true) :
    memWf (attarSource s b n off len align chk f).state.mem = true := by
  refine Ev.andThen_wf h ?_
  rintro ⟨addr, r⟩ -
  dsimp only
  split
  · exact h
  · next hl => exact hf _ _ (State.engLoad_wf h hl)
  · split
    · exact hf _ _ h
    · exact h

end

theorem attarPages_wf {b : BankId} (n : Nat) : ∀ {s t : State} {va : Nat} {l : List (Nat × Bool)},
    memWf s.mem = true → attarPages s b n va = .ok (l, t) → memWf t.mem = true := by
  induction n with
  | zero => intro s t va l h e; cases e; exact h
  | succ n ih =>
    intro s t va l h e
    simp only [attarPages] at e
    split at e
    · cases e
    · cases e
    next hx =>
    have hu := State.translateFor_ok_wf hx h
    split at e
    · cases e
    next hl =>
    cases e
    exact ih hu hl

section
variable {s : State} (h : memWf s.mem = true)
include h

theorem execAreg_canonical (g : Guard) (fa : BitVec 4) (rx : Dst) (ry rz : Src) (hd : BitVec 8) (lnu : BitVec 3) (rows : BitVec 20) :
    Canonical (execAreg g fa rx ry rz hd lnu rows s) := by
  refine runC_canonical h fun b => attarRun_wf h (Ev.andThen_wf h ?_) (fun _ => h) (fun v => attarDone_wf h ..)
  rintro ⟨vs, base⟩ -
  dsimp only
  split
  · exact h
  · next hp => exact (attarPages_wf _ h hp :)

theorem execAregFree_canonical (g : Guard) (ry : Src) : Canonical (execAregFree g ry s) :=
  runC_canonical h fun _ => attarRun_wf h (Ev.andThen_wf h fun _ _ => h) (fun _ => h) (fun _ => attarDone_wf h ..)

theorem execAqpost_canonical (g : Guard) (fa : BitVec 4) (rx : Dst) (ry rz : Src) (hr : BitVec 6) (hank : BitVec 4) :
    Canonical (execAqpost g fa rx ry rz hr hank s) := by
  refine runC_canonical h fun b => Ev.andThen_wf h fun vs _ => ?_
  exact attarRun_wf h (Res.wf_ite h (Res.wf_ite h h)) (fun _ => attarSource_wf h fun _ _ ht => ht) (fun _ => attarDone_wf h ..)

theorem execAappend_canonical (g : Guard) (fa : BitVec 4) (rx : Dst) (ry : Src) (hr : BitVec 6) :
    Canonical (execAappend g fa rx ry hr s) := by
  refine runC_canonical h fun b => Ev.andThen_wf h fun vs _ => ?_
  exact attarRun_wf h h (fun _ => attarSource_wf h fun _ _ ht => releaseOn_wf ht fun _ _ hu => hu) (fun _ => attarDone_wf h ..)

theorem execAcommit_canonical (g : Guard) (rx : Dst) (ry : Src) (hr : BitVec 6) : Canonical (execAcommit g rx ry hr s) := by
  refine runC_canonical h fun b => Ev.andThen_wf h fun vs _ => ?_
  exact attarRun_wf h (releaseOn_wf h fun _ _ hu => hu) (fun _ => h) (fun _ => attarDone_wf h ..)

theorem execAqwait_canonical (g : Guard) (rx : Dst) (cr : BitVec 6) (ry : Src) : Canonical (execAqwait g rx cr ry s) := by
  refine runC_canonical h fun b => Ev.andThen_wf h ?_
  rintro ⟨v, q⟩ -
  dsimp only
  split
  · exact h
  split
  · exact h
  · exact Ev.andThen_done_wf h fun _ => rfl

theorem execAqwaitWake_canonical (b : BankId) : Canonical (execAqwaitWake b s) := canonical_next.mpr (by simpa using h)

theorem execEvset_canonical (g : Guard) (ctx : BitVec 4) (bit : BitVec 8) : Canonical (execEvset g ctx bit s) := by
  refine runC_canonical h fun b => releaseC_wf h fun t _ ht => ?_
  dsimp only
  split <;> simpa using ht

theorem execEvclr_canonical (g : Guard) (ctx : BitVec 4) (bit : BitVec 8) : Canonical (execEvclr g ctx bit s) :=
  runC_canonical h fun _ => by simpa using h

theorem execEvwait_canonical (g : Guard) (rd rb : BitVec 6) (ctx : BitVec 4) (bit : BitVec 8) :
    Canonical (execEvwait g rd rb ctx bit s) := by
  refine runC_canonical h fun b => Res.wf_ite ?_ (Res.wf_ite h h)
  simpa using h

theorem execEvwaitWake_canonical (b : BankId) : Canonical (execEvwaitWake b s) := canonical_next.mpr (by simpa using h)

theorem execDinit_canonical (g : Guard) (die : BitVec 2) (rc : BitVec 6) (ra rb : Src) : Canonical (execDinit g die rc ra rb s) :=
  runC_canonical h fun _ => Ev.andThen_done_wf h fun _ => rfl

theorem execDclaim_canonical (g : Guard) (rd : Dst) (die : BitVec 2) (rc : BitVec 6) : Canonical (execDclaim g rd die rc s) :=
  runC_canonical h fun _ => Ev.andThen_done_wf h fun _ => rfl

end
end Sys2Proof.Machine

/-! ### Launch rings, records, graphs, dispatch, binding and completion: what they write (R301 to R317). -/
namespace Sys2Proof.Machine

@[simp] theorem State.mem_answerLaunch (s : State) (part ctx n a : Nat) : (s.answerLaunch part ctx n a).mem = s.mem := rfl
@[simp] theorem State.mem_rejectBind (s : State) (r : BindRec) (reason : Nat) (vs : List Nat) : (s.rejectBind r reason vs).mem = s.mem := rfl
@[simp] theorem State.mem_measureImage (s : State) (part asid : Nat) (i : Image) : (s.measureImage part asid i).mem = s.mem := rfl

@[simp] theorem State.mem_retireJob (s : State) (j : Job) : (s.retireJob j).mem = s.mem := by
  simp only [State.retireJob]
  exact State.mem_foldl (fun (t : State) (q : BankId × Binding) =>
    (t.modBank q.1 (fun k => { k with c := k.c.stopped, g := k.g.stopped })).pickBank q.1.core) (fun _ _ => State.mem_pickBank ..) _ _

section
variable {s : State} (h : memWf s.mem = true)
include h

theorem execHostDoorbell_canonical (part ctx tail : Nat) : Canonical (execHostDoorbell part ctx tail s) := by
  simp only [execHostDoorbell]
  repeat' split
  all_goals exact canonical_next.mpr h

theorem launchRing_wf (b : BankId) (bs : List Byte) : memWf (launchRing s b bs).state.mem = true := by
  simp only [launchRing]
  repeat' split
  · exact h
  · exact State.wf_performWrite h ..
  · exact h

theorem execLaunch_canonical (g : Guard) (rd : BitVec 6) (m : MemRef) : Canonical (execLaunch g rd m s) := by
  refine runC_canonical h fun b => ?_
  dsimp only
  split
  · exact h
  · exact h
  · exact launchRing_wf h ..
  refine Ev.andThen_wf h ?_
  rintro ⟨addr, r⟩ -
  refine Res.wf_ite h ?_
  split
  · exact h
  · next hp =>
    have ht := pathRead_wf _ h hp
    exact Res.wf_ite ht (releaseC_wf ht fun _ _ hu => launchRing_wf hu ..)

theorem execLaunchSlotWake_canonical (b : BankId) : Canonical (execLaunchSlotWake b s) := canonical_next.mpr (by simpa using h)

@[simp] theorem State.wf_logObject (part asid : Nat) (r : LaunchRec) : memWf (s.logObject part asid r).mem = true := by
  simp only [State.logObject]
  repeat' split
  all_goals simp [h]

@[simp] theorem State.wf_rejectRec (part ctx asid : Nat) (r : LaunchRec) (arrival reason : Nat) :
    memWf (s.rejectRec part ctx asid r arrival reason).mem = true :=
  State.wf_writeDone (by exact h) ..

theorem execRecordCopy_canonical (part ctx : Nat) (dev torn : Bool) : Canonical (execRecordCopy part ctx dev torn s) := by
  rw [execRecordCopy]
  split
  · exact canonical_next.mpr h
  next p hp =>
  extract_lets q r a s₁ s₂ asid o s₃
  have h₁ : memWf s₁.mem = true := h
  have h₂ : memWf s₂.mem = true := State.wf_ite (by rwa [State.mem_answerLaunch]) h₁
  have h₃ : memWf s₃.mem = true := State.wf_ite h₂ (State.wf_logObject h₂ ..)
  refine Canonical.ite (canonical_next.mpr h) ?_
  split
  · exact canonical_next.mpr (State.wf_rejectRec h₃ ..)
  · rw [canonical_next, State.mem_evaluate]
    exact h₃

@[simp] theorem State.wf_finishInst (part inst : Nat) : memWf (s.finishInst part inst).mem = true := by
  simp only [State.finishInst]
  repeat' split
  all_goals simp [h]

@[simp] theorem State.wf_failInst (part inst idx reason : Nat) : memWf (s.failInst part inst idx reason).mem = true :=
  State.wf_finishInst (by exact h) ..

theorem execGraphInstanceStart_canonical (part arrival : Nat) : Canonical (execGraphInstanceStart part arrival s) := by
  simp only [execGraphInstanceStart]
  split
  · exact canonical_next.mpr h
  split
  · exact canonical_next.mpr h
  split
  · simp [h]
  next g hg =>
  refine Canonical.ite (canonical_next.mpr h) (Canonical.ite (canonical_next.mpr (State.wf_rejectRec (by exact h) ..)) ?_)
  split
  · rw [canonical_next, State.mem_evaluateInst, State.mem_modPart]
    exact foldl_wf _ (fun t q ht => State.wf_logObject ht ..) _ _ h
  · refine canonical_next.mpr (State.wf_failInst (foldl_wf _ (fun t q ht => State.wf_rejectRec ht ..) _ _ ?_) ..)
    rw [State.mem_modPart]
    exact foldl_wf _ (fun t q ht => State.wf_logObject ht ..) _ _ h

theorem execDispatch_canonical (part arrival jobid : Nat) (places : List BankId) : Canonical (execDispatch part arrival jobid places s) := by
  simp only [execDispatch]
  repeat' split
  all_goals simp [h]

@[simp] theorem State.wf_loadStore (i : Image) (part asid : Nat) : memWf (s.loadStore i part asid).mem = true := by
  refine foldl_wf _ (fun t q ht => ?_) _ _ h
  dsimp only
  split
  · exact ht
  split
  · next hr =>
    have hu := State.reachVA_ok_wf hr ht
    dsimp only
    exact State.wf_performWrite (State.wf_landHome hu ..) ..
  · exact ht

theorem execBind_canonical (r : BindRec) : Canonical (execBind r s) := by
  simp only [execBind]
  repeat' split
  all_goals simp [h]

theorem execStart_canonical (r : BindRec) : Canonical (execStart r s) := by
  simp only [execStart]
  split
  · exact canonical_next.mpr h
  split
  · exact canonical_next.mpr h
  split
  · exact canonical_next.mpr h
  · rw [canonical_next, State.mem_modJob, State.mem_foldl _ (fun _ _ => State.mem_pickBank ..),
      State.mem_foldl (fun (t : State) (q : BankId × Binding) => (t.modBank q.1 Bank.startStreams).dropL1 q.1.core .dv)
        (fun _ _ => State.mem_dropL1 ..)]
    exact h

theorem execPreempt_canonical (r : BindRec) : Canonical (execPreempt r s) := by
  simp only [execPreempt]
  repeat' split
  all_goals simp [h]

theorem execRelease_canonical (r : BindRec) : Canonical (execRelease r s) := by
  simp only [execRelease]
  repeat' split
  all_goals simp [h]

theorem execJobComplete_canonical (job : Nat) : Canonical (execJobComplete job s) := by
  simp only [execJobComplete]
  repeat' split
  all_goals simp [h]

theorem execSchedulerRestart_canonical : Canonical (execSchedulerRestart s) := by
  obtain ⟨t, he, ht⟩ := schedulerRestart_onlyEvents s
  rw [he, canonical_next, ht.mem]
  exact h

end
end Sys2Proof.Machine

/-! ### Invalidations, walks, and accesses of other devices: what they write (R243, R352, R356, R361). -/
namespace Sys2Proof.Machine

@[simp] theorem State.mem_sendInval (s : State) (b : BankId) (asid va : Option Nat) (dirtyOnly : Bool) :
    (s.sendInval b asid va dirtyOnly).mem = s.mem := by
  simp only [State.sendInval]
  split <;> rfl

@[simp] theorem State.mem_logWalk (s : State) (part asid va : Nat) (f : XFault) : (s.logWalk part asid va f).mem = s.mem := by
  simp only [State.logWalk]
  split
  · rfl
  · split <;> rfl

@[simp] theorem State.mem_logExport (s : State) (off : Nat) (f : XFault) : (s.logExport off f).mem = s.mem := by
  simp only [State.logExport]
  split <;> simp

@[simp] theorem State.mem_reply (s : State) (off n : Nat) (data : Option (List Byte)) (f : Option XFault) :
    (s.reply off n data f).mem = s.mem := rfl

theorem stateOf_wf {o : Out} {s : State} (ho : Canonical o) (hs : memWf s.mem = true) : memWf (stateOf o s).mem = true := by
  simp only [stateOf]
  split
  · exact canonical_next.mp ho
  · exact hs

/-- The state of a translation that this device answers. -/
theorem Tr.state_ok {q : Tr} {s t : State} {x : Xlat} (hq : memWf (q.state s).mem = true) (he : q = .ok x t) : memWf t.mem = true := by
  subst he
  exact hq

theorem Tr.state_fault {q : Tr} {s t : State} {f : XFault} (hq : memWf (q.state s).mem = true) (he : q = .fault f t) :
    memWf t.mem = true := by
  subst he
  exact hq

section
variable {s : State} (h : memWf s.mem = true)
include h

@[simp] theorem State.wf_returnLoads (b : BankId) : memWf (s.returnLoads b).mem = true :=
  foldl_wf _ (fun _ id ht => stateOf_wf (execLoadReturn_canonical ht b id) ht) _ _ h

@[simp] theorem State.wf_performOwn (b : BankId) : memWf (s.performOwn b).mem = true := State.wf_performAll h _

@[simp] theorem State.wf_finishPart (part : Nat) (cores : Nat → Bool) : memWf (s.finishPart part cores).mem = true :=
  State.wf_performAll (foldl_wf _ (fun _ b ht => State.wf_performAmons (State.wf_returnLoads ht b) b) _ _ h) _

theorem tlbinv_wf {f : State → Res} {b : BankId} (hf : ∀ t, memWf t.mem = true → memWf (f t).state.mem = true) :
    memWf (tlbinv f s b).state.mem = true := by
  have ht := State.wf_performOwn h b
  simp only [tlbinv]
  split
  · exact h
  split
  · exact ht
  · exact hf _ ht

theorem execTlbinvPage_canonical (g : Guard) (ra : Src) (asid : BitVec 12) : Canonical (execTlbinvPage g ra asid s) := by
  refine runC_canonical h fun b => Ev.andThen_wf h fun _ _ => Ev.andThen_wf h fun _ _ => tlbinv_wf h fun t ht => Ev.andThen_wf ht ?_
  rintro ⟨v, q⟩ -
  dsimp only [Res.state_done]
  split
  · rwa [State.mem_sendInval]
  · exact ht

theorem execTlbinvAsid_canonical (g : Guard) (asid : BitVec 12) : Canonical (execTlbinvAsid g asid s) :=
  runC_canonical h fun _ => tlbinv_wf h fun _ ht => by simpa using ht

theorem execTlbinvPart_canonical (g : Guard) : Canonical (execTlbinvPart g s) :=
  runC_canonical h fun _ => tlbinv_wf h fun _ ht => by simpa using ht

@[simp] theorem State.wf_ackInval (v : Inval) : memWf (s.ackInval v).mem = true := State.wf_finishPart (by exact h) ..

theorem execTlbAcknowledge_canonical (t : TlbHolder) : Canonical (execTlbAcknowledge t s) :=
  canonical_next.mpr (foldl_wf _ (fun _ v ht => State.wf_ackInval ht v) _ _ h)

theorem execTlbsync_canonical (g : Guard) : Canonical (execTlbsync g s) := runC_canonical h fun _ => Res.wf_ite h h

theorem execDirtysync_canonical (g : Guard) (asid : BitVec 12) : Canonical (execDirtysync g asid s) := by
  refine runC_canonical h fun b => ?_
  dsimp only
  repeat' split
  all_goals simpa using h

theorem execPageWalk_canonical (core part asid va : Nat) (write : Bool) : Canonical (execPageWalk core part asid va write s) := by
  have ht := s.walk_wf (holdersOf core) part asid va write h
  simp only [execPageWalk]
  split
  · exact canonical_next.mpr h
  split
  · next hw => exact canonical_next.mpr (Tr.state_ok ht hw)
  · next hw =>
    rw [canonical_next, State.mem_logWalk]
    exact Tr.state_fault ht hw
  · exact canonical_next.mpr h

end

theorem exportWrite_wf (fuel : Nat) : ∀ {s : State} (off : Nat) (bs : List Byte), memWf s.mem = true →
    memWf (exportWrite fuel s off bs).1.mem = true := by
  induction fuel with
  | zero => intro s off bs h; exact h
  | succ fuel ih =>
    intro s off bs h
    have ht := s.exportXlat_wf off true h
    simp only [exportWrite]
    split
    · exact h
    split
    · next hx =>
      have hu := Tr.state_ok ht hx
      split
      · exact ih _ _ (State.wf_performWrite (State.wf_landHome hu ..) ..)
      · exact hu
    · next hx =>
      rw [State.mem_logExport]
      exact Tr.state_fault ht hx
    · exact h

/-- The state in what a read of the exported window gives. -/
def exportState {α β : Type} : Except (α × State) (β × State) → State
  | .ok (_, t) | .error (_, t) => t

theorem exportRead_wf (fuel : Nat) : ∀ {s : State} (off n : Nat), memWf s.mem = true →
    memWf (exportState (exportRead fuel s off n)).mem = true := by
  induction fuel with
  | zero => intro s off n h; exact h
  | succ fuel ih =>
    intro s off n h
    have ht := s.exportXlat_wf off false h
    simp only [exportRead]
    split
    · exact h
    split
    · next x u hx =>
      have hu := Tr.state_ok ht hx
      split
      · have hr := ih (off + min n (8 - off % 8)) (n - min n (8 - off % 8)) hu
        split
        · next he => rwa [he] at hr
        · next he => rwa [he] at hr
      · exact hu
    · next hx =>
      rw [exportState, State.mem_logExport]
      exact Tr.state_fault ht hx
    · exact h

section
variable {s : State} (h : memWf s.mem = true)
include h

@[simp] theorem State.wf_serveWrite (off : Nat) (bs : List Byte) : memWf (s.serveWrite off bs).mem = true := by
  have ht := exportWrite_wf (bs.length / 8 + 2) off bs h
  simp only [State.serveWrite]
  split
  · next he => rwa [he] at ht
  · next he => rwa [he] at ht

@[simp] theorem State.wf_serveRead (off n : Nat) : memWf (s.serveRead off n).mem = true := by
  have ht := exportRead_wf (n / 8 + 2) off n h
  simp only [State.serveRead]
  split
  · next he => rwa [he] at ht
  · next he => rwa [he] at ht
  · next he => rwa [he] at ht

@[simp] theorem State.wf_serveAtomic (off : Nat) (a : RemoteAtomic) : memWf (s.serveAtomic off a).mem = true := by
  have ht := s.exportXlat_wf off true h
  simp only [State.serveAtomic]
  split
  · next hx =>
    rw [State.mem_reply, State.mem_logExport]
    exact Tr.state_fault ht hx
  · exact h
  · next hx =>
    have hu := Tr.state_ok ht hx
    split
    · exact hu
    · have hw := State.wf_performAll hu
      split
      · rw [State.mem_reply]
        exact State.wf_performWrite (hw _) ..
      · exact State.wf_performWrite (hw _) ..

theorem execDomainWindowAccess_canonical (off : Nat) (r : WindowReq) (len : Nat) : Canonical (execDomainWindowAccess off r len s) := by
  simp only [execDomainWindowAccess]
  repeat' split
  all_goals simp [h]

theorem execUeRmaRequest_canonical (r : UeReq) : Canonical (execUeRmaRequest r s) := by
  simp only [execUeRmaRequest]
  repeat' split
  all_goals simp [h]

end
end Sys2Proof.Machine

/-! ### Saving and restoring teams: what they write (R298, R299, R387 to R391). -/
namespace Sys2Proof.Machine

@[simp] theorem State.mem_rejectResume (s : State) (b : BankId) (job reason tag : Nat) (vs : List Nat) :
    (s.rejectResume b job reason tag vs).mem = s.mem := rfl
@[simp] theorem State.mem_modTeam (s : State) (job jd jc : Nat) (f : TeamRec → TeamRec) : (s.modTeam job jd jc f).mem = s.mem := rfl

section
variable {s : State} (h : memWf s.mem = true)
include h

@[simp] theorem State.wf_drainBank (b : BankId) : memWf (s.drainBank b).mem = true := by
  simp only [State.drainBank]
  refine foldl_wf _ (fun _ v ht => State.wf_ackInval ht v) _ _ ?_
  have hp := fun l => State.wf_endTiles (State.wf_performAll (State.wf_performAmons (State.wf_returnLoads h b) b) l) b
  have ha := fun l => stateOf_wf (execAttarStackReply_canonical (hp l) b) (hp l)
  split
  · exact foldl_wf _ (fun _ (o : PlyOp) ht => State.wf_plySendAll ht o.id) _ _ (ha _)
  · exact ha _

@[simp] theorem State.wf_finishXfers (b : BankId) : memWf (s.finishXfers b).mem = true := by
  refine foldl_wf _ (fun t ch ht => ?_) _ _ h
  exact foldl_wf _ (fun _ (x : Xfer) hu => stateOf_wf (execTransferComplete_canonical hu b ch x.id) hu) _ _ ht

@[simp] theorem State.wf_saveTeam (j : Job) (jd jc reason : Nat) (runnable free : Bool) :
    memWf (s.saveTeam j jd jc reason runnable free).mem = true := by
  simp only [State.saveTeam]
  refine State.wf_migFinish ?_ _
  rw [State.mem_modJob]
  refine foldl_wf _ (fun t q ht => ?_) _ _ ?_
  · rwa [State.mem_pickBank]
  · exact State.wf_writeOrLog h ..

theorem execPreemptDrainExpiry_canonical (b : BankId) : Canonical (execPreemptDrainExpiry b s) := by
  simp only [execPreemptDrainExpiry]
  repeat' split
  all_goals simp [h]

theorem execQuantumBoundary_canonical (job jd jc : Nat) : Canonical (execQuantumBoundary job jd jc s) := by
  simp only [execQuantumBoundary]
  repeat' split
  all_goals simp [h]

theorem execLongWaitSwap_canonical (job jd jc : Nat) : Canonical (execLongWaitSwap job jd jc s) := by
  simp only [execLongWaitSwap]
  split
  · exact canonical_next.mpr h
  split
  · exact canonical_next.mpr h
  split
  · exact canonical_next.mpr h
  · rw [canonical_next, State.mem_logSched]
    refine State.wf_saveTeam (foldl_wf _ (fun t q ht => ?_) _ _ h) ..
    exact State.wf_drainBank (State.wf_finishXfers ht q.1) q.1

theorem execWakeSourceFire_canonical (job jd jc : Nat) : Canonical (execWakeSourceFire job jd jc s) := by
  simp only [execWakeSourceFire]
  repeat' split
  all_goals exact canonical_next.mpr h

/-- A restored core takes its scratchpad from the save (R388). -/
@[simp] theorem State.wf_restoreCore (j : Job) (v : Save) (t : SavedTeam) (jk : Nat) (b : BankId) (k : Bank) (spad : List Byte) :
    memWf (s.restoreCore j v t jk b k spad).mem = true := by
  have hr := fun c : Binding => State.wf_performWrite (core := none) (place := spadPlace b.core 0) (bs := spad) (rmw := false)
    (State.wf_logReads (s := s.setBank b (k.restored s j c)) h j.part (s.jobAsid j) k.overlayBytes)
  simp only [State.restoreCore]
  split
  · split
    · refine State.wf_applyAnswer ?_ ..
      exact hr _
    · rw [State.mem_pickBank]
      exact hr _
  · rw [State.mem_pickBank]
    exact hr _

theorem State.openSave_wf {j : Job} {b : BankId} {asid va : Nat} {t : State} (he : s.openSave j b asid va = .error t) :
    memWf t.mem = true := by
  simp only [State.openSave] at he
  split at he
  · cases he
  · cases he
    rw [State.mem_rejectResume]
    exact State.wf_logReads h ..

theorem execResume_canonical (r : BindRec) : Canonical (execResume r s) := by
  simp only [execResume]
  refine Canonical.ite (canonical_next.mpr h) (Canonical.ite (canonical_next.mpr h) (Canonical.ite (canonical_next.mpr h) ?_))
  split
  · exact canonical_next.mpr h
  split
  · next ho => exact canonical_next.mpr (State.openSave_wf h ho)
  repeat' split
  all_goals simp [h]

theorem execTeamRebind_canonical (job jd jc bank : Nat) : Canonical (execTeamRebind job jd jc bank s) := by
  simp only [execTeamRebind]
  split
  · exact canonical_next.mpr h
  split
  · split
    · exact canonical_next.mpr h
    refine Canonical.ite (canonical_next.mpr h) ?_
    split
    · next ho => exact canonical_next.mpr (State.openSave_wf h ho)
    refine Canonical.ite (canonical_next.mpr h) (canonical_next.mpr (foldl_wf _ (fun t q ht => ?_) _ _ h))
    split
    · exact State.wf_restoreCore ht ..
    · exact ht
  · exact canonical_next.mpr h

end
end Sys2Proof.Machine

/-! ### Sillage, trust, system registers and the commands of a window: what they write (R322, R365 to R371, R379 to R386). -/
namespace Sys2Proof.Machine

@[simp] theorem State.mem_modTrust (s : State) (f : Trust → Trust) : (s.modTrust f).mem = s.mem := rfl
@[simp] theorem State.mem_resetDevice (s : State) : s.resetDevice.mem = [] := rfl

@[simp] theorem State.mem_writeCtxbank (s : State) (b : BankId) (v : Word) : (s.writeCtxbank b v).mem = s.mem := by
  simp only [State.writeCtxbank]
  split <;> rfl

theorem memWf_nil : memWf [] = true := rfl

theorem execBoot_canonical (mgmt sched : List Byte) (s : State) : Canonical (execBoot mgmt sched s) := by
  simp only [execBoot]
  repeat' split
  all_goals exact canonical_next.mpr memWf_nil

theorem execPowerLoss_canonical (s : State) : Canonical (execPowerLoss s) := canonical_next.mpr memWf_nil

section
variable {s : State} (h : memWf s.mem = true)
include h

theorem execSillageRecord_canonical (job : Nat) : Canonical (execSillageRecord job s) := by
  simp only [execSillageRecord]
  repeat' split
  all_goals simp [h]

theorem execPartitionCreate_canonical (r : PartRec) : Canonical (execPartitionCreate r s) := by
  simp only [execPartitionCreate]
  repeat' split
  all_goals exact canonical_next.mpr h

theorem execDeviceIdAssign_canonical (id : Nat) : Canonical (execDeviceIdAssign id s) :=
  Canonical.ite (canonical_next.mpr h) (canonical_next.mpr h)

theorem execMeasExtend_canonical (part idx : Nat) (d : List Byte) : Canonical (execMeasExtend part idx d s) :=
  Canonical.ite (canonical_next.mpr h) (canonical_next.mpr h)

theorem execQuoteRequest_canonical (part : Nat) (nonce : List Byte) : Canonical (execQuoteRequest part nonce s) := by
  simp only [execQuoteRequest]
  repeat' split
  all_goals exact canonical_next.mpr h

theorem execFirmwareRecoveryImage_canonical (img : FwImage) : Canonical (execFirmwareRecoveryImage img s) := by
  simp only [execFirmwareRecoveryImage]
  repeat' split
  · exact canonical_next.mpr h
  · exact canonical_next.mpr h
  · exact canonical_next.mpr memWf_nil

/-! System registers. -/

@[simp] theorem State.wf_writeDirty (b : BankId) (v : Word) : memWf (s.writeDirty b v).mem = true := by
  simp only [State.writeDirty]
  split
  · exact State.wf_performWrite h ..
  · exact h

theorem writeReg_wf {b : BankId} {r : SysReg} {v : Word} {fin : State → Word → Res}
    (hf : ∀ t old, memWf t.mem = true → memWf (fin t old).state.mem = true) : memWf (writeReg s b r v fin).state.mem = true := by
  simp only [writeReg]
  split
  · exact hf _ _ (by simpa using h)
  · split
    · exact hf _ _ h
    · exact Res.wf_ite h (hf _ _ (State.wf_writeDirty h ..))
  · exact hf _ _ h

theorem Res.unpopped_wf {r : Res} (hr : memWf r.state.mem = true) : memWf (r.unpopped s).state.mem = true := by
  cases r with
  | wait => exact h
  | done | jumped | trap | heldTrap => exact hr

theorem sysWrite_wf (rd : Option Dst) (r : SysReg) (ra : Src) (b : BankId) : memWf (sysWrite rd r ra s b).state.mem = true := by
  refine Ev.andThen_wf h ?_
  rintro ⟨v, k⟩ -
  dsimp only
  split
  · exact Res.unpopped_wf h (writeReg_wf (by exact h) fun _ _ ht => ht)
  · split
    · rwa [Stop.mem_res]
    · exact Res.unpopped_wf h (writeReg_wf (by exact h) fun _ _ ht => Ev.andThen_done_wf ht fun _ => rfl)

theorem execSrd_canonical (g : Guard) (rd : Dst) (r : SysReg) : Canonical (execSrd g rd r s) :=
  runC_canonical h fun _ => Ev.andThen_wf h fun _ _ => Ev.andThen_done_wf h fun _ => rfl

theorem execSwr_canonical (g : Guard) (r : SysReg) (ra : Src) : Canonical (execSwr g r ra s) := runC_canonical h fun _ => sysWrite_wf h ..
theorem execSrx_canonical (g : Guard) (rd : Dst) (r : SysReg) (ra : Src) : Canonical (execSrx g rd r ra s) :=
  runC_canonical h fun _ => sysWrite_wf h ..

theorem execDirtyctlWrite_canonical (b : BankId) : Canonical (execDirtyctlWrite b s) := by
  simp only [execDirtyctlWrite]
  split
  · rw [canonical_next, State.mem_wake, State.mem_modBank]
    exact State.wf_writeDirty (State.wf_finishPart h ..) ..
  · exact canonical_next.mpr h

/-! Traps and the ends of drains. -/

theorem execTrap_canonical (g : Guard) (imm : BitVec 15) : Canonical (execTrap g imm s) :=
  Canonical.ite (canonical_next.mpr (State.wf_deliver h ..)) (canonical_next.mpr (finishC_wf (r := .done s) h ..))

theorem execEret_canonical (g : Guard) : Canonical (execEret g s) := runC_canonical h fun _ => State.wf_trapReturn h _

theorem execBrk_canonical (g : Guard) (imm : BitVec 15) : Canonical (execBrk g imm s) :=
  Canonical.ite (canonical_next.mpr (State.wf_deliver h ..)) (runC_canonical h fun _ => by simpa using h)

theorem execHalt_canonical (g : Guard) (imm : BitVec 15) : Canonical (execHalt g imm s) := runC_canonical h fun _ => by simpa using h

@[simp] theorem State.wf_switchBank (core : Nat) : memWf (s.switchBank core).mem = true := by
  simp only [State.switchBank]
  repeat' split
  all_goals simp [h]

theorem execBankSwitch_canonical (core : Nat) : Canonical (execBankSwitch core s) := canonical_next.mpr (State.wf_switchBank h _)

theorem execCtxbankWrite_canonical (b : BankId) : Canonical (execCtxbankWrite b s) :=
  Canonical.ite (canonical_next.mpr (State.wf_switchBank h _)) (canonical_next.mpr h)

theorem execRingTrap_canonical (b : BankId) : Canonical (execRingTrap b s) := by
  simp only [execRingTrap]
  repeat' split
  all_goals simp [h]

/-! Window commands. -/

theorem execFanswerRetry_canonical (part seq : Nat) : Canonical (execFanswerRetry part seq s) := canonical_next.mpr (by simp [h])
theorem execFanswerDeliver_canonical (part seq : Nat) : Canonical (execFanswerDeliver part seq s) := canonical_next.mpr (by simp [h])
theorem execFanswerAbort_canonical (part seq : Nat) : Canonical (execFanswerAbort part seq s) := canonical_next.mpr (by simp [h])
theorem execDbgcmdHalt_canonical (part : Nat) (b : BankId) : Canonical (execDbgcmdHalt part b s) := canonical_next.mpr (by simp [h])
theorem execDbgcmdResume_canonical (part : Nat) (b : BankId) : Canonical (execDbgcmdResume part b s) := canonical_next.mpr (by simp [h])
theorem execDbgcmdAttach_canonical (part : Nat) (b : BankId) : Canonical (execDbgcmdAttach part b s) := canonical_next.mpr (by simp [h])
theorem execDbgcmdDetach_canonical (part : Nat) (b : BankId) : Canonical (execDbgcmdDetach part b s) := canonical_next.mpr (by simp [h])
theorem execMigcmdStart_canonical (part arg : Nat) : Canonical (execMigcmdStart part arg s) := canonical_next.mpr (by simp [h])
theorem execMigcmdRound_canonical (part arg : Nat) : Canonical (execMigcmdRound part arg s) := canonical_next.mpr (by simp [h])
theorem execMigcmdStop_canonical (part arg : Nat) : Canonical (execMigcmdStop part arg s) := canonical_next.mpr (by simp [h])
theorem execMigcmdCancel_canonical (part arg : Nat) : Canonical (execMigcmdCancel part arg s) := canonical_next.mpr (by simp [h])

theorem execRegisterWindowWrite_canonical (part off size : Nat) (v : Word) : Canonical (execRegisterWindowWrite part off size v s) :=
  canonical_next.mpr (by simp [h])

end
end Sys2Proof.Machine

/-! ### Uncorrectable errors, failed cores, links, power and the target of a migration: what they write (R392 to R405). -/
namespace Sys2Proof.Machine

@[simp] theorem State.mem_modHealth (s : State) (f : Health → Health) : (s.modHealth f).mem = s.mem := rfl
@[simp] theorem State.mem_emitFlit (s : State) (link : Nat) (f : Flit) : (s.emitFlit link f).mem = s.mem := rfl
@[simp] theorem State.mem_setLink (s : State) (n : Nat) (l : LinkState) : (s.setLink n l).mem = s.mem := rfl
@[simp] theorem State.mem_noteRetrain (s : State) (link : Nat) : (s.noteRetrain link).mem = s.mem := rfl
@[simp] theorem State.mem_sense (s : State) (power temp : Nat) : (s.sense power temp).mem = s.mem := rfl
@[simp] theorem State.mem_moveWork (s : State) (part : Nat) (m : MigJob) (dies : List Nat) : (s.moveWork part m dies).mem = s.mem := rfl
@[simp] theorem State.mem_moveRegion (s : State) (part job : Nat) (r : AttarRegion) : (s.moveRegion part job r).mem = s.mem := rfl

@[simp] theorem State.mem_withdraw (s : State) (b : BankId) : (s.withdraw b).mem = s.mem := by
  simp only [State.withdraw]
  split
  · split
    · rfl
    split
    · exact State.mem_foldl _ (fun _ _ => State.mem_modBank ..) _ _
    · split <;> rfl
  · rfl

@[simp] theorem State.mem_losePly (s : State) (op index : Nat) : (s.losePly op index).mem = s.mem := by
  simp only [State.losePly]
  repeat' split
  all_goals simp

@[simp] theorem State.mem_migRelease (s : State) (part job : Nat) : (s.migRelease part job).mem = s.mem := by
  simp only [State.migRelease]
  split
  · rfl
  · rw [State.mem_modPart, State.mem_foldl _ (fun _ _ => State.mem_setEvents ..), State.mem_retireJob]

section
variable {s : State} (h : memWf s.mem = true)
include h

/-! Errors (R393, R394). -/

@[simp] theorem State.wf_raiseEcc (b : BankId) (struct detail : Nat) : memWf (s.raiseEcc b struct detail).mem = true :=
  State.wf_ite (State.wf_trapC (by simpa using h) ..) h

@[simp] theorem State.wf_lineRecord (pa : Nat) : memWf (s.lineRecord pa).mem = true := by
  simp only [State.lineRecord]
  repeat' split
  all_goals simp [h]

@[simp] theorem State.wf_loseLine (line : Nat) : memWf (s.loseLine line).mem = true :=
  State.wf_lineRecord (State.wf_performWrite (by exact h) ..) _

@[simp] theorem State.wf_markBad (place : Nat) : memWf (s.markBad place).mem = true :=
  foldl_wf _ (fun _ b ht => State.wf_returnLoads ht b) _ _ h

theorem execEccError_canonical (site : EccSite) : Canonical (execEccError site s) := by
  refine canonical_next.mpr ?_
  cases site with
  | bankState b struct detail => exact State.wf_ite (State.wf_raiseEcc (by exact h) ..) h
  | register b file n => exact State.wf_ite (State.wf_raiseEcc (by exact h) ..) h
  | spanReg b n => exact State.wf_ite h (State.wf_raiseEcc (by exact h) ..)
  | instrMemory b kind => exact State.wf_ite h (State.wf_raiseEcc (by exact h) ..)
  | memory pa => exact State.wf_ite (State.wf_markBad h _) h
  | scratchpad core off => exact State.wf_ite (State.wf_markBad h _) h
  | cleanLine line => exact h
  | modifiedLine line => exact State.wf_ite (State.wf_loseLine h _) h
  | plyBuffer op index => rwa [State.mem_losePly]
  | heldAccess b path chan id addr => exact h

/-! Failed cores (R397, R398). -/

@[simp] theorem State.wf_abortEcc (b : BankId) : memWf (s.abortEcc b).mem = true :=
  State.wf_ite (State.wf_abortJob (by exact h) ..) h

@[simp] theorem State.wf_loseBank (b : BankId) : memWf (s.loseBank b).mem = true :=
  State.wf_abortEcc (s := s.modBank b (fun k => { k with chan := Vector.replicate 8 Chan.reset, amons := [], outLoads := [] })) h b

@[simp] theorem State.wf_retireCluster (c : Nat) : memWf (s.retireCluster c).mem = true :=
  foldl_wf _ (fun _ b ht => State.wf_abortEcc ht b) _ _ h

theorem execCoreFailure_canonical (core : Nat) : Canonical (execCoreFailure core s) := by
  simp only [execCoreFailure]
  split
  · exact canonical_next.mpr h
  · rw [canonical_next]
    refine State.wf_ite (State.wf_retireCluster ?_ _) ?_
    all_goals
      refine State.wf_performWrite ?_ ..
      exact State.wf_loseBank (State.wf_loseBank (by exact h) _) _

theorem execRowRepair_canonical (stack bank : Nat) : Canonical (execRowRepair stack bank s) :=
  Canonical.ite (canonical_next.mpr h) (canonical_next.mpr h)

/-! Links (R395, R396). -/

@[simp] theorem State.wf_loseFlit (c : Option Carried) : memWf (s.loseFlit c).mem = true := by
  simp only [State.loseFlit]
  repeat' split
  all_goals simp [h]

@[simp] theorem State.wf_replay (link : Nat) : memWf (s.replay link).mem = true := by
  simp only [State.replay]
  split
  · refine foldl_wf _ (fun t e ht => ?_) _ _ h
    exact ht
  · refine foldl_wf _ (fun t e ht => State.wf_loseFlit ht _) _ _ ?_
    rw [State.mem_noteRetrain]
    refine foldl_wf _ (fun t e ht => ?_) _ _ h
    exact ht

@[simp] theorem State.wf_heedAck (link : Nat) (f : Flit) : memWf (s.heedAck link f).mem = true := by
  have ht : memWf (if f.ackv || f.nak then s.setLink link ((s.link link).acked f.ackseq) else s).mem = true := State.wf_ite h h
  exact State.wf_ite (State.wf_replay ht _) ht

theorem execLinkFlit_canonical (link : Nat) (f : Flit) : Canonical (execLinkFlit link f s) := by
  simp only [execLinkFlit]
  repeat' split
  all_goals simp [h]

theorem execLinkTraining_canonical (link vmaj vmin : Nat) : Canonical (execLinkTraining link vmaj vmin s) := by
  simp only [execLinkTraining]
  repeat' split
  all_goals simp [h]

/-! Power (R405). -/

theorem execThrottleEnter_canonical (level power temp : Nat) : Canonical (execThrottleEnter level power temp s) :=
  Canonical.ite (canonical_next.mpr h) (canonical_next.mpr h)

theorem execThrottleExit_canonical (level : Nat) : Canonical (execThrottleExit level s) :=
  Canonical.ite (canonical_next.mpr h) (canonical_next.mpr h)

theorem execThermalShutdown_canonical (temp : Nat) : Canonical (execThermalShutdown temp s) :=
  Canonical.ite (canonical_next.mpr h) (canonical_next.mpr memWf_nil)

/-! The target of a migration (R401, R402). -/

theorem execMigrationKeySupply_canonical (part : Nat) (key : List Byte) : Canonical (execMigrationKeySupply part key s) :=
  Canonical.ite (canonical_next.mpr h) (canonical_next.mpr (by simpa using h))

@[simp] theorem State.wf_applyGranule (part : Nat) (r : PartRec) (p : MigPacket) (bs : List Byte) :
    memWf (s.applyGranule part r p bs).1.mem = true := by
  simp only [State.applyGranule]
  split
  · exact h
  split
  · exact h
  split
  · next hw =>
    rw [State.mem_modMig]
    exact writeVA_wf _ _ _ _ _ _ _ _ _ h hw
  · simpa using h

@[simp] theorem State.wf_moveGranule (part asid va : Nat) : memWf (s.moveGranule part asid va).mem = true := by
  simp only [State.moveGranule]
  split
  · next hr =>
    have ht := State.reachVA_ok_wf hr h
    dsimp only
    exact State.wf_performWrite (State.wf_landHome ht ..) ..
  · exact h

@[simp] theorem State.wf_moveTeam (j : Job) (jd jc base : Nat) (bs : List Byte) : memWf (s.moveTeam j jd jc base bs).mem = true :=
  State.wf_writeOrLog h ..

theorem State.migInstall_wf {part : Nat} {t : State} (he : s.migInstall part = some t) : memWf t.mem = true := by
  simp only [State.migInstall] at he
  split at he
  · cases he
    exact h
  split at he
  · cases he
    exact h
  split at he
  · cases he
    exact h
  · rw [Option.map_eq_some_iff] at he
    obtain ⟨dies, -, rfl⟩ := he
    rw [State.mem_modPart]
    refine foldl_wf _ (fun t q ht => ?_) _ _ ?_
    · exact ht
    refine foldl_wf _ (fun t va ht => State.wf_moveGranule ht ..) _ _ ?_
    refine foldl_wf _ (fun t q ht => ?_) _ _ ?_
    · exact ht
    refine foldl_wf _ (fun t q ht => State.wf_moveTeam ht ..) _ _ ?_
    exact h

theorem execMigrationPacket_canonical (part : Nat) (p : MigPacket) : Canonical (execMigrationPacket part p s) := by
  simp only [execMigrationPacket]
  split
  · exact canonical_next.mpr h
  split
  · exact canonical_next.mpr h
  refine Canonical.ite (canonical_next.mpr h) (Canonical.ite (canonical_next.mpr ?_) ?_)
  · refine State.wf_ite ?_ (State.wf_applyGranule h ..)
    rw [State.mem_modMig]
    exact State.wf_applyGranule h ..
  · split
    · next hi => exact canonical_next.mpr (State.migInstall_wf (by simpa using h) hi)
    · exact canonical_next.mpr h

theorem execMigrationAcknowledge_canonical (part : Nat) (counters : List Nat) : Canonical (execMigrationAcknowledge part counters s) := by
  simp only [execMigrationAcknowledge]
  repeat' split
  all_goals simp [h]

end
end Sys2Proof.Machine

/-! ### Every step of the machine keeps memory canonical (R199). -/
namespace Sys2Proof.Machine

theorem State.mem_fetch_run {s : State} {i : StreamId} {ins : Instr} {t : State} (hf : s.fetch i = .run ins t) : t.mem = s.mem := by
  simp only [State.fetch] at hf
  repeat' split at hf
  all_goals cases hf
  rfl

section
variable {s : State} (h : memWf s.mem = true)
include h

/-- Every instruction and every event keeps memory canonical. -/
theorem exec_canonical (i : Instr) : Canonical (exec i s) := by
  cases i with
  | add | sub | mul | mulhS | mulhN | divS | divN | remS | remN | and | or | xor | andn | shl | shr | sra | rol | minS |
      minN | maxS | maxN | clz | ctz | popc | bswap | extr | ins | sext | zext | addi | andi | ori | xori | shli | shri |
      srai | movi | movhi | cmpi | cmp | sel | cand | cor | cnot | fadd | fsub | fmul | fma | fmin | fmax | fcmp | fcvt |
      tset | tget | thand | bfset | map | mapTile | mclr | cpstatNext | cpstatBusy | plystat | plystatClr | qpush | qpop |
      qpeek | qpeekCnt | spmint | spnarrow | spoff | spget | spmov | spmovClr => exact pureC_canonical h
  | gmov | gadd | gsub | gcmp | gqpop | gqpush | gsig | gthand => exact pureG_canonical h
  | jr | callr | ret => exact runC_canonical h fun _ => jumpTo_wf h ..
  | ld | ldSigned | ldp => exact runC_canonical h fun _ => weakLoad_wf h ..
  | st | stp | tst | mst => exact runC_canonical h fun _ => weakStore_wf h ..
  | amo | amoB | amoN | cas | casB => exact runC_canonical h fun _ => atomicReturn_wf h ..
  | amon | amonB | amonN => exact runC_canonical h fun _ => atomicAccept_wf h ..
  | flset | flclr => exact runC_canonical h fun _ => flagWrite_wf h ..
  | weakStorePerform => exact canonical_next.mpr (State.wf_performStore h _)
  | fencePComplete | queueWake | flagWaitWake | gidleWake | hankWaitWake | waitaWake | tensorOwnerWake =>
    exact canonical_next.mpr (by rwa [State.mem_wake])
  | br g off => exact execBr_canonical h g off
  | bc g cc ra rb off => exact execBc_canonical h g cc ra rb off
  | call g rl off => exact execCall_canonical h g rl off
  | loop g lc ra rb off => exact execLoop_canonical h g lc ra rb off
  | lda g size sc rd m => exact execLda_canonical h g size sc rd m
  | stl g size sc rs m => exact execStl_canonical h g size sc rs m
  | pref g m => exact execPref_canonical h g m
  | flush g sc m => exact execFlush_canonical h g sc m
  | fence g ord sc => exact execFence_canonical h g ord sc
  | fenceP g mask => exact execFenceP_canonical h g mask
  | waita g cc wide sc rd m rs2 rs3 => exact execWaita_canonical h g cc wide sc rd m rs2 rs3
  | loadReturn b id => exact execLoadReturn_canonical h b id
  | amonPerform b id => exact execAmonPerform_canonical h b id
  | tdef g t m => exact execTdef_canonical h g t m
  | tld g t m => exact execTld_canonical h g t m
  | mld g mr m => exact execMld_canonical h g mr m
  | mchk g kind rx a => exact execMchk_canonical h g kind rx a
  | ctr g a => exact execCtr_canonical h g a
  | ctrs g a => exact execCtrs_canonical h g a
  | red g a => exact execRed_canonical h g a
  | cvt g a => exact execCvt_canonical h g a
  | ewr g a => exact execEwr_canonical h g a
  | gridIssue b => exact execGridIssue_canonical h b
  | gridComplete b seq => exact execGridComplete_canonical h b seq
  | hashMessage id => exact execHashMessage_canonical h id
  | routeTagGrant job => exact execRouteTagGrant_canonical h job
  | goMessage id => exact execGoMessage_canonical h id
  | stopMessage id => exact execStopMessage_canonical h id
  | opndMessage id => exact execOpndMessage_canonical h id
  | nodeMessage id => exact execNodeMessage_canonical h id
  | exactMessage id => exact execExactMessage_canonical h id
  | gloop g ra off => exact execGloop_canonical h g ra off
  | gbr g off => exact execGbr_canonical h g off
  | gbc g cc ra rb off => exact execGbc_canonical h g cc ra rb off
  | gsigD g fl => exact execGsigD_canonical h g fl
  | gwaitf g fl v => exact execGwaitf_canonical h g fl v
  | gdrain g => exact execGdrain_canonical h g
  | gidle g => exact execGidle_canonical h g
  | gend g => exact execGend_canonical h g
  | copy g ch sc cvr fa fb fc rx ry rz len => exact execCopy_canonical h g ch sc cvr fa fb fc rx ry rz len
  | tcopy g ch sc csb fa fc lsa lsc rx => exact execTcopy_canonical h g ch sc csb fa fc lsa lsc rx
  | mcast g ch sc cvr fa fb fc rx ry rz mask => exact execMcast_canonical h g ch sc cvr fa fb fc rx ry rz mask
  | transferComplete b ch id => exact execTransferComplete_canonical h b ch id
  | plysort g fa rx ry rz form => exact execPlysort_canonical h g fa rx ry rz form
  | plysend g ch fa rx ry rz form core hank => exact execPlysend_canonical h g ch fa rx ry rz form core hank
  | plyred g ch fa fb rx ry rz form => exact execPlyred_canonical h g ch fa fb rx ry rz form
  | plySlotCommit op => exact execPlySlotCommit_canonical h op
  | cpwait g ch rd ra => exact execCpwait_canonical h g ch rd ra
  | areg g fa rx ry rz hd lnu rows => exact execAreg_canonical h g fa rx ry rz hd lnu rows
  | aregFree g ry => exact execAregFree_canonical h g ry
  | aqpost g fa rx ry rz hr hank => exact execAqpost_canonical h g fa rx ry rz hr hank
  | aqwait g rx cr ry => exact execAqwait_canonical h g rx cr ry
  | aappend g fa rx ry hr => exact execAappend_canonical h g fa rx ry hr
  | acommit g rx ry hr => exact execAcommit_canonical h g rx ry hr
  | attarStackReply b => exact execAttarStackReply_canonical h b
  | attarSlotCommit b qid => exact execAttarSlotCommit_canonical h b qid
  | rdv g cls ext id => exact execRdv_canonical h g cls ext id
  | rdvOpen job id n slot => exact execRdvOpen_canonical h job id n slot
  | flwait g rd ra v fl => exact execFlwait_canonical h g rd ra v fl
  | hbind g hn ra => exact execHbind_canonical h g hn ra
  | hclaim g hn rd ra => exact execHclaim_canonical h g hn rd ra
  | hclaimR g hn rd ra core => exact execHclaimR_canonical h g hn rd ra core
  | hcommit g hn ra rb => exact execHcommit_canonical h g hn ra rb
  | hcommitR g hn ra rb core => exact execHcommitR_canonical h g hn ra rb core
  | hankRemoteMessage id => exact execHankRemoteMessage_canonical h id
  | hwaitf g hn rd ra => exact execHwaitf_canonical h g hn rd ra
  | hwaite g hn rd ra => exact execHwaite_canonical h g hn rd ra
  | htake g hn rd ra => exact execHtake_canonical h g hn rd ra
  | hdone g hn ra => exact execHdone_canonical h g hn ra
  | yieldC g => exact execYieldC_canonical h g
  | endC g => exact execEndC_canonical h g
  | waitDeadline b => exact execWaitDeadline_canonical h b
  | cpwaitWake b => exact execCpwaitWake_canonical h b
  | aqwaitWake b => exact execAqwaitWake_canonical h b
  | evset g ctx bit => exact execEvset_canonical h g ctx bit
  | evclr g ctx bit => exact execEvclr_canonical h g ctx bit
  | evwait g rd rb ctx bit => exact execEvwait_canonical h g rd rb ctx bit
  | evwaitWake b => exact execEvwaitWake_canonical h b
  | dinit g die rc ra rb => exact execDinit_canonical h g die rc ra rb
  | dclaim g rd die rc => exact execDclaim_canonical h g rd die rc
  | launch g rd m => exact execLaunch_canonical h g rd m
  | launchSlotWake b => exact execLaunchSlotWake_canonical h b
  | hostDoorbell part ctx tail => exact execHostDoorbell_canonical h part ctx tail
  | recordCopy part ctx dev torn => exact execRecordCopy_canonical h part ctx dev torn
  | dispatch part arrival jobid places => exact execDispatch_canonical h part arrival jobid places
  | graphInstanceStart part arrival => exact execGraphInstanceStart_canonical h part arrival
  | bind r => exact execBind_canonical h r
  | start r => exact execStart_canonical h r
  | preempt r => exact execPreempt_canonical h r
  | preemptDrainExpiry b => exact execPreemptDrainExpiry_canonical h b
  | resume r => exact execResume_canonical h r
  | release r => exact execRelease_canonical h r
  | jobComplete job => exact execJobComplete_canonical h job
  | quantumBoundary job jd jc => exact execQuantumBoundary_canonical h job jd jc
  | longWaitSwap job jd jc => exact execLongWaitSwap_canonical h job jd jc
  | wakeSourceFire job jd jc => exact execWakeSourceFire_canonical h job jd jc
  | teamRebind job jd jc bank => exact execTeamRebind_canonical h job jd jc bank
  | sillageRecord job => exact execSillageRecord_canonical h job
  | schedulerRestart => exact execSchedulerRestart_canonical h
  | spld g b m => exact execSpld_canonical h g b m
  | spst g b m => exact execSpst_canonical h g b m
  | ovld g rd ra rb => exact execOvld_canonical h g rd ra rb
  | ovldG g ra rb => exact execOvldG_canonical h g ra rb
  | hostMemoryWrite pa data => exact execHostMemoryWrite_canonical h pa data
  | tlbinvPage g ra asid => exact execTlbinvPage_canonical h g ra asid
  | tlbinvAsid g asid => exact execTlbinvAsid_canonical h g asid
  | tlbinvPart g => exact execTlbinvPart_canonical h g
  | tlbsync g => exact execTlbsync_canonical h g
  | dirtysync g asid => exact execDirtysync_canonical h g asid
  | tlbAcknowledge t => exact execTlbAcknowledge_canonical h t
  | pageWalk core part asid va write => exact execPageWalk_canonical h core part asid va write
  | domainWindowAccess off data len => exact execDomainWindowAccess_canonical h off data len
  | partitionCreate r => exact execPartitionCreate_canonical h r
  | deviceIdAssign id => exact execDeviceIdAssign_canonical h id
  | measExtend part idx d => exact execMeasExtend_canonical h part idx d
  | quoteRequest part nonce => exact execQuoteRequest_canonical h part nonce
  | boot mgmt sched => exact execBoot_canonical mgmt sched s
  | firmwareRecoveryImage img => exact execFirmwareRecoveryImage_canonical h img
  | trap g imm => exact execTrap_canonical h g imm
  | eret g => exact execEret_canonical h g
  | srd g rd r => exact execSrd_canonical h g rd r
  | swr g r ra => exact execSwr_canonical h g r ra
  | srx g rd r ra => exact execSrx_canonical h g rd r ra
  | brk g imm => exact execBrk_canonical h g imm
  | halt g imm => exact execHalt_canonical h g imm
  | ctxbankWrite b => exact execCtxbankWrite_canonical h b
  | dirtyctlWrite b => exact execDirtyctlWrite_canonical h b
  | ringTrap b => exact execRingTrap_canonical h b
  | bankSwitch core => exact execBankSwitch_canonical h core
  | fanswerRetry part seq => exact execFanswerRetry_canonical h part seq
  | fanswerDeliver part seq => exact execFanswerDeliver_canonical h part seq
  | fanswerAbort part seq => exact execFanswerAbort_canonical h part seq
  | dbgcmdHalt part b => exact execDbgcmdHalt_canonical h part b
  | dbgcmdResume part b => exact execDbgcmdResume_canonical h part b
  | dbgcmdAttach part b => exact execDbgcmdAttach_canonical h part b
  | dbgcmdDetach part b => exact execDbgcmdDetach_canonical h part b
  | migcmdStart part arg => exact execMigcmdStart_canonical h part arg
  | migcmdRound part arg => exact execMigcmdRound_canonical h part arg
  | migcmdStop part arg => exact execMigcmdStop_canonical h part arg
  | migcmdCancel part arg => exact execMigcmdCancel_canonical h part arg
  | migrationPacket part p => exact execMigrationPacket_canonical h part p
  | registerWindowWrite part off size v => exact execRegisterWindowWrite_canonical h part off size v
  | eccError site => exact execEccError_canonical h site
  | coreFailure core => exact execCoreFailure_canonical h core
  | linkFlit link f => exact execLinkFlit_canonical h link f
  | throttleEnter level power temp => exact execThrottleEnter_canonical h level power temp
  | throttleExit level => exact execThrottleExit_canonical h level
  | thermalShutdown temp => exact execThermalShutdown_canonical h temp
  | ueRmaRequest r => exact execUeRmaRequest_canonical h r
  | linkTraining link vmaj vmin => exact execLinkTraining_canonical h link vmaj vmin
  | rowRepair stack bank => exact execRowRepair_canonical h stack bank
  | powerLoss => exact execPowerLoss_canonical s
  | migrationKeySupply part key => exact execMigrationKeySupply_canonical h part key
  | migrationAcknowledge part counters => exact execMigrationAcknowledge_canonical h part counters

/-- What a fetch answers keeps memory canonical. -/
theorem State.fetch_trapped_wf {i : StreamId} {t : State} (hf : s.fetch i = .trapped t) : memWf t.mem = true := by
  simp only [State.fetch] at hf
  split at hf
  · cases hf
  split at hf
  · next he =>
    cases hf
    split at he
    · exact State.loadsEcc_wf h he
    · cases he
  split at hf
  · split at hf
    · cases hf
      exact State.wf_trapC h ..
    · cases hf
      exact finishG_wf (r := .trap s _) h ..
  · split at hf <;> cases hf

@[simp] theorem State.wf_plainTurn (t : Turn) : memWf (s.plainTurn t).mem = true := by
  cases t with
  | reach | migResend | gridWork | copyWork => simp [State.plainTurn, h]
  | conflict => exact State.wf_ite h h
  | ringConfig => exact State.wf_ite h h
  | linkSend => exact State.wf_ite h h
  | elapse | evictL1 | evictTlb | sense | attarScan | issue | event => exact h

theorem runTurn_canonical (t : Turn) : Canonical (runTurn t s) := by
  cases t with
  | issue i =>
    simp only [runTurn]
    split
    · exact canonical_next.mpr h
    · next hf => exact canonical_next.mpr (State.fetch_trapped_wf h hf)
    · next hf => exact exec_canonical (by rwa [State.mem_fetch_run hf]) _
  | event e => exact Canonical.ite (exec_canonical h e) (canonical_next.mpr h)
  | _ => exact canonical_next.mpr (State.wf_plainTurn h _)

theorem step_canonical : Canonical (step s) := by
  have ht : s.nextTurn.2.mem = s.mem := by
    simp only [State.nextTurn]
    split <;> rfl
  simp only [step]
  split
  · intro t he
    cases he
  · exact runTurn_canonical (by rwa [ht]) _

end
end Sys2Proof.Machine

namespace Sys2Proof.Claims
open Machine

/-- Settles O31: a step is a turn, and each instruction, event and plain turn writes memory only through `State.performWrite`, or resets
the device. -/
theorem memoryInvariant : Obligations.MemoryInvariant :=
  fun _ t h he => step_canonical h t he

end Sys2Proof.Claims

/-! ### The operands, the place and the operation of an atomic (R217, R223, R224). -/
namespace Sys2Proof.Machine
open Claims

/-- The two's-complement readings of the spec and of the library. -/
theorem sextNat_eq_toInt (v w : Nat) : sextNat v w = (BitVec.ofNat w v).toInt := by
  simp only [sextNat, BitVec.toInt, BitVec.toNat_ofNat]
  split <;> simp

/-- extend(old) of R223 reads s32 as a signed word. -/
theorem amoExtend_eq (ty : AmoTy) (old : Nat) :
    amoExtend ty old = if ty = .s32 then (BitVec.ofNat 32 old).signExtend 64 else BitVec.ofNat 64 old := by
  rw [amoExtend, wordOfInt, sextNat_eq_toInt]
  rfl

/-- Signed types compare as integers, the others by `min` and `max` (R224). -/
theorem amoApply_eq_amoResult (op : AmoOp) (ty : AmoTy) (old v : Nat) : amoApply op ty old v = amoResult op ty old v := by
  have hbytes : 2 ^ amoTySize ty = amoBytes ty := rfl
  simp only [amoApply, amoResult, hbytes, ← sextNat_eq_toInt]
  cases op with
  | min | max => by_cases hs : ty = .s32 ∨ ty = .s64 <;>
      simp only [Bool.or_eq_true, decide_eq_true_eq, hs, if_true, if_false, Nat.min_def, Nat.max_def]
  | add | and | or | xor | swap | fadd | fmin | fmax => rfl

theorem rmwNew_op (op : AmoOp) (ty : AmoTy) (v : Nat) : rmwNew (some op) ty [v] = fun old => amoResult op ty old v :=
  funext fun old => amoApply_eq_amoResult op ty old v

theorem readAll_of_operand {k k1 : Bank} {src : Src} {v : Word} (h : Operand k src v k1) : k.readAll [src] = .ok ([v], k1) := by
  simp only [Bank.readAll, List.foldlM_cons, List.foldlM_nil, (readSrc_of_operand h).2]
  rfl

/-- An atomic that passes the checks at a place of this device, with nothing before it, goes on there (R202, R217). -/
theorem atomicSetup_reaches {returns : Bool} {srcs : List Src} {dsts : List Dst} {path perm n addr p : Nat} {m : MemRef} {s s1 : State}
    {vs : List Word} {q : Bank} {x : Option Xlat} (f : State → List Word → Bank → Where → Nat → Res) (hdirs : dirs srcs dsts = .ok ())
    (hroom : dsts.forM (here s).roomFor = .ok ()) (hread : (here s).readAll srcs = .ok (vs, q))
    (hat : AtomicAt s (here s) m path perm n addr p x s1) (hbehind : returns = true → (here s).behind path p n = false) :
    atomicSetup returns srcs dsts path perm m n s s.cur.bank f = f s1 vs q (.place p x) addr := by
  obtain ⟨hreach, hecc, hloads⟩ := hat
  obtain ⟨r, hea, hloc⟩ := ea_of_reaches hreach
  have hfree : (decide (path = 0) && (here s).outLoads.any (fun l => overlap l.place l.size p n)) = false := by simpa using hloads
  have hfirst : (returns && (here s).behind path p n) = false := by simpa using hbehind
  simp only [here] at hroom hread hfree hfirst
  simp only [Bank.readAll, bind, Except.bind] at hread
  simp only [atomicSetup, hdirs, hroom, hread, hea, bind, Except.bind, Ev.andThen, cFAULT_WRITE_STRONG, hloc, hecc, hfree, hfirst,
    Bool.false_eq_true, if_false]

/-! ### What an atomic reads and writes (R197, R223, R225). -/

/-- A write joins at its releases whatever the banks hold. -/
theorem State.setBank_tagWrite (s : State) (b : BankId) (k : Bank) (p n core : Nat) (rels : List (Scope × List Nat)) :
    (s.setBank b k).tagWrite p n core rels = (s.tagWrite p n core rels).setBank b k := rfl

/-- Where no pending write meets the bytes, none is performed before them. -/
theorem State.rmw_of_nothing_pending {s : State} {p n : Nat} (b : BankId) (path : Nat) (f : Nat → Nat)
    (h : ∀ q ∈ s.pend, q.meets p n = false) :
    s.rmw b path p n f = (s.readNum p n,
      s.performWrite (if path = 4 then none else some b.core) p (bytesOf n (f (s.readNum p n))) true) := by
  have hseen : (s.seenBy b).filter (fun q => q.meets p n) = [] :=
    List.filter_eq_nil_iff.mpr fun q hq => by
      have hmem : q ∈ s.pend := by
        rcases List.mem_append.mp hq with hq | hq <;> exact (List.mem_filter.mp hq).1
      simp [h q hmem]
  have hhome : s.pend.filter (fun q => q.home && q.meets p n) = [] :=
    List.filter_eq_nil_iff.mpr fun q hq => by simp [h q hq]
  have hvisible : s.pend.filter (fun q => q.visible && q.meets p n) = [] :=
    List.filter_eq_nil_iff.mpr fun q hq => by simp [h q hq]
  have halu : (s.bankAlu b).filter (fun q => q.meets p n) = [] :=
    List.filter_eq_nil_iff.mpr fun q hq => by simp [h q (List.mem_filter.mp hq).1]
  have hsettle : s.settle b p n = s := by
    simp only [State.settle, State.landHome, State.performAll, hseen, hhome, List.foldl_nil]
  have hsettleB : s.settleB b p n = s := by simp only [State.settleB, State.performAll, halu, List.foldl_nil]
  simp only [State.rmw, hsettle, hsettleB, hvisible, State.performAll, List.foldl_nil, ite_self]

end Sys2Proof.Machine

/-! ### Atomics that return the old value (R202, R204, R223, R226). -/
namespace Sys2Proof.Machine
open Claims

/-! Relaxed and acquiring orders (R226). -/

theorem ordRel_eq_false {ord : Order} (hrel : ord ≠ .rel) (har : ord ≠ .ar) : ordRel ord = false := by
  simp [ordRel, hrel, har]

theorem ordAcq_iff {ord : Order} (har : ord ≠ .ar) : ordAcq ord = true ↔ ord = .acq := by
  simp [ordAcq, har]

/-- A relaxed or acquiring atomic on a place of this device, with its sources in registers: the read acquires, the new value
replaces the old one, and the destination takes the old one. -/
theorem atomicReturn_completes {path n addr p : Nat} {op : Option AmoOp} {ty : AmoTy} {ord : Order} {sc : Scope} {rd : Dst} {m : MemRef}
    {srcs : List Src} {s s1 : State} {vs : List Word} {x : Option Xlat} {k : Bank} (hn : amoBytes ty = n) (hdirs : dirs srcs [rd] = .ok ())
    (hroom : Room (here s) rd) (hread : (here s).readAll srcs = .ok (vs, here s)) (hrel : ord ≠ .rel) (har : ord ≠ .ar)
    (hat : AtomicAt s (here s) m path 11 n addr p x s1) (hbehind : (here s).behind path p n = false) :
    let b := s.cur.bank
    let s2 := s1.setBank b (here s)
    let s3 := if path = 0 then s2.readPast b p n else s2
    let s4 := if ord = .acq then s3.acquireOn b path sc p n else s3
    let r := s4.rmw b path p n (rmwNew op ty (vs.map fun v => v.toNat % 2 ^ (8 * n)))
    Result (r.2.bank b) rd (amoExtend ty r.1) k →
    atomicReturn path op ty ord sc rd m srcs s b =
      .done ((r.2.tagWrite p n b.core (if path = 0 then (s4.bank b).relFence else [])).setBank b k) := by
  intro b s2 s3 s4 r hres
  obtain ⟨_, -, hloc⟩ := ea_of_reaches hat.1
  have hqueues : s1.modBank b (fun k => { k with q := (here s).q }) = s2 := by
    rw [State.modBank, (locate_onlyMemory hloc).bank]
    rfl
  have hfree : [rd].forM (here s).roomFor = .ok () := by
    rw [List.forM_eq_forM, List.forM_cons, (roomFor_of_room hroom).2]
    rfl
  subst hn
  rw [atomicReturn, atomicSetup_reaches (perm := pR + pW + pA) _ hdirs hfree hread hat fun _ => hbehind]
  simp only [ordRel_eq_false hrel har, ordAcq_iff har, Bool.false_eq_true, if_false, hqueues]
  change (((r.2.bank b).writeDst rd (amoExtend ty r.1)).andThen _ _) = _
  rw [(writeDst_of_result hres).2]
  exact congrArg Res.done (State.setBank_tagWrite ..)

end Sys2Proof.Machine

namespace Sys2Proof.Claims
open Machine

/-- Each form that returns the old value is one meaning, with its operation, its sources, and the new value that it computes. -/
theorem atomicsComplete : AtomicsComplete := by
  intro g op ty ord sc rd m n2 n3 s s1 addr p x k path i new wide hg hroom t n v c hform hrel har hat hbehind b s2 s3 s4 r hres
  suffices hmeaning : ∃ (o : Option AmoOp) (srcs : List Src) (vs : List Word),
      exec i s = runC g 2 (atomicReturn path o t ord sc rd m srcs) s ∧ dirs srcs [rd] = dirs [] [rd] ∧
      (here s).readAll srcs = .ok (vs, here s) ∧ rmwNew o t (vs.map fun w => w.toNat % 2 ^ (8 * n)) = new by
    obtain ⟨o, srcs, vs, hexec, hdirs, hread, rfl⟩ := hmeaning
    rw [← amoExtend_eq] at hres
    exact hexec.trans (runC_thenPast hg
      (atomicReturn_completes rfl (hdirs.trans (roomFor_of_room hroom).1) hroom hread hrel har hat hbehind hres))
  have hop : t = ty → rmwNew (some op) t [v] = fun old => amoResult op ty old v := fun ht => ht ▸ rmwNew_op op t v
  rcases hform with ⟨rfl, rfl, rfl⟩ | ⟨rfl, rfl, rfl⟩ | ⟨rfl, rfl, rfl⟩ | ⟨rfl, rfl, rfl⟩ | ⟨rfl, rfl, rfl⟩
  · have ht : t = ty := if_neg (by simp)
    exact ⟨some op, [.reg n2], [(here s).getX n2], ht ▸ rfl, rfl, rfl, hop ht⟩
  · have ht : t = ty := if_neg (by simp)
    exact ⟨some op, [.reg n2], [(here s).getX n2], ht ▸ rfl, rfl, rfl, hop ht⟩
  · have ht : t = ty := if_neg (by simp)
    exact ⟨some op, [.reg n2], [(here s).getX n2], ht ▸ rfl, rfl, rfl, hop ht⟩
  · have ht : t = casTy wide := if_pos (.inl rfl)
    exact ⟨none, [.reg n2, .reg n3], [(here s).getX n2, (here s).getX n3], ht ▸ rfl, rfl, rfl, rfl⟩
  · have ht : t = casTy wide := if_pos (.inr rfl)
    exact ⟨none, [.reg n2, .reg n3], [(here s).getX n2, (here s).getX n3], ht ▸ rfl, rfl, rfl, rfl⟩

/-- With no pending write in the way, the write of an atomic is one performed write. -/
theorem atomicWrites : AtomicWrites := by
  intro s b path p n new hwf hpend
  rw [State.rmw_of_nothing_pending b path new hpend]
  have hlen := length_bytesOf n (new (s.readNum p n))
  refine ⟨rfl, ?_, fun a ha => State.readByte_performWrite _ _ _ _ _ a (by rwa [hlen]), (OnlyMemory.performWrite ..).banks,
    State.performWrite_wf _ _ _ _ _ hwf⟩
  have hback := State.readMem_performWrite s (if path = 4 then none else some b.core) p (bytesOf n (new (s.readNum p n))) true hwf
  rw [hlen] at hback
  exact (congrArg natOfBytes hback).trans (natOfBytes_bytesOf ..)

/-- Settles O39: what a returning atomic does, and the bytes that any atomic writes. -/
theorem atomics : Obligations.Atomics := ⟨atomicsComplete, atomicWrites⟩

end Sys2Proof.Claims

/-! ### Return-free atomics (R202, R203, R211, R226, R227). -/
namespace Sys2Proof.Machine
open Claims

/-- A release on path B or N takes its effect when the accepted atomics of its path are over and, with the lists that B's sorts have written,
no fault is to report (R226, R248). -/
theorem releaseOn_takes {s : State} {b : BankId} {path : Nat} {sc : Scope} (f : State → List Nat → Res) (hpath : path ≠ 0)
    (ha : ∀ a ∈ (s.bank b).amons, a.path ≠ path)
    (hh : ((if path = 3 then s.performAll (s.bankAlu b) else s).bank b).held = []) :
    releaseOn s b path sc f = f (if path = 3 then s.performAll (s.bankAlu b) else s) [] := by
  have hover : (s.bank b).amons.any (fun a => a.path = path) = false := by simpa using ha
  simp only [releaseOn, hpath, hover, reportHeld_of_nil hh, Bool.false_eq_true, if_false]

/-- Popping queues leaves the releases that a write carries. -/
theorem State.atomicTags_popped (s : State) (b : BankId) (q : Vector (List Word) 8) (path : Nat) (rel : Option (Scope × List Nat)) :
    (s.modBank b (fun k => { k with q := q })).atomicTags b path rel = s.atomicTags b path rel := by
  simp only [State.atomicTags, State.carried, State.bank_modBank_self]

/-- Two changes of a bank beside a new store number are one. -/
theorem State.modBank_modBank_numbered (s : State) (b : BankId) (f h : Bank → Bank) (n : Nat) :
    { (s.modBank b f).modBank b h with nextStore := n } = { s with nextStore := n }.setBank b (h (f (s.bank b))) := by
  simp only [State.modBank, State.bank_setBank_self, State.setBank_setBank]
  rfl

/-- What a return-free atomic does is to join the accepted ones, after its path's release if it has one. -/
theorem atomicAccept_joins {path addr p : Nat} {op : AmoOp} {ty : AmoTy} {rel : Bool} {sc : Scope} {m : MemRef} {src : Src}
    {s s1 : State} {v : Word} {k1 : Bank} {x : Option Xlat} (hv : Operand (here s) src v k1)
    (hat : AtomicAt s (here s) m path 10 (2 ^ amoTySize ty) addr p x s1) :
    ∃ join : State → List Nat → Res, atomicAccept path op ty rel sc m src s s.cur.bank =
        (if rel then releaseOn s1 s.cur.bank path sc join else join s1 []) ∧
      ∀ t ids, finishC s.cur.bank 2 (here s).c.pc (join t ids) =
        accepted s t k1 path op ty v p addr (t.atomicTags s.cur.bank path (if rel then some (sc, ids) else none)) := by
  have hat' : AtomicAt s (here s) m path (pW + pA) (amoBytes ty) addr p x s1 := hat
  rw [atomicAccept, atomicSetup_reaches _ (dirs_of_operand hv) rfl (readAll_of_operand hv) hat' fun h => absurd h Bool.false_ne_true]
  refine ⟨_, rfl, fun t ids => ?_⟩
  simp only [State.atomicTags_popped]
  exact (congrArg (fun u => finishC s.cur.bank 2 (here s).c.pc (.done u)) (State.modBank_modBank_numbered ..)).trans
    (finishC_done_setBank ..)

/-! ### AMON_PERFORM (R202, R211, R227). -/

/-- TRAPAUX of a held fault that names a path alone (R216). -/
theorem heldAux_path (path : Nat) : heldAux path 0 0 = BitVec.ofNat 64 path := rfl

/-- An accepted atomic that meets an error leaves a held fault in its place (R215, R227). -/
theorem State.performAmon_holds {s : State} {b : BankId} {a : Amon} (h : s.eccAt a.place (2 ^ amoTySize a.ty) = true) :
    s.performAmon b a = (s.modBank b (fun k => { k with amons := k.amons.filter (fun q => q.id ≠ a.id) })).modBank b (fun k =>
      { k with held := if a.path = 0 then holdInOrder ⟨0x38, BitVec.ofNat 64 a.va, 0, a.seq⟩ k.held
                       else k.held ++ [⟨0x38, BitVec.ofNat 64 a.va, BitVec.ofNat 64 a.path, 0⟩] }) := by
  refine (if_pos h).trans ?_
  by_cases hpath : a.path = 0
  · simp only [hpath, if_true, heldAux_path]
    rfl
  · simp only [hpath, if_false, heldAux_path]
    rfl

/-- Otherwise it reads and writes its bytes, and its write carries its releases (R204, R227). -/
theorem State.performAmon_writes {s : State} {b : BankId} {a : Amon} (h : s.eccAt a.place (2 ^ amoTySize a.ty) = false) :
    let n := 2 ^ amoTySize a.ty
    let s1 := s.modBank b (fun k => { k with amons := k.amons.filter (fun q => q.id ≠ a.id) })
    let s2 := if a.path = 0 then s1.readPast b a.place n else s1
    s.performAmon b a =
      (s2.rmw b a.path a.place n (fun old => amoResult a.op a.ty old a.val.toNat)).2.tagWrite a.place n b.core a.rel := by
  rw [← rmwNew_op]
  exact if_neg (Bool.eq_false_iff.mp h)

/-- An accepted operation waits for those that it must follow; the last one of an aborted job may end the abort (R211, R378). -/
theorem amonPerform_performs {s : State} {b : BankId} {a : Amon} (hfind : (s.bank b).amons.find? (fun q => q.id = a.id) = some a) :
    exec (.amonPerform b a.id) s = if ({ s.bank b with amons := (s.bank b).amons.takeWhile (fun q => q.id ≠ a.id) } : Bank).behind
        a.path a.place (2 ^ amoTySize a.ty) = true then .next s
      else .next (match (s.bank b).binding with
        | some c => (s.performAmon b a).finishAbort c.job
        | none => s.performAmon b a) := by
  change execAmonPerform b a.id s = _
  simp only [execAmonPerform, hfind]
  cases (s.bank b).binding <;> rfl

end Sys2Proof.Machine

namespace Sys2Proof.Claims
open Machine

/-- Each of the three forms, once nothing holds back the release that it may have first, is accepted from the state after it (R227). -/
theorem amon_accepts {g : Guard} {op : AmoOp} {ty : AmoTy} {rel : Bool} {sc : Scope} {m : MemRef} {src : Src} {s s1 : State} {v : Word}
    {k1 : Bank} {addr p : Nat} {x : Option Xlat} {path : Nat} {i : Instr} (hg : goes g s)
    (hform : i = .amon g op ty rel sc m src ∧ path = 0 ∨ i = .amonB g op ty rel sc m src ∧ path = 3 ∨
      i = .amonN g op ty rel sc m src ∧ path = 4)
    (hv : Operand (here s) src v k1) (hat : AtomicAt s (here s) m path 10 (2 ^ amoTySize ty) addr p x s1) :
    ∃ join : State → List Nat → Res, ∀ t ids,
      (if rel then releaseOn s1 s.cur.bank path sc join else join s1 []) = join t ids →
      exec i s = .next (accepted s t k1 path op ty v p addr (t.atomicTags s.cur.bank path (if rel then some (sc, ids) else none))) := by
  have hexec : exec i s = runC g 2 (atomicAccept path op ty rel sc m src) s := by
    rcases hform with ⟨rfl, rfl⟩ | ⟨rfl, rfl⟩ | ⟨rfl, rfl⟩ <;> rfl
  obtain ⟨join, hmeaning, hjoin⟩ := atomicAccept_joins (rel := rel) (sc := sc) hv hat
  refine ⟨join, fun t ids htakes => ?_⟩
  rw [hexec, runC_runs hg, hmeaning, htakes]
  exact congrArg Host.Outcome.next (hjoin t ids)

/-- Settles O11: an accepted operation joins the others after its path's release, and AMON_PERFORM performs it or holds its fault. -/
theorem returnFreeAtomics : Obligations.ReturnFreeAtomics := by
  refine ⟨fun g op ty rel sc m src s s1 v k1 addr p x path i hg hform hv hat => ?_, fun s b a hfind => ?_⟩
  · intro b
    obtain ⟨_, -, hloc⟩ := ea_of_reaches hat.1
    have hsame : s1.bank b = here s := (locate_onlyMemory hloc).bank b
    obtain ⟨join, haccept⟩ := amon_accepts hg hform hv hat
    refine ⟨?_, ?_, ?_⟩
    · rintro rfl
      rw [← hsame]
      exact haccept s1 [] rfl
    · rintro rfl rfl hl ha s2 hh
      exact haccept s2 _ (releaseC_takes join (hsame ▸ hl) (hsame ▸ ha) hh)
    · rintro rfl hpath ha s2 hh
      refine (haccept s2 [] (releaseOn_takes join hpath (hsame ▸ ha) hh)).trans ?_
      rw [State.atomicTags, if_neg hpath]
      rfl
  · intro n late s1 s2 t
    have ht : s.performAmon b a = t := by
      simp only [t]
      split
      · next hecc => exact State.performAmon_holds hecc
      · next hecc => exact State.performAmon_writes (Bool.eq_false_iff.mpr hecc)
    have hperform := amonPerform_performs hfind
    rw [ht] at hperform
    exact ⟨fun hlate => hperform.trans (if_neg (Bool.eq_false_iff.mp hlate)), fun hlate => hperform.trans (if_pos hlate)⟩

end Sys2Proof.Claims
